-- ==== Sys2Proof/Word.lean ====
section
/-! DEFINITION. The word types of the Z1 (R5, R6, R68) and their plainest names. -/

namespace Sys2Proof

/-- A 32-bit instruction word or register value. -/
abbrev Word := BitVec 32
/-- A 64-bit pair value. -/
abbrev DWord := BitVec 64
/-- One byte of memory. -/
abbrev Byte := BitVec 8
/-- A 24-bit eartag (R68). -/
abbrev Tag := BitVec 24
/-- A 7-bit register field v0 to v127 (R314). -/
abbrev VReg := BitVec 7
/-- A predicate field p0 to p7 (R314). -/
abbrev PReg := BitVec 3

end Sys2Proof
end

