-- ==== Sys2Proof/Machine/Bits.lean ====
section
/-! DEFINITION. Bit fields, sign extension and byte order (R5, R6), written once. -/

namespace Sys2Proof.Machine

/-- The bits [lo + n − 1 : lo] of a bit vector. -/
def fld {w : Nat} (x : BitVec w) (lo n : Nat) : BitVec n := x.extractLsb' lo n

/-- One bit as a Bool. -/
def bit {w : Nat} (x : BitVec w) (i : Nat) : Bool := x.getLsbD i

/-- The bits [lo + n − 1 : lo] of a number. -/
def nfld (x lo n : Nat) : Nat := x / 2 ^ lo % 2 ^ n

/-- The signed value of the low `n` bits of a number. -/
def sext (n x : Nat) : Int :=
  let m := x % 2 ^ n
  if n = 0 then 0 else if m < 2 ^ (n - 1) then (m : Int) else (m : Int) - ((2 ^ n : Nat) : Int)

/-- An integer taken modulo 2^n. -/
def wrapInt (n : Nat) (x : Int) : Nat := (x % ((2 ^ n : Nat) : Int)).toNat

/-- Little-endian bytes of a number: `n` bytes, lowest address first (R6). -/
def toBytes : Nat → Nat → List Byte
  | 0, _ => []
  | n + 1, x => BitVec.ofNat 8 x :: toBytes n (x / 256)

/-- The number little-endian bytes hold (R6). -/
def ofBytes : List Byte → Nat
  | [] => 0
  | b :: bs => b.toNat + 256 * ofBytes bs

/-- A Bool as one bit. -/
def b1 (b : Bool) : BitVec 1 := if b then 1#1 else 0#1

/-- Apply a function n times, the step number rising. -/
def iter {α : Type} (f : Nat → α → α) : Nat → α → α
  | 0, a => a
  | n + 1, a => f n (iter f n a)

end Sys2Proof.Machine
end

