-- ==== Sys2Proof/Machine/Float.lean ====
section
/-! DEFINITION. Number formats (R98, R99), exact values, rounding (R100), NaNs and zeros (R101 to R103), narrowing
(R104). Exact arithmetic is done on integers and rounded once. -/

namespace Sys2Proof.Machine

/-- A floating-point format (R98). `special` 0: infinities and NaNs as IEEE; 1: E4M3; 2: E2M1. -/
structure Fmt where
  eb : Nat
  mb : Nat
  bias : Nat
  special : Nat
  deriving DecidableEq, Repr

/-- FP32 (R98). -/
def fF32 : Fmt := ⟨8, 23, 127, 0⟩
/-- FP16 (R98). -/
def fF16 : Fmt := ⟨5, 10, 15, 0⟩
/-- BF16 (R98). -/
def fBF16 : Fmt := ⟨8, 7, 127, 0⟩
/-- E4M3 (R98). -/
def fE4M3 : Fmt := ⟨4, 3, 7, 1⟩
/-- E5M2 (R98). -/
def fE5M2 : Fmt := ⟨5, 2, 15, 0⟩
/-- E2M1 (R98). -/
def fE2M1 : Fmt := ⟨2, 1, 1, 2⟩

/-- Bits of a format. -/
def Fmt.width (f : Fmt) : Nat := 1 + f.eb + f.mb

/-- The exact value of a code: NaN, an infinity, or (−1)^neg × m × 2^e. -/
inductive FVal where
  | nan
  | inf (neg : Bool)
  | num (neg : Bool) (m : Nat) (e : Int)
  deriving DecidableEq, Repr

/-- Exponent of one unit of a subnormal. -/
def Fmt.unit (f : Fmt) : Int := 1 - (f.bias : Int) - (f.mb : Int)

/-- The value a code stands for (R98). -/
def Fmt.dec (f : Fmt) (x : Nat) : FVal :=
  let neg := x.testBit (f.eb + f.mb)
  let e := nfld x f.mb f.eb
  let m := x % 2 ^ f.mb
  let ones := 2 ^ f.eb - 1
  if f.special = 0 ∧ e = ones then (if m = 0 then .inf neg else .nan)
  else if f.special = 1 ∧ e = ones ∧ m = 2 ^ f.mb - 1 then .nan
  else if e = 0 then .num neg m f.unit
  else .num neg (2 ^ f.mb + m) (f.unit + ((e : Int) - 1))

/-- The sign bit of a code. -/
def Fmt.signBit (f : Fmt) (neg : Bool) : Nat := if neg then 2 ^ (f.eb + f.mb) else 0

/-- The code of the largest finite magnitude (R98). -/
def Fmt.maxCode (f : Fmt) : Nat :=
  if f.special = 0 then (2 ^ f.eb - 2) * 2 ^ f.mb + (2 ^ f.mb - 1)
  else if f.special = 1 then 0x7E else 0x7

/-- The code of an infinity. -/
def Fmt.infCode (f : Fmt) (neg : Bool) : Nat := f.signBit neg + (2 ^ f.eb - 1) * 2 ^ f.mb

/-- The canonical NaN (R101); E2M1 has none and takes +6 (R104). -/
def Fmt.nanCode (f : Fmt) : Nat :=
  if f.special = 0 then (2 ^ f.eb - 1) * 2 ^ f.mb + 2 ^ (f.mb - 1)
  else if f.special = 1 then 0x7F else 0x7

/-- Whether a ≥ b × 2^k. -/
def geShift (a b : Nat) (k : Int) : Bool :=
  if 0 ≤ k then decide (b * 2 ^ k.toNat ≤ a) else decide (b ≤ a * 2 ^ (-k).toNat)

/-- Floor of the binary logarithm of num / den. -/
def ratLog2 (num den : Nat) : Int :=
  let l : Int := (num.log2 : Int) - (den.log2 : Int)
  if geShift num den l then l else l - 1

/-- Round num / den to a multiple of 2^k: modes 0 nearest even, 1 toward zero, 2 toward −∞, 3 toward +∞ (R100). -/
def roundQ (mode : Nat) (neg : Bool) (num den : Nat) (k : Int) : Nat :=
  let n := if 0 ≤ k then num else num * 2 ^ (-k).toNat
  let d := if 0 ≤ k then den * 2 ^ k.toNat else den
  let q := n / d
  let r := n % d
  let up : Bool :=
    match mode with
    | 0 => decide (d < 2 * r) || (2 * r == d && q % 2 == 1)
    | 1 => false
    | 2 => neg && r != 0
    | _ => !neg && r != 0
  if up then q + 1 else q

/-- A rounded magnitude q × 2^k, with the exponent unbounded above (R100). -/
def Fmt.roundMag (f : Fmt) (mode : Nat) (neg : Bool) (num den : Nat) : Nat × Int :=
  if num = 0 then (0, f.unit)
  else
    let l := ratLog2 num den
    let k := max (l - (f.mb : Int)) f.unit
    (roundQ mode neg num den k, k)

/-- The code of a magnitude without its sign, as if the exponent field had no bound. -/
def Fmt.magCode (f : Fmt) (q : Nat) (k : Int) : Nat := if q = 0 then 0 else (k - f.unit).toNat * 2 ^ f.mb + q

/-- Whether a directed mode rounds away from zero for the sign (R104). -/
def roundsAway (mode : Nat) (neg : Bool) : Bool := mode == 0 || (mode == 2 && neg) || (mode == 3 && !neg)

/-- A code with the birth kind of its narrowing; 0 is no birth. -/
structure Narrowed where
  code : Nat
  kind : Nat
  deriving DecidableEq, Repr

/-- Narrow a finite rational to a float format (R104). FP32 as a target follows the IEEE result. -/
def Fmt.narrowRat (f : Fmt) (mode : Nat) (ovf : Bool) (neg : Bool) (num den : Nat) : Narrowed :=
  let r := f.roundMag mode neg num den
  let c := f.magCode r.1 r.2
  if c ≤ f.maxCode then ⟨f.signBit neg + c, 0⟩
  else
    let sat : Narrowed := ⟨f.signBit neg + f.maxCode, 3⟩
    let ieee : Narrowed := if roundsAway mode neg then ⟨f.infCode neg, 2⟩ else sat
    if f.special = 1 then (if ovf then ⟨f.nanCode, 1⟩ else sat)
    else if f.special = 2 then sat
    else if f.width = 8 then (if ovf then ieee else sat)
    else if ovf then sat else ieee

/-- A magnitude m × 2^e as a rational. -/
def ratOf (m : Nat) (e : Int) : Nat × Nat := if 0 ≤ e then (m * 2 ^ e.toNat, 1) else (m, 2 ^ (-e).toNat)

/-- Narrow an exact value to a float format (R104). -/
def Fmt.narrow (f : Fmt) (mode : Nat) (ovf : Bool) : FVal → Narrowed
  | .nan => ⟨f.nanCode, if f.special = 2 then 3 else 0⟩
  | .inf neg =>
    if f.special = 1 then (if ovf then ⟨f.nanCode, 0⟩ else ⟨f.signBit neg + f.maxCode, 3⟩)
    else if f.special = 2 then ⟨f.signBit neg + f.maxCode, 3⟩
    else ⟨f.infCode neg, 0⟩
  | .num neg m e => f.narrowRat mode ovf neg (ratOf m e).1 (ratOf m e).2

/-- Round an exact value to a format, to nearest even, as an arithmetic result (R100) (log entry 44, DEDUCED). -/
def Fmt.round (f : Fmt) (v : FVal) : Nat := (f.narrow 0 false v).code

/-! ## Exact arithmetic -/

/-- Whether a value is NaN. -/
def FVal.isNaN : FVal → Bool
  | .nan => true
  | _ => false
/-- Whether a value is an infinity. -/
def FVal.isInf : FVal → Bool
  | .inf _ => true
  | _ => false
/-- Whether a value is finite. -/
def FVal.isFin : FVal → Bool
  | .num _ _ _ => true
  | _ => false
/-- Whether a value is a zero of either sign. -/
def FVal.isZero : FVal → Bool
  | .num _ m _ => m == 0
  | _ => false
/-- The sign. -/
def FVal.neg : FVal → Bool
  | .nan => false
  | .inf n => n
  | .num n _ _ => n

/-- Exact product (R103) (log entry 44, DEDUCED). -/
def FVal.mul (a b : FVal) : FVal :=
  match a, b with
  | .nan, _ => .nan
  | _, .nan => .nan
  | .inf n, y => if y.isZero then .nan else .inf (n != y.neg)
  | x, .inf n => if x.isZero then .nan else .inf (x.neg != n)
  | .num n m e, .num n' m' e' => .num (n != n') (m * m') (e + e')

/-- The integer a finite value is, in units of 2^k with k at most its exponent. -/
def FVal.units (k : Int) : FVal → Int
  | .num n m e => let x : Int := ((m * 2 ^ (e - k).toNat : Nat) : Int); if n then -x else x
  | _ => 0

/-- The exponent of a finite value. -/
def FVal.exp : FVal → Int
  | .num _ _ e => e
  | _ => 0

/-- The least exponent of a list. -/
def leastExp (l : List FVal) : Int :=
  match l with
  | [] => 0
  | x :: xs => xs.foldl (fun k y => min k y.exp) x.exp

/-- Exact sum of any number of terms: +0 when it is zero, unless every term is −0 (R103) (log entry 44, DEDUCED). -/
def fsum (l : List FVal) : FVal :=
  if l.any FVal.isNaN then .nan
  else
    let pos := l.any fun x => x == .inf false
    let neg := l.any fun x => x == .inf true
    if pos && neg then .nan
    else if pos then .inf false
    else if neg then .inf true
    else
      let k := leastExp l
      let t := l.foldl (fun (s : Int) x => s + x.units k) 0
      if t = 0 then .num (!l.isEmpty && l.all fun x => x.isZero && x.neg) 0 0
      else .num (decide (t < 0)) t.natAbs k

/-- Order of two values that are not NaN, −0 below +0 when `signed` (R103): −1, 0 or 1. -/
def fcompare (signed : Bool) (a b : FVal) : Int :=
  match a, b with
  | .inf n, .inf n' => if n = n' then 0 else if n then -1 else 1
  | .inf n, _ => if n then -1 else 1
  | _, .inf n => if n then 1 else -1
  | x, y =>
    let k := min x.exp y.exp
    let u := x.units k
    let v := y.units k
    if u < v then -1 else if v < u then 1
    else if signed && x.isZero && y.isZero && x.neg != y.neg then (if x.neg then -1 else 1)
    else 0

/-! ## Flush to zero (R102) -/

/-- Whether a code is a subnormal. -/
def Fmt.subnormal (f : Fmt) (x : Nat) : Bool := nfld x f.mb f.eb == 0 && x % 2 ^ f.mb != 0

/-- A subnormal becomes a zero of its sign. -/
def Fmt.flush (f : Fmt) (ftz : Bool) (x : Nat) : Nat :=
  if ftz && f.subnormal x then f.signBit (x.testBit (f.eb + f.mb)) else x

/-- An operand as a vector instruction reads it. -/
def Fmt.opnd (f : Fmt) (ftz : Bool) (x : Nat) : FVal := f.dec (f.flush ftz x)

/-- A result as a vector instruction writes it. -/
def Fmt.result (f : Fmt) (ftz : Bool) (v : FVal) : Nat := f.flush ftz (f.round v)

/-- The birth a float result is (R73, R75): 1 a NaN from operands none of which is NaN, 2 an infinity from finite
operands, 0 none. -/
def Fmt.birthKind (f : Fmt) (r : Nat) (ops : List FVal) : Nat :=
  match f.dec r with
  | .nan => if ops.any FVal.isNaN then 0 else 1
  | .inf _ => if ops.all FVal.isFin then 2 else 0
  | _ => 0

/-- FMIN or FMAX of two codes (R103): the result code, and the operand it chose (0 neither or equal, 1 a, 2 b). -/
def Fmt.minmax (f : Fmt) (ftz : Bool) (isMax : Bool) (a b : Nat) : Nat × Nat :=
  let x := f.opnd ftz a
  let y := f.opnd ftz b
  if x.isNaN && y.isNaN then (f.nanCode, 0)
  else if x.isNaN then (f.flush ftz b, 2)
  else if y.isNaN then (f.flush ftz a, 1)
  else
    let c := fcompare true x y
    if c = 0 then (f.flush ftz a, 0)
    else if (decide (c < 0)) != isMax then (f.flush ftz a, 1) else (f.flush ftz b, 2)

/-! ## Integers -/

/-- Round an exact value to an integer range by a mode (R100, R104): the integer and whether it saturated. -/
def toIntRange (mode : Nat) (lo hi : Int) : FVal → Int × Bool
  | .nan => (0, true)
  | .inf n => (if n then lo else hi, true)
  | .num n m e =>
    let r := ratOf m e
    let q := roundQ mode n r.1 r.2 0
    let v : Int := if n then -(q : Int) else (q : Int)
    if v < lo then (lo, true) else if hi < v then (hi, true) else (v, false)

/-- An integer as an exact value. -/
def FVal.ofInt (x : Int) : FVal := .num (decide (x < 0)) x.natAbs 0

end Sys2Proof.Machine
end

