-- ==== Sys2Proof/Syntax.lean ====
section
/-! DEFINITION. The instructions and the steps of the Z1: one constructor of `Instr` per row of the opcode table.
Instruction forms carry the encoded fields (R315 to R326) at their exact widths; steps of other agents
(spec/95) carry what the agent decides. -/

namespace Sys2Proof

/-- d, a, b of the R3 format with the type variant V (R320, major 1 and shuffles). -/
structure FVdab where
  v : BitVec 2
  d : VReg
  a : VReg
  b : VReg
  deriving DecidableEq, Repr

/-- d, a, b (R315). -/
structure Fdab where
  d : VReg
  a : VReg
  b : VReg
  deriving DecidableEq, Repr

/-- d, a (R315). -/
structure Fda where
  d : VReg
  a : VReg
  deriving DecidableEq, Repr

/-- Width (false 32-bit, true 64-bit), d, a: the V codes 0 and 2 of major 29 (R320). -/
structure FWda where
  wide : Bool
  d : VReg
  a : VReg
  deriving DecidableEq, Repr

/-- V, d, a of MATCH (R392). -/
structure FVda where
  v : BitVec 2
  d : VReg
  a : VReg
  deriving DecidableEq, Repr

/-- Packed 16-bit operations: H (false BF16, true FP16), d, a, b (R367). -/
structure FHdab where
  h : Bool
  d : VReg
  a : VReg
  b : VReg
  deriving DecidableEq, Repr

/-- FCVT (R370). -/
structure FCvt where
  ovf : Bool
  rnd : BitVec 2
  d : VReg
  a : VReg
  tgt : BitVec 4
  src : BitVec 3
  deriving DecidableEq, Repr

/-- QUANT (R412). -/
structure FQuant where
  tgt : BitVec 2
  d : VReg
  a : VReg
  b : VReg
  deriving DecidableEq, Repr

/-- The R4 format with c among v0 to v63 (R374, R381). -/
structure FR4 where
  d : VReg
  a : VReg
  b : VReg
  c : BitVec 6
  deriving DecidableEq, Repr

/-- FMA2 (R367). -/
structure FFma2 where
  d : VReg
  a : VReg
  b : VReg
  h : Bool
  c : BitVec 5
  deriving DecidableEq, Repr

/-- SEL (R424). -/
structure FSel where
  d : VReg
  a : VReg
  b : VReg
  neg : Bool
  p : PReg
  deriving DecidableEq, Repr

/-- BFI (R339). -/
structure FBfi where
  d : VReg
  a : VReg
  b : VReg
  c : BitVec 5
  deriving DecidableEq, Repr

/-- BFX: signed, d, a, b (R340). -/
structure FBfx where
  sgn : Bool
  d : VReg
  a : VReg
  b : VReg
  deriving DecidableEq, Repr

/-- The I format (R315). -/
structure FImm where
  d : VReg
  a : VReg
  imm : BitVec 13
  deriving DecidableEq, Repr

/-- ICMPI (R380). -/
structure FCmpI where
  cond : BitVec 4
  pd : PReg
  a : VReg
  imm : BitVec 13
  deriving DecidableEq, Repr

/-- The MV format (R315). -/
structure FMov where
  d : VReg
  imm : BitVec 20
  deriving DecidableEq, Repr

/-- The M format of LD and ST (R317). -/
structure FMem where
  d : VReg
  p : BitVec 5
  f : Bool
  w : BitVec 3
  sp : BitVec 2
  off : BitVec 9
  deriving DecidableEq, Repr

/-- LDG and STX (R318). -/
structure FGather where
  d : VReg
  p : BitVec 5
  b : VReg
  w : BitVec 3
  sp : BitVec 2
  f : Bool
  deriving DecidableEq, Repr

/-- The strong forms of LD and ST (R318, R388). -/
structure FStrong where
  d : VReg
  p : BitVec 5
  f : Bool
  w : BitVec 3
  sc : BitVec 3
  off : BitVec 6
  deriving DecidableEq, Repr

/-- ATOM (R333). -/
structure FAtom where
  aop : BitVec 3
  t : BitVec 3
  sc : BitVec 3
  f : Bool
  p : BitVec 4
  b : BitVec 6
  d : BitVec 6
  deriving DecidableEq, Repr

/-- RED (R414). -/
structure FRed where
  aop : BitVec 3
  t : BitVec 3
  sc : BitVec 3
  f : Bool
  p : BitVec 4
  b : BitVec 6
  deriving DecidableEq, Repr

/-- BRA (R341). -/
structure FBra where
  p : PReg
  neg : Bool
  off : BitVec 23
  deriving DecidableEq, Repr

/-- VOTE (R436). -/
structure FVote where
  v : BitVec 2
  d : VReg
  neg : Bool
  p : PReg
  deriving DecidableEq, Repr

/-- REDUX (R415). -/
structure FRedux where
  d : VReg
  a : VReg
  scan : Bool
  ty : BitVec 3
  op : BitVec 3
  deriving DecidableEq, Repr

/-- ICMP (R380). -/
structure FICmp where
  wide : Bool
  cond : BitVec 4
  pd : PReg
  a : VReg
  b : VReg
  deriving DecidableEq, Repr

/-- FCMP (R369). -/
structure FFCmp where
  cond : BitVec 4
  pd : PReg
  a : VReg
  b : VReg
  deriving DecidableEq, Repr

/-- PAND, POR, PXOR (R407). -/
structure FPred where
  pd : PReg
  na : Bool
  pa : PReg
  nb : Bool
  pb : PReg
  deriving DecidableEq, Repr

/-- PNOT (R407). -/
structure FPnot where
  pd : PReg
  na : Bool
  pa : PReg
  deriving DecidableEq, Repr

/-- BARINIT with n in I10[7:0] (R336). -/
structure FBarInit where
  p : BitVec 5
  off : BitVec 7
  arv : Bool
  n : BitVec 8
  deriving DecidableEq, Repr

/-- BARINIT with n in the extension word (R336). -/
structure FBarInitL where
  p : BitVec 5
  off : BitVec 7
  arv : Bool
  n : BitVec 16
  deriving DecidableEq, Repr

/-- BARARV; `x` is the .x space (R336). -/
structure FBarArv where
  p : BitVec 5
  off : BitVec 7
  x : Bool
  deriving DecidableEq, Repr

/-- An object address and one register: BAREXP (R336), WAITP with a register (R434). -/
structure FObjReg where
  p : BitVec 5
  off : BitVec 7
  r : VReg
  deriving DecidableEq, Repr

/-- WAITP with n in I10[7:0] (R434). -/
structure FWait where
  p : BitVec 5
  off : BitVec 7
  n : BitVec 8
  deriving DecidableEq, Repr

/-- WAITP with n in the extension word (R434). -/
structure FWaitL where
  p : BitVec 5
  off : BitVec 7
  n : BitVec 12
  deriving DecidableEq, Repr

/-- The phase operand of TRYWAIT: an immediate or a register (R434). -/
inductive PhaseArg where
  | imm (n : BitVec 12)
  | reg (r : VReg)
  deriving DecidableEq, Repr

/-- TRYWAIT (R434). -/
structure FTry where
  p : BitVec 5
  off : BitVec 7
  pd : PReg
  h : VReg
  n : PhaseArg
  deriving DecidableEq, Repr

/-- MONITOR; `s` is the .s space (R399). -/
structure FMonitor where
  p : BitVec 5
  off : BitVec 7
  s : Bool
  deriving DecidableEq, Repr

/-- CPY, short form (R353). -/
structure FCpy where
  f : Bool
  sp : BitVec 3
  dp : BitVec 5
  sr : BitVec 5
  n : BitVec 4
  bar : BitVec 5
  deriving DecidableEq, Repr

/-- CPY, long form (R353, R324). -/
structure FCpyL where
  f : Bool
  ds : BitVec 2
  ss : BitVec 2
  n : VReg
  dp : BitVec 5
  sr : BitVec 5
  nobar : Bool
  barp : BitVec 5
  baroff : BitVec 11
  doff : BitVec 16
  soff : BitVec 16
  deriving DecidableEq, Repr

/-- CPYCV (R353, R355). -/
structure FCpyCv where
  f : Bool
  ds : BitVec 2
  ss : BitVec 2
  n : VReg
  dp : BitVec 5
  sr : BitVec 5
  nobar : Bool
  barp : BitVec 5
  baroff : BitVec 11
  doff : BitVec 16
  td : BitVec 4
  ts : BitVec 4
  ovf : Bool
  soff : BitVec 16
  deriving DecidableEq, Repr

/-- CPYT (R353). -/
structure FCpyT where
  f : Bool
  p : BitVec 6
  off : BitVec 16
  deriving DecidableEq, Repr

/-- CPYA and RING without an extension word: pair and two registers (R353, R420). -/
structure FPairTwo where
  f : Bool
  p : BitVec 6
  r : VReg
  q : VReg
  deriving DecidableEq, Repr

/-- CPYA and RING with an extension word (R353, R420). -/
structure FPairTwoL where
  f : Bool
  p : BitVec 6
  r : VReg
  q : VReg
  off : BitVec 16
  deriving DecidableEq, Repr

/-- MMA and ACCHK: a register, a pair, an offset (R330, R397). -/
structure FMma where
  f : Bool
  r : VReg
  p : BitVec 6
  off : BitVec 10
  deriving DecidableEq, Repr

/-- ACCLD (R331). -/
structure FAccLd where
  f : Bool
  tile : BitVec 8
  p : BitVec 6
  off : BitVec 8
  deriving DecidableEq, Repr

/-- ACCST (R331). -/
structure FAccSt where
  f : Bool
  bf : Bool
  tile : BitVec 8
  p : BitVec 6
  off : BitVec 8
  deriving DecidableEq, Repr

/-- ACCZ; `n1` is n − 1 (R331). -/
structure FAccZ where
  f : Bool
  tile : BitVec 8
  n1 : BitVec 8
  deriving DecidableEq, Repr

/-- COLPOST d, a and COLFIRE a, b with the F bit (R214). -/
structure FCol where
  f : Bool
  r : VReg
  q : VReg
  deriving DecidableEq, Repr

/-- COLOR (R351). -/
structure FColor where
  mark : Bool
  f : Bool
  d : VReg
  a : VReg
  b : VReg
  deriving DecidableEq, Repr

/-- WATCH; `ctx` is the .ctx form (R437). -/
structure FWatch where
  ctx : Bool
  a : VReg
  b : VReg
  deriving DecidableEq, Repr

/-- Two source registers: INJECT d b, SPAWN a b (R382, R426). -/
structure FTwo where
  r : VReg
  q : VReg
  deriving DecidableEq, Repr

/-- INJECT.acc (R382). -/
structure FInjAcc where
  f : Bool
  tile : BitVec 8
  a : VReg
  b : VReg
  deriving DecidableEq, Repr

/-- Where a thread is placed: the parameters of CREW_PLACE and CREW_RESTORE for one crew: its ordinal in the launch
(or its crew number for a restore), its core and the quadrant of each warp (R35: the scheduler picks). -/
structure Placement where
  crew : Nat
  core : Nat
  quads : List Nat
  deriving DecidableEq, Repr

/-- One route of a communicator (R211): tree or ring, and the port of each of its links at this device. -/
structure Route where
  ring : Bool
  ports : List Nat
  deriving DecidableEq, Repr

/-- Pens of R250 that an error can strike. -/
inductive Pen where
  | device                          -- the device pen
  | thread (uid : Nat)              -- register file and eartag shadow
  | scrLine (core line : Nat)
  | accTile (core tile : Nat)
  | matrixEntry (core i : Nat)
  | copyEntry (copy : Nat)
  | storeEntry (uid i : Nat)        -- the store FIFO of a thread
  | pathEntry (core path i : Nat)   -- a path's queue at a core: 0 stores at the core point, 1 landings, 2 scatter writes
  | armedEntry (core i : Nat)
  | icacheLine (core ctx addr : Nat)
  | l1Line (core quad ctx va : Nat)   -- a memory line, named by a context's address of it
  | l2Line (ctx va : Nat)           -- a line of its home slice, named likewise
  | memGranule (ctx va : Nat)
  | tlb1 (core i : Nat)
  | lltlb (die i : Nat)
  | pailEntry (quad i : Nat)
  | spawnBin (quad i : Nat)
  | predictor (core i : Nat)
  | trigger (core i : Nat)
  | crew (uid : Nat)                -- meet objects, crew barrier
  | posted (i : Nat)                -- posted-collective table
  | command (stack i : Nat)         -- base-die command queue
  | staging (ctx : Nat)
  | graph (ctx : Nat)
  deriving DecidableEq, Repr

/-- The instructions and steps of the Z1. -/
inductive Instr where
  -- steps of the launcher, the quadrants and the graph engine
  | warpFormation (core quad : Nat)
  | icacheFill (core ctx addr : Nat)
  | spawnBinTimer (core quad bin : Nat)
  | spawnBinLaunch (core quad bin : Nat)
  | sqtail (vd q value : Nat)
  | cqhead (vd q value : Nat)
  | queueEnable (vd q : Nat)
  | registerWrite (vd off value : Nat)
  | launch (vd q id : Nat)
  | graphStart (vd q : Nat)
  | queueBarrier (vd q : Nat)
  | invalidEntry (vd q : Nat)
  | completionEntryWrite (vd q i : Nat)
  | crewPlace (launch : Nat) (places : List Placement)
  | launchComplete (launch : Nat)
  | graphKernelFire (ctx node id : Nat)
  | graphConditionalFire (ctx node : Nat)
  | graphWhileFire (ctx node : Nat)
  -- steps of the ordering machine
  | storeFifoDrain (uid : Nat)
  | corePointDrain (core i : Nat)
  | diePointDrain (die i : Nat)
  | fabricPointPerform (i : Nat)
  | loadReturn (i : Nat)
  | gatherWritePerform (core i : Nat)
  | copyLanding (copy k : Nat)
  | copyGlobalPerform (core i : Nat)
  | copyComplete (copy : Nat)
  | copyPageResume (copy : Nat)
  | ringLanding (i : Nat)
  -- steps of the matrix engine, barriers and timers
  | matrixOpHead (core : Nat)
  | matrixOpComplete (core : Nat)
  | gangArrival (i : Nat)
  | mwaitTimeout (uid : Nat)
  | trywaitTimeout (uid : Nat)
  | watchdogExpiry (uid : Nat)
  -- traps, page faults, pre-emption
  | trapDelivery (uid : Nat)
  | pageFaultResolve (uid : Nat)
  | pageUnmappable (kind i : Nat)
  | preemptRequest (crew : Nat)
  | preemptCancel (crew : Nat)
  | lightSave (crew : Nat)
  | forcedSave (crew : Nat)
  | crewRestore (places : List Placement)
  | debugHalt (crew : Nat)
  | vdTurnEnd (vd : Nat)
  | vdConfig (w0 w1 w2 w3 : Word)
  | partitionConfig (i : Nat) (map : List DWord) (wsave : Nat)
  | forkStart (uid : Nat)
  | waitForWalk (ctx : Nat)
  | walkRequest (ctx : Nat)
  | counterTrigger (tick : Nat)
  | counterLatch
  | counterAutoTrigger
  -- collectives
  | parlourPost (clock ctx cid rank : Nat) (fields : List Nat)
  | ticket (i value clock : Nat)
  | collectiveStart (i : Nat)
  | ready (ctx cid rank clock : Nat)
  | go (i clock : Nat)
  | withdraw (ctx cid rank clock : Nat)
  | withdrawAck (i clock : Nat)
  | chunkComplete (i chunk status : Nat)
  | receiveReduceArrive (i chunk elt ranks : Nat) (data : List Nat) (marks : List (Nat × Nat × Tag))
  | baseDieReduce (stack : Nat)
  | collectiveLanding (i : Nat)
  | flitReceive (port : Nat) (good : Bool)
  | linkTrain (port width : Nat)
  | commCreate (ctx i : Nat) (members : List Nat) (routes : List Route) (accepted : Bool)
  -- host, operating system, device
  | hostWrite (part addr : Nat) (data : List Byte) (via : Option Nat)
  | invalidate (ctx lo hi : Nat)
  | snapshot (ctx : Nat)
  | peerApertureGrant (part entry : Nat) (value : DWord)
  | powerOn
  | coreBatchRelease (good bad : List Nat)
  | stackJoin (stack : Nat)
  | stackTrained (stack : Nat) (good : Bool)
  | flashCommand (image : List Byte)
  | thermalTrip
  | governorStep (down : Bool)
  | uncorrectableError (pen : Pen)
  | eccCorrected (pen : Pen)
  | graphInstall (ctx graph nnode : Nat)
  | contextCreate (desc : List DWord) (byOs : Bool)
  | moduleLoad (ctx code bcbase : Nat) (file : List Byte)
  | debugContinue (crew : Nat)
  | powerOff
  | remoteStorePerform (core i : Nat)
  -- majors 1, 29: integer
  | iadd (f : FVdab) | isub (f : FVdab) | imul (f : FVdab) | imulh (f : FVdab)
  | idiv (f : FVdab) | irem (f : FVdab) | imin (f : FVdab) | imax (f : FVdab)
  | and (f : FVdab) | or (f : FVdab) | xor (f : FVdab)
  | shl (f : FVdab) | shr (f : FVdab) | sar (f : FVdab)
  -- major 2: float
  | fadd (f : Fdab) | fmul (f : Fdab) | fmin (f : Fdab) | fmax (f : Fdab)
  | frcp (f : Fda) | frsq (f : Fda) | fexp2 (f : Fda) | flog2 (f : Fda)
  | fsin (f : Fda) | fcos (f : Fda) | fclass (f : Fda)
  -- major 3: packed and convert
  | fadd2 (f : FHdab) | fmul2 (f : FHdab) | fdot2 (f : FHdab) | fcvt (f : FCvt) | quant (f : FQuant)
  -- majors 4 to 7
  | ffma (f : FR4) | imad (f : FR4) | fma2 (f : FFma2) | sel (f : FSel) | bfi (f : FBfi)
  -- majors 8 to 14
  | iaddi (f : FImm) | andi (f : FImm) | ori (f : FImm) | xori (f : FImm) | icmpi (f : FCmpI)
  | movi (f : FMov) | movhi (f : FMov)
  -- majors 15 to 18: memory
  | ld (f : FMem) | st (f : FMem) | ldg (f : FGather) | stx (f : FGather)
  | ldStrong (f : FStrong) | stStrong (f : FStrong) | atom (f : FAtom) | red (f : FRed)
  -- majors 19 to 21: control
  | bra (f : FBra) | call (off : BitVec 26) | callf (off : BitVec 26)
  | brx (a : VReg) | callx (a : VReg) | callxF (a : VReg)
  | ret | exit | eret | yield | trap (code : BitVec 16) | brk | regb | rege
  | ipref (off : BitVec 23) | bbc (n : BitVec 23)
  -- major 22: cross-lane
  | shfl (f : FVdab) | rot (f : Fdab) | vote (f : FVote) | redux (f : FRedux)
  | matchLane (f : FVda) | matchLane64 (f : FVda)
  -- major 23: compares and predicates
  | icmp (f : FICmp) | fcmp (f : FFCmp)
  | pand (f : FPred) | por (f : FPred) | pxor (f : FPred) | pnot (f : FPnot)
  -- major 24: synchronisation
  | barinit (f : FBarInit) | barinitLong (f : FBarInitL) | bararv (f : FBarArv) | barexp (f : FObjReg)
  | waitp (f : FWait) | waitpReg (f : FObjReg) | waitpLong (f : FWaitL) | trywait (f : FTry)
  | crewbar | gbar (g : VReg) | meetarm (token : BitVec 16) (m : BitVec 2) | meet (m : BitVec 2)
  | monitor (f : FMonitor) | mwait (t : VReg) | fence (scope : BitVec 3) | fencex (x y : BitVec 3)
  | trig (c v : VReg) | trigrst (c v : VReg)
  -- major 25: asynchronous copy
  | cpy (f : FCpy) | cpyLong (f : FCpyL) | cpycv (f : FCpyCv) | cpyt (f : FCpyT)
  | cpya (f : FPairTwo) | cpyaLong (f : FPairTwoL) | ring (f : FPairTwo) | ringLong (f : FPairTwoL)
  -- major 26: matrix
  | mma (f : FMma) | accld (f : FAccLd) | accst (f : FAccSt) | accz (f : FAccZ) | acchk (f : FMma)
  -- major 27: collective
  | colpost (f : FCol) | colfire (f : FCol)
  -- major 28: system, tag and debug
  | mfs (d : VReg) (num : BitVec 7) | mts (num : BitVec 7) (a : VReg)
  | tagrd (f : Fda) | tagwr (f : Fda) | color (f : FColor) | watch (f : FWatch)
  | inject (f : FTwo) | spawn (f : FTwo) | emit (a : VReg) (j : BitVec 2) | cctl | pref (a : VReg)
  | wbase (k : BitVec 4) | injectAcc (f : FInjAcc)
  -- major 29
  | iabs (f : FWda) | clz (f : FWda) | popc (f : FWda) | popcP (d : VReg) (p : PReg)
  | brev (f : FWda) | bfx (f : FBfx) | lea (f : Fdab) | mov (f : FWda)
  -- major 31
  | fdot2E4m3 (f : Fdab)
  deriving DecidableEq, Repr

end Sys2Proof
end

