-- ==== Sys2Proof/Decode.lean ====
section
/-! DEFINITION. The decoder and the encoder, both from the encoding tables of spec/22 (R314 to R328) and the
reference entries. The decoder is total: a word it refuses is refused by name. -/

namespace Sys2Proof
open Sys2Proof.Machine

/-- Why the decoder refuses; `cause` gives the illegal-instruction cause code of R231. -/
inductive DecodeError where
  | noWord              -- no word to read
  | undefinedCode       -- undefined major, operation or variant (R319, R320)
  | reservedField       -- a field that must be 0 is not (R314)
  | missingExtension    -- the extension words fall at or beyond COUNT (R312)
  deriving DecidableEq, Repr

/-- The cause code of illegal-instruction for a refused word (R231). -/
def DecodeError.cause : DecodeError → Nat
  | .noWord => 1
  | .undefinedCode => 1
  | .reservedField => 2
  | .missingExtension => 2

/-- What decoding one word gives. -/
abbrev Dec := Except DecodeError Instr

/-- Accept `i` when the reserved fields are zero. -/
def zeroThen (ok : Bool) (i : Instr) : Dec := if ok then .ok i else .error .reservedField

/-- Accept `i` when the variant code is one the map allows. -/
def codeThen (ok : Bool) (d : Dec) : Dec := if ok then d else .error .undefinedCode

section fields
variable (w : Word)

/-- d, a and b of the R3 format. -/
def fD : VReg := fld w 14 7
/-- a of the R3 format. -/
def fA : VReg := fld w 7 7
/-- b of the R3 format. -/
def fB : VReg := fld w 0 7
/-- V at [22:21]. -/
def fV : BitVec 2 := fld w 21 2
/-- V, d, a, b. -/
def fVdab : FVdab := ⟨fV w, fD w, fA w, fB w⟩
/-- d, a, b. -/
def fDab : Fdab := ⟨fD w, fA w, fB w⟩
/-- d, a. -/
def fDa : Fda := ⟨fD w, fA w⟩
/-- V, d, a. -/
def fVda : FVda := ⟨fV w, fD w, fA w⟩
/-- The M format. -/
def fMem : FMem := ⟨fld w 20 7, fld w 15 5, bit w 14, fld w 11 3, fld w 9 2, fld w 0 9⟩
/-- LDG and STX. -/
def fGather : FGather := ⟨fld w 18 7, fld w 13 5, fld w 6 7, fld w 3 3, fld w 1 2, bit w 0⟩
/-- Strong LD and ST. -/
def fStrong : FStrong := ⟨fld w 18 7, fld w 13 5, bit w 12, fld w 9 3, fld w 6 3, fld w 0 6⟩
/-- ATOM. -/
def fAtom : FAtom := ⟨fld w 23 3, fld w 20 3, fld w 17 3, bit w 16, fld w 12 4, fld w 6 6, fld w 0 6⟩
/-- RED. -/
def fRed : FRed := ⟨fld w 23 3, fld w 20 3, fld w 17 3, bit w 16, fld w 12 4, fld w 6 6⟩
/-- The I format. -/
def fImm : FImm := ⟨fld w 20 7, fld w 13 7, fld w 0 13⟩
/-- The MV format. -/
def fMov : FMov := ⟨fld w 20 7, fld w 0 20⟩
/-- The R4 format. -/
def fR4 : FR4 := ⟨fld w 20 7, fld w 13 7, fld w 6 7, fld w 0 6⟩
/-- Predicate logic. -/
def fPred : FPred := ⟨fld w 14 3, bit w 10, fld w 7 3, bit w 3, fld w 0 3⟩
end fields

/-- Major 1 (R320, R378, R423). -/
def decodeM1 (w : Word) : Dec :=
  let f := fVdab w
  match (fld w 23 4).toNat with
  | 0 => .ok (.iadd f)
  | 1 => .ok (.isub f)
  | 2 => .ok (.imul f)
  | 3 => .ok (.imulh f)
  | 4 => .ok (.idiv f)
  | 5 => .ok (.irem f)
  | 6 => .ok (.imin f)
  | 7 => .ok (.imax f)
  | 8 => .ok (.and f)
  | 9 => .ok (.or f)
  | 10 => .ok (.xor f)
  | 11 => .ok (.shl f)
  | 12 => .ok (.shr f)
  | 13 => .ok (.sar f)
  | _ => .error .undefinedCode

/-- Major 2 (R366): V is 0, and b is 0 for codes 4 to 10. -/
def decodeM2 (w : Word) : Dec :=
  codeThen (fV w == 0) <|
    let z := fB w == 0
    match (fld w 23 4).toNat with
    | 0 => .ok (.fadd (fDab w))
    | 1 => .ok (.fmul (fDab w))
    | 2 => .ok (.fmin (fDab w))
    | 3 => .ok (.fmax (fDab w))
    | 4 => zeroThen z (.frcp (fDa w))
    | 5 => zeroThen z (.frsq (fDa w))
    | 6 => zeroThen z (.fexp2 (fDa w))
    | 7 => zeroThen z (.flog2 (fDa w))
    | 8 => zeroThen z (.fsin (fDa w))
    | 9 => zeroThen z (.fcos (fDa w))
    | 10 => zeroThen z (.fclass (fDa w))
    | _ => .error .undefinedCode

/-- Whether R321 gives a conversion from `src` to `tgt` (also used by CPYCV). -/
def cvtPair (tgt src : Nat) : Bool :=
  tgt < 10 && src < 8 && tgt != src && !((tgt == 6 && src == 7) || (tgt == 7 && src == 6))

/-- The conversions of R321 that are always exact. -/
def cvtExact (tgt src : Nat) : Bool :=
  (tgt == 0 && (src == 1 || src == 2 || src == 3 || src == 4 || src == 5)) ||
  ((tgt == 1 || tgt == 2) && (src == 3 || src == 4 || src == 5))

/-- FCVT (R321, R370). -/
def decodeFcvt (w : Word) : Dec :=
  let f : FCvt := ⟨bit w 23, fld w 21 2, fD w, fA w, fld w 3 4, fld w 0 3⟩
  codeThen (cvtPair f.tgt.toNat f.src.toNat) <|
    zeroThen (!cvtExact f.tgt.toNat f.src.toNat || (f.rnd == 0 && !f.ovf)) (.fcvt f)

/-- Major 3 (R320, R367, R412). -/
def decodeM3 (w : Word) : Dec :=
  let h : FHdab := ⟨bit w 21, fD w, fA w, fB w⟩
  let vz := fld w 22 2 == (0 : BitVec 2)
  match (fld w 24 3).toNat with
  | 0 => codeThen vz (.ok (.fadd2 h))
  | 1 => codeThen vz (.ok (.fmul2 h))
  | 2 => codeThen vz (.ok (.fdot2 h))
  | 3 => decodeFcvt w
  | 4 => codeThen (fV w != 3) <| zeroThen (!bit w 23) (.quant ⟨fV w, fD w, fA w, fB w⟩)
  | _ => .error .undefinedCode

/-- Major 7 (R339, R424): SEL when c[5] = 1 (c[4] is 0), BFI when c[5] = 0. -/
def decodeM7 (w : Word) : Dec :=
  if bit w 5 then
    zeroThen (!bit w 4) (.sel ⟨fld w 20 7, fld w 13 7, fld w 6 7, bit w 3, fld w 0 3⟩)
  else .ok (.bfi ⟨fld w 20 7, fld w 13 7, fld w 6 7, fld w 0 5⟩)

/-- Major 17 (R318). -/
def decodeM17 (w : Word) : Dec :=
  let g := fGather w
  let s := fStrong w
  match (fld w 25 2).toNat with
  | 0 => codeThen (g.w.toNat ≤ 4 && g.sp != 3) (.ok (.ldg g))
  | 1 => codeThen (g.w.toNat ≤ 4 && g.sp != 3) (.ok (.stx g))
  | 2 => codeThen (s.w.toNat ≤ 4) (.ok (.ldStrong s))
  | _ => codeThen (s.w.toNat ≤ 4) (.ok (.stStrong s))

/-- The operation, type and scope codes of ATOM and RED that R333 and R414 allow. -/
def atomCode (red : Bool) (aop t sc : Nat) : Bool :=
  t ≤ 4 && sc != 6 && !(t == 4 && (aop == 3 || aop == 4 || aop == 5)) && !(red && 6 ≤ aop)

/-- Major 18 (R333, R414). -/
def decodeM18 (w : Word) : Dec :=
  let f := fAtom w
  if bit w 26 then
    codeThen (atomCode true f.aop.toNat f.t.toNat f.sc.toNat) (zeroThen (f.d == 0) (.red (fRed w)))
  else codeThen (atomCode false f.aop.toNat f.t.toNat f.sc.toNat) (.ok (.atom f))

/-- Major 21 (R320). -/
def decodeM21 (w : Word) : Dec :=
  let low := fld w 0 23 == (0 : BitVec 23)
  match (fld w 23 4).toNat with
  | 0 => zeroThen (fld w 14 9 == (0 : BitVec 9) && fB w == 0) (.brx (fA w))
  | 1 => zeroThen (fld w 14 8 == (0 : BitVec 8) && fB w == 0) (if bit w 22 then .callxF (fA w) else .callx (fA w))
  | 2 => zeroThen low .ret
  | 3 => zeroThen low .exit
  | 4 => zeroThen low .eret
  | 5 => zeroThen low .yield
  | 6 => zeroThen (fld w 16 7 == (0 : BitVec 7)) (.trap (fld w 0 16))
  | 7 => zeroThen low .brk
  | 8 => zeroThen low .regb
  | 9 => zeroThen low .rege
  | 10 => .ok (.ipref (fld w 0 23))
  | 11 => .ok (.bbc (fld w 0 23))
  | _ => .error .undefinedCode

/-- The operation and type codes of REDUX that R415 allows. -/
def reduxCode (op ty : Nat) : Bool := op ≤ 5 && ty ≤ 2 && !(ty == 2 && 3 ≤ op)

/-- Major 22 (R320, R392, R415, R422, R425, R436). -/
def decodeM22 (w : Word) : Dec :=
  let rx : FRedux := ⟨fD w, fA w, bit w 6, fld w 3 3, fld w 0 3⟩
  let vt : FVote := ⟨fV w, fD w, bit w 10, fld w 7 3⟩
  match (fld w 23 4).toNat with
  | 0 => .ok (.shfl (fVdab w))
  | 1 => codeThen (fV w == 0) (.ok (.rot (fDab w)))
  | 2 => zeroThen (fld w 11 3 == (0 : BitVec 3) && fB w == 0 && (bit w 22 || fld w 17 4 == (0 : BitVec 4))) (.vote vt)
  | 3 => codeThen (fV w == 0 && reduxCode rx.op.toNat rx.ty.toNat) (.ok (.redux rx))
  | 4 => zeroThen (fB w == 0) (.matchLane (fVda w))
  | 5 => zeroThen (fB w == 0) (.matchLane64 (fVda w))
  | _ => .error .undefinedCode

/-- Major 23 (R369, R380, R407). -/
def decodeM23 (w : Word) : Dec :=
  let p := fPred w
  let pz := fld w 17 4 == (0 : BitVec 4) && fld w 11 3 == (0 : BitVec 3) && fld w 4 3 == (0 : BitVec 3)
  match (fld w 23 4).toNat with
  | 0 => codeThen (!bit w 21 && (fld w 17 4).toNat ≤ 9)
      (.ok (.icmp ⟨bit w 22, fld w 17 4, fld w 14 3, fA w, fB w⟩))
  | 1 => codeThen (fV w == 0 && (fld w 17 4).toNat ≤ 5) (.ok (.fcmp ⟨fld w 17 4, fld w 14 3, fA w, fB w⟩))
  | 2 => codeThen (fV w == 0) (zeroThen pz (.pand p))
  | 3 => codeThen (fV w == 0) (zeroThen pz (.por p))
  | 4 => codeThen (fV w == 0) (zeroThen pz (.pxor p))
  | 5 => codeThen (fV w == 0) (zeroThen (pz && fB w == 0) (.pnot ⟨p.pd, p.na, p.pa⟩))
  | _ => .error .undefinedCode

/-- The extension word after the first, or the refusal of R312. -/
def withExt (rest : List Word) (k : Word → List Word → Except DecodeError (Instr × List Word)) :
    Except DecodeError (Instr × List Word) :=
  match rest with
  | [] => .error .missingExtension
  | x :: xs => k x xs

/-- Put the words not consumed beside the instruction. -/
def keep (rest : List Word) : Dec → Except DecodeError (Instr × List Word)
  | .ok i => .ok (i, rest)
  | .error e => .error e

/-- Major 24 (R323, R336, R434). -/
def decodeM24 (w : Word) (rest : List Word) : Except DecodeError (Instr × List Word) :=
  let x := bit w 22
  let p : BitVec 5 := fld w 17 5
  let off : BitVec 7 := fld w 10 7
  let lo8 : BitVec 8 := fld w 0 8
  let r : VReg := fld w 0 7
  let addr0 := !x && p == 0 && off == 0
  match (fld w 23 4).toNat with
  | 0 =>
    if x then withExt rest fun e more =>
      keep more (zeroThen (!bit w 8 && lo8 == 0 && fld e 16 16 == (0 : BitVec 16)) (.barinitLong ⟨p, off, bit w 9, fld e 0 16⟩))
    else keep rest (zeroThen (!bit w 8) (.barinit ⟨p, off, bit w 9, lo8⟩))
  | 1 => keep rest (codeThen (!bit w 8) (zeroThen (!x && lo8 == 0) (.bararv ⟨p, off, bit w 9⟩)))
  | 2 => keep rest (zeroThen (!x && fld w 7 3 == (0 : BitVec 3)) (.barexp ⟨p, off, r⟩))
  | 3 =>
    if x then withExt rest fun e more =>
      keep more (zeroThen (fld w 0 10 == (0 : BitVec 10) && fld e 12 20 == (0 : BitVec 20)) (.waitpLong ⟨p, off, fld e 0 12⟩))
    else if bit w 9 then keep rest (zeroThen (fld w 7 2 == (0 : BitVec 2)) (.waitpReg ⟨p, off, r⟩))
    else keep rest (zeroThen (!bit w 8) (.waitp ⟨p, off, lo8⟩))
  | 4 =>
    if x then withExt rest fun e more =>
      if bit e 31 then
        keep more (zeroThen (fld e 7 24 == (0 : BitVec 24)) (.trywait ⟨p, off, fld w 7 3, r, .reg (fld e 0 7)⟩))
      else keep more (zeroThen (fld e 12 19 == (0 : BitVec 19)) (.trywait ⟨p, off, fld w 7 3, r, .imm (fld e 0 12)⟩))
    else .error .reservedField
  | 5 => keep rest (zeroThen (fld w 0 23 == (0 : BitVec 23)) .crewbar)
  | 6 => keep rest (zeroThen (addr0 && fld w 7 3 == (0 : BitVec 3)) (.gbar r))
  | 7 => keep rest (zeroThen (!x && fld w 2 4 == (0 : BitVec 4)) (.meetarm (fld w 6 16) (fld w 0 2)))
  | 8 => keep rest (zeroThen (fld w 2 21 == (0 : BitVec 21)) (.meet (fld w 0 2)))
  | 9 => keep rest (zeroThen (!x && fld w 0 9 == (0 : BitVec 9)) (.monitor ⟨p, off, bit w 9⟩))
  | 10 => keep rest (zeroThen (addr0 && fld w 7 3 == (0 : BitVec 3)) (.mwait r))
  | 11 => keep rest (codeThen ((fld w 0 3).toNat ≤ 5) (zeroThen (addr0 && fld w 3 7 == (0 : BitVec 7)) (.fence (fld w 0 3))))
  | 12 => keep rest (codeThen ((fld w 0 3).toNat ≤ 4 && (fld w 3 3).toNat ≤ 4 && fld w 0 3 != (fld w 3 3 : BitVec 3))
      (zeroThen (addr0 && fld w 6 4 == (0 : BitVec 4)) (.fencex (fld w 3 3) (fld w 0 3))))
  | 13 => keep rest (zeroThen (!x && p == 0 && fld w 7 3 == (0 : BitVec 3)) (.trig off r))
  | 14 => keep rest (zeroThen (!x && p == 0 && fld w 7 3 == (0 : BitVec 3)) (.trigrst off r))
  | _ => .error .undefinedCode

/-- The long copy of R353: one word and two extension words. `cv` chooses CPYCV. -/
def decodeLongCopy (cv : Bool) (w e1 e2 : Word) : Dec :=
  let ds : BitVec 2 := fld w 20 2
  let ss : BitVec 2 := fld w 18 2
  let nobar := bit w 0
  let bp : BitVec 5 := fld e1 27 5
  let bo : BitVec 11 := fld e1 16 11
  codeThen (ds != 3 && ss != 3) <|
    if cv then
      let td : BitVec 4 := fld e2 28 4
      let ts : BitVec 4 := fld e2 24 4
      codeThen (cvtPair td.toNat ts.toNat) <|
        zeroThen ((!nobar || (bp == 0 && bo == 0)) && fld e2 16 7 == (0 : BitVec 7) &&
            (!cvtExact td.toNat ts.toNat || !bit e2 23))
          (.cpycv ⟨bit w 23, ds, ss, fld w 11 7, fld w 6 5, fld w 1 5, nobar, bp, bo, fld e1 0 16, td, ts, bit e2 23, fld e2 0 16⟩)
    else
      zeroThen ((!nobar || (bp == 0 && bo == 0)) && fld e2 16 16 == (0 : BitVec 16))
        (.cpyLong ⟨bit w 23, ds, ss, fld w 11 7, fld w 6 5, fld w 1 5, nobar, bp, bo, fld e1 0 16, fld e2 0 16⟩)

/-- Major 25 (R324, R353, R420). -/
def decodeM25 (w : Word) (rest : List Word) : Except DecodeError (Instr × List Word) :=
  let f := bit w 23
  let x := bit w 22
  let p : BitVec 6 := fld w 16 6
  let r : VReg := fld w 9 7
  let q : VReg := fld w 2 7
  let z2 := fld w 0 2 == (0 : BitVec 2)
  match (fld w 24 3).toNat with
  | 0 =>
    if x then withExt rest fun e1 r1 => withExt r1 fun e2 r2 => keep r2 (decodeLongCopy false w e1 e2)
    else keep rest (.ok (.cpy ⟨f, fld w 19 3, fld w 14 5, fld w 9 5, fld w 5 4, fld w 0 5⟩))
  | 1 =>
    if x then withExt rest fun e1 r1 => withExt r1 fun e2 r2 => keep r2 (decodeLongCopy true w e1 e2)
    else .error .reservedField
  | 2 => keep rest (zeroThen (!x) (.cpyt ⟨f, p, fld w 0 16⟩))
  | 3 =>
    if x then withExt rest fun e more =>
      keep more (zeroThen (z2 && fld e 16 16 == (0 : BitVec 16)) (.cpyaLong ⟨f, p, r, q, fld e 0 16⟩))
    else keep rest (zeroThen z2 (.cpya ⟨f, p, r, q⟩))
  | 4 =>
    if x then withExt rest fun e more =>
      keep more (zeroThen (z2 && fld e 16 16 == (0 : BitVec 16)) (.ringLong ⟨f, p, r, q, fld e 0 16⟩))
    else keep rest (zeroThen z2 (.ring ⟨f, p, r, q⟩))
  | _ => .error .undefinedCode

/-- Major 26 (R325). -/
def decodeM26 (w : Word) : Dec :=
  let f := bit w 23
  let m : FMma := ⟨f, fld w 16 7, fld w 10 6, fld w 0 10⟩
  match (fld w 24 3).toNat with
  | 0 => .ok (.mma m)
  | 1 => zeroThen (!bit w 22) (.accld ⟨f, fld w 14 8, fld w 8 6, fld w 0 8⟩)
  | 2 => .ok (.accst ⟨f, bit w 22, fld w 14 8, fld w 8 6, fld w 0 8⟩)
  | 3 => zeroThen (!bit w 22 && fld w 0 6 == (0 : BitVec 6)) (.accz ⟨f, fld w 14 8, fld w 6 8⟩)
  | 4 => .ok (.acchk m)
  | _ => .error .undefinedCode

/-- Major 27 (R214). -/
def decodeM27 (w : Word) : Dec :=
  match (fld w 22 5).toNat with
  | 0 => zeroThen (fB w == 0) (.colpost ⟨bit w 21, fD w, fA w⟩)
  | 1 => zeroThen (fD w == 0) (.colfire ⟨bit w 21, fA w, fB w⟩)
  | _ => .error .undefinedCode

/-- The special register numbers of R328. -/
def specialListed (n : Nat) : Bool := n ≤ 14 || (16 ≤ n && n ≤ 21)

/-- Major 28 (R320). V that must be 0 raises cause 1, F that must be 0 cause 2. -/
def decodeM28 (w : Word) : Dec :=
  let v := bit w 22
  let f := bit w 21
  let dz := fD w == 0
  let az := fA w == 0
  let bz := fB w == 0
  match (fld w 23 4).toNat with
  | 0 => codeThen (!v && specialListed (fA w).toNat) (zeroThen (!f && bz) (.mfs (fD w) (fA w)))
  | 1 => codeThen (!v && specialListed (fD w).toNat) (zeroThen (!f && bz) (.mts (fD w) (fA w)))
  | 2 => codeThen (!v) (zeroThen (!f && bz) (.tagrd (fDa w)))
  | 3 => codeThen (!v) (zeroThen (!f && bz) (.tagwr (fDa w)))
  | 4 => .ok (.color ⟨v, f, fD w, fA w, fB w⟩)
  | 5 => zeroThen (!f && dz) (.watch ⟨v, fA w, fB w⟩)
  | 6 => codeThen (!v) (zeroThen (!f && az) (.inject ⟨fD w, fB w⟩))
  | 7 => codeThen (!v) (zeroThen (!f && dz) (.spawn ⟨fA w, fB w⟩))
  | 8 => codeThen (!v) (zeroThen (!f && dz && fld w 2 5 == (0 : BitVec 5)) (.emit (fA w) (fld w 0 2)))
  | 9 => codeThen (!v) (zeroThen (!f && dz && az && bz) .cctl)
  | 10 => codeThen (!v) (zeroThen (!f && dz && bz) (.pref (fA w)))
  | 11 => codeThen (!v) (zeroThen (!f && dz && az && fld w 4 3 == (0 : BitVec 3)) (.wbase (fld w 0 4)))
  | 12 => .ok (.injectAcc ⟨f, b1 v ++ fD w, fA w, fB w⟩)
  | _ => .error .undefinedCode

/-- Major 29 (R320). -/
def decodeM29 (w : Word) : Dec :=
  let one : FWda := ⟨bit w 22, fD w, fA w⟩
  let bz := fB w == 0
  match (fld w 23 4).toNat with
  | 0 => codeThen (!bit w 21) (zeroThen bz (.iabs one))
  | 1 => codeThen (!bit w 21) (zeroThen bz (.clz one))
  | 2 =>
    if fV w == 1 then zeroThen (bz && fld w 10 4 == (0 : BitVec 4)) (.popcP (fD w) (fld w 7 3))
    else codeThen (!bit w 21) (zeroThen bz (.popc one))
  | 3 => codeThen (!bit w 21) (zeroThen bz (.brev one))
  | 4 => codeThen (!bit w 22) (.ok (.bfx ⟨bit w 21, fD w, fA w, fB w⟩))
  | 5 => codeThen (fV w == 0) (.ok (.lea (fDab w)))
  | 6 => codeThen (!bit w 21) (zeroThen bz (.mov one))
  | _ => .error .undefinedCode

/-- Decode the first instruction of a list of words, by its major opcode (R319); the words after it are returned (log entry 32, DESIGN CHOICE). -/
def decode : List Word → Except DecodeError (Instr × List Word)
  | [] => .error .noWord
  | w :: rest =>
    match (fld w 27 5).toNat with
    | 1 => keep rest (decodeM1 w)
    | 2 => keep rest (decodeM2 w)
    | 3 => keep rest (decodeM3 w)
    | 4 => .ok (.ffma (fR4 w), rest)
    | 5 => .ok (.imad (fR4 w), rest)
    | 6 => .ok (.fma2 ⟨fld w 20 7, fld w 13 7, fld w 6 7, bit w 5, fld w 0 5⟩, rest)
    | 7 => keep rest (decodeM7 w)
    | 8 => .ok (.iaddi (fImm w), rest)
    | 9 => .ok (.andi (fImm w), rest)
    | 10 => .ok (.ori (fImm w), rest)
    | 11 => .ok (.xori (fImm w), rest)
    | 12 => keep rest (codeThen ((fld w 23 4).toNat ≤ 9) (.ok (.icmpi ⟨fld w 23 4, fld w 20 3, fld w 13 7, fld w 0 13⟩)))
    | 13 => .ok (.movi (fMov w), rest)
    | 14 => .ok (.movhi (fMov w), rest)
    | 15 => keep rest (codeThen ((fMem w).w.toNat ≤ 4 && (fMem w).sp != 3) (.ok (.ld (fMem w))))
    | 16 => keep rest (codeThen ((fMem w).w.toNat ≤ 4 && (fMem w).sp != 3) (.ok (.st (fMem w))))
    | 17 => keep rest (decodeM17 w)
    | 18 => keep rest (decodeM18 w)
    | 19 => .ok (.bra ⟨fld w 24 3, bit w 23, fld w 0 23⟩, rest)
    | 20 => .ok (if bit w 26 then .callf (fld w 0 26) else .call (fld w 0 26), rest)
    | 21 => keep rest (decodeM21 w)
    | 22 => keep rest (decodeM22 w)
    | 23 => keep rest (decodeM23 w)
    | 24 => decodeM24 w rest
    | 25 => decodeM25 w rest
    | 26 => keep rest (decodeM26 w)
    | 27 => keep rest (decodeM27 w)
    | 28 => keep rest (decodeM28 w)
    | 29 => keep rest (decodeM29 w)
    | 31 => keep rest (codeThen (fld w 23 4 == (0 : BitVec 4) && fV w == 0) (.ok (.fdot2E4m3 (fDab w))))
    | _ => .error .undefinedCode

/-- The words of a bit string numbered as the opcode table numbers it, followed by two zero words (the longest
instruction has two extension words, R312). -/
def tableWords (w : Nat) : List Word :=
  [BitVec.ofNat 32 w, BitVec.ofNat 32 (w / 2 ^ 32), BitVec.ofNat 32 (w / 2 ^ 64)]

/-- The instruction the decoder reads from the bits `w`, the bits from `nbits` up being zero. -/
def decodeTableWord (nbits w : Nat) : Option Instr :=
  match decode (tableWords (w % 2 ^ nbits)) with
  | .ok (i, _) => some i
  | .error _ => none

/-! The encoder. -/

/-- A word of the R3 format: major, operation [26:23], V [22:21], d, a, b. -/
def r3 (major : BitVec 5) (op : BitVec 4) (v : BitVec 2) (d a b : VReg) : Word := major ++ op ++ v ++ d ++ a ++ b

/-- A word of the R3 format with a 3-bit operation (major 3). -/
def r3q (op : BitVec 3) (v : BitVec 3) (d a b : VReg) : Word := 3#5 ++ op ++ v ++ d ++ a ++ b

/-- A word of the S format (R315). -/
def sfmt (op : BitVec 4) (x : Bool) (p : BitVec 5) (off : BitVec 7) (i10 : BitVec 10) : Word :=
  24#5 ++ op ++ b1 x ++ p ++ off ++ i10

/-- A word of the C format (R315). -/
def cfmt (op : BitVec 3) (f x : Bool) (body : BitVec 22) : Word := 25#5 ++ op ++ b1 f ++ b1 x ++ body

/-- A word of the T format (R315). -/
def tfmt (op : BitVec 3) (f : Bool) (body : BitVec 23) : Word := 26#5 ++ op ++ b1 f ++ body

/-- A word of the X format (R315). -/
def xfmt (op : BitVec 4) (body : BitVec 23) : Word := 21#5 ++ op ++ body

/-- A word of major 28. -/
def sys28 (op : BitVec 4) (v f : Bool) (d a b : VReg) : Word := 28#5 ++ op ++ b1 v ++ b1 f ++ d ++ a ++ b

/-- V of the two-width forms of major 29: 0 or 2 (R320). -/
def vWide (wide : Bool) : BitVec 2 := b1 wide ++ 0#1

/-- A word of the I format. -/
def ifmt (major : BitVec 5) (f : FImm) : Word := major ++ f.d ++ f.a ++ f.imm

/-- A word of the R4 format. -/
def r4 (major : BitVec 5) (d a b : VReg) (c : BitVec 6) : Word := major ++ d ++ a ++ b ++ c

/-- A word of the M format. -/
def mfmt (major : BitVec 5) (f : FMem) : Word := major ++ f.d ++ f.p ++ b1 f.f ++ f.w ++ f.sp ++ f.off

/-- LDG and STX. -/
def gfmt (op : BitVec 2) (f : FGather) : Word := 17#5 ++ op ++ f.d ++ f.p ++ f.b ++ f.w ++ f.sp ++ b1 f.f

/-- Strong LD and ST. -/
def gsfmt (op : BitVec 2) (f : FStrong) : Word := 17#5 ++ op ++ f.d ++ f.p ++ b1 f.f ++ f.w ++ f.sc ++ f.off

/-- Predicate logic words (R407). -/
def predw (op : BitVec 4) (f : FPred) : Word :=
  23#5 ++ op ++ 0#2 ++ 0#4 ++ f.pd ++ 0#3 ++ b1 f.na ++ f.pa ++ 0#3 ++ b1 f.nb ++ f.pb

/-- The words of an instruction form, first word first; a step of another agent has none. -/
def encode : Instr → List Word
  | .iadd f => [r3 1 0 f.v f.d f.a f.b]
  | .isub f => [r3 1 1 f.v f.d f.a f.b]
  | .imul f => [r3 1 2 f.v f.d f.a f.b]
  | .imulh f => [r3 1 3 f.v f.d f.a f.b]
  | .idiv f => [r3 1 4 f.v f.d f.a f.b]
  | .irem f => [r3 1 5 f.v f.d f.a f.b]
  | .imin f => [r3 1 6 f.v f.d f.a f.b]
  | .imax f => [r3 1 7 f.v f.d f.a f.b]
  | .and f => [r3 1 8 f.v f.d f.a f.b]
  | .or f => [r3 1 9 f.v f.d f.a f.b]
  | .xor f => [r3 1 10 f.v f.d f.a f.b]
  | .shl f => [r3 1 11 f.v f.d f.a f.b]
  | .shr f => [r3 1 12 f.v f.d f.a f.b]
  | .sar f => [r3 1 13 f.v f.d f.a f.b]
  | .fadd f => [r3 2 0 0 f.d f.a f.b]
  | .fmul f => [r3 2 1 0 f.d f.a f.b]
  | .fmin f => [r3 2 2 0 f.d f.a f.b]
  | .fmax f => [r3 2 3 0 f.d f.a f.b]
  | .frcp f => [r3 2 4 0 f.d f.a 0]
  | .frsq f => [r3 2 5 0 f.d f.a 0]
  | .fexp2 f => [r3 2 6 0 f.d f.a 0]
  | .flog2 f => [r3 2 7 0 f.d f.a 0]
  | .fsin f => [r3 2 8 0 f.d f.a 0]
  | .fcos f => [r3 2 9 0 f.d f.a 0]
  | .fclass f => [r3 2 10 0 f.d f.a 0]
  | .fadd2 f => [r3q 0 (0#2 ++ b1 f.h) f.d f.a f.b]
  | .fmul2 f => [r3q 1 (0#2 ++ b1 f.h) f.d f.a f.b]
  | .fdot2 f => [r3q 2 (0#2 ++ b1 f.h) f.d f.a f.b]
  | .fcvt f => [r3q 3 (b1 f.ovf ++ f.rnd) f.d f.a (f.tgt ++ f.src)]
  | .quant f => [r3q 4 (0#1 ++ f.tgt) f.d f.a f.b]
  | .ffma f => [r4 4 f.d f.a f.b f.c]
  | .imad f => [r4 5 f.d f.a f.b f.c]
  | .fma2 f => [r4 6 f.d f.a f.b (b1 f.h ++ f.c)]
  | .sel f => [r4 7 f.d f.a f.b (2#2 ++ b1 f.neg ++ f.p)]
  | .bfi f => [r4 7 f.d f.a f.b (0#1 ++ f.c)]
  | .iaddi f => [ifmt 8 f]
  | .andi f => [ifmt 9 f]
  | .ori f => [ifmt 10 f]
  | .xori f => [ifmt 11 f]
  | .icmpi f => [12#5 ++ f.cond ++ f.pd ++ f.a ++ f.imm]
  | .movi f => [13#5 ++ f.d ++ f.imm]
  | .movhi f => [14#5 ++ f.d ++ f.imm]
  | .ld f => [mfmt 15 f]
  | .st f => [mfmt 16 f]
  | .ldg f => [gfmt 0 f]
  | .stx f => [gfmt 1 f]
  | .ldStrong f => [gsfmt 2 f]
  | .stStrong f => [gsfmt 3 f]
  | .atom f => [18#5 ++ 0#1 ++ f.aop ++ f.t ++ f.sc ++ b1 f.f ++ f.p ++ f.b ++ f.d]
  | .red f => [18#5 ++ 1#1 ++ f.aop ++ f.t ++ f.sc ++ b1 f.f ++ f.p ++ f.b ++ 0#6]
  | .bra f => [19#5 ++ f.p ++ b1 f.neg ++ f.off]
  | .call off => [20#5 ++ 0#1 ++ off]
  | .callf off => [20#5 ++ 1#1 ++ off]
  | .brx a => [xfmt 0 (0#9 ++ a ++ 0#7)]
  | .callx a => [xfmt 1 (0#9 ++ a ++ 0#7)]
  | .callxF a => [xfmt 1 (1#1 ++ 0#8 ++ a ++ 0#7)]
  | .ret => [xfmt 2 0]
  | .exit => [xfmt 3 0]
  | .eret => [xfmt 4 0]
  | .yield => [xfmt 5 0]
  | .trap code => [xfmt 6 (0#7 ++ code)]
  | .brk => [xfmt 7 0]
  | .regb => [xfmt 8 0]
  | .rege => [xfmt 9 0]
  | .ipref off => [xfmt 10 off]
  | .bbc n => [xfmt 11 n]
  | .shfl f => [r3 22 0 f.v f.d f.a f.b]
  | .rot f => [r3 22 1 0 f.d f.a f.b]
  | .vote f => [r3 22 2 f.v f.d (0#3 ++ b1 f.neg ++ f.p) 0]
  | .redux f => [r3 22 3 0 f.d f.a (b1 f.scan ++ f.ty ++ f.op)]
  | .matchLane f => [r3 22 4 f.v f.d f.a 0]
  | .matchLane64 f => [r3 22 5 f.v f.d f.a 0]
  | .icmp f => [r3 23 0 (vWide f.wide) (f.cond ++ f.pd) f.a f.b]
  | .fcmp f => [r3 23 1 0 (f.cond ++ f.pd) f.a f.b]
  | .pand f => [predw 2 f]
  | .por f => [predw 3 f]
  | .pxor f => [predw 4 f]
  | .pnot f => [predw 5 ⟨f.pd, f.na, f.pa, false, 0⟩]
  | .barinit f => [sfmt 0 false f.p f.off (b1 f.arv ++ 0#1 ++ f.n)]
  | .barinitLong f => [sfmt 0 true f.p f.off (b1 f.arv ++ 0#9), 0#16 ++ f.n]
  | .bararv f => [sfmt 1 false f.p f.off (b1 f.x ++ 0#9)]
  | .barexp f => [sfmt 2 false f.p f.off (0#3 ++ f.r)]
  | .waitp f => [sfmt 3 false f.p f.off (0#2 ++ f.n)]
  | .waitpReg f => [sfmt 3 false f.p f.off (1#1 ++ 0#2 ++ f.r)]
  | .waitpLong f => [sfmt 3 true f.p f.off 0, 0#20 ++ f.n]
  | .trywait f => [sfmt 4 true f.p f.off (f.pd ++ f.h),
      match f.n with
      | .imm n => 0#20 ++ n
      | .reg r => 1#1 ++ 0#24 ++ r]
  | .crewbar => [sfmt 5 false 0 0 0]
  | .gbar g => [sfmt 6 false 0 0 (0#3 ++ g)]
  | .meetarm token m => [24#5 ++ 7#4 ++ 0#1 ++ token ++ 0#4 ++ m]
  | .meet m => [24#5 ++ 8#4 ++ 0#21 ++ m]
  | .monitor f => [sfmt 9 false f.p f.off (b1 f.s ++ 0#9)]
  | .mwait t => [sfmt 10 false 0 0 (0#3 ++ t)]
  | .fence s => [sfmt 11 false 0 0 (0#7 ++ s)]
  | .fencex x y => [sfmt 12 false 0 0 (0#4 ++ x ++ y)]
  | .trig c v => [sfmt 13 false 0 c (0#3 ++ v)]
  | .trigrst c v => [sfmt 14 false 0 c (0#3 ++ v)]
  | .cpy f => [cfmt 0 f.f false (f.sp ++ f.dp ++ f.sr ++ f.n ++ f.bar)]
  | .cpyLong f => [cfmt 0 f.f true (f.ds ++ f.ss ++ f.n ++ f.dp ++ f.sr ++ b1 f.nobar),
      f.barp ++ f.baroff ++ f.doff, 0#16 ++ f.soff]
  | .cpycv f => [cfmt 1 f.f true (f.ds ++ f.ss ++ f.n ++ f.dp ++ f.sr ++ b1 f.nobar),
      f.barp ++ f.baroff ++ f.doff, f.td ++ f.ts ++ b1 f.ovf ++ 0#7 ++ f.soff]
  | .cpyt f => [cfmt 2 f.f false (f.p ++ f.off)]
  | .cpya f => [cfmt 3 f.f false (f.p ++ f.r ++ f.q ++ 0#2)]
  | .cpyaLong f => [cfmt 3 f.f true (f.p ++ f.r ++ f.q ++ 0#2), 0#16 ++ f.off]
  | .ring f => [cfmt 4 f.f false (f.p ++ f.r ++ f.q ++ 0#2)]
  | .ringLong f => [cfmt 4 f.f true (f.p ++ f.r ++ f.q ++ 0#2), 0#16 ++ f.off]
  | .mma f => [tfmt 0 f.f (f.r ++ f.p ++ f.off)]
  | .accld f => [tfmt 1 f.f (0#1 ++ f.tile ++ f.p ++ f.off)]
  | .accst f => [tfmt 2 f.f (b1 f.bf ++ f.tile ++ f.p ++ f.off)]
  | .accz f => [tfmt 3 f.f (0#1 ++ f.tile ++ f.n1 ++ 0#6)]
  | .acchk f => [tfmt 4 f.f (f.r ++ f.p ++ f.off)]
  | .colpost f => [27#5 ++ 0#5 ++ b1 f.f ++ f.r ++ f.q ++ 0#7]
  | .colfire f => [27#5 ++ 1#5 ++ b1 f.f ++ 0#7 ++ f.r ++ f.q]
  | .mfs d n => [sys28 0 false false d n 0]
  | .mts n a => [sys28 1 false false n a 0]
  | .tagrd f => [sys28 2 false false f.d f.a 0]
  | .tagwr f => [sys28 3 false false f.d f.a 0]
  | .color f => [sys28 4 f.mark f.f f.d f.a f.b]
  | .watch f => [sys28 5 f.ctx false 0 f.a f.b]
  | .inject f => [sys28 6 false false f.r 0 f.q]
  | .spawn f => [sys28 7 false false 0 f.r f.q]
  | .emit a j => [sys28 8 false false 0 a (0#5 ++ j)]
  | .cctl => [sys28 9 false false 0 0 0]
  | .pref a => [sys28 10 false false 0 a 0]
  | .wbase k => [sys28 11 false false 0 0 (0#3 ++ k)]
  | .injectAcc f => [sys28 12 (bit f.tile 7) f.f (fld f.tile 0 7) f.a f.b]
  | .iabs f => [r3 29 0 (vWide f.wide) f.d f.a 0]
  | .clz f => [r3 29 1 (vWide f.wide) f.d f.a 0]
  | .popc f => [r3 29 2 (vWide f.wide) f.d f.a 0]
  | .popcP d p => [r3 29 2 1 d (0#4 ++ p) 0]
  | .brev f => [r3 29 3 (vWide f.wide) f.d f.a 0]
  | .bfx f => [r3 29 4 (0#1 ++ b1 f.sgn) f.d f.a f.b]
  | .lea f => [r3 29 5 0 f.d f.a f.b]
  | .mov f => [r3 29 6 (vWide f.wide) f.d f.a 0]
  | .fdot2E4m3 f => [r3 31 0 0 f.d f.a f.b]
  | _ => []

end Sys2Proof
end

