-- ==== Sys2Proof/Config.lean ====
section
/-! DEFINITION. What an implementation fixes and what the spec leaves open. The opaque constants are free values: no
body, so no proof can see what they are. -/

namespace Sys2Proof.Config

/-- The function an approximating instruction returns before its bound is imposed (R107: the manual does not publish
it). `op` is the operation code of major 2. Free value; log entry 6, DESIGN CHOICE. -/
opaque approx (op : Nat) (x : Word) : Word

/-- By how much a traffic counter rises from one latch to the next: L2 hits and misses, bytes a stack reads and writes,
flits a port sends (R280); the spec does not say which accesses count. `latch` numbers the latch, `key` the counter. Free
value; log entry 26, DESIGN CHOICE. -/
opaque traffic (latch key : Nat) : BitVec 64

/-- Whether a peer admits accesses to a byte of one of its partitions (R269: it checks them against its own grant and
frames, which are its own state). Free value; log entry 75, DESIGN CHOICE. -/
opaque peerAdmits (dev part a : Nat) : Bool

/-- The bytes of a line that an L2 has lost, as HBM5 still holds them (R136, R251): none where HBM5 holds the same byte.
Free value; log entry 76, DESIGN CHOICE. -/
opaque hbmBehind (n a : Nat) : Option Byte

/-- CAPB of a stack of a partition (R29, R260): what the operating system leaves to contexts. Log entry 26, DESIGN CHOICE. -/
opaque capacity (frames : List Nat) (stack : Nat) : BitVec 48

/-- Which line a full L1 gives up (R21 gives its size and no replacement); `n` counts the loads issued before. Free
value; log entry 73, DESIGN CHOICE. -/
opaque l1Victim (n : Nat) : Nat

/-- Whether a clause fill that races with a store takes the new word (R313: any mixture of old and new words). `n` counts
the stores issued before, `word` is the word of the clause. Free value; log entry 74, DESIGN CHOICE. -/
opaque fillTakesNew (n word : Nat) : Bool

/-- Enabled cores of a compute die (R3). -/
def coresPerDie : Nat := 48
/-- Physical cores of a compute die (R17). -/
def physPerDie : Nat := 50
/-- Compute dies (R17). -/
def dies : Nat := 4
/-- Swiuz ports (R17). -/
def ports : Nat := 48
/-- HBM5 stacks (R17). -/
def hbmStacks : Nat := 8
/-- Physical 1 GiB frames (R258). -/
def frames : Nat := 1024
/-- Bytes of the L2 of a compute die (R23). -/
def l2Bytes : Nat := 64 * 2 ^ 20
/-- Management cores of the I/O die (R30). -/
def mcs : Nat := 16
/-- Bytes of SRAM the management cores share (R30). -/
def sramBytes : Nat := 32 * 2 ^ 20
/-- Where the device stages run `n` (R223: STGPA names device memory that no context maps). Free value; log entry 78,
DESIGN CHOICE. -/
opaque stagingAt (n : Nat) : Nat

/-- The clock in a message that a chunk has failed elsewhere (R218, R227). Free value; log entry 79, DESIGN CHOICE. -/
opaque failClock (n : Nat) : Nat

/-- Lines of 128 bytes the 64 KiB L1 of a quadrant holds (R21, R135). -/
def l1Lines : Nat := 512
/-- Clauses the 128 KiB instruction cache of a core holds (R42). -/
def icacheClauses : Nat := 2048

end Sys2Proof.Config
end

