-- ==== Sys2Proof/Machine/SMap.lean ====
section
/-! DEFINITION. Sparse maps from numbers as lists in one canonical form: keys strictly rising (log entry 1, DESIGN CHOICE). A map
with a default lists no entry equal to the default, so equal maps are equal data. -/

namespace Sys2Proof.Machine

/-- A sparse map. -/
abbrev SMap (α : Type) := List (Nat × α)

variable {α : Type}

/-- The entry at a key. -/
def SMap.get? : SMap α → Nat → Option α
  | [], _ => none
  | (k, v) :: m, x => if x = k then some v else SMap.get? m x

/-- Insert or replace, keeping the keys rising. -/
def SMap.put : SMap α → Nat → α → SMap α
  | [], x, a => [(x, a)]
  | (k, v) :: m, x, a =>
    if x = k then (k, a) :: m else if x < k then (x, a) :: (k, v) :: m else (k, v) :: SMap.put m x a

/-- Remove a key. -/
def SMap.del (m : SMap α) (x : Nat) : SMap α := m.filter fun e => e.1 != x

/-- The value at a key, or the default. -/
def SMap.getD (m : SMap α) (d : α) (x : Nat) : α := (SMap.get? m x).getD d

/-- Write a value; the default is never listed. -/
def SMap.setD [DecidableEq α] (m : SMap α) (d : α) (x : Nat) (a : α) : SMap α :=
  if a = d then SMap.del m x else SMap.put m x a

/-- Change an entry that is present. -/
def SMap.mod (m : SMap α) (x : Nat) (f : α → α) : SMap α := m.map fun e => if e.1 = x then (e.1, f e.2) else e

/-- The keys are strictly rising from `lo` on. -/
def SMap.risingFrom (lo : Nat) : SMap α → Bool
  | [] => true
  | (k, _) :: m => decide (lo ≤ k) && SMap.risingFrom (k + 1) m

/-- The canonical form: keys strictly rising. -/
def SMap.rising (m : SMap α) : Bool := SMap.risingFrom 0 m

/-- The canonical form of a map with a default: rising, and the default unlisted. -/
def SMap.wf [DecidableEq α] (d : α) (m : SMap α) : Bool := SMap.rising m && m.all fun e => e.2 != d

/-- The least key from `n` on that is free, looking at most at the map's length of keys. -/
def SMap.freeFrom (m : SMap α) : Nat → Nat → Nat
  | 0, n => n
  | fuel + 1, n => if (SMap.get? m n).isSome then SMap.freeFrom m fuel (n + 1) else n

/-- The least key from 1 on that is not present. -/
def SMap.fresh (m : SMap α) : Nat := SMap.freeFrom m (m.length + 1) 1

end Sys2Proof.Machine
end

