-- ==== Sys2Proof/Machine/State.lean ====
section
/-! DEFINITION. The state of one Z1 module: plain data, every piece of state the spec names (INVENTORY.md lists them
with their rules). Reset values the spec does not give are named in log entries 2, 3 and 4, DESIGN CHOICE. -/

namespace Sys2Proof.Machine

/-- Why the machine stops. Every constructor is the model's own (log entry 8, DESIGN CHOICE): no trap of R231 is among them, since a trap is a next state. -/
inductive Fault where
  /-- Raised by an instruction meaning when no formed warp stands at the issue port: nothing issues it. Safe: the
  machine has no such step. -/
  | noWarp
  deriving DecidableEq, Repr

/-- Why an instruction or step has no next state. -/
inductive Refusal where
  /-- Raised by an arm of `exec` that has no meaning yet. Safe. -/
  | notModelled (mnemonic : String)
  /-- Raised by a step of another agent whose enabling condition does not hold in this state, as spec/95 and the
  step's rule give it: the machine takes no such step. Safe (log entry 8, DESIGN CHOICE). -/
  | cannotOccur (step : String)
  deriving DecidableEq, Repr

/-- A register or accumulator element with its eartag (R70). -/
structure Reg where
  val : Word
  tag : Tag
  deriving DecidableEq, Repr

/-- Where a byte of storage lies. -/
inductive Loc where
  | hbm (a : Nat)               -- HBM physical byte (R24)
  | host (a : Nat)              -- host memory over PCIe (R268)
  | peer (dev part a : Nat)     -- a peer Z1's partition physical byte (R268, R269)
  | win (core o : Nat)          -- on-chip map byte: physical core and offset in its window (R137)
  | scr (core b : Nat)          -- physical scratchpad byte of a core
  deriving DecidableEq, Repr

/-- Fields of records that name the issuer of an instruction or engine operation (R72, R232). -/
structure Issuer where
  uid : Nat
  crew : Nat
  ctx : Nat
  launch : Nat
  ord : Nat
  role : Nat
  core : Nat
  quad : Nat
  lane : Nat
  slot : Nat
  tid : Nat
  ws : Nat
  pc : Nat
  site : Nat
  insn : Nat
  deriving DecidableEq, Repr

/-- A watchpoint (R93). -/
structure Watch where
  lo : Nat
  hi : Nat
  en : Bool
  space : Bool
  act : Bool
  tagm : Bool
  kinds : Nat
  mask : Nat
  value : Nat
  deriving DecidableEq, Repr

/-- A watchpoint with every field 0 (R93). -/
def Watch.zero : Watch := ⟨0, 0, false, false, false, false, 0, 0, 0⟩

/-- A trap a lane takes (R231, R232): number, cause and the fields of its record. -/
structure Trap where
  num : Nat
  cause : Nat := 0
  addr : Nat := 0
  tag : Tag := 0
  key : Nat := 0
  lock : Nat := 0
  aux : Nat := 0
  /-- served first by the device operating system (R231, marked OS) -/
  os : Bool := false
  /-- a watch hit that is only recorded: the lane goes on (R95) -/
  only : Bool := false
  /-- the sub-warp it belongs to, whose lanes are delivered in ascending order (R230, R233) -/
  group : Nat := 0
  deriving DecidableEq, Repr

/-- A window checkpoint (R194, R239): absolute registers of the window, predicates, meet registers, window base and
the return site. Loads numbered below `mark` were issued before it and land in it too. -/
structure Check where
  regs : List (Nat × Reg)
  preds : BitVec 7
  meets : List (Option Nat)
  wbase : Nat
  retSite : Option (Nat × Nat)
  retTarget : Nat
  mark : Nat
  deriving DecidableEq, Repr

/-- Work of an open speculation level that waits for its outcome (R284, R287): lane-cycles with the place they
happened, and block counts. -/
structure Pending where
  active : List (Nat × Nat)          -- (code address, lane-cycles)
  blocks : List (Nat × Nat)          -- (block counter key, increment)
  deriving DecidableEq, Repr

/-- One open speculation level of a home thread (R194 to R202). -/
structure Level where
  callee : Nat
  check : Check
  retPc : Nat
  pred : List Reg                    -- predicted v0 to v3
  loadSet : List Loc                 -- granules
  writeSet : List Loc                -- granules of the callee
  conflict : Bool
  pend : Pending
  hits : List (Issuer × Trap)        -- record-only watch hits held (R96)
  deriving DecidableEq, Repr

/-- An open idempotent region (R239). -/
structure Region where
  check : Check
  pc : Nat
  slot : Nat
  pend : Pending
  deriving DecidableEq, Repr

/-- What a thread at a slot waits for. The last three hold its warp at the slot; every other one parks it outside its warp
(log entry 11, DEDUCED). -/
inductive Wait where
  | phase (loc : Loc) (n : Nat)          -- WAITP or TRYWAIT on a barrier object (R181)
  | crewBar (phase : Nat)                -- CREWBAR, or GBAR's first part (R183)
  | gang (entry phase : Nat)             -- GBAR's second part (R184)
  | meet (token : Nat)                   -- MEET; arrived on the object of this token (R44)
  | monitor                              -- MWAIT (R182)
  | yield                                -- waiting at YIELD (R241)
  | presence (core line : Nat)           -- a scratchpad line with copies in flight (R142)
  | spawnBin (entry : Nat)               -- SPAWN on a full bin (R58)
  | graphQueue (node cap : Nat)          -- EMIT on a full queue (R64)
  | woken                                -- its phase has passed: it goes on (R44, R184, R245)
  | failed (num cause : Nat)             -- its object was overrun or in error before its phase passed: it takes this trap (R181)
  | resolution                           -- a continuation stalled until its fork resolves (R200)
  | drain                                -- buffers the instruction waits on
  | request (loc : Loc)                  -- past an atomic's filter: its request has not taken its step (R186)
  | fence (seq : Nat)                    -- a fence or release marker is placed (R167)
  deriving DecidableEq, Repr

/-- Where a thread stands. -/
inductive Status where
  | boundary                             -- at a clause boundary, or at the slot `slot` it resumes at (R36, R364)
  | inWarp                               -- a member of a formed warp
  | parked (seq : Nat) (trap : Trap)     -- trapped, waiting for delivery (R233)
  | osServed (trap : Trap) (subw : Nat)  -- fault served by the device operating system (R156)
  | forking (callee target site : Nat) (pred : List Reg) (link : Tag)   -- CALLF accepted, waiting by R194 step 1 (R208)
  | reserved                             -- a callee whose slot is taken and whose fork has not started
  | joinWait                             -- its callee has not returned after a save (R206)
  | removed                              -- saved by pre-emption (R245)
  | draining                             -- ended; its store FIFO is not empty (R365)
  deriving DecidableEq, Repr

/-- A trap a continuation holds until its fork resolves (R200, R205), with the instruction that raised it. -/
structure Held where
  trap : Trap
  iss : Issuer
  deriving DecidableEq, Repr

/-- A thread (R33, R34). -/
structure Thread where
  crew : Nat
  role : Nat
  tid : Nat
  core : Nat
  quad : Nat
  lane : Nat
  slot : Nat                             -- thread slot 0 to 15
  rbase : Nat                            -- lane register of absolute register 0 (R138)
  allot : Nat                            -- registers
  spawned : Bool
  callee : Option Nat                    -- home thread, for a forked callee (R195)
  forkSite : Nat × Nat                   -- word index and target of the CALLF that forked it (R197)
  preds : BitVec 7
  meets : List (Option Nat)              -- m0 to m3: token, or disarmed
  wbase : Nat
  anom : Nat                             -- %anom: IOVF [2], POLICY [1:0]
  anomNext : Option Nat                  -- %anom of the next clause (R87)
  watch : List Watch                     -- the two thread watchpoints
  watchNext : Option (List Watch)        -- of the next clause (R403)
  lastf : Bool                           -- %spec.LASTF
  refuse : Nat                           -- %spec.REFUSE
  nest : Nat                             -- %spec.NEST
  inherited : Nat                        -- DEPTH taken from the home thread at the fork (R194)
  levels : List Level                    -- own open levels, innermost first
  region : Option Region
  pc : Nat                               -- clause address in the code space
  at_ : Nat                              -- slot of the clause it stands at when not in a warp
  fellThrough : Bool                     -- it reached the clause from the clause before it (R310)
  status : Status
  stamp : Option Nat                     -- age stamp (R36)
  since : Nat                            -- cycle in which it took the stamp (R39)
  late : Bool                            -- it takes its stamp after the others of that cycle (R39)
  wait : Option Wait
  timer : Option Nat                     -- cycles left of TRYWAIT's hint or MWAIT's time
  timedOut : Bool                        -- the hint of TRYWAIT, or the time of MWAIT, ran out
  handler : Option Nat                   -- FSEQ of the record whose handler it runs (R233)
  block : Nat                            -- address of the save block its handler returns through (R233, R236)
  monitor : Option (Loc × Bool)          -- armed granule; a counted write has arrived (R182)
  wdog : Nat                             -- watchdog count (R249)
  wdogHit : Bool                         -- it reached WDOG before its count restarted otherwise
  held : Option Held                     -- the trap held until commit (R205)
  retSite : Option (Nat × Nat)           -- return site (R419): return clause, and the call's word index
  retTarget : Nat                        -- target clause of that call
  bndTraps : List (Nat × Trap)           -- traps due at the next clause boundary (R443): record, trap
  fifo : List Nat                        -- store FIFO: entries by number, oldest first
  deriving DecidableEq, Repr

/-- An entry of a store buffer (R160), of a gather queue or of a landing stage (R172). -/
structure Store where
  uid : Nat
  crew : Nat
  ctx : Nat
  core : Nat
  loc : Loc
  va : Nat
  data : List (Option Byte)              -- from loc on; none is a byte the store does not write
  tag : Tag
  tagAddr : Option Nat                   -- HBM address of the granule's tag word; none on an exempt page
  page : Nat                             -- size of its page; 0 off the global space
  scope : Nat                            -- 0 weak, 1 + scope code when strong (R165)
  color : Option (Nat × Bool)            -- a COLOR change: colour and mark (R92)
  op : Nat                               -- the operation whose flag it holds; 0 none
  seq : Nat                              -- order of entry into the core point
  iss : Issuer
  half : Bool                            -- of the last byte only the low four bits are written (R146)
  pailed : Bool                          -- it comes from the pail: its watch hits are judged when it drains (R96)
  deriving DecidableEq, Repr

/-- A pail entry: one granule (R175, R199). -/
structure PailEntry where
  uid : Nat
  level : Nat                            -- 0 an open region; d the speculation level of depth d
  loc : Loc                              -- the granule
  va : Nat
  bytes : List (Option Byte)             -- 16
  tag : Tag
  tagAddr : Option Nat
  page : Nat
  scope : Nat
  iss : Issuer
  deriving DecidableEq, Repr

/-- An outstanding operation that holds a completion flag raised (R15). -/
structure Op where
  lanes : List Nat
  flag : Option Nat
  left : Nat
  deriving DecidableEq, Repr

/-- A load between its issue and its read step (R386, R387). -/
structure Load where
  op : Nat
  uid : Nat
  dst : Nat                              -- absolute register
  regs : Nat                             -- registers written: 1, 2 or 4
  width : Nat
  loc : Loc
  va : Nat
  tagAddr : Option Nat
  ptag : Tag                             -- page eartag on an exempt page
  gather : Bool
  scope : Nat                            -- 0 weak, 1 + scope code when strong
  wide : Bool                            -- no L1 search
  iss : Issuer
  deriving DecidableEq, Repr

/-- A formed warp (R37, R38). -/
structure Warp where
  members : List Nat
  pc : Nat
  slot : Nat
  words : List Word                      -- the clause, 16 words
  ctx : Nat
  arrived : List Nat                     -- members that have passed the current slot
  issued : Bool                          -- the current slot has issued
  stamp : Nat
  lane0 : Nat
  slot0 : Nat
  deriving DecidableEq, Repr

/-- A meet object (R43). -/
structure MeetObj where
  token : Nat
  armed : List Nat
  arrived : List Nat
  phase : Nat
  deriving DecidableEq, Repr

/-- Pre-emption states of a crew (R245). -/
inductive Preempt where
  | running | requested | forcing | removed
  deriving DecidableEq, Repr

/-- A saved thread: its record and its registers (R241, R242). -/
structure SavedThread where
  uid : Nat
  status : Status
  regs : List (Nat × Reg)
  deriving DecidableEq, Repr

/-- A role entry (R49). -/
structure Role where
  cls : Nat
  warps : Nat
  allot : Nat                            -- registers
  entry : Nat
  deriving DecidableEq, Repr

/-- A group table entry with its member list (R52). -/
structure Gang where
  cores : Bool
  gboff : Nat
  members : List Nat
  deriving DecidableEq, Repr

/-- Who is told when a launch completes. -/
inductive Origin where
  | queue (vd q htag : Nat)
  | graph (node : Nat)
  deriving DecidableEq, Repr

/-- An accepted launch (R48, R51). -/
structure Launch where
  ctx : Nat
  code : Nat
  manifest : Nat
  iovf : Bool
  anom : Nat
  c16 : Bool
  sptimer : Nat
  gx : Nat
  gy : Nat
  gz : Nat
  scrlines : Nat
  args : Nat
  batch : Nat
  batchCount : Nat
  batchSize : Nat                        -- bytes of the batch buffer held
  cid : Option Nat                       -- the collective bound (R216)
  ended : Option (Nat × Nat × List Nat)  -- CID, CHUNKS and fired chunks of a bound collective that has ended (R217)
  cbase : Nat
  cx : Nat
  cy : Nat
  cz : Nat
  roles : List Role
  gangs : List Gang
  seq : Nat                              -- its place among the launches accepted
  cores : List Nat                       -- cores its crews have been placed on
  placed : List Nat                      -- ordinals placed
  done : List Nat                        -- ordinals completed
  failed : Bool                          -- a crew of it was killed (R238, R252)
  origin : Origin
  deriving DecidableEq, Repr

/-- A spawn record (R58): its argument words, its spawner (R59, R253) with the allotment and the %anom its thread gets, and
its place among the records spawned. -/
structure SpawnRec where
  iss : Issuer
  seq : Nat
  allot : Nat
  anom : Nat
  args : List Reg
  deriving DecidableEq, Repr

/-- A spawn bin (R58): keyed by its entry address, in the code space of the context that owns it (R250). -/
structure SpawnBin where
  entry : Nat
  ctx : Nat
  recs : List SpawnRec
  timer : Nat
  launching : Bool
  deriving DecidableEq, Repr

/-- A 128-byte line of an L1 with its tag words (R135). -/
structure L1Line where
  bytes : List Byte
  tags : List Word
  deriving DecidableEq, Repr

/-- A return predictor entry (R197). -/
structure Pred where
  tag : Nat
  ctx : Nat
  target : Nat
  last : List Word
  stride : List Word
  conf : List Bool
  tags : List Tag
  deriving DecidableEq, Repr

/-- How a copy forms its elements (R146 to R148). -/
inductive CopyKind where
  | plain (bytes : Nat)
  | convert (n td ts : Nat) (ovf : Bool)
  | tensor (esz : Nat) (fill : Option Nat) (cnt : List Nat) (sstep dstep : List Int)
  deriving DecidableEq, Repr

/-- A copy (R144). `dsp` and `ssp` are space codes 0 .g, 1 .s, 2 .x. -/
structure Copy where
  iss : Issuer
  op : Nat
  kind : CopyKind
  dsp : Nat
  ssp : Nat
  dst : Nat
  src : Nat
  bar : Option Nat                       -- barrier offset in the crew's scratchpad
  ten : Option Nat                       -- trigger counter incremented at the end
  engine : Nat
  landed : List Nat                      -- units landed
  lines : List (Nat × Nat)               -- (core, line) presence counts still raised
  held : Option Nat                      -- unit whose page is not present (R149)
  watched : Nat                          -- mask of the watchpoints whose hit is recorded (R95)
  mark : Nat                             -- stores of its core numbered below reach the device point first (R145, R150)
  deriving DecidableEq, Repr

/-- An armed copy (R151). -/
structure Armed where
  ctr : Nat
  thr : Nat
  copy : Copy
  due : Bool                             -- it has fired, and starts once an engine and its lines take it (R141)
  deriving DecidableEq, Repr

/-- What a save holds of a removed crew (R241, R242). -/
structure Saved where
  light : Bool
  threads : List SavedThread
  scr : SMap Byte                        -- by offset
  scrTag : SMap Tag                      -- by granule
  acc : SMap Reg
  triggers : List (Nat × Nat)
  armed : List Armed
  bins : List (Nat × SpawnBin)           -- by quadrant
  posts : List (Nat × Nat × Reg)         -- COLPOST results held: thread, absolute register, status word (R244)
  deriving DecidableEq, Repr

/-- A crew's standing in one gang of its launch (R54 to R56). -/
structure CrewGang where
  entry : Nat
  pos : Nat
  remote : Bool                          -- remote-activity bit (R56)
  rounds : Nat                           -- RING rounds issued (R152)
  deriving DecidableEq, Repr

/-- A crew (R46). -/
structure Crew where
  launch : Nat
  ctx : Nat
  ord : Nat
  core : Nat
  base : Nat                             -- first physical scratchpad line
  lines : Nat
  index : Nat                            -- crew table index (R139)
  barPhase : Nat
  barArrived : List Nat
  barGang : Option Nat                   -- kind of the phase's arrivals (R184)
  gangWait : Option (Nat × Nat)          -- the gang and object phase its threads wait on (R184)
  meets : List MeetObj
  watch : List Watch
  preempt : Preempt
  req : Bool
  left : Nat
  halted : Bool
  gangs : List CrewGang
  saved : Option Saved
  placed : Bool
  release : Option Nat                   -- marker of its completion's release (R169, R217)
  finished : Bool                        -- complete, and resident until its gangs' other members are (R55)
  objs : List Nat                        -- granule offsets that BARINIT made barrier objects (R177, R178)
  came : SMap (Nat × List Nat)           -- object offset ↦ phase and own threads arrived in it (R188)
  deriving DecidableEq, Repr

/-- A ring tile between its reading and its landing (R152, R153). -/
structure Tile where
  launch : Nat
  gang : Nat
  fromPos : Nat
  toPos : Nat
  round : Nat
  off : Nat
  grans : List (List Byte × Tag)
  bar : Option Nat
  op : Nat                               -- the sender's operation
  iss : Issuer
  staged : Bool
  deriving DecidableEq, Repr

/-- Presence counts a member raised at its RING issue (R141), with its operation. -/
structure RingWait where
  launch : Nat
  gang : Nat
  pos : Nat
  round : Nat
  op : Nat
  lines : List (Nat × Nat)
  deriving DecidableEq, Repr

/-- The operations of the matrix queue (R115). -/
inductive MatKind where
  | mma (fmt : Word)
  | accld (tile : Nat)
  | accst (bf : Bool) (tile : Nat)
  | accz (tile n : Nat)
  | acchk (d : List (Nat × Nat))          -- (thread, absolute register) of every lane of the group
  | inject (tile elt bitv : Nat) (tags : Tag × Tag)
  deriving DecidableEq, Repr

/-- An entry of the matrix queue. -/
structure MatOp where
  kind : MatKind
  addr : Nat
  op : Nat
  iss : Issuer
  block : Option (List Byte)              -- the block as read at the head (R122)
  head : SMap Byte                        -- index vector, metadata and zero points as read at the head (R122): scratchpad bytes
  headTag : SMap Tag                      -- their granules' eartags
  number : Nat                            -- its place among the register writes of its lanes, numbered as loads
  deriving DecidableEq, Repr

/-- A trigger counter (R150). -/
structure Trigger where
  val : Nat
  ctx : Nat
  deriving DecidableEq, Repr

/-- An arrival in flight toward a gang object or a member's barrier (R184, R170). -/
structure Arrival where
  launch : Nat
  gang : Nat
  crew : Nat
  loc : Loc
  deriving DecidableEq, Repr

/-- A failure-log item (R253). -/
inductive LogItem where
  | entry (stamp type status ctx cause id where_ : Nat)
  | deadlock (stamp ctx walk : Nat) (ents : List (Nat × Nat))
  deriving DecidableEq, Repr

/-- A code module (R288). -/
structure Module where
  code : Nat
  len : Nat
  manoff : Nat
  impoff : Nat
  nimp : Nat
  nblock : Nat
  bcbase : Nat
  deriving DecidableEq, Repr

/-- A communicator (R211). -/
structure Comm where
  members : List Nat
  routes : List Route
  far : List Nat                          -- of each route, the least trained width of its links at other devices (R222)
  deriving DecidableEq, Repr

/-- The graph engine's state for one node (R65). -/
structure NodeState where
  count : Nat
  head : Nat
  tail : Nat
  flush : Bool                            -- its last producer completed while records remained (R66)
  deriving DecidableEq, Repr

/-- A graph start accepted and not yet completed (R65, R272). -/
structure GraphStart where
  vd : Nat
  q : Nat
  htag : Nat
  deriving DecidableEq, Repr

/-- A snapshot of a context's memory (R274): marked units and copied units. -/
structure Snap where
  cow : List Nat
  copied : List (Nat × List Host.Cell)
  bits : List Nat
  deriving DecidableEq, Repr

/-- A context (R265) with the state the device keeps for it. -/
structure Context where
  root : Nat
  cspace : Nat
  anomBase : Nat
  anomSeq : Nat
  faultBase : Nat
  faultSeq : Nat
  tsave : Nat
  coldesc : Nat
  dirty : Nat
  wdog : Nat
  predl : Nat
  tentry : Nat
  vd : Nat
  ta : Nat
  pshare : Nat
  finj : Bool
  priv : Bool
  graph : Nat
  nnode : Nat
  batchBase : Nat
  batchSize : Nat
  batchHead : Nat
  nodes : SMap NodeState
  starts : List GraphStart
  watch : List Watch
  comms : SMap Comm
  modules : List Module
  log : List LogItem
  lastSets : List (List Nat)
  walked : Nat                            -- time base of its last walk at the interval (R189)
  binBase : Option Nat
  bins : SMap Nat                         -- lane-cycle counts: 8 × range + class
  snap : Option Snap
  ended : Bool
  deriving DecidableEq, Repr

/-- A queue pair (R271). -/
structure QueuePair where
  sqbase : Nat
  ctx : Nat
  cqbase : Nat
  cqlog : Nat
  sqlog : Nat
  vec : Nat
  sqtail : Nat
  sqhead : Nat
  cqhead : Nat
  cqtail : Nat
  phase : Bool
  err : Bool
  en : Bool
  outstanding : List Nat                  -- host tags taken and not completed
  held : List (List Nat)                  -- completions not yet written: htag, kind, status, launch
  raised : Nat                            -- interrupts raised
  deriving DecidableEq, Repr

/-- A queue pair with every register 0 (R271). -/
def QueuePair.zero : QueuePair :=
  ⟨0, 0, 0, 0, 0, 0, 0, 0, 0, 0, true, false, false, [], [], 0⟩

/-- A partition: remap table entry and capability block (R258, R260). -/
structure Partition where
  map : List Nat                          -- COREMAP0 to COREMAP3
  portmap : Nat
  framesAddr : Nat
  frames : List Nat                       -- the frame list
  nvf : Nat
  wsave : Nat
  seq : Nat
  raised : Nat                            -- host interrupts of its physical function (R261)
  aperture : List Nat                     -- peer aperture table, 16 entries (R269)
  deriving DecidableEq, Repr

/-- A virtual device (R262 to R264). -/
structure VDev where
  part : Nat
  weight : Nat
  quantum : Nat
  eq_ : Nat
  turn : Bool
  start : Nat                             -- time base when its turn began
  ending : Bool                           -- its turn is over and its crews are being removed (R264)
  next : Option (Nat × Nat × Nat)         -- weight, quantum and EQ from its next turn (R263)
  window : Nat × Nat                      -- base and size of its BAR2 window in the partition (R270)
  deriving DecidableEq, Repr

/-- States of a posted collective (R220). -/
inductive ColState where
  | posted | held | started | withdrawing | running | failed
  deriving DecidableEq, Repr

/-- A posted-collective table entry (R220): the descriptor's fields, the group as its communicator lists it, and what
this member has done. -/
structure Posted where
  ctx : Nat
  cid : Nat
  comm : Nat
  kind : Nat
  rop : Nat
  ty : Nat
  src : Nat
  dst : Nat
  res : Nat
  count : Nat
  chunks : Nat
  root : Nat
  members : List Nat
  rank : Nat
  routes : List Route
  state : ColState
  ticket : Option Nat
  fired : List Nat
  status : SMap Nat                      -- chunk ↦ status code, once decided (R227)
  written : List Nat                     -- chunks whose status byte is written
  srcRead : List Nat                     -- chunks whose SRC bytes have been read
  heard : SMap Nat                       -- chunk without elements ↦ mask of the other members known to have fired it (R213)
  acc : SMap Nat                         -- DST element ↦ partial result bits
  terms : SMap Nat                       -- DST element ↦ mask of the ranks combined
  marks : SMap Nat                       -- DST element ↦ rank × 2^24 + eartag of its lowest-ranked A-tagged contribution
  novf : Nat
  fovf : Nat
  weights : List Nat                     -- route weights at GO (R222)
  onStacks : List Nat                      -- stacks whose reduce slot it holds (R219)
  op : Nat
  number : Nat                           -- the post's place among the register writes of its lanes
  dsts : List (Nat × Nat)                -- (thread, absolute register) of vD
  fires : List (Nat × Nat)               -- (chunk, operation) of COLFIRE flags
  iss : Issuer
  bound : Bool                           -- posted by a bound launch, or bound to one
  deriving DecidableEq, Repr

/-- What a coordinator knows of one group (R218, R220). -/
structure Coord where
  ctx : Nat
  cid : Nat
  members : List Nat
  posts : List (Nat × List Nat)           -- (rank, fields)
  ticket : Option Nat
  readys : List Nat
  deriving DecidableEq, Repr

/-- A message between parlours, as sent (R218). -/
structure Message where
  clock : Nat
  dest : Nat
  kind : Nat                              -- 0 post 1 ticket 2 ready 3 go 4 withdraw 5 acknowledgement 6 fail
  cid : Nat
  fields : List Nat
  deriving DecidableEq, Repr

/-- A receive-reduce command with its staged run (R223). -/
structure Command where
  posted : Nat
  ctx : Nat
  dstpa : Nat
  stgpa : Nat
  len : Nat                               -- bytes ÷ 32
  op : Nat
  ty : Nat
  chunk : Nat
  ticket : Nat
  elt : Nat                               -- first DST element
  ranks : Nat                             -- mask of the ranks combined in the run
  data : List Nat
  marks : List (Nat × Nat × Tag)          -- (DST element, rank, eartag) of A-tagged contributions
  deriving DecidableEq, Repr

/-- A landing in the device's collective queue (R172). -/
structure ColLand where
  posted : Nat
  ctx : Nat
  va : Nat
  data : List (Option Byte)
  tag : Tag
  deriving DecidableEq, Repr

/-- A translation held in a TLB (R157): context, OWNER, page address and size, and the entry. -/
structure TlbEntry where
  ctx : Nat
  owner : Nat
  page : Nat
  size : Nat
  entry : Nat
  peer : Nat                              -- the entry of the peer aperture table it went through, as it stood (R269)
  deriving DecidableEq, Repr

/-- A counter-cache entry (R287): counter address and context, delta. -/
structure BlockCount where
  ctx : Nat
  addr : Nat
  delta : Nat
  deriving DecidableEq, Repr

/-- A record of the device whose page is not present (R237). A lane's fault record is written when the operating system has
mapped the page; a birth, and an engine, wait for the page before they take their step (`held`): the value of a birth is used
by no one before its record is written (R71). -/
structure PendRec where
  uid : Nat
  core : Nat
  engine : Bool
  ctx : Nat
  va : Nat
  seq : Nat
  data : List (List Byte)
  held : Bool
  deriving DecidableEq, Repr

/-- What system software sets outside every instruction and step of the table. -/
inductive Setting where
  | capacity (n : Nat)                    -- start slots of the device, 1 to 64 (R219)
  | walkEvery (ticks : Nat)               -- the interval of the wait-for walks (R189)
  | latchEvery (ticks : Nat)              -- the interval of the counters' own triggers (R281)
  | binning (ctx : Nat) (base : Option Nat)   -- a context's binning region, a physical HBM address (R285)
  | window (vd base size : Nat)           -- the BAR2 window of a virtual function, in its partition (R270)
  | far (ctx comm route width : Nat)      -- a link of a route has trained at another device (R222)
  | migrate (ctx : Nat)                   -- every crew of a context is pre-empted with PREDL taken as 0 (R274)
  | settle (launch crew : Nat) (l : Launch) (c : Crew) (ts : List (Nat × Thread))   -- a saved crew arrives by migration (R274)
  deriving DecidableEq, Repr

/-- Which agent moves next (log entry 1, DESIGN CHOICE). -/
inductive Move where
  | issue (quad : Nat)                    -- a quadrant issues a slot (R38)
  | act (i : Instr)                       -- a step of another agent
  | time (cycles ticks : Nat)             -- cycles and time-base ticks pass
  | set (x : Setting)                     -- system software sets a limit, an interval or a region
  deriving DecidableEq, Repr

/-- Module-wide state outside the partitions. -/
structure Chip where
  powered : Bool
  recovery : Bool                         -- the boot checks failed (R276)
  boot : Bool                             -- the boot partition stands (R277)
  released : List Nat                     -- physical cores released (R261)
  failed : List Nat                       -- cores that failed self-test
  sst : List Nat                          -- SST of each stack
  step : Nat                              -- 0xB0 or 0xB1 (R2)
  dev : Nat                               -- device id (R210)
  fusedOff : List Nat                     -- physical cores (R258)
  minVersion : Nat                        -- fused minimum version (R275)
  fusedDigest : List Byte                 -- fused key digest (R275)
  flash : List Byte                       -- module flash image (R275)
  mhz : Nat                               -- arithmetic clock (R32)
  width : List Nat                        -- trained lanes of each port (R30)
  linkFailed : List Nat                   -- ports declared failed (R210)
  retries : List (Nat × Nat)              -- CRC retries in a row of each port
  capacity : Nat                          -- start slots (R219)
  clock : Nat                             -- fabric clock, 48 bits (R218)
  walks : Nat                             -- walks of the wait-for table since device start (R190)
  walkEvery : Nat                         -- ticks between walks, set by system software (R189)
  latchEvery : Nat                        -- ticks between the counters' own triggers, set by system software (R281)
  ecc : Nat                               -- corrected errors counted by the operating system (R250)
  trips : Nat                             -- thermal trips signalled (R279)
  mcMode : List (Option Nat)              -- mode of MC0 to MC15: 3 M, 1 S, none before its start (R30, R276, R278)
  sram : List Byte                        -- the management cores' SRAM: what MC0 has loaded (R30, R276)
  autoAt : Nat                            -- time base of the last trigger of the counters' own (R281)
  deriving DecidableEq, Repr

/-- The machine. -/
structure State where
  agenda : List Move
  cur : Option Nat
  stalled : List Nat
  chip : Chip
  cycle : Nat
  timebase : Nat
  mem : List Host.Cell
  hostMem : List Host.Cell
  peerMem : List Host.Cell
  regs : SMap Reg
  scr : SMap Byte
  scrTag : SMap Tag
  pend : SMap Nat
  acc : SMap Reg
  threads : SMap Thread
  nextUid : Nat
  warps : SMap Warp
  formation : SMap Nat
  icache : SMap (List Word)
  crews : SMap Crew
  nextCrew : Nat
  launches : SMap Launch
  ctxs : SMap Context
  bins : SMap SpawnBin
  spawned : Nat
  stores : SMap Store
  nextStore : Nat
  corePoint : SMap (List Nat)
  markers : SMap (List Nat)
  diePoint : SMap (List Nat)
  fabric : List Nat
  gatherQ : SMap (List Nat)
  landing : SMap (List Nat)
  colQ : SMap ColLand
  pail : SMap (List PailEntry)
  l1 : SMap L1Line
  loads : SMap Load
  nextLoad : Nat
  ops : SMap Op
  nextOp : Nat
  copies : SMap Copy
  nextCopy : Nat
  armed : SMap (List Armed)
  tiles : SMap Tile
  nextTile : Nat
  ringWaits : List RingWait
  matQ : SMap (List MatOp)
  triggers : SMap Trigger
  arrivals : SMap Arrival
  nextArrival : Nat
  preds : SMap Pred
  tlb1 : SMap (List TlbEntry)
  lltlb : SMap (List TlbEntry)
  blocks : SMap (List BlockCount)
  counters : SMap Nat
  shadows : SMap Nat
  accepted : Nat
  latchSeq : Nat
  latchStamp : Nat
  triggerAt : Option Nat
  parts : SMap Partition
  vdevs : SMap VDev
  queues : SMap QueuePair
  posted : SMap Posted
  coords : SMap Coord
  outbox : List Message
  commands : SMap (List Command)
  records : List PendRec
  answer : List Nat                       -- the operating system's latest answer to a request (R263)
  deriving DecidableEq, Repr

/-- The module before power: steppings, fuses and flash as made (log entry 3, DESIGN CHOICE); the boot partition and its registers
come with POWER_ON (R276, R277). -/
def Chip.reset : Chip :=
  ⟨false, false, false, [], [], List.replicate 8 0, 0xB1, 0, [48, 49, 98, 99, 148, 149, 198, 199], 0, [], [], 3600, List.replicate 48 0, [], [], 64, 0, 0, 2 ^ 24, 2 ^ 30, 0, 0, List.replicate 16 none, [], 0⟩

/-- The machine right after reset: power applied to nothing yet, every structure empty, every register 0 (R277,
R280; log entries 2 to 4, DESIGN CHOICE). -/
def State.reset : State where
  agenda := []
  cur := none
  stalled := []
  chip := Chip.reset
  cycle := 0
  timebase := 0
  mem := []
  hostMem := []
  peerMem := []
  regs := []
  scr := []
  scrTag := []
  pend := []
  acc := []
  threads := []
  nextUid := 1
  warps := []
  formation := []
  icache := []
  crews := []
  nextCrew := 1
  launches := []
  ctxs := []
  bins := []
  spawned := 0
  stores := []
  nextStore := 1
  corePoint := []
  markers := []
  diePoint := []
  fabric := []
  gatherQ := []
  landing := []
  colQ := []
  pail := []
  l1 := []
  loads := []
  nextLoad := 1
  ops := []
  nextOp := 1
  copies := []
  nextCopy := 1
  armed := []
  tiles := []
  nextTile := 1
  ringWaits := []
  matQ := []
  triggers := []
  arrivals := []
  nextArrival := 1
  preds := []
  tlb1 := []
  lltlb := []
  blocks := []
  counters := []
  shadows := []
  accepted := 0
  latchSeq := 0
  latchStamp := 0
  triggerAt := none
  parts := []
  vdevs := []
  queues := []
  posted := []
  coords := []
  outbox := []
  commands := []
  records := []
  answer := []

end Sys2Proof.Machine
end

