-- ==== Sys2Proof/Machine/Mem.lean ====
section
/-! DEFINITION. Storage: keys of the physical arrays, bytes and tag words (R78 to R82), the on-chip map (R137 to
R140), translation (R154 to R157, R259, R268, R269), and what a load finds (R162, R165). -/

namespace Sys2Proof.Machine

/-! Keys of the physical arrays (R137). -/

/-- Quadrant number on the module. -/
def quadKey (core quad : Nat) : Nat := core * 4 + quad
/-- Register `r` of a lane. -/
def regKey (core quad lane r : Nat) : Nat := (quadKey core quad * 32 + lane) * 2048 + r
/-- A physical scratchpad byte. -/
def scrKey (core b : Nat) : Nat := core * 524288 + b
/-- The granule of a scratchpad byte. -/
def granKey (core b : Nat) : Nat := core * 32768 + b / 16
/-- The line of a scratchpad byte. -/
def lineKey (core b : Nat) : Nat := core * 4096 + b / 128
/-- An accumulator element. -/
def accKey (core e : Nat) : Nat := core * 65536 + e

/-- The register that reads 0 with eartag 0 (R34). -/
def Reg.zero : Reg := ⟨0, 0⟩

/-! Byte lists. -/

/-- Read `n` bytes. -/
def readCells (m : List Host.Cell) (a : Nat) : Nat → List Byte
  | 0 => []
  | n + 1 => SMap.getD m 0 a :: readCells m (a + 1) n

/-- Write bytes at rising addresses, keeping the canonical form: an unlisted byte reads 0 (log entry 2, DESIGN CHOICE). -/
def writeCells (m : List Host.Cell) (a : Nat) : List Byte → List Host.Cell
  | [] => m
  | b :: bs => writeCells (SMap.setD m 0 a b) (a + 1) bs

/-- The key of a peer byte in the peer memory map. -/
def peerKey (dev part a : Nat) : Nat := (dev * 8 + part) * 2 ^ 40 + a

/-- The canonical form of a memory (log entry 2, DESIGN CHOICE): addresses rising, no zero listed. -/
def Memory.wf (m : List Host.Cell) : Bool := SMap.wf (0 : Byte) m

/-! Locations. -/

/-- The 16-byte granule that holds a location. -/
def Loc.gran : Loc → Loc
  | .hbm a => .hbm (a / 16 * 16)
  | .host a => .host (a / 16 * 16)
  | .peer d p a => .peer d p (a / 16 * 16)
  | .win c o => .win c (o / 16 * 16)
  | .scr c b => .scr c (b / 16 * 16)

/-- The place within the granule. -/
def Loc.inGran : Loc → Nat
  | .hbm a => a % 16
  | .host a => a % 16
  | .peer _ _ a => a % 16
  | .win _ o => o % 16
  | .scr _ b => b % 16

/-- A location `n` bytes further. -/
def Loc.add : Loc → Nat → Loc
  | .hbm a, n => .hbm (a + n)
  | .host a, n => .host (a + n)
  | .peer d p a, n => .peer d p (a + n)
  | .win c o, n => .win c (o + n)
  | .scr c b, n => .scr c (b + n)

/-- Whether the location is performed at the fabric point (R171). -/
def Loc.fabric : Loc → Bool
  | .host _ => true
  | .peer _ _ _ => true
  | _ => false

/-- Whether the location is a scratchpad byte. -/
def Loc.isScr : Loc → Bool
  | .scr _ _ => true
  | _ => false

/-! Thread registers. -/

/-- The key of absolute register `a` of a thread (R138). -/
def Thread.key (t : Thread) (a : Nat) : Nat := regKey t.core t.quad t.lane (t.rbase + a)

/-- Absolute register `a` of a thread. -/
def State.rd (s : State) (t : Thread) (a : Nat) : Reg := SMap.getD s.regs Reg.zero (t.key a)

/-- Write absolute register `a` of a thread. -/
def State.wr (s : State) (t : Thread) (a : Nat) (r : Reg) : State :=
  { s with regs := SMap.setD s.regs Reg.zero (t.key a) r }

/-- Write registers from absolute register `a` on. -/
def State.wrs (s : State) (t : Thread) (a : Nat) : List Reg → State
  | [] => s
  | r :: rs => (s.wr t a r).wrs t (a + 1) rs

/-- A thread by its number. -/
def State.thread? (s : State) (uid : Nat) : Option Thread := SMap.get? s.threads uid

/-- Change a thread. -/
def State.modThread (s : State) (uid : Nat) (f : Thread → Thread) : State :=
  { s with threads := SMap.mod s.threads uid f }

/-! The on-chip map (R137). -/

/-- What an offset of a core's window names. -/
inductive WinItem where
  | reg (quad lane r : Nat)
  | scr (b : Nat)
  | acc (e : Nat)
  | place (i : Nat)
  | crew (i : Nat)
  | reserved
  deriving DecidableEq, Repr

/-- Decode a window offset (R137). -/
def winItem (o : Nat) : WinItem :=
  if o < 0x100000 then .reg (o / 0x40000) (o / 0x2000 % 32) (o / 4 % 2048)
  else if o < 0x180000 then .scr (o - 0x100000)
  else if o < 0x1C0000 then .acc ((o - 0x180000) / 4)
  else if o < 0x1C2000 then .place ((o - 0x1C0000) / 4)
  else if o < 0x1C2400 then .crew ((o - 0x1C2000) / 4)
  else .reserved

/-- Whether a location is a word of the placement or crew table, which no write reaches (R137). -/
def Loc.isTable : Loc → Bool
  | .win _ o => match winItem o with
    | .place _ => true
    | .crew _ => true
    | _ => false
  | _ => false

/-- A thread's placement position on its core: 512 × quadrant + 16 × lane + slot. -/
def Thread.pos (t : Thread) : Nat := 512 * t.quad + 16 * t.lane + t.slot

/-- Whether a thread occupies its slot. -/
def Thread.resident (t : Thread) : Bool := t.status != .removed

/-- The placement word of a slot (R138). -/
def State.placeWord (s : State) (core i : Nat) : Nat :=
  match s.threads.find? (fun e => e.2.core == core && e.2.pos == i && e.2.resident) with
  | none => 0
  | some (_, t) =>
    let ix := ((SMap.get? s.crews t.crew).map (·.index)).getD 0
    2 ^ 31 + ix * 2 ^ 24 + (t.allot / 32 - 1) * 2 ^ 20 + t.rbase

/-- Word `j` (0 to 3) of crew table entry `i` (R139). -/
def State.crewWord (s : State) (core i j : Nat) : Nat :=
  match s.crews.find? (fun e => e.2.core == core && e.2.index == i && e.2.placed) with
  | none => 0
  | some (_, c) =>
    match j with
    | 0 => 2 ^ 31 + c.ctx
    | 1 => c.ord
    | 2 => c.lines * 65536 + c.base
    | _ => c.launch

/-- The 32-bit word of a window that holds offset `o`, with its eartag (R140). -/
def State.winWord (s : State) (core o : Nat) : Reg :=
  match winItem o with
  | .reg q l r => SMap.getD s.regs Reg.zero (regKey core q l r)
  | .scr b => ⟨BitVec.ofNat 32 (ofBytes ((List.range 4).map fun i => SMap.getD s.scr 0 (scrKey core (b / 4 * 4 + i)))),
      SMap.getD s.scrTag 0 (granKey core b)⟩
  | .acc e => SMap.getD s.acc Reg.zero (accKey core e)
  | .place i => ⟨BitVec.ofNat 32 (s.placeWord core i), 0⟩
  | .crew i => ⟨BitVec.ofNat 32 (s.crewWord core (i / 4) (i % 4)), 0⟩
  | .reserved => Reg.zero

/-- Read bytes of scratchpad. -/
def State.scrRead (s : State) (core b : Nat) : Nat → List Byte
  | 0 => []
  | n + 1 => SMap.getD s.scr 0 (scrKey core b) :: s.scrRead core (b + 1) n

/-- Write bytes of scratchpad. -/
def State.scrWrite (s : State) (core b : Nat) : List Byte → State
  | [] => s
  | x :: xs => ({ s with scr := SMap.setD s.scr 0 (scrKey core b) x }).scrWrite core (b + 1) xs

/-- Read bytes of a window. -/
def State.winRead (s : State) (core o : Nat) : Nat → List Byte
  | 0 => []
  | n + 1 => BitVec.ofNat 8 ((s.winWord core o).val.toNat / 2 ^ (8 * (o % 4))) :: s.winRead core (o + 1) n

/-- The bytes at a location, at its own point. -/
def State.readLoc (s : State) (l : Loc) (n : Nat) : List Byte :=
  match l with
  | .hbm a => readCells s.mem a n
  | .host a => readCells s.hostMem a n
  | .peer d p a => readCells s.peerMem (peerKey d p a) n
  | .win c o => s.winRead c o n
  | .scr c b => s.scrRead c b n

/-! Tag words (R78). -/

/-- POISON. -/
def twPoison (w : Word) : Bool := bit w 31
/-- Lock colour. -/
def twColour (w : Word) : Nat := (fld w 24 4).toNat
/-- EARTAG. -/
def twTag (w : Word) : Tag := fld w 0 24
/-- Whether an eartag is an anomaly eartag (R68). -/
def isA (t : Tag) : Bool := bit t 23

/-- The granule's eartag after a store (R82). -/
def storedTag (whole : Bool) (st old : Tag) : Tag :=
  if !whole && !isA st && isA old then old else st

/-- The tag word after a store: eartag by R82, UNWR cleared, POISON cleared by a whole-granule store (R428). -/
def storedTw (whole : Bool) (st : Tag) (old : Word) : Word :=
  b1 (!whole && twPoison old) ++ 0#1 ++ fld old 28 2 ++ fld old 24 4 ++ storedTag whole st (twTag old)

/-- The tag word in memory. -/
def State.tagWord (s : State) (a : Nat) : Word := BitVec.ofNat 32 (ofBytes (readCells s.mem a 4))

/-- Write a tag word. -/
def State.setTagWord (s : State) (a : Nat) (w : Word) : State :=
  { s with mem := writeCells s.mem a (toBytes 4 w.toNat) }

/-- The tag word that goes with a location at its own point: the carve-out word, the page eartag of an exempt page,
the scratchpad tag, or the holder's eartag. -/
def State.twAt (s : State) (l : Loc) (tagAddr : Option Nat) (ptag : Tag) : Word :=
  match l with
  | .scr c b => (0#8 : BitVec 8) ++ SMap.getD s.scrTag 0 (granKey c b)
  | .win c o => (0#8 : BitVec 8) ++ (s.winWord c o).tag
  | _ =>
    match tagAddr with
    | some a => s.tagWord a
    | none => (0#8 : BitVec 8) ++ ptag

/-- Write one 32-bit holder of a window by some of its bytes: its eartag is replaced (R140). -/
def State.winWrite1 (s : State) (core o : Nat) (data : List Byte) (tag : Tag) : State :=
  let old := (s.winWord core o).val.toNat
  let sh := 2 ^ (8 * (o % 4))
  let w := 2 ^ (8 * data.length)
  let new := BitVec.ofNat 32 (old - old / sh % w * sh + ofBytes data * sh)
  match winItem o with
  | .reg q l r => { s with regs := SMap.setD s.regs Reg.zero (regKey core q l r) ⟨new, tag⟩ }
  | .acc e => { s with acc := SMap.setD s.acc Reg.zero (accKey core e) ⟨new, tag⟩ }
  | .scr b =>
    let s := s.scrWrite core b data
    let k := granKey core b
    { s with scrTag := SMap.setD s.scrTag 0 k (storedTag false tag (SMap.getD s.scrTag 0 k)) }
  | _ => s

/-- Split bytes at 4-byte boundaries. -/
def chunks4 : Nat → Nat → List Byte → List (Nat × List Byte)
  | 0, _, _ => []
  | _, _, [] => []
  | fuel + 1, o, bs =>
    let n := 4 - o % 4
    (o, bs.take n) :: chunks4 fuel (o + n) (bs.drop n)

/-- Write bytes through a window (R140). A whole scratchpad granule replaces its eartag. -/
def State.winWrite (s : State) (core o : Nat) (data : List Byte) (tag : Tag) : State :=
  let s := (chunks4 5 o data).foldl (fun s e => s.winWrite1 core e.1 e.2 tag) s
  match winItem o with
  | .scr b => if data.length == 16 then { s with scrTag := SMap.setD s.scrTag 0 (granKey core b) tag } else s
  | _ => s

/-- Write bytes and eartag at a location, at its own point, in one step (R81, R82). -/
def State.writeLoc (s : State) (l : Loc) (data : List Byte) (tag : Tag) (tagAddr : Option Nat) (whole : Bool) : State :=
  match l with
  | .hbm a =>
    let s := { s with mem := writeCells s.mem a data }
    match tagAddr with
    | none => s
    | some ta => s.setTagWord ta (storedTw whole tag (s.tagWord ta))
  | .host a => { s with hostMem := writeCells s.hostMem a data }
  | .peer d p a => { s with peerMem := writeCells s.peerMem (peerKey d p a) data }
  | .win c o => s.winWrite c o data tag
  | .scr c b =>
    let s := s.scrWrite c b data
    let k := granKey c b
    { s with scrTag := SMap.setD s.scrTag 0 k (storedTag whole tag (SMap.getD s.scrTag 0 k)) }

/-! Partitions and cores (R258, R259). -/

/-- The partition a context runs in. -/
def State.partOf (s : State) (c : Context) : Option (Nat × Partition) :=
  match SMap.get? s.vdevs c.vd with
  | none => none
  | some v => (SMap.get? s.parts v.part).map fun p => (v.part, p)

/-- The 200 map bits of a partition as one number (R258). -/
def Partition.coreBits (p : Partition) : Nat :=
  p.map.getD 0 0 + p.map.getD 1 0 * 2 ^ 64 + p.map.getD 2 0 * 2 ^ 128 + p.map.getD 3 0 * 2 ^ 192

/-- The granted physical ports, ascending: port n of the partition is the n-th (R259). -/
def Partition.ports (p : Partition) : List Nat := (List.range 48).filter fun k => p.portmap.testBit k

/-- The home L2 slice of a physical address, in its die (R24). -/
def homeSlice (pa : Nat) : Nat := nfld pa 12 5

/-- The pseudo-channel of a physical address, in its stack (R24). -/
def pseudoChannel (pa : Nat) : Nat := nfld pa 9 9

/-- The granted physical cores, ascending (R259). -/
def Partition.cores (p : Partition) : List Nat := (List.range 200).filter fun i => p.coreBits.testBit i

/-- The physical core of core number `n` of the partition. -/
def Partition.coreOf (p : Partition) (n : Nat) : Option Nat := p.cores[n]?

/-- The number the partition gives a physical core (R259). -/
def Partition.numberOf (p : Partition) (core : Nat) : Nat := (p.cores.takeWhile (· != core)).length

/-- A core's number as a context sees it. -/
def State.coreNumber (s : State) (c : Context) (core : Nat) : Nat :=
  match s.partOf c with
  | none => core
  | some (_, p) => p.numberOf core

/-- The compute die of a physical core (R17). -/
def dieOf (core : Nat) : Nat := core / 50

/-- What an address through an entry of the peer aperture table names (R269); a peer that refuses the access answers with a
bad physical address (log entry 75, DESIGN CHOICE). -/
def peerTarget (e a : Nat) : Option (Loc × Bool) :=
  if e.testBit 63 && Config.peerAdmits (e % 2 ^ 16) (nfld e 16 3) a then some (.peer (e % 2 ^ 16) (nfld e 16 3) a, e.testBit 62) else none

/-- The entry of the peer aperture table that serves a partition physical address (R269); 0 for one outside it. -/
def Partition.peerEntry (p : Partition) (a : Nat) : Nat := if nfld a 44 4 = 3 then p.aperture.getD (nfld a 40 4) 0 else 0

/-- What a partition physical address names (R259, R268, R269); `none` is a bad physical address. -/
def Partition.target (p : Partition) (a : Nat) : Option (Loc × Bool) :=
  let hi := nfld a 44 4
  let lo := a % 2 ^ 44
  if hi = 0 then
    match p.frames[lo / 2 ^ 30]? with
    | none => none
    | some f => some (.hbm (f * 2 ^ 30 + lo % 2 ^ 30), true)
  else if hi = 1 then
    match p.coreOf (lo / 2 ^ 24) with
    | none => none
    | some c => if winItem (lo % 2 ^ 24) = .reserved then none else some (.win c (lo % 2 ^ 24), true)
  else if hi = 2 then some (.host lo, true)
  else if hi = 3 then
    peerTarget (p.peerEntry a) (a % 2 ^ 40)
  else none

/-! Translation (R154 to R157). -/

/-- A page-table entry as a 128-bit number with the page's base address and size. -/
structure Leaf where
  entry : Nat
  size : Nat
  deriving DecidableEq, Repr

/-- What a walk finds. -/
inductive WalkRes where
  | leaf (l : Leaf)
  | absent
  | format
  | badPhys
  deriving DecidableEq, Repr

/-- Page size of a leaf at a level (R154). -/
def levelSize (level : Nat) : Nat := if level = 1 then 2 ^ 30 else if level = 2 then 2 ^ 21 else 2 ^ 16

/-- Index of an address at a level (R154). -/
def levelIndex (level va : Nat) : Nat :=
  match level with
  | 0 => nfld va 39 9
  | 1 => nfld va 30 9
  | 2 => nfld va 21 9
  | _ => nfld va 16 5

/-- Whether a leaf entry has the form R155 and R156 require. -/
def leafOk (priv : Bool) (level e : Nat) : Bool :=
  let size := levelSize level
  let addr := nfld e 9 39 * 512
  let ex := e.testBit 7
  let win := e.testBit 6
  let hi := nfld addr 44 4
  level != 0 && nfld e 48 14 == 0 && !e.testBit 8 && !e.testBit 5 && !e.testBit 3 && addr % size == 0 &&
  (ex || (nfld e 62 26 * 2 ^ 14) % (size / 4) == 0) && (!win || (priv && ex && hi == 1)) &&
  (win || hi != 1) && (ex || (hi != 2 && hi != 3))

/-- Whether a non-leaf entry uses only V, LEAF and ADDR (R155). -/
def nonLeafOk (level e : Nat) : Bool :=
  level != 3 && nfld e 48 80 == 0 && nfld e 5 4 == 0 && nfld e 1 3 == 0 &&
  (nfld e 9 39 * 512) % (if level = 2 then 512 else 8192) == 0

/-- Read an entry of a table at a partition physical address; `none` where the address names nothing (R259, R268). -/
def State.tableEntry (s : State) (p : Partition) (table i : Nat) : Option Nat :=
  (p.target (table + 16 * i)).map fun x => ofBytes (s.readLoc x.1 16)

/-- Walk from a table at a level down (R154). -/
def State.walkFrom (s : State) (p : Partition) (priv : Bool) (va : Nat) : Nat → Nat → Nat → WalkRes
  | 0, _, _ => .format
  | fuel + 1, level, table =>
    match s.tableEntry p table (levelIndex level va) with
    | none => .badPhys
    | some e =>
      if !e.testBit 0 then .absent
      else if e.testBit 4 then (if leafOk priv level e then .leaf ⟨e, levelSize level⟩ else .format)
      else if nonLeafOk level e then s.walkFrom p priv va fuel (level + 1) (nfld e 9 39 * 512)
      else .format

/-- Walk the tables of a context (R154). -/
def State.walk (s : State) (c : Context) (p : Partition) (va : Nat) : WalkRes :=
  s.walkFrom p c.priv (va % 2 ^ 48) 4 0 c.root

/-- A translated address: its location and the page's attributes. -/
structure Hit where
  loc : Loc
  r : Bool
  w : Bool
  ex : Bool
  ptag : Tag
  pcol : Nat
  tagAddr : Option Nat
  owner : Nat
  /-- page size -/
  size : Nat
  /-- a peer aperture with W = 0 (R269) -/
  peerW : Bool
  deriving DecidableEq, Repr

/-- What translation gives. -/
inductive Trans where
  | hit (h : Hit)
  | absent
  | format
  | badPhys
  deriving DecidableEq, Repr

/-- Where the tag word of a granule of a leaf lies: none on an exempt page (R79, R155). -/
def leafTag (p : Partition) (e off : Nat) : Option (Option Nat) :=
  if e.testBit 7 then some none
  else match p.target (nfld e 62 26 * 2 ^ 14 + 4 * (off / 16)) with
    | some (.hbm a, _) => some (some a)
    | _ => none

/-- The attributes of an address on a leaf (R79, R80, R155); `peer` is the entry of the peer aperture table it goes
through (R269). -/
def leafHit (p : Partition) (va : Nat) (l : Leaf) (peer : Nat) : Trans :=
  let off := va % 2 ^ 48 % l.size
  let e := l.entry
  let a := nfld e 9 39 * 512 + off
  match (if nfld a 44 4 = 3 then peerTarget peer (a % 2 ^ 40) else p.target a), leafTag p e off with
  | some (loc, pw), some tag =>
    .hit ⟨loc, e.testBit 1, e.testBit 2, e.testBit 7, BitVec.ofNat 24 (nfld e 88 24), nfld e 112 4, tag, nfld e 116 12, l.size, pw⟩
  | _, _ => .badPhys

/-- The entry of the peer aperture table that serves a leaf. -/
def Partition.leafPeer (p : Partition) (e : Nat) : Nat := p.peerEntry (nfld e 9 39 * 512)

/-- Find a translation in a TLB (R157). -/
def tlbFind (t : List TlbEntry) (ctx va : Nat) : Option TlbEntry :=
  t.find? fun e => e.ctx == ctx && e.page == va % 2 ^ 48 / e.size * e.size

/-- Add to a counter (R280). -/
def State.count (s : State) (key n : Nat) : State :=
  { s with counters := SMap.setD s.counters 0 key ((SMap.getD s.counters 0 key + n) % 2 ^ 64) }

/-- Counter keys: kind, unit, index (R280). -/
def cntQuad (q i : Nat) : Nat := 0x100000 + q * 16 + i
/-- Core counters. -/
def cntCore (c i : Nat) : Nat := 0x200000 + c * 16 + i
/-- Die counters. -/
def cntDie (d i : Nat) : Nat := 0x300000 + d * 16 + i
/-- Stack counters. -/
def cntStack (k i : Nat) : Nat := 0x400000 + k * 16 + i
/-- Port counters. -/
def cntPort (p i : Nat) : Nat := 0x500000 + p * 16 + i
/-- IOD counters. -/
def cntIod (i : Nat) : Nat := 0x600000 + i

/-- Put a translation at the front of a TLB of `cap` entries; the oldest leaves (R157, log entry 9, DESIGN CHOICE). -/
def tlbAdd (t : List TlbEntry) (cap : Nat) (e : TlbEntry) : List TlbEntry := (e :: t).take cap

/-- The set of the last-level TLB an entry lies in: 1024 sets of eight ways (R157, log entry 9, DESIGN CHOICE). -/
def TlbEntry.set (e : TlbEntry) : Nat := e.page / 65536 % 1024

/-- Put a translation into the last-level TLB: the oldest of its set's eight leaves (R157, log entry 9, DESIGN CHOICE). -/
def llAdd (t : List TlbEntry) (e : TlbEntry) : List TlbEntry :=
  e :: ((t.filter fun x => x.set == e.set).take 7 ++ t.filter fun x => x.set != e.set)

/-- The TLB entry of a leaf of a context. -/
def leafEntry (p : Partition) (cid va : Nat) (l : Leaf) : TlbEntry :=
  ⟨cid, nfld l.entry 116 12, va % 2 ^ 48 / l.size * l.size, l.size, l.entry, p.leafPeer l.entry⟩

/-- What a TLB entry gives for an address. -/
def TlbEntry.hit (e : TlbEntry) (p : Partition) (va : Nat) : Trans := leafHit p va ⟨e.entry, e.size⟩ e.peer

/-- Translate an address for a core of a context through its TLBs (R154 to R157). -/
def State.translate (s : State) (core : Nat) (cid : Nat) (c : Context) (va : Nat) : State × Trans :=
  match s.partOf c with
  | none => (s, .absent)
  | some (_, p) =>
    let t1 := SMap.getD s.tlb1 [] core
    match tlbFind t1 cid va with
    | some e => (s, e.hit p va)
    | none =>
      let s := s.count (cntCore core 8) 1
      let d := dieOf core
      let t2 := SMap.getD s.lltlb [] d
      match tlbFind t2 cid va with
      | some e => ({ s with tlb1 := SMap.put s.tlb1 core (tlbAdd t1 96 e) }, e.hit p va)
      | none =>
        let s := (s.count (cntDie d 2) 1).count (cntDie d 3) 1
        match s.walk c p va with
        | .absent => (s, .absent)
        | .format => (s, .format)
        | .badPhys => (s, .badPhys)
        | .leaf l =>
          let e := leafEntry p cid va l
          ({ s with tlb1 := SMap.put s.tlb1 core (tlbAdd t1 96 e), lltlb := SMap.put s.lltlb d (llAdd t2 e) }, e.hit p va)

/-- Translate without a core: the device's own reads and writes (R51, R237, R272). -/
def State.transDev (s : State) (c : Context) (va : Nat) : Trans :=
  match s.partOf c with
  | none => .absent
  | some (_, p) =>
    match s.walk c p va with
    | .absent => .absent
    | .format => .format
    | .badPhys => .badPhys
    | .leaf l => leafHit p va l (p.leafPeer l.entry)

/-! What a load finds (R162, R165). -/

/-- A granule's bytes with its tag word. -/
structure Gran where
  bytes : List Byte
  tw : Word
  deriving DecidableEq, Repr

/-- Bytes a masked run holds over the bytes below it. -/
def overlayBytes : List Byte → List (Option Byte) → List Byte
  | b :: bs, o :: os => o.getD b :: overlayBytes bs os
  | bs, _ => bs

/-- Overwrite bytes of a list from place `i` on. -/
def overwrite (old : List Byte) (i : Nat) (new : List (Option Byte)) : List Byte :=
  old.take i ++ overlayBytes (old.drop i) new

/-- Whether a masked run is a whole granule (R82). -/
def wholeGran (d : List (Option Byte)) : Bool := d.length == 16 && d.all Option.isSome

/-- The contiguous runs of a masked run, each with its place. -/
def maskRuns : Nat → List (Option Byte) → List (Nat × List Byte)
  | _, [] => []
  | i, none :: ds => maskRuns (i + 1) ds
  | i, some b :: ds =>
    match maskRuns (i + 1) ds with
    | (j, bs) :: rest => if j = i + 1 then (i, b :: bs) :: rest else (i, [b]) :: (j, bs) :: rest
    | [] => [(i, [b])]

/-- Apply a store to a granule view: bytes and eartag by R82. COLOR entries are found by no search (R92). -/
def Gran.apply (g : Gran) (l : Loc) (e : Store) : Gran :=
  if e.color.isSome || e.loc.gran != l then g
  else ⟨overwrite g.bytes e.loc.inGran e.data, if e.tagAddr.isSome || l.isScr then storedTw (wholeGran e.data) e.tag g.tw else g.tw⟩

/-- Apply a pail entry; its own eartag is what a load takes (R85). -/
def Gran.applyPail (g : Gran) (e : PailEntry) : Gran :=
  ⟨overlayBytes g.bytes e.bytes, if e.tagAddr.isSome || e.loc.isScr then fld g.tw 24 8 ++ e.tag else g.tw⟩

/-- The point of the machine at which a strong scope meets on the global space: 0 core, 1 die, 2 device, 3 fabric
(R158); gang counts as device. -/
def meetLevel (scope : Nat) : Nat :=
  match scope with
  | 0 => 0
  | 1 => 0
  | 2 => 2
  | 3 => 1
  | 4 => 2
  | _ => 3

/-- Whether a store at a point is found by a search of thread `uid` (R162, R165). -/
def Store.foundAt (e : Store) (point uid : Nat) : Bool :=
  e.uid == uid || e.scope == 0 || decide (meetLevel (e.scope - 1) ≤ point)

/-- The stores of a list of numbers. -/
def State.storesOf (s : State) (l : List Nat) : List Store := l.filterMap fun i => SMap.get? s.stores i

/-- The granule at its device point. -/
def State.granDev (s : State) (l : Loc) (tagAddr : Option Nat) (ptag : Tag) : Gran :=
  ⟨s.readLoc l 16, s.twAt l tagAddr ptag⟩

/-- Apply the entries of a point a thread finds, oldest first. -/
def applyPoint (g : Gran) (l : Loc) (es : List Store) (point uid : Nat) : Gran :=
  es.foldl (fun g e => if e.foundAt point uid then g.apply l e else g) g

/-- The tag-word address of granule `i` of a line, from that of granule `j`. -/
def shiftTag (ta : Option Nat) (i j : Nat) : Option Nat := ta.map fun a => a + 4 * i - 4 * j

/-- The line as a fill of a quadrant's L1 takes it (R162): core point, else die point, else device point. -/
def State.fillLine (s : State) (core : Nat) (a : Nat) (tagAddr : Option Nat) (ptag : Tag) : L1Line :=
  let base := a / 128 * 128
  let j := a % 128 / 16
  let gs := (List.range 8).map fun i =>
    let l := Loc.hbm (base + 16 * i)
    let g := s.granDev l (shiftTag tagAddr i j) ptag
    let g := applyPoint g l (s.storesOf (SMap.getD s.diePoint [] (dieOf core))) 1 0
    applyPoint g l (s.storesOf (SMap.getD s.corePoint [] core)) 0 0
  ⟨gs.flatMap (·.bytes), gs.map (·.tw)⟩

/-- The key of an L1 line. -/
def l1Key (core quad a : Nat) : Nat := quadKey core quad * 2 ^ 33 + a / 128

/-- The L1 copy of a granule. -/
def L1Line.gran (x : L1Line) (a : Nat) : Gran :=
  let j := a % 128 / 16
  ⟨(x.bytes.drop (16 * j)).take 16, x.tags.getD j 0⟩

/-- The pail entries of a thread, oldest first. -/
def State.pailOf (s : State) (t : Thread) (uid : Nat) : List PailEntry :=
  (SMap.getD s.pail [] (quadKey t.core t.quad)).filter fun e => e.uid == uid

/-- Whether a strong store of a thread to a granule stands at its die point: until it is performed the thread's loads
pass over the L1, which no search has filled with it (R164, log entry 28, DEDUCED). -/
def State.strongAway (s : State) (uid : Nat) (t : Thread) (l : Loc) : Bool :=
  (s.storesOf (SMap.getD s.diePoint [] (dieOf t.core))).any fun e => e.uid == uid && e.scope != 0 && e.loc.gran == l

/-- Whether the pail, the store FIFO and the core point hold every byte of an access: its search ends before the L1
(R162). -/
def State.nearHolds (s : State) (uid : Nat) (t : Thread) (l : Loc) (n : Nat) : Bool :=
  let pail := (s.pailOf t uid).filter fun e => e.loc == l.gran
  let near := (s.storesOf t.fifo ++ (s.storesOf (SMap.getD s.corePoint [] t.core)).filter fun e => e.foundAt 0 uid).filter fun e =>
    e.color.isNone && e.loc.gran == l.gran
  (List.range n).all fun i =>
    (pail.any fun e => (e.bytes.getD (l.inGran + i) none).isSome) ||
    near.any fun e => decide (e.loc.inGran ≤ l.inGran + i) && (e.data.getD (l.inGran + i - e.loc.inGran) none).isSome

/-- The granule a load of thread `uid` finds (R162, R165, R387, R389), and whether the L1 is to be filled.
`gather`: pail, then the device point. `noL1`: a strong load. -/
def State.view (s : State) (uid : Nat) (t : Thread) (l0 : Loc) (tagAddr : Option Nat) (ptag : Tag) (gather noL1 : Bool) :
    Gran × Bool :=
  let l := l0.gran
  let dev := s.granDev l tagAddr ptag
  let pail (g : Gran) := ((s.pailOf t uid).filter fun e => e.loc == l).foldl Gran.applyPail g
  let own (g : Gran) := (s.storesOf t.fifo).foldl (fun g e => g.apply l e) g
  match l with
  | .scr c b =>
    if c == t.core then (pail (own dev), false)
    else (pail (own (applyPoint dev (.scr c b) ((s.storesOf (SMap.getD s.corePoint [] t.core)).filter fun e => e.uid == uid) 0 uid)), false)
  | .hbm a =>
    if gather then (pail dev, false)
    else
      let die (g : Gran) := applyPoint g l (s.storesOf (SMap.getD s.diePoint [] (dieOf t.core))) 1 uid
      let corep (g : Gran) := applyPoint g l (s.storesOf (SMap.getD s.corePoint [] t.core)) 0 uid
      let past := noL1 || s.strongAway uid t l
      match (if past then none else SMap.get? s.l1 (l1Key t.core t.quad a)) with
      | some x => (pail (own (corep (x.gran a))), false)
      | none => (pail (own (corep (die dev))), !past)
  | _ =>
    if gather then (pail dev, false)
    else
      let die (g : Gran) := applyPoint g l (s.storesOf (SMap.getD s.diePoint [] (dieOf t.core))) 1 uid
      let corep (g : Gran) := applyPoint g l (s.storesOf (SMap.getD s.corePoint [] t.core)) 0 uid
      let fab (g : Gran) := applyPoint g l ((s.storesOf s.fabric).filter fun e => e.uid == uid) 3 uid
      (pail (own (corep (die (fab dev)))), false)

/-- Put a line into a quadrant's L1; a full one gives up a line first (R21, R135; which one is free, log entry 73, DESIGN CHOICE). -/
def State.putLine (s : State) (core quad a : Nat) (x : L1Line) : State :=
  let k := l1Key core quad a
  let others := s.l1.filter fun e => e.1 / 2 ^ 33 == quadKey core quad && e.1 != k
  let kept :=
    match if others.length < Config.l1Lines then none else others[Config.l1Victim s.nextLoad % Config.l1Lines]? with
    | none => s.l1
    | some e => SMap.del s.l1 e.1
  { s with l1 := SMap.put kept k x }

/-- Invalidate the L1 of a quadrant: an acquire, a FENCE, CCTL (R135, R167, R169) (log entry 73, DESIGN CHOICE). -/
def State.dropL1 (s : State) (core quad : Nat) : State :=
  { s with l1 := s.l1.filter fun e => e.1 / 2 ^ 33 != quadKey core quad }

/-- Invalidate every L1 copy of a line in a core (R160). -/
def State.dropLine (s : State) (core : Nat) (l : Loc) : State :=
  match l with
  | .hbm a => { s with l1 := s.l1.filter fun e => !(e.1 / 2 ^ 33 / 4 == core && e.1 % 2 ^ 33 == a / 128) }
  | _ => s

/-- Invalidate a quadrant's L1 copy of a line (R164, log entry 28, DEDUCED). -/
def State.dropCopy (s : State) (core quad : Nat) (l : Loc) : State :=
  match l with
  | .hbm a => { s with l1 := SMap.del s.l1 (l1Key core quad a) }
  | _ => s

/-- The storage a location names: a scratchpad byte reached through the on-chip map is that byte (R137). -/
def Loc.canon (l : Loc) : Loc :=
  match l with
  | .win c o => match winItem o with
    | .scr b => .scr c b
    | _ => l
  | _ => l

/-! Writes reaching their point (R182, R274). -/

/-- Mark the monitors armed on a granule, by whatever address it is reached (R182). -/
def State.wakeMonitors (s : State) (l : Loc) : State :=
  { s with threads := s.threads.map fun e =>
      match e.2.monitor with
      | some (g, _) => if g == l.canon.gran && (e.2.resident || !l.canon.isScr) then (e.1, { e.2 with monitor := some (g, true) }) else e
      | none => e }

/-- Copy a copy-on-write unit and its tag words into the snapshot before its first write (R274). -/
def State.snapUnit (s : State) (cid u : Nat) (l : Loc) : State :=
  match SMap.get? s.ctxs cid, l with
  | some c, .hbm a =>
    (match c.snap with
    | none => s
    | some n =>
      if n.cow.contains u then
        let base := a / 65536 * 65536
        let tags := match s.transDev c (u * 65536) with
          | .hit h => h.tagAddr
          | _ => none
        let cells := s.mem.filter fun (e : Host.Cell) => (base ≤ e.1 && e.1 < base + 65536) || match tags with
          | some t => t ≤ e.1 && e.1 < t + 16384
          | none => false
        { s with ctxs := SMap.put s.ctxs cid { c with snap := some { n with cow := n.cow.filter (· != u), copied := (u, cells) :: n.copied } } }
      else s)
  | _, _ => s

/-- Set the dirty bit of a 64 KiB unit of a context's memory, copying a copy-on-write unit first (R274). -/
def State.markUnit (s : State) (cid u : Nat) (l : Loc) : State :=
  match SMap.get? s.ctxs cid with
  | none => s
  | some c =>
    if c.dirty = 0 then s
    else match s.transDev c (c.dirty + u / 8) with
      | .hit h =>
        let s := s.snapUnit cid u l
        (match h.loc with
        | .hbm a => { s with mem := SMap.setD s.mem 0 a (SMap.getD s.mem 0 a ||| BitVec.ofNat 8 (2 ^ (u % 8))) }
        | _ => s)
      | _ => s.snapUnit cid u l

/-- The span of one entry of a table at a level (R154). -/
def levelSpan (level : Nat) : Nat := if level = 0 then 2 ^ 39 else levelSize level

/-- The virtual addresses at which the tables from one on map a physical HBM byte, with their leaves. -/
def State.mapsFrom (s : State) (p : Partition) (priv : Bool) (pa : Nat) : Nat → Nat → Nat → Nat → List (Nat × Leaf)
  | 0, _, _, _ => []
  | fuel + 1, level, table, base =>
    (List.range (if level = 3 then 32 else 512)).flatMap fun i =>
      match s.tableEntry p table i with
      | none => []
      | some e =>
        let va := base + i * levelSpan level
        if !e.testBit 0 then []
        else if e.testBit 4 then
          (match leafOk priv level e, p.target (nfld e 9 39 * 512) with
          | true, some (.hbm a, _) => if a ≤ pa ∧ pa < a + levelSize level then [(va + (pa - a), ⟨e, levelSize level⟩)] else []
          | _, _ => [])
        else if nonLeafOk level e then s.mapsFrom p priv pa fuel (level + 1) (nfld e 9 39 * 512) va
        else []

/-- The virtual addresses at which a context maps a physical HBM byte. -/
def State.mapsOf (s : State) (c : Context) (pa : Nat) : List (Nat × Leaf) :=
  match s.partOf c with
  | none => []
  | some (_, p) => s.mapsFrom p c.priv pa 4 0 c.root 0

/-- A write to a place of a context's memory (R274): its dirty bit is set, and those of every other context that maps
the place. -/
def State.markDirty (s : State) (cid va : Nat) (l : Loc) : State :=
  let s := s.markUnit cid (va % 2 ^ 48 / 65536) l
  match l with
  | .hbm a =>
    (s.ctxs.filter fun e => e.1 != cid && e.2.dirty != 0 && !e.2.ended).foldl (fun (s : State) e =>
      (s.mapsOf e.2 a).foldl (fun (s : State) v => s.markUnit e.1 (v.1 / 65536) l) s) s
  | _ => s

/-- A write of data reaching the device point, a core point or the fabric point: bytes, tag word, dirty bit and
monitors in one step (R81, R182, R274) (log entry 67, DEDUCED). -/
def State.performWrite (s : State) (cid va : Nat) (l : Loc) (data : List Byte) (tag : Tag) (tagAddr : Option Nat) : State :=
  let s := if l.isScr then s else s.markDirty cid va l
  (s.writeLoc l data tag tagAddr (data.length == 16)).wakeMonitors l

/-- A masked write reaching its point in one step. -/
def State.performMasked (s : State) (cid va : Nat) (l : Loc) (data : List (Option Byte)) (tag : Tag) (tagAddr : Option Nat) : State :=
  let s := if l.isScr then s else s.markDirty cid va l
  let whole := wholeGran data
  ((maskRuns 0 data).foldl (fun s e => s.writeLoc (l.add e.1) e.2 tag tagAddr whole) s).wakeMonitors l

/-! ## Pointers and colours (R91, R133) -/

/-- Whether pointer bits [63:60] and [55:48] of a global address are zero (R133). -/
def ptrOk (a : Nat) : Bool := nfld a 60 4 == 0 && nfld a 48 8 == 0

/-- Key colour of a pointer (R90). -/
def keyOf (a : Nat) : Nat := nfld a 56 4

/-- Whether key and lock disagree (R90). -/
def colourBad (key lock : Nat) : Bool := key != 0 && lock != 0 && key != lock

/-- The lock colour of a page hit with its granule's tag word (R90). -/
def Hit.lock (h : Hit) (tw : Word) : Nat := if h.ex then h.pcol else twColour tw

end Sys2Proof.Machine
end

