-- ==== Sys2Proof/Machine/Nodes.lean ====
section
/-! DEFINITION. Reads the device makes through a context's translation (R51, R216), the nodes of a context's task graph
and their queues (R61, R64, R65). -/

namespace Sys2Proof.Machine

/-! ## Reads of the device (R51, R149) -/

/-- What a read of the device comes to: bytes, a page that is not present, or a place it cannot read. -/
inductive DevRead where
  | ok (bytes : List Byte)
  | wait
  | bad
  deriving DecidableEq, Repr

/-- Read granules at device scope (R51): an unmappable page, a protection failure, a colour failure or poisoned data is
a read that fails. -/
def State.devGrans (s : State) (c : Context) : Nat → Nat → DevRead
  | 0, _ => .ok []
  | n + 1, a =>
    if !ptrOk a then .bad
    else match s.transDev c (a % 2 ^ 48) with
      | .absent => .wait
      | .format => .wait
      | .badPhys => .bad
      | .hit h =>
        let tw := s.twAt h.loc h.tagAddr h.ptag
        if !h.r || twPoison tw || colourBad (keyOf a) (h.lock tw) then .bad
        else match s.devGrans c n (a + 16) with
          | .ok bs => .ok (s.readLoc h.loc 16 ++ bs)
          | r => r

/-- Read `n` bytes at device scope. -/
def State.devRead (s : State) (c : Context) (a n : Nat) : DevRead :=
  match s.devGrans c ((a % 16 + n + 15) / 16) (a / 16 * 16) with
  | .ok bs => .ok ((bs.drop (a % 16)).take n)
  | r => r

/-- %anom at the start of a launch's threads (R34, R87). -/
def Launch.startAnom (l : Launch) : Nat := (if l.iovf then 4 else 0) + l.anom % 4

/-! ## Nodes (R61) -/

/-- A node descriptor. -/
structure Node where
  coal : Nat
  pred : Nat
  kind : Nat
  launch : Nat
  qbase : Nat
  qcap : Nat
  cond : Nat
  succ : List Nat
  deriving DecidableEq, Repr

/-- Parse a node descriptor (R61) (log entry 51, DEDUCED). -/
def parseNode (bs : List Byte) : Node :=
  let w (o : Nat) : Nat := ofBytes ((bs.drop o).take 8)
  ⟨nfld (w 0) 32 12, nfld (w 0) 16 8, nfld (w 0) 0 2, w 8, w 0x10, w 0x18, w 0x20, (List.range 4).map fun i => nfld (w 0x28) (16 * i) 16⟩

/-- Address of a node descriptor. -/
def Context.nodeAddr (c : Context) (n : Nat) : Nat := c.graph + 64 * n

/-- Read a node of a context's graph; `none` while the engine cannot read it. -/
def State.node (s : State) (c : Context) (n : Nat) : Option Node :=
  match s.devRead c (c.nodeAddr n) 64 with
  | .ok bs => some (parseNode bs)
  | _ => none

/-- The graph engine's state of a node. -/
def Context.nodeState (c : Context) (n : Nat) : NodeState := SMap.getD c.nodes ⟨0, 0, 0, false⟩ n

/-- Change the graph engine's state of a node. -/
def State.modNode (s : State) (cid n : Nat) (f : NodeState → NodeState) : State :=
  { s with ctxs := SMap.mod s.ctxs cid fun c => { c with nodes := SMap.put c.nodes n (f (c.nodeState n)) } }

/-- The address of a record of a node's queue (R65). -/
def Node.recAddr (x : Node) (i : Nat) : Nat := (x.qbase + 16 * (i % max 1 x.qcap)) % 2 ^ 64

/-- Whether a node's queue takes records: a coalesced kernel node (R362). -/
def Node.takes (x : Node) : Bool := x.kind == 0 && x.coal != 0

/-! ## Firing (R62, R66) -/

/-- Whether a producer of node `n`'s queue is running (R66); a running node that cannot be read counts as one. -/
def State.producing (s : State) (cid n : Nat) : Bool :=
  s.launches.any fun l => l.2.ctx == cid &&
    match l.2.origin, SMap.get? s.ctxs cid with
    | .graph m, some c =>
      (match s.node c m with
        | some x => x.succ.contains n
        | none => true)
    | _, _ => false

/-- The records a coalesced node's firing takes: COAL, or the remaining ones at a flush (R62, R66); 0 when it does not
fire. -/
def State.batchOf (s : State) (cid n : Nat) (x : Node) (q : NodeState) : Nat :=
  if x.coal ≤ q.tail - q.head then x.coal
  else if q.flush || !(s.producing cid n) then q.tail - q.head
  else 0

/-- Whether a node has met its firing condition (R62). KIND 3 meets none (log entry 51, DEDUCED). -/
def State.met (s : State) (cid n : Nat) (x : Node) (q : NodeState) : Bool :=
  if x.kind = 3 then false
  else if x.takes then s.batchOf cid n x q != 0
  else decide (max 1 x.pred ≤ q.count)

end Sys2Proof.Machine
end

