-- ==== Sys2Proof/Machine/Contain.lean ====
section
/-! DEFINITION. The failure log (R253), leaving work behind (R238, R252), the device's own record writes (R71, R232,
R237) and the end of a context (R251, R252). -/

namespace Sys2Proof.Machine

/-- One update of the capability blocks of some partitions: SEQ rises twice and the host is interrupted (R260, R261). -/
def State.blockUpdate (s : State) (f : Partition → Bool) : State :=
  { s with parts := s.parts.map fun e => if f e.2 then (e.1, { e.2 with seq := (e.2.seq + 2) % 2 ^ 32, raised := e.2.raised + 1 }) else e }

/-- WHERE of a log entry (R253). -/
def logWhere (core quad lane slot ord : Nat) : Nat :=
  core * 2 ^ 56 + quad * 2 ^ 54 + lane * 2 ^ 49 + slot * 2 ^ 45 + ord

/-- WHERE of an issuer. -/
def Issuer.where_ (i : Issuer) (coreNo : Nat) : Nat := logWhere coreNo i.quad i.lane i.slot i.ord

/-- Append to a context's failure log (R253). -/
def State.logItem (s : State) (cid : Nat) (x : LogItem) : State :=
  { s with ctxs := SMap.mod s.ctxs cid fun c => { c with log := c.log ++ [x] } }

/-- Append a 32-byte entry stamped now (log entry 45, DEDUCED). -/
def State.log (s : State) (cid type status cause id where_ : Nat) : State :=
  s.logItem cid (.entry s.timebase type status cid cause id where_)

/-- WHERE of an issuer in its context's numbering. -/
def State.whereOf (s : State) (i : Issuer) : Nat :=
  match SMap.get? s.ctxs i.ctx with
  | none => i.where_ i.core
  | some c => i.where_ (s.coreNumber c i.core)

/-- Units of a copy (R145): how many landings it takes. CPY lands granules, CPYT elements, CPYCV destination
granules or elements. -/
def fmtBits (code : Nat) : Nat :=
  match code with
  | 0 => 32
  | 1 => 16
  | 2 => 16
  | 3 => 8
  | 4 => 8
  | 5 => 4
  | 6 => 32
  | 7 => 32
  | 8 => 8
  | _ => 4

/-- Destination bytes of a converting copy (R146). -/
def cvBytes (n td : Nat) : Nat := (n * fmtBits td + 7) / 8

/-- Number of landings of a copy. -/
def Copy.units (c : Copy) : Nat :=
  match c.kind with
  | .plain b => b / 16
  | .convert n td _ _ => if n = 0 then 0 else (c.dst % 16 + cvBytes n td + 15) / 16
  | .tensor _ _ cnt _ _ => cnt.foldl (fun a k => a * k) 1

/-- Whether every byte of a copy has landed. -/
def Copy.complete (c : Copy) : Bool := c.landed.length == c.units

/-- One less on the presence counts of lines (R141, R143). -/
def State.lowerLines (s : State) (ls : List (Nat × Nat)) : State :=
  { s with pend := ls.foldl (fun m e => SMap.setD m 0 (e.1 * 4096 + e.2) (SMap.getD m 0 (e.1 * 4096 + e.2) - 1)) s.pend }

/-- One more on the presence counts of lines (R141). -/
def State.raiseLines (s : State) (ls : List (Nat × Nat)) : State :=
  { s with pend := ls.foldl (fun m e => SMap.setD m 0 (e.1 * 4096 + e.2) (SMap.getD m 0 (e.1 * 4096 + e.2) + 1)) s.pend }

/-- One piece of an operation has finished; its flag clears with the last (R15). -/
def State.opDone (s : State) (op : Nat) : State :=
  match SMap.get? s.ops op with
  | none => s
  | some o => if o.left ≤ 1 then { s with ops := SMap.del s.ops op } else { s with ops := SMap.put s.ops op { o with left := o.left - 1 } }

/-! ## Counting lane-cycles (R283 to R285) -/

/-- Add lane-cycles of a class at a code address to a context's bins (R285) (log entry 60, DESIGN CHOICE). -/
def Context.bin (c : Context) (mem : List Host.Cell) (pc cls n : Nat) : Context :=
  match c.binBase with
  | none => c
  | some b =>
    let inRange (i : Nat) : Bool :=
      let lo := ofBytes (readCells mem (b + 16 * i) 8)
      let hi := ofBytes (readCells mem (b + 16 * i + 8) 8)
      decide (lo ≤ pc) && decide (pc < hi)
    match (List.range 16).find? inRange with
    | none => c
    | some i => { c with bins := SMap.setD c.bins 0 (8 * i + cls) (SMap.getD c.bins 0 (8 * i + cls) + n) }

/-- Count lane-cycles: the quadrant's class counter and the context's bin. Classes 0 to 5 in R283's order. -/
def State.lanes (s : State) (qk cid pc cls n : Nat) : State :=
  if n = 0 then s
  else
    let s := s.count (cntQuad qk (3 + cls)) n
    { s with ctxs := SMap.mod s.ctxs cid fun c => c.bin s.mem pc cls n }

/-- Pending work is discarded: its lane-cycles count as squashed (R284, R287). -/
def State.squashPend (s : State) (core quad cid : Nat) (p : Pending) : State :=
  p.active.foldl (fun (s : State) x => s.lanes (quadKey core quad) cid x.1 5 x.2) s

/-- The lane-cycles a discarded thread's open levels and region hold count as squashed (R284). -/
def State.squashAll (s : State) (uid : Nat) : State :=
  match s.thread? uid with
  | none => s
  | some t =>
    let cid := ((SMap.get? s.crews t.crew).map (·.ctx)).getD 0
    (t.levels.map (·.pend) ++ (t.region.map (·.pend)).toList).foldl (fun (s : State) p => s.squashPend t.core t.quad cid p) s

/-- Take a thread out of the machine: its warp places, pail entries, loads and store FIFO (R252, R365). -/
def State.discardThread (s : State) (uid : Nat) : State :=
  let fifo := ((s.thread? uid).map (·.fifo)).getD []
  let s := s.squashAll uid
  { s with
    threads := SMap.del s.threads uid
    warps := (s.warps.map fun e => (e.1, { e.2 with members := e.2.members.filter (· != uid), arrived := e.2.arrived.filter (· != uid) })).filter
      fun e => !e.2.members.isEmpty
    pail := s.pail.map fun e => (e.1, e.2.filter fun p => p.uid != uid)
    loads := s.loads.filter fun e => e.2.uid != uid
    stores := s.stores.filter fun e => !fifo.contains e.1 }

/-- The threads of a crew. -/
def State.crewThreads (s : State) (crew : Nat) : List (Nat × Thread) := s.threads.filter fun e => e.2.crew == crew

/-- The first byte of a crew's scratchpad, and a byte at an offset (R137). -/
def Crew.phys (c : Crew) (off : Nat) : Nat := 128 * c.base + off

/-- Crews that share a co-resident gang with one of the given crews, and those crews. -/
def State.gangStep (s : State) (l : List Nat) : List Nat :=
  (s.crews.filter fun e => l.contains e.1 || l.any fun u =>
    match SMap.get? s.crews u with
    | none => false
    | some c => c.launch == e.2.launch && match SMap.get? s.launches c.launch with
      | none => false
      | some x => x.gangs.any fun g => g.cores && g.members.contains c.ord && g.members.contains e.2.ord).map (·.1)

/-- Completed crews leave their cores once every member of each of their co-resident gangs has completed (R55). -/
def State.freeFinished (s : State) : State :=
  { s with crews := s.crews.filter fun e =>
      !(e.2.finished && (s.gangStep [e.1]).all fun u => ((SMap.get? s.crews u).map (·.finished)) == some true) }

/-- The bins without the records of a crew. -/
def State.binsWithout (s : State) (crew : Nat) : SMap SpawnBin :=
  (s.bins.map fun e => (e.1, { e.2 with recs := e.2.recs.filter fun r => r.iss.crew != crew })).filter fun e => !e.2.recs.isEmpty

/-- The spawn records of a crew that have not launched. -/
def State.spawnRecs (s : State) (crew : Nat) : List (Nat × SpawnRec) :=
  s.bins.flatMap fun e => (e.2.recs.filter fun r => r.iss.crew == crew).map fun r => (e.2.entry, r)

/-- The RING rounds a crew has issued whose incoming tile has not landed (R152). -/
def State.ringsOf (s : State) (crew : Nat) : List RingWait :=
  match SMap.get? s.crews crew with
  | none => []
  | some c => s.ringWaits.filter fun r => r.launch == c.launch && c.gangs.any fun g => g.entry == r.gang && g.pos == r.pos

/-- Account for a crew's in-flight work (R252): copies and RING rounds (type 1), armed copies (type 2), spawn records
(type 3) (log entry 45, DEDUCED). -/
def State.accountCrew (s : State) (cid crew cause : Nat) : State :=
  let copies := s.copies.filter fun e => e.2.iss.crew == crew
  let s := copies.foldl (fun (s : State) e =>
    (s.lowerLines e.2.lines).log cid 1 (if e.2.complete then 1 else 2) cause (e.2.dst % 2 ^ 64) (s.whereOf e.2.iss)) s
  let tiles := s.tiles.filter fun e => e.2.iss.crew == crew
  let s := tiles.foldl (fun (s : State) e => s.log cid 1 2 cause e.2.off (s.whereOf e.2.iss)) s
  let arm := s.armed.flatMap fun e => e.2.filter fun a => a.copy.iss.crew == crew
  let s := arm.foldl (fun (s : State) a => s.log cid 2 2 cause (a.copy.dst % 2 ^ 64) (s.whereOf a.copy.iss)) s
  let s := (s.spawnRecs crew).foldl (fun (s : State) e => s.log cid 3 2 cause e.1 (s.whereOf e.2.iss)) s
  let rounds := s.ringsOf crew
  let s := s.lowerLines (rounds.flatMap (·.lines))
  { s with
    ringWaits := s.ringWaits.filter fun r => !rounds.contains r
    copies := s.copies.filter fun e => e.2.iss.crew != crew
    tiles := s.tiles.filter fun e => e.2.iss.crew != crew
    armed := s.armed.map fun e => (e.1, e.2.filter fun a => a.copy.iss.crew != crew)
    bins := s.binsWithout crew
    matQ := s.matQ.map fun e => (e.1, e.2.filter fun m => m.iss.crew != crew)
    arrivals := s.arrivals.filter fun e => e.2.crew != crew }

/-- Discard a crew and its threads. -/
def State.dropCrew (s : State) (crew : Nat) : State :=
  let s := (s.crewThreads crew).foldl (fun (s : State) e => s.discardThread e.1) s
  { s with crews := SMap.del s.crews crew }

/-- Give every chunk of a posted collective that has not finished a failure code (R220, R227): code 6 when it never
fired and its firing crew is gone, otherwise `code`. -/
def Posted.failAll (p : Posted) (code : Nat) : Posted :=
  { p with
    status := (List.range p.chunks).foldl (fun m c =>
      match SMap.get? m c with
      | some _ => m
      | none => SMap.put m c (if p.bound && !p.fired.contains c then 6 else code)) p.status
    state := .failed }

/-! ## Messages and the fabric clock (R218, R228) -/

/-- Add 1 to the fabric clock. -/
def State.tick (s : State) : State := { s with chip := { s.chip with clock := (s.chip.clock + 1) % 2 ^ 48 } }

/-- The fabric clock on receipt of a message (R218). -/
def State.hear (s : State) (clock : Nat) : State :=
  { s with chip := { s.chip with clock := (max s.chip.clock clock + 1) % 2 ^ 48 } }

/-- Send a message to another device (R218). -/
def State.send (s : State) (dest kind cid : Nat) (fields : List Nat) : State :=
  let s := s.tick
  { s with outbox := s.outbox ++ [⟨s.chip.clock, dest, kind, cid, fields⟩] }

/-- Send a message to every other member. -/
def State.sendOthers (s : State) (members : List Nat) (kind cid : Nat) (fields : List Nat) : State :=
  (members.filter (· != s.chip.dev)).foldl (fun (s : State) d => s.send d kind cid fields) s

/-- A chunk that has failed here fails on every other member with the code of its first cause (R227). -/
def State.sendFail (s : State) (p : Posted) (c code : Nat) : State := s.sendOthers p.members 6 p.cid [code, c]

/-! ## Records the device writes (R71, R232, R237) -/

/-- What writing a record comes to (R237): written, waiting for a page, or meeting a place where it cannot be
written, which ends the context. -/
inductive RecOut where
  | ok (s : State)
  | wait
  | dead

/-- Write bytes of the device through a context's translation, granule by granule, with eartag 0 (R232, R234, R294).
Poisoned granules, pages without W, format faults and bad addresses cannot be written. -/
def State.recWrite (s : State) (cid : Nat) (va : Nat) : List (List Byte) → RecOut
  | [] => .ok s
  | g :: gs =>
    match SMap.get? s.ctxs cid with
    | none => .dead
    | some c =>
      match s.transDev c va with
      | .absent => .wait
      | .format => .dead
      | .badPhys => .dead
      | .hit h =>
        if !h.w || !h.peerW || h.loc.isTable || twPoison (s.twAt h.loc h.tagAddr h.ptag) then .dead
        else (s.performWrite cid va h.loc g 0 h.tagAddr).recWrite cid (va + g.length) gs

/-- Cut a byte list into granules. -/
def grans : Nat → List Byte → List (List Byte)
  | 0, _ => []
  | _, [] => []
  | n + 1, bs => bs.take 16 :: grans n (bs.drop 16)

/-- A number as little-endian bytes of a record field. -/
abbrev le := toBytes

/-- Failed chunks of an entry. -/
def Posted.nfail (p : Posted) : Nat := (p.status.filter fun x => x.2 != 1).length

/-- The header of the completion record (R227) (log entry 35, DEDUCED). -/
def Posted.record (p : Posted) (stamp : Nat) : List Byte :=
  le 8 (p.ticket.getD 0) ++ le 4 p.cid ++ le 4 p.nfail ++ le 4 p.novf ++ le 4 p.fovf ++ le 8 stamp

/-- Write bytes where a context's pages take them. -/
def State.recTry (s : State) (cid va : Nat) (data : List (List Byte)) : State :=
  match s.recWrite cid va data with
  | .ok s' => s'
  | _ => s

/-- A posted collective of an ended context is Failed (R220, R252, R254): its unfinished chunks take their code here and on
every member, one log entry each, and the completion record is written. -/
def State.endPosted (s : State) (cause : Nat) (p0 : Posted) : State :=
  let p := p0.failAll 2
  let code (k : Nat) : Nat := SMap.getD p.status 2 k
  let s := (List.range p.chunks).foldl (fun (s : State) k =>
    s.log p.ctx 5 (if code k = 1 then 1 else 2) cause (p.cid * 2 ^ 32 + k) (s.whereOf p.iss)) s
  let s := ((List.range p.chunks).filter fun k => (SMap.get? p0.status k).isNone).foldl (fun (s : State) k => s.sendFail p k (code k)) s
  let s := ((List.range p.chunks).filter fun k => !p.written.contains k).foldl (fun (s : State) k =>
    s.recTry p.ctx (p.res + 0x20 + k) [[BitVec.ofNat 8 (code k)]]) s
  s.recTry p.ctx p.res (grans 2 (p.record s.timebase))

/-- Kill a crew (R238): one type 7 entry for each thread, its work accounted, its bound chunk failed with code 6 when
it never fired (R254); its launch is marked failed (log entry 53, DEDUCED). -/
def State.killCrew (s : State) (crew : Nat) : State :=
  match SMap.get? s.crews crew with
  | none => s
  | some c =>
    let ts := s.crewThreads crew
    let no := match SMap.get? s.ctxs c.ctx with
      | some x => s.coreNumber x c.core
      | none => c.core
    let s := ts.foldl (fun (s : State) e => s.log c.ctx 7 2 0 e.2.pc (logWhere no e.2.quad e.2.lane e.2.slot c.ord)) s
    let s := (s.accountCrew c.ctx crew 0).dropCrew crew
    let s : State :=
      match SMap.get? s.launches c.launch with
      | none => s
      | some l =>
        let chunk := l.cbase + (c.ord % l.gx) * l.cx + (c.ord / l.gx % l.gy) * l.cy + (c.ord / l.gx / l.gy) * l.cz
        match l.cid with
        | none => s
        | some cid =>
          (s.posted.filter fun e => e.2.ctx == c.ctx && e.2.cid == cid && decide (chunk < e.2.chunks) && !e.2.fired.contains chunk &&
              (SMap.get? e.2.status chunk).isNone).foldl (fun (s : State) e =>
            (({ s with posted := SMap.put s.posted e.1 { e.2 with status := SMap.put e.2.status chunk 6 } } : State).sendFail e.2 chunk 6).log
              c.ctx 5 2 0 (cid * 2 ^ 32 + chunk) (logWhere no 0 0 0 c.ord)) s
    let s := if ((SMap.get? s.launches c.launch).map (·.failed)) == some false then s.log c.ctx 6 2 0 c.launch (logWhere no 0 0 0 c.ord) else s
    ({ s with launches := SMap.mod s.launches c.launch fun l =>
        { l with failed := true, done := if c.finished then l.done else c.ord :: l.done } } : State).freeFinished

/-- Whether every crew of a launch has completed or been killed (R46). -/
def Launch.over (l : Launch) : Bool := l.done.length == l.gx * l.gy * l.gz

/-- Tell the submitter of a launch that it failed (R272): KIND 2 (log entry 53, DEDUCED). -/
def State.reportFailed (s : State) (l : Launch) (id : Nat) : State :=
  match l.origin with
  | .graph _ => s
  | .queue vd q htag =>
    { s with queues := SMap.mod s.queues (vd * 16 + q) fun p =>
        { p with outstanding := p.outstanding.erase htag, held := p.held ++ [[htag, 2, 0, id]] } }

/-- End a context (R251 step 2, R252): every item in flight gets one log entry, its threads are discarded and its
entries in the shared structures go. -/
def State.endContext (s : State) (cid cause : Nat) : State :=
  let crews := s.crews.filter fun e => e.2.ctx == cid
  let s := crews.foldl (fun (s : State) e => (s.accountCrew cid e.1 cause).dropCrew e.1) s
  let s : State := match SMap.get? s.ctxs cid with
    | none => s
    | some c => c.nodes.foldl (fun (s : State) n =>
        let x := s.node c n.1
        let s := (List.range (n.2.tail - n.2.head)).foldl (fun (s : State) k =>
          s.log cid 4 2 cause ((x.map fun y => y.recAddr (n.2.head + k)).getD (c.nodeAddr n.1)) 0) s
        match x with
        | some y => if !y.takes && y.kind == 0 && s.met cid n.1 y n.2 then s.log cid 4 2 cause (c.nodeAddr n.1) 0 else s
        | none => s) s
  let s := (s.posted.filter fun e => e.2.ctx == cid).foldl (fun (s : State) e => s.endPosted cause e.2) s
  let gone := s.launches.filter fun e => e.2.ctx == cid
  let s := gone.foldl (fun (s : State) e => (s.log cid 6 (if e.2.over && !e.2.failed then 1 else 2) cause e.1 0).reportFailed e.2 e.1) s
  { s with
    launches := s.launches.filter fun e => e.2.ctx != cid
    posted := s.posted.filter fun e => e.2.ctx != cid
    coords := s.coords.filter fun e => e.2.ctx != cid
    commands := s.commands.map fun e => (e.1, e.2.filter fun c => c.ctx != cid)
    colQ := s.colQ.filter fun e => e.2.ctx != cid
    preds := s.preds.filter fun e => e.2.ctx != cid
    tlb1 := s.tlb1.map fun e => (e.1, e.2.filter fun t => t.ctx != cid)
    lltlb := s.lltlb.map fun e => (e.1, e.2.filter fun t => t.ctx != cid)
    blocks := s.blocks.map fun e => (e.1, e.2.filter fun t => t.ctx != cid)
    triggers := s.triggers.filter fun e => e.2.ctx != cid
    icache := s.icache.filter fun e => e.1 / 2 ^ 50 % 4096 != cid
    records := s.records.filter fun r => r.ctx != cid
    queues := (((SMap.get? s.ctxs cid).map (·.starts)).getD []).foldl (fun m g => SMap.mod m (g.vd * 16 + g.q) fun p =>
      { p with outstanding := p.outstanding.erase g.htag, held := p.held ++ [[g.htag, 2, 0, 0]] }) s.queues
    ctxs := SMap.mod s.ctxs cid fun c => { c with ended := true, nodes := [], starts := [] } }

/-! Records (R71, R232, R237). -/

/-- Bytes of an anomaly record (R72). -/
def anomalyBytes (seq stamp kind : Nat) (i : Issuer) (coreNo : Nat) (va vb vc : Nat) (ta tb tc : Tag) (flags : Nat) : List Byte :=
  let w20 := kind * 2 ^ 56 + i.role * 2 ^ 54 + i.quad * 2 ^ 52 + i.ws * 2 ^ 50 + i.lane * 2 ^ 45 + i.slot * 2 ^ 41 +
    i.tid % 4096 * 2 ^ 29 + coreNo % 256 * 2 ^ 21 + i.site % 32768
  le 8 seq ++ le 8 i.pc ++ le 8 stamp ++ le 4 i.launch ++ le 4 i.ord ++ le 8 w20 ++ le 4 va ++ le 4 vb ++ le 4 vc ++
    le 4 (flags * 2 ^ 24 + ta.toNat) ++ le 4 tb.toNat ++ le 4 tc.toNat

/-- Bytes of a fault record (R232): LOCK and KEY are a colour fault's (log entry 47, DEDUCED). -/
def faultBytes (seq stamp : Nat) (i : Issuer) (coreNo : Nat) (t : Trap) (subw : Nat) (held taken engine : Bool) : List Byte :=
  let b (x : Bool) (k : Nat) : Nat := if x then 2 ^ k else 0
  let w2c := t.num * 2 ^ 24 + t.cause % 256 * 2 ^ 16 + i.role * 2 ^ 14 + i.quad * 2 ^ 12 + i.lane * 2 ^ 7 + i.slot * 8 +
    b held 2 + b taken 1 + b engine 0
  le 8 seq ++ le 8 i.pc ++ le 8 stamp ++ le 8 t.addr ++ le 4 i.launch ++ le 4 i.ord ++ le 4 subw ++ le 4 w2c ++
    le 4 ((if t.num = 10 then t.lock * 2 ^ 28 + t.key * 2 ^ 24 else 0) + t.tag.toNat) ++ le 4 t.aux ++ le 4 (coreNo % 256 * 2 ^ 24 + i.site % 32768) ++ le 4 i.insn

/-- Write a record of the device, or leave it waiting for its page; a place where it cannot be written ends the
context with a type 11 entry (R237). -/
def State.putRecord (s : State) (uid core : Nat) (engine held : Bool) (cid va seq : Nat) (data : List (List Byte)) : State :=
  match s.recWrite cid va data with
  | .ok s' => s'
  | .wait => { s with records := s.records ++ [⟨uid, core, engine, cid, va, seq, if held then [] else data, held⟩] }
  | .dead => (s.endContext cid 0).log cid 11 2 (va % 2 ^ 32) seq 0

/-- Allocate and write a fault record (R71, R232): its number. -/
def State.faultRecord (s : State) (i : Issuer) (t : Trap) (subw : Nat) (held engine : Bool) : State × Nat :=
  match SMap.get? s.ctxs i.ctx with
  | none => (s, 0)
  | some c =>
    let seq := c.faultSeq
    let bytes := faultBytes seq s.timebase i (s.coreNumber c i.core) t subw held false engine
    let s' := { s with ctxs := SMap.put s.ctxs i.ctx { c with faultSeq := (seq + 1) % 2 ^ 64 } }
    (s'.putRecord i.uid i.core engine engine i.ctx (c.faultBase + 64 * (seq % 2 ^ 16)) seq (grans 4 bytes), seq)

/-- The operands an anomaly record holds (R72). -/
structure BirthOps where
  va : Word := 0
  vb : Word := 0
  vc : Word := 0
  ta : Tag := 0
  tb : Tag := 0
  tc : Tag := 0
  deriving DecidableEq, Repr

/-- The eartag of birth number `seq` (R71). -/
def birthTag (seq : Nat) : Tag := BitVec.ofNat 24 (0x800000 + seq % 2 ^ 20)

/-- Birth of an anomaly (R71, R72): allocate, write the record, and give the eartag (log entry 41, DEDUCED). -/
def State.birth (s : State) (i : Issuer) (kind : Nat) (o : BirthOps) (engine early : Bool) : State × Tag :=
  match SMap.get? s.ctxs i.ctx with
  | none => (s, birthTag 0)
  | some c =>
    let seq := c.anomSeq
    let flags := (if engine then 1 else 0) + (if early then 2 else 0)
    let bytes := anomalyBytes seq s.timebase kind i (s.coreNumber c i.core) o.va.toNat o.vb.toNat o.vc.toNat o.ta o.tb o.tc flags
    let s' := { s with ctxs := SMap.put s.ctxs i.ctx { c with anomSeq := (seq + 1) % 2 ^ 64 } }
    (s'.putRecord i.uid i.core engine true i.ctx (c.anomBase + 64 * (seq % 2 ^ 20)) seq (grans 4 bytes), birthTag seq)

/-- The pages a step from `s` to `s'` waits for before it can be taken: those of its births' records, and of an engine's
records (R71, R237). -/
def State.pagesFor (s s' : State) : List PendRec := s'.records.filter fun r => r.held && !s.records.contains r

/-- The state in which a step waits for its pages: nothing has happened but the request to the operating system (R237). -/
def State.awaitPages (s s' : State) : State := { s with records := s.records ++ s.pagesFor s' }

/-- A step of an engine from `s` to `s'`: it is taken when its records have their pages; until then the engine waits (R237). -/
def State.engineStep (s s' : State) : State := if (s.pagesFor s').isEmpty then s' else s.awaitPages s'

/-- Whether an engine waits for the page of a record it is to write for an instruction of thread `uid` (R237). -/
def State.engineWaits (s : State) (uid : Nat) : Bool := s.records.any fun r => r.held && r.engine && r.uid == uid

end Sys2Proof.Machine
end

