-- ==== Sys2Proof/Machine/Ops.lean ====
section
/-! DEFINITION. The operations every meaning shares: what an issuing slot sees, its lanes and their checks (R329),
leaving a warp, taking a trap (R230 to R232), births and eartags (R71 to R77), regions and the pail (R160, R176, R239),
fences and markers (R167 to R169), watchpoints (R94), flags (R15). -/

namespace Sys2Proof.Machine

/-! ## The issuing slot -/

/-- What an issuing slot sees: its warp and the tables its members share. -/
structure Env where
  wk : Nat
  w : Warp
  crewId : Nat
  crew : Crew
  launch : Launch
  c : Context
  role : Nat
  handler : Bool
  deriving DecidableEq, Repr

/-- Core of a warp key. -/
def wkCore (wk : Nat) : Nat := wk / 16
/-- Quadrant of a warp key. -/
def wkQuad (wk : Nat) : Nat := wk / 4 % 4

/-- The slot at the issue port, if a formed warp stands there. -/
def State.env? (s : State) : Option Env :=
  match s.cur with
  | none => none
  | some wk =>
    match SMap.get? s.warps wk with
    | none => none
    | some w =>
      match w.members with
      | [] => none
      | u :: _ =>
        match s.thread? u with
        | none => none
        | some t =>
          match SMap.get? s.crews t.crew with
          | none => none
          | some cr =>
            match SMap.get? s.launches cr.launch, SMap.get? s.ctxs cr.ctx with
            | some l, some c => some ⟨wk, w, t.crew, cr, l, c, t.role, t.handler.isSome⟩
            | _, _ => none

/-- Control word 0 of the clause (R308). -/
def Warp.cw0 (w : Warp) : Word := w.words.getD 0 0
/-- Control word 1 of the clause (R309). -/
def Warp.cw1 (w : Warp) : Word := w.words.getD 1 0
/-- COUNT (R308). -/
def Warp.count (w : Warp) : Nat := (fld w.cw0 22 4).toNat
/-- RULE (R74). -/
def Env.rule (e : Env) : Nat := (fld e.w.cw0 20 2).toNat
/-- SETA (R308): the flag plus one, or 0. -/
def Env.seta (e : Env) : Nat := (fld e.w.cw0 12 4).toNat
/-- SETB (R308). -/
def Env.setb (e : Env) : Nat := (fld e.w.cw0 16 4).toNat
/-- FTZ (R309). -/
def Env.ftz (e : Env) : Bool := bit e.w.cw1 18
/-- The core of the warp. -/
def Env.core (e : Env) : Nat := wkCore e.wk
/-- The quadrant of the warp. -/
def Env.quad (e : Env) : Nat := wkQuad e.wk
/-- Code-space byte address of the slot's word (R13). -/
def Env.ipc (e : Env) : Nat := e.w.pc + 8 + 4 * e.w.slot
/-- SITE (R68): the word index modulo 32,768. -/
def Env.site (e : Env) : Nat := e.ipc / 4 % 32768
/-- The instruction word. -/
def Env.insn (e : Env) : Word := e.w.words.getD (e.w.slot + 2) 0
/-- CREW (R46, R68). -/
def Env.crewTag (e : Env) : Nat := e.crew.ord % 256

/-- The eartag SITE and CREW of an ordinary birth (R68, R69). -/
def siteTag (site crew : Nat) : Tag :=
  let v := site % 32768 * 256 + crew % 256
  if v ≤ 3 then BitVec.ofNat 24 (0x100 + v) else BitVec.ofNat 24 v

/-- This instruction's SITE and CREW (R74). -/
def Env.ownTag (e : Env) : Tag := siteTag e.site e.crewTag

/-- The flag an F bit attaches to (R15): SETA with F clear, SETB with F set. -/
def Env.flag (e : Env) (f : Bool) : Option Nat :=
  let c := if f then e.setb else e.seta
  if c = 0 then none else some (c - 1)

/-- A predicate register; p7 is true (R34). -/
def Thread.pred (t : Thread) (p : PReg) : Bool := p == 7 || bit t.preds p.toNat

/-- Write a predicate; a write to p7 is discarded (R316). -/
def Thread.setPred (t : Thread) (p : PReg) (b : Bool) : Thread :=
  if p == 7 then t
  else
    let m : BitVec 7 := BitVec.ofNat 7 (2 ^ p.toNat)
    { t with preds := if b then t.preds ||| m else t.preds &&& ~~~m }

/-- Whether the guard lets a thread execute a slot (R14, R309). -/
def Warp.guard (w : Warp) (t : Thread) : Bool :=
  if bit w.cw1 (4 + w.slot) then (t.pred (fld w.cw1 0 3) != bit w.cw1 3) else true

/-- The active lanes of the slot that have not passed it (R329), in ascending lane order. -/
def State.active (s : State) (e : Env) : List Nat :=
  e.w.members.filter fun u =>
    !e.w.arrived.contains u && (match s.thread? u with | some t => e.w.guard t | none => false)

/-- Open speculation levels of a thread (R193). -/
def Thread.depth (t : Thread) : Nat := t.inherited + t.levels.length
/-- A continuation or a speculative callee. -/
def Thread.spec (t : Thread) : Bool := t.depth != 0

/-- The issuer fields of a lane's records (R72, R232). -/
def Env.issuer (e : Env) (uid : Nat) (t : Thread) : Issuer :=
  ⟨uid, e.crewId, e.crew.ctx, e.crew.launch, e.crew.ord, t.role, e.core, e.quad, t.lane, t.slot, t.tid, e.wk % 4,
    e.ipc, e.site, e.insn.toNat⟩

/-! ## Registers of a lane -/

/-- Register vn of the window (R134); a register past the allotment, which only a trapping lane names, reads 0. -/
def State.reg (s : State) (t : Thread) (v : Nat) : Reg :=
  if t.wbase + v < t.allot then s.rd t (t.wbase + v) else Reg.zero

/-- Write register vn of the window. -/
def State.setReg (s : State) (t : Thread) (v : Nat) (r : Reg) : State := s.wr t (t.wbase + v) r

/-- Write registers from vn on. -/
def State.setRegs (s : State) (t : Thread) (v : Nat) (rs : List Reg) : State := s.wrs t (t.wbase + v) rs

/-- The eartag a 64-bit operand contributes (R77) (log entry 43, DEDUCED). -/
def pairTag (lo hi : Tag) : Tag := if isA lo then lo else if isA hi then hi else lo

/-- A 64-bit operand: its value and its eartag (R77). -/
def State.pair (s : State) (t : Thread) (v : Nat) : DWord × Tag :=
  ((s.reg t (v + 1)).val ++ (s.reg t v).val, pairTag (s.reg t v).tag (s.reg t (v + 1)).tag)

/-- Both registers of a pair, with one eartag (R77). -/
def pairRegs (x : DWord) (g : Tag) : List Reg := [⟨fld x 0 32, g⟩, ⟨fld x 32 32, g⟩]

/-! ## Checks before an instruction takes effect (R329) -/

/-- Registers an instruction names: first, how many, and the alignment the first must have (R314). -/
structure Use where
  v : Nat
  n : Nat := 1
  al : Nat := 1
  deriving DecidableEq, Repr

/-- The checks 2 to 5 of R329 for one instruction. `cls` 1 needs a copy role, 2 a matrix role, 0 any (R47). -/
structure Chk where
  uses : List Use := []
  cls : Nat := 0
  /-- registers whose A mark is a use (R89) -/
  anom : List Nat := []
  acause : Nat := 0
  /-- first source register, for the record's EARTAG (R232) -/
  src : Option Nat := none
  /-- the address operand, for the record's ADDR (R232): register pair and offset -/
  addr : Option (Nat × Nat) := none
  /-- a continuation stalls before it (R200) -/
  stall : Bool := false
  /-- its lanes take effect in ascending order: one that waits holds those after it -/
  ordered : Bool := false
  deriving DecidableEq, Repr

/-- Role class check (R47, R233). -/
def Env.classOk (e : Env) (cls : Nat) : Bool :=
  let k := if e.handler then 0 else ((e.launch.roles[e.role]?).map (·.cls)).getD 0
  cls == 0 || k == 3 || k == cls

/-- The policy in force (R87). -/
def Thread.policy (t : Thread) : Nat := t.anom % 4
/-- IOVF in force (R87). -/
def Thread.iovf (t : Thread) : Bool := t.anom.testBit 2

/-- TALLOT (R233). -/
def Context.tallot (c : Context) : Nat := 32 * (c.ta + 1)

/-- The registers a save block holds: the absolute registers below TALLOT that the thread has (R234, R235). -/
def Context.savedRegs (c : Context) (t : Thread) : Nat := min c.tallot t.allot

/-- The registers a thread can name: its allotment, in a handler at most TALLOT (R134, R235). -/
def Context.span (c : Context) (t : Thread) : Nat := if t.handler.isSome then c.savedRegs t else t.allot

/-- The value of an address operand, modulo 2^64 (log entry 68, DEDUCED). -/
def State.addrOf (s : State) (t : Thread) (a : Nat × Nat) : Nat := ((s.pair t a.1).1.toNat + a.2) % 2 ^ 64

/-- The eartag of the first source operand, 0 where the instruction has none or the window does not hold it: a pair contributes
its first A-tagged half's, the even one's first (R77, R232; log entry 87, DEDUCED). -/
def State.srcTag (s : State) (t : Thread) (k : Chk) : Tag :=
  match k.src with
  | none => 0
  | some v => if k.uses.any fun u => u.v == v && u.n == 2 then (s.pair t v).2 else (s.reg t v).tag

/-- A trap with the fields the operands give. -/
def State.chkTrap (s : State) (t : Thread) (k : Chk) (num cause : Nat) : Trap :=
  { num := num, cause := cause, addr := (k.addr.map (s.addrOf t)).getD 0, tag := s.srcTag t k }

/-- Checks 2 to 5 of R329 for a lane: the trap of the first that fails. -/
def State.check (s : State) (e : Env) (k : Chk) (t : Thread) : Option Trap :=
  if !e.classOk k.cls then some (s.chkTrap t k 5 0)
  else if k.uses.any (fun u => u.v % u.al != 0 || decide (128 < u.v + u.n)) then some (s.chkTrap t k 2 0)
  else if k.uses.any (fun u => decide (e.c.span t < t.wbase + u.v + u.n)) then some (s.chkTrap t k 4 0)
  else if t.policy == 2 then
    match k.anom.find? (fun v => isA (s.reg t v).tag) with
    | some v => some { s.chkTrap t k 13 k.acause with tag := (s.reg t v).tag }
    | none => none
  else none

/-! ## Leaving the warp and closing the slot -/

/-- A thread leaves its formed warp; an empty warp ends. -/
def State.leaveWarp (s : State) (wk uid : Nat) : State :=
  match SMap.get? s.warps wk with
  | none => s
  | some w =>
    let w' := { w with members := w.members.filter (· != uid), arrived := w.arrived.filter (· != uid) }
    if w'.members.isEmpty then { s with warps := SMap.del s.warps wk } else { s with warps := SMap.put s.warps wk w' }

/-- The lane has passed the slot. -/
def State.arrive (s : State) (wk uid : Nat) : State :=
  { s with
    warps := SMap.mod s.warps wk fun w => { w with arrived := uid :: w.arrived }
    threads := SMap.mod s.threads uid fun t => { t with wait := none, timer := none, timedOut := false, held := none } }

/-- The place a thread resumes at after the slot: the next slot, or the next clause (R231 N, R311). -/
def nextPlace (w : Warp) (size : Nat) : Nat × Nat :=
  if w.slot + size < w.count then (w.pc, w.slot + size) else (w.pc + 64, 0)

/-- Stand at a place outside a warp. -/
def Thread.standAt (t : Thread) (pc slot : Nat) (fell late : Bool) : Thread :=
  { t with pc := pc, at_ := slot, fellThrough := fell, late := late, stamp := none, status := .boundary }

/-- The YIELD hint of the clause (R39). -/
def Warp.hint (w : Warp) : Bool := bit w.cw0 26

/-- Park a lane at this slot, or at the next when `past` (log entry 11, DEDUCED). -/
def State.park (s : State) (e : Env) (uid : Nat) (wt : Wait) : State :=
  (s.modThread uid fun t => { t.standAt e.w.pc e.w.slot false false with wait := some wt }).leaveWarp e.wk uid

/-- A lane takes a transfer to a clause (R311). -/
def State.transfer (s : State) (e : Env) (uid target : Nat) : State :=
  (s.modThread uid fun t => { t.standAt target 0 false e.w.hint with wait := none, timer := none, timedOut := false, held := none }).leaveWarp e.wk uid

/-- A lane stands at the slot after this one, outside the warp. -/
def State.standNext (s : State) (e : Env) (uid size : Nat) : State :=
  let p := nextPlace e.w size
  (s.modThread uid fun t => { t.standAt p.1 p.2 (p.2 == 0) (p.2 == 0 && e.w.hint) with wait := none, timer := none, timedOut := false, held := none }).leaveWarp e.wk uid

/-- Close an issue of the slot (R38): when every member has passed it the warp goes to the next slot, or the clause
ends; otherwise the warp waits at the slot. Passing a slot ends every stall (log entry 5, DESIGN CHOICE). -/
def State.closeSlot (s : State) (wk size : Nat) : State :=
  match SMap.get? s.warps wk with
  | none => s
  | some w =>
    if w.members.all w.arrived.contains then
      if w.slot + size < w.count then
        { s with warps := SMap.put s.warps wk { w with slot := w.slot + size, arrived := [], issued := false }, stalled := [] }
      else
        let s := w.members.foldl (fun (s : State) u => s.modThread u fun t => t.standAt (w.pc + 64) 0 true w.hint) s
        { s with warps := SMap.del s.warps wk, stalled := [] }
    else { s with warps := SMap.put s.warps wk { w with issued := true }, stalled := wk :: s.stalled }

/-! ## Traps (R230 to R233) -/

/-- Traps that resume at the next instruction (R231). -/
def trapResumesNext (n : Nat) : Bool := [12, 14, 15, 16, 17, 18, 19, 20, 22, 35].contains n

/-- Threads of a context parked on faults the operating system serves, and its resident threads (R248). -/
def State.pshareCounts (s : State) (cid : Nat) : Nat × Nat :=
  let mine := s.threads.filter fun e => ((SMap.get? s.crews e.2.crew).map (·.ctx)) == some cid && e.2.resident
  let served := mine.filter fun e => match e.2.status with | .osServed _ _ => true | _ => false
  (served.length, mine.length)

/-- The pre-emption request of a crew with `left` cycles (R240, R245); a co-resident gang is requested whole. -/
def State.requestCrew (s : State) (crew left : Nat) : State :=
  { s with crews := SMap.mod s.crews crew fun c =>
      match c.preempt with
      | .running => { c with preempt := if left = 0 then .forcing else .requested, req := true, left := left }
      | .requested => if left = 0 then { c with preempt := .forcing, left := 0 } else c
      | _ => c }

/-- The switch on faults (R248): with 64 × P above PSHARE × T every crew of the context is pre-empted at once. -/
def State.pshare (s : State) (cid : Nat) : State :=
  match SMap.get? s.ctxs cid with
  | none => s
  | some c =>
    let n := s.pshareCounts cid
    if c.pshare != 0 && decide (c.pshare * n.2 < 64 * n.1) then
      (s.crews.filter fun e => e.2.ctx == cid).foldl (fun (s : State) e => s.requestCrew e.1 0) s
    else s

/-- The switch on faults of every context, tested after every step: a park, an exit, a placement or a restore may make the
condition hold (R248). -/
def State.pshareAll (s : State) : State := s.ctxs.foldl (fun (s : State) e => s.pshare e.1) s

/-- TAKING A TRAP (R230, R231, R232): a trap inside a handler kills the crew (R238); a fault the operating system
serves first parks the lane without a record (R156); any other trap writes its fault record, and the lane parks for
delivery, out of its warp, at the instruction or at the next one. A watch hit that is only recorded writes its record, and
the lane goes on (R95). -/
def State.takeTrap (s : State) (e : Env) (size : Nat) (subw : Nat) (uid : Nat) (tr : Trap) : State :=
  match s.thread? uid with
  | none => s
  | some t =>
    if tr.only then (s.faultRecord (e.issuer uid t) tr 0 false false).1
    else if t.handler.isSome then s.killCrew t.crew
    else if tr.os then
      (s.modThread uid fun t => { t.standAt e.w.pc e.w.slot false false with status := .osServed tr subw, wait := none }).leaveWarp e.wk uid
    else
      let r := s.faultRecord (e.issuer uid t) tr subw t.held.isSome false
      let p := if trapResumesNext tr.num then nextPlace e.w size else (e.w.pc, e.w.slot)
      (r.1.modThread uid fun t => { t.standAt p.1 p.2 (p.2 == 0 && trapResumesNext tr.num) false with status := .parked r.2 tr, wait := none, timer := none, timedOut := false, held := none }).leaveWarp e.wk uid

/-- The lanes of a list of traps (R232 SUBW). -/
def State.subwOf (s : State) (l : List (Nat × Trap)) : Nat :=
  (l.filter fun x => !x.2.only).foldl (fun m x => m + 2 ^ (((s.thread? x.1).map (·.lane)).getD 0)) 0

/-- The name of the next parked sub-warp of a context: the number of its first record. -/
def State.trapGroup (s : State) (cid : Nat) : Nat := ((SMap.get? s.ctxs cid).map (·.faultSeq)).getD 0

/-- The faulting lanes of one issue leave as one parked sub-warp, in ascending lane order (R230). -/
def State.takeTraps (s : State) (e : Env) (size : Nat) (l : List (Nat × Trap)) : State :=
  let m := s.subwOf l
  let g := s.trapGroup e.crew.ctx
  l.foldl (fun (s : State) x => s.takeTrap e size m x.1 { x.2 with group := g }) s

/-! ## Running a slot lane by lane -/

/-- What a lane comes to. -/
inductive LaneRes where
  /-- the lane has passed the slot -/
  | done (s : State)
  /-- the lane holds its warp at the slot -/
  | stall (s : State) (w : Wait)
  /-- the lane parks outside the warp -/
  | park (s : State) (w : Wait)
  /-- the lane leaves the instruction by a trap -/
  | trap (s : State) (t : Trap)
  /-- the lane has left the warp -/
  | gone (s : State)

/-- A continuation holds a trap: it stalls before the instruction until its fork resolves (R200, R205). -/
def State.holdTrap (s : State) (e : Env) (uid : Nat) (t : Thread) (tr : Trap) : State :=
  (s.modThread uid fun t' => { t' with held := some ⟨tr, e.issuer uid t⟩ }).park e uid .resolution

/-- A lane whose effect needs a page that is not present, for the record of its birth, waits at the slot with no effect
(R71, R237). -/
def LaneRes.await (s : State) : LaneRes → LaneRes
  | .done s' => if (s.pagesFor s').isEmpty then .done s' else .stall (s.awaitPages s') .drain
  | .trap s' t => if (s.pagesFor s').isEmpty then .trap s' t else .stall (s.awaitPages s') .drain
  | r => r

/-- Apply a lane's result. A continuation's trap is held: it parks until its fork resolves (R200, R205). -/
def State.applyRes (e : Env) (uid : Nat) (acc : State × List (Nat × Trap)) : LaneRes → State × List (Nat × Trap)
  | .done s => (s.arrive e.wk uid, acc.2)
  | .stall s w => (s.modThread uid fun t => { t with wait := some w }, acc.2)
  | .park s w => (s.park e uid w, acc.2)
  | .gone s => (s, acc.2)
  | .trap s tr =>
    match s.thread? uid with
    | some t =>
      if t.spec then (s.holdTrap e uid t tr, acc.2)
      else (if tr.only then s.arrive e.wk uid else s, acc.2 ++ [(uid, tr)])
    | none => (s, acc.2)

/-- Whether a lane before `uid` that waits at the slot holds it too: in an instruction whose lanes take effect in ascending
order, or while the earlier lane waits for the page of a record, whose number is the lower one (R230, R237). -/
def State.heldBefore (s : State) (e : Env) (k : Chk) (traps : List (Nat × Trap)) (uid : Nat) : Bool :=
  match SMap.get? s.warps e.wk with
  | none => false
  | some w => (w.members.takeWhile (· != uid)).any fun v =>
      !w.arrived.contains v && !(traps.any fun x => x.1 == v) && ((s.thread? v).map (·.status)) == some .inWarp &&
        (k.ordered || s.records.any fun r => r.held && !r.engine && r.uid == v)

/-- Run one lane after its checks; a lane that a lower lane took out of the warp does not run. -/
def runLane (e : Env) (k : Chk) (f : State → Nat → Thread → LaneRes) (acc : State × List (Nat × Trap)) (uid : Nat) :
    State × List (Nat × Trap) :=
  match acc.1.thread? uid with
  | none => acc
  | some t =>
    if t.status = .inWarp then
      State.applyRes e uid acc
        (if k.stall && t.spec then .park acc.1 .resolution
         else match acc.1.check e k t with
          | some tr => .trap acc.1 tr
          | none => if acc.1.heldBefore e k acc.2 uid then .stall acc.1 (t.wait.getD .drain) else (f acc.1 uid t).await acc.1)
    else acc

/-- Threads that the guard stops pass the slot at once. -/
def State.passInactive (s : State) (e : Env) : State :=
  (e.w.members.filter fun u => !e.w.arrived.contains u && (match s.thread? u with | some t => !e.w.guard t | none => true)).foldl
    (fun (s : State) u => { s with warps := SMap.mod s.warps e.wk fun w => { w with arrived := u :: w.arrived } }) s

/-- Finish a slot of `size` words: the traps are taken and the slot is closed. -/
def State.finish (e : Env) (size : Nat) (r : State × List (Nat × Trap)) : State :=
  (r.1.takeTraps e size r.2).closeSlot e.wk size

/-! ## Counting slots (R280, R283 to R285) -/

/-- The level of the thread that holds the work of thread `uid` (R199, R204, R284): its own innermost level, or for a
speculative callee the level under which it was forked. -/
def State.levelFrom (s : State) : Nat → Nat → Nat → Option (Nat × Nat)
  | 0, _, _ => none
  | fuel + 1, uid, idx =>
    match s.thread? uid with
    | none => none
    | some t =>
      if idx < t.levels.length then some (uid, idx)
      else match t.callee with
        | none => none
        | some home =>
          match s.thread? home with
          | none => none
          | some h => s.levelFrom fuel home ((h.levels.takeWhile fun l => l.callee != uid).length + 1)

/-- The level that holds a thread's work. -/
def State.levelOf (s : State) (uid : Nat) : Option (Nat × Nat) := s.levelFrom 8 uid 0

/-- Change one level of a thread. -/
def State.modLevel (s : State) (at_ : Nat × Nat) (f : Level → Level) : State :=
  s.modThread at_.1 fun t => { t with levels := t.levels.modify at_.2 f }

/-- Hold active lane-cycles with the open level or region of a thread (R284). -/
def State.pendActive (s : State) (uid pc n : Nat) : State :=
  match s.levelOf uid with
  | some l => s.modLevel l fun v => { v with pend := { v.pend with active := (pc, n) :: v.pend.active } }
  | none => s.modThread uid fun t =>
      { t with region := t.region.map fun r => { r with pend := { r.pend with active := (pc, n) :: r.pend.active } } }

/-- Whether a thread's lane-cycles are pending: it is speculative or in an open region (R284). -/
def Thread.pends (t : Thread) : Bool := t.spec || t.region.isSome

/-! ## Readiness (R36) -/

/-- The key of a clause in the instruction caches. -/
def icKey (core ctx pc : Nat) : Nat := core * 2 ^ 62 + ctx * 2 ^ 50 + pc / 64

/-- A clause leaves an instruction cache: the threads before it are not ready any more and lose their stamps (R36). -/
def State.icDrop (s : State) (k : Nat) : State :=
  { s with
    icache := SMap.del s.icache k
    threads := s.threads.map fun e =>
      if e.2.status == .boundary && icKey e.2.core (((SMap.get? s.crews e.2.crew).map (·.ctx)).getD 0) e.2.pc == k then
        (e.1, { e.2 with stamp := none })
      else e }

/-- Whether flag `i` of a thread is raised (R15, R34). -/
def State.flagRaised (s : State) (uid i : Nat) : Bool :=
  s.ops.any fun o => o.2.flag == some i && o.2.lanes.contains uid

/-- Whether every flag of a WAIT field is clear. -/
def State.waitClear (s : State) (uid : Nat) (cw0 : Word) : Bool :=
  (List.range 12).all fun i => !(bit cw0 i && s.flagRaised uid i)

/-- Read words of code space at the device point: the clause as memory holds it (R313). -/
def State.codeWords (s : State) (c : Context) (pc n : Nat) : Option (List Word) :=
  (List.range n).mapM fun i =>
    match s.transDev c ((c.cspace + pc + 4 * i) % 2 ^ 64) with
    | .hit h => some (BitVec.ofNat 32 (ofBytes (s.readLoc h.loc 4)))
    | _ => none

/-- The stub mark of control word 0 (R291). -/
def stubMark : Word := 0xF8000000

/-- Whether a transfer target is an unresolved stub (R291): the cache holds no stub, so a cached clause is none. -/
def State.isStub (s : State) (core cid : Nat) (c : Context) (pc : Nat) : Bool :=
  if (SMap.get? s.icache (icKey core cid pc)).isSome then false
  else match s.codeWords c pc 1 with
    | some [w] => w == stubMark
    | _ => false

/-- The clause a thread would start: from the instruction cache, or a stub read from memory (R291). -/
def State.clauseFor (s : State) (core cid pc : Nat) : Option (List Word) :=
  match SMap.get? s.icache (icKey core cid pc) with
  | some ws => some ws
  | none =>
    match SMap.get? s.ctxs cid with
    | none => none
    | some c => if s.isStub core cid c pc then s.codeWords c pc 16 else none

/-! ## Barrier objects (R177, R178) -/

/-- Fields of a barrier object as its 16 bytes hold them (R177). -/
structure Bar where
  phase : Nat
  exp : Nat
  arr : Nat
  bytes : Int
  rest : Nat                             -- word 3: bits 3 ARVONLY, 2 ERR, 1 OVR, 0 POSTED
  deriving DecidableEq, Repr

/-- Read a barrier object. -/
def State.barAt (s : State) (core b : Nat) : Bar :=
  let n := ofBytes (s.scrRead core b 16)
  ⟨n % 2 ^ 32, nfld n 48 16, nfld n 32 16, sext 32 (nfld n 64 32), nfld n 96 32⟩

/-- OVR (R177). -/
def Bar.ovr (x : Bar) : Bool := x.rest.testBit 1
/-- ERR (R177). -/
def Bar.err (x : Bar) : Bool := x.rest.testBit 2
/-- POSTED (R177). -/
def Bar.posted (x : Bar) : Bool := x.rest.testBit 0
/-- ARVONLY (R177). -/
def Bar.arvonly (x : Bar) : Bool := x.rest.testBit 3
/-- Set or clear a bit of word 3. -/
def Bar.setBit (x : Bar) (i : Nat) (b : Bool) : Bar :=
  let r := if x.rest.testBit i then x.rest - 2 ^ i else x.rest
  { x with rest := if b then r + 2 ^ i else r }

/-- The bytes of a barrier object. -/
def Bar.toBytes (x : Bar) : List Byte :=
  Machine.toBytes 4 x.phase ++ Machine.toBytes 2 x.arr ++ Machine.toBytes 2 x.exp ++ Machine.toBytes 4 (wrapInt 32 x.bytes) ++ Machine.toBytes 4 x.rest

/-- The completion test (R178). -/
def Bar.test (x : Bar) : Bar :=
  if x.posted && decide (x.bytes < 0) then x.setBit 1 true
  else if !x.ovr && !x.err && x.posted && x.arr == 0 && x.bytes == 0 then
    { x with phase := (x.phase + 1) % 2 ^ 32, arr := x.exp }.setBit 0 x.arvonly
  else x

/-- Whether the phase has passed `n` (R181). -/
def phasePassed (phase n : Nat) : Bool := decide (0 < sext 32 (phase + 2 ^ 32 - n % 2 ^ 32))

/-- The scratchpad byte of a gang's barrier object, at ring position 0 (R52). -/
def State.gangObj (s : State) (launch g : Nat) : Option (Nat × Nat) :=
  match SMap.get? s.launches launch with
  | none => none
  | some l =>
    match l.gangs[g]? with
    | none => none
    | some x =>
      match x.members with
      | [] => none
      | o :: _ =>
        (s.crews.find? fun c => c.2.launch == launch && c.2.ord == o).map fun c => (c.2.core, c.2.phys (16 * x.gboff))

/-- The crews whose wait at a gang object ends when it stands at `phase` (R184). -/
def State.gangDue (s : State) (core b phase : Nat) : List Nat :=
  (s.crews.filter fun e => match e.2.gangWait with
    | some (g, n) => s.gangObj e.2.launch g == some (core, b) && phasePassed phase n
    | none => false).map (·.1)

/-- A gang phase has completed for a crew: its wait is over and its remote-activity bit for the gang is clear (R56). -/
def Crew.gangPassed (c : Crew) : Crew :=
  match c.gangWait with
  | some (g, _) => { c with gangWait := none, gangs := c.gangs.map fun x => if x.entry == g then { x with remote := false } else x }
  | none => c

/-- What a wait on an object comes to when the object reads `x` (R181): its phase has passed, or it is overrun or in
error. -/
def Bar.wakes (x : Bar) (n : Nat) : Option Wait :=
  if phasePassed x.phase n then some .woken
  else if x.ovr then some (.failed 19 2)
  else if x.err then some (.failed 20 0)
  else none

/-- Write a barrier object back: the granule's eartag is not touched (log entry 12, DEDUCED). The threads parked on the
object whose phase has passed wake, and those it fails take their trap (R178, R181); the crews that wait on it as a gang
object go on (R184). -/
def State.putBar (s : State) (core b : Nat) (x : Bar) : State :=
  let s := (s.scrWrite core b x.toBytes).wakeMonitors (.scr core b)
  let due := s.gangDue core b x.phase
  { s with
    crews := s.crews.map fun e => if due.contains e.1 then (e.1, e.2.gangPassed) else e
    threads := s.threads.map fun e =>
      match e.2.wait with
      | some (.phase l n) =>
        if e.2.resident && l == .scr core b then (e.1, { e.2 with wait := some ((x.wakes n).getD (.phase l n)) }) else e
      | some (.gang _ _) => if due.contains e.2.crew then (e.1, { e.2 with wait := some .woken }) else e
      | _ => e }

/-- Change a barrier object and run the completion test, in one step. -/
def State.stepBar (s : State) (core b : Nat) (f : Bar → Bar) : State := s.putBar core b ((f (s.barAt core b)).test)

/-- Whether the wait of a parked thread is over. A holding wait is over at every try. -/
def State.waitOver (s : State) (t : Thread) : Bool :=
  match t.wait with
  | none => true
  | some .woken => true
  | some (.failed _ _) => true
  | some (.phase (.scr c b) n) => ((s.barAt c b).wakes n).isSome || t.timedOut
  | some (.phase _ _) => true
  | some (.crewBar ph) => ((SMap.get? s.crews t.crew).map (·.barPhase)) != some ph
  | some (.gang _ _) => false
  | some (.meet _) => false
  | some .monitor => t.timedOut || (match t.monitor with | some (_, b) => b | none => true)
  | some .yield => false
  | some (.presence c l) => SMap.getD s.pend 0 (c * 4096 + l) == 0
  | some (.spawnBin en) =>
    !(s.bins.any fun b => b.1 / 16 == quadKey t.core t.quad && b.2.entry == en &&
      some b.2.ctx == ((SMap.get? s.crews t.crew).map (·.ctx)) && decide (32 ≤ b.2.recs.length))
  | some (.graphQueue n cap) =>
    match (SMap.get? s.crews t.crew).bind fun c => (SMap.get? s.ctxs c.ctx).bind fun x => SMap.get? x.nodes n with
    | none => true
    | some q => decide (q.tail - q.head < cap)
  | some .resolution => false
  | some .drain => true
  | some (.request _) => true
  | some (.fence _) => true

/-- Whether a crew may issue (R242, R245, R247). -/
def Crew.runs (c : Crew) : Bool :=
  c.placed && !c.halted && (match c.preempt with | .running => true | .requested => true | _ => false)

/-- Whether a thread is ready (R36, R364): at a clause boundary or at its slot, its wait over, the flags of WAIT clear
when it starts the clause, and its clause at hand. -/
def State.ready (s : State) (uid : Nat) (t : Thread) : Bool :=
  t.status == .boundary && s.waitOver t && !(t.at_ == 0 && !t.bndTraps.isEmpty && t.handler.isNone && t.wait.isNone) &&
  !(s.records.any fun r => r.uid == uid) &&
  match SMap.get? s.crews t.crew with
  | none => false
  | some cr => cr.runs &&
    match s.clauseFor t.core cr.ctx t.pc with
    | none => false
    | some ws => t.at_ != 0 || s.waitClear uid (ws.getD 0 0)

/-- Count one issued slot (R280, R283 to R285): CYC, ISSUE, and a class for each of the 32 lanes; the watchdog counts
of the members (R249). -/
def State.countSlot (s : State) (e : Env) : State :=
  let qk := quadKey e.core e.quad
  let cid := e.crew.ctx
  let mem := e.w.members.filterMap fun u => (s.thread? u).map fun t => (u, t)
  let act := mem.filter fun x => e.w.guard x.2
  let pendAct := act.filter fun x => x.2.pends
  let mlanes := mem.map fun x => x.2.lane
  let div := (List.range 32).filter fun l => !mlanes.contains l &&
    s.threads.any fun x => x.2.core == e.core && x.2.quad == e.quad && x.2.lane == l && x.2.crew == e.crewId &&
      x.2.role == e.role && x.2.pc != e.w.pc && s.ready x.1 x.2
  let s := (s.count (cntQuad qk 0) 1).count (cntQuad qk 1) 1
  let s := s.lanes qk cid e.ipc 0 (act.length - pendAct.length)
  let s := s.lanes qk cid e.ipc 1 div.length
  let s := s.lanes qk cid e.ipc 2 (mem.length - act.length)
  let s := s.lanes qk cid e.ipc 3 (32 - mem.length - div.length)
  let s := pendAct.foldl (fun (s : State) x => s.pendActive x.1 e.ipc 1) s
  if e.handler then s
  else { s with threads := s.threads.map fun x => if e.w.members.contains x.1 then (x.1, { x.2 with wdog := x.2.wdog + 1 }) else x }

/-- Begin a slot: its first issue is counted, and lanes the guard stops pass it. -/
def State.begin (s : State) (e : Env) : State :=
  (if e.w.issued then s else s.countSlot e).passInactive e

/-- RUN A SLOT (R329): every active lane, in ascending order, takes the checks and then its effect; the lanes that trap
leave together; then the slot closes. -/
def State.runSlot (s : State) (e : Env) (size : Nat) (k : Chk) (f : State → Nat → Thread → LaneRes) : State :=
  let r := (s.active e).foldl (runLane e k f) (s.begin e, [])
  State.finish e size r

/-- A per-lane instruction. -/
def State.perLane (s : State) (size : Nat) (k : Env → Chk) (f : Env → State → Nat → Thread → LaneRes) :
    Host.Outcome State Fault Refusal :=
  match s.env? with
  | none => .fault .noWarp
  | some e => .next (s.runSlot e size (k e) (f e))

/-! ## Cross-lane instructions: checks first, then every source, then every result (R329) -/

/-- The lanes that pass their checks, and the traps of the others. A continuation parks before the instruction. -/
def checkLanes (e : Env) (k : Chk) : State → List Nat → State × List (Nat × Thread) × List (Nat × Trap)
  | s, [] => (s, [], [])
  | s, u :: us =>
    match s.thread? u with
    | none => checkLanes e k s us
    | some t =>
      if k.stall && t.spec then checkLanes e k (s.park e u .resolution) us
      else match s.check e k t with
        | some tr =>
          if t.spec then checkLanes e k (s.holdTrap e u t tr) us
          else
            let r := checkLanes e k s us
            (r.1, r.2.1, (u, tr) :: r.2.2)
        | none =>
          let r := checkLanes e k s us
          (r.1, (u, t) :: r.2.1, r.2.2)

/-- What an instruction of the whole group comes to. -/
inductive GroupRes where
  /-- the group holds its warp at the slot -/
  | stall (s : State)
  /-- it has taken effect; the lanes listed trap -/
  | done (s : State) (ts : List (Nat × Trap))
  /-- it has taken effect for some lanes, the others hold the warp at the slot; the lanes listed last trap -/
  | part (s : State) (passed : List Nat) (ts : List (Nat × Trap))

/-- An instruction of the group whose effect needs a page that is not present, for the record of a birth, waits at the slot
with no effect (R71, R237). -/
def GroupRes.await (s : State) : GroupRes → GroupRes
  | .stall s' => .stall s'
  | .done s' ts => if (s.pagesFor s').isEmpty then .done s' ts else .stall (s.awaitPages s')
  | .part s' us ts => if (s.pagesFor s').isEmpty then .part s' us ts else .stall (s.awaitPages s')

/-- The lanes that a list of traps takes out of the instruction: a hit that is only recorded takes none (R95). -/
def leaving (ts : List (Nat × Trap)) : List Nat := (ts.filter fun x => !x.2.only).map (·.1)

/-- Whether a thread is a member of a formed warp. -/
def State.isInWarp (s : State) (uid : Nat) : Bool :=
  match s.thread? uid with
  | some t => t.status == .inWarp
  | none => false

/-- Lanes that are still in the warp and do not trap have passed the slot. -/
def State.arriveAll (s : State) (wk : Nat) (us trapped : List Nat) : State :=
  (us.filter fun u => !trapped.contains u && s.isInWarp u).foldl (fun (s : State) u => s.arrive wk u) s

/-- Traps of the members of a warp, in its order. -/
def trapsOf (members : List Nat) (ts : List (Nat × Trap)) : List (Nat × Trap) :=
  members.filterMap fun u => ts.find? fun x => x.1 == u

/-- An instruction of the whole group: `f` sees every lane that passed checks 1 to 5 and answers the state and further
traps. The lanes it leaves in the warp have passed the slot, unless it stalls. -/
def State.perGroup (s : State) (size : Nat) (k : Env → Chk)
    (f : Env → State → List (Nat × Thread) → GroupRes) : Host.Outcome State Fault Refusal :=
  match s.env? with
  | none => .fault .noWarp
  | some e =>
    let r := checkLanes e (k e) (s.begin e) (s.active e)
    match (f e r.1 r.2.1).await r.1 with
    | .stall s' => .next (State.finish e size (s', r.2.2))
    | .done s' ts => .next (State.finish e size (s'.arriveAll e.wk (r.2.1.map (·.1)) (leaving ts), trapsOf e.w.members (r.2.2 ++ ts)))
    | .part s' passed ts => .next (State.finish e size (s'.arriveAll e.wk passed (leaving ts), trapsOf e.w.members (r.2.2 ++ ts)))

/-! ## Operations and their flags (R15) -/

/-- Start an operation of the given lanes that raises a flag until `left` pieces have finished. -/
def State.newOp (s : State) (lanes : List Nat) (flag : Option Nat) (left : Nat) : State × Nat :=
  ({ s with ops := SMap.put s.ops s.nextOp ⟨lanes, flag, left⟩, nextOp := s.nextOp + 1 }, s.nextOp)

/-! ## Watchpoints (R94 to R96) -/

/-- An access as a watchpoint sees it. `kind` 0 read, 1 write, 2 atomic, 3 copy. -/
structure Access where
  kind : Nat
  scr : Bool
  addr : Nat
  len : Nat
  tag : Tag
  deriving DecidableEq, Repr

/-- Whether an access hits a watchpoint (R94) (log entry 37, DEDUCED). -/
def Watch.hits (w : Watch) (a : Access) : Bool :=
  let lo := w.lo % 2 ^ 56
  let hi := w.hi % 2 ^ 56
  let x := a.addr % 2 ^ 56
  w.en && (w.space == a.scr) && w.kinds.testBit a.kind && decide (0 < a.len) && decide (w.lo < w.hi) && decide (x < hi) && decide (lo < x + a.len) &&
    (!w.tagm || (a.tag &&& BitVec.ofNat 24 w.mask) == (BitVec.ofNat 24 w.value &&& BitVec.ofNat 24 w.mask))

/-- The watchpoints that cover a thread, with their mask bits (R95): thread, crew, context. -/
def State.watchesOf (s : State) (uid crew ctx : Nat) (copies : Bool) : List (Nat × Watch) :=
  let th := if copies then [] else ((s.thread? uid).map (·.watch)).getD []
  let cr := ((SMap.get? s.crews crew).map (·.watch)).getD []
  let cx := ((SMap.get? s.ctxs ctx).map (·.watch)).getD []
  let num (base : Nat) (l : List Watch) : List (Nat × Watch) := l.zipIdx.map fun x => (base + x.2, x.1)
  num 0 th ++ num 2 cr ++ num 6 cx

/-- The watch trap of an access (R95, R232). -/
def watchTrap (a : Access) (mask : Nat) : Trap :=
  { num := 18, cause := 0, addr := a.addr, tag := a.tag, aux := mask % 2 ^ 14 + a.kind * 2 ^ 16 }

/-- The hit of one access, given by its parts: the runs of bytes it touches, each with the eartag compared (R94). Its record
has the mask of every watchpoint hit that is not among `seen`, and the address of the first part that hits one; with no
trapping watchpoint among them it is only recorded (R95) (log entry 37, DEDUCED). -/
def State.watchHit (s : State) (uid crew ctx : Nat) (copies : Bool) (seen : Nat) (as : List Access) : Option Trap :=
  let ws := (s.watchesOf uid crew ctx copies).filter fun x => !seen.testBit x.1 && as.any x.2.hits
  match as.find? fun a => ws.any fun x => x.2.hits a with
  | none => none
  | some a => some { watchTrap a (ws.foldl (fun m x => m + 2 ^ x.1) 0) with only := ws.all fun x => x.2.act }

/-- Whether a watchpoint that compares eartags covers the bytes of an access (R94). -/
def State.watchTagged (s : State) (uid crew ctx : Nat) (a : Access) : Bool :=
  (s.watchesOf uid crew ctx false).any fun x => x.2.tagm && { x.2 with tagm := false }.hits a

/-- The watch trap a committed continuation has held: it is taken when the access is made (R202, R205). -/
def Thread.heldWatch (t : Thread) : Option Trap := (t.held.map (·.trap)).filter fun x => x.num == 18

/-- A thread's access has taken effect: with no hit the lane is done, a record-only hit writes its record when the lanes
have run, and a hit of a trapping watchpoint is the watch trap (R95). `s0` is the state before the access: a continuation
holds the trap and has taken no effect (R200), and holds a record-only hit with its level (R96) (log entry 37, DEDUCED). -/
def State.watched (s0 s : State) (e : Env) (uid : Nat) (t : Thread) (as : List Access) : LaneRes :=
  match (s.watchHit uid e.crewId e.crew.ctx false 0 as).orElse fun _ => t.heldWatch with
  | none => .done s
  | some tr =>
    if t.spec then
      if tr.only then
        match s.levelOf uid with
        | some l => .done (s.modLevel l fun v => { v with hits := v.hits ++ [(e.issuer uid t, tr)] })
        | none => .done s
      else .trap s0 tr
    else .trap s tr

/-! ## The pail and open regions (R160, R175, R176, R239) -/

/-- The pail of a thread's quadrant. -/
def State.pailAll (s : State) (t : Thread) : List PailEntry := SMap.getD s.pail [] (quadKey t.core t.quad)

/-- Replace a quadrant's pail. -/
def State.setPail (s : State) (t : Thread) (l : List PailEntry) : State :=
  { s with pail := SMap.setD s.pail [] (quadKey t.core t.quad) l }

/-- A pail entry as a store of the thread's FIFO (R176). -/
def PailEntry.toStore (p : PailEntry) (core : Nat) : Store :=
  ⟨p.uid, p.iss.crew, p.iss.ctx, core, p.loc, p.va, p.bytes, p.tag, p.tagAddr, p.page, p.scope, none, 0, 0, p.iss, false, true⟩

/-- The window's registers, predicates, meet registers and base as a checkpoint holds them (R194, R417). -/
def State.checkpoint (s : State) (t : Thread) : Check :=
  ⟨(List.range (min 128 (t.allot - t.wbase))).map fun i => (t.wbase + i, s.rd t (t.wbase + i)), t.preds, t.meets, t.wbase,
    t.retSite, t.retTarget, s.nextLoad⟩

/-- Restore a checkpoint. -/
def State.restoreCheck (s : State) (uid : Nat) (c : Check) : State :=
  match s.thread? uid with
  | none => s
  | some t =>
    (c.regs.foldl (fun (s : State) x => s.wr t x.1 x.2) s).modThread uid fun t =>
      { t with preds := c.preds, meets := c.meets, wbase := c.wbase, retSite := c.retSite, retTarget := c.retTarget }

/-- A register written from outside an open checkpoint's work lands in the checkpoint too: a load issued before it. -/
def Check.land (c : Check) (number dst : Nat) (rs : List Reg) : Check :=
  if number < c.mark then
    { c with regs := c.regs.map fun e => if dst ≤ e.1 ∧ e.1 < dst + rs.length then (e.1, rs.getD (e.1 - dst) e.2) else e }
  else c

/-- Write registers of a thread from an operation numbered `number`, in its checkpoints too where it came before. -/
def State.landRegs (s : State) (uid number dst : Nat) (rs : List Reg) : State :=
  match s.thread? uid with
  | none => s
  | some t =>
    (s.wrs t dst rs).modThread uid fun t =>
      { t with
        levels := t.levels.map fun l => { l with check := l.check.land number dst rs }
        region := t.region.map fun r => { r with check := r.check.land number dst rs } }

/-- Put a store at the tail of a thread's FIFO (R160). -/
def State.pushStore (s : State) (uid : Nat) (x : Store) : State :=
  let n := s.nextStore
  { s with stores := SMap.put s.stores n x, nextStore := n + 1, threads := SMap.mod s.threads uid fun t => { t with fifo := t.fifo ++ [n] } }

/-- The runs of bytes a store writes, as a watchpoint sees them (R94): a store to another member's scratchpad is not
watched. -/
def Store.accesses (x : Store) : List Access :=
  let scr := x.loc.isScr
  let other := match x.loc with
    | .scr c _ => c != x.core
    | _ => false
  if other then [] else (maskRuns 0 x.data).map fun r => ⟨1, scr, x.va + r.1, r.2.length, x.tag⟩

/-- A pail entry drains: its watch hit is judged and recorded, and a trap due is taken at the next clause boundary of its
thread (R96, R428; log entry 80, DESIGN CHOICE). -/
def State.pailWatch (s : State) (x : Store) : State :=
  match if x.pailed then s.watchHit x.uid x.iss.crew x.iss.ctx false 0 x.accesses else none with
  | none => s
  | some tr =>
    let r := s.faultRecord x.iss tr (if tr.only then 0 else 2 ^ x.iss.lane) false false
    if tr.only then r.1 else r.1.modThread x.uid fun t => { t with bndTraps := t.bndTraps ++ [(r.2, tr)] }

/-- Move the entries of a level to the store FIFO, oldest first (R176). -/
def State.releasePail (s : State) (uid level : Nat) : State :=
  match s.thread? uid with
  | none => s
  | some t =>
    let all := s.pailAll t
    let s := s.setPail t (all.filter fun p => !(p.uid == uid && p.level == level))
    (all.filter fun p => p.uid == uid && p.level == level).foldl (fun (s : State) p => s.pushStore uid (p.toStore t.core)) s

/-- A write-back: a device-scope atomic add of a count to its counter in memory (R286, R287); `none` while its page is not
at hand. `addr` is the counter's address in the context. -/
def State.bbcWrite (s : State) (cid addr delta : Nat) : Option State :=
  match SMap.get? s.ctxs cid with
  | none => some s
  | some c =>
    match s.transDev c addr with
    | .hit h => some (s.performWrite cid addr h.loc (toBytes 8 (ofBytes (s.readLoc h.loc 8) + delta)) 0 h.tagAddr)
    | _ => none

/-- The entry a full counter cache gives up, with the state in which it is written back: the oldest whose page is at hand. -/
def State.bbcEvict (s : State) (l : List BlockCount) : Option (BlockCount × State) :=
  l.reverse.findSome? fun v => (s.bbcWrite v.ctx v.addr v.delta).map fun s' => (v, s')

/-- Add to a counter-cache entry of a core (R287). An entry that cannot be written back yet stays in the cache, so no count
is lost. -/
def State.bbcAdd (s : State) (core cid addr n : Nat) : State :=
  let l := SMap.getD s.blocks [] core
  match l.find? (fun b => b.ctx == cid && b.addr == addr) with
  | some b =>
    let rest := l.filter fun b => !(b.ctx == cid && b.addr == addr)
    (match if 2 ^ 32 ≤ b.delta + n then s.bbcWrite cid addr b.delta else none with
    | some s' => { s' with blocks := SMap.put s'.blocks core (⟨cid, addr, n⟩ :: rest) }
    | none => { s with blocks := SMap.put s.blocks core (⟨cid, addr, b.delta + n⟩ :: rest) })
  | none =>
    match if l.length < 1024 then none else s.bbcEvict l with
    | some (v, s') => { s' with blocks := SMap.put s'.blocks core (⟨cid, addr, n⟩ :: l.filter (· != v)) }
    | none => { s with blocks := SMap.put s.blocks core (⟨cid, addr, n⟩ :: l) }

/-- Pending work is committed: active lane-cycles and block counts (R284, R287). -/
def State.commitPend (s : State) (core quad cid : Nat) (p : Pending) : State :=
  let s := p.active.foldl (fun (s : State) x => s.lanes (quadKey core quad) cid x.1 0 x.2) s
  p.blocks.foldl (fun (s : State) x => s.bbcAdd core cid x.1 x.2) s

/-- Commit a thread's open region (R176, R239). -/
def State.commitRegion (s : State) (uid : Nat) : State :=
  match s.thread? uid with
  | none => s
  | some t =>
    match t.region with
    | none => s
    | some r =>
      let s := s.releasePail uid 0
      let s := s.commitPend t.core t.quad (((SMap.get? s.crews t.crew).map (·.ctx)).getD 0) r.pend
      s.modThread uid fun t => { t with region := none }

/-! ## Births and eartags of results (R71 to R77) -/

/-- An operand of a value-producing instruction: its bits and its eartag, in the order d-source, a, b, c. -/
structure Opd where
  bits : Nat
  tag : Tag
  deriving DecidableEq, Repr

/-- The birth rule (R74). -/
def birthRule (own : Tag) (l : List Opd) : Tag :=
  match l.find? (fun o => isA o.tag) with
  | some o => o.tag
  | none => own

/-- The eartag of a result that is no birth, by the clause's RULE (R74). `opds` in order; `a` is operand a's eartag;
`sel` names the chosen operand of an instruction that selects. -/
def ruleTag (rule : Nat) (own : Tag) (opds : List Opd) (a : Tag) (sel : Option Tag) (bits : Nat) : Tag :=
  match rule with
  | 0 => birthRule own opds
  | 1 => a
  | 2 =>
    match sel with
    | some g => g
    | none => match opds.find? (fun o => o.bits == bits) with
      | some o => o.tag
      | none => a
  | _ => own

/-- A birth by a lane's own instruction: an open region commits first, EARLY (R86); the record is written. -/
def State.laneBirth (s : State) (e : Env) (uid : Nat) (t : Thread) (kind : Nat) (o : BirthOps) : State × Tag :=
  let s := if t.region.isSome then s.commitRegion uid else s
  s.birth (e.issuer uid t) kind o false t.region.isSome

/-- Write a lane's result that births a record, then trap under trap on birth (R75, R88). A continuation stalls
before a birth (R85) (log entry 41, DEDUCED). -/
def State.bornResult (s : State) (e : Env) (uid : Nat) (t : Thread) (kind : Nat) (o : BirthOps)
    (put : State → Tag → State) : LaneRes :=
  if t.spec then .park s .resolution
  else
    let b := s.laneBirth e uid t kind o
    let s := put b.1 b.2
    if t.policy == 1 then .trap s { num := 12, cause := kind, tag := b.2 } else .done s

/-! ## Fences, releases and acquires (R167 to R170) -/

/-- Stores of thread `uid` on the .x space that have not been performed (R170). -/
def State.ownRemote (s : State) (core uid : Nat) : Bool :=
  (s.storesOf (SMap.getD s.corePoint [] core)).any fun x => x.uid == uid && x.loc.isScr

/-- Whether global entries of a core older than a marker stand at its core point. -/
def State.olderAtCore (s : State) (core seq : Nat) : Bool :=
  (s.storesOf (SMap.getD s.corePoint [] core)).any fun x => decide (x.seq < seq) && !x.loc.isScr

/-- Whether entries of a core older than a marker stand at its die point. -/
def State.olderAtDie (s : State) (core seq : Nat) : Bool :=
  (s.storesOf (SMap.getD s.diePoint [] (dieOf core))).any fun x => x.core == core && decide (x.seq < seq)

/-- Whether accesses of a core stand at the fabric point. -/
def State.atFabric (s : State) (core : Nat) : Bool := (s.storesOf s.fabric).any fun x => x.core == core

/-- Whether what a fence or release marker waits for has happened (R167). Scope codes of R318 (log entry 71, DEDUCED). -/
def State.markerDone (s : State) (core uid scope seq : Nat) : Bool :=
  !(s.olderAtCore core seq) && (scope == 3 || !(s.olderAtDie core seq)) && (scope != 5 || !(s.atFabric core)) &&
    (scope != 2 || !(s.ownRemote core uid))

/-- Drop a marker. -/
def State.dropMarker (s : State) (core seq : Nat) : State :=
  { s with markers := SMap.mod s.markers core fun l => l.filter (· != seq) }

/-- The waits of a FENCE or a release at a scope (R167, R169), one try: `none` when they are over, otherwise what the
lane waits for. An open region commits first (R176) (log entry 71, DEDUCED). -/
def State.releaseTry (s : State) (uid : Nat) (scope : Nat) : State × Option Wait :=
  let s := s.commitRegion uid
  match s.thread? uid with
  | none => (s, none)
  | some t =>
    if !t.fifo.isEmpty then (s, some .drain)
    else if scope ≤ 1 then (s, none)
    else
      match t.wait with
      | some (.fence seq) =>
        if s.markerDone t.core uid scope seq then (s.dropMarker t.core seq, none) else (s, some (.fence seq))
      | _ =>
        let seq := s.nextStore
        if s.markerDone t.core uid scope seq then (s, none)
        else ({ s with nextStore := seq + 1, markers := SMap.put s.markers t.core (SMap.getD s.markers [] t.core ++ [seq]) },
          some (.fence seq))

/-- A forked callee's acquire conflicts with its fork (R201), and with every fork it runs under. -/
def State.conflictUp (s : State) : Nat → Nat → State
  | 0, _ => s
  | fuel + 1, uid =>
    match (s.thread? uid).bind (·.callee) with
    | none => s
    | some home => (s.modThread home fun h =>
        { h with levels := h.levels.map fun l => if l.callee == uid then { l with conflict := true } else l }).conflictUp fuel home

/-- An acquire by a thread: its quadrant's L1 is invalidated (R169), and a fork whose callee it is conflicts (R201). -/
def State.acquire (s : State) (uid : Nat) : State :=
  match s.thread? uid with
  | none => s
  | some t => (s.dropL1 t.core t.quad).conflictUp 8 uid

/-- Whether a thread's FIFO holds stores, or its core or die point holds entries to the given bytes (R166): an entry of
another core that the thread may have read at its die point counts too (R164). -/
def State.storesPending (s : State) (t : Thread) (l : Loc) : Bool :=
  !t.fifo.isEmpty ||
  (s.storesOf (SMap.getD s.corePoint [] t.core ++ SMap.getD s.diePoint [] (dieOf t.core))).any fun x => x.loc.gran == l.gran

/-! ## Delivery of a trap to its handler, and the return (R233 to R236, R363, R364) -/

/-- Whether a load or a matrix operation will write a register of a thread (R241, R244). -/
def State.writesOwed (s : State) (uid : Nat) (hit : Nat → Bool) : Bool :=
  (s.loads.any fun l => l.2.uid == uid && (List.range l.2.regs).any fun i => hit (l.2.dst + i)) ||
  (s.matQ.any fun q => q.2.any fun m => match m.kind with
    | .acchk d => d.any fun x => x.1 == uid && hit x.2
    | _ => false)

/-- Whether an outstanding operation, a COLPOST among them, will write a register of a thread that `hit` names (R233, R329). -/
def State.writesDue (s : State) (uid : Nat) (hit : Nat → Bool) : Bool :=
  s.writesOwed uid hit || (s.posted.any fun p => p.2.dsts.any fun x => x.1 == uid && hit x.2)

/-- Address of a thread's save block (R233). -/
def State.saveAddr (s : State) (c : Context) (t : Thread) : Nat :=
  c.tsave + 2048 * (2048 * s.coreNumber c t.core + 512 * t.quad + 16 * t.lane + t.slot)

/-- Address of a fault record (R232). -/
def Context.faultAddr (c : Context) (seq : Nat) : Nat := c.faultBase + 64 * (seq % 2 ^ 16)

/-- Write a save block (R234): the parts with their offsets, one after another. -/
def State.writeSave (s : State) (c : Context) (cid : Nat) (t : Thread) (seq : Nat) : RecOut :=
  let n := c.savedRegs t
  let a := s.saveAddr c t
  let rs := (List.range n).map fun i => s.rd t i
  let data := rs.flatMap fun r => le 4 r.val.toNat
  let tags := rs.flatMap fun r => le 4 r.tag.toNat
  let rest := le 8 (t.pc + 8 + 4 * t.at_) ++ le 4 t.preds.toNat ++ le 4 t.wbase ++ le 8 seq
  match s.recWrite cid a (grans 32 data) with
  | .ok s1 =>
    match s1.recWrite cid (a + 0x200) (grans 32 tags) with
    | .ok s2 => s2.recWrite cid (a + 0x400) (grans 2 rest)
    | r => r
  | r => r

/-- Set TAKEN in a fault record (R233). -/
def State.setTaken (s : State) (cid : Nat) (c : Context) (seq : Nat) : State :=
  match s.transDev c (c.faultAddr seq + 0x2C) with
  | .hit h => s.performWrite cid (c.faultAddr seq + 0x2C) h.loc ((s.readLoc h.loc 1).map fun b => b ||| 2) 0 h.tagAddr
  | _ => s

/-- The registers a handler starts with (R235). -/
def handlerRegs (n record save anom num cause : Nat) : List Reg :=
  let w (x : Nat) : Reg := ⟨BitVec.ofNat 32 x, 0⟩
  [w record, w (record / 2 ^ 32), w save, w (save / 2 ^ 32), w anom, w (anom / 2 ^ 32), w num, w cause].take n ++
    List.replicate (n - 8) Reg.zero

/-- Start the handler of a record on its thread (R235) (log entry 67, DEDUCED). -/
def State.startHandler (s : State) (c : Context) (uid : Nat) (t : Thread) (code seq : Nat) (tr : Trap) : State :=
  let n := c.savedRegs t
  let s := s.wrs t 0 (handlerRegs n (c.faultAddr seq) (s.saveAddr c t) c.anomBase tr.num tr.cause)
  s.modThread uid fun t =>
    { t.standAt (code + 64 * c.tentry) 0 false false with handler := some seq, block := s.saveAddr c t, wbase := 0, preds := 0 }

/-- DELIVERY (R233): `none` while the thread waits for an outstanding register write, for its record, or for the page
of its save block (log entry 56, DEDUCED). -/
def State.deliver (s : State) (uid seq : Nat) (tr : Trap) : Option State :=
  match s.thread? uid with
  | none => none
  | some t =>
    match SMap.get? s.crews t.crew with
    | none => none
    | some cr =>
      match SMap.get? s.ctxs cr.ctx, SMap.get? s.launches cr.launch with
      | some c, some l =>
        if s.writesDue uid (fun _ => true) || s.records.any (fun r => r.ctx == cr.ctx && r.uid == uid) then none
        else
          let s := s.commitRegion uid
          match s.thread? uid with
          | none => some s
          | some t =>
            match s.writeSave c cr.ctx t seq with
            | .wait => none
            | .dead => some ((s.endContext cr.ctx 0).log cr.ctx 11 2 (s.saveAddr c t % 2 ^ 32) seq 0)
            | .ok s => some ((s.setTaken cr.ctx c seq).startHandler c uid t l.code seq tr)
      | _, _ => none

/-- What reading a save block gives. -/
inductive SaveRead where
  | ok (bytes : List Byte)
  | wait
  | bad

/-- Read bytes through a context's translation as ERET does (R236) (log entry 67, DEDUCED). -/
def State.readSave (s : State) (c : Context) (va : Nat) : Nat → SaveRead
  | 0 => .ok []
  | n + 1 =>
    match s.transDev c va with
    | .absent => .wait
    | .format => .bad
    | .badPhys => .bad
    | .hit h =>
      if !h.r || twPoison (s.twAt h.loc h.tagAddr h.ptag) then .bad
      else match s.readSave c (va + 16) n with
        | .ok bs => .ok (s.readLoc h.loc 16 ++ bs)
        | r => r

/-- The registers of a save block's words, if every TAG word has a legal form (R236). -/
def saveRegs (n : Nat) (data tags : List Byte) : Option (List Reg) :=
  (List.range n).mapM fun i =>
    let d := ofBytes ((data.drop (4 * i)).take 4)
    let g := ofBytes ((tags.drop (4 * i)).take 4)
    if 2 ^ 24 ≤ g then none
    else if g.testBit 23 && nfld g 20 3 != 0 then none
    else some ⟨BitVec.ofNat 32 d, BitVec.ofNat 24 g⟩

/-- THE RETURN FROM A HANDLER (R236, R363, R364): restore the registers below TALLOT with their eartags, the
predicates and %wbase, and continue at RPC. `none`: a page is not present and ERET waits. A block that breaks a rule is
a trap in the handler and kills the crew. -/
def State.returnFrom (s : State) (e : Env) (uid : Nat) (t : Thread) : Option State :=
  let n := e.c.savedRegs t
  let a := t.block
  match s.readSave e.c a (n / 4), s.readSave e.c (a + 0x200) (n / 4), s.readSave e.c (a + 0x400) 2 with
  | .ok data, .ok tags, .ok rest =>
    let rpc := ofBytes (rest.take 8)
    let pred := ofBytes ((rest.drop 8).take 4)
    let wb := ofBytes ((rest.drop 12).take 4)
    let off := rpc % 64
    match saveRegs n data tags, s.codeWords e.c (rpc / 64 * 64) 1 with
    | none, _ => some (s.killCrew t.crew)
    | some _, none => none
    | some rs, some cw =>
      let slot := (off - 8) / 4
      let count := (fld (cw.getD 0 0) 22 4).toNat
      if off < 8 || off % 4 != 0 || (slot != 0 && decide (count ≤ slot)) || wb % 32 != 0 || decide (t.allot ≤ wb) then some (s.killCrew t.crew)
      else
        let s := s.wrs t 0 rs
        some ((s.modThread uid fun t =>
          { t.standAt (rpc / 64 * 64) slot false e.w.hint with
            handler := none, block := 0, wbase := wb, preds := BitVec.ofNat 7 pred, wdog := 0, wait := none, timer := none, timedOut := false }).leaveWarp e.wk uid)
  | .wait, _, _ => none
  | .ok _, .wait, _ => none
  | .ok _, .ok _, .wait => none
  | _, _, _ => some (s.killCrew t.crew)

end Sys2Proof.Machine
end

