-- ==== Sys2Proof/Machine/Flags.lean ====
section
/-! DEFINITION. Every predicate and overflow computation: compare conditions (R322, R369, R380), signed overflow (R105),
predicate logic (R407). -/

namespace Sys2Proof.Machine

/-- An integer compare on `w`-bit operands (R322): eq, ne, four signed and four unsigned orders. -/
def icond (w cond a b : Nat) : Bool :=
  let x := a % 2 ^ w
  let y := b % 2 ^ w
  match cond with
  | 0 => x == y
  | 1 => x != y
  | 2 => decide (sext w a < sext w b)
  | 3 => decide (sext w a ≤ sext w b)
  | 4 => decide (sext w b < sext w a)
  | 5 => decide (sext w b ≤ sext w a)
  | 6 => decide (x < y)
  | 7 => decide (x ≤ y)
  | 8 => decide (y < x)
  | _ => decide (y ≤ x)

/-- A float compare (R103, R369): with a NaN only `ne` holds, and −0 equals +0. -/
def fcond (cond : Nat) (a b : FVal) : Bool :=
  if a.isNaN || b.isNaN then cond == 1
  else
    let c := fcompare false a b
    match cond with
    | 0 => c == 0
    | 1 => c != 0
    | 2 => decide (c < 0)
    | 3 => decide (c ≤ 0)
    | 4 => decide (0 < c)
    | _ => decide (0 ≤ c)

/-- Whether an exact result lies outside the signed range of `w` bits (R105). -/
def signedOverflow (w : Nat) (x : Int) : Bool :=
  decide (x < -((2 ^ (w - 1) : Nat) : Int)) || decide (((2 ^ (w - 1) : Nat) : Int) ≤ x)

/-- A result of integer arithmetic: its bits and whether the signed form overflows. -/
structure IRes where
  bits : Nat
  ovf : Bool
  deriving DecidableEq, Repr

/-- An exact result wrapped to `w` bits, with its signed overflow (R105). -/
def wrapRes (w : Nat) (x : Int) : IRes := ⟨wrapInt w x, signedOverflow w x⟩

/-- Operation `op` (0 to 7) of major 1 on `w` bits (R105, R378). -/
def intOp (op w : Nat) (signed : Bool) (a b : Nat) : IRes :=
  let x : Int := if signed then sext w a else ((a % 2 ^ w : Nat) : Int)
  let y : Int := if signed then sext w b else ((b % 2 ^ w : Nat) : Int)
  match op with
  | 0 => wrapRes w (x + y)
  | 1 => wrapRes w (x - y)
  | 2 => wrapRes w (x * y)
  | 3 => ⟨wrapInt w ((x * y) / ((2 ^ w : Nat) : Int)), false⟩
  | 4 => if y = 0 then ⟨2 ^ w - 1, true⟩ else wrapRes w (x.tdiv y)
  | 5 => if y = 0 then ⟨a % 2 ^ w, true⟩ else ⟨wrapInt w (x.tmod y), false⟩
  | 6 => ⟨if y < x then b % 2 ^ w else a % 2 ^ w, false⟩
  | _ => ⟨if x < y then b % 2 ^ w else a % 2 ^ w, false⟩

/-- Predicate operations: 0 AND, 1 OR, 2 XOR (R407). -/
def predOp (op : Nat) (x y : Bool) : Bool :=
  match op with
  | 0 => x && y
  | 1 => x || y
  | _ => x != y

end Sys2Proof.Machine
end

