-- ==== Sys2Proof/Machine/Operands.lean ====
section
/-! DEFINITION. Operand forms: immediates (R316), 32-bit and 64-bit register operands (R77, R314), results with their
eartags and births (R74, R75), memory addresses and their checks (R133, R156, R386). -/

namespace Sys2Proof.Machine

/-! ## Immediates (R316) -/

/-- imm13 sign-extended to 32 bits. -/
def simm13 (i : BitVec 13) : Word := i.signExtend 32
/-- imm13 zero-extended. -/
def zimm13 (i : BitVec 13) : Word := i.zeroExtend 32
/-- imm20 sign-extended. -/
def simm20 (i : BitVec 20) : Word := i.signExtend 32

/-! ## Value operands -/

/-- An operand with its bits, width and eartag. -/
structure Src where
  bits : Nat
  w : Nat
  tag : Tag
  deriving DecidableEq, Repr

/-- A 32-bit register operand. -/
def State.src32 (s : State) (t : Thread) (v : Nat) : Src := ⟨(s.reg t v).val.toNat, 32, (s.reg t v).tag⟩
/-- A 64-bit pair operand (R77). -/
def State.src64 (s : State) (t : Thread) (v : Nat) : Src := ⟨(s.pair t v).1.toNat, 64, (s.pair t v).2⟩
/-- A 32-bit or 64-bit operand. -/
def State.src (s : State) (t : Thread) (wide : Bool) (v : Nat) : Src := if wide then s.src64 t v else s.src32 t v

/-- A register use, one register or an even pair (R314). -/
def use (wide : Bool) (v : Nat) : Use := if wide then ⟨v, 2, 2⟩ else ⟨v, 1, 1⟩

/-- The operand's value as a record holds it: its low 32 bits (R72) (log entry 43, DEDUCED). -/
def Src.rec32 (x : Src) : Word := BitVec.ofNat 32 x.bits

/-- The record of up to three operands (R72). -/
def bops1 (a : Src) : BirthOps := { va := a.rec32, ta := a.tag }
/-- Two operands. -/
def bops2 (a b : Src) : BirthOps := { va := a.rec32, vb := b.rec32, ta := a.tag, tb := b.tag }
/-- Three operands. -/
def bops3 (a b c : Src) : BirthOps := { va := a.rec32, vb := b.rec32, vc := c.rec32, ta := a.tag, tb := b.tag, tc := c.tag }

/-- A result: its destination, bits and width, its operands in the order d-source, a, b, c, operand a, and its birth
kind (0 none) with the record's operands. -/
structure Result where
  d : Nat
  w : Nat
  bits : Nat
  opds : List Src
  a : Src
  sel : Option Tag := none
  kind : Nat := 0
  bops : BirthOps := {}
  deriving DecidableEq, Repr

/-- The registers a result writes (R77). -/
def resultRegs (w bits : Nat) (g : Tag) : List Reg :=
  if w = 64 then pairRegs (BitVec.ofNat 64 bits) g else [⟨BitVec.ofNat 32 bits, g⟩]

/-- Operands as the clause rule compares them with the result: only bits of the result's width can be equal (log
entry 13, DEDUCED). -/
def Result.opdList (r : Result) : List Opd :=
  r.opds.map fun o => if o.w = r.w then ⟨o.bits, o.tag⟩ else ⟨2 ^ 64 + o.bits, o.tag⟩

/-- The eartag of a result that is no birth (R74). -/
def Result.tag (r : Result) (e : Env) : Tag := ruleTag e.rule e.ownTag r.opdList r.a.tag r.sel r.bits

/-- Write a result with its eartag; a birth takes its record's eartag (R74, R75). -/
def State.putResult (s : State) (e : Env) (uid : Nat) (t : Thread) (r : Result) : LaneRes :=
  if r.kind = 0 then .done (s.setRegs t r.d (resultRegs r.w r.bits (r.tag e)))
  else s.bornResult e uid t r.kind r.bops fun s g => s.setRegs t r.d (resultRegs r.w r.bits g)

/-! ## Memory operands -/

/-- Space codes of the M format (R317): 0 .g, 1 .s, 2 .x. -/
structure MemOp where
  sp : Nat
  width : Nat
  addr : Nat
  deriving DecidableEq, Repr

/-- Width of a W code (R317). -/
def widthOf (w : Nat) : Nat := 2 ^ w

/-- Add an offset to an address in its space (R386): .x adds to bits [31:0] only. -/
def addOff (sp a off : Nat) : Nat :=
  if sp = 2 then a / 2 ^ 32 * 2 ^ 32 + (a % 2 ^ 32 + off) % 2 ^ 32 else (a + off) % 2 ^ 64

/-- Registers a load writes or a store reads (R385). -/
def memRegs (w : Nat) : Nat := if w = 4 then 4 else if w = 3 then 2 else 1

/-- The register use of a destination or data register (R385, R427). -/
def memUse (w d : Nat) : Use := ⟨d, memRegs w, memRegs w⟩

/-- The member of a gang a .x address names: its crew, if the gang is a co-resident gang of this crew and the position
lies in it (R55, R133). -/
def State.xTarget (s : State) (cr : Crew) (l : Launch) (a : Nat) : Option Crew :=
  let g := nfld a 48 8
  let pos := nfld a 32 16
  match l.gangs[g]? with
  | none => none
  | some x =>
    if !x.cores || !(cr.gangs.any fun k => k.entry == g) then none
    else match x.members[pos]? with
      | none => none
      | some ord => (s.crews.find? fun c => c.2.launch == cr.launch && c.2.ord == ord && c.2.placed).map (·.2)

/-- What an address comes to before it is translated (R133): its location, or a trap. -/
inductive AddrRes where
  | glob (va : Nat)
  | loc (l : Loc)
  | trap (num cause : Nat)
  deriving DecidableEq, Repr

/-- The address checks of R133 in the order of R386: alignment, bounds, pointer bits; then the gang (R55). -/
def State.addrCheck (s : State) (cr : Crew) (l : Launch) (sp width align a : Nat) : AddrRes :=
  if a % align != 0 then .trap 7 1
  else if sp = 0 then (if ptrOk a then .glob (a % 2 ^ 48) else .trap 7 3)
  else if sp = 1 then (if a + width ≤ 128 * cr.lines then .loc (.scr cr.core (cr.phys a)) else .trap 7 2)
  else
    match s.xTarget cr l a with
    | none => if nfld a 56 8 != 0 then .trap 7 3 else .trap 24 0
    | some tg =>
      if 128 * tg.lines < a % 2 ^ 32 + width then .trap 7 2
      else if nfld a 56 8 != 0 then .trap 7 3
      else .loc (.scr tg.core (tg.phys (a % 2 ^ 32)))

/-- What a thread's access needs of the page: 1 read, 2 write, 3 both (R156). -/
def permOk (need : Nat) (h : Hit) : Bool := (need == 2 || h.r) && (need == 1 || (h.w && h.peerW))

/-- The access trap a translation gives (R156, R231). -/
def transTrap (va : Nat) (key : Nat) : Trans → Trap
  | .absent => { num := 8, cause := 2, addr := va, key := key, os := true }
  | .format => { num := 8, cause := 3, addr := va, key := key, os := true }
  | .badPhys => { num := 33, cause := 0, addr := va, key := key }
  | .hit _ => { num := 9, cause := 0, addr := va, key := key }

/-- A granule place for an access: where its bytes are, its page's attributes. -/
structure Place where
  loc : Loc
  va : Nat
  hit : Option Hit
  deriving DecidableEq, Repr

/-- Tag-word address of a place. -/
def Place.tagAddr (p : Place) : Option Nat := p.hit.bind (·.tagAddr)
/-- Page size of a place. -/
def Place.page (p : Place) : Nat := (p.hit.map (·.size)).getD 0
/-- Page eartag of a place. -/
def Place.ptag (p : Place) : Tag := (p.hit.map (·.ptag)).getD 0

/-- Find the place of a lane's access: the checks 7 and 8 of R329. The state changes only by TLB fills. -/
def State.place (s : State) (e : Env) (sp width need a : Nat) : State × Except Trap Place :=
  match s.addrCheck e.crew e.launch sp width width a with
  | .trap n c => (s, .error { num := n, cause := c, addr := a, key := if sp = 0 then keyOf a else 0 })
  | .loc l => (s, .ok ⟨l, a, none⟩)
  | .glob va =>
    let r := s.translate e.core e.crew.ctx e.c va
    match r.2 with
    | .hit h =>
      if permOk need h then
        if need != 1 && h.loc.isTable then (r.1, .error { num := 33, addr := a, key := keyOf a })
        else (r.1, .ok ⟨h.loc, va, some h⟩)
      else (r.1, .error { num := 9, cause := if need == 3 then 3 else if h.r || need == 2 then 2 else 1, addr := a, key := keyOf a })
    | x => (r.1, .error { transTrap va (keyOf a) x with addr := a })

end Sys2Proof.Machine
end

