-- ==== Sys2Proof/Machine/Alu.lean ====
section
/-! DEFINITION. Integer, bit and move instructions: majors 1, 5, 7 to 14, 23 and 29 (R105, R332, R339, R340, R342, R349,
R377 to R381, R391, R400 to R402, R406 to R408, R423, R424, R439). -/

namespace Sys2Proof.Machine

/-! ## Shared shapes -/

/-- Whether a type variant is 64-bit (R320, major 1). -/
def vIs64 (v : BitVec 2) : Bool := bit v 1
/-- Whether a type variant is signed (R320, major 1). -/
def vSigned (v : BitVec 2) : Bool := !bit v 0

/-- Checks of a three-operand instruction with the given widths of d, a and b. -/
def chk3 (wd wa wb : Bool) (d a b : VReg) : Chk :=
  { uses := [use wd d.toNat, use wa a.toNat, use wb b.toNat], src := some a.toNat }
/-- Checks of a two-operand instruction. -/
def chk2 (wd wa : Bool) (d a : VReg) : Chk := { uses := [use wd d.toNat, use wa a.toNat], src := some a.toNat }

/-- The birth kind of an integer result (R105): 4 when a signed form overflows and IOVF is 1. -/
def ovfKind (t : Thread) (signed ovf : Bool) : Nat := if signed && ovf && t.iovf then 4 else 0

/-- A two-source result of `w` bits from a pure function. -/
def binResult (d : VReg) (w : Nat) (a b : Src) (bits kind : Nat) (sel : Option Tag) : Result :=
  { d := d.toNat, w := w, bits := bits, opds := [a, b], a := a, sel := sel, kind := kind, bops := bops2 a b }

/-- A one-source result. -/
def unResult (d : VReg) (w : Nat) (a : Src) (bits kind : Nat) : Result :=
  { d := d.toNat, w := w, bits := bits, opds := [a], a := a, sel := none, kind := kind, bops := bops1 a }

/-- The operand an IMIN or IMAX chose (R74): a on equal values. -/
def chosenTag (a b : Src) (bits : Nat) : Tag := if a.bits = b.bits then a.tag else if bits = a.bits then a.tag else b.tag

/-- The result of operation `op` of major 1, arithmetic (R378). -/
def arithResult (op : Nat) (f : FVdab) (s : State) (t : Thread) : Result :=
  let w := if vIs64 f.v then 64 else 32
  let a := s.src t (vIs64 f.v) f.a.toNat
  let b := s.src t (vIs64 f.v) f.b.toNat
  let r := intOp op w (vSigned f.v) a.bits b.bits
  binResult f.d w a b r.bits (ovfKind t (vSigned f.v) r.ovf) (if 6 ≤ op then some (chosenTag a b r.bits) else none)

/-- IADD to IMAX (R378). -/
def arith (op : Nat) (f : FVdab) (s : State) : Host.Outcome State Fault Refusal :=
  s.perLane 1 (fun _ => chk3 (vIs64 f.v) (vIs64 f.v) (vIs64 f.v) f.d f.a f.b)
    fun e s u t => s.putResult e u t (arithResult op f s t)

/-- IADD (R378). -/
def execIadd (f : FVdab) (s : State) : Host.Outcome State Fault Refusal := arith 0 f s
/-- ISUB (R378). -/
def execIsub (f : FVdab) (s : State) : Host.Outcome State Fault Refusal := arith 1 f s
/-- IMUL (R378). -/
def execImul (f : FVdab) (s : State) : Host.Outcome State Fault Refusal := arith 2 f s
/-- IMULH (R378). -/
def execImulh (f : FVdab) (s : State) : Host.Outcome State Fault Refusal := arith 3 f s
/-- IDIV (R378). -/
def execIdiv (f : FVdab) (s : State) : Host.Outcome State Fault Refusal := arith 4 f s
/-- IREM (R378). -/
def execIrem (f : FVdab) (s : State) : Host.Outcome State Fault Refusal := arith 5 f s
/-- IMIN (R378). -/
def execImin (f : FVdab) (s : State) : Host.Outcome State Fault Refusal := arith 6 f s
/-- IMAX (R378). -/
def execImax (f : FVdab) (s : State) : Host.Outcome State Fault Refusal := arith 7 f s

/-- Bitwise operations: 0 AND, 1 OR, 2 XOR. -/
def bitOp (op : Nat) (a b : Nat) : Nat :=
  match op with
  | 0 => a &&& b
  | 1 => a ||| b
  | _ => a ^^^ b

/-- The result of AND, OR or XOR (R332, R406, R439). -/
def logicResult (op : Nat) (f : FVdab) (s : State) (t : Thread) : Result :=
  let a := s.src t (vIs64 f.v) f.a.toNat
  let b := s.src t (vIs64 f.v) f.b.toNat
  binResult f.d (if vIs64 f.v then 64 else 32) a b (bitOp op a.bits b.bits) 0 none

/-- AND, OR, XOR on registers (R332, R406, R439). -/
def logic (op : Nat) (f : FVdab) (s : State) : Host.Outcome State Fault Refusal :=
  s.perLane 1 (fun _ => chk3 (vIs64 f.v) (vIs64 f.v) (vIs64 f.v) f.d f.a f.b)
    fun e s u t => s.putResult e u t (logicResult op f s t)

/-- AND (R332). -/
def execAnd (f : FVdab) (s : State) : Host.Outcome State Fault Refusal := logic 0 f s
/-- OR (R406). -/
def execOr (f : FVdab) (s : State) : Host.Outcome State Fault Refusal := logic 1 f s
/-- XOR (R439). -/
def execXor (f : FVdab) (s : State) : Host.Outcome State Fault Refusal := logic 2 f s

/-- Shifts: 0 SHL, 1 SHR, 2 SAR (R423); the count is taken modulo the width. -/
def shiftOp (op w a b : Nat) : Nat :=
  let n := b % w
  match op with
  | 0 => a * 2 ^ n % 2 ^ w
  | 1 => a % 2 ^ w / 2 ^ n
  | _ => wrapInt w (sext w a / ((2 ^ n : Nat) : Int))

/-- The result of a shift (R423). -/
def shiftResult (op : Nat) (f : FVdab) (s : State) (t : Thread) : Result :=
  let w := if vIs64 f.v then 64 else 32
  let a := s.src t (vIs64 f.v) f.a.toNat
  let b := s.src32 t f.b.toNat
  binResult f.d w a b (shiftOp op w a.bits b.bits) 0 none

/-- SHL, SHR, SAR (R423). -/
def shift (op : Nat) (f : FVdab) (s : State) : Host.Outcome State Fault Refusal :=
  s.perLane 1 (fun _ => chk3 (vIs64 f.v) (vIs64 f.v) false f.d f.a f.b)
    fun e s u t => s.putResult e u t (shiftResult op f s t)

/-- SHL (R423). -/
def execShl (f : FVdab) (s : State) : Host.Outcome State Fault Refusal := shift 0 f s
/-- SHR (R423). -/
def execShr (f : FVdab) (s : State) : Host.Outcome State Fault Refusal := shift 1 f s
/-- SAR (R423). -/
def execSar (f : FVdab) (s : State) : Host.Outcome State Fault Refusal := shift 2 f s

/-! ## Major 5, 7 -/

/-- The result of IMAD (R381). -/
def imadResult (f : FR4) (s : State) (t : Thread) : Result :=
  let a := s.src32 t f.a.toNat
  let b := s.src32 t f.b.toNat
  let c := s.src32 t f.c.toNat
  let r := wrapRes 32 (sext 32 a.bits * sext 32 b.bits + sext 32 c.bits)
  { d := f.d.toNat, w := 32, bits := r.bits, opds := [a, b, c], a := a, kind := ovfKind t true r.ovf, bops := bops3 a b c }

/-- Checks of the R4 format. -/
def chkR4 (f : FR4) : Chk := { uses := [⟨f.d.toNat, 1, 1⟩, ⟨f.a.toNat, 1, 1⟩, ⟨f.b.toNat, 1, 1⟩, ⟨f.c.toNat, 1, 1⟩], src := some f.a.toNat }

/-- IMAD (R381). -/
def execImad (f : FR4) (s : State) : Host.Outcome State Fault Refusal :=
  s.perLane 1 (fun _ => chkR4 f) fun e s u t => s.putResult e u t (imadResult f s t)

/-- The result of SEL (R424). -/
def selResult (f : FSel) (s : State) (t : Thread) : Result :=
  let a := s.src32 t f.a.toNat
  let b := s.src32 t f.b.toNat
  let pick := t.pred f.p != f.neg
  binResult f.d 32 a b (if pick then a.bits else b.bits) 0 (some (if a.bits = b.bits || pick then a.tag else b.tag))

/-- SEL (R424). -/
def execSel (f : FSel) (s : State) : Host.Outcome State Fault Refusal :=
  s.perLane 1 (fun _ => chk3 false false false f.d f.a f.b) fun e s u t => s.putResult e u t (selResult f s t)

/-- Field position and length of BFI and BFX (R339, R340). -/
def bitField (c : Nat) : Nat × Nat := (c % 32, min (nfld c 8 6) (32 - c % 32))

/-- BFI's bits (R339). -/
def bfiBits (a b c : Nat) : Nat :=
  let p := bitField c
  let m := (2 ^ p.2 - 1) * 2 ^ p.1
  (b - (b &&& m)) ||| (a * 2 ^ p.1 &&& m)

/-- The result of BFI (R339). -/
def bfiResult (f : FBfi) (s : State) (t : Thread) : Result :=
  let a := s.src32 t f.a.toNat
  let b := s.src32 t f.b.toNat
  let c := s.src32 t f.c.toNat
  { d := f.d.toNat, w := 32, bits := bfiBits a.bits b.bits c.bits, opds := [a, b, c], a := a }

/-- BFI (R339). -/
def execBfi (f : FBfi) (s : State) : Host.Outcome State Fault Refusal :=
  s.perLane 1 (fun _ => { uses := [⟨f.d.toNat, 1, 1⟩, ⟨f.a.toNat, 1, 1⟩, ⟨f.b.toNat, 1, 1⟩, ⟨f.c.toNat, 1, 1⟩], src := some f.a.toNat })
    fun e s u t => s.putResult e u t (bfiResult f s t)

/-- BFX's bits (R340). -/
def bfxBits (sgn : Bool) (a b : Nat) : Nat :=
  let p := bitField b
  if p.2 = 0 then 0
  else
    let x := nfld a p.1 p.2
    if sgn then wrapInt 32 (sext p.2 x) else x

/-- The result of BFX (R340). -/
def bfxResult (f : FBfx) (s : State) (t : Thread) : Result :=
  let a := s.src32 t f.a.toNat
  let b := s.src32 t f.b.toNat
  binResult f.d 32 a b (bfxBits f.sgn a.bits b.bits) 0 none

/-- BFX (R340). -/
def execBfx (f : FBfx) (s : State) : Host.Outcome State Fault Refusal :=
  s.perLane 1 (fun _ => chk3 false false false f.d f.a f.b) fun e s u t => s.putResult e u t (bfxResult f s t)

/-! ## Immediates: majors 8 to 14 -/

/-- The result of IADDI (R379). -/
def iaddiResult (f : FImm) (s : State) (t : Thread) : Result :=
  let a := s.src32 t f.a.toNat
  let r := wrapRes 32 (sext 32 a.bits + (simm13 f.imm).toInt)
  unResult f.d 32 a r.bits (ovfKind t true r.ovf)

/-- IADDI (R379). -/
def execIaddi (f : FImm) (s : State) : Host.Outcome State Fault Refusal :=
  s.perLane 1 (fun _ => chk2 false false f.d f.a) fun e s u t => s.putResult e u t (iaddiResult f s t)

/-- The result of ANDI, ORI or XORI (R332, R406, R439). -/
def logicImmResult (op : Nat) (f : FImm) (s : State) (t : Thread) : Result :=
  let a := s.src32 t f.a.toNat
  unResult f.d 32 a (bitOp op a.bits (zimm13 f.imm).toNat) 0

/-- ANDI, ORI, XORI. -/
def logicImm (op : Nat) (f : FImm) (s : State) : Host.Outcome State Fault Refusal :=
  s.perLane 1 (fun _ => chk2 false false f.d f.a) fun e s u t => s.putResult e u t (logicImmResult op f s t)

/-- ANDI (R332): under the select rule its eartag is a's. -/
def execAndi (f : FImm) (s : State) : Host.Outcome State Fault Refusal := logicImm 0 f s
/-- ORI (R406). -/
def execOri (f : FImm) (s : State) : Host.Outcome State Fault Refusal := logicImm 1 f s
/-- XORI (R439). -/
def execXori (f : FImm) (s : State) : Host.Outcome State Fault Refusal := logicImm 2 f s

/-- Write a predicate of a thread (R316). -/
def State.setPred (s : State) (uid : Nat) (p : PReg) (b : Bool) : State := s.modThread uid fun t => t.setPred p b

/-- ICMPI (R380): a point of use with cause 2. -/
def execIcmpi (f : FCmpI) (s : State) : Host.Outcome State Fault Refusal :=
  s.perLane 1 (fun _ => { uses := [⟨f.a.toNat, 1, 1⟩], anom := [f.a.toNat], acause := 2, src := some f.a.toNat })
    fun _ s u t => .done (s.setPred u f.pd (icond 32 f.cond.toNat (s.src32 t f.a.toNat).bits (simm13 f.imm).toNat))

/-- A register result tagged with this instruction's SITE and CREW (R76). -/
def State.putOwn (s : State) (e : Env) (t : Thread) (d : Nat) (v : Word) : State := s.setReg t d ⟨v, e.ownTag⟩

/-- Which predicted register a MOVI to v122 declares, with its value (R198). -/
def movDeclare (imm : BitVec 20) : Nat × Word :=
  let k : BitVec 17 := fld imm 0 17
  ((fld imm 18 2).toNat, if bit imm 17 then BitVec.ofNat 32 (k.toNat * 2 ^ 15) else k.signExtend 32)

/-- MOVI (R402). -/
def execMovi (f : FMov) (s : State) : Host.Outcome State Fault Refusal :=
  s.perLane 1 (fun _ => { uses := [⟨f.d.toNat, 1, 1⟩] }) fun e s _ t => .done (s.putOwn e t f.d.toNat (simm20 f.imm))

/-- MOVHI (R401). -/
def execMovhi (f : FMov) (s : State) : Host.Outcome State Fault Refusal :=
  s.perLane 1 (fun _ => { uses := [⟨f.d.toNat, 1, 1⟩], src := some f.d.toNat })
    fun e s _ t => .done (s.putOwn e t f.d.toNat (f.imm ++ fld (s.reg t f.d.toNat).val 0 12))

/-! ## Compares and predicates: major 23 -/

/-- ICMP (R380). -/
def execIcmp (f : FICmp) (s : State) : Host.Outcome State Fault Refusal :=
  s.perLane 1 (fun _ =>
      { uses := [use f.wide f.a.toNat, use f.wide f.b.toNat]
        anom := if f.wide then [f.a.toNat, f.a.toNat + 1, f.b.toNat, f.b.toNat + 1] else [f.a.toNat, f.b.toNat]
        acause := 2, src := some f.a.toNat })
    fun _ s u t => .done (s.setPred u f.pd
      (icond (if f.wide then 64 else 32) f.cond.toNat (s.src t f.wide f.a.toNat).bits (s.src t f.wide f.b.toNat).bits))

/-- Predicate logic (R407). -/
def predLogic (op : Nat) (f : FPred) (s : State) : Host.Outcome State Fault Refusal :=
  s.perLane 1 (fun _ => {}) fun _ s u t => .done (s.setPred u f.pd (predOp op (t.pred f.pa != f.na) (t.pred f.pb != f.nb)))

/-- PAND (R407). -/
def execPand (f : FPred) (s : State) : Host.Outcome State Fault Refusal := predLogic 0 f s
/-- POR (R407). -/
def execPor (f : FPred) (s : State) : Host.Outcome State Fault Refusal := predLogic 1 f s
/-- PXOR (R407). -/
def execPxor (f : FPred) (s : State) : Host.Outcome State Fault Refusal := predLogic 2 f s

/-- PNOT (R407). -/
def execPnot (f : FPnot) (s : State) : Host.Outcome State Fault Refusal :=
  s.perLane 1 (fun _ => {}) fun _ s u t => .done (s.setPred u f.pd (!(t.pred f.pa != f.na)))

/-! ## Major 29 -/

/-- A one-source instruction of major 29 whose result has the operand's width when `wd`, else one register. -/
def unary (wd : Bool) (f : FWda) (g : Nat → Nat → Nat) (kind : Thread → Nat → Nat → Nat) (s : State) :
    Host.Outcome State Fault Refusal :=
  let w := if f.wide then 64 else 32
  s.perLane 1 (fun _ => chk2 (wd && f.wide) f.wide f.d f.a)
    fun e s u t =>
      let a := s.src t f.wide f.a.toNat
      s.putResult e u t (unResult f.d (if wd then w else 32) a (g w a.bits) (kind t w a.bits))

/-- The absolute value of `w` bits (R377): the most negative value returns itself. -/
def iabsBits (w a : Nat) : Nat := (sext w a).natAbs % 2 ^ w
/-- Leading zeros of `w` bits (R349). -/
def clzBits (w a : Nat) : Nat := if a % 2 ^ w = 0 then w else w - 1 - (a % 2 ^ w).log2
/-- One bits of `w` bits (R408). -/
def popcBits (w a : Nat) : Nat := ((List.range w).filter fun i => a.testBit i).length
/-- The bits in reverse order (R342). -/
def brevBits (w a : Nat) : Nat := (List.range w).foldl (fun x i => if a.testBit i then x + 2 ^ (w - 1 - i) else x) 0

/-- IABS (R377). -/
def execIabs (f : FWda) (s : State) : Host.Outcome State Fault Refusal :=
  unary true f iabsBits (fun t w a => ovfKind t true (a % 2 ^ w == 2 ^ (w - 1))) s
/-- CLZ (R349). -/
def execClz (f : FWda) (s : State) : Host.Outcome State Fault Refusal := unary false f clzBits (fun _ _ _ => 0) s
/-- POPC of a register (R408). -/
def execPopc (f : FWda) (s : State) : Host.Outcome State Fault Refusal := unary false f popcBits (fun _ _ _ => 0) s
/-- BREV (R342). -/
def execBrev (f : FWda) (s : State) : Host.Outcome State Fault Refusal := unary true f brevBits (fun _ _ _ => 0) s
/-- MOV (R400). -/
def execMov (f : FWda) (s : State) : Host.Outcome State Fault Refusal := unary true f (fun _ a => a) (fun _ _ _ => 0) s

/-- The result of LEA (R391): a pointer with bits [63:60] or [55:48] non-zero is a birth of kind 5. -/
def leaResult (f : Fdab) (s : State) (t : Thread) : Result :=
  let a := s.src64 t f.a.toNat
  let b := s.src32 t f.b.toNat
  let x := (a.bits + b.bits) % 2 ^ 64
  binResult f.d 64 a b x (if ptrOk x then 0 else 5) none

/-- LEA (R391). -/
def execLea (f : Fdab) (s : State) : Host.Outcome State Fault Refusal :=
  s.perLane 1 (fun _ => chk3 true true false f.d f.a f.b) fun e s u t => s.putResult e u t (leaResult f s t)

end Sys2Proof.Machine
end

