-- ==== Sys2Proof/Machine/Approx.lean ====
section
/-! DEFINITION. The approximating instructions (R107, R366, log entry 6, DESIGN CHOICE): a fixed function of the input bits that the
manual does not publish, so a free value of Config, taken where it meets the bound and the special cases of R107 and
of the entries, and the correctly rounded value elsewhere. Whether a result is a birth depends on the input alone. -/

namespace Sys2Proof.Machine

/-- Scale of the fixed-point enclosures: 2^100. -/
def fxOne : Int := 2 ^ 100
/-- π in units of 2^−100, rounded down. -/
def fxPi : Int := 3982441812995697363688351113952
/-- ln 2 in units of 2^−100, rounded down. -/
def fxLn2 : Int := 878668439483319573618263538048
/-- 2 / ln 2 in units of 2^−100, rounded down. -/
def fxTwoOverLn2 : Int := 3657666469058368844884405629978
/-- Slack of an enclosure in units of 2^−100, far above the rounding of its terms. -/
def fxSlack : Int := 2 ^ 20

/-- Σ of the exponential series from term `n` on. -/
def expSeries (x : Int) : Nat → Nat → Int → Int
  | 0, _, _ => 0
  | fuel + 1, n, term => term + expSeries x fuel (n + 1) (term * x / fxOne / ((n : Int) + 1))

/-- 2^f in units of 2^−100, for f in [0, 1) in the same units. -/
def fxExp2 (f : Int) : Int := expSeries (f * fxLn2 / fxOne) 40 0 fxOne

/-- Σ z^(2k+1) / (2k+1) from term `k` on. -/
def atanhSeries (z2 : Int) : Nat → Nat → Int → Int
  | 0, _, _ => 0
  | fuel + 1, k, p => p / ((2 * k + 1 : Nat) : Int) + atanhSeries z2 fuel (k + 1) (p * z2 / fxOne)

/-- log2 of m in [1, 2), in units of 2^−100. -/
def fxLog2 (m : Int) : Int :=
  let z := (m - fxOne) * fxOne / (m + fxOne)
  atanhSeries (z * z / fxOne) 60 0 z * fxTwoOverLn2 / fxOne

/-- Σ of the alternating series of sine (n odd) or cosine (n even) from term x^n / n! on. -/
def trigSeries (x2 : Int) : Nat → Nat → Int → Int
  | 0, _, _ => 0
  | fuel + 1, n, term => term + trigSeries x2 fuel (n + 2) (-(term * x2 / fxOne) / (((n + 1) * (n + 2) : Nat) : Int))

/-- Reduce an angle in units of 2^−100 to within π of 0. -/
def fxReduce (x : Int) : Int := x - 2 * fxPi * ((x + fxPi) / (2 * fxPi))

/-- Sine or cosine in units of 2^−100. -/
def fxTrig (cosine : Bool) (x : Int) : Int :=
  let r := fxReduce x
  let r2 := r * r / fxOne
  if cosine then trigSeries r2 40 0 fxOne else trigSeries r2 40 1 r

/-- A finite value in units of 2^−100, rounded toward −∞. -/
def FVal.fx : FVal → Int
  | .num n m e =>
    let x : Int := if 0 ≤ e + 100 then ((m * 2 ^ (e + 100).toNat : Nat) : Int) else ((m / 2 ^ (-(e + 100)).toNat : Nat) : Int)
    if n then -x else x
  | _ => 0

/-- Whether a magnitude m × 2^e lies within t units of 2^k of every magnitude from lo to hi, in units of 2^x. -/
def within (m : Nat) (e : Int) (lo hi : Int) (x : Int) (t : Nat) (k : Int) : Bool :=
  let b := min e (min x k)
  let sc (v : Int) (p : Int) : Int := v * ((2 ^ (p - b).toNat : Nat) : Int)
  let r := sc (m : Int) e
  let u := sc (t : Int) k
  decide (sc hi x - u ≤ r) && decide (r ≤ sc lo x + u)

/-- Exponent of one unit in the last place of an FP32 result whose magnitude is at least lo × 2^x. -/
def ulpExp (lo : Int) (x : Int) : Int := max ((lo.toNat.log2 : Int) + x - 23) (-149)

/-- Accept a raw FP32 code as a value of the given sign within t ulp of an enclosure; otherwise give its middle,
rounded. -/
def acceptUlp (raw : Nat) (neg : Bool) (lo hi x : Int) (t : Nat) : Nat :=
  let fallback := fF32.round (.num neg (lo.toNat + hi.toNat) (x - 1))
  match fF32.dec raw with
  | .num n m e => if n == neg && within m e lo hi x t (ulpExp lo x) then raw else fallback
  | _ => fallback

/-- An approximated result: its code and its birth kind. -/
structure Approx where
  code : Nat
  kind : Nat
  deriving DecidableEq, Repr

/-- FRCP (R107): within 1 ulp; 2^127 gives its subnormal exactly. -/
def frcpOf (raw : Nat) : FVal → Approx
  | .nan => ⟨fF32.nanCode, 0⟩
  | .inf n => ⟨fF32.signBit n, 0⟩
  | .num n m e =>
    if m = 0 then ⟨fF32.infCode n, 2⟩
    else
      let r := ratOf m e
      let exact := fF32.narrowRat 0 false n r.2 r.1
      if exact.kind = 2 then ⟨exact.code, 2⟩
      else if m.log2 + 1 == 24 && m % 2 ^ 23 == 0 && e == 104 then ⟨exact.code, 0⟩
      else
        let k := (fF32.roundMag 0 n r.2 r.1).2
        match fF32.dec raw with
        | .num n' m' e' =>
          -- |m' 2^e' − 1/(m 2^e)| ≤ 2^k, scaled by m 2^e
          let b := min e' (min k (-e - 1)) + min e 0 - 1
          let one : Int := ((2 ^ (-b).toNat : Nat) : Int)
          let p : Int := ((m * m' : Nat) : Int) * ((2 ^ (e + e' - b).toNat : Nat) : Int)
          let u : Int := (m : Int) * ((2 ^ (k + e - b).toNat : Nat) : Int)
          if n' == n && decide ((p - one).natAbs ≤ u.toNat) then ⟨raw, 0⟩ else ⟨exact.code, 0⟩
        | _ => ⟨exact.code, 0⟩

/-- Integer square root by bits: the largest r with r² ≤ n. -/
def isqrtBits (n : Nat) : Nat → Nat → Nat
  | 0, r => r
  | b + 1, r => let c := r + 2 ^ b; isqrtBits n b (if c * c ≤ n then c else r)

/-- FRSQ (R107): within 1 ulp. The enclosure of 1 / √(m × 2^e) has 60 bits. -/
def frsqOf (raw : Nat) : FVal → Approx
  | .nan => ⟨fF32.nanCode, 0⟩
  | .inf n => if n then ⟨fF32.nanCode, 1⟩ else ⟨0, 0⟩
  | .num n m e =>
    if m = 0 then ⟨fF32.infCode n, 2⟩
    else if n then ⟨fF32.nanCode, 1⟩
    else
      -- y² = 2^−e / m; with e' even, y = √(2^(200 − (e' − e)) / m) × 2^(−e'/2 − 100)
      let e' : Int := if e % 2 = 0 then e else e + 1
      let q := 2 ^ (200 + (e' - e).toNat) / m
      let r := isqrtBits q 102 0
      ⟨acceptUlp raw false (r : Int) ((r : Int) + 1) (-e' / 2 - 100) 1, 0⟩

/-- FEXP2 (R107 and its entry): integers from −126 to 127 exact; above the range +∞; below −149 +0; from −149 to −127 a
subnormal; otherwise within 2 ulp. -/
def fexp2Of (raw : Nat) (v : FVal) : Approx :=
  match v with
  | .nan => ⟨fF32.nanCode, 0⟩
  | .inf n => if n then ⟨0, 0⟩ else ⟨fF32.infCode false, 0⟩
  | .num n m e =>
    let isInt := m == 0 || decide (0 ≤ e) || m % 2 ^ (-e).toNat == 0
    let fl : Int := if 0 ≤ e then (v.units 0) else if n then -(((m + 2 ^ (-e).toNat - 1) / 2 ^ (-e).toNat : Nat) : Int) else ((m / 2 ^ (-e).toNat : Nat) : Int)
    if 128 ≤ fl then ⟨fF32.infCode false, 2⟩
    else if fl < -149 then ⟨0, 0⟩
    else if isInt then ⟨fF32.round (.num false 1 fl), 0⟩
    else
      let f := v.fx - fl * fxOne
      let y := fxExp2 f
      let r := acceptUlp raw false (y - fxSlack) (y + fxSlack) (fl - 100) 2
      let sub := fF32.round (.num false y.toNat (fl - 100))
      ⟨if fl ≤ -128 then (if r = 0 || !(fF32.subnormal r) then max sub 1 else r) else r, 0⟩

/-- FLOG2 (R107 and its entry): powers of two exact; a normal input within 2 ulp; a subnormal input a finite value. -/
def flog2Of (raw : Nat) (v : FVal) : Approx :=
  match v with
  | .nan => ⟨fF32.nanCode, 0⟩
  | .inf n => if n then ⟨fF32.nanCode, 1⟩ else ⟨fF32.infCode false, 0⟩
  | .num n m e =>
    if m = 0 then ⟨fF32.infCode true, 2⟩
    else if n then ⟨fF32.nanCode, 1⟩
    else
      let l := m.log2
      if m = 2 ^ l then ⟨fF32.round (FVal.ofInt ((l : Int) + e)), 0⟩
      else
        let y := ((l : Int) + e) * fxOne + fxLog2 (((m * 2 ^ (100 - l) : Nat) : Int))
        let a : Int := y.natAbs
        let r := acceptUlp raw (decide (y < 0)) (a - fxSlack) (a + fxSlack) (-100) 2
        if l < 23 then ⟨if (fF32.dec raw).isFin then raw else r, 0⟩ else ⟨r, 0⟩

/-- FSIN and FCOS (R107 and the entry of FCOS): absolute error at most 2^−21 for |x| ≤ 100π; beyond, a value in [−1, 1]. -/
def trigOf (cosine : Bool) (raw : Nat) (v : FVal) : Approx :=
  match v with
  | .nan => ⟨fF32.nanCode, 0⟩
  | .inf _ => ⟨fF32.nanCode, 1⟩
  | .num _ _ e =>
    let x := v.fx
    if 8 < e ∨ 100 * fxPi < x.natAbs then
      match fF32.dec raw with
      | .num n m e' => if fcompare false (.num n m e') (.num false 1 0) ≤ 0 && decide (0 ≤ fcompare false (.num n m e') (.num true 1 0)) then ⟨raw, 0⟩ else ⟨0, 0⟩
      | _ => ⟨0, 0⟩
    else
      let y := fxTrig cosine x
      let tol : Int := 2 ^ 79 - 2 ^ 50
      match fF32.dec raw with
      | .num n m e' =>
        let r := FVal.fx (.num n m e')
        if (r - y).natAbs ≤ tol.toNat then ⟨raw, 0⟩ else ⟨fF32.round (.num (decide (y < 0)) y.natAbs (-100)), 0⟩
      | _ => ⟨fF32.round (.num (decide (y < 0)) y.natAbs (-100)), 0⟩

/-- Operations 4 to 9 of major 2 on an input code (R366). -/
def approxOf (op : Nat) (ftz : Bool) (x : Nat) : Approx :=
  let v := fF32.opnd ftz x
  let raw := (Config.approx op (BitVec.ofNat 32 (fF32.flush ftz x))).toNat
  let r : Approx :=
    match op with
    | 4 => frcpOf raw v
    | 5 => frsqOf raw v
    | 6 => fexp2Of raw v
    | 7 => flog2Of raw v
    | 8 => trigOf false raw v
    | _ => trigOf true raw v
  ⟨fF32.flush ftz r.code, r.kind⟩

end Sys2Proof.Machine
end

