-- ==== Sys2Proof/Machine/FloatOps.lean ====
section
/-! DEFINITION. Float, packed and convert instructions: majors 2, 3, 4, 6 and 31 (R102, R106, R114, R326, R366 to R375,
R412, R413). -/

namespace Sys2Proof.Machine

/-- A float result with its birth (R75): the code from the exact value, judged against the operands as read. -/
def floatBits (f : Fmt) (ftz : Bool) (v : FVal) (ops : List FVal) : Nat × Nat :=
  let r := f.round v
  (f.flush ftz r, f.birthKind r ops)

/-- FADD, FMUL on codes (R366): 0 add, 1 multiply. -/
def floatBin (f : Fmt) (op : Nat) (ftz : Bool) (a b : Nat) : Nat × Nat :=
  let x := f.opnd ftz a
  let y := f.opnd ftz b
  floatBits f ftz (if op = 0 then fsum [x, y] else x.mul y) [x, y]

/-- The result of FADD or FMUL (R366). -/
def faddResult (op : Nat) (f : Fdab) (e : Env) (s : State) (t : Thread) : Result :=
  let a := s.src32 t f.a.toNat
  let b := s.src32 t f.b.toNat
  let r := floatBin fF32 op e.ftz a.bits b.bits
  binResult f.d 32 a b r.1 r.2 none

/-- FADD, FMUL. -/
def floatArith (op : Nat) (f : Fdab) (s : State) : Host.Outcome State Fault Refusal :=
  s.perLane 1 (fun _ => chk3 false false false f.d f.a f.b) fun e s u t => s.putResult e u t (faddResult op f e s t)

/-- FADD (R366). -/
def execFadd (f : Fdab) (s : State) : Host.Outcome State Fault Refusal := floatArith 0 f s
/-- FMUL (R366). -/
def execFmul (f : Fdab) (s : State) : Host.Outcome State Fault Refusal := floatArith 1 f s

/-- The result of FMIN or FMAX (R375). -/
def fminResult (isMax : Bool) (f : Fdab) (e : Env) (s : State) (t : Thread) : Result :=
  let a := s.src32 t f.a.toNat
  let b := s.src32 t f.b.toNat
  let r := fF32.minmax e.ftz isMax a.bits b.bits
  binResult f.d 32 a b r.1 0 (some (if r.2 = 2 then b.tag else a.tag))

/-- FMIN (R375). -/
def execFmin (f : Fdab) (s : State) : Host.Outcome State Fault Refusal :=
  s.perLane 1 (fun _ => chk3 false false false f.d f.a f.b) fun e s u t => s.putResult e u t (fminResult false f e s t)
/-- FMAX (R375). -/
def execFmax (f : Fdab) (s : State) : Host.Outcome State Fault Refusal :=
  s.perLane 1 (fun _ => chk3 false false false f.d f.a f.b) fun e s u t => s.putResult e u t (fminResult true f e s t)

/-- The result of an approximating instruction (R107, R366). -/
def approxResult (op : Nat) (f : Fda) (e : Env) (s : State) (t : Thread) : Result :=
  let a := s.src32 t f.a.toNat
  let r := approxOf op e.ftz a.bits
  unResult f.d 32 a r.code r.kind

/-- FRCP to FCOS. -/
def approxSlot (op : Nat) (f : Fda) (s : State) : Host.Outcome State Fault Refusal :=
  s.perLane 1 (fun _ => chk2 false false f.d f.a) fun e s u t => s.putResult e u t (approxResult op f e s t)

/-- FRCP (R107, R366). -/
def execFrcp (f : Fda) (s : State) : Host.Outcome State Fault Refusal := approxSlot 4 f s
/-- FRSQ (R107, R366). -/
def execFrsq (f : Fda) (s : State) : Host.Outcome State Fault Refusal := approxSlot 5 f s
/-- FEXP2 (R107, R366). -/
def execFexp2 (f : Fda) (s : State) : Host.Outcome State Fault Refusal := approxSlot 6 f s
/-- FLOG2 (R107, R366). -/
def execFlog2 (f : Fda) (s : State) : Host.Outcome State Fault Refusal := approxSlot 7 f s
/-- FSIN (R107, R366). -/
def execFsin (f : Fda) (s : State) : Host.Outcome State Fault Refusal := approxSlot 8 f s
/-- FCOS (R107, R366). -/
def execFcos (f : Fda) (s : State) : Host.Outcome State Fault Refusal := approxSlot 9 f s

/-- The class bit of an FP32 code (R368). -/
def classBit (x : Nat) : Nat :=
  let neg := x.testBit 31
  let e := nfld x 23 8
  let m := x % 2 ^ 23
  if e = 255 then (if m = 0 then (if neg then 0 else 7) else if x.testBit 22 then 9 else 8)
  else if e = 0 then (if m = 0 then (if neg then 3 else 4) else if neg then 2 else 5)
  else if neg then 1 else 6

/-- FCLASS (R368). -/
def execFclass (f : Fda) (s : State) : Host.Outcome State Fault Refusal :=
  s.perLane 1 (fun _ => chk2 false false f.d f.a)
    fun e s u t => s.putResult e u t (unResult f.d 32 (s.src32 t f.a.toNat) (2 ^ classBit (s.src32 t f.a.toNat).bits) 0)

/-- FCMP (R369): a point of use with cause 2. -/
def execFcmp (f : FFCmp) (s : State) : Host.Outcome State Fault Refusal :=
  s.perLane 1 (fun _ => { uses := [⟨f.a.toNat, 1, 1⟩, ⟨f.b.toNat, 1, 1⟩], anom := [f.a.toNat, f.b.toNat], acause := 2, src := some f.a.toNat })
    fun e s u t => .done (s.setPred u f.pd
      (fcond f.cond.toNat (fF32.opnd e.ftz (s.src32 t f.a.toNat).bits) (fF32.opnd e.ftz (s.src32 t f.b.toNat).bits)))

/-! ## Packed (R106, R367) -/

/-- The 16-bit format H names. -/
def fmt16 (h : Bool) : Fmt := if h then fF16 else fBF16

/-- Element i of a packed register (R99). -/
def elem16 (x i : Nat) : Nat := nfld x (16 * i) 16

/-- Two element results packed, with the first birth: its element and kind. -/
def pack2 (r0 r1 : Nat × Nat) : Nat × Nat × Nat :=
  (r0.1 + 2 ^ 16 * r1.1, (if r0.2 != 0 then (0, r0.2) else (1, r1.2)))

/-- A packed operand's element as its own source, for the record (R73). -/
def Src.elem (x : Src) (i : Nat) : Src := { x with bits := elem16 x.bits i }

/-- The result of FADD2 or FMUL2 (R367). -/
def packedResult (op : Nat) (f : FHdab) (e : Env) (s : State) (t : Thread) : Result :=
  let a := s.src32 t f.a.toNat
  let b := s.src32 t f.b.toNat
  let g (i : Nat) := floatBin (fmt16 f.h) op e.ftz (elem16 a.bits i) (elem16 b.bits i)
  let p := pack2 (g 0) (g 1)
  { binResult f.d 32 a b p.1 p.2.2 none with bops := bops2 (a.elem p.2.1) (b.elem p.2.1) }

/-- FADD2, FMUL2. -/
def packedSlot (op : Nat) (f : FHdab) (s : State) : Host.Outcome State Fault Refusal :=
  s.perLane 1 (fun _ => chk3 false false false f.d f.a f.b) fun e s u t => s.putResult e u t (packedResult op f e s t)

/-- FADD2 (R367). -/
def execFadd2 (f : FHdab) (s : State) : Host.Outcome State Fault Refusal := packedSlot 0 f s
/-- FMUL2 (R367). -/
def execFmul2 (f : FHdab) (s : State) : Host.Outcome State Fault Refusal := packedSlot 1 f s

/-- A fused multiply-add of one format (R106). -/
def fmaBits (f : Fmt) (ftz : Bool) (a b c : Nat) : Nat × Nat :=
  let x := f.opnd ftz a
  let y := f.opnd ftz b
  let z := f.opnd ftz c
  floatBits f ftz (fsum [x.mul y, z]) [x, y, z]

/-- The result of FFMA (R374). -/
def ffmaResult (f : FR4) (e : Env) (s : State) (t : Thread) : Result :=
  let a := s.src32 t f.a.toNat
  let b := s.src32 t f.b.toNat
  let c := s.src32 t f.c.toNat
  let r := fmaBits fF32 e.ftz a.bits b.bits c.bits
  { d := f.d.toNat, w := 32, bits := r.1, opds := [a, b, c], a := a, kind := r.2, bops := bops3 a b c }

/-- FFMA (R374). -/
def execFfma (f : FR4) (s : State) : Host.Outcome State Fault Refusal :=
  s.perLane 1 (fun _ => chkR4 f) fun e s u t => s.putResult e u t (ffmaResult f e s t)

/-- The result of FMA2 (R367). -/
def fma2Result (f : FFma2) (e : Env) (s : State) (t : Thread) : Result :=
  let a := s.src32 t f.a.toNat
  let b := s.src32 t f.b.toNat
  let c := s.src32 t f.c.toNat
  let g (i : Nat) := fmaBits (fmt16 f.h) e.ftz (elem16 a.bits i) (elem16 b.bits i) (elem16 c.bits i)
  let p := pack2 (g 0) (g 1)
  { d := f.d.toNat, w := 32, bits := p.1, opds := [a, b, c], a := a, kind := p.2.2
    bops := bops3 (a.elem p.2.1) (b.elem p.2.1) (c.elem p.2.1) }

/-- FMA2 (R367). -/
def execFma2 (f : FFma2) (s : State) : Host.Outcome State Fault Refusal :=
  s.perLane 1 (fun _ => { uses := [⟨f.d.toNat, 1, 1⟩, ⟨f.a.toNat, 1, 1⟩, ⟨f.b.toNat, 1, 1⟩, ⟨f.c.toNat, 1, 1⟩], src := some f.a.toNat })
    fun e s u t => s.putResult e u t (fma2Result f e s t)

/-- A dot product with an FP32 addend, rounded once (R106, R326, R367): `n` elements of `w` bits. -/
def dotBits (f : Fmt) (n w : Nat) (ftz : Bool) (a b c : Nat) : Nat × Nat :=
  let x (i : Nat) := f.opnd ftz (nfld a (w * i) w)
  let y (i : Nat) := f.opnd ftz (nfld b (w * i) w)
  let z := fF32.opnd ftz c
  let ps := (List.range n).map fun i => (x i).mul (y i)
  floatBits fF32 ftz (fsum (ps ++ [z])) ((List.range n).map x ++ (List.range n).map y ++ [z])

/-- Checks of a dot product: its first source operand is the d-source (R74). -/
def chkDot (d a b : VReg) : Chk := { chk3 false false false d a b with src := some d.toNat }

/-- The result of FDOT2 or FDOT2.E4M3: the d-source is the addend, in VC of a record (R72). -/
def dotResult (fm : Fmt) (n w : Nat) (ftz : Bool) (d a b : VReg) (s : State) (t : Thread) : Result :=
  let x := s.src32 t a.toNat
  let y := s.src32 t b.toNat
  let z := s.src32 t d.toNat
  let r := dotBits fm n w ftz x.bits y.bits z.bits
  { d := d.toNat, w := 32, bits := r.1, opds := [z, x, y], a := x, kind := r.2, bops := bops3 x y z }

/-- FDOT2 (R367). -/
def execFdot2 (f : FHdab) (s : State) : Host.Outcome State Fault Refusal :=
  s.perLane 1 (fun _ => chkDot f.d f.a f.b)
    fun e s u t => s.putResult e u t (dotResult (fmt16 f.h) 2 16 e.ftz f.d f.a f.b s t)

/-- FDOT2.E4M3 (R326): FP8 elements keep their subnormals under FTZ (R102). -/
def dotE4m3 (ftz : Bool) (d a b : VReg) (s : State) (t : Thread) : Result :=
  let x := s.src32 t a.toNat
  let y := s.src32 t b.toNat
  let z := s.src32 t d.toNat
  let el (v i : Nat) := fE4M3.dec (nfld v (8 * i) 8)
  let zv := fF32.opnd ftz z.bits
  let ps := (List.range 4).map fun i => (el x.bits i).mul (el y.bits i)
  let r := floatBits fF32 ftz (fsum (ps ++ [zv])) ((List.range 4).map (el x.bits) ++ (List.range 4).map (el y.bits) ++ [zv])
  { d := d.toNat, w := 32, bits := r.1, opds := [z, x, y], a := x, kind := r.2, bops := bops3 x y z }

/-- Whether the module that holds a clause carries a manifest that lists major 31 for this stepping (R289, R290). -/
def State.admits31 (s : State) (e : Env) : Bool :=
  s.chip.step == 0xB1 &&
  match e.c.modules.find? (fun m => decide (m.code ≤ e.w.pc) && decide (e.w.pc < m.code + m.len)) with
  | none => false
  | some m =>
    m.manoff != 0 &&
    match s.codeWords e.c (m.code + 64 * m.manoff) 1 with
    | some [head] =>
      (fld head 24 8).toNat == s.chip.step &&
      match s.codeWords e.c (m.code + 64 * m.manoff + 4) (fld head 0 16).toNat with
      | some l => l.any fun x => (fld x 27 5).toNat == 31 && (fld x 16 11).toNat == 0
      | none => false
    | _ => false

/-- FDOT2.E4M3 (R290, R326): a lane takes illegal-instruction with cause 3 where the stepping or the manifest does not
admit it. -/
def execFdot2E4m3 (f : Fdab) (s : State) : Host.Outcome State Fault Refusal :=
  s.perLane 1 (fun e => if s.admits31 e then chkDot f.d f.a f.b else {})
    fun e s u t =>
      if s.admits31 e then s.putResult e u t (dotE4m3 e.ftz f.d f.a f.b s t)
      else .trap s { num := 1, cause := 3, tag := s.srcTag t (chkDot f.d f.a f.b) }

/-! ## FCVT (R370, R371) -/

/-- The float format of a type code (R321). -/
def cvtFmt : Nat → Option Fmt
  | 0 => some fF32
  | 1 => some fF16
  | 2 => some fBF16
  | 3 => some fE4M3
  | 4 => some fE5M2
  | 5 => some fE2M1
  | _ => none

/-- Width in bits of a type code (R321). -/
def cvtWidth : Nat → Nat
  | 0 => 32
  | 1 => 16
  | 2 => 16
  | 3 => 8
  | 4 => 8
  | 5 => 4
  | 6 => 32
  | 7 => 32
  | 8 => 8
  | _ => 4

/-- The range of an integer type code. -/
def cvtRange : Nat → Int × Int
  | 6 => (-(2 ^ 31), 2 ^ 31 - 1)
  | 7 => (0, 2 ^ 32 - 1)
  | 8 => (-128, 127)
  | _ => (-8, 7)

/-- Flush applies to FP32, FP16 and BF16 only (R102). -/
def flushCode (code : Nat) (ftz : Bool) (x : Nat) : Nat :=
  if code ≤ 2 then match cvtFmt code with | some f => f.flush ftz x | none => x else x

/-- The exact value of an element of a type (R98, R99). -/
def cvtValue (code x : Nat) : FVal :=
  match cvtFmt code with
  | some f => f.dec x
  | none => if code = 7 then .num false (x % 2 ^ 32) 0 else FVal.ofInt (sext (cvtWidth code) x)

/-- Convert one element (R104, R371): the code in the target's width and the birth kind. -/
def cvtElem (td ts mode : Nat) (ovf ftz : Bool) (x : Nat) : Narrowed :=
  let v := cvtValue ts (flushCode ts ftz (x % 2 ^ cvtWidth ts))
  match cvtFmt td with
  | some f =>
    let r := f.narrow mode ovf v
    ⟨flushCode td ftz r.code, r.kind⟩
  | none =>
    let rg := cvtRange td
    let r := toIntRange mode rg.1 rg.2 v
    ⟨wrapInt (cvtWidth td) r.1, if r.2 then 3 else 0⟩

/-- The result of FCVT (R371). -/
def fcvtResult (f : FCvt) (e : Env) (s : State) (t : Thread) : Result :=
  let a := s.src32 t f.a.toNat
  let r := cvtElem f.tgt.toNat f.src.toNat f.rnd.toNat f.ovf e.ftz a.bits
  unResult f.d 32 a r.code r.kind

/-- FCVT (R370, R371). -/
def execFcvt (f : FCvt) (s : State) : Host.Outcome State Fault Refusal :=
  s.perLane 1 (fun _ => chk2 false false f.d f.a) fun e s u t => s.putResult e u t (fcvtResult f e s t)

/-! ## QUANT (R114, R412, R413) -/

/-- The target format of QUANT and its fmax (R114). -/
def quantFmt (tgt : Nat) : Fmt × Nat :=
  match tgt with
  | 0 => (fE4M3, 448)
  | 1 => (fE5M2, 57344)
  | _ => (fE2M1, 6)

/-- The larger of two magnitudes, as exact values. -/
def magMax (a b : FVal) : FVal :=
  let x := a.units (min a.exp b.exp)
  let y := b.units (min a.exp b.exp)
  if x.natAbs < y.natAbs then b else a

/-- The code of a finite element at a scale (R114 step 3). -/
def quantCode (f : Fmt) (s x : FVal) : Nat :=
  match x, s with
  | .num n m e, .num _ sm se =>
    let a := ratOf m e
    let b := ratOf sm se
    (f.narrowRat 0 false n (a.1 * b.2) (a.2 * b.1)).code
  | _, _ => 0

/-- E(s) in units of 2^−300 (R114 step 3). -/
def quantErr (f : Fmt) (s : FVal) (xs : List FVal) : Nat :=
  xs.foldl (fun acc x => if x.isFin then
      let d := (fsum [x, (s.mul (f.dec (quantCode f s x))).mul (.num true 1 0)]).units (-150)
      acc + d.natAbs * d.natAbs
    else acc) 0

/-- The winning scale code (R114 steps 1, 2 and 4). -/
def quantScale (f : Fmt) (fmax : Nat) (xs : List FVal) : Option Nat :=
  let fin := xs.filter FVal.isFin
  let amax := fin.foldl magMax (.num false 0 (-149))
  match amax with
  | .num _ m e =>
    if m = 0 then none
    else
      let r := ratOf m e
      let s0 := max (fBF16.narrowRat 0 false false r.1 (r.2 * fmax)).code 1
      let cs := [s0 - 1, s0, s0 + 1].filter fun c => c != 0 && (fBF16.dec c).isFin
      (cs.foldl (fun (best : Option (Nat × Nat)) c =>
        let er := quantErr f (fBF16.dec c) xs
        match best with
        | none => some (c, er)
        | some (c', er') => if er ≤ er' then some (c, er) else some (c', er')) none).map (·.1)
  | _ => none

/-- The scale and the 32 codes with their birth kinds (R114). -/
def quantise (tgt : Nat) (codes : List Nat) : Nat × List Narrowed :=
  let f := (quantFmt tgt).1
  let xs := codes.map fF32.dec
  match quantScale f (quantFmt tgt).2 xs with
  | none => (0x3F80, xs.map fun x => if x.isFin then ⟨0, 0⟩ else f.narrow 0 false x)
  | some s => (s, xs.map fun x => if x.isFin then ⟨quantCode f (fBF16.dec s) x, 0⟩ else f.narrow 0 false x)

/-- Elements packed into one register. -/
def packElems (w : Nat) : List Nat → Nat
  | [] => 0
  | x :: xs => x % 2 ^ w + 2 ^ w * packElems w xs

/-- One code register of QUANT: its births are written in ascending register order (R413). -/
def quantReg (e : Env) (uid d : Nat) (w : Nat) (plain : Tag) (acc : State × Option Tag) (i : Nat)
    (els : List (Narrowed × Src)) : State × Option Tag :=
  match acc.1.thread? uid with
  | none => acc
  | some t =>
    let v := packElems w (els.map fun x => x.1.code)
    match els.find? (fun x => x.1.kind != 0) with
    | none => (acc.1.setReg t (d + i) ⟨BitVec.ofNat 32 v, plain⟩, acc.2)
    | some x =>
      let b := acc.1.laneBirth e uid t x.1.kind (bops1 x.2)
      (b.1.setReg t (d + i) ⟨BitVec.ofNat 32 v, b.2⟩, some (acc.2.getD b.2))

/-- Lists of `k` elements. -/
def groupsOf {α : Type} (k : Nat) : Nat → List α → List (List α)
  | 0, _ => []
  | n + 1, l => l.take k :: groupsOf k n (l.drop k)

/-- QUANT (R412, R413). -/
def execQuant (f : FQuant) (s : State) : Host.Outcome State Fault Refusal :=
  let n := if f.tgt == 2 then 4 else 8
  let w := if f.tgt == 2 then 4 else 8
  s.perLane 1
    (fun _ => { uses := [⟨f.a.toNat, 32, 1⟩, ⟨f.d.toNat, n, 1⟩, ⟨f.b.toNat, 1, 1⟩] ++
                  (if f.d.toNat ≤ f.b.toNat ∧ f.b.toNat < f.d.toNat + n then [⟨1, 1, 2⟩] else [])
                src := some f.a.toNat })
    fun e s u t =>
      let srcs := (List.range 32).map fun i => s.src32 t (f.a.toNat + i)
      let q := quantise f.tgt.toNat (srcs.map (·.bits))
      let births := q.2.any fun x => x.kind != 0
      if births && t.spec then .park s .resolution
      else
        let plain := birthRule e.ownTag (srcs.map fun x => ⟨x.bits, x.tag⟩)
        let gs := groupsOf (32 / n) n (q.2.zip srcs)
        let r := gs.zipIdx.foldl (fun acc x => quantReg e u f.d.toNat w plain acc x.2 x.1) (s, none)
        let s := r.1.setReg t f.b.toNat ⟨BitVec.ofNat 32 q.1, r.2.getD plain⟩
        match r.2 with
        | some g => if t.policy == 1 then .trap s { num := 12, cause := 3, tag := g } else .done s
        | none => .done s

end Sys2Proof.Machine
end

