-- ==== Sys2Proof/Machine/Cross.lean ====
section
/-! DEFINITION. Cross-lane instructions: major 22 and the predicate form of POPC (R293, R392, R408, R409, R415, R416,
R422, R425, R436). Every source is read before any lane writes (R11, R329). -/

namespace Sys2Proof.Machine

/-- A lane of the group with what it brings. -/
structure Member where
  uid : Nat
  t : Thread
  lane : Nat
  deriving DecidableEq, Repr

/-- The members of the group, in ascending lane order. -/
def membersOf (l : List (Nat × Thread)) : List Member := l.map fun x => ⟨x.1, x.2, x.2.lane⟩

/-- The half-group base of a lane: 16h under C16, else 0 (R293). -/
def halfBase (c16 : Bool) (lane : Nat) : Nat := if c16 then lane / 16 * 16 else 0

/-- The members a lane shares its group with (R293). -/
def groupOf (c16 : Bool) (g : List Member) (lane : Nat) : List Member :=
  if c16 then g.filter fun m => m.lane / 16 == lane / 16 else g

/-- The source lane of SHFL for lane `l` with index word `x` (R293, R425); none is outside the group's lanes. -/
def shflSrc (c16 : Bool) (v l x : Nat) : Option Nat :=
  let n := if c16 then 16 else 32
  let base := halfBase c16 l
  let j := l - base
  match v with
  | 0 => some (base + x % n)
  | 1 =>
    let s : Int := (l : Int) + sext 6 x
    if (base : Int) ≤ s ∧ s < ((base + n : Nat) : Int) then some s.toNat else none
  | 2 => some (base + (j ^^^ (x % n)))
  | _ =>
    let w := min (nfld x 5 3) (if c16 then 4 else 5)
    some (base + (j / 2 ^ w * 2 ^ w + x % n % 2 ^ w))

/-- The value a lane takes from a source lane: its own when the source is no active member (R425). -/
def takeFrom (s0 : State) (g : List Member) (m : Member) (a : Nat) (src : Option Nat) : Reg :=
  match src with
  | none => s0.reg m.t a
  | some l =>
    match g.find? (fun x => x.lane == l) with
    | some x => s0.reg x.t a
    | none => s0.reg m.t a

/-- SHFL and ROT over a source-lane function. -/
def shuffle (c : Chk) (d a : VReg) (src : Env → State → Member → Option Nat) (s : State) : Host.Outcome State Fault Refusal :=
  s.perGroup 1 (fun _ => c) fun e s0 l =>
    let g := membersOf l
    .done (g.foldl (fun (s : State) m => s.setReg m.t d.toNat (takeFrom s0 g m a.toNat (src e s0 m))) s0) []

/-- Checks of a cross-lane instruction: a continuation stalls before it (R200). -/
def chkCross (uses : List Use) (src : Option Nat) : Chk := { uses := uses, src := src, stall := true }

/-- SHFL (R425). -/
def execShfl (f : FVdab) (s : State) : Host.Outcome State Fault Refusal :=
  shuffle (chkCross [⟨f.d.toNat, 1, 1⟩, ⟨f.a.toNat, 1, 1⟩, ⟨f.b.toNat, 1, 1⟩] (some f.a.toNat)) f.d f.a
    (fun e s m => shflSrc e.launch.c16 f.v.toNat m.lane (s.reg m.t f.b.toNat).val.toNat) s

/-- ROT (R422). -/
def execRot (f : Fdab) (s : State) : Host.Outcome State Fault Refusal :=
  shuffle (chkCross [⟨f.d.toNat, 1, 1⟩, ⟨f.a.toNat, 1, 1⟩, ⟨f.b.toNat, 1, 1⟩] (some f.a.toNat)) f.d f.a
    (fun e s m =>
      let x := (s.reg m.t f.b.toNat).val.toNat
      if e.launch.c16 then some (m.lane / 16 * 16 + (m.lane + x % 16) % 16) else some ((m.lane + x % 32) % 32)) s

/-- The lanes of a list of members as a mask, relative to `base`. -/
def laneMask (base : Nat) (g : List Member) : Nat := g.foldl (fun x m => x + 2 ^ (m.lane - base)) 0

/-- VOTE (R436). -/
def execVote (f : FVote) (s : State) : Host.Outcome State Fault Refusal :=
  s.perGroup 1 (fun _ => chkCross (if bit f.v 1 then [⟨f.d.toNat, 1, 1⟩] else []) none) fun e s0 l =>
    let g := membersOf l
    let x (m : Member) : Bool := m.t.pred f.p != f.neg
    .done (g.foldl (fun (s : State) m =>
      let h := groupOf e.launch.c16 g m.lane
      let base := halfBase e.launch.c16 m.lane
      let none_ := if e.launch.c16 then 16 else 32
      match f.v.toNat with
      | 0 => s.setPred m.uid (fld f.d 0 3) (h.any x)
      | 1 => s.setPred m.uid (fld f.d 0 3) (h.all x)
      | 2 => s.putOwn e m.t f.d.toNat (BitVec.ofNat 32 (laneMask base (h.filter x)))
      | _ => s.putOwn e m.t f.d.toNat (BitVec.ofNat 32 (match h.find? x with | some y => y.lane - base | none => none_))) s0) []

/-- POPC of a predicate (R408, R409). -/
def execPopcP (d : VReg) (p : PReg) (s : State) : Host.Outcome State Fault Refusal :=
  s.perGroup 1 (fun _ => chkCross [⟨d.toNat, 1, 1⟩] none) fun e s0 l =>
    let g := membersOf l
    .done (g.foldl (fun (s : State) m =>
      s.putOwn e m.t d.toNat (BitVec.ofNat 32 ((groupOf e.launch.c16 g m.lane).filter fun x => x.t.pred p).length)) s0) []

/-- MATCH on 32-bit or 64-bit values (R392). -/
def matchSlot (wide : Bool) (f : FVda) (s : State) : Host.Outcome State Fault Refusal :=
  s.perGroup 1 (fun _ => chkCross [⟨f.d.toNat, 1, 1⟩, use wide f.a.toNat] (some f.a.toNat)) fun e s0 l =>
    let g := membersOf l
    let key (m : Member) : Nat := (s0.src m.t wide f.a.toNat).bits
    .done (g.foldl (fun (s : State) m =>
      let base := halfBase e.launch.c16 m.lane
      let eq := (groupOf e.launch.c16 g m.lane).filter fun x => key x == key m
      let v : Nat :=
        match f.v.toNat with
        | 0 => ((eq.head?).map fun x => x.lane - base).getD 0
        | 1 => (eq.filter fun x => decide (x.lane < m.lane)).length
        | 2 => laneMask base eq
        | _ => eq.length
      s.putOwn e m.t f.d.toNat (BitVec.ofNat 32 v)) s0) []

/-- MATCH, 32-bit (R392). -/
def execMatchLane (f : FVda) (s : State) : Host.Outcome State Fault Refusal := matchSlot false f s
/-- MATCH, 64-bit (R392). -/
def execMatchLane64 (f : FVda) (s : State) : Host.Outcome State Fault Refusal := matchSlot true f s

/-- A running value of REDUX: its bits, its eartag, the birth rule's eartag so far, and the record once one is born. -/
structure Running where
  bits : Nat
  win : Tag
  first : Option Tag
  born : Option Tag
  deriving DecidableEq, Repr

/-- One step of REDUX on bits (R416): the result, whether lane m's value won, and the birth kind. -/
def reduxStep (op ty : Nat) (ftz : Bool) (r x : Nat) : Nat × Bool × Nat :=
  if ty = 2 then
    match op with
    | 0 => let y := floatBin fF32 0 ftz r x; (y.1, false, y.2)
    | o =>
      let y := fF32.minmax ftz (o == 2) r x
      (y.1, y.2 == 2, 0)
  else
    match op with
    | 0 => ((r + x) % 2 ^ 32, false, 0)
    | 1 => let y := (intOp 6 32 (ty == 0) r x).bits; (y, y == x && r != x, 0)
    | 2 => let y := (intOp 7 32 (ty == 0) r x).bits; (y, y == x && r != x, 0)
    | 3 => (bitOp 0 r x, false, 0)
    | 4 => (bitOp 1 r x, false, 0)
    | _ => (bitOp 2 r x, false, 0)

/-- The eartag of a running value (R83, R416). -/
def Running.tag (r : Running) (own : Tag) (minmax : Bool) : Tag :=
  match r.born with
  | some g => g
  | none => if minmax then r.win else r.first.getD own

/-- Note an operand's A mark for the birth rule. -/
def noteTag (first : Option Tag) (g : Tag) : Option Tag :=
  match first with
  | some x => some x
  | none => if isA g then some g else none

/-- Run the lanes of one group in ascending order: the value after each lane, and the lanes that trap on birth. -/
def reduxRun (e : Env) (f : FRedux) (s0 : State) : State → Option Running → List Member →
    State × List (Member × Running) × List (Nat × Trap)
  | s, _, [] => (s, [], [])
  | s, none, m :: ms =>
    let a := s0.reg m.t f.a.toNat
    let x := if f.ty == 2 then fF32.flush e.ftz a.val.toNat else a.val.toNat
    let r : Running := ⟨x, a.tag, noteTag none a.tag, none⟩
    let q := reduxRun e f s0 s (some r) ms
    (q.1, (m, r) :: q.2.1, q.2.2)
  | s, some r, m :: ms =>
    let a := s0.reg m.t f.a.toNat
    let y := reduxStep f.op.toNat f.ty.toNat e.ftz r.bits a.val.toNat
    let minmax := f.op == 1 || f.op == 2
    let b : State × Option Tag :=
      if y.2.2 != 0 && r.born.isNone then
        let z := s.laneBirth e m.uid m.t y.2.2
          { va := BitVec.ofNat 32 r.bits, vb := a.val, ta := r.tag e.ownTag minmax, tb := a.tag }
        (z.1, some z.2)
      else (s, r.born)
    let r' : Running := ⟨y.1, if y.2.1 then a.tag else r.win, noteTag r.first a.tag, b.2⟩
    let q := reduxRun e f s0 b.1 (some r') ms
    let tr : List (Nat × Trap) :=
      if y.2.2 != 0 && r.born.isNone && m.t.policy == 1 then [(m.uid, { num := 12, cause := y.2.2, tag := b.2.getD 0 })] else []
    (q.1, (m, r') :: q.2.1, tr ++ q.2.2)

/-- Write REDUX's results of one group: the running values under .scan, else the last one in every lane. -/
def reduxWrite (e : Env) (f : FRedux) (s : State) (rs : List (Member × Running)) : State :=
  let minmax := f.op == 1 || f.op == 2
  let last := (rs.getLast?).map (·.2)
  rs.foldl (fun (s : State) x =>
    let r := if f.scan then x.2 else last.getD x.2
    s.setReg x.1.t f.d.toNat ⟨BitVec.ofNat 32 r.bits, r.tag e.ownTag minmax⟩) s

/-- REDUX (R415, R416): one group, or two half-groups under C16. -/
def execRedux (f : FRedux) (s : State) : Host.Outcome State Fault Refusal :=
  s.perGroup 1 (fun _ => chkCross [⟨f.d.toNat, 1, 1⟩, ⟨f.a.toNat, 1, 1⟩] (some f.a.toNat)) fun e s0 l =>
    let g := membersOf l
    let halves := if e.launch.c16 then [g.filter fun m => decide (m.lane < 16), g.filter fun m => decide (16 ≤ m.lane)] else [g]
    let r := halves.foldl (fun acc h =>
      let q := reduxRun e f s0 acc.1 none h
      (reduxWrite e f q.1 q.2.1, acc.2 ++ q.2.2)) (s0, [])
    .done r.1 r.2

end Sys2Proof.Machine
end

