-- ==== Sys2Proof/Machine/Fetch.lean ====
section
/-! DEFINITION. From threads to issuing slots: the clause fetch and its faults (R42, R313, R341), the clause check
(R310), warp formation (R36 to R39, R364), the issue of a slot with its register hazards (R38, R329), and time. -/

namespace Sys2Proof.Machine

/-! ## Threads outside a warp -/

/-- The issuer fields of a thread that stands outside a warp, for a record that names a code address. -/
def State.issuerAt (s : State) (uid : Nat) (t : Thread) (ws pc : Nat) (insn : Word) : Issuer :=
  match SMap.get? s.crews t.crew with
  | none => ⟨uid, t.crew, 0, 0, 0, t.role, t.core, t.quad, t.lane, t.slot, t.tid, ws, pc, pc / 4 % 32768, insn.toNat⟩
  | some cr => ⟨uid, t.crew, cr.ctx, cr.launch, cr.ord, t.role, t.core, t.quad, t.lane, t.slot, t.tid, ws, pc,
      pc / 4 % 32768, insn.toNat⟩

/-- A thread outside a warp takes a trap where it stands (R230): a handler's trap kills the crew (R238), a
continuation holds it (R205), a fault the operating system serves parks it without a record (R156) (log entry 36, DEDUCED). -/
def State.trapStanding (s : State) (uid ws pc : Nat) (insn : Word) (subw : Nat) (tr : Trap) : State :=
  match s.thread? uid with
  | none => s
  | some t =>
    if t.spec then s.modThread uid fun t' => { t' with held := some ⟨tr, s.issuerAt uid t ws pc insn⟩, wait := some .resolution }
    else if t.handler.isSome then s.killCrew t.crew
    else if tr.os then s.modThread uid fun t => { t with status := .osServed tr subw, stamp := none }
    else
      let r := s.faultRecord (s.issuerAt uid t ws pc insn) tr subw t.held.isSome false
      r.1.modThread uid fun t => { t with status := .parked r.2 tr, stamp := none, wait := none, timer := none, timedOut := false, held := none }

/-! ## The clause fetch -/

/-- What fetching a clause gives: its 16 words, or the trap of the lanes that go there (R341). -/
inductive FetchRes where
  | words (ws : List Word)
  | fault (t : Trap)
  deriving DecidableEq, Repr

/-- Words of a granule as a fill takes them: where stores to it are under way, each word is the old or the new one
(R313); which is free (log entry 74, DESIGN CHOICE). -/
def State.fillGran (s : State) (l : Loc) (i : Nat) (g : Gran) : List Word :=
  let new := (s.stores.foldl (fun g e => Gran.apply g l.gran e.2) g).bytes
  (List.range 4).map fun k =>
    let word (bs : List Byte) : Word := BitVec.ofNat 32 (ofBytes ((bs.drop (4 * k)).take 4))
    if word g.bytes == word new then word g.bytes
    else if Config.fillTakesNew s.nextStore (4 * i + k) then word new else word g.bytes

/-- Fetch the clause at a code address as a load would (R313, R341) (log entry 36, DEDUCED). -/
def State.fetchClause (s : State) (core cid : Nat) (c : Context) (pc : Nat) : State × FetchRes :=
  let va := (c.cspace + pc) % 2 ^ 64
  let r := s.translate core cid c (va % 2 ^ 48)
  match r.2 with
  | .hit h =>
    if !ptrOk va then (r.1, .fault { num := 7, cause := 3, addr := va })
    else if !h.r then (r.1, .fault { num := 9, cause := 1, addr := va })
    else
      let gs := (List.range 4).map fun i => r.1.granDev (h.loc.add (16 * i)) (h.tagAddr.map (· + 4 * i)) h.ptag
      if gs.any fun g => twPoison g.tw then (r.1, .fault { num := 11, addr := va })
      else (r.1, .words (gs.zipIdx.flatMap fun x => r.1.fillGran (h.loc.add (16 * x.2)) x.2 x.1))
  | x => (r.1, .fault { transTrap va 0 x with addr := va })

/-- The clauses of a core's instruction cache, by their keys. -/
def State.icOf (s : State) (core : Nat) : List Nat := (s.icache.map (·.1)).filter fun k => k / 2 ^ 62 == core

/-- Put a clause into a core's instruction cache of 2048 clauses (R42, R291): a stub is never held; a full cache gives
up its lowest clause (log entry 9, DESIGN CHOICE). -/
def State.icPut (s : State) (core cid pc : Nat) (ws : List Word) : State :=
  if ws.getD 0 0 == stubMark then s
  else
    let held := s.icOf core
    let s := if held.length < Config.icacheClauses then s else
      match held with
      | [] => s
      | k :: _ => s.icDrop k
    { s with icache := SMap.put s.icache (icKey core cid pc) ws }

/-- The threads of a core and context that stand at a clause boundary before a clause, or in the middle of it. -/
def State.standingAt (s : State) (core cid pc : Nat) : List (Nat × Thread) :=
  s.threads.filter fun e => e.2.core == core && e.2.pc == pc && e.2.status == .boundary &&
    ((SMap.get? s.crews e.2.crew).map (·.ctx)) == some cid && s.waitOver e.2

/-- ICACHE_FILL (R42): the miss freezes the sequencers that wait for the clause until the fill lands; a fetch fault is
taken by the threads that stand there (R341). -/
def execIcacheFill (core ctx addr : Nat) (s : State) : Host.Outcome State Fault Refusal :=
  match SMap.get? s.ctxs ctx with
  | none => .refused (.cannotOccur "ICACHE_FILL")
  | some c =>
    let ts := s.standingAt core ctx addr
    if (SMap.get? s.icache (icKey core ctx addr)).isSome || addr % 64 != 0 || ts.isEmpty || s.isStub core ctx c addr then
      .refused (.cannotOccur "ICACHE_FILL")
    else
      let s := s.count (cntCore core 0) 1
      let s := (List.range 4).foldl (fun (s : State) q => if ts.any (fun e => e.2.quad == q) then s.count (cntQuad (quadKey core q) 2) 1 else s) s
      let r := s.fetchClause core ctx c addr
      match r.2 with
      | .words ws => .next (r.1.icPut core ctx addr ws)
      | .fault tr =>
        let m (q : Nat) : Nat := (ts.filter fun e => e.2.quad == q).foldl (fun m e => m ||| 2 ^ e.2.lane) 0
        .next (ts.foldl (fun (s : State) e => s.trapStanding e.1 0 (e.2.pc + 4 * e.2.at_) 0 (m e.2.quad) { tr with group := r.1.trapGroup ctx }) r.1)

/-! ## The clause check (R310, R311) -/

/-- Extension words that the X bit of a word announces (R312, R315, R353): majors 24 and 25 have one. -/
def extWords (w : Word) : Nat :=
  if !bit w 22 then 0
  else match (fld w 27 5).toNat with
    | 24 => 1
    | 25 => if (fld w 24 3).toNat ≤ 1 then 2 else 1
    | _ => 0

/-- Slots of an instruction: its first word and its extension words, which are never decoded as instructions, even after a
word that is none (R312). -/
def sizeOf (ws : List Word) : Nat :=
  match decode ws with
  | .ok (_, rest) => ws.length - rest.length
  | .error _ => 1 + extWords (ws.getD 0 0)

/-- Whether a word is a call, which must stand in the last occupied slot (R311). -/
def isCall (w : Word) : Bool :=
  match decode [w] with
  | .ok (.call _, _) => true
  | .ok (.callf _, _) => true
  | .ok (.callx _, _) => true
  | .ok (.callxF _, _) => true
  | _ => false

/-- Whether a call stands before the last occupied slot; `ws` are the occupied slots. -/
def callInside : Nat → List Word → Bool
  | 0, _ => false
  | _, [] => false
  | _, [_] => false
  | n + 1, w :: ws => isCall w || callInside n ((w :: ws).drop (sizeOf (w :: ws)))

/-- The check of both control words when a clause starts: the cause of illegal-instruction (R310, R311) (log entry 36, DEDUCED). -/
def clauseCheck (ws : List Word) : Option Nat :=
  let c0 := ws.getD 0 0
  let c1 := ws.getD 1 0
  let count := (fld c0 22 4).toNat
  if fld c0 27 5 != (0 : BitVec 5) || fld c1 19 13 != (0 : BitVec 13) then some 2
  else if count == 0 || count == 15 then some 2
  else if decide (12 < (fld c0 12 4).toNat) || decide (12 < (fld c0 16 4).toNat) then some 2
  else if (fld c1 4 14).toNat / 2 ^ count != 0 then some 2
  else if (ws.drop (2 + count)).any (fun w => w != 0) then some 2
  else if callInside 16 ((ws.drop 2).take count) then some 4
  else none

/-! ## Warp formation (R36 to R40) -/

/-- The order of ages: the stamp measured backwards from the counter, then the lower lane, then the lower slot (R36). -/
def ageOf (ctr stamp lane slot : Nat) : Nat :=
  let back := (ctr + 65536 - stamp % 65536) % 65536
  (65535 - back) * 1024 + lane * 32 + slot

/-- The age of a thread (R36). -/
def ageKey (ctr : Nat) (t : Thread) : Nat := ageOf ctr (t.stamp.getD ctr) t.lane t.slot

/-- Whether thread `x` took its stamp before thread `t` in one cycle: `t` finished a clause with YIELD set (R39). -/
def stampedBefore (t x : Thread) : Bool := t.late && !x.late && x.stamp == t.stamp && x.since == t.since

/-- The first of a list of threads in the order of ages. -/
def firstAge (ctr : Nat) : List (Nat × Thread) → Option (Nat × Thread)
  | [] => none
  | x :: xs =>
    match firstAge ctr xs with
    | none => some x
    | some y => if ageKey ctr x.2 ≤ ageKey ctr y.2 then some x else some y

/-- The oldest of a list of threads: no thread of the list took its stamp before it in one cycle (R36, R39). -/
def oldest (ctr : Nat) (l : List (Nat × Thread)) : Option (Nat × Thread) :=
  firstAge ctr (l.filter fun x => !(l.any fun y => stampedBefore x.2 y.2))

/-- A thread that is ready and has no stamp takes the quadrant's formation counter; one that is not ready has none (R36). -/
def State.stampOf (s : State) (uid : Nat) (t : Thread) : Thread :=
  if t.status != .boundary then t
  else if s.ready uid t then
    match t.stamp with
    | some _ => t
    | none => { t with stamp := some (SMap.getD s.formation 0 (quadKey t.core t.quad)), since := s.cycle }
  else { t with stamp := none }

/-- The threads of a quadrant that are ready take their stamps. -/
def State.stampQuad (s : State) (core quad : Nat) : State :=
  { s with threads := s.threads.map fun e => if e.2.core == core && e.2.quad == quad then (e.1, s.stampOf e.1 e.2) else e }

/-- The threads of a quadrant that are ready. -/
def State.readyIn (s : State) (core quad : Nat) : List (Nat × Thread) :=
  s.threads.filter fun e => e.2.core == core && e.2.quad == quad && s.ready e.1 e.2

/-- Whether a thread may join the warp of thread `t` (R37, R364). -/
def joins (t x : Thread) : Bool :=
  x.crew == t.crew && x.role == t.role && x.pc == t.pc && x.at_ == t.at_ && x.handler.isSome == t.handler.isSome

/-- The members of the warp of `t`, one for each lane, in ascending lane order (R37). -/
def formMembers (ctr : Nat) (t : Nat × Thread) (l : List (Nat × Thread)) : List (Nat × Thread) :=
  (List.range 32).filterMap fun lane =>
    if lane = t.2.lane then some t else oldest ctr (l.filter fun x => x.2.lane == lane && joins t.2 x.2)

/-- The warp slots of a quadrant in use. -/
def State.warpSlots (s : State) (core quad : Nat) : List Nat :=
  (s.warps.filter fun e => wkCore e.1 == core && wkQuad e.1 == quad).map fun e => e.1 % 4

/-- What a thread takes over when it starts a clause (R87, R403). -/
def Thread.startClause (t : Thread) : Thread :=
  { t with anom := t.anomNext.getD t.anom, anomNext := none, watch := t.watchNext.getD t.watch, watchNext := none }

/-- The trap of a thread whose clause fails the check (R310): onto an unresolved stub it came by a transfer or by falling
through (R291). -/
def clauseTrap (words : List Word) (t : Thread) (cause : Nat) : Trap :=
  if words.getD 0 0 == stubMark && !t.fellThrough then { num := 31 } else { num := 1, cause := cause }

/-- WARP_FORMATION (R37): the quadrant forms a warp; a clause that fails its check traps every member (R310, R291). -/
def execWarpFormation (core quad : Nat) (s0 : State) : Host.Outcome State Fault Refusal :=
  let k := quadKey core quad
  let ctr := SMap.getD s0.formation 0 k
  let used := s0.warpSlots core quad
  let s := s0.stampQuad core quad
  let l := s.readyIn core quad
  match (List.range 4).find? (fun i => !used.contains i), oldest ctr l with
  | some ws, some t =>
    let cid := ((SMap.get? s.crews t.2.crew).map (·.ctx)).getD 0
    match s.clauseFor core cid t.2.pc with
    | none => .refused (.cannotOccur "WARP_FORMATION")
    | some words =>
      let ms := formMembers ctr t l
      let s2 : State := { s with formation := SMap.setD s.formation 0 k ((ctr + 1) % 65536) }
      match (if t.2.at_ = 0 then clauseCheck words else none) with
      | some cause =>
        let m := ms.foldl (fun m e => m + 2 ^ e.2.lane) 0
        .next (ms.foldl (fun (s : State) e => s.trapStanding e.1 ws t.2.pc (words.getD 0 0) m { clauseTrap words e.2 cause with group := s2.trapGroup cid }) s2)
      | none =>
        let s3 := ms.foldl (fun (s : State) e => s.modThread e.1 fun t =>
          { (if t.at_ = 0 then t.startClause else t) with status := .inWarp, fellThrough := false }) s2
        let w : Warp := ⟨ms.map (·.1), t.2.pc, t.2.at_, words, cid, [], false, t.2.stamp.getD ctr, t.2.lane, t.2.slot⟩
        .next { s3 with warps := SMap.put s3.warps (k * 4 + ws) w }
  | _, _ => .refused (.cannotOccur "WARP_FORMATION")

/-! ## Register hazards (R329) -/

/-- Registers `n` from a 7-bit register field on. -/
def rr (v : BitVec 7) (n : Nat) : Nat × Nat := (v.toNat, n)
/-- A pair field of 4, 5 or 6 bits (R314). -/
def rp {k : Nat} (p : BitVec k) : Nat × Nat := (2 * p.toNat, 2)
/-- A register of a width: 1 or 2 registers. -/
def rw (wide : Bool) (v : BitVec 7) : Nat × Nat := (v.toNat, if wide then 2 else 1)
/-- d, a and b of one width. -/
def rdab (v : BitVec 2) (d a b : VReg) : List (Nat × Nat) := [rw (bit v 1) d, rw (bit v 1) a, rw (bit v 1) b]

/-- The 64-bit special registers (R328). -/
def wideSpecial (n : BitVec 7) : Bool := ([10, 16, 17, 19, 20] : List Nat).contains n.toNat

/-- The registers an instruction reads or writes, as window registers: first and count (R329). -/
def regUses : Instr → List (Nat × Nat)
  | .iadd f | .isub f | .imul f | .imulh f | .idiv f | .irem f | .imin f | .imax f => rdab f.v f.d f.a f.b
  | .and f | .or f | .xor f | .shl f | .shr f | .sar f => rdab f.v f.d f.a f.b
  | .fadd f | .fmul f | .fmin f | .fmax f => [rr f.d 1, rr f.a 1, rr f.b 1]
  | .frcp f | .frsq f | .fexp2 f | .flog2 f | .fsin f | .fcos f | .fclass f => [rr f.d 1, rr f.a 1]
  | .fadd2 f | .fmul2 f | .fdot2 f => [rr f.d 1, rr f.a 1, rr f.b 1]
  | .fcvt f => [rr f.d 1, rr f.a 1]
  | .quant f => [rr f.d 8, rr f.a 32, rr f.b 1]
  | .ffma f | .imad f => [rr f.d 1, rr f.a 1, rr f.b 1, (f.c.toNat, 1)]
  | .fma2 f => [rr f.d 1, rr f.a 1, rr f.b 1, (f.c.toNat, 1)]
  | .sel f => [rr f.d 1, rr f.a 1, rr f.b 1]
  | .bfi f => [rr f.d 1, rr f.a 1, rr f.b 1, (f.c.toNat, 1)]
  | .iaddi f | .andi f | .ori f | .xori f => [rr f.d 1, rr f.a 1]
  | .icmpi f => [rr f.a 1]
  | .movi f | .movhi f => [rr f.d 1]
  | .ld f | .st f => [rr f.d (if f.w == 4 then 4 else if f.w == 3 then 2 else 1), rp f.p]
  | .ldg f | .stx f => [rr f.d (if f.w == 4 then 4 else if f.w == 3 then 2 else 1), rp f.p, rr f.b 1]
  | .ldStrong f | .stStrong f => [rr f.d (if f.w == 4 then 4 else if f.w == 3 then 2 else 1), rp f.p]
  | .atom f => [rp f.p, (f.b.toNat, 4), (f.d.toNat, 2)]
  | .red f => [rp f.p, (f.b.toNat, 2)]
  | .bra _ => []
  | .call _ | .callf _ => [(124, 2)]
  | .brx a => [rr a 2]
  | .callx a | .callxF a => [rr a 2, (124, 2)]
  | .ret => [(124, 2), (0, 4)]
  | .exit | .eret | .yield | .trap _ | .brk | .regb | .rege | .ipref _ | .bbc _ => []
  | .shfl f => [rr f.d 1, rr f.a 1, rr f.b 1]
  | .rot f => [rr f.d 1, rr f.a 1, rr f.b 1]
  | .vote f => [rr f.d 1]
  | .redux f => [rr f.d 1, rr f.a 1]
  | .matchLane f => [rr f.d 1, rr f.a 1]
  | .matchLane64 f => [rr f.d 1, rr f.a 2]
  | .icmp f => [rw f.wide f.a, rw f.wide f.b]
  | .fcmp f => [rr f.a 1, rr f.b 1]
  | .pand _ | .por _ | .pxor _ | .pnot _ => []
  | .barinit f => [rp f.p]
  | .barinitLong f => [rp f.p]
  | .bararv f => [rp f.p]
  | .barexp f => [rp f.p, rr f.r 1]
  | .waitp f => [rp f.p]
  | .waitpReg f => [rp f.p, rr f.r 1]
  | .waitpLong f => [rp f.p]
  | .trywait f => [rp f.p, rr f.h 1] ++ (match f.n with | .imm _ => [] | .reg r => [rr r 1])
  | .crewbar => []
  | .gbar g => [rr g 1]
  | .meetarm _ _ | .meet _ => []
  | .monitor f => [rp f.p]
  | .mwait t => [rr t 1]
  | .fence _ | .fencex _ _ => []
  | .trig c v | .trigrst c v => [rr c 1, rr v 1]
  | .cpy f => [(f.n.toNat, 1), rp f.dp, rp f.sr, rp f.bar]
  | .cpyLong f => [rr f.n 1, rp f.dp, rp f.sr, rp f.barp]
  | .cpycv f => [rr f.n 1, rp f.dp, rp f.sr, rp f.barp]
  | .cpyt f => [rp f.p]
  | .cpya f | .ring f => [rp f.p, rr f.r 1, rr f.q 1]
  | .cpyaLong f | .ringLong f => [rp f.p, rr f.r 1, rr f.q 1]
  | .mma f => [rr f.r 1, rp f.p]
  | .acchk f => [rr f.r 1, rp f.p]
  | .accld f => [rp f.p]
  | .accst f => [rp f.p]
  | .accz _ => []
  | .colpost f => [rr f.r 1, rr f.q 2]
  | .colfire f => [rr f.r 1, rr f.q 1]
  | .mfs d n => [rw (wideSpecial n) d]
  | .mts n a => [rw (wideSpecial n) a]
  | .tagrd f | .tagwr f => [rr f.d 1, rr f.a 1]
  | .color f => [rr f.d 1, rr f.a 2, rr f.b 1]
  | .watch f => [rr f.a 2, rr f.b 1]
  | .inject f => [rr f.r 1, rr f.q 1]
  | .spawn f => [rr f.r 2, rr f.q 4]
  | .emit a _ => [rr a 4]
  | .cctl => []
  | .pref a => [rr a 2]
  | .wbase _ => []
  | .injectAcc f => [rr f.a 1, rr f.b 1]
  | .iabs f | .clz f | .popc f | .brev f | .mov f => [rw f.wide f.d, rw f.wide f.a]
  | .popcP d _ => [rr d 1]
  | .bfx f => [rr f.d 1, rr f.a 1, rr f.b 1]
  | .lea f => [rr f.d 2, rr f.a 2, rr f.b 1]
  | .fdot2E4m3 f => [rr f.d 1, rr f.a 1, rr f.b 1]
  | _ => []

/-- Instructions whose effect on memory, or on what another thread waits for, comes after the read step of the thread's
earlier loads: a load passes only earlier stores (R163), and a release orders every earlier access (R169) (log entry 30, DEDUCED). -/
def afterLoads (i : Instr) : Bool :=
  match i with
  | .st _ | .stx _ | .stStrong _ | .atom _ | .red _ => true
  | .callf _ | .callxF _ | .rege => true
  | .barinit _ | .barinitLong _ | .bararv _ | .barexp _ | .waitp _ | .waitpReg _ | .waitpLong _ | .trywait _ => true
  | .crewbar | .gbar _ | .meetarm _ _ | .meet _ | .monitor _ | .mwait _ | .fence _ | .fencex _ _ | .trig _ _ | .trigrst _ _ => true
  | .cpy _ | .cpyLong _ | .cpycv _ | .cpyt _ | .cpya _ | .cpyaLong _ | .ring _ | .ringLong _ => true
  | .mma _ | .accld _ | .accst _ | .accz _ | .acchk _ | .injectAcc _ | .colpost _ | .colfire _ => true
  | .color _ | .spawn _ | .emit _ _ | .cctl => true
  | _ => false

/-- Whether an active lane of the slot names a register that an outstanding operation of its thread will write, has a
record of its own that waits for its page (R237, R329), or has an earlier load that must read first (R163) (log entry 30, DEDUCED). -/
def State.hazard (s : State) (e : Env) (i : Instr) : Bool :=
  let uses := regUses i
  (s.active e).any fun u =>
    s.records.any (fun r => r.uid == u) || (afterLoads i && s.loads.any fun l => l.2.uid == u) ||
    match s.thread? u with
    | none => false
    | some t => s.writesDue u fun a => uses.any fun r => decide (t.wbase + r.1 ≤ a) && decide (a < t.wbase + r.1 + r.2)

/-! ## The issue of a slot -/

/-- The words of the warp's slot and of the slots after it, below COUNT (R312). -/
def Warp.slotWords (w : Warp) : List Word := (w.words.take (2 + w.count)).drop (2 + w.slot)

/-- What the slot at the issue port comes to. -/
inductive Issue where
  /-- no formed warp stands there -/
  | empty
  /-- the slot waits for a register (R329) or for an earlier load's read (R163), or its crew has stopped issue (R242,
  R247) -/
  | hold (s : State)
  /-- the word is no instruction: the active lanes have trapped -/
  | illegal (s : State)
  /-- the slot runs this instruction -/
  | run (i : Instr)
  deriving DecidableEq, Repr

/-- The cause of illegal-instruction for a slot that does not decode: major 31 is judged first by the stepping (R231,
R328) (log entry 32, DESIGN CHOICE). -/
def badCause (step : Nat) (w : Word) (d : DecodeError) : Nat :=
  if fld w 27 5 == (31 : BitVec 5) && step == 0xB0 then 3 else d.cause

/-- Judge the slot of warp `wk`, which is at the issue port. -/
def State.issue (s : State) : Issue :=
  match s.env? with
  | none => .empty
  | some e =>
    if !e.crew.runs then .hold { s with cur := none, stalled := e.wk :: s.stalled }
    else match decode e.w.slotWords with
    | .error d =>
      let tr : Trap := { num := 1, cause := badCause s.chip.step e.insn d }
      .illegal (s.runSlot e (sizeOf e.w.slotWords) {} fun s _ _ => .trap s tr)
    | .ok (i, _) =>
      if s.hazard e i then .hold { s with cur := none, stalled := e.wk :: s.stalled } else .run i

/-! ## Time -/

/-- The counters whose events the spec does not single out (R280): L2 hits and misses, bytes a stack moves, flits sent. -/
def trafficKeys : List Nat :=
  (List.range 4).flatMap (fun d => [cntDie d 0, cntDie d 1]) ++ (List.range 8).flatMap (fun k => [cntStack k 0, cntStack k 1]) ++
    (List.range 48).map fun p => cntPort p 0

/-- LATCH EVERY COUNTER (R281, R285): the shadows take the counters, the binning regions are written, and LATCHSEQ rises
twice. By how much the traffic counters have risen is free (log entry 26, DESIGN CHOICE). -/
def State.latch (s : State) (tick : Nat) : State :=
  let n := s.latchSeq
  let s := trafficKeys.foldl (fun (s : State) k => s.count k (Config.traffic n k).toNat) s
  let bins := s.ctxs.flatMap fun e => match e.2.binBase with
    | none => []
    | some b => (List.range 96).map fun i => (b + 0x100 + 48 * (i / 6) + 8 * (i % 6), SMap.getD e.2.bins 0 (8 * (i / 6) + i % 6))
  { s with
    shadows := s.counters, latchSeq := (s.latchSeq + 2) % 2 ^ 32, latchStamp := tick, triggerAt := none
    mem := bins.foldl (fun m x => writeCells m x.1 (toBytes 8 x.2)) s.mem }

/-- The trigger whose tick the passing of `ticks` would go beyond latches first (R281). -/
def State.latchDue (s : State) (ticks : Nat) : State :=
  match s.triggerAt with
  | some t => if t < s.timebase + ticks then s.latch t else s
  | none => s

/-- Cycles pass in which no quadrant issues (R249, R280, R283): the time base, the crews' LEFT, the timers of waits and
spawn bins, the watchdog counts of ready threads, and the quadrants' idle lanes (log entry 42, DESIGN CHOICE). -/
def State.passTime (s : State) (cycles ticks : Nat) : State :=
  let s := s.latchDue ticks
  let s : State := { s with threads := s.threads.map fun e => (e.1, s.stampOf e.1 e.2) }
  let cores := (s.chip.released ++ s.crews.map fun e => e.2.core).eraseDups
  let s0 := s
  let s := cores.foldl (fun (s : State) c => (List.range 4).foldl (fun (s : State) q =>
    (s.count (cntQuad (quadKey c q) 0) cycles).count (cntQuad (quadKey c q) 7) (32 * cycles)) s) s
  { s with
    cycle := s.cycle + cycles
    timebase := (s.timebase + ticks) % 2 ^ 64
    crews := s.crews.map fun e =>
      (e.1, if e.2.preempt == .requested then { e.2 with left := e.2.left - cycles, preempt := if e.2.left ≤ cycles then .forcing else .requested } else e.2)
    bins := s.bins.map fun e => (e.1, { e.2 with timer := e.2.timer - cycles })
    threads := s.threads.map fun e =>
      (e.1, { e.2 with
        timer := e.2.timer.map (· - cycles)
        wdog := if e.2.handler.isNone && s0.ready e.1 e.2 then e.2.wdog + cycles else e.2.wdog }) }

end Sys2Proof.Machine
end

