-- ==== Sys2Proof/Machine/Auto.lean ====
section
/-! DEFINITION. Which agent moves when the agenda is empty (log entry 1, DESIGN CHOICE): a quadrant with a warp that is not stalled, else the
first internal step that can happen, in a fixed order. -/

namespace Sys2Proof.Machine

/-- The age of a formed warp: its oldest member's (R38). -/
def State.warpAge (s : State) (wk : Nat) (w : Warp) : Nat := ageOf (SMap.getD s.formation 0 (wk / 4)) w.stamp w.lane0 w.slot0

/-- The oldest warp of a list. -/
def State.oldestWarp (s : State) : List (Nat × Warp) → Option Nat
  | [] => none
  | x :: xs =>
    match s.oldestWarp xs with
    | none => some x.1
    | some k => if s.warpAge x.1 x.2 ≤ s.warpAge k ((SMap.get? s.warps k).getD x.2) then some x.1 else some k

/-- The warp a quadrant issues from: the oldest whose next slot has not been found to wait (R38). -/
def State.pickWarp (s : State) (qk : Nat) : Option Nat :=
  s.oldestWarp (s.warps.filter fun e => e.1 / 4 == qk && !s.stalled.contains e.1)

/-- The quadrant that issues when nothing is named: the first with a warp not found to wait. -/
def State.pickQuad (s : State) : Option Nat := (s.warps.find? fun e => !s.stalled.contains e.1).map fun e => e.1 / 4

/-- Internal steps that may happen, in a fixed order. -/
def State.candidates (s : State) : List Instr :=
  let quads := (s.threads.map fun e => (e.2.core, e.2.quad)).eraseDups
  quads.map (fun q => Instr.warpFormation q.1 q.2) ++
  (s.threads.map fun e => Instr.icacheFill e.2.core (((SMap.get? s.crews e.2.crew).map (·.ctx)).getD 0) e.2.pc) ++
  (s.loads.map fun e => Instr.loadReturn e.1) ++
  (s.threads.map fun e => Instr.storeFifoDrain e.1) ++
  (s.corePoint.flatMap fun e => (List.range e.2.length).flatMap fun i => [Instr.corePointDrain e.1 i, Instr.remoteStorePerform e.1 i]) ++
  (s.diePoint.flatMap fun e => (List.range e.2.length).map fun i => Instr.diePointDrain e.1 i) ++
  ((List.range s.fabric.length).map fun i => Instr.fabricPointPerform i) ++
  (s.gatherQ.flatMap fun e => (List.range e.2.length).map fun i => Instr.gatherWritePerform e.1 i) ++
  (s.landing.flatMap fun e => (List.range e.2.length).map fun i => Instr.copyGlobalPerform e.1 i) ++
  (s.copies.flatMap fun e => ((List.range e.2.units).filter fun k => !e.2.landed.contains k).map fun k => Instr.copyLanding e.1 k) ++
  (s.copies.map fun e => Instr.copyComplete e.1) ++
  (s.tiles.map fun e => Instr.ringLanding e.1) ++
  (s.matQ.flatMap fun e => [Instr.matrixOpHead e.1, Instr.matrixOpComplete e.1]) ++
  (s.arrivals.map fun e => Instr.gangArrival e.1) ++
  (s.threads.flatMap fun e => [Instr.trapDelivery e.1, Instr.forkStart e.1, Instr.mwaitTimeout e.1, Instr.trywaitTimeout e.1, Instr.watchdogExpiry e.1]) ++
  (s.bins.flatMap fun e => [Instr.spawnBinTimer (e.1 / 64) (e.1 / 16 % 4) (e.1 % 16), Instr.spawnBinLaunch (e.1 / 64) (e.1 / 16 % 4) (e.1 % 16)]) ++
  (s.launches.map fun e => Instr.launchComplete e.1)

end Sys2Proof.Machine
end

