-- ==== Sys2Proof/Machine/Parlour.lean ====
section
/-! DEFINITION. The parlour of this device: what a chunk of a collective covers (R213), the terms of its results and
their landings (R222 to R226), the messages and the fabric clock (R218, R228), and the states of a posted collective
(R219, R220). -/

namespace Sys2Proof.Machine

/-! ## What a chunk covers (R213) -/

/-- Bytes of an element (R212). -/
def Posted.esz (p : Posted) : Nat := if p.ty = 1 then 2 else 4

/-- S: elements of a full chunk (R213). -/
def Posted.perChunk (p : Posted) : Nat := (p.count + p.chunks - 1) / p.chunks

/-- The SRC elements of a chunk. -/
def Posted.elems (p : Posted) (c : Nat) : List Nat :=
  let lo := min (c * p.perChunk) p.count
  (List.range (min ((c + 1) * p.perChunk) p.count - lo)).map (lo + ·)

/-- Elements of one block of a reduce-scatter (R213). -/
def Posted.block (p : Posted) : Nat := p.count / p.members.length

/-- Whether a chunk reads this member's SRC (R213, R217). -/
def Posted.readsSrc (p : Posted) (c : Nat) : Bool := !(p.elems c).isEmpty && (p.kind != 3 || p.rank == p.root)

/-- The DST elements of this member that depend on a chunk, with the mask of the ranks each needs (R213). -/
def Posted.needs (p : Posted) (c : Nat) : List (Nat × Nat) :=
  let all := 2 ^ p.members.length - 1
  match p.kind with
  | 0 => (p.elems c).map fun e => (e, all)
  | 1 => ((p.elems c).filter fun e => e / p.block == p.rank).map fun e => (e % p.block, all)
  | 2 => (List.range p.members.length).flatMap fun r => (p.elems c).map fun e => (r * p.count + e, 2 ^ r)
  | 3 => (p.elems c).map fun e => (e, 2 ^ p.root)
  | _ => if p.rank = p.root then (p.elems c).map fun e => (e, all) else []

/-- The DST elements that this member's own contribution enters: DST element and SRC element. -/
def Posted.own (p : Posted) (c : Nat) : List (Nat × Nat) :=
  match p.kind with
  | 0 => (p.elems c).map fun e => (e, e)
  | 1 => ((p.elems c).filter fun e => e / p.block == p.rank).map fun e => (e % p.block, e)
  | 2 => (p.elems c).map fun e => (p.rank * p.count + e, e)
  | _ => if p.rank = p.root then (p.elems c).map fun e => (e, e) else []

/-! ## Terms and results (R83, R225) -/

/-- m op s (R225): the bits, and whether the result is an infinity of finite terms or a NaN of terms that are none. -/
def Posted.combine (p : Posted) (m x : Nat) : Nat × Bool :=
  if p.ty = 2 then
    (match p.rop with
      | 0 => (m + x) % 2 ^ 32
      | o => (intOp (5 + o) 32 true m x).bits, false)
  else
    let f := if p.ty = 0 then fF32 else fBF16
    match p.rop with
    | 0 => let r := floatBin f 0 false m x; (r.1, r.2 != 0)
    | o => ((f.minmax false (o == 2) m x).1, false)

/-- Note the eartag of a contribution of a rank to a DST element: the lowest rank's A-tagged one is kept (R83). -/
def Posted.mark (p : Posted) (e rank : Nat) (g : Tag) : Posted :=
  if !isA g then p
  else
    let x := rank * 2 ^ 24 + g.toNat
    match SMap.get? p.marks e with
    | some y => if y / 2 ^ 24 ≤ rank then p else { p with marks := SMap.put p.marks e x }
    | none => { p with marks := SMap.put p.marks e x }

/-- Combine a run of terms into a DST element: the first is taken as it is (R225) (log entry 35, DEDUCED) (log entry 48, DEDUCED). -/
def Posted.addTerm (p : Posted) (e mask x : Nat) : Posted :=
  let t := SMap.getD p.terms 0 e
  let r := if t = 0 then (x, false) else p.combine (SMap.getD p.acc 0 e) x
  { p with
    acc := SMap.put p.acc e r.1
    terms := SMap.put p.terms e (t ||| mask)
    novf := if r.2 then (p.novf + 1) % 2 ^ 32 else p.novf
    fovf := if r.2 then min p.fovf e else p.fovf }

/-- The DST elements of a granule. -/
def Posted.granElems (p : Posted) (g : Nat) : List Nat := (List.range (16 / p.esz)).map (g * (16 / p.esz) + ·)

/-- The eartag of a DST granule (R83): the first A-tagged contribution, otherwise 0x00_0002. -/
def Posted.granTag (p : Posted) (g : Nat) : Tag :=
  match (p.granElems g).findSome? fun e => SMap.get? p.marks e with
  | some x => BitVec.ofNat 24 x
  | none => 2

/-- The bytes of a DST granule that have a result. -/
def Posted.granData (p : Posted) (g : Nat) : List (Option Byte) :=
  (p.granElems g).flatMap fun e =>
    if SMap.getD p.terms 0 e = 0 then List.replicate p.esz none else (toBytes p.esz (SMap.getD p.acc 0 e)).map some

/-- A DST granule joins the device's collective queue (R172, R226), in place of an earlier landing of the same granule
that has not reached the device point, with that one's place for FENCEX (R174). -/
def State.queueLanding (s : State) (i : Nat) (p : Posted) (g : Nat) : State :=
  let va := (p.dst + 16 * g) % 2 ^ 64
  let old (e : Nat × ColLand) : Bool := e.2.posted == i && e.2.ctx == p.ctx && e.2.va == va
  let x : ColLand := ⟨i, p.ctx, va, p.granData g, p.granTag g⟩
  match s.colQ.find? old with
  | some e => { s with colQ := SMap.put s.colQ e.1 x }
  | none => { s with colQ := SMap.put s.colQ s.nextStore x, nextStore := s.nextStore + 1 }

/-- The granules of DST elements. -/
def Posted.gransOf (p : Posted) (es : List Nat) : List Nat := (es.map fun e => e * p.esz / 16).eraseDups

/-! ## Sending a chunk (R217, R222) -/

/-- What reading SRC bytes comes to. -/
inductive SrcRead where
  | ok (bytes : List Byte) (tags : List Tag)
  | wait
  | poison

/-- Read granules of SRC at the device point (R172); a page it cannot read keeps the chunk waiting (log entry 18, DESIGN CHOICE) (log entry 48, DEDUCED). -/
def State.readSrc (s : State) (c : Context) : Nat → Nat → SrcRead
  | 0, _ => .ok [] []
  | n + 1, va =>
    match s.transDev c (va % 2 ^ 64) with
    | .hit h =>
      if !h.r then .wait
      else
        let tw := s.twAt h.loc h.tagAddr h.ptag
        if twPoison tw then .poison
        else match s.readSrc c n (va + 16) with
          | .ok bs ts => .ok (s.readLoc h.loc 16 ++ bs) (twTag tw :: ts)
          | r => r
    | _ => .wait

/-- Clear the flags of the COLFIREs that fired a chunk (R217). -/
def State.clearFires (s : State) (i c : Nat) : State :=
  match SMap.get? s.posted i with
  | none => s
  | some p =>
    let s : State := { s with posted := SMap.put s.posted i { p with fires := p.fires.filter fun f => f.1 != c } }
    (p.fires.filter fun f => f.1 == c).foldl (fun (s : State) f => s.opDone f.2) s

/-- A chunk takes a failure code, the code of its first cause (R227); its COLFIRE flags clear (R217). -/
def State.failChunk (s : State) (i c code : Nat) : State :=
  match SMap.get? s.posted i with
  | none => s
  | some p =>
    if (SMap.get? p.status c).isSome then s
    else ({ s with posted := SMap.put s.posted i { p with status := SMap.put p.status c code } } : State).clearFires i c

/-- A chunk fails on this member, and by its message on every other (R227). -/
def State.failHere (s : State) (i c code : Nat) : State :=
  match SMap.get? s.posted i with
  | none => s
  | some p => if (SMap.get? p.status c).isSome then s else (s.failChunk i c code).sendFail p c code

/-- Every chunk that has no status fails with a code (log entry 72, DEDUCED). -/
def State.failAllChunks (s : State) (i code : Nat) : State :=
  match SMap.get? s.posted i with
  | none => s
  | some p => (List.range p.chunks).foldl (fun (s : State) c => s.failChunk i c code) s

/-- The launches bound to an entry that has ended fire nothing more, for a later entry with its CID is another (R216);
they keep which chunks it had and which were fired, so that a repeat is still a misfire (R217) (log entry 34, DEDUCED). -/
def State.unbind (s : State) (p : Posted) : State :=
  { s with launches := s.launches.map fun e =>
      if e.2.ctx == p.ctx && e.2.cid == some p.cid then (e.1, { e.2 with cid := none, ended := some (p.cid, p.chunks, p.fired) }) else e }

/-- The whole entry fails without having run: posts that disagree, or a binding of the wrong shape (R216, R218) (log entry 34, DEDUCED). -/
def State.failEntry (s : State) (i code : Nat) : State :=
  let s := s.failAllChunks i code
  let s : State := { s with posted := SMap.mod s.posted i fun p => { p with state := .failed } }
  match SMap.get? s.posted i with
  | none => s
  | some p => s.unbind p

/-! ## Results in DST (R83, R224, R225) -/

/-- The tag word a collective result leaves: its eartag replaces the old one (R83). -/
def landedTw (whole : Bool) (g : Tag) (old : Word) : Word := b1 (!whole && twPoison old) ++ 0#1 ++ fld old 28 2 ++ fld old 24 4 ++ g

/-- A collective result reaches the device point: bytes, eartag, dirty bit and monitors in one step. -/
def State.performResult (s : State) (cid va : Nat) (h : Hit) (data : List (Option Byte)) (g : Tag) : State :=
  match h.loc, h.tagAddr with
  | .hbm _, some ta => (s.performMasked cid va h.loc data g none).setTagWord ta (landedTw (wholeGran data) g (s.tagWord ta))
  | _, _ => s.performMasked cid va h.loc data g h.tagAddr

/-- Whether base dies combine this collective's terms: kinds 0, 1 and 4 of two members or more (R223). -/
def Posted.reduces (p : Posted) : Bool := (p.kind == 0 || p.kind == 1 || p.kind == 4) && decide (2 ≤ p.members.length)

/-- Combine terms into a DST granule where it stands, tag word and bytes in one held step (R224, R225): the partial result
is what memory holds. `none` while the page does not take it. -/
def State.reduceGran (s : State) (i mask : Nat) (terms : List (Nat × Nat)) (g : Nat) : Option State :=
  match SMap.get? s.posted i with
  | none => some s
  | some p =>
    let va := (p.dst + 16 * g) % 2 ^ 64
    match (SMap.get? s.ctxs p.ctx).map fun c => s.transDev c va with
    | some (.hit h) =>
      if !h.w || !h.peerW || h.loc.isTable then none
      else
        let old := s.readLoc h.loc 16
        let here := terms.filter fun x => x.1 * p.esz / 16 == g
        let m (e : Nat) : Nat := ofBytes ((old.drop (e * p.esz % 16)).take p.esz)
        let p' := here.foldl (fun (p : Posted) x => ({ p with acc := SMap.put p.acc x.1 (m x.1) } : Posted).addTerm x.1 mask x.2) p
        let data := (p.granElems g).flatMap fun e =>
          if here.any fun x => x.1 == e then (toBytes p.esz (SMap.getD p'.acc 0 e)).map some else List.replicate p.esz none
        some (({ s with posted := SMap.put s.posted i p' } : State).performResult p.ctx va h data (p'.granTag g))
    | _ => none

/-- The same over several granules. -/
def State.reduceRun (s : State) (i mask : Nat) (terms : List (Nat × Nat)) : List Nat → Option State
  | [] => some s
  | g :: gs => (s.reduceGran i mask terms g).bind fun s => s.reduceRun i mask terms gs

/-- Read this member's SRC bytes of a fired chunk and enter its own contribution (R217, R222, R225): poisoned data fails
the chunk with code 4 (log entry 48, DEDUCED). -/
def State.sendChunk (s : State) (i c : Nat) : State :=
  match SMap.get? s.posted i with
  | none => s
  | some p =>
    if p.state != .running || !p.fired.contains c || p.srcRead.contains c || (SMap.get? p.status c).isSome || !p.readsSrc c then s
    else
      match SMap.get? s.ctxs p.ctx, p.elems c with
      | some cx, e0 :: _ =>
        let a := p.src + p.esz * e0
        let len := p.esz * (p.elems c).length
        match s.readSrc cx ((a % 16 + len + 15) / 16) (a / 16 * 16) with
        | .wait => s
        | .poison => s.failHere i c 4
        | .ok bs ts =>
          let bits (e : Nat) : Nat := ofBytes ((bs.drop (a % 16 + p.esz * (e - e0))).take p.esz)
          let tag (e : Nat) : Tag := ts.getD ((a % 16 + p.esz * (e - e0)) / 16) 0
          let p1 := (p.own c).foldl (fun (p : Posted) x => p.mark x.1 p.rank (tag x.2)) { p with srcRead := p.srcRead ++ [c] }
          let terms := (p.own c).map fun x => (x.1, bits x.2)
          if p.reduces then
            match ({ s with posted := SMap.put s.posted i p1 } : State).reduceRun i (2 ^ p.rank) terms (p.gransOf (terms.map (·.1))) with
            | some s' => s'.clearFires i c
            | none => s
          else
            let p' := terms.foldl (fun (p : Posted) x => p.addTerm x.1 (2 ^ p.rank) x.2) p1
            let s : State := { s with posted := SMap.put s.posted i p' }
            ((p'.gransOf (terms.map (·.1))).foldl (fun (s : State) g => s.queueLanding i p' g) s).clearFires i c
      | _, _ => s

/-- Send every fired chunk that has not been read (R220). -/
def State.sendFired (s : State) (i : Nat) : State :=
  match SMap.get? s.posted i with
  | none => s
  | some p => p.fired.foldl (fun (s : State) c => s.sendChunk i c) s

/-- FIRE A CHUNK (R217): the fire is recorded in the entry, and a Running entry sends the chunk. `op` is a COLFIRE's
operation; its flag clears at once when the chunk never reads this member's SRC or has failed. -/
def State.fireChunk (s : State) (i c : Nat) (op : Option Nat) : State :=
  match SMap.get? s.posted i with
  | none => s
  | some p =>
    let waits := p.readsSrc c && (SMap.get? p.status c).isNone
    let p' := { p with
      fired := p.fired ++ [c]
      fires := if waits then p.fires ++ (op.map fun o => (c, o)).toList else p.fires }
    let s : State := { s with posted := SMap.put s.posted i p' }
    let s := if waits then s else match op with
      | some o => s.opDone o
      | none => s
    s.sendChunk i c

/-! ## Messages and the fabric clock (R218, R228) -/

/-- The coordinator of a group (R211) (log entry 72, DEDUCED). -/
def coordinator (members : List Nat) : Nat := members.getD 0 0

/-- The live entry of a context with a CID: one that has not failed (R220). -/
def State.colEntry (s : State) (ctx cid : Nat) : Option (Nat × Posted) :=
  s.posted.find? fun e => e.2.ctx == ctx && e.2.cid == cid && e.2.state != .failed

/-- The coordinator's state for a group that has not been sent GO. -/
def State.coordOf (s : State) (ctx cid : Nat) : Option (Nat × Coord) := s.coords.find? fun e => e.2.ctx == ctx && e.2.cid == cid

/-- Change the coordinator's state for a group. -/
def State.modCoord (s : State) (ctx cid : Nat) (f : Coord → Coord) : State :=
  match s.coordOf ctx cid with
  | none => s
  | some (k, c) => { s with coords := SMap.put s.coords k (f c) }

/-- The coordinator is done with a group: GO is sent, or its posts disagreed (R218, R220). -/
def State.endCoord (s : State) (ctx cid : Nat) : State :=
  match s.coordOf ctx cid with
  | none => s
  | some (k, _) => { s with coords := SMap.del s.coords k }

/-! ## Demand (R219) -/

/-- The stack that holds a physical HBM address (R24). -/
def stackOf (pa : Nat) : Nat := 2 * nfld pa 38 2 + nfld pa 8 1

/-- Bytes of DST of this member (R213). -/
def Posted.dstBytes (p : Posted) : Nat :=
  p.esz * (match p.kind with
    | 1 => p.block
    | 2 => p.count * p.members.length
    | 4 => if p.rank = p.root then p.count else 0
    | _ => p.count)

/-- The stacks that home the part of a range inside one 64 KiB unit of virtual addresses. -/
def State.unitStacks (s : State) (c : Context) (lo hi : Nat) : List Nat :=
  match s.transDev c lo with
  | .hit h => match h.loc with
    | .hbm a => if a / 256 = (a + (hi - lo) - 1) / 256 then [stackOf a] else [stackOf a, stackOf (a / 256 * 256 + 256)]
    | _ => []
  | _ => []

/-- The stacks that home part of DST, for the kinds that reduce (R219). -/
def State.dstStacks (s : State) (p : Posted) : List Nat :=
  if p.kind = 2 || p.kind = 3 || p.dstBytes = 0 then []
  else match SMap.get? s.ctxs p.ctx with
    | none => []
    | some c =>
      let first := p.dst / 65536
      ((List.range ((p.dst + p.dstBytes - 1) / 65536 - first + 1)).flatMap fun k =>
        let u := (first + k) * 65536
        s.unitStacks c (max p.dst u) (min (p.dst + p.dstBytes) (u + 65536))).eraseDups

/-- The ports a collective's routes use at this device. -/
def Posted.portsUsed (p : Posted) : List Nat := (p.routes.flatMap (·.ports)).eraseDups

/-- Whether an entry holds its demand (R219, R220). -/
def Posted.holds (p : Posted) : Bool := p.state == .started || p.state == .withdrawing || p.state == .running

/-- The entries that hold their demand. -/
def State.holders (s : State) : List Posted := (s.posted.map (·.2)).filter Posted.holds

/-- Whether the start slots are all taken. -/
def State.slotShort (s : State) : Bool := decide (s.chip.capacity < s.holders.length + 1)
/-- Whether the reduce slots of a stack are all taken. -/
def State.stackShort (s : State) (k : Nat) : Bool := decide (8 < (s.holders.filter fun p => p.onStacks.contains k).length + 1)
/-- Whether the credit groups of a port are all taken. -/
def State.portShort (s : State) (k : Nat) : Bool := decide (16 < (s.holders.filter fun p => p.portsUsed.contains k).length + 1)
/-- Whether staging is too full for an entry. -/
def State.stagingShort (s : State) (p : Posted) : Bool :=
  decide (64 < s.holders.foldl (fun n y => n + 2 * y.routes.length) (2 * p.routes.length))

/-- Whether an entry's demand is free (log entry 59, DESIGN CHOICE). -/
def State.demandFree (s : State) (p : Posted) (onStacks : List Nat) : Bool :=
  !s.slotShort && !(onStacks.any s.stackShort) && !(p.portsUsed.any s.portShort) && !(s.stagingShort p)

/-- Whether an entry holds something that another's demand is short of. -/
def State.blocksDemand (s : State) (p : Posted) (onStacks : List Nat) (y : Posted) : Bool :=
  s.slotShort || onStacks.any (fun k => s.stackShort k && y.onStacks.contains k) ||
    p.portsUsed.any (fun k => s.portShort k && y.portsUsed.contains k) || (s.stagingShort p && !y.routes.isEmpty)

/-- Whether a demand exceeds the device's totals (R215, R219). -/
def State.demandTooBig (s : State) (p : Posted) : Bool := decide (s.chip.capacity < 1) || decide (64 < 2 * p.routes.length)

/-! ## The states of an entry (R220) -/

/-- An entry's withdrawal is acknowledged: it releases its demand and is Held (R229). -/
def State.recvAck (s : State) (i : Nat) : State :=
  { s with posted := SMap.mod s.posted i fun p => if p.state == .withdrawing then { p with state := .held, onStacks := [] } else p }

/-- The coordinator receives WITHDRAW from a member (R220, R229): before GO it cancels the member's READY and
acknowledges; after GO it is void. -/
def State.recvWithdraw (s : State) (ctx cid rank : Nat) : State :=
  match s.coordOf ctx cid with
  | none => s
  | some (_, c) =>
    let s := s.modCoord ctx cid fun c => { c with readys := c.readys.filter (· != rank) }
    let d := c.members.getD rank 0
    if d = s.chip.dev then
      match s.colEntry ctx cid with
      | some (i, _) => s.recvAck i
      | none => s
    else s.send d 5 cid []

/-- A Started entry withdraws (R220). -/
def State.withdrawEntry (s : State) (i : Nat) (p : Posted) : State :=
  let s : State := { s with posted := SMap.put s.posted i { p with state := .withdrawing } }
  if coordinator p.members = s.chip.dev then s.recvWithdraw p.ctx p.cid p.rank
  else s.send (coordinator p.members) 4 p.cid [p.rank]

/-- The lowest-ranked held ticket (R218, R220). -/
def State.lowestHeld (s : State) : Option (Nat × Posted) :=
  (s.posted.filter fun e => e.2.state == .held).foldl (fun b e =>
    match b with
    | none => some e
    | some x => if (e.2.ticket.getD 0) < (x.2.ticket.getD 0) then some e else some x) none

/-- Started entries of higher rank that keep the lowest held ticket from its demand withdraw (R220). -/
def State.yieldHigher (s : State) : State :=
  match s.lowestHeld with
  | none => s
  | some (_, p) =>
    let st := s.dstStacks p
    (s.posted.filter fun e => e.2.state == .started && decide ((p.ticket.getD 0) < (e.2.ticket.getD 0))).foldl (fun (s : State) e =>
      if !(s.demandFree p st) && s.blocksDemand p st e.2 then s.withdrawEntry e.1 e.2 else s) s

/-- A ticket arrives (R220). -/
def State.recvTicket (s : State) (i v : Nat) : State :=
  ({ s with posted := SMap.mod s.posted i fun p => if p.state == .posted then { p with state := .held, ticket := some v } else p } : State).yieldHigher

/-- The weight of a route: the smallest trained width of its links, here and, `far`, at the other devices (R222); a down
link makes it 0 (log entry 59, DESIGN CHOICE). -/
def Chip.weight (c : Chip) (r : Route) (far : Nat) : Nat :=
  match r.ports.map fun k => if c.linkFailed.contains k then 0 else c.width.getD k 0 with
  | [] => 0
  | w :: ws => min far (ws.foldl min w)

/-- The weights of a posted collective's routes. -/
def State.weightsOf (s : State) (p : Posted) : List Nat :=
  let far := (((SMap.get? s.ctxs p.ctx).bind fun c => SMap.get? c.comms p.comm).map (·.far)).getD []
  p.routes.zipIdx.map fun x => s.chip.weight x.1 (far.getD x.2 4)

/-- GO arrives (R220, R222): the entry is Running and sends its fired chunks; with every route down in a group of two or
more every chunk fails with code 3. -/
def State.recvGo (s : State) (i : Nat) : State :=
  match SMap.get? s.posted i with
  | none => s
  | some p =>
    if p.state == .started || p.state == .withdrawing then
      let ws := s.weightsOf p
      let s : State := { s with posted := SMap.put s.posted i { p with state := .running, weights := ws } }
      if 2 ≤ p.members.length && ws.all (· == 0) then (List.range p.chunks).foldl (fun (s : State) c => s.failHere i c 3) s else s.sendFired i
    else s

/-- The coordinator receives READY (R220): it sends GO once it holds READY from every member. -/
def State.recvReady (s : State) (ctx cid rank : Nat) : State :=
  let s := s.modCoord ctx cid fun c => { c with readys := if c.readys.contains rank then c.readys else c.readys ++ [rank] }
  match s.coordOf ctx cid with
  | none => s
  | some (_, c) =>
    if c.readys.length < c.members.length then s
    else
      let s := (s.endCoord ctx cid).sendOthers c.members 3 cid []
      match s.colEntry ctx cid with
      | some (i, _) => s.recvGo i
      | none => s

/-- An entry reserves its whole demand, goes Started and sends READY (R220). -/
def State.startEntry (s : State) (i : Nat) (p : Posted) : State :=
  let s : State := { s with posted := SMap.put s.posted i { p with state := .started, onStacks := s.dstStacks p } }
  if coordinator p.members = s.chip.dev then s.recvReady p.ctx p.cid p.rank
  else s.send (coordinator p.members) 2 p.cid [p.rank]

/-- The coordinator has every member's post (R218): it issues the ticket, or fails every chunk with code 5 when the
posts disagree. -/
def State.allPosted (s : State) (ctx cid : Nat) (c : Coord) : State :=
  let agree : Bool := match c.posts with
    | [] => true
    | x :: xs => xs.all fun y => y.2 == x.2
  if !agree then
    let s := (s.endCoord ctx cid).sendOthers c.members 6 cid [5]
    match s.colEntry ctx cid with
    | some (i, _) => s.failEntry i 5
    | none => s
  else
    let s := s.tick
    let v := s.chip.clock * 2 ^ 16 + s.chip.dev
    let s := s.count (cntIod 0) 1
    let s := (s.modCoord ctx cid fun c => { c with ticket := some v }).sendOthers c.members 1 cid [v]
    match s.colEntry ctx cid with
    | some (i, _) => s.recvTicket i v
    | none => s

/-- The coordinator receives a post (R218) (log entry 72, DEDUCED). -/
def State.recvPost (s : State) (ctx cid rank : Nat) (members fields : List Nat) : State :=
  let s : State := match s.coordOf ctx cid with
    | some _ => s
    | none => { s with coords := SMap.put s.coords (SMap.fresh s.coords) ⟨ctx, cid, members, [], none, []⟩ }
  let s := s.modCoord ctx cid fun c => { c with posts := c.posts ++ [(rank, fields)] }
  match s.coordOf ctx cid with
  | none => s
  | some (_, c) => if c.posts.length < c.members.length then s else s.allPosted ctx cid c

/-! ## Posting (R212, R215) -/

/-- A descriptor (R212), parsed. -/
structure ColDesc where
  cid : Nat
  comm : Nat
  kind : Nat
  rop : Nat
  ty : Nat
  src : Nat
  dst : Nat
  res : Nat
  count : Nat
  chunks : Nat
  fireall : Bool
  root : Nat
  reserved : Bool                        -- a reserved field is non-zero
  deriving DecidableEq, Repr

/-- Parse the 64 bytes of a descriptor (R212). -/
def parseCol (bs : List Byte) : ColDesc :=
  let w (o n : Nat) : Nat := ofBytes ((bs.drop o).take n)
  let a := w 0x04 4
  let b := w 0x28 4
  { cid := w 0 4, comm := nfld a 16 8, kind := nfld a 8 4, rop := nfld a 4 2, ty := nfld a 0 2
    src := w 0x08 8, dst := w 0x10 8, res := w 0x18 8, count := w 0x20 4, chunks := w 0x24 4
    fireall := b.testBit 16, root := nfld b 0 16
    reserved := nfld a 24 8 != 0 || nfld a 12 4 != 0 || nfld a 6 2 != 0 || nfld a 2 2 != 0 || nfld b 17 15 != 0 || w 0x2C 20 != 0 }

/-- Whether a descriptor breaks a rule that needs no communicator (R212, R215). -/
def ColDesc.bad (d : ColDesc) : Bool :=
  d.reserved || d.cid == 0 || decide (63 < d.comm) || decide (4 < d.kind) || d.rop == 3 || d.ty == 3 ||
    ((d.kind == 2 || d.kind == 3) && d.rop != 0) || d.src % 16 != 0 || d.dst % 16 != 0 || d.res % 16 != 0 ||
    d.count == 0 || decide (2 ^ 30 < d.count) || d.chunks == 0 || decide (65536 < d.chunks) ||
    (d.kind != 3 && d.kind != 4 && d.root != 0)

/-- The entry a descriptor makes. -/
def ColDesc.entry (d : ColDesc) (ctx : Nat) (c : Comm) (rank : Nat) (iss : Issuer) (bound : Bool) : Posted where
  ctx := ctx
  cid := d.cid
  comm := d.comm
  kind := d.kind
  rop := d.rop
  ty := d.ty
  src := d.src
  dst := d.dst
  res := d.res
  count := d.count
  chunks := d.chunks
  root := d.root
  members := c.members
  rank := rank
  routes := c.routes
  state := .posted
  ticket := none
  fired := []
  status := []
  written := []
  srcRead := []
  heard := []
  acc := []
  terms := []
  marks := []
  novf := 0
  fovf := 0xFFFFFFFF
  weights := []
  onStacks := []
  op := 0
  number := 0
  dsts := []
  fires := []
  iss := iss
  bound := bound

/-- The tests of R215 in its order: the REASON of a refused post, or the entry. -/
def State.postCheck (s : State) (ctx : Nat) (d : ColDesc) (iss : Issuer) (bound : Bool) : Except Nat Posted :=
  let comm := (SMap.get? s.ctxs ctx).bind fun c => SMap.get? c.comms d.comm
  let ragged : Bool := match comm with
    | some c => d.kind == 1 && d.count % c.members.length != 0
    | none => false
  if d.bad || ragged then .error 2
  else if (s.colEntry ctx d.cid).isSome then .error 3
  else
    match comm with
    | none => .error 4
    | some c =>
      if !c.members.contains s.chip.dev then .error 4
      else if (d.kind == 3 || d.kind == 4) && decide (c.members.length ≤ d.root) then .error 2
      else
        let p := d.entry ctx c (c.members.idxOf s.chip.dev) iss bound
        if s.demandTooBig p then .error 5
        else if 256 ≤ s.posted.length then .error 1
        else .ok p

/-- Take an entry and send the post to the coordinator (R215, R228). -/
def State.postEntry (s : State) (p : Posted) (fireall : Bool) : State :=
  let i := SMap.fresh s.posted
  let s : State := { s with posted := SMap.put s.posted i p }
  let s := if fireall then (List.range p.chunks).foldl (fun (s : State) c => s.fireChunk i c none) s else s
  let fields := [p.comm, p.kind, p.rop, p.ty, p.count, p.chunks, p.root]
  if coordinator p.members = s.chip.dev then s.recvPost p.ctx p.cid p.rank p.members fields
  else s.send (coordinator p.members) 0 p.cid (p.rank :: fields)

end Sys2Proof.Machine
end

