-- ==== Sys2Proof/Machine/Life.lean ====
section
/-! DEFINITION. Lives of threads and crews: thread slots (R19, R22), meets (R43 to R45), the crew barrier (R183), the end
of a thread (R365) and of a crew (R46, R217). -/

namespace Sys2Proof.Machine

/-! ## Thread slots (R19, R22, R138) -/

/-- The threads that hold a slot of a lane. -/
def State.laneThreads (s : State) (core quad lane : Nat) : List Thread :=
  (s.threads.filter fun e => e.2.core == core && e.2.quad == quad && e.2.lane == lane && e.2.resident).map (·.2)

/-- Whether registers [r, r + n) of a lane are free. -/
def regsFree (l : List Thread) (r n : Nat) : Bool :=
  decide (r + n ≤ 2048) && l.all fun t => decide (r + n ≤ t.rbase) || decide (t.rbase + t.allot ≤ r)

/-- The lowest free thread slot and register base of a lane with room for an allotment (R22, log entry 14, DESIGN CHOICE). -/
def State.roomIn (s : State) (core quad lane allot : Nat) : Option (Nat × Nat) :=
  let l := s.laneThreads core quad lane
  match (List.range 16).find? (fun i => !(l.any fun t => t.slot == i)), ((List.range 64).map (32 * ·)).find? (fun r => regsFree l r allot) with
  | some i, some r => some (i, r)
  | _, _ => none

/-- The start state of a thread (R34), as data; its registers are zeroed by `startRegs`. -/
def freshThread (crew role tid core quad lane slot rbase allot anom pc : Nat) : Thread where
  crew := crew
  role := role
  tid := tid
  core := core
  quad := quad
  lane := lane
  slot := slot
  rbase := rbase
  allot := allot
  spawned := false
  callee := none
  forkSite := (0, 0)
  preds := 0
  meets := [none, none, none, none]
  wbase := 0
  anom := anom
  anomNext := none
  watch := [Watch.zero, Watch.zero]
  watchNext := none
  lastf := false
  refuse := 0
  nest := 0
  inherited := 0
  levels := []
  region := none
  pc := pc
  at_ := 0
  fellThrough := false
  status := .boundary
  stamp := none
  since := 0
  late := false
  wait := none
  timer := none
  timedOut := false
  handler := none
  block := 0
  monitor := none
  wdog := 0
  wdogHit := false
  held := none
  retSite := none
  retTarget := 0
  bndTraps := []
  fifo := []

/-- A thread's registers at start: the given ones, the others 0 with eartag 0 (R34). -/
def State.startRegs (s : State) (t : Thread) (rs : List Reg) : State :=
  s.wrs t 0 (rs.take t.allot ++ List.replicate (t.allot - rs.length) Reg.zero)

/-- The least thread number not in use. -/
def State.addThread (s : State) (t : Thread) : State × Nat :=
  ({ s with threads := SMap.put s.threads s.nextUid t, nextUid := s.nextUid + 1 }, s.nextUid)

/-! ## Meets (R43 to R45) -/

/-- The phase of a meet passes when every armed thread has arrived: the parked threads wake, every meet register armed
on the token is disarmed, and the object is free (R44). -/
def State.meetTest (s : State) (crew token : Nat) : State :=
  match SMap.get? s.crews crew with
  | none => s
  | some c =>
    match c.meets.find? (fun m => m.token == token) with
    | none => s
    | some m =>
      if m.armed.isEmpty then { s with crews := SMap.put s.crews crew { c with meets := c.meets.filter fun x => x.token != token } }
      else if m.arrived.length == m.armed.length then
        { s with
          crews := SMap.put s.crews crew { c with meets := c.meets.filter fun x => x.token != token }
          threads := s.threads.map fun e =>
            if e.2.crew == crew then
              (e.1, { e.2 with
                meets := e.2.meets.map fun x => if x == some token then none else x
                wait := if m.arrived.contains e.1 then some .woken else e.2.wait })
            else e }
      else s

/-- Change the meet object of a token. -/
def State.modMeet (s : State) (crew token : Nat) (f : MeetObj → MeetObj) : State :=
  { s with crews := SMap.mod s.crews crew fun c => { c with meets := c.meets.map fun m => if m.token == token then f m else m } }

/-- A thread leaves a meet object, as by an exit (R43, R44). -/
def State.meetLeave (s : State) (crew uid token : Nat) : State :=
  (s.modMeet crew token fun m => { m with armed := m.armed.filter (· != uid), arrived := m.arrived.filter (· != uid) }).meetTest crew token

/-- Attach a meet register to the object of a token (R43); `none` when it is the 65th live token of the crew. A
register already armed first leaves its old object, unless another register of the thread is armed on the same token
(log entry 15, DEDUCED). -/
def State.meetArm (s : State) (uid m token : Nat) : Option State :=
  match s.thread? uid with
  | none => some s
  | some t =>
    let others := (t.meets.zipIdx.filter fun x => x.2 != m).filterMap (·.1)
    let s1 := match t.meets.getD m none with
      | none => s
      | some old =>
        if others.contains old then s
        else (s.modThread uid fun t => { t with meets := t.meets.set m none }).meetLeave t.crew uid old
    match SMap.get? s1.crews t.crew with
    | none => some s
    | some c =>
      let have_ := c.meets.any fun x => x.token == token
      if !have_ && decide (64 ≤ c.meets.length) then none
      else
        let s2 : State := if have_ then s1 else
          { s1 with crews := SMap.put s1.crews t.crew { c with meets := c.meets ++ [⟨token, [], [], 0⟩] } }
        let s3 := s2.modMeet t.crew token fun x => if x.armed.contains uid then x else { x with armed := x.armed ++ [uid] }
        some (s3.modThread uid fun t => { t with meets := t.meets.set m (some token) })

/-! ## The crew barrier (R183, R184) -/

/-- The threads the crew barrier expects: launched, not exited (R183). -/
def State.barExpected (s : State) (crew : Nat) : List Nat :=
  ((s.crewThreads crew).filter fun e => !e.2.spawned && e.2.callee.isNone && e.2.status != .draining).map (·.1)

/-- The crew barrier's phase completes when every expected thread has arrived. CREWBAR's threads go on; GBAR's wait on
the gang object, and the crew's one arrival at it is on its way (R184); where position 0's crew is gone they wait on. -/
def State.crewBarTest (s : State) (crew : Nat) : State :=
  match SMap.get? s.crews crew with
  | none => s
  | some c =>
    let ex := s.barExpected crew
    if c.barArrived.isEmpty || !(ex.all c.barArrived.contains) then s
    else
      let c' := { c with barPhase := (c.barPhase + 1) % 2 ^ 32, barArrived := [], barGang := none }
      match c.barGang with
      | none => { s with crews := SMap.put s.crews crew c' }
      | some g =>
        match s.gangObj c.launch g with
        | none =>
          { s with
            crews := SMap.put s.crews crew { c' with gangWait := some (g, 0) }
            threads := s.threads.map fun e =>
              if e.2.crew == crew && e.2.wait == some (.crewBar c.barPhase) then (e.1, { e.2 with wait := some (.gang g 0) }) else e }
        | some (core, b) =>
          let n := (s.barAt core b).phase
          { s with
            crews := SMap.put s.crews crew { c' with gangWait := some (g, n) }
            threads := s.threads.map fun e =>
              if e.2.crew == crew && e.2.wait == some (.crewBar c.barPhase) then (e.1, { e.2 with wait := some (.gang g n) }) else e
            arrivals := SMap.put s.arrivals s.nextArrival ⟨c.launch, g, crew, .scr core b⟩
            nextArrival := s.nextArrival + 1 }

/-- An exit leaves the current and every later phase of the crew barrier (R183). -/
def State.crewBarLeave (s : State) (crew uid : Nat) : State :=
  ({ s with crews := SMap.mod s.crews crew fun c => { c with barArrived := c.barArrived.filter (· != uid) } }).crewBarTest crew

/-! ## The end of a crew (R46, R217) -/

/-- The chunk a crew of a bound launch fires (R48). -/
def Launch.chunkOf (l : Launch) (ord : Nat) : Nat :=
  l.cbase + (ord % l.gx) * l.cx + (ord / l.gx % l.gy) * l.cy + (ord / l.gx / l.gy) * l.cz

/-- A fire that does nothing: a chunk past CHUNKS, or one that was fired before, with the STATUS of its type 8 entry (R217). -/
def misfire (chunks : Nat) (fired : List Nat) (chunk : Nat) : Option Nat :=
  if chunks ≤ chunk then some 2 else if fired.contains chunk then some 1 else none

/-- Log a crew's misfire (R217, R253). -/
def State.logMisfire (s : State) (c : Crew) (status cid chunk : Nat) : State :=
  let no := match SMap.get? s.ctxs c.ctx with
    | some x => s.coreNumber x c.core
    | none => c.core
  s.log c.ctx 8 status 0 (cid * 2 ^ 32 + chunk) (logWhere no 0 0 0 c.ord)

/-- A crew's completion fires its chunk (R217); a bound collective that has ended has no chunk left to fire, and a repeat
of a chunk that was fired stays a misfire (log entry 34, DEDUCED). -/
def State.crewFire (s : State) (c : Crew) (l : Launch) : State :=
  let chunk := l.chunkOf c.ord
  match l.cid, l.ended with
  | some cid, _ =>
    match s.colEntry c.ctx cid with
    | none => s
    | some (i, p) =>
      match misfire p.chunks p.fired chunk with
      | some st => s.logMisfire c st cid chunk
      | none => s.fireChunk i chunk none
  | none, some (cid, chunks, fired) =>
    match misfire chunks fired chunk with
    | some st => s.logMisfire c st cid chunk
    | none => { s with launches := SMap.mod s.launches c.launch fun l => { l with ended := some (cid, chunks, fired ++ [chunk]) } }
  | none, none => s

/-- Whether every thread of a crew has exited and its work has finished (R46, R144, R365). -/
def State.crewDone (s : State) (crew : Nat) : Bool :=
  (s.crewThreads crew).isEmpty &&
  !(s.copies.any fun e => e.2.iss.crew == crew) && !(s.tiles.any fun e => e.2.iss.crew == crew && !e.2.staged) &&
  !(s.armed.any fun e => e.2.any fun a => a.due && a.copy.iss.crew == crew) && (s.ringsOf crew).isEmpty &&
  !(s.matQ.any fun q => q.2.any fun m => m.iss.crew == crew) &&
  !(s.posted.any fun p => p.2.iss.crew == crew && !p.2.dsts.isEmpty) &&
  (s.spawnRecs crew).isEmpty && !(s.arrivals.any fun a => a.2.crew == crew)

/-- Complete a crew: it fires its chunk, its armed copies that have not fired are logged as failed, and its core has
room again; a member of a co-resident gang stays resident until the last member's last exit (R55). -/
def State.finishCrew (s : State) (crew : Nat) (c : Crew) : State :=
  match SMap.get? s.launches c.launch with
  | none => s
  | some l =>
    let s := s.crewFire c l
    let arm := s.armed.flatMap fun e => e.2.filter fun a => a.copy.iss.crew == crew
    let s := arm.foldl (fun (s : State) a => s.log c.ctx 2 2 0 (a.copy.dst % 2 ^ 64) (s.whereOf a.copy.iss)) s
    ({ s with
      armed := s.armed.map fun e => (e.1, e.2.filter fun a => a.copy.iss.crew != crew)
      crews := SMap.mod s.crews crew fun c => { c with finished := true }
      launches := SMap.mod s.launches c.launch fun l => { l with done := c.ord :: l.done } } : State).freeFinished

/-- Whether stores of a crew to members' scratchpads have not been performed (R170): at the core point, or in the FIFO of
a thread of it, one that has ended among them. -/
def State.crewRemote (s : State) (crew core : Nat) : Bool :=
  ((s.storesOf (SMap.getD s.corePoint [] core)).any fun x => x.crew == crew && x.loc.isScr) ||
    (s.crewThreads crew).any fun e => (s.storesOf e.2.fifo).any fun x => x.loc.isScr

/-- Complete a crew when it is done and the device-scope release of its completion is over (R169, R217): the release
places its marker when the crew is done. -/
def State.settleCrew (s : State) (crew : Nat) : State :=
  match SMap.get? s.crews crew with
  | none => s
  | some c =>
    if c.placed && !c.finished && c.saved.isNone && s.crewDone crew && !(s.crewRemote crew c.core) then
      match c.release with
      | some seq => if s.markerDone c.core 0 4 seq then (s.dropMarker c.core seq).finishCrew crew c else s
      | none =>
        let seq := s.nextStore
        if s.markerDone c.core 0 4 seq then s.finishCrew crew c
        else { s with
          nextStore := seq + 1, markers := SMap.put s.markers c.core (SMap.getD s.markers [] c.core ++ [seq])
          crews := SMap.put s.crews crew { c with release := some seq } }
    else s

/-- Settle every crew of a core: its entries have moved. -/
def State.settleCore (s : State) (core : Nat) : State :=
  ((s.crews.filter fun e => e.2.core == core).map (·.1)).foldl (fun (s : State) c => s.settleCrew c) s

/-! ## The end of a thread (R365) -/

/-- Outstanding loads into a thread's registers are discarded, and their flags clear (R365, R202): those numbered from
`mark` on. -/
def State.dropLoads (s : State) (uid mark : Nat) : State :=
  let gone := s.loads.filter fun e => e.2.uid == uid && decide (mark ≤ e.1)
  let s := gone.foldl (fun (s : State) e => s.opDone e.2.op) s
  { s with loads := s.loads.filter fun e => !(e.2.uid == uid && decide (mark ≤ e.1)) }

/-- Take a thread out of whatever warp it is in. -/
def State.unwarp (s : State) (uid : Nat) : State :=
  let ws := s.warps.map fun e => (e.1, { e.2 with members := e.2.members.filter (· != uid), arrived := e.2.arrived.filter (· != uid) })
  { s with warps := ws.filter fun e => !e.2.members.isEmpty }

/-- A thread ends (R365): its loads are discarded, it leaves its meets and the crew barrier, its monitor is disarmed,
and its slot is freed when its store FIFO is empty. -/
def State.endThread (s : State) (uid : Nat) : State :=
  match s.thread? uid with
  | none => s
  | some t =>
    let s := (s.dropLoads uid 0).unwarp uid
    let s := t.meets.eraseDups.foldl (fun (s : State) m => match m with
      | none => s
      | some tok => s.meetLeave t.crew uid tok) s
    let s : State := if t.fifo.isEmpty then { s with threads := SMap.del s.threads uid } else
      s.modThread uid fun t => { t with status := .draining, monitor := none, wait := none, meets := [none, none, none, none], bndTraps := [] }
    let s := if t.spawned || t.callee.isSome then s else s.crewBarLeave t.crew uid
    s.settleCrew t.crew

/-- Whether a thread's exit would complete its crew while a remote-activity bit is set (R56): no other thread of it is
left, and no spawn record. -/
def State.gangExit (s : State) (uid : Nat) (t : Thread) : Bool :=
  ((s.crewThreads t.crew).all fun e => e.1 == uid || e.2.status == .draining) &&
  (s.spawnRecs t.crew).isEmpty &&
  (((SMap.get? s.crews t.crew).map fun c => c.gangs.any (·.remote)) == some true)

end Sys2Proof.Machine
end

