-- ==== Sys2Proof/Machine/Boot.lean ====
section
/-! DEFINITION. The setting an instruction is fetched in: `placeWord` puts one instruction into the formed warp at the
issue port of a small machine (log entry 17, DESIGN CHOICE). -/

namespace Sys2Proof.Machine

/-- Bytes of the words after the first that an instruction of a clause can have: the clause's slots are 14. -/
def clauseOf (ws : List Word) : List Word :=
  let cw0 : Word := BitVec.ofNat 32 (ws.length * 2 ^ 22)
  [cw0, 0] ++ ws ++ List.replicate (14 - ws.length) 0

/-- A small partition: physical core 0, one frame, one virtual device's worth of registers. -/
def partOne : Partition :=
  ⟨[1, 0, 0, 0], 0, 0, [0], 1, 0, 0, 0, []⟩

/-- A virtual device of that partition. -/
def vdevOne : VDev := ⟨0, 1, 1, 0, true, 0, false, none, (0, 0)⟩

/-- A context with every register 0 but its virtual device. -/
def contextOne : Context where
  root := 0
  cspace := 0
  anomBase := 0
  anomSeq := 0
  faultBase := 0
  faultSeq := 0
  tsave := 0
  coldesc := 0
  dirty := 0
  wdog := 0
  predl := 0
  tentry := 0
  vd := 0
  ta := 3
  pshare := 0
  finj := true
  priv := true
  graph := 0
  nnode := 0
  batchBase := 0
  batchSize := 0
  batchHead := 0
  nodes := []
  starts := []
  watch := List.replicate 8 Watch.zero
  comms := []
  modules := []
  log := []
  lastSets := []
  walked := 0
  binBase := none
  bins := []
  snap := none
  ended := false

/-- A launch of one crew with one role of class 3 (any). -/
def launchOne (c16 : Bool) (anom : Nat) (iovf : Bool) : Launch where
  ctx := 1
  code := 0
  manifest := 0
  iovf := iovf
  anom := anom
  c16 := c16
  sptimer := 0
  gx := 1
  gy := 1
  gz := 1
  scrlines := 8
  args := 0
  batch := 0
  batchCount := 0
  batchSize := 0
  cid := none
  ended := none
  cbase := 0
  cx := 0
  cy := 0
  cz := 0
  roles := [⟨3, 1, 128, 0⟩]
  gangs := []
  seq := 0
  cores := [0]
  placed := [0]
  done := []
  failed := false
  origin := .queue 0 0 0

/-- The crew of that launch on core 0. -/
def crewOne : Crew where
  launch := 1
  ctx := 1
  ord := 0
  core := 0
  base := 0
  lines := 8
  index := 0
  barPhase := 0
  barArrived := []
  barGang := none
  gangWait := none
  meets := []
  watch := List.replicate 4 Watch.zero
  preempt := .running
  req := false
  left := 0
  halted := false
  gangs := []
  saved := none
  placed := true
  release := none
  finished := false
  objs := []
  came := []

/-- A state whose issue port holds a warp of the given threads of that crew, at slot 0 of a clause. -/
def State.portWith (s : State) (l : Launch) (c : Crew) (ts : List (Nat × Thread)) (ws : List Word) : State :=
  { s with
    parts := SMap.put s.parts 0 partOne
    vdevs := SMap.put s.vdevs 0 vdevOne
    ctxs := SMap.put s.ctxs 1 contextOne
    launches := SMap.put s.launches 1 l
    crews := SMap.put s.crews 1 c
    nextCrew := 2
    threads := ts.foldl (fun m e => SMap.put m e.1 e.2) s.threads
    nextUid := ts.foldl (fun n e => max n (e.1 + 1)) s.nextUid
    warps := SMap.put s.warps 0 ⟨ts.map (·.1), 0, 0, clauseOf ws, 1, [], false, 0, 0, 0⟩
    agenda := [.issue 0] }

/-- A thread of that crew in lane `lane`, in a warp. -/
def threadOne (lane : Nat) : Thread :=
  { freshThread 1 0 lane 0 0 lane 0 0 128 0 0 with status := .inWarp }

/-- The instruction in the first slots of the clause of a formed warp of one thread, at the issue port. -/
def State.placeWords (s : State) (ws : List Word) : State :=
  s.portWith (launchOne false 0 false) crewOne [(1, threadOne 0)] ws

end Sys2Proof.Machine
end

