-- ==== Sys2Proof/Machine/Fork.lean ====
section
/-! DEFINITION. Forkable calls (R191 to R208): load and write sets, the return predictor, the fork, its resolution by
commit or squash, and the instructions CALLF, CALLX.F and RET with the step FORK_START. -/

namespace Sys2Proof.Machine

/-! ## Load and write sets (R199, R201, R204) -/

/-- The open levels a thread's accesses belong to: its own, then those it runs under: thread and place (R204). -/
def State.levelsOver (s : State) : Nat → Nat → Nat → List (Nat × Nat)
  | 0, _, _ => []
  | fuel + 1, uid, from_ =>
    match s.thread? uid with
    | none => []
    | some t =>
      ((List.range t.levels.length).drop from_).map (fun i => (uid, i)) ++
      match t.callee with
      | none => []
      | some home =>
        match s.thread? home with
        | none => []
        | some h => s.levelsOver fuel home ((h.levels.takeWhile fun l => l.callee != uid).length + 1)

/-- Add granules to a set. -/
def addGrans (l gs : List Loc) : List Loc := gs.foldl (fun l g => if l.contains g then l else l ++ [g]) l

/-- Granules a load reads join the load sets (R199); `none` when one would take its 65th (R200). -/
def State.noteLoad (s : State) (uid : Nat) (gs : List Loc) : Option State :=
  let ls := s.levelsOver 8 uid 0
  let next (l : Level) : Level :=
    { l with loadSet := addGrans l.loadSet gs, conflict := l.conflict || gs.any l.writeSet.contains }
  let full := ls.any fun x => match (s.thread? x.1).bind fun t => t.levels[x.2]? with
    | some l => decide (64 < (next l).loadSet.length)
    | none => false
  if full then none else some (ls.foldl (fun (s : State) x => s.modLevel x next) s)

/-- Granules a callee writes join its fork's write set, and the sets of the forks that one runs under (R201). -/
def State.noteWrite (s : State) (gs : List Loc) : Nat → Nat → State
  | 0, _ => s
  | fuel + 1, uid =>
    match (s.thread? uid).bind (·.callee) with
    | none => s
    | some home =>
      (s.modThread home fun h => { h with levels := h.levels.map fun l =>
        if l.callee == uid then
          let w := addGrans l.writeSet gs
          { l with writeSet := w, conflict := l.conflict || gs.any l.loadSet.contains || decide (256 < w.length) }
        else l }).noteWrite gs fuel home

/-- The granules of `n` bytes from a location on. -/
def gransOf (l : Loc) (n : Nat) : List Loc :=
  (List.range ((l.inGran + n + 15) / 16)).map fun i => l.gran.add (16 * i)

/-! ## The return predictor (R197, R198) -/

/-- The key of a predictor entry of a core: word-index bits [9:0]. -/
def predKey (core site : Nat) : Nat := core * 1024 + site % 1024

/-- The entry that hits for a site, context and target. -/
def State.predFind (s : State) (core cid site target : Nat) : Option Pred :=
  match SMap.get? s.preds (predKey core site) with
  | none => none
  | some p => if p.tag == nfld site 10 14 && p.ctx == cid && p.target == target then some p else none

/-- The predicted value and eartag of v0 to v3. -/
def Pred.regs (p : Pred) : List Reg :=
  (List.range 4).map fun i =>
    ⟨if p.conf.getD i false then p.last.getD i 0 + p.stride.getD i 0 else p.last.getD i 0, p.tags.getD i 0⟩

/-- Update the entry of a site with returned values (R197). -/
def State.train (s : State) (core cid site target : Nat) (rs : List Reg) : State :=
  let new : Pred :=
    match s.predFind core cid site target with
    | none => ⟨nfld site 10 14, cid, target, rs.map (·.val), [0, 0, 0, 0], [false, false, false, false], rs.map (·.tag)⟩
    | some p =>
      let d := (List.range 4).map fun i => (rs.getD i Reg.zero).val - p.last.getD i 0
      { p with
        last := rs.map (·.val), stride := d, tags := rs.map (·.tag)
        conf := (List.range 4).map fun i => d.getD i 0 == p.stride.getD i 0 }
  { s with preds := SMap.put s.preds (predKey core site) new }

/-- v0 to v3 as they stand. -/
def State.rets (s : State) (t : Thread) : List Reg := (List.range 4).map fun i => s.reg t i

/-- Slots where instructions begin, from slot `i` on. -/
def insnSlots : Nat → Nat → List Word → List Nat
  | 0, _, _ => []
  | _, _, [] => []
  | n + 1, i, w :: ws => i :: insnSlots n (i + sizeOf (w :: ws)) ((w :: ws).drop (sizeOf (w :: ws)))

/-- The constant a MOVI to v122 in the slot just before declares for a lane (R198). -/
def Env.declared (e : Env) (t : Thread) : Option (Nat × Word) :=
  let n := e.w.slot
  if n = 0 || !((insnSlots 16 0 ((e.w.words.drop 2).take e.w.count)).contains (n - 1)) || !({ e.w with slot := n - 1 }.guard t) then none
  else
    match decode [e.w.words.getD (n + 1) 0] with
    | .ok (.movi f, _) => if f.d == 122 then some (movDeclare f.imm) else none
    | _ => none

/-- The prediction of a fork: the entry's, with a declared constant in place of one value (R198). -/
def Env.predict (e : Env) (t : Thread) (p : Pred) (plain : Bool) : List Reg :=
  match (if plain then e.declared t else none) with
  | none => p.regs
  | some (k, v) => p.regs.modify k fun r => { r with val := v }

/-! ## Transfers (R291, R311, R341) -/

/-- A lane goes to a clause: a target that is an unresolved stub traps (R291). `g` is the eartag of the target's operand, 0 where the
instruction has none (R232). -/
def State.goto_ (s : State) (e : Env) (uid target : Nat) (g : Tag) : LaneRes :=
  if s.isStub e.core e.crew.ctx e.c target then .trap s { num := 31, tag := g } else .gone (s.transfer e uid target)

/-- The target of a signed offset in clauses (R16). -/
def Env.rel {n : Nat} (e : Env) (off : BitVec n) : Nat := wrapInt 64 ((e.w.pc : Int) + 64 * off.toInt)

/-- The clause after the call (R191). -/
def Env.retClause (e : Env) : Nat := (e.w.pc + 64) % 2 ^ 64

/-- The link a call writes (R345). -/
def Env.link (e : Env) : List Reg := pairRegs (BitVec.ofNat 64 e.retClause) e.ownTag

/-- A call of a lane: it writes its link and goes to its target (R345). -/
def State.callTo (s : State) (e : Env) (uid : Nat) (t : Thread) (target : Nat) (g : Tag) : LaneRes :=
  if s.isStub e.core e.crew.ctx e.c target then .trap s { num := 31, tag := g }
  else .gone ((s.setRegs t 124 e.link).transfer e uid target)

/-- The fork token (R194). -/
def forkToken : Nat := 0xFFFFFFFFFFFFFFC0

/-! ## The fork (R192, R194, R208) -/

/-- The lane and slot a callee takes: the lowest lane with room that no fork of the same issue has taken (R59, R192). -/
def State.forkPlace (s : State) (e : Env) (site allot : Nat) : Option (Nat × Nat × Nat) :=
  (List.range 32).findSome? fun lane =>
    if s.threads.any fun x => x.2.status == .reserved && x.2.core == e.core && x.2.quad == e.quad && x.2.lane == lane &&
        x.2.forkSite.1 == site && (match x.2.callee with | some h => e.w.members.contains h | none => false)
    then none
    else (s.roomIn e.core e.quad lane allot).map fun r => (lane, r.1, r.2)

/-- Whether a thread holds pail entries. -/
def State.holdsPail (s : State) (t : Thread) (uid : Nat) : Bool := !(s.pailOf t uid).isEmpty

/-- The conditions of R192 in order: the refusal code, or the prediction and the callee's place. -/
def State.forkTry (s : State) (e : Env) (uid : Nat) (t : Thread) (target : Nat) (plain : Bool) :
    Except Nat (List Reg × Nat × Nat × Nat) :=
  if 2 ≤ t.depth then .error 1
  else if 4 ≤ t.nest then .error 2
  else if t.region.isSome || (t.spec && s.holdsPail t uid) then .error 3
  else match s.predFind e.core e.crew.ctx (e.ipc / 4) target with
    | none => .error 4
    | some p =>
      match s.forkPlace e (e.ipc / 4) t.allot with
      | none => .error 5
      | some pl => .ok (e.predict t p plain, pl)

/-- A forkable call of a lane: refused it is an ordinary call (R346); accepted, the home thread waits by R194 step 1
with its callee's slot taken (R208). A stub target never forks (R207). -/
def State.forkTo (s : State) (e : Env) (uid : Nat) (t : Thread) (target : Nat) (plain : Bool) (g : Tag) : LaneRes :=
  if s.isStub e.core e.crew.ctx e.c target then .trap s { num := 31, tag := g }
  else match s.forkTry e uid t target plain with
    | .error code =>
      let s := s.count (cntCore e.core 4) 1
      let s := s.modThread uid fun t =>
        { t with refuse := code, lastf := false, retSite := some (e.retClause, e.ipc / 4), retTarget := target }
      s.callTo e uid t target g
    | .ok (pred, lane, slot, rbase) =>
      let tid := 2048 + 512 * e.quad + 32 * slot + lane
      let c : Thread := { freshThread t.crew t.role tid e.core e.quad lane slot rbase t.allot t.anom target with
        callee := some uid, forkSite := (e.ipc / 4, target), status := .reserved }
      let r := s.addThread c
      .gone ((r.1.modThread uid fun t =>
        { t.standAt e.w.pc e.w.slot false e.w.hint with
          status := .forking r.2 target (e.ipc / 4) pred e.ownTag, wait := none, timer := none, timedOut := false }).leaveWarp e.wk uid)

/-- CALLF (R346). -/
def execCallf (off : BitVec 26) (s : State) : Host.Outcome State Fault Refusal :=
  s.perLane 1 (fun _ => { uses := [⟨124, 2, 1⟩] }) fun e s u t => s.forkTo e u t (e.rel off) true 0

/-- Checks of an indirect target read from vA (R344). -/
def chkTarget (a : VReg) (link : Bool) : Chk :=
  { uses := ⟨a.toNat, 2, 2⟩ :: (if link then [⟨124, 2, 1⟩] else []), anom := [a.toNat, a.toNat + 1], acause := 3, src := some a.toNat, stall := true }

/-- An indirect transfer after its anomaly check (R344): misaligned-target, fork-return, then the transfer. -/
def State.indirect (s : State) (t : Thread) (a : VReg) (go : Nat → Tag → LaneRes) : LaneRes :=
  let x := (s.pair t a.toNat).1.toNat
  let g := (s.pair t a.toNat).2
  if x % 64 != 0 then .trap s { num := 3, tag := g }
  else if x = forkToken then .trap s { num := 30, tag := g }
  else go x g

/-- CALLX.F (R347). -/
def execCallxF (a : VReg) (s : State) : Host.Outcome State Fault Refusal :=
  s.perLane 1 (fun _ => chkTarget a true) fun e s u t => s.indirect t a fun x g => s.forkTo e u t x false g

/-- The registers a callee starts with (R194): v0 to v7 and v120:v121 of the home thread's window, and the token. -/
def State.calleeRegs (s : State) (t : Thread) (link : Tag) : List Reg :=
  (List.range 8).map (fun i => s.reg t i) ++ List.replicate 112 Reg.zero ++ [s.reg t 120, s.reg t 121, Reg.zero, Reg.zero] ++
    pairRegs (BitVec.ofNat 64 forkToken) link

/-- FORK_START (R194, R208): the waits of step 1 are over, the callee starts and the home thread goes on as a
continuation with the predicted values. -/
def execForkStart (uid : Nat) (s : State) : Host.Outcome State Fault Refusal :=
  match s.thread? uid with
  | none => .refused (.cannotOccur "FORK_START")
  | some t =>
    match t.status with
    | .forking callee target _ pred link =>
      let named := ([0, 1, 2, 3, 4, 5, 6, 7, 120, 121, 124, 125] : List Nat).map (t.wbase + ·)
      if !t.fifo.isEmpty || s.writesDue uid (fun a => named.contains a) then .refused (.cannotOccur "FORK_START")
      else match s.thread? callee with
        | none => .refused (.cannotOccur "FORK_START")
        | some c =>
          let s := s.count (cntCore t.core 3) 1
          let s := s.startRegs c (s.calleeRegs t link)
          let s := s.modThread callee fun c =>
            { c with
              status := .boundary, pc := target, anom := t.anomNext.getD t.anom, watch := t.watchNext.getD t.watch
              inherited := t.depth, nest := t.nest + 1 }
          let lv : Level := ⟨callee, s.checkpoint t, (t.pc + 64) % 2 ^ 64, pred, [], [], false, ⟨[], []⟩, []⟩
          let s := s.setRegs t 0 pred
          let s := s.modThread uid fun t =>
            { t.standAt ((t.pc + 64) % 2 ^ 64) 0 true false with levels := lv :: t.levels, lastf := true, refuse := 0 }
          .next (s.dropL1 t.core t.quad)
    | _ => .refused (.cannotOccur "FORK_START")

/-! ## Resolution (R195, R202) -/

/-- The callees of a thread's levels, and the callees they have forked in turn. -/
def State.under (s : State) : Nat → List Level → List Nat
  | 0, _ => []
  | fuel + 1, ls => ls.flatMap fun l => l.callee :: s.under fuel (((s.thread? l.callee).map (·.levels)).getD [])

/-- Take the trap a continuation has held, now that it is none any more (R202, R205): its record names the instruction that
raised it, with HELD set. -/
def State.takeHeld (s : State) (uid : Nat) (t : Thread) (h : Held) : State :=
  let s := s.modThread uid fun t => { t with wait := none, wdogHit := t.wdogHit || h.trap.num == 34 }
  if t.handler.isSome then s.killCrew t.crew
  else if h.trap.os then s.modThread uid fun t => { t with status := .osServed h.trap (2 ^ t.lane), stamp := none }
  else
    let tr := { h.trap with group := s.trapGroup h.iss.ctx }
    let r := s.faultRecord h.iss tr (2 ^ t.lane) true false
    r.1.modThread uid fun t => { t with status := .parked r.2 tr, stamp := none, timer := none, timedOut := false, held := none }

/-- A fork has committed (R202): a thread it stalled issues its instruction, and one that held a trap takes it; a watch trap is
taken when its access is made, and a thread under another open level holds on. -/
def State.wakeResolved (s : State) (uid : Nat) : State :=
  match s.thread? uid with
  | none => s
  | some t =>
    if t.wait != some .resolution then s
    else match t.held with
      | none => s.modThread uid fun t => { t with wait := none }
      | some h =>
        if t.spec then s
        else if h.trap.num == 18 then s.modThread uid fun t => { t with wait := none }
        else s.takeHeld uid t h

/-- Commit the outermost level of a home thread (R202). -/
def State.commitFork (s : State) (home : Nat) (h : Thread) (l : Level) : State :=
  let inner := h.levels.dropLast
  let ds := s.under 4 inner
  let cid := ((SMap.get? s.crews h.crew).map (·.ctx)).getD 0
  let s := (ds ++ [home]).foldl (fun (s : State) u => s.releasePail u 1) s
  let k := quadKey h.core h.quad
  let s : State := { s with pail := SMap.setD s.pail [] k ((SMap.getD s.pail [] k).map fun p =>
    if (home :: ds).contains p.uid && decide (2 ≤ p.level) then { p with level := p.level - 1 } else p) }
  let s := ds.foldl (fun (s : State) u => s.modThread u fun t => { t with inherited := t.inherited - 1 }) s
  let s := s.modThread home fun t => { t with levels := inner }
  let s := s.commitPend h.core h.quad cid l.pend
  let s := l.hits.foldl (fun (s : State) x => (s.faultRecord x.1 x.2 0 false false).1) s
  ((home :: ds).foldl (fun (s : State) u => s.wakeResolved u) s).count (cntCore h.core 5) 1

/-- Squash every level of a home thread (R202): pail entries, loads in flight and speculative callees go, and the
checkpoint of the outermost level is restored. The outermost callee is not ended. -/
def State.squashFork (s : State) (home : Nat) (h : Thread) (l : Level) : State :=
  let ds := s.under 4 h.levels.dropLast
  let waiting := match h.status with
    | .forking c _ _ _ _ => [c]
    | _ => []
  let cid := ((SMap.get? s.crews h.crew).map (·.ctx)).getD 0
  let pends := (home :: ds).flatMap fun u => ((s.thread? u).map fun t => t.levels.map (·.pend)).getD []
  let s := pends.foldl (fun (s : State) p => s.squashPend h.core h.quad cid p) s
  let s := (ds ++ waiting).foldl (fun (s : State) u => (s.dropLoads u 0).discardThread u) s
  let k := quadKey h.core h.quad
  let s : State := { s with pail := SMap.setD s.pail [] k ((SMap.getD s.pail [] k).filter fun p => p.uid != home) }
  let s := ((s.dropLoads home l.check.mark).unwarp home).restoreCheck home l.check
  let s := s.modThread home fun t =>
    { t.standAt l.retPc 0 false false with
      levels := [], wait := none, timer := none, timedOut := false, held := none, lastf := true, refuse := 0 }
  s.count (cntCore h.core 6) 1

/-- The home thread receives its callee's v0 to v3. -/
def State.deliverRets (s : State) (home : Nat) (rs : List Reg) : State :=
  match s.thread? home with
  | none => s
  | some h => s.setRegs h 0 rs

/-- A callee's RET to the fork token (R195, R202, R206): the callee ends; its fork commits or is squashed, or its home
thread, waiting since a pre-emption, receives the results. -/
def State.resolve (s : State) (uid : Nat) (t : Thread) (home : Nat) : State :=
  let rs := s.rets t
  let cid := ((SMap.get? s.crews t.crew).map (·.ctx)).getD 0
  let s := s.train t.core cid t.forkSite.1 t.forkSite.2 rs
  match s.thread? home with
  | none => s.endThread uid
  | some h =>
    match h.levels.getLast? with
    | some l =>
      if l.callee = uid then
        if rs == l.pred && !l.conflict then (s.commitFork home h l).endThread uid
        else ((s.squashFork home h l).deliverRets home rs).endThread uid
      else s.endThread uid
    | none =>
      if h.status == .joinWait then
        ((s.deliverRets home rs).modThread home fun t => { t with status := .boundary, lastf := true, refuse := 0 }).endThread uid
      else s.endThread uid

/-- Whether loads of a continuation that a squash would end are in flight: the squash waits for them (R202). -/
def State.squashBusy (s : State) (home : Nat) (h : Thread) (l : Level) : Bool :=
  let ds := s.under 4 h.levels.dropLast
  s.loads.any fun x => (x.2.uid == home && decide (l.check.mark ≤ x.1)) || ds.contains x.2.uid

/-- Whether a callee's RET must wait: its FIFO drains first, and a squash waits for the continuation's loads (R202). -/
def State.retWaits (s : State) (uid : Nat) (t : Thread) (home : Nat) : Bool :=
  !t.fifo.isEmpty ||
  match s.thread? home with
  | none => false
  | some h =>
    match h.levels.getLast? with
    | none => false
    | some l => l.callee == uid && !(s.rets t == l.pred && !l.conflict) && s.squashBusy home h l

/-- A thread exits with the home threads it was forked from (R195). -/
def State.exitChain (s : State) : Nat → Nat → State
  | 0, _ => s
  | fuel + 1, uid =>
    match s.thread? uid with
    | none => s
    | some t =>
      match t.callee with
      | none => s.endThread uid
      | some home =>
        let s := match s.thread? home with
          | none => s
          | some h =>
            match h.levels.getLast? with
            | some l => if l.callee = uid then s.squashFork home h l else s
            | none => s
        (s.endThread uid).exitChain fuel home

/-- RET of a lane (R419). -/
def State.retLane (s : State) (e : Env) (uid : Nat) (t : Thread) : LaneRes :=
  let x := (s.pair t 124).1.toNat
  if x % 64 != 0 then .trap s { num := 3, tag := (s.pair t 124).2 }
  else if x = forkToken then
    match t.callee with
    | none => .trap s { num := 30, tag := (s.pair t 124).2 }
    | some home =>
      let s := s.commitRegion uid
      match s.thread? uid with
      | none => .gone s
      | some t => if s.retWaits uid t home then .stall s .drain else .gone (s.resolve uid t home)
  else if s.isStub e.core e.crew.ctx e.c x then .trap s { num := 31, tag := (s.pair t 124).2 }
  else
    match t.retSite with
    | some (clause, site) =>
      if x = clause then
        let s := s.train e.core e.crew.ctx site t.retTarget (s.rets t)
        .gone ((s.modThread uid fun t => { t with retSite := none }).transfer e uid x)
      else .gone (s.transfer e uid x)
    | none => .gone (s.transfer e uid x)

/-- RET (R419). -/
def execRet (s : State) : Host.Outcome State Fault Refusal :=
  s.perLane 1 (fun _ => { uses := [⟨124, 2, 1⟩], src := some 124, stall := true }) fun e s u t => s.retLane e u t

end Sys2Proof.Machine
end

