-- ==== Sys2Proof/Machine/Control.lean ====
section
/-! DEFINITION. Control instructions of majors 19 to 21 and WBASE: R338, R341, R343 to R347, R363, R365, R383, R417,
R418, R432, R438, R440. -/

namespace Sys2Proof.Machine

/-- BRA (R341). -/
def execBra (f : FBra) (s : State) : Host.Outcome State Fault Refusal :=
  s.perLane 1 (fun _ => {}) fun e s u t => if t.pred f.p != f.neg then s.goto_ e u (e.rel f.off) 0 else .done s

/-- CALL (R345). -/
def execCall (off : BitVec 26) (s : State) : Host.Outcome State Fault Refusal :=
  s.perLane 1 (fun _ => { uses := [⟨124, 2, 1⟩] }) fun e s u t => s.callTo e u t (e.rel off) 0

/-- BRX (R344). -/
def execBrx (a : VReg) (s : State) : Host.Outcome State Fault Refusal :=
  s.perLane 1 (fun _ => chkTarget a false) fun e s u t => s.indirect t a fun x g => s.goto_ e u x g

/-- CALLX (R347). -/
def execCallx (a : VReg) (s : State) : Host.Outcome State Fault Refusal :=
  s.perLane 1 (fun _ => chkTarget a true) fun e s u t => s.indirect t a fun x g => s.callTo e u t x g

/-- EXIT of a lane (R365, R56, R195): an open region commits first. -/
def State.exitLane (s : State) (uid : Nat) (t : Thread) : LaneRes :=
  let s := s.commitRegion uid
  if t.callee.isNone && s.gangExit uid t then .trap s { num := 25 } else .gone (s.exitChain 6 uid)

/-- EXIT (R365). -/
def execExit (s : State) : Host.Outcome State Fault Refusal :=
  s.perLane 1 (fun _ => { stall := true }) fun _ s u t => s.exitLane u t

/-- ERET (R363, R364): the return from a handler; outside one it is illegal. -/
def execEret (s : State) : Host.Outcome State Fault Refusal :=
  s.perLane 1 (fun _ => {}) fun e s u t =>
    if t.handler.isNone then .trap s { num := 1, cause := 5 }
    else match s.returnFrom e u t with
      | none => .stall s .drain
      | some s => .gone s

/-- YIELD of a lane (R440). -/
def State.yieldLane (s : State) (e : Env) (uid : Nat) (t : Thread) : LaneRes :=
  if t.handler.isSome then .done s
  else
    let s := s.modThread uid fun t => { t with wdog := 0, wdogHit := false }
    if !e.crew.req then .done s
    else if s.writesOwed uid (fun _ => true) then .stall (s.commitRegion uid) .drain
    else match s.releaseTry uid 4 with
      | (s, some w) => .stall s w
      | (s, none) => .gone ((s.standNext e uid 1).modThread uid fun t => { t with wait := some .yield })

/-- YIELD (R440). -/
def execYield (s : State) : Host.Outcome State Fault Refusal :=
  s.perLane 1 (fun _ => { stall := true }) fun e s u t => s.yieldLane e u t

/-- TRAP (R432). -/
def execTrap (code : BitVec 16) (s : State) : Host.Outcome State Fault Refusal :=
  s.perLane 1 (fun _ => { stall := true }) fun _ s _ _ => .trap s { num := 35, cause := code.toNat % 256 }

/-- BRK (R343). -/
def execBrk (s : State) : Host.Outcome State Fault Refusal :=
  s.perLane 1 (fun _ => {}) fun _ s _ _ => .trap s { num := 36 }

/-- Open a region at the slot (R239, R417): an open one commits first. -/
def State.openRegion (s : State) (e : Env) (uid : Nat) : State :=
  let s := s.commitRegion uid
  match s.thread? uid with
  | none => s
  | some t => s.modThread uid fun t' => { t' with region := some ⟨s.checkpoint t, e.w.pc, e.w.slot, ⟨[], []⟩⟩ }

/-- REGB (R417). -/
def execRegb (s : State) : Host.Outcome State Fault Refusal :=
  s.perLane 1 (fun _ => { stall := true }) fun e s u _ => .done (s.openRegion e u)

/-- REGE (R418). -/
def execRege (s : State) : Host.Outcome State Fault Refusal :=
  s.perLane 1 (fun _ => {}) fun _ s u _ => .done (s.commitRegion u)

/-- Fill the instruction cache ahead of use (R383): a fill that would fault, or that finds a stub, is dropped. -/
def State.prefetch (s : State) (e : Env) (pc : Nat) : State :=
  if (SMap.get? s.icache (icKey e.core e.crew.ctx pc)).isSome then s
  else
    let r := s.fetchClause e.core e.crew.ctx e.c pc
    match r.2 with
    | .words ws => r.1.icPut e.core e.crew.ctx pc ws
    | .fault _ => s

/-- IPREF (R383). -/
def execIpref (off : BitVec 23) (s : State) : Host.Outcome State Fault Refusal :=
  s.perGroup 1 (fun _ => {}) fun e s l => .done (if l.isEmpty then s else s.prefetch e (e.rel off)) []

/-- The module that holds a code address (R286, R288). -/
def Context.moduleAt (c : Context) (pc : Nat) : Option Module :=
  c.modules.find? fun m => decide (m.code ≤ pc) && decide (pc < m.code + m.len)

/-- Add to a block counter: lanes that are speculative or in an open region hold theirs until commit (R287). -/
def State.bbc (s : State) (e : Env) (l : List (Nat × Thread)) (addr : Nat) : State :=
  let held := l.filter fun x => x.2.pends
  let s := if held.length < l.length then s.bbcAdd e.core e.crew.ctx addr (l.length - held.length) else s
  held.foldl (fun (s : State) x =>
    match s.levelOf x.1 with
    | some p => s.modLevel p fun v => { v with pend := { v.pend with blocks := (addr, 1) :: v.pend.blocks } }
    | none => s.modThread x.1 fun t =>
        { t with region := t.region.map fun r => { r with pend := { r.pend with blocks := (addr, 1) :: r.pend.blocks } } }) s

/-- BBC (R338, R286): a block number at or above NBLOCK is ignored and counted. -/
def execBbc (n : BitVec 23) (s : State) : Host.Outcome State Fault Refusal :=
  s.perGroup 1 (fun _ => {}) fun e s l =>
    .done (if l.isEmpty then s else
      match e.c.moduleAt e.ipc with
      | some m => if n.toNat < m.nblock then s.bbc e l (m.bcbase + 8 * n.toNat) else s.count (cntCore e.core 7) 1
      | none => s.count (cntCore e.core 7) 1) []

/-- WBASE (R438). -/
def execWbase (k : BitVec 4) (s : State) : Host.Outcome State Fault Refusal :=
  s.perLane 1 (fun _ => {}) fun e s u t =>
    if e.c.span t ≤ 32 * k.toNat then .trap s { num := 2 }
    else .done (s.modThread u fun t => { t with wbase := 32 * k.toNat })

end Sys2Proof.Machine
end

