-- ==== Sys2Proof/Machine/MemOps.lean ====
section
/-! DEFINITION. Loads, stores, gathers, scatters, COLOR, PREF and CCTL (R348, R351, R385 to R389, R410, R427 to R430):
what a lane does at issue, and the read step of a load. -/

namespace Sys2Proof.Machine

/-! ## Instructions whose lanes share one operation -/

/-- A per-lane instruction whose lanes share one operation (R15): `f` gets its number. The issue itself is one piece of the
operation, so that one no lane joins ends with it. -/
def State.perLaneOp (s : State) (size : Nat) (k : Env → Chk) (fb : Bool) (f : Env → Nat → State → Nat → Thread → LaneRes) :
    Host.Outcome State Fault Refusal :=
  match s.env? with
  | none => .fault .noWarp
  | some e =>
    let op := s.nextOp
    let s1 : State := { s with ops := SMap.put s.ops op ⟨[], e.flag fb, 1⟩, nextOp := op + 1 }
    .next ((s1.runSlot e size (k e) (f e op)).opDone op)

/-- A lane joins an operation with `n` pieces. -/
def State.joinOp (s : State) (op uid n : Nat) : State :=
  { s with ops := SMap.mod s.ops op fun o => { o with lanes := o.lanes ++ [uid], left := o.left + n } }

/-! ## Operands -/

/-- The memory operand and data of an access: data register, width code, space, pair, offset in bytes, index register,
strength (0 weak, else 1 + scope code), and whether it takes the gather path. -/
structure MemArgs where
  d : Nat
  w : Nat
  sp : Nat
  pv : Nat
  off : Nat := 0
  idx : Option Nat := none
  scope : Nat := 0
  gather : Bool := false
  deriving DecidableEq, Repr

/-- The address of a lane's access (R386, R389). -/
def MemArgs.addr (m : MemArgs) (s : State) (t : Thread) : Nat :=
  let i := match m.idx with
    | none => 0
    | some b => (s.reg t b).val.toNat * widthOf m.w
  addOff m.sp (s.pair t m.pv).1.toNat (m.off + i)

/-- The operands of the M format (R317). -/
def memArgs (f : FMem) : MemArgs :=
  ⟨f.d.toNat, f.w.toNat, f.sp.toNat, 2 * f.p.toNat, f.off.toNat * widthOf f.w.toNat, none, 0, false⟩
/-- The operands of LDG and STX (R318). -/
def gatherArgs (f : FGather) : MemArgs :=
  ⟨f.d.toNat, f.w.toNat, f.sp.toNat, 2 * f.p.toNat, 0, some f.b.toNat, 0, true⟩
/-- The operands of the strong forms (R318): SC 6 is .x, 7 is .s; on .s the strength has no effect (R165). -/
def strongArgs (f : FStrong) : MemArgs :=
  let sc := f.sc.toNat
  ⟨f.d.toNat, f.w.toNat, if sc = 6 then 2 else if sc = 7 then 1 else 0, 2 * f.p.toNat, f.off.toNat * widthOf f.w.toNat, none,
    if sc = 7 then 0 else if sc = 6 then 3 else sc + 1, false⟩

/-- Checks of a load (R385): the address is no point of use (R386). -/
def MemArgs.ldChk (m : MemArgs) : Chk :=
  { uses := [memUse m.w m.d, ⟨m.pv, 2, 1⟩] ++ (match m.idx with | none => [] | some b => [⟨b, 1, 1⟩])
    src := some m.pv, addr := some (m.pv, m.off) }

/-- Checks of a store (R427, R428): an A-tagged address or data is a use with cause 1 (R89). -/
def MemArgs.stChk (m : MemArgs) (stall : Bool) : Chk :=
  { m.ldChk with
    anom := [m.pv, m.pv + 1] ++ (match m.idx with | none => [] | some b => [b]) ++ (List.range (memRegs m.w)).map (m.d + ·)
    acause := 1, stall := stall }

/-- The lane issued an access to a member's scratchpad: its crew's remote-activity bit for that gang is set (R56). -/
def State.noteRemote (s : State) (crew sp a : Nat) : State :=
  if sp = 2 then
    { s with crews := SMap.mod s.crews crew fun c =>
        { c with gangs := c.gangs.map fun g => if g.entry == nfld a 48 8 then { g with remote := true } else g } }
  else s

/-- The scratchpad line of a location whose pending count is not zero (R141, R142). -/
def State.busyLine (s : State) (l : Loc) : Option (Nat × Nat) :=
  let hit (c b : Nat) : Option (Nat × Nat) := if SMap.getD s.pend 0 (lineKey c b) = 0 then none else some (c, b / 128)
  match l with
  | .scr c b => hit c b
  | .win c o => match winItem o with
    | .scr b => hit c b
    | _ => none
  | _ => none

/-- The granule a weak load of the lane finds now (R90, R162). -/
def State.weakView (s : State) (uid : Nat) (t : Thread) (p : Place) : Gran := (s.view uid t p.loc p.tagAddr p.ptag false false).1

/-- The colour check of a thread's access at issue (R90): the trap when it fails. Windows are not checked (R140). -/
def State.colourTrap (s : State) (uid : Nat) (t : Thread) (p : Place) (a : Nat) (v : Nat) : Option Trap :=
  match p.hit, p.loc with
  | none, _ => none
  | _, .win _ _ => none
  | some h, _ =>
    let lock := h.lock (s.weakView uid t p).tw
    if colourBad (keyOf a) lock then some { num := 10, addr := a, key := keyOf a, lock := lock, tag := (s.pair t v).2 } else none

/-! ## Loads (R386, R387, R389) -/

/-- Whether the thread's own pail entries hold every byte of an access (R199). -/
def State.inPail (s : State) (uid : Nat) (t : Thread) (l : Loc) (n : Nat) : Bool :=
  let es := (s.pailOf t uid).filter fun e => e.loc == l.gran
  (List.range n).all fun i => es.any fun e => ((e.bytes.getD (l.inGran + i) none).isSome)

/-- Start a load: it stands between its issue and its read step. -/
def State.startLoad (s : State) (e : Env) (op uid : Nat) (t : Thread) (m : MemArgs) (p : Place) : State :=
  let x : Load := ⟨op, uid, t.wbase + m.d, memRegs m.w, widthOf m.w, p.loc, p.va, p.tagAddr, p.ptag, m.gather, m.scope, m.scope != 0,
    e.issuer uid t⟩
  { (s.joinOp op uid 1) with loads := SMap.put s.loads s.nextLoad x, nextLoad := s.nextLoad + 1 }

/-- The eartag of the granule the access reads, for watchpoints (R94). -/
def State.readTag (s : State) (uid : Nat) (t : Thread) (m : MemArgs) (p : Place) : Tag :=
  twTag (s.view uid t p.loc p.tagAddr p.ptag m.gather (m.scope != 0)).1.tw

/-- The registers a load writes (R386): value and eartag, and the L1 line a miss fills (R162). -/
def State.loadRegs (s : State) (t : Thread) (x : Load) : List Reg × Bool :=
  match x.loc with
  | .win c o =>
    ((List.range x.regs).map fun i =>
      let r := s.winWord c (o + 4 * i)
      ⟨BitVec.ofNat 32 (ofBytes (s.winRead c (o + 4 * i) (min 4 x.width))), r.tag⟩, false)
  | _ =>
    let v := s.view x.uid t x.loc x.tagAddr x.ptag x.gather x.wide
    let bs := (v.1.bytes.drop x.loc.inGran).take x.width
    ((List.range x.regs).map fun i => ⟨BitVec.ofNat 32 (ofBytes ((bs.drop (4 * i)).take 4)), twTag v.1.tw⟩, v.2)

/-- The read step of a load (R386, R387): its registers are written and its flag clears. A weak load that goes past the core
point fills the L1 (R162); one that has searched past an L1 copy, a strong one or a gather, drops its quadrant's copy (R164,
log entry 28, DEDUCED). -/
def State.readStep (s : State) (t : Thread) (i : Nat) (x : Load) : State :=
  let r := s.loadRegs t x
  let s1 : State := match r.2, x.loc with
    | true, .hbm a => if s.nearHolds x.uid t x.loc x.width then s else
        s.putLine t.core t.quad a (s.fillLine t.core a x.tagAddr x.ptag)
    | _, _ => if x.wide || x.gather then s.dropCopy t.core t.quad x.loc else s
  let s2 := s1.landRegs x.uid i x.dst r.1
  ({ s2 with loads := SMap.del s2.loads i } : State).opDone x.op

/-- Whether an access to a host or peer page waits for accesses of its thread to the same page on their way (R171): its
stores, for `stores`, and those in its core's gather queue. -/
def State.pageHeld (s : State) (uid core : Nat) (p : Place) (stores : Bool) : Bool :=
  let same (x : Store) : Bool := x.uid == uid && x.loc.fabric && x.va / p.page == p.va / p.page
  p.loc.fabric && ((stores && s.stores.any fun x => same x.2) || (s.storesOf (SMap.getD s.gatherQ [] core)).any same)

/-- A thread that parked on presence acquires when it wakes (R168). -/
def State.wokenAcquire (s : State) (uid : Nat) (t : Thread) : State :=
  match t.wait with
  | some (.presence _ _) => s.acquire uid
  | _ => s

/-- The access of a load as a watchpoint sees it; none on .x. -/
def State.loadAccess (s : State) (uid : Nat) (t : Thread) (m : MemArgs) (p : Place) (a : Nat) : List Access :=
  if m.sp = 2 then [] else [⟨0, m.sp == 1, a, widthOf m.w, s.readTag uid t m p⟩]

/-- A load of a lane, from its address on (R386): checks, then its read is on its way. Where a watchpoint compares the
eartag it finds, its read step is taken at once, after those of its thread's earlier loads (R94, R95). -/
def loadLane (m : MemArgs) (e : Env) (op : Nat) (s : State) (uid : Nat) (t : Thread) : LaneRes :=
  let a := m.addr s t
  let n := widthOf m.w
  match s.place e m.sp n 1 a with
  | (s1, .error tr) => .trap s1 { tr with tag := (s.pair t m.pv).2 }
  | (s1, .ok p) =>
    match s1.colourTrap uid t p a m.pv with
    | some tr => .trap s1 tr
    | none =>
      if twPoison (s1.view uid t p.loc p.tagAddr p.ptag m.gather (m.scope != 0)).1.tw then
        .trap s1 { num := 11, addr := a, key := if m.sp = 0 then keyOf a else 0, tag := (s.pair t m.pv).2 }
      else match s1.busyLine p.loc with
        | some (c, l) => .park s1 (.presence c l)
        | none =>
          match (if t.spec && !s1.inPail uid t p.loc n then s1.noteLoad uid [p.loc.gran] else some s1) with
          | none => .park s1 .resolution
          | some s2 =>
            let s3 := ((s2.wokenAcquire uid t).noteRemote e.crewId m.sp a)
            let s4 := s3.startLoad e op uid t m p
            let as := s3.loadAccess uid t m p a
            if s1.pageHeld uid e.core p true then .stall s1 .drain
            else if !(as.any fun x => s1.watchTagged uid e.crewId e.crew.ctx x) then s1.watched s4 e uid t as
            else if s1.loads.any fun x => x.2.uid == uid then .stall s1 .drain
            else match SMap.get? s4.loads s3.nextLoad with
              | some x => s1.watched (s4.readStep t s3.nextLoad x) e uid t as
              | none => .done s4

/-- LD (R385 to R387). -/
def execLd (f : FMem) (s : State) : Host.Outcome State Fault Refusal :=
  s.perLaneOp 1 (fun _ => (memArgs f).ldChk) f.f fun e op s u t => loadLane (memArgs f) e op s u t

/-- LD.strong (R165, R388). -/
def execLdStrong (f : FStrong) (s : State) : Host.Outcome State Fault Refusal :=
  s.perLaneOp 1 (fun _ => (strongArgs f).ldChk) f.f fun e op s u t => loadLane (strongArgs f) e op s u t

/-- LDG (R389): on .s and .x it reads as LD does. -/
def execLdg (f : FGather) (s : State) : Host.Outcome State Fault Refusal :=
  s.perLaneOp 1 (fun _ => (gatherArgs f).ldChk) f.f fun e op s u t => loadLane (gatherArgs f) e op s u t

/-- LOAD_RETURN (R163, R386, R387): the read step of a load, in its thread's program order. -/
def execLoadReturn (i : Nat) (s : State) : Host.Outcome State Fault Refusal :=
  match SMap.get? s.loads i with
  | none => .refused (.cannotOccur "LOAD_RETURN")
  | some x =>
    match s.thread? x.uid with
    | none => .refused (.cannotOccur "LOAD_RETURN")
    | some t =>
      if (s.loads.any fun y => y.2.uid == x.uid && decide (y.1 < i)) || (s.busyLine x.loc).isSome then
        .refused (.cannotOccur "LOAD_RETURN")
      else .next (s.readStep t i x)

/-! ## Stores (R428, R430) -/

/-- The eartag a store brings (R82, R428). -/
def State.stTag (s : State) (t : Thread) (w d : Nat) : Tag :=
  let g (i : Nat) : Tag := (s.reg t (d + i)).tag
  if w = 4 then
    match (List.range 4).find? (fun i => isA (g i)) with
    | some i => g i
    | none => g 0
  else if w = 3 then pairTag (g 0) (g 1)
  else g 0

/-- The data bytes of a store (R428). -/
def State.stData (s : State) (t : Thread) (w d : Nat) : List Byte :=
  ((List.range (memRegs w)).flatMap fun i => toBytes 4 (s.reg t (d + i)).val.toNat).take (widthOf w)

/-- Rank of a strength in the nesting of R158, gang counted as device. -/
def scopeRank (scope : Nat) : Nat :=
  match scope with
  | 0 => 0
  | 1 => 1
  | 2 => 2
  | 4 => 3
  | 6 => 5
  | _ => 4

/-- The wider of two strengths (R199). -/
def widerScope (a b : Nat) : Nat := if scopeRank a < scopeRank b then b else a

/-- The store of a lane (log entry 38, DEDUCED). -/
def mkStore (e : Env) (uid : Nat) (t : Thread) (p : Place) (bs : List Byte) (g : Tag) (scope op : Nat) : Store :=
  ⟨uid, e.crewId, e.crew.ctx, e.core, p.loc, p.va, bs.map some, g, p.tagAddr, p.page, scope, none, op, 0, e.issuer uid t, false, false⟩

/-- A masked granule of a store's bytes. -/
def granBytes (i : Nat) (bs : List Byte) : List (Option Byte) :=
  List.replicate i none ++ bs.map some ++ List.replicate (16 - i - bs.length) none

/-- Merge a store into a pail entry of its granule: bytes over bytes, the eartag by R82 with the entry as the granule,
the widest strength (R199). -/
def PailEntry.merge (x : PailEntry) (i : Nat) (bs : List Byte) (g : Tag) (scope : Nat) : PailEntry :=
  { x with bytes := x.bytes.take i ++ bs.map some ++ x.bytes.drop (i + bs.length), tag := storedTag (bs.length == 16) g x.tag, scope := widerScope x.scope scope }

/-- What writing a store into the pail comes to. -/
inductive PailRes where
  | ok (s : State)
  /-- the thread holds 32 entries -/
  | full
  /-- the quadrant's pail has no free entry -/
  | noEntry

/-- Write a store into the pail at a level (R199, R417). -/
def State.pailStore (s : State) (e : Env) (uid : Nat) (t : Thread) (level : Nat) (p : Place) (bs : List Byte) (g : Tag) (scope : Nat) :
    PailRes :=
  let all := s.pailAll t
  let i := p.loc.inGran
  let same (x : PailEntry) : Bool := x.uid == uid && x.level == level && x.loc == p.loc.gran
  if all.any same then .ok (s.setPail t (all.map fun x => if same x then x.merge i bs g scope else x))
  else if 32 ≤ (all.filter fun x => x.uid == uid).length then .full
  else if 256 ≤ all.length then .noEntry
  else .ok (s.setPail t (all ++ [⟨uid, level, p.loc.gran, p.va - i, granBytes i bs, g, p.tagAddr, p.page, scope, e.issuer uid t⟩]))

/-- A lane's store after its checks (R160, R199, R417): pail or store FIFO. `op` gives the operation whose flag it
holds when it enters the FIFO; `s0` is the state before the access. -/
def State.putStore (s0 s : State) (e : Env) (uid : Nat) (t : Thread) (p : Place) (bs : List Byte) (g : Tag) (scope : Nat)
    (acc : List Access) (flag : Option Nat) : LaneRes :=
  let s := s.noteWrite [p.loc.gran] 8 uid
  let direct (s : State) : State :=
    let r := s.newOp [uid] flag 1
    r.1.pushStore uid (mkStore e uid t p bs g scope r.2)
  if t.spec then
    match s.pailStore e uid t t.depth p bs g scope with
    | .ok s => .done s
    | .full => .park s0 .resolution
    | .noEntry => .stall s0 .drain
  else if t.region.isSome then
    match s.pailStore e uid t 0 p bs g scope with
    | .ok s => .done s
    | _ =>
      let b := s.laneBirth e uid t 8 {}
      let s := direct b.1
      if t.policy != 1 then s0.watched s e uid t acc
      else
        let s := match s.watchHit uid e.crewId e.crew.ctx false 0 acc with
          | some tr => (s.faultRecord (e.issuer uid t) tr 0 false false).1
          | none => s
        .trap s { num := 12, cause := 8, tag := b.2 }
  else s0.watched (direct s) e uid t acc

/-- The access of a store as a watchpoint sees it; none on .x. -/
def storeAccess (m : MemArgs) (a : Nat) (g : Tag) : List Access :=
  if m.sp = 2 then [] else [⟨1, m.sp == 1, a, widthOf m.w, g⟩]

/-- A store of a lane, from its address on (R428). -/
def storeLane (m : MemArgs) (fb : Bool) (e : Env) (s : State) (uid : Nat) (t : Thread) : LaneRes :=
  let a := m.addr s t
  let n := widthOf m.w
  match s.place e m.sp n 2 a with
  | (s1, .error tr) => .trap s1 { tr with tag := (s.pair t m.pv).2 }
  | (s1, .ok p) =>
    match s1.colourTrap uid t p a m.pv with
    | some tr => .trap s1 tr
    | none =>
      let g := s.stTag t m.w m.d
      let acc := storeAccess m a g
      if s1.pageHeld uid e.core p false then .stall s1 .drain
      else s1.putStore (s1.noteRemote e.crewId m.sp a) e uid t p (s.stData t m.w m.d) g m.scope acc (e.flag fb)

/-- ST (R427, R428). -/
def execSt (f : FMem) (s : State) : Host.Outcome State Fault Refusal :=
  s.perLane 1 (fun _ => (memArgs f).stChk false) fun e s u t => storeLane (memArgs f) f.f e s u t

/-- ST.strong (R165, R427). -/
def execStStrong (f : FStrong) (s : State) : Host.Outcome State Fault Refusal :=
  s.perLane 1 (fun _ => (strongArgs f).stChk false) fun e s u t => storeLane (strongArgs f) f.f e s u t

/-- A scatter write of a lane (R430): an open region commits first; on .g it joins the gather queue, on .s and .x it
is performed as ST is (log entry 38, DEDUCED). -/
def scatterLane (m : MemArgs) (e : Env) (op : Nat) (s : State) (uid : Nat) (t : Thread) : LaneRes :=
  let a := m.addr s t
  let n := widthOf m.w
  match s.place e m.sp n 2 a with
  | (s1, .error tr) => .trap s1 { tr with tag := (s.pair t m.pv).2 }
  | (s1, .ok p) =>
    match s1.colourTrap uid t p a m.pv with
    | some tr => .trap s1 tr
    | none =>
      let g := s.stTag t m.w m.d
      let s2 := (((s1.commitRegion uid).noteRemote e.crewId m.sp a).noteWrite [p.loc.gran] 8 uid).joinOp op uid 1
      let x := mkStore e uid t p (s.stData t m.w m.d) g 0 op
      let acc := storeAccess m a g
      if s1.pageHeld uid e.core p true then .stall s1 .drain
      else if m.sp = 0 then
        let i := s2.nextStore
        let s3 : State := { s2 with
          stores := SMap.put s2.stores i x, nextStore := i + 1
          gatherQ := SMap.put s2.gatherQ e.core (SMap.getD s2.gatherQ [] e.core ++ [i]) }
        s1.watched s3 e uid t acc
      else s1.watched (s2.pushStore uid x) e uid t acc

/-- STX (R430). -/
def execStx (f : FGather) (s : State) : Host.Outcome State Fault Refusal :=
  s.perLaneOp 1 (fun _ => { (gatherArgs f).stChk true with ordered := true }) f.f fun e op s u t => scatterLane (gatherArgs f) e op s u t

/-! ## COLOR, PREF, CCTL -/

/-- Colour granules from an address on, in ascending order (R351): each change enters the store FIFO, after the thread's
earlier stores to its granule: an open region whose pail holds one commits first (R92; log entry 81, DEDUCED). The first
change that cannot be made gives the lane's trap. -/
def State.colourRange (s : State) (e : Env) (op uid : Nat) (t : Thread) (colour : Nat) (mark : Bool) (tag : Tag) : Nat → Nat → LaneRes
  | 0, _ => .done s
  | n + 1, a =>
    if !ptrOk a then .trap s { num := 7, cause := 3, addr := a, key := keyOf a, tag := tag }
    else
      let r := s.translate e.core e.crew.ctx e.c (a % 2 ^ 48)
      match r.2 with
      | .hit h =>
        if !h.w || !h.peerW then .trap r.1 { num := 9, cause := 2, addr := a, key := keyOf a, tag := tag }
        else if h.ex then .trap r.1 { num := 32, addr := a, key := keyOf a, tag := tag }
        else
          let x : Store := ⟨uid, e.crewId, e.crew.ctx, e.core, h.loc, a % 2 ^ 48, [], 0, h.tagAddr, h.size, 0, some (colour, mark), op, 0, e.issuer uid t, false, false⟩
          let s := if (r.1.pailOf t uid).any fun p => p.loc == h.loc.gran then r.1.commitRegion uid else r.1
          (((s.noteWrite [h.loc] 8 uid).joinOp op uid 1).pushStore uid x).colourRange e op uid t colour mark tag n (a + 16)
      | x => .trap r.1 { transTrap a (keyOf a) x with addr := a, tag := tag }

/-- COLOR of a lane (R351). -/
def colourLane (f : FColor) (e : Env) (op : Nat) (s : State) (uid : Nat) (t : Thread) : LaneRes :=
  let c := (s.reg t f.d.toNat).val.toNat
  let n := (s.reg t f.b.toNat).val.toNat
  let a := (s.pair t f.a.toNat).1.toNat
  let tag := (s.reg t f.d.toNat).tag
  if 16 ≤ c || decide (65536 < n) then .trap s { num := 2, addr := a, tag := tag }
  else if a % 16 != 0 then .trap s { num := 7, cause := 1, addr := a, key := keyOf a, tag := tag }
  else if !ptrOk a then .trap s { num := 7, cause := 3, addr := a, key := keyOf a, tag := tag }
  else s.colourRange e op uid t c f.mark tag n a

/-- COLOR (R351, R92). -/
def execColor (f : FColor) (s : State) : Host.Outcome State Fault Refusal :=
  s.perLaneOp 1
    (fun _ => { uses := [⟨f.d.toNat, 1, 1⟩, ⟨f.a.toNat, 2, 2⟩, ⟨f.b.toNat, 1, 1⟩], src := some f.d.toNat,
                addr := some (f.a.toNat, 0), stall := true }) f.f
    fun e op s u t => colourLane f e op s u t

/-- PREF of a lane (R410): it fills the L1 line, or is dropped (log entry 39, DEDUCED). -/
def State.prefLane (s : State) (e : Env) (t : Thread) (a : Nat) : State :=
  if !ptrOk a then s
  else
    let r := s.translate e.core e.crew.ctx e.c (a % 2 ^ 48)
    match r.2 with
    | .hit h =>
      match h.loc with
      | .hbm x =>
        let line := r.1.fillLine e.core x h.tagAddr h.ptag
        if !h.r || line.tags.any twPoison then r.1
        else r.1.putLine t.core t.quad x line
      | _ => r.1
    | _ => s

/-- PREF (R410) (log entry 39, DEDUCED). -/
def execPref (a : VReg) (s : State) : Host.Outcome State Fault Refusal :=
  s.perLane 1 (fun _ => { uses := [⟨a.toNat, 2, 2⟩], src := some a.toNat, addr := some (a.toNat, 0) })
    fun e s _ t => .done (s.prefLane e t (s.pair t a.toNat).1.toNat)

/-- CCTL (R348). -/
def execCctl (s : State) : Host.Outcome State Fault Refusal :=
  s.perGroup 1 (fun _ => {}) fun e s l => .done (if l.isEmpty then s else s.dropL1 e.core e.quad) []

end Sys2Proof.Machine
end

