-- ==== Sys2Proof/Machine/Order.lean ====
section
/-! DEFINITION. Steps of the ordering machine (R159 to R161, R170 to R172): drains of the store FIFO, the core, die and
fabric points, and the gather and landing queues. -/

namespace Sys2Proof.Machine

/-- A crew whose scratchpad holds a physical byte, with the byte's offset in it. -/
def State.crewAt (s : State) (core b : Nat) : Option (Nat × Crew) :=
  s.crews.find? fun e => e.2.core == core && e.2.placed && decide (128 * e.2.base ≤ b) && decide (b < 128 * (e.2.base + e.2.lines))

/-- An ordinary write to the bytes of a barrier object in use: the barrier unit tests it again (R178, log entry 16, DEDUCED). -/
def State.barRetest (s : State) (l : Loc) : State :=
  match l.canon.gran with
  | .scr core b =>
    match s.crewAt core b with
    | some (_, c) => if c.objs.contains (b - 128 * c.base) then s.stepBar core b id else s
    | none => s
  | _ => s

/-- Bytes a store writes, as a range. -/
def Store.len (x : Store) : Nat := x.data.length

/-- Whether two locations lie in one space, with their byte numbers. -/
def Loc.place? : Loc → Nat × Nat
  | .hbm a => (0, a)
  | .host a => (1, a)
  | .peer d p a => (2 + d * 8 + p, a)
  | .win c o => (1000000 + c, o)
  | .scr c b => (2000000 + c, b)

/-- Whether two accesses are of one thread to one host or peer page: they stay in order (R171). -/
def Store.samePage (old x : Store) : Bool :=
  old.uid == x.uid && old.loc.fabric && x.loc.fabric && old.va / old.page == x.va / old.page

/-- Whether an older entry must leave before this one (R161, R92): both name one granule (log entry 29, DEDUCED), and where one is
a COLOR both are, or both are of one thread; or both are of one thread to one host or peer page (R171). -/
def Store.blocks (old x : Store) : Bool :=
  (old.loc.gran == x.loc.gran && (old.color.isSome == x.color.isSome || old.uid == x.uid)) || old.samePage x

/-- Whether a store of a lower lane of the same STX to the same granule still stands in its thread's FIFO: the lanes of one
scatter are applied in ascending order (R82). -/
def State.lowerLane (s : State) (n : Nat) (x : Store) : Bool :=
  x.color.isNone && s.stores.any fun y => decide (y.1 < n) && y.2.op == x.op && y.2.uid != x.uid && y.2.color.isNone &&
    y.2.loc.gran == x.loc.gran && ((s.thread? y.2.uid).map fun t => t.fifo.contains y.1) == some true

/-- Whether two stores write a common byte. -/
def Store.meets (old x : Store) : Bool :=
  let a := old.loc.place?
  let b := x.loc.place?
  a.1 == b.1 && decide (a.2 < b.2 + x.len) && decide (b.2 < a.2 + old.len)

/-- Whether a marker of the core stands ahead of an entry with older entries still before it. -/
def markerBlocks (ms : List Nat) (older : List Store) (x : Store) : Bool :=
  ms.any fun m => decide (m ≤ x.seq) && older.any fun y => decide (y.seq < m)

/-- Forget a store that has been performed. -/
def State.dropStore (s : State) (n : Nat) (x : Store) : State :=
  ((({ s with stores := SMap.del s.stores n }).opDone x.op).settleCrew x.crew).settleCore x.core

/-- A COLOR change reaching the device point (R92, R351). -/
def State.performColor (s : State) (x : Store) (c : Nat × Bool) : State :=
  match x.tagAddr with
  | none => s
  | some ta =>
    let w := s.tagWord ta
    let new : Word := b1 (twPoison w) ++ b1 (c.2 || bit w 30) ++ fld w 28 2 ++ BitVec.ofNat 4 c.1 ++ fld w 0 24
    (s.markDirty x.ctx x.va x.loc).setTagWord ta new

/-- The data of a landing that writes the low four bits of its last byte, over the byte as it stands (R146). -/
def State.keepHigh (s : State) (x : Store) : List (Option Byte) :=
  let n := x.data.length - 1
  let old := (s.readLoc (x.loc.add n) 1).getD 0 0
  x.data.take n ++ (x.data.drop n).map fun o => o.map fun b => (old &&& 0xF0) ||| (b &&& 0x0F)

/-- A store is performed at its point: bytes, eartag, dirty bit and monitors in one step (R81, R182). -/
def State.performStore (s : State) (x : Store) : State :=
  match x.color with
  | some c => s.performColor x c
  | none => (s.performMasked x.ctx x.va x.loc (if x.half then s.keepHigh x else x.data) x.tag x.tagAddr).barRetest x.loc

/-- A store reaches the device point: it is performed, or passes to the fabric point (R161, R171). -/
def State.reachDevice (s : State) (n : Nat) (x : Store) : State :=
  if x.loc.fabric then { s with fabric := s.fabric ++ [n] } else (s.performStore x).dropStore n x

/-- A thread that has ended frees its slot with its last store (R365). -/
def State.freeDrained (s : State) (uid : Nat) : State :=
  match s.thread? uid with
  | none => s
  | some t =>
    if t.status == .draining && t.fifo.isEmpty then ({ s with threads := SMap.del s.threads uid } : State).settleCrew t.crew else s

/-- STORE_FIFO_DRAIN (R160): the oldest entry enters the core point; a store to the own scratchpad is performed there. The
watch hits of an entry that comes from the pail are judged here (R96, R428). -/
def execStoreFifoDrain (uid : Nat) (s : State) : Host.Outcome State Fault Refusal :=
  match s.thread? uid with
  | none => .refused (.cannotOccur "STORE_FIFO_DRAIN")
  | some t =>
    match t.fifo with
    | [] => .refused (.cannotOccur "STORE_FIFO_DRAIN")
    | n :: rest =>
      match SMap.get? s.stores n with
      | none => .refused (.cannotOccur "STORE_FIFO_DRAIN")
      | some x =>
        if s.lowerLane n x then .refused (.cannotOccur "STORE_FIFO_DRAIN") else
        let s := s.modThread uid fun t => { t with fifo := rest }
        let own : Bool := match x.loc with
          | .scr c _ => c == t.core
          | _ => false
        if own then .next ((((s.performStore x).dropStore n x).pailWatch x).freeDrained uid)
        else
          let s := s.dropLine t.core x.loc
          let x' := { x with seq := s.nextStore, core := t.core, pailed := false }
          .next ((({ s with
            stores := SMap.put s.stores n x', nextStore := s.nextStore + 1
            corePoint := SMap.put s.corePoint t.core (SMap.getD s.corePoint [] t.core ++ [n]) } : State).pailWatch x).freeDrained uid)

/-- The entry at a place of a queue, with the entries before it. -/
def State.queued (s : State) (q : List Nat) (i : Nat) : Option (Nat × Store × List Store) :=
  match q[i]? with
  | none => none
  | some n => (SMap.get? s.stores n).map fun x => (n, x, s.storesOf (q.take i))

/-- A store that is strong at die scope or narrower has reached its meeting point at the die point (R429). -/
def State.dieFlag (s : State) (n : Nat) (x : Store) : State :=
  if x.scope != 0 && meetLevel (x.scope - 1) ≤ 1 && !x.loc.fabric then
    ({ s with stores := SMap.put s.stores n { x with op := 0 } }).opDone x.op
  else s

/-- CORE_POINT_DRAIN (R161): a global store leaves for the die point. -/
def execCorePointDrain (core i : Nat) (s : State) : Host.Outcome State Fault Refusal :=
  let q := SMap.getD s.corePoint [] core
  match s.queued q i with
  | none => .refused (.cannotOccur "CORE_POINT_DRAIN")
  | some (n, x, older) =>
    if x.loc.isScr || older.any (fun y => y.blocks x) || markerBlocks (SMap.getD s.markers [] core) (s.storesOf q) x then
      .refused (.cannotOccur "CORE_POINT_DRAIN")
    else
      let d := dieOf core
      .next ({ s with
        corePoint := SMap.setD s.corePoint [] core (q.eraseIdx i)
        diePoint := SMap.put s.diePoint d (SMap.getD s.diePoint [] d ++ [n]) }.dieFlag n x)

/-- DIE_POINT_DRAIN (R161): a store leaves for the device point, which fixes its place in the coherence order; a strong
one drops its quadrant's L1 copy of the line (R164, log entry 28, DEDUCED). -/
def execDiePointDrain (die i : Nat) (s : State) : Host.Outcome State Fault Refusal :=
  let q := SMap.getD s.diePoint [] die
  match s.queued q i with
  | none => .refused (.cannotOccur "DIE_POINT_DRAIN")
  | some (n, x, older) =>
    let mine := (s.storesOf q).filter fun y => y.core == x.core
    if older.any (fun y => y.blocks x) || markerBlocks (SMap.getD s.markers [] x.core) mine x then
      .refused (.cannotOccur "DIE_POINT_DRAIN")
    else
      let s : State := { s with diePoint := SMap.setD s.diePoint [] die (q.eraseIdx i) }
      .next ((if x.scope != 0 then s.dropCopy x.core x.iss.quad x.loc else s).reachDevice n x)

/-- FABRIC_POINT_PERFORM (R171): an access to a host or peer page is performed; those of one thread to one page stay in
order. -/
def execFabricPointPerform (i : Nat) (s : State) : Host.Outcome State Fault Refusal :=
  match s.queued s.fabric i with
  | none => .refused (.cannotOccur "FABRIC_POINT_PERFORM")
  | some (n, x, older) =>
    if older.any fun y => y.samePage x then
      .refused (.cannotOccur "FABRIC_POINT_PERFORM")
    else .next ((({ s with fabric := s.fabric.eraseIdx i } : State).performStore x).dropStore n x)

/-- GATHER_WRITE_PERFORM (R172, R430): a scatter write reaches the device point, in no order but that of the lanes of
one STX on one granule. -/
def execGatherWritePerform (core i : Nat) (s : State) : Host.Outcome State Fault Refusal :=
  let q := SMap.getD s.gatherQ [] core
  match s.queued q i with
  | none => .refused (.cannotOccur "GATHER_WRITE_PERFORM")
  | some (n, x, older) =>
    if older.any (fun y => y.op == x.op && y.loc.gran == x.loc.gran) then .refused (.cannotOccur "GATHER_WRITE_PERFORM")
    else .next (({ s with gatherQ := SMap.setD s.gatherQ [] core (q.eraseIdx i) } : State).reachDevice n x)

/-- COPY_GLOBAL_PERFORM (R172, R173): a landing leaves the copy queue's landing stage for the device point, in no
defined order but that of one copy's landings on the same bytes (R148). -/
def execCopyGlobalPerform (core i : Nat) (s : State) : Host.Outcome State Fault Refusal :=
  let q := SMap.getD s.landing [] core
  match s.queued q i with
  | none => .refused (.cannotOccur "COPY_GLOBAL_PERFORM")
  | some (n, x, older) =>
    if older.any fun y => y.seq == x.seq && y.meets x then .refused (.cannotOccur "COPY_GLOBAL_PERFORM")
    else .next (({ s with landing := SMap.setD s.landing [] core (q.eraseIdx i) } : State).reachDevice n x)

/-- REMOTE_STORE_PERFORM (R170): a .x store travels from its core point to the target member's, in the order of its
thread's stores to that target. -/
def execRemoteStorePerform (core i : Nat) (s : State) : Host.Outcome State Fault Refusal :=
  let q := SMap.getD s.corePoint [] core
  match s.queued q i with
  | none => .refused (.cannotOccur "REMOTE_STORE_PERFORM")
  | some (n, x, older) =>
    let tgt (y : Store) : Nat := y.loc.place?.1
    if !x.loc.isScr || older.any (fun y => y.blocks x || (y.loc.isScr && y.uid == x.uid && tgt y == tgt x)) ||
        markerBlocks (SMap.getD s.markers [] core) (s.storesOf q) x then
      .refused (.cannotOccur "REMOTE_STORE_PERFORM")
    else .next ((({ s with corePoint := SMap.setD s.corePoint [] core (q.eraseIdx i) } : State).performStore x).dropStore n x)

end Sys2Proof.Machine
end

