-- ==== Sys2Proof/Machine/Atomics.lean ====
section
/-! DEFINITION. ATOM and RED: the warp aggregator (R166, R186, R187, R333 to R335, R414). -/

namespace Sys2Proof.Machine

/-- The operands of ATOM and RED: operation, type, scope code, address pair, data register, and ATOM's destination. -/
structure AtomArgs where
  aop : Nat
  ty : Nat
  sc : Nat
  pv : Nat
  b : Nat
  d : Option Nat
  deriving DecidableEq, Repr

/-- ATOM's operands (R333). -/
def atomArgs (f : FAtom) : AtomArgs := ⟨f.aop.toNat, f.t.toNat, f.sc.toNat, 2 * f.p.toNat, f.b.toNat, some f.d.toNat⟩
/-- RED's operands (R414). -/
def redArgs (f : FRed) : AtomArgs := ⟨f.aop.toNat, f.t.toNat, f.sc.toNat, 2 * f.p.toNat, f.b.toNat, none⟩

/-- Whether the type is 64-bit. -/
def AtomArgs.wide (m : AtomArgs) : Bool := m.ty == 2 || m.ty == 3
/-- Bits of the type. -/
def AtomArgs.bits (m : AtomArgs) : Nat := if m.wide then 64 else 32
/-- The space code: .s for SC 7, else .g. -/
def AtomArgs.sp (m : AtomArgs) : Nat := if m.sc = 7 then 1 else 0

/-- One lane's step on the value in memory (R186): the new value, whether the lane's value won, and the birth kind. -/
def atomStep (aop ty : Nat) (m x c : Nat) : Nat × Bool × Nat :=
  let w := if ty = 2 ∨ ty = 3 then 64 else 32
  let signed := ty == 0 || ty == 2
  match aop with
  | 0 => if ty = 4 then (let y := floatBin fF32 0 false m x; (y.1, false, y.2)) else ((m + x) % 2 ^ w, false, 0)
  | 1 =>
    if ty = 4 then (let y := fF32.minmax false false m x; (y.1, y.2 == 2, 0))
    else (let y := (intOp 6 w signed m x).bits; (y, y == x && m != x, 0))
  | 2 =>
    if ty = 4 then (let y := fF32.minmax false true m x; (y.1, y.2 == 2, 0))
    else (let y := (intOp 7 w signed m x).bits; (y, y == x && m != x, 0))
  | 3 => (bitOp 0 m x, false, 0)
  | 4 => (bitOp 1 m x, false, 0)
  | 5 => (bitOp 2 m x, false, 0)
  | 6 => (x, false, 0)
  | _ => (if m = c then x else m, false, 0)

/-- Checks 2 to 5 of R329: an A-tagged operand is a use with cause 5 (R335). -/
def AtomArgs.chk (m : AtomArgs) : Chk :=
  let two (v : Nat) : List Nat := if m.wide then [v, v + 1] else [v]
  let dl := match m.d with
    | none => []
    | some d => two d
  { uses := [⟨m.pv, 2, 1⟩, use m.wide m.b] ++ (match m.d with | none => [] | some d => [use m.wide d])
    anom := [m.pv, m.pv + 1] ++ two m.b ++ dl
    acause := 5, src := some m.pv, addr := some (m.pv, 0), stall := true }

/-- What the filter makes of a lane (R186). -/
inductive Filtered where
  | ok (p : Place)
  | trap (t : Trap)
  /-- its scratchpad line has copies in flight (R142) -/
  | busy (core line : Nat)

/-- The filter of a lane: address, translation with both permissions, and colour against the tag word at the device
point (R90, R186). -/
def atomFilter (m : AtomArgs) (e : Env) (s : State) (t : Thread) : State × Filtered :=
  let a := (s.pair t m.pv).1.toNat
  let tag := (s.pair t m.pv).2
  match s.place e m.sp (m.bits / 8) 3 a with
  | (s1, .error tr) => (s1, .trap { tr with tag := tag })
  | (s1, .ok p) =>
    let lock := match p.hit, p.loc with
      | none, _ => 0
      | _, .win _ _ => 0
      | some h, _ => h.lock (s1.twAt p.loc p.tagAddr p.ptag)
    if m.sp = 0 && colourBad (keyOf a) lock then (s1, .trap { num := 10, addr := a, key := keyOf a, lock := lock, tag := tag })
    else match s1.busyLine p.loc with
      | some (c, l) => (s1, .busy c l)
      | none => (s1, .ok p)

/-- A lane that has passed the filter. -/
structure Applied where
  uid : Nat
  t : Thread
  p : Place
  deriving DecidableEq, Repr

/-- Run the filter over the lanes in ascending order. -/
def atomFilterAll (m : AtomArgs) (e : Env) : State → List (Nat × Thread) → State × List Applied × List (Nat × Trap) × List (Nat × Wait)
  | s, [] => (s, [], [], [])
  | s, (u, t) :: rest =>
    let r := atomFilter m e s t
    let q := atomFilterAll m e r.1 rest
    match r.2 with
    | .ok p => (q.1, ⟨u, t, p⟩ :: q.2.1, q.2.2.1, q.2.2.2)
    | .trap tr => (q.1, q.2.1, (u, tr) :: q.2.2.1, q.2.2.2)
    | .busy c l => (q.1, q.2.1, q.2.2.1, (u, .presence c l) :: q.2.2.2)

/-- A request's running value: bits, the winner's eartag, the birth rule's eartag so far, and its record. -/
structure Request where
  s : State
  bits : Nat
  win : Tag
  first : Option Tag
  born : Option Tag
  old : List (Applied × Nat)

/-- Apply one lane to a request (R186, R334): the first birth writes one record, an engine's. -/
def Request.lane (m : AtomArgs) (e : Env) (s0 : State) (r : Request) (x : Applied) : Request :=
  let v := s0.src x.t m.wide m.b
  let c := match m.d with
    | none => 0
    | some d => (s0.src x.t m.wide d).bits
  let y := atomStep m.aop m.ty r.bits v.bits c
  let first := noteTag r.first v.tag
  if y.2.2 != 0 && r.born.isNone then
    let b := r.s.birth (e.issuer x.uid x.t) y.2.2
      { va := BitVec.ofNat 32 r.bits, vb := BitVec.ofNat 32 v.bits, ta := r.first.getD r.win, tb := v.tag } true false
    { s := b.1, bits := y.1, win := if y.2.1 then v.tag else r.win, first := first, born := some b.2, old := r.old ++ [(x, r.bits)] }
  else
    { r with bits := y.1, win := if y.2.1 then v.tag else r.win, first := first, old := r.old ++ [(x, r.bits)] }

/-- The watch outcome of an atomic of a lane (R94, R95): the compared eartag is the old granule's. -/
def State.atomWatch (s : State) (e : Env) (m : AtomArgs) (x : Applied) (a : Nat) (tag : Tag) : List (Nat × Trap) :=
  ((s.watchHit x.uid e.crewId e.crew.ctx false 0 [⟨2, m.sp == 1, a, m.bits / 8, tag⟩]).map fun t => (x.uid, t)).toList

/-- One request, in one step at its point (R166, R334): the lanes in ascending order; a poisoned granule applies none
(R186). -/
def atomRequest (m : AtomArgs) (e : Env) (s0 : State) (acc : State × List (Nat × Trap)) (l : List Applied) : State × List (Nat × Trap) :=
  match l with
  | [] => acc
  | x0 :: _ =>
    let s := acc.1
    let p := x0.p
    let tw := s.twAt p.loc p.tagAddr p.ptag
    let addr (x : Applied) : Nat := (s0.pair x.t m.pv).1.toNat
    if twPoison tw then
      (s, acc.2 ++ l.map fun x => (x.uid, { num := 11, addr := addr x, key := if m.sp = 0 then keyOf (addr x) else 0, tag := (s0.pair x.t m.pv).2 }))
    else
      let m0 := ofBytes (s.readLoc p.loc (m.bits / 8))
      let t := twTag tw
      let r := l.foldl (Request.lane m e s0) ⟨s, m0, t, noteTag none t, none, []⟩
      let tag := match r.born with
        | some g => g
        | none => if m.aop = 1 ∨ m.aop = 2 then r.win else r.first.getD e.ownTag
      let s := (r.s.performWrite e.crew.ctx p.va p.loc (toBytes (m.bits / 8) r.bits) tag p.tagAddr).barRetest p.loc
      let s := s.dropLine e.core p.loc
      let s := match m.d with
        | none => s
        | some d => r.old.foldl (fun (s : State) x => s.setRegs x.1.t d (resultRegs m.bits x.2 t)) s
      let s := l.foldl (fun (s : State) x => s.noteWrite [p.loc.gran] 8 x.uid) s
      (s, acc.2 ++ l.flatMap fun x => s.atomWatch e m x (addr x) t)

/-- Whether an atomic still waits for its threads' stores (R166): their FIFOs, and the core's entries to its addresses (log entry 40, DEDUCED). -/
def State.atomWaits (s : State) (l : List Applied) : Bool :=
  l.any fun x => s.storesPending x.t x.p.loc || s.pageHeld x.uid x.t.core x.p true ||
    (s.storesOf s.fabric).any fun y => y.core == x.t.core && y.loc.gran == x.p.loc.gran

/-- The lanes that have passed the filter, and wait for their requests' steps (log entry 40, DEDUCED). -/
def atomHeld (m : AtomArgs) (e : Env) : State → List (Nat × Thread) → State × List Applied
  | s, [] => (s, [])
  | s, (u, t) :: rest =>
    let r := s.place e m.sp (m.bits / 8) 3 (s.pair t m.pv).1.toNat
    let q := atomHeld m e r.1 rest
    match t.wait, r.2 with
    | some (.request _), .ok p => (q.1, ⟨u, t, p⟩ :: q.2)
    | _, _ => q

/-- The request of the lowest lane takes its step; the lanes of the others hold the warp (R186) (log entry 40, DEDUCED). -/
def atomFirst (m : AtomArgs) (e : Env) (s : State) (ts : List (Nat × Trap)) (gone : List Nat) (l : List Applied) : GroupRes :=
  match l with
  | [] => .part s gone ts
  | x :: xs =>
    let mine := (x :: xs).filter fun y => y.p.loc == x.p.loc
    let r := atomRequest m e s (s, ts) mine
    .part ((xs.filter fun y => y.p.loc != x.p.loc).foldl (fun (s : State) y => s.modThread y.uid fun t => { t with wait := some (.request y.p.loc) }) r.1)
      (gone ++ mine.map (·.uid)) r.2

/-- ATOM and RED (R186, R334, R335): open regions commit; the lanes are filtered; the stores to their addresses drain;
then each request takes its step, one at a time in ascending order of its lowest lane, and other agents may step between
them (log entry 40, DEDUCED). -/
def atomic (m : AtomArgs) (s : State) : Host.Outcome State Fault Refusal :=
  s.perGroup 1 (fun _ => m.chk) fun e s l =>
    let held := l.filter fun x => match x.2.wait with | some (.request _) => true | _ => false
    if !held.isEmpty then
      let q := atomHeld m e s held
      atomFirst m e q.1 [] (held.map (·.1) |>.filter fun u => !(q.2.any fun y => y.uid == u)) q.2
    else
      let s1 := l.foldl (fun (s : State) x => s.commitRegion x.1) s
      let l1 := l.filterMap fun x => (s1.thread? x.1).map fun t => (x.1, t)
      let q := atomFilterAll m e s1 l1
      if q.1.atomWaits q.2.1 then .stall q.1
      else
        let s2 := q.2.1.foldl (fun (s : State) x => s.wokenAcquire x.uid x.t) q.1
        let s3 := q.2.2.2.foldl (fun (s : State) x => s.park e x.1 x.2) s2
        atomFirst m e s3 q.2.2.1 [] q.2.1

/-- ATOM (R333 to R335). -/
def execAtom (f : FAtom) (s : State) : Host.Outcome State Fault Refusal := atomic (atomArgs f) s
/-- RED (R414). -/
def execRed (f : FRed) (s : State) : Host.Outcome State Fault Refusal := atomic (redArgs f) s

end Sys2Proof.Machine
end

