-- ==== Sys2Proof/Machine/Sync.lean ====
section
/-! DEFINITION. Synchronisation of major 24: barrier objects (R177 to R181, R336, R337, R434, R435), the crew and gang
barriers (R183, R184, R358, R376), meets (R393 to R395), monitors (R182, R399, R404), fences (R167, R174, R372, R373). -/

namespace Sys2Proof.Machine

/-- An instruction issued once (R329): lane e, the lowest lane of the group, supplies the operands and alone takes the
checks 6 to 9; `f` also gets the lanes of the group. -/
def State.once (s : State) (size : Nat) (k : Env → Chk) (f : Env → State → Nat → Thread → List Nat → LaneRes) :
    Host.Outcome State Fault Refusal :=
  s.perGroup size k fun e s l =>
    match l with
    | [] => .done s []
    | (u, t) :: _ =>
      match f e s u t (l.map (·.1)) with
      | .done s => .done s []
      | .stall s w => .stall (s.modThread u fun t => { t with wait := some w })
      | .park s w => .done (s.park e u w) []
      | .trap s tr => .done s [(u, tr)]
      | .gone s => .done s []

/-! ## Barrier objects -/

/-- The address operand of a barrier object: pair, offset in granules, space (R336, R434). -/
structure ObjArgs where
  pv : Nat
  off : Nat
  sp : Nat
  deriving DecidableEq, Repr

/-- The object address of a lane (R336). -/
def ObjArgs.addr (m : ObjArgs) (s : State) (t : Thread) : Nat := addOff m.sp (s.pair t m.pv).1.toNat (16 * m.off)

/-- The object operand's checks 2 to 5. -/
def ObjArgs.chk (m : ObjArgs) (more : List Use) : Chk :=
  { uses := ⟨m.pv, 2, 1⟩ :: more, src := some m.pv, addr := some (m.pv, 16 * m.off), stall := true }

/-- A trap of a lane that names the object. -/
def ObjArgs.trap (m : ObjArgs) (s : State) (t : Thread) (num cause : Nat) : Trap :=
  { num := num, cause := cause, addr := m.addr s t, tag := (s.pair t m.pv).2 }

/-- The core and byte of the object, after the address checks (R133). -/
def ObjArgs.place (m : ObjArgs) (s : State) (e : Env) (t : Thread) : Except Trap (Nat × Nat) :=
  match s.addrCheck e.crew e.launch m.sp 16 16 (m.addr s t) with
  | .trap n c => .error (m.trap s t n c)
  | .loc (.scr c b) => .ok (c, b)
  | _ => .error (m.trap s t 7 2)

/-- Drain a lane's earlier scratchpad stores (R337): those of an open region commit first. `none` while some stand in
its store FIFO. -/
def State.scrDrained (s : State) (uid : Nat) (t : Thread) : State × Bool :=
  let s := if (s.pailOf t uid).any (fun p => p.loc.isScr) then s.commitRegion uid else s
  (s, !((s.storesOf (((s.thread? uid).map (·.fifo)).getD [])).any fun x => x.loc.isScr))

/-- The object BARINIT writes (R179). -/
def freshBar (arv : Bool) (n : Nat) : Bar := ⟨0, n, n, 0, if arv then 9 else 0⟩

/-- BARINIT takes its step: the object, the granule's eartag (R255), and the crew's list of objects in use. -/
def State.initBar (s : State) (e : Env) (core b : Nat) (arv : Bool) (n : Nat) : State :=
  let s := s.stepBar core b fun _ => freshBar arv n
  let off := b - 128 * e.crew.base
  { s with
    scrTag := SMap.setD s.scrTag 0 (granKey core b) e.ownTag
    crews := SMap.mod s.crews e.crewId fun c => { c with objs := if c.objs.contains off then c.objs else c.objs ++ [off], came := SMap.del c.came off } }

/-- BARINIT of lane e (R179, R337). -/
def barInit (m : ObjArgs) (size : Nat) (arv : Bool) (n : Nat) (s : State) : Host.Outcome State Fault Refusal :=
  s.once size (fun _ => m.chk []) fun e s u t _ =>
    if arv && n == 0 then .trap s (m.trap s t 2 0)
    else match m.place s e t with
      | .error tr => .trap s tr
      | .ok (c, b) =>
        let d := s.scrDrained u t
        if d.2 then .done (d.1.initBar e c b arv n) else .stall d.1 .drain

/-- BARINIT with n in the instruction word (R336). -/
def execBarinit (f : FBarInit) (s : State) : Host.Outcome State Fault Refusal :=
  barInit ⟨2 * f.p.toNat, f.off.toNat, 1⟩ 1 f.arv f.n.toNat s

/-- BARINIT with n in the extension word (R336). -/
def execBarinitLong (f : FBarInitL) (s : State) : Host.Outcome State Fault Refusal :=
  barInit ⟨2 * f.p.toNat, f.off.toNat, 1⟩ 2 f.arv f.n.toNat s

/-- BAREXP of lane e (R179, R337): vN is at most 2^24, and BYTES stays at or below 2^31 − 1. -/
def execBarexp (f : FObjReg) (s : State) : Host.Outcome State Fault Refusal :=
  let m : ObjArgs := ⟨2 * f.p.toNat, f.off.toNat, 1⟩
  s.once 1 (fun _ => m.chk [⟨f.r.toNat, 1, 1⟩]) fun e s u t _ =>
    let n := (s.reg t f.r.toNat).val.toNat
    if 2 ^ 24 < n then .trap s (m.trap s t 2 0)
    else match m.place s e t with
      | .error tr => .trap s tr
      | .ok (c, b) =>
        let d := s.scrDrained u t
        if !d.2 then .stall d.1 .drain
        else if 2 ^ 31 ≤ (d.1.barAt c b).bytes + n then .trap d.1 (m.trap s t 2 0)
        else .done (d.1.stepBar c b fun x => { x with bytes := x.bytes + n }.setBit 0 true)

/-- A remote arrival reaches a member's barriers: its remote-activity bit for the gang is set (R56). -/
def State.remoteArrival (s : State) (launch g core b : Nat) : State :=
  match s.crewAt core b with
  | none => s
  | some (i, _) =>
    { s with crews := SMap.mod s.crews i fun c => if c.launch = launch then
        { c with gangs := c.gangs.map fun x => if x.entry == g then { x with remote := true } else x } else c }

/-- One arrival at an object (R179): an object with no arrival due overruns. -/
def Bar.arrive (x : Bar) : Bar := if x.arr = 0 then x.setBit 1 true else { x with arr := x.arr - 1 }

/-- Note in the wait-for table that a thread of the owning crew has arrived in the object's current phase (R188). -/
def State.noteCame (s : State) (crew core b uid : Nat) : State :=
  match s.crewAt core b with
  | none => s
  | some (i, c) =>
    if i != crew then s
    else
      let off := b - 128 * c.base
      let ph := (s.barAt core b).phase
      let old := match SMap.get? c.came off with
        | some (p, l) => if p = ph then l else []
        | none => []
      { s with crews := SMap.put s.crews i { c with came := SMap.put c.came off (ph, if old.contains uid then old else old ++ [uid]) } }

/-- The releases of several lanes, one try: whether one of them waits. -/
def releaseAll (scope : Nat) : State → List Nat → State × Bool
  | s, [] => (s, false)
  | s, u :: us =>
    match s.releaseTry u scope with
    | (s1, none) => releaseAll scope s1 us
    | (s1, some w) => ((releaseAll scope (s1.modThread u fun t => { t with wait := some w }) us).1, true)

/-- The arrival of a lane at an object (R179, R337). -/
def arriveLane (m : ObjArgs) (e : Env) (s : State) (uid : Nat) (t : Thread) (c b : Nat) : State × List (Nat × Trap) :=
  let a := m.addr s t
  let s1 := if m.sp = 2 then (s.noteRemote e.crewId 2 a).remoteArrival e.crew.launch (nfld a 48 8) c b else s
  if (s1.barAt c b).arr == 0 then (s1.stepBar c b Bar.arrive, [(uid, m.trap s t 19 1)])
  else ((s1.noteCame e.crewId c b uid).stepBar c b Bar.arrive, [])

/-- The arrivals of the lanes, in ascending order; a lane whose address fails traps. -/
def arriveLanes (m : ObjArgs) (e : Env) (s : State) (l : List (Nat × Thread)) : State × List (Nat × Trap) :=
  l.foldl (fun acc x => match m.place acc.1 e x.2 with
    | .error tr => (acc.1, acc.2 ++ [(x.1, tr)])
    | .ok p =>
      let r := arriveLane m e acc.1 x.1 x.2 p.1 p.2
      (r.1, acc.2 ++ r.2)) (s, [])

/-- BARARV (R337): the lanes' releases come first, at crew scope, or at gang scope on .x; then each lane arrives, in
ascending order. -/
def execBararv (f : FBarArv) (s : State) : Host.Outcome State Fault Refusal :=
  let m : ObjArgs := ⟨2 * f.p.toNat, f.off.toNat, if f.x then 2 else 1⟩
  s.perGroup 1 (fun _ => m.chk []) fun e s l =>
    let ok := (l.filter fun x => (m.place s e x.2).toOption.isSome).map (·.1)
    let r := releaseAll (if m.sp = 2 then 2 else 0) s ok
    if r.2 then .stall r.1
    else
      let q := arriveLanes m e r.1 l
      .done q.1 q.2

/-! ## Phase waits (R181, R435) -/

/-- What a lane finds at the object it waits on. -/
inductive PhaseRes where
  | passed
  | trap (t : Trap)
  | wait
  deriving DecidableEq, Repr

/-- Judge an object against phase `n` (R181): a parked lane keeps what the object came to while it waited. -/
def ObjArgs.judge (m : ObjArgs) (s : State) (t : Thread) (core b n : Nat) : PhaseRes :=
  let w : Option Wait := match t.wait with
    | some .woken => some .woken
    | some (.failed k c) => some (.failed k c)
    | _ => (s.barAt core b).wakes n
  match w with
  | none => .wait
  | some (.failed k c) => .trap (m.trap s t k c)
  | some _ => .passed

/-- WAITP of a lane (R435). -/
def waitLane (m : ObjArgs) (n : Nat) (e : Env) (s : State) (uid : Nat) (t : Thread) : LaneRes :=
  match m.place s e t with
  | .error tr => .trap s tr
  | .ok (c, b) =>
    match m.judge s t c b n with
    | .passed => .done (s.acquire uid)
    | .trap tr => .trap s tr
    | .wait => .park s (.phase (.scr c b) n)

/-- WAITP with n in the instruction word (R434). -/
def execWaitp (f : FWait) (s : State) : Host.Outcome State Fault Refusal :=
  let m : ObjArgs := ⟨2 * f.p.toNat, f.off.toNat, 1⟩
  s.perLane 1 (fun _ => m.chk []) fun e s u t => waitLane m f.n.toNat e s u t

/-- WAITP with n in a register (R434). -/
def execWaitpReg (f : FObjReg) (s : State) : Host.Outcome State Fault Refusal :=
  let m : ObjArgs := ⟨2 * f.p.toNat, f.off.toNat, 1⟩
  s.perLane 1 (fun _ => m.chk [⟨f.r.toNat, 1, 1⟩]) fun e s u t => waitLane m (s.reg t f.r.toNat).val.toNat e s u t

/-- WAITP with n in the extension word (R434). -/
def execWaitpLong (f : FWaitL) (s : State) : Host.Outcome State Fault Refusal :=
  let m : ObjArgs := ⟨2 * f.p.toNat, f.off.toNat, 1⟩
  s.perLane 2 (fun _ => m.chk []) fun e s u t => waitLane m f.n.toNat e s u t

/-- Park with a timer that keeps what is left of it. -/
def State.parkTimed (s : State) (e : Env) (uid : Nat) (t : Thread) (w : Wait) (cycles : Nat) : State :=
  (s.park e uid w).modThread uid fun x => { x with timer := some (t.timer.getD cycles) }

/-- TRYWAIT of a lane (R181, R435): a hint of 0 tests once. -/
def tryLane (m : ObjArgs) (pd : PReg) (n hint : Nat) (e : Env) (s : State) (uid : Nat) (t : Thread) : LaneRes :=
  let put (s : State) (b : Bool) : State := s.modThread uid fun t => t.setPred pd b
  match m.place s e t with
  | .error tr => .trap s tr
  | .ok (c, b) =>
    match m.judge s t c b n with
    | .passed => .done (put (s.acquire uid) true)
    | .trap tr => .trap s tr
    | .wait => if t.timedOut || hint == 0 then .done (put s false) else .gone (s.parkTimed e uid t (.phase (.scr c b) n) hint)

/-- TRYWAIT (R434). -/
def execTrywait (f : FTry) (s : State) : Host.Outcome State Fault Refusal :=
  let m : ObjArgs := ⟨2 * f.p.toNat, f.off.toNat, 1⟩
  let more : List Use := match f.n with
    | .imm _ => []
    | .reg r => [⟨r.toNat, 1, 1⟩]
  s.perLane 2 (fun _ => m.chk (⟨f.h.toNat, 1, 1⟩ :: more)) fun e s u t =>
    let n := match f.n with
      | .imm n => n.toNat
      | .reg r => (s.reg t r.toNat).val.toNat
    tryLane m f.pd n ((s.reg t f.h.toNat).val.toNat % 65536) e s u t

/-! ## Crew and gang barriers (R183, R184) -/

/-- The thread whose arrival a callee's arrival is (R195). -/
def State.rootHome (s : State) : Nat → Nat → Nat
  | 0, uid => uid
  | fuel + 1, uid =>
    match (s.thread? uid).bind (·.callee) with
    | none => uid
    | some home => s.rootHome fuel home

/-- A lane whose wait at a barrier or meet is over goes on (R168, R249): it acquires, and its watchdog count restarts. -/
def State.goOn (s : State) (uid : Nat) : State := (s.acquire uid).modThread uid fun t => { t with wdog := 0, wdogHit := false }

/-- Arrive at the crew barrier as `kind` (none: CREWBAR, else GBAR's gang) and wait (R183, R184). -/
def State.arriveCrew (s : State) (e : Env) (uid : Nat) (kind : Option Nat) (tag : Tag) : LaneRes :=
  match SMap.get? s.crews e.crewId with
  | none => .done s
  | some c =>
    if !c.barArrived.isEmpty && c.barGang != kind then .trap s { num := 21, tag := tag }
    else
      let home := s.rootHome 8 uid
      let c' : Crew := { c with barGang := kind, barArrived := if c.barArrived.contains home then c.barArrived else c.barArrived ++ [home] }
      let s : State := { s with crews := SMap.put s.crews e.crewId c' }
      .gone ((s.park e uid (.crewBar c.barPhase)).crewBarTest e.crewId)

/-- Whether a thread was spawned, or is a callee of one that was (R60). -/
def State.isSpawned (s : State) (uid : Nat) : Bool := ((s.thread? (s.rootHome 8 uid)).map (·.spawned)).getD false

/-- A lane's arrival after its release at a scope; a lane whose wait is over goes on. `tag` is the operand's eartag. -/
def barrierLane (e : Env) (scope : Nat) (kind : Option Nat) (tag : Tag) (s : State) (uid : Nat) (t : Thread) : LaneRes :=
  match t.wait with
  | some .woken => .done (s.goOn uid)
  | some (.crewBar _) => .done (s.goOn uid)
  | _ =>
    if s.isSpawned uid then .trap s { num := 26, tag := tag }
    else match s.releaseTry uid scope with
      | (s, some w) => .stall s w
      | (s, none) => s.arriveCrew e uid kind tag

/-- CREWBAR (R358). -/
def execCrewbar (s : State) : Host.Outcome State Fault Refusal :=
  s.perLane 1 (fun _ => { stall := true }) fun e s u t => barrierLane e 0 none 0 s u t

/-- GBAR (R376). -/
def execGbar (g : VReg) (s : State) : Host.Outcome State Fault Refusal :=
  s.perLane 1 (fun _ => { uses := [⟨g.toNat, 1, 1⟩], src := some g.toNat, stall := true }) fun e s u t =>
    let x := (s.reg t g.toNat).val.toNat
    let tag := (s.reg t g.toNat).tag
    let ok : Bool := match e.launch.gangs[x]? with
      | some y => y.cores && e.crew.gangs.any fun k => k.entry == x
      | none => false
    if 256 ≤ x then .trap s { num := 2, tag := tag }
    else if !ok then .trap s { num := 24, tag := tag }
    else barrierLane e 2 (some x) tag s u t

/-- GANG_ARRIVAL (R184): a crew's one arrival reaches the gang object, after the crew's .x stores. -/
def execGangArrival (i : Nat) (s : State) : Host.Outcome State Fault Refusal :=
  match SMap.get? s.arrivals i with
  | none => .refused (.cannotOccur "GANG_ARRIVAL")
  | some a =>
    match SMap.get? s.crews a.crew, a.loc with
    | some c, .scr core b =>
      if s.crewRemote a.crew c.core then .refused (.cannotOccur "GANG_ARRIVAL")
      else
        let s : State := { s with arrivals := SMap.del s.arrivals i }
        .next (((s.remoteArrival a.launch a.gang core b).stepBar core b Bar.arrive).settleCrew a.crew)
    | _, _ => .refused (.cannotOccur "GANG_ARRIVAL")

/-! ## Meets (R43 to R45, R394, R395) -/

/-- MEETARM (R394). -/
def execMeetarm (token : BitVec 16) (m : BitVec 2) (s : State) : Host.Outcome State Fault Refusal :=
  s.perLane 1 (fun _ => { stall := true }) fun _ s u _ =>
    match s.meetArm u m.toNat token.toNat with
    | none => .trap s { num := 23 }
    | some s => .done s

/-- Arrive at a meet object and park (R44); the arrival may pass the phase. -/
def State.meetArrive (s : State) (e : Env) (uid token : Nat) : State :=
  let s := s.park e uid (.meet token)
  (s.modMeet e.crewId token fun x => { x with arrived := if x.arrived.contains uid then x.arrived else x.arrived ++ [uid] }).meetTest e.crewId token

/-- MEET of a lane (R395): a disarmed register does nothing. -/
def meetLane (m : Nat) (e : Env) (s : State) (uid : Nat) (t : Thread) : LaneRes :=
  if t.wait == some .woken then .done (s.goOn uid)
  else match t.meets.getD m none with
    | none => .done s
    | some token =>
      match s.releaseTry uid 0 with
      | (s, some w) => .stall s w
      | (s, none) => .gone (s.meetArrive e uid token)

/-- MEET (R395). -/
def execMeet (m : BitVec 2) (s : State) : Host.Outcome State Fault Refusal :=
  s.perLane 1 (fun _ => { stall := true, ordered := true }) fun e s u t => meetLane m.toNat e s u t

/-! ## Monitors (R182, R399, R404) -/

/-- MONITOR of a lane (R399): no alignment and no colour check; a faulting lane keeps its earlier arming. -/
def monitorLane (m : ObjArgs) (e : Env) (s : State) (uid : Nat) (t : Thread) : LaneRes :=
  let a := m.addr s t
  match s.place e m.sp 1 1 a with
  | (s1, .error tr) => .trap s1 { tr with tag := (s.pair t m.pv).2 }
  | (s1, .ok p) => .done (s1.modThread uid fun t => { t with monitor := some (p.loc.canon.gran, false) })

/-- MONITOR (R399). -/
def execMonitor (f : FMonitor) (s : State) : Host.Outcome State Fault Refusal :=
  let m : ObjArgs := ⟨2 * f.p.toNat, f.off.toNat, if f.s then 1 else 0⟩
  s.perLane 1 (fun _ => m.chk []) fun e s u t => monitorLane m e s u t

/-- MWAIT of a lane (R404): a time of 0 tests once. -/
def mwaitLane (cycles : Nat) (tag : Tag) (e : Env) (s : State) (uid : Nat) (t : Thread) : LaneRes :=
  let off (s : State) : State := s.modThread uid fun t => { t with monitor := none }
  match t.monitor with
  | none => .done s
  | some (_, true) => .done ((off s).acquire uid)
  | some (_, false) =>
    if t.timedOut || cycles == 0 then .trap (off s) { num := 22, tag := tag }
    else .gone (s.parkTimed e uid t .monitor cycles)

/-- MWAIT (R404). -/
def execMwait (v : VReg) (s : State) : Host.Outcome State Fault Refusal :=
  s.perLane 1 (fun _ => { uses := [⟨v.toNat, 1, 1⟩], src := some v.toNat, stall := true }) fun e s u t =>
    mwaitLane (s.reg t v.toNat).val.toNat (s.reg t v.toNat).tag e s u t

/-- MWAIT_TIMEOUT (R182): the time of a parked MWAIT has run out before a counted write. -/
def execMwaitTimeout (uid : Nat) (s : State) : Host.Outcome State Fault Refusal :=
  match s.thread? uid with
  | none => .refused (.cannotOccur "MWAIT_TIMEOUT")
  | some t =>
    if t.wait == some .monitor && t.timer == some 0 && !t.timedOut && !(match t.monitor with | some (_, b) => b | none => true) then
      .next (s.modThread uid fun t => { t with timedOut := true })
    else .refused (.cannotOccur "MWAIT_TIMEOUT")

/-- TRYWAIT_TIMEOUT (R181): the hint of a suspended TRYWAIT has run out. -/
def execTrywaitTimeout (uid : Nat) (s : State) : Host.Outcome State Fault Refusal :=
  match s.thread? uid with
  | none => .refused (.cannotOccur "TRYWAIT_TIMEOUT")
  | some t =>
    match t.wait with
    | some (.phase _ _) =>
      if t.timer == some 0 && !t.timedOut then .next (s.modThread uid fun t => { t with timedOut := true })
      else .refused (.cannotOccur "TRYWAIT_TIMEOUT")
    | _ => .refused (.cannotOccur "TRYWAIT_TIMEOUT")

/-! ## Fences (R167, R174, R372, R373) -/

/-- FENCE of a lane (R167, R372): the waits of its scope, then the L1 of its quadrant is invalidated. -/
def fenceLane (scope : Nat) (s : State) (uid : Nat) : LaneRes :=
  match s.releaseTry uid scope with
  | (s, some w) => .stall s w
  | (s, none) => .done (s.acquire uid)

/-- FENCE (R372). -/
def execFence (scope : BitVec 3) (s : State) : Host.Outcome State Fault Refusal :=
  s.perLane 1 (fun _ => { stall := true }) fun _ s u _ => fenceLane scope.toNat s u

/-- The number after which work of a path is later than a FENCEX (R174): stores are numbered, and matrix operations by
their operation. -/
def State.pathMark (s : State) (x : Nat) : Nat := if x = 2 then s.nextOp else s.nextStore

/-- Whether work of path `x` that is older than the mark still stands (R174). -/
def State.pathBusy (s : State) (t : Thread) (x mark : Nat) : Bool :=
  match x with
  | 0 => s.olderAtCore t.core mark || s.olderAtDie t.core mark
  | 1 => (SMap.getD s.landing [] t.core).any fun n => decide (n < mark)
  | 2 => (SMap.getD s.matQ [] t.core).any fun m => m.iss.crew == t.crew && decide (m.op < mark)
  | 3 => (SMap.getD s.gatherQ [] t.core).any fun n => decide (n < mark)
  | _ => s.colQ.any fun n => decide (n.1 < mark)

/-- FENCEX of a lane (R174, R373): it waits for path `x`, then acts for path `y`. -/
def fencexLane (x y : Nat) (s : State) (t : Thread) : LaneRes :=
  if x = 0 && !t.fifo.isEmpty then .stall s .drain
  else
    let mark := match t.wait with
      | some (.fence m) => m
      | _ => s.pathMark x
    if s.pathBusy t x mark then .stall s (.fence mark)
    else .done (if y = 0 then s.dropL1 t.core t.quad else s)

/-- FENCEX (R373). -/
def execFencex (x y : BitVec 3) (s : State) : Host.Outcome State Fault Refusal :=
  s.perLane 1 (fun _ => { stall := true }) fun _ s _ t => fencexLane x.toNat y.toNat s t

end Sys2Proof.Machine
end

