-- ==== Sys2Proof/Machine/CopyOps.lean ====
section
/-! DEFINITION. Asynchronous copies (R141 to R149, R353 to R357, R441), trigger counters and armed copies (R150, R151,
R433), and ring rotation (R152, R153, R420, R421). -/

namespace Sys2Proof.Machine

/-! ## The units of a copy (R145 to R148) -/

/-- One landing: source bytes (none for a fill), destination bytes, and the elements of a conversion. -/
structure CopyUnit where
  sa : Nat
  sn : Nat
  da : Nat
  dn : Nat
  i0 : Nat
  i1 : Nat
  half : Bool
  deriving DecidableEq, Repr

/-- The dimension indexes of element `k`, the first running fastest (R148). -/
def elemIndex : Nat → List Nat → List Nat
  | _, [] => []
  | k, n :: ns => k % n :: elemIndex (k / n) ns

/-- The offset of an element: its size times the first index, and the strides times the others (R148). -/
def elemOffset (esz : Nat) (ix : List Nat) (steps : List Int) : Int :=
  (esz * ix.getD 0 0 : Nat) + ((ix.drop 1).zip steps).foldl (fun a x => a + (x.1 : Int) * x.2) 0

/-- Unit `k` of a copy. -/
def Copy.unit (c : Copy) (k : Nat) : CopyUnit :=
  match c.kind with
  | .plain _ => ⟨c.src + 16 * k, 16, c.dst + 16 * k, 16, 0, 0, false⟩
  | .convert n td ts _ =>
    let wd := fmtBits td
    let ws := fmtBits ts
    let last := c.dst + cvBytes n td
    let g0 := if k = 0 then c.dst else c.dst / 16 * 16 + 16 * k
    let g1 := min (g0 / 16 * 16 + 16) last
    let i0 := (g0 - c.dst) * 8 / wd
    let i1 := min n ((g1 - c.dst) * 8 / wd)
    let s0 := c.src + i0 * ws / 8
    ⟨s0, c.src + (i1 * ws + 7) / 8 - s0, g0, g1 - g0, i0, i1, (i1 - i0) * wd % 8 != 0⟩
  | .tensor esz fill cnt ss ds =>
    let ix := elemIndex k cnt
    ⟨wrapInt 64 ((c.src : Int) + elemOffset esz ix ss), if fill.isSome then 0 else esz,
      wrapInt 64 ((c.dst : Int) + elemOffset esz ix ds), esz, 0, 0, false⟩

/-- What an address of a copy comes to. -/
inductive CpPlace where
  | ok (p : Place)
  | absent
  | fail (t : Trap)

/-- Find the place of a granule of a copy (R133, R149, R156): `need` 1 read, 2 write. -/
def State.copyPlace (s : State) (i : Issuer) (sp need a : Nat) : State × CpPlace :=
  match SMap.get? s.crews i.crew, SMap.get? s.launches i.launch, SMap.get? s.ctxs i.ctx with
  | some cr, some l, some c =>
    if sp = 1 then (s, .ok ⟨.scr cr.core (cr.phys a), a, none⟩)
    else if sp = 2 then
      match s.xTarget cr l a with
      | none => (s, .fail { num := 24, addr := a })
      | some tg => (s, .ok ⟨.scr tg.core (tg.phys (a % 2 ^ 32)), a, none⟩)
    else if !ptrOk a then (s, .fail { num := 7, cause := 3, addr := a })
    else
      let r := s.translate i.core i.ctx c (a % 2 ^ 48)
      match r.2 with
      | .absent => (r.1, .absent)
      | .format => (r.1, .absent)
      | .badPhys => (r.1, .fail { num := 33, addr := a })
      | .hit h =>
        if !permOk need h then (r.1, .fail { num := 9, cause := need, addr := a })
        else if need == 2 && h.loc.isTable then (r.1, .fail { num := 33, addr := a })
        else (r.1, .ok ⟨h.loc, a % 2 ^ 48, some h⟩)
  | _, _, _ => (s, .absent)

/-- The eartag of a source granule (R83); a window granule gives the first A-tagged of its holders, else the first. -/
def State.granTag (s : State) (p : Place) : Tag :=
  match p.loc.gran with
  | .win c o =>
    let ts := (List.range 4).map fun i => (s.winWord c (o + 4 * i)).tag
    (ts.find? isA).getD (ts.getD 0 0)
  | l => twTag (s.twAt l p.tagAddr p.ptag)

/-- The colour check of a copy against a granule as it stands at the device point (R90). -/
def State.copyColour (s : State) (p : Place) (a : Nat) : Option Trap :=
  match p.hit, p.loc with
  | none, _ => none
  | _, .win _ _ => none
  | some h, _ =>
    let lock := h.lock (s.twAt p.loc.gran p.tagAddr p.ptag)
    if colourBad (keyOf a) lock then some { num := 10, addr := a, key := keyOf a, lock := lock, tag := s.granTag p } else none

/-- The eartag that goes with each of `n` source bytes (R83, R140): a register or an accumulator element reached through the
on-chip map has its own, every other byte its granule's. -/
def State.byteTags (s : State) (p : Place) (n : Nat) : List Tag :=
  match p.loc with
  | .win c o => (List.range n).map fun i => (s.winWord c (o + i)).tag
  | _ => List.replicate n (s.granTag p)

/-- What reading the source of a unit comes to: bytes, the eartags of its granules, and those of its bytes. -/
inductive SrcRes where
  | ok (bytes : List Byte) (tags btags : List Tag)
  | busy
  | absent
  | fail (t : Trap)

/-- Read source bytes, granule by granule, at the device point or the core point (R145, R172, R441). -/
def State.copySrc (s : State) (i : Issuer) (sp : Nat) : Nat → Nat → Nat → State × SrcRes
  | 0, _, _ => (s, .ok [] [] [])
  | _, _, 0 => (s, .ok [] [] [])
  | fuel + 1, a, n + 1 =>
    let m := min (n + 1) (16 - a % 16)
    match s.copyPlace i sp 1 a with
    | (s1, .absent) => (s1, .absent)
    | (s1, .fail t) => (s1, .fail t)
    | (s1, .ok p) =>
      match s1.copyColour p a with
      | some t => (s1, .fail t)
      | none =>
        if twPoison (s1.twAt p.loc.gran p.tagAddr p.ptag) then (s1, .fail { num := 11, addr := a / 16 * 16, tag := s1.granTag p })
        else if (s1.busyLine p.loc).isSome then (s1, .busy)
        else match s1.copySrc i sp fuel (a + m) (n + 1 - m) with
          | (s2, .ok bs ts bt) => (s2, .ok (s1.readLoc p.loc m ++ bs) (s1.granTag p :: ts) (s1.byteTags p m ++ bt))
          | r => r

/-- A unit ready to land: its place, bytes, eartag or birth, the eartags of its source granules for watchpoints, and the
eartag of each byte for a register window (R83). -/
structure Landing where
  p : Place
  data : List Byte
  tag : Tag
  birth : Option (Nat × BirthOps)
  half : Bool
  stags : List Tag
  btags : List Tag
  deriving DecidableEq, Repr

/-- What a unit comes to. -/
inductive UnitRes where
  | land (x : Landing)
  | busy
  | absent
  | fail (t : Trap)

/-- The number a bit string of bytes holds from bit `b` on, `w` bits. -/
def bitsAt (bs : List Byte) (b w : Nat) : Nat := nfld (ofBytes bs) b w

/-- Convert the elements of a unit (R97, R104, R355; FTZ has no effect, R102): the bytes of the destination, and the
first birth with its element. `b0` is the bit of the first element in the source bytes. -/
def convertUnit (td ts : Nat) (ovf : Bool) (bs : List Byte) (b0 n : Nat) : Nat × Option (Nat × Nat × Nat) :=
  (List.range n).foldl (fun acc i =>
    let x := bitsAt bs (b0 + i * fmtBits ts) (fmtBits ts)
    let y := cvtElem td ts 0 ovf false x
    (acc.1 + y.code % 2 ^ fmtBits td * 2 ^ (i * fmtBits td),
      if acc.2.isNone && y.kind != 0 then some (y.kind, x, (b0 + i * fmtBits ts) / 8) else acc.2)) (0, none)

/-- The data of a unit from its source (R83, R146, R148). A converted granule has one eartag, in a register window too (log
entry 82, DEDUCED). -/
def Copy.landing (c : Copy) (u : CopyUnit) (p : Place) (bs : List Byte) (tags btags : List Tag) : Landing :=
  let t0 := tags.getD 0 0
  match c.kind with
  | .plain _ => ⟨p, bs, t0, none, false, tags, btags⟩
  | .tensor esz (some v) _ _ _ => ⟨p, ((List.range 4).flatMap fun _ => toBytes 4 v).take esz, 1, none, false, [1], []⟩
  | .tensor _ none _ _ _ => ⟨p, bs, t0, none, false, tags, btags⟩
  | .convert _ td ts ovf =>
    let b0 := u.i0 * fmtBits ts % 8
    let r := convertUnit td ts ovf bs b0 (u.i1 - u.i0)
    let data := toBytes u.dn r.1
    match tags.find? isA with
    | some g => ⟨p, data, g, none, u.half, tags, []⟩
    | none =>
      match r.2 with
      | none => ⟨p, data, t0, none, u.half, tags, []⟩
      | some (k, x, off) =>
        ⟨p, data, t0, some (k, { va := BitVec.ofNat 32 x, ta := tags.getD ((u.sa % 16 + off) / 16) t0 }), u.half, tags, []⟩

/-- Judge unit `k` of a copy: its source, then its destination (R90, R145, R149). -/
def State.copyUnit (s : State) (c : Copy) (k : Nat) : State × UnitRes :=
  let u := c.unit k
  match s.copySrc c.iss c.ssp 33 u.sa u.sn with
  | (s1, .busy) => (s1, .busy)
  | (s1, .absent) => (s1, .absent)
  | (s1, .fail t) => (s1, .fail t)
  | (s1, .ok bs tags btags) =>
    match s1.copyPlace c.iss c.dsp 2 u.da with
    | (s2, .absent) => (s2, .absent)
    | (s2, .fail t) => (s2, .fail t)
    | (s2, .ok p) =>
      match s2.copyColour p u.da with
      | some t => (s2, .fail t)
      | none => (s2, .land (c.landing u p bs tags btags))

/-- Whether a unit lands or waits for a line; an earlier one that does neither stops the copy there (R91, R143). -/
def UnitRes.passes : UnitRes → Bool
  | .land _ => true
  | .busy => true
  | _ => false

/-! ## Presence (R141) -/

/-- The scratchpad line of a location. -/
def Loc.line? : Loc → Option (Nat × Nat)
  | .scr c b => some (c, b / 128)
  | .win c o => match winItem o with
    | .scr b => some (c, b / 128)
    | _ => none
  | _ => none

/-- The scratchpad line the destination of a unit lies in. -/
def State.unitLine (s : State) (c : Copy) (k : Nat) : Option (Nat × Nat) :=
  match (s.copyPlace c.iss c.dsp 2 (c.unit k).da).2 with
  | .ok p => p.loc.line?
  | _ => none

/-- The lines a copy's destination touches. -/
def State.copyLines (s : State) (c : Copy) : List (Nat × Nat) := ((List.range c.units).filterMap (s.unitLine c)).eraseDups

/-- Whether raising the counts of lines would take one above 15. -/
def State.linesFull (s : State) (ls : List (Nat × Nat)) : Bool := ls.any fun l => decide (15 ≤ SMap.getD s.pend 0 (l.1 * 4096 + l.2))

/-! ## Landing, stopping, completing -/

/-- Credit a barrier of a crew with landed bytes (R179). -/
def State.credit (s : State) (crew : Nat) (bar : Option Nat) (n : Nat) : State :=
  match bar, SMap.get? s.crews crew with
  | some off, some c => s.stepBar c.core (c.phys off) fun x => { x with bytes := x.bytes - n }
  | _, _ => s

/-- Set the error flag of a copy's barrier (R143). -/
def State.barError (s : State) (crew : Nat) (bar : Option Nat) : State :=
  match bar, SMap.get? s.crews crew with
  | some off, some c => s.stepBar c.core (c.phys off) fun x => x.setBit 2 true
  | _, _ => s

/-- The queued copies of an engine of a core. -/
def State.engineLoad (s : State) (core n : Nat) : Nat := (s.copies.filter fun e => e.2.iss.core == core && e.2.engine == n).length

/-- The engine with the fewest queued copies, the lowest on a tie (R144). -/
def State.pickEngine (s : State) (core : Nat) : Nat :=
  (List.range 4).foldl (fun b n => if s.engineLoad core n < s.engineLoad core b then n else b) 0

/-- Give a copy to an engine and raise its presence counts (R141, R144). -/
def State.startCopy (s : State) (c : Copy) : State :=
  let ls := s.copyLines c
  let s := s.raiseLines ls
  { s with copies := SMap.put s.copies s.nextCopy { c with engine := s.pickEngine c.iss.core, lines := ls }, nextCopy := s.nextCopy + 1 }

/-- Whether an engine's queue and the counts of its lines take a copy now (R141, R144) (log entry 83, DESIGN CHOICE). -/
def State.copyFits (s : State) (c : Copy) : Bool :=
  decide (s.engineLoad c.iss.core (s.pickEngine c.iss.core) < 32) && !(s.linesFull (s.copyLines c))

/-- Start the copies of a list that have fired, in its order; the first that does not fit holds the later ones (R141, R151;
log entry 83, DESIGN CHOICE). -/
def State.startFired (s : State) (core : Nat) : List Armed → State
  | [] => s
  | a :: l =>
    if !a.due then s.startFired core l
    else if !s.copyFits a.copy then s
    else (({ s with armed := SMap.setD s.armed [] core ((SMap.getD s.armed [] core).erase a) } : State).startCopy a.copy).startFired core l

/-- Start the fired copies of a core that fit now (log entry 83, DESIGN CHOICE). -/
def State.startDue (s : State) (core : Nat) : State := s.startFired core (SMap.getD s.armed [] core)

/-- A copy is over: its flag clears (R144). -/
def State.endCopy (s : State) (i : Nat) (c : Copy) : State :=
  ((({ s with copies := SMap.del s.copies i } : State).opDone c.op).startDue c.iss.core).settleCrew c.iss.crew

/-- A copy stops early (R91, R143, R441): one fault record of the engine, its lines lowered, ERR on its barrier (log entry 68, DEDUCED). -/
def State.copyStop (s : State) (i : Nat) (c : Copy) (t : Trap) : State :=
  let s := (s.faultRecord c.iss t 0 false true).1
  (((s.lowerLines c.lines).barError c.iss.crew c.bar).endCopy i c)

/-- Cut `n` bytes from an address on at granule boundaries. -/
def granSpans : Nat → Nat → Nat → List (Nat × Nat)
  | 0, _, _ => []
  | _, _, 0 => []
  | fuel + 1, a, n + 1 =>
    let m := min (n + 1) (16 - a % 16)
    (a, m) :: granSpans fuel (a + m) (n + 1 - m)

/-- The accesses of a landing as a watchpoint sees them: each source granule with its eartag, and the destination with the
eartags of its sources (R94). -/
def Copy.accesses (c : Copy) (u : CopyUnit) (tags : List Tag) : List Access :=
  (if c.ssp = 2 then [] else ((granSpans 33 u.sa u.sn).zip tags).map fun x => ⟨3, c.ssp == 1, x.1.1, x.1.2, x.2⟩) ++
  (if c.dsp = 2 then [] else tags.eraseDups.map fun g => ⟨3, c.dsp == 1, u.da, u.dn, g⟩)

/-- A copy's watch hit (R95): recorded at once, and the issuing lane takes a trap due at its next clause boundary. The mask of
the watchpoints recorded, with those among `seen` (log entry 37, DEDUCED). -/
def State.copyWatch (s : State) (i : Issuer) (seen : Nat) (as : List Access) : State × Nat :=
  match s.watchHit i.uid i.crew i.ctx true seen as with
  | none => (s, seen)
  | some t =>
    let r := s.faultRecord i t (if t.only then 0 else 2 ^ i.lane) false true
    (if t.only then r.1 else r.1.modThread i.uid fun th => { th with bndTraps := th.bndTraps ++ [(r.2, t)] }, seen + t.aux % 2 ^ 14)

/-- The registers or accumulator elements a landing wrote through the on-chip map take their own eartags (R83, R140). -/
def State.winRetag (s : State) (l : Loc) (btags : List Tag) : State :=
  match l with
  | .win core o =>
    (List.range btags.length).foldl (fun (s : State) j =>
      let w := s.winWord core (o + j)
      match winItem (o + j) with
      | .reg q ln r => { s with regs := SMap.setD s.regs Reg.zero (regKey core q ln r) ⟨w.val, btags.getD j 0⟩ }
      | .acc e => { s with acc := SMap.setD s.acc Reg.zero (accKey core e) ⟨w.val, btags.getD j 0⟩ }
      | _ => s) s
  | _ => s

/-- Whether a location is on the chip: a scratchpad byte, or a byte of the on-chip map. -/
def Loc.onChip : Loc → Bool
  | .scr _ _ => true
  | .win _ _ => true
  | _ => false

/-- Land a unit (R81, R145, R172, R173): scratchpad, and what the on-chip map names (R140), is written at once, another
global granule joins the landing stage; then the barrier is credited and the lines whose last byte this was are lowered. -/
def State.land (s : State) (i : Nat) (c : Copy) (k : Nat) (x : Landing) : State :=
  let u := c.unit k
  let b := match x.birth with
    | none => (s, x.tag)
    | some (kind, o) => s.birth c.iss kind o true false
  let s := b.1
  let st : Store := ⟨c.iss.uid, c.iss.crew, c.iss.ctx, c.iss.core, x.p.loc, x.p.va, x.data.map some, b.2, x.p.tagAddr, x.p.page, 0, none, 0, i,
    c.iss, x.half, false⟩
  let s : State := if x.p.loc.onChip then (s.performStore st).winRetag x.p.loc x.btags
    else
      let n := s.nextStore
      { s with
        stores := SMap.put s.stores n st, nextStore := n + 1
        landing := SMap.put s.landing c.iss.core (SMap.getD s.landing [] c.iss.core ++ [n]) }
  let landed := k :: c.landed
  let isOver := c.lines.filter fun l => (x.p.loc.line? == some l) &&
    !((List.range c.units).any fun j => !landed.contains j && s.unitLine c j == some l)
  let s := ((s.credit c.iss.crew c.bar u.dn).lowerLines isOver).count (cntCore c.iss.core 2) u.dn
  let w := s.copyWatch c.iss c.watched (c.accesses u x.stags)
  ({ w.1 with copies := SMap.put w.1.copies i { c with landed := landed, lines := c.lines.filter fun l => !isOver.contains l, watched := w.2 } } : State).startDue
    c.iss.core

/-- Whether stores of a core older than a mark have yet to reach the device point. -/
def State.olderThan (s : State) (core mark : Nat) : Bool := s.olderAtCore core mark || s.olderAtDie core mark

/-- Whether unit `k` writes a byte of an element before it that has not landed: the later one is to remain (R148). -/
def Copy.behind (c : Copy) (k : Nat) : Bool :=
  let u := c.unit k
  (List.range k).any fun j =>
    let w := c.unit j
    !c.landed.contains j && decide (w.da < u.da + u.dn) && decide (u.da < w.da + w.dn)

/-- COPY_LANDING (R145, R148): unit `k` lands, holds the copy on a page that is not present (R149), or stops it. The engine
waits for the page of a record it writes (R71, R237). -/
def execCopyLanding (i k : Nat) (s : State) : Host.Outcome State Fault Refusal :=
  match SMap.get? s.copies i with
  | none => .refused (.cannotOccur "COPY_LANDING")
  | some c =>
    if c.landed.contains k || decide (c.units ≤ k) || c.held.isSome || s.engineWaits c.iss.uid || s.olderThan c.iss.core c.mark || c.behind k then
      .refused (.cannotOccur "COPY_LANDING")
    else
      let before := (List.range k).filter fun j => !c.landed.contains j
      match s.copyUnit c k with
      | (_, .busy) => .refused (.cannotOccur "COPY_LANDING")
      | (s1, .land x) =>
        if before.all fun j => (s.copyUnit c j).2.passes then .next (s.engineStep (s1.land i c k x)) else .refused (.cannotOccur "COPY_LANDING")
      | (s1, .absent) =>
        if before.isEmpty then .next { s1 with copies := SMap.put s1.copies i { c with held := some k } } else .refused (.cannotOccur "COPY_LANDING")
      | (s1, .fail t) => if before.isEmpty then .next (s.engineStep (s1.copyStop i c t)) else .refused (.cannotOccur "COPY_LANDING")

/-- COPY_PAGE_RESUME (R149): the page the copy holds at is mapped. -/
def execCopyPageResume (i : Nat) (s : State) : Host.Outcome State Fault Refusal :=
  match SMap.get? s.copies i with
  | none => .refused (.cannotOccur "COPY_PAGE_RESUME")
  | some c =>
    match c.held with
    | none => .refused (.cannotOccur "COPY_PAGE_RESUME")
    | some k =>
      if ((SMap.get? s.crews c.iss.crew).map (·.placed)) != some true then .refused (.cannotOccur "COPY_PAGE_RESUME") else
      match s.copyUnit c k with
      | (_, .absent) => .refused (.cannotOccur "COPY_PAGE_RESUME")
      | _ => .next { s with copies := SMap.put s.copies i { c with held := none } }

/-! ## Trigger counters (R150, R151) -/

/-- The key of a trigger counter of a core. -/
def trigKey (core c : Nat) : Nat := core * 64 + c

/-- A trigger counter's value. -/
def State.trigVal (s : State) (core c : Nat) : Nat := ((SMap.get? s.triggers (trigKey core c)).map (·.val)).getD 0

/-- Whether a context may name a counter (R150). -/
def State.trigOwn (s : State) (core c ctx : Nat) : Bool :=
  match SMap.get? s.triggers (trigKey core c) with
  | none => true
  | some x => x.ctx == ctx || (x.val == 0 && !((SMap.getD s.armed [] core).any fun a => a.ctr == c && !a.due))

/-- A crew of a context names a counter it may name: the counter passes to that context (R150). -/
def State.nameTrigger (s : State) (ctx core c : Nat) : State :=
  { s with triggers := SMap.put s.triggers (trigKey core c) ⟨s.trigVal core c, ctx⟩ }

/-- Whether an armed copy fires at a counter's value (R151). -/
def Armed.fires (a : Armed) (val : Nat) : Bool := decide (0 ≤ sext 32 (val + 2 ^ 32 - a.thr))

/-- Set a counter and fire the copies armed on it, in the order they were armed (R151): how many fired. A fired copy
acquires the counter's release: the core's stores reach the device point before its reads. -/
def State.setTrigger (s : State) (core c ctx val : Nat) : State × Nat :=
  let all := SMap.getD s.armed [] core
  let hit (a : Armed) : Bool := a.ctr == c && !a.due && a.fires val
  let s : State := { s with
    triggers := SMap.put s.triggers (trigKey core c) ⟨val, ctx⟩
    armed := SMap.setD s.armed [] core (all.map fun a => if hit a then { a with due := true, copy := { a.copy with mark := s.nextStore } } else a) }
  (s.startDue core, (all.filter hit).length)

/-- COPY_COMPLETE (R144, R151): every byte has landed; TEN adds 1 to the copy's counter. -/
def execCopyComplete (i : Nat) (s : State) : Host.Outcome State Fault Refusal :=
  match SMap.get? s.copies i with
  | none => .refused (.cannotOccur "COPY_COMPLETE")
  | some c =>
    if !c.complete then .refused (.cannotOccur "COPY_COMPLETE")
    else
      let s := match c.ten with
        | none => s
        | some t => (s.setTrigger c.iss.core t c.iss.ctx ((s.trigVal c.iss.core t + 1) % 2 ^ 32)).1
      .next (s.endCopy i c)

/-- TRIG and TRIGRST of lane e (R433). -/
def trigSlot (reset : Bool) (c v : VReg) (s : State) : Host.Outcome State Fault Refusal :=
  s.once 1 (fun _ => { uses := [⟨c.toNat, 1, 1⟩, ⟨v.toNat, 1, 1⟩], src := some c.toNat, stall := true }) fun e s u t _ =>
    let n := (s.reg t c.toNat).val.toNat
    let x := (s.reg t v.toNat).val.toNat
    let tag := (s.reg t c.toNat).tag
    if 64 ≤ n then .trap s { num := 2, tag := tag }
    else if !s.trigOwn e.core n e.crew.ctx then .trap s { num := 28, tag := tag }
    else match s.releaseTry u 1 with
      | (s, some w) => .stall s w
      | (s, none) =>
        let old := s.trigVal e.core n
        let new := if reset then x else (old + x) % 2 ^ 32
        let r := s.setTrigger e.core n e.crew.ctx new
        if reset && ((SMap.getD r.1.armed [] e.core).any fun a => a.ctr == n && !a.due) then
          .done (r.1.log e.crew.ctx 12 1 new (old * 2 ^ 32 + n * 256 + min r.2 255) (r.1.whereOf (e.issuer u t)))
        else .done r.1

/-- TRIG (R433). -/
def execTrig (c v : VReg) (s : State) : Host.Outcome State Fault Refusal := trigSlot false c v s
/-- TRIGRST (R433). -/
def execTrigrst (c v : VReg) (s : State) : Host.Outcome State Fault Refusal := trigSlot true c v s

/-! ## Issue (R354) -/

/-- The wait of an engine operation's issue for lane e's stores (R145, R173): its FIFO; for sources of space `sp` 0 the
core's stores on their way to the device point and its own at the fabric point, for 2 its own on their way to other members
(R170). -/
def State.issueWait (s : State) (uid : Nat) (t : Thread) (sp : Nat) : Option Wait :=
  if !t.fifo.isEmpty then some .drain
  else if sp = 2 then (if s.ownRemote t.core uid then some .drain else none)
  else if sp = 1 then none
  else
    let mark := match t.wait with
      | some (.fence m) => m
      | _ => s.nextStore
    if s.olderThan t.core mark then some (.fence mark)
    else if (s.storesOf s.fabric).any fun x => x.uid == uid then some (.fence mark)
    else none

/-- Granules the destination of a copy writes (R201). -/
def State.copyGrans (s : State) (c : Copy) : List Loc :=
  (List.range c.units).flatMap fun k =>
    match (s.copyPlace c.iss c.dsp 2 (c.unit k).da).2 with
    | .ok p => gransOf p.loc (c.unit k).dn
    | _ => []

/-- The remote-activity bits a copy's .x accesses set (R56). -/
def State.copyRemote (s : State) (crew : Nat) (c : Copy) : State :=
  let s := s.noteRemote crew c.dsp c.dst
  if (c.unit 0).sn = 0 then s else s.noteRemote crew c.ssp c.src

/-- Issue a checked copy for the group (R354): the waits, a free engine, the presence counts. -/
def State.issueCopy (s : State) (e : Env) (uid : Nat) (t : Thread) (group : List Nat) (flag : Option Nat) (c : Copy) : LaneRes :=
  match s.issueWait uid t c.ssp with
  | some w => .stall s w
  | none =>
    if !s.copyFits c then .stall s .drain
    else
      let r := s.newOp group flag 1
      let c := { c with op := r.2 }
      .done ((((r.1.copyRemote e.crewId c).noteWrite (r.1.copyGrans c) 8 uid)).startCopy c)

/-- The operands of CPY and CPYCV: spaces, count register, pairs, offsets, barrier pair and offset, kind of elements. -/
structure CpyArgs where
  ds : Nat
  ss : Nat
  n : Nat
  dp : Nat
  sr : Nat
  doff : Nat
  soff : Nat
  bar : Option (Nat × Nat)
  cv : Option (Nat × Nat × Bool)
  fb : Bool
  deriving DecidableEq, Repr

/-- Destination and source spaces of a short-form code (R324). -/
def shortSpaces (c : Nat) : Nat × Nat :=
  match c with
  | 0 => (1, 0)
  | 1 => (0, 1)
  | 2 => (1, 1)
  | 3 => (0, 0)
  | 4 => (1, 2)
  | 5 => (2, 1)
  | 6 => (0, 2)
  | _ => (2, 0)

/-- The short CPY's operands (R353). -/
def cpyArgs (f : FCpy) : CpyArgs :=
  let p := shortSpaces f.sp.toNat
  ⟨p.1, p.2, f.n.toNat, 2 * f.dp.toNat, 2 * f.sr.toNat, 0, 0, if f.bar == 31 then none else some (2 * f.bar.toNat, 0), none, f.f⟩

/-- The long CPY's operands (R353). -/
def cpyLongArgs (f : FCpyL) : CpyArgs :=
  ⟨f.ds.toNat, f.ss.toNat, f.n.toNat, 2 * f.dp.toNat, 2 * f.sr.toNat, f.doff.toNat, f.soff.toNat,
    if f.nobar then none else some (2 * f.barp.toNat, 16 * f.baroff.toNat), none, f.f⟩

/-- CPYCV's operands (R353). -/
def cpycvArgs (f : FCpyCv) : CpyArgs :=
  ⟨f.ds.toNat, f.ss.toNat, f.n.toNat, 2 * f.dp.toNat, 2 * f.sr.toNat, f.doff.toNat, f.soff.toNat,
    if f.nobar then none else some (2 * f.barp.toNat, 16 * f.baroff.toNat), some (f.td.toNat, f.ts.toNat, f.ovf), f.f⟩

/-- Checks 2 to 5 of CPY and CPYCV (R354): address and count registers are points of use. -/
def CpyArgs.chk (m : CpyArgs) : Chk :=
  let bp := match m.bar with
    | none => []
    | some b => [b.1]
  { uses := ⟨m.n, 1, 1⟩ :: ([m.dp, m.sr] ++ bp).map (⟨·, 2, 1⟩)
    cls := 1, anom := ([m.dp, m.sr] ++ bp).flatMap (fun v => [v, v + 1]) ++ [m.n], acause := 4
    src := some m.dp, addr := some (m.dp, m.doff), stall := true }

/-- The address check of a copy operand (R133): the trap, if any. -/
def State.copyAddr (s : State) (e : Env) (sp width align a : Nat) : Option Trap :=
  match s.addrCheck e.crew e.launch sp width align a with
  | .trap n c => some { num := n, cause := c, addr := a }
  | _ => none

/-- The address of an operand: a pair plus an offset in its space (R353). -/
def State.cpyAt (s : State) (t : Thread) (sp pv off : Nat) : Nat := addOff sp (s.pair t pv).1.toNat off

/-- Bytes of an element's alignment. -/
def elemAlign (code : Nat) : Nat := max 1 (fmtBits code / 8)

/-- CPY and CPYCV of lane e (R146, R354, R355). -/
def copyLane (m : CpyArgs) (e : Env) (s : State) (uid : Nat) (t : Thread) (group : List Nat) : LaneRes :=
  let n := (s.reg t m.n).val.toNat
  let dst := s.cpyAt t m.ds m.dp m.doff
  let src := s.cpyAt t m.ss m.sr m.soff
  let tag := (s.pair t m.dp).2
  let ad := match m.cv with
    | none => 16
    | some x => elemAlign x.1
  let as := match m.cv with
    | none => 16
    | some x => elemAlign x.2.1
  let bad : Bool := match m.cv with
    | none => n % 16 != 0 || decide (2 ^ 24 < n)
    | some _ => n == 0 || decide (2 ^ 20 < n)
  let dn := match m.cv with
    | none => n
    | some x => cvBytes n x.1
  let sn := match m.cv with
    | none => n
    | some x => cvBytes n x.2.1
  let bar := m.bar.map fun b => (s.cpyAt t 1 b.1 b.2)
  let kind : CopyKind := match m.cv with
    | none => .plain n
    | some x => .convert n x.1 x.2.1 x.2.2
  if bad || dst % ad != 0 || src % as != 0 then .trap s { num := 2, addr := dst, tag := tag }
  else match s.copyAddr e m.ds dn 1 dst, s.copyAddr e m.ss sn 1 src, bar.bind (s.copyAddr e 1 16 16) with
    | some tr, _, _ => .trap s { tr with tag := tag }
    | _, some tr, _ => .trap s { tr with tag := (s.pair t m.sr).2 }
    | _, _, some tr => .trap s { tr with tag := tag }
    | none, none, none =>
      if n = 0 then .done s
      else s.issueCopy e uid t group (e.flag m.fb) ⟨e.issuer uid t, 0, kind, m.ds, m.ss, dst, src, bar, none, 0, [], [], none, 0, 0⟩

/-- CPY, short form (R353). -/
def execCpy (f : FCpy) (s : State) : Host.Outcome State Fault Refusal :=
  s.once 1 (fun _ => (cpyArgs f).chk) fun e s u t g => copyLane (cpyArgs f) e s u t g
/-- CPY, long form (R353). -/
def execCpyLong (f : FCpyL) (s : State) : Host.Outcome State Fault Refusal :=
  s.once 3 (fun _ => (cpyLongArgs f).chk) fun e s u t g => copyLane (cpyLongArgs f) e s u t g
/-- CPYCV (R353, R355). -/
def execCpycv (f : FCpyCv) (s : State) : Host.Outcome State Fault Refusal :=
  s.once 3 (fun _ => (cpycvArgs f).chk) fun e s u t g => copyLane (cpycvArgs f) e s u t g

/-! ## CPYT and CPYA (R147, R148, R356, R357) -/

/-- What reading a block of 64 bytes as lane e comes to. -/
inductive BlockRes where
  | ok (bytes : List Byte) (tags : List Tag)
  | trap (t : Trap)
  | busy (core line : Nat)

/-- Fill the L1 line of a load that misses (R162). -/
def State.fillFor (s : State) (t : Thread) (p : Place) (miss : Bool) : State :=
  match miss, p.loc with
  | true, .hbm a => s.putLine t.core t.quad a (s.fillLine t.core a p.tagAddr p.ptag)
  | _, _ => s

/-- Read granules as loads of lane e (R354). -/
def State.readBlock (s : State) (e : Env) (uid : Nat) (t : Thread) (v : Nat) : Nat → Nat → State × BlockRes
  | 0, _ => (s, .ok [] [])
  | n + 1, a =>
    match s.place e 0 16 1 a with
    | (s1, .error tr) => (s1, .trap { tr with tag := (s.pair t v).2 })
    | (s1, .ok p) =>
      match s1.colourTrap uid t p a v with
      | some tr => (s1, .trap tr)
      | none =>
        let g := s1.view uid t p.loc p.tagAddr p.ptag false false
        if twPoison g.1.tw then (s1, .trap { num := 11, addr := a, tag := (s.pair t v).2 })
        else match s1.busyLine p.loc with
          | some (c, l) => (s1, .busy c l)
          | none =>
            match (s1.fillFor t p (g.2 && !(s1.nearHolds uid t p.loc 16))).readBlock e uid t v n (a + 16) with
            | (s2, .ok bs ts) => (s2, .ok (g.1.bytes ++ bs) (twTag g.1.tw :: ts))
            | r => r

/-- The read of a block as a watchpoint sees it: its granules with their eartags (R94). -/
def blockAccess (a : Nat) (tags : List Tag) : List Access := tags.zipIdx.map fun x => ⟨0, false, a + 16 * x.2, 16, x.1⟩

/-- A CPYT descriptor (R147). -/
structure TensorDesc where
  copy : Copy
  ok : Bool
  deriving DecidableEq, Repr

/-- Parse a descriptor (R147, R148): the copy, and whether no rule of R148 aborts it. -/
def parseTensor (bs : List Byte) : TensorDesc :=
  let w (o n : Nat) : Nat := ofBytes ((bs.drop o).take n)
  let ctl := w 0x14 4
  let tw := w 0x1C 4
  let esz := 2 ^ nfld ctl 0 3
  let dims := nfld ctl 8 2
  let dsp := nfld ctl 14 2
  let ssp := nfld ctl 12 2
  let fill := ctl.testBit 31
  let cnt := (List.range 4).map fun i => nfld (w 0x20 8) (16 * i) 16
  let ss := (List.range 3).map fun i => sext 32 (w (0x28 + 4 * i) 4)
  let ds := (List.range 3).map fun i => sext 32 (w (0x34 + 4 * i) 4)
  let beyond := (List.range 3).any fun i => decide (dims ≤ i) && (cnt.getD (i + 1) 0 != 0 || ss.getD i 0 != 0 || ds.getD i 0 != 0)
  let total := cnt.foldl (fun a k => a * (k + 1)) esz
  let dst := w 0 8
  let src := w 8 8
  let bad := nfld ctl 16 14 != 0 || nfld ctl 10 2 != 0 || nfld ctl 3 5 != 0 || nfld tw 6 25 != 0 || beyond ||
    dsp == 3 || ssp == 3 || decide (4 < nfld ctl 0 3) || dst % esz != 0 || (!fill && src % esz != 0) ||
    (ss ++ ds).any (fun x => x % (esz : Int) != 0) || decide (2 ^ 24 < total)
  let iss0 : Issuer := ⟨0, 0, 0, 0, 0, 0, 0, 0, 0, 0, 0, 0, 0, 0, 0⟩
  ⟨⟨iss0, 0, .tensor esz (if fill then some (w 0x18 4) else none) (cnt.map (· + 1)) ss ds, dsp, ssp, dst, src,
      if ctl.testBit 30 then none else some (w 0x10 4), if tw.testBit 31 then some (tw % 64) else none, 0, [], [], none, 0, 0⟩, !bad⟩

/-- The lowest and highest offset of the elements of a tensor copy. -/
def offsetRange (esz : Nat) (cnt : List Nat) (steps : List Int) : Int × Int :=
  let first : Int := (esz * (cnt.getD 0 1 - 1) : Nat)
  ((cnt.drop 1).zip steps).foldl (fun r x =>
    let y := ((x.1 - 1 : Nat) : Int) * x.2
    (r.1 + min 0 y, r.2 + max 0 y)) (0, first)

/-- The address checks of a tensor copy's side (R133): its lowest and highest elements. -/
def State.rangeAddr (s : State) (e : Env) (sp esz base : Nat) (r : Int × Int) : Option Trap :=
  match s.copyAddr e sp esz 1 (wrapInt 64 (base + r.1)) with
  | some t => some t
  | none => s.copyAddr e sp esz 1 (wrapInt 64 (base + r.2))

/-- The address checks of a CPYT descriptor (R354). -/
def State.tensorAddr (s : State) (e : Env) (c : Copy) : Option Trap :=
  match c.kind with
  | .tensor esz fill cnt ss ds =>
    match s.rangeAddr e c.dsp esz c.dst (offsetRange esz cnt ds) with
    | some t => some t
    | none =>
      match (if fill.isSome then none else s.rangeAddr e c.ssp esz c.src (offsetRange esz cnt ss)) with
      | some t => some t
      | none => c.bar.bind (s.copyAddr e 1 16 16)
  | _ => none

/-- An aborted copy (R148): a fault record of the engine that names lane e and the descriptor; lane e takes the trap at
its next clause boundary (R443). The error flag of the descriptor's barrier is set where it names one (R143). -/
def State.abortCopy (s : State) (e : Env) (uid : Nat) (t : Thread) (da : Nat) (tag : Tag) (bar : Option Nat) : State :=
  let tr : Trap := { num := 17, addr := da, tag := tag }
  let s := s.barError e.crewId (bar.filter fun b => (s.copyAddr e 1 16 16 b).isNone)
  let r := s.faultRecord (e.issuer uid t) tr (2 ^ t.lane) false true
  r.1.modThread uid fun th => { th with bndTraps := th.bndTraps ++ [(r.2, tr)] }

/-- CPYT and CPYA of lane e (R354): read the descriptor, check it, then copy or arm. `arm` gives the registers of the
counter and the threshold. -/
def tensorLane (pv off : Nat) (arm : Option (Nat × Nat)) (fb : Bool) (e : Env) (s : State) (uid : Nat) (t : Thread) (group : List Nat) : LaneRes :=
  let da := ((s.pair t pv).1.toNat + off) % 2 ^ 64
  let tag := (s.pair t pv).2
  if da % 64 != 0 then .trap s { num := 7, cause := 1, addr := da, tag := tag }
  else match s.readBlock e uid t pv 4 da with
    | (s1, .trap tr) => .trap s1 tr
    | (s1, .busy c l) => .park s1 (.presence c l)
    | (s0, .ok bs tags) =>
      let s1 := s0.wokenAcquire uid t
      match (if t.policy == 2 then tags.find? isA else none) with
      | some g => .trap s1 { num := 13, cause := 4, addr := da, tag := g }
      | none =>
        let d := parseTensor bs
        let ctr := match arm with
          | none => 0
          | some x => (s.reg t x.1).val.toNat
        let c := { d.copy with iss := e.issuer uid t }
        let names : List Nat := (match arm with | none => [] | some _ => [ctr]) ++ c.ten.toList
        if 64 ≤ ctr then .trap s1 { num := 2, addr := da, tag := tag }
        else if names.any fun n => !s1.trigOwn e.core n e.crew.ctx then .trap s1 { num := 28, addr := da, tag := tag }
        else if !d.ok then .done (s1.abortCopy e uid t da tag c.bar)
        else match s1.tensorAddr e c with
          | some tr => .trap s1 { tr with tag := tag }
          | none =>
            let seen (s2 : State) : LaneRes := s1.watched s2 e uid t (blockAccess da tags)
            let named : State := c.ten.toList.foldl (fun (s : State) n => s.nameTrigger e.crew.ctx e.core n) s1
            match arm with
            | none =>
              match named.issueCopy e uid t group (e.flag fb) c with
              | .done s2 => seen s2
              | r => r
            | some x =>
              match s1.issueWait uid t c.ssp with
              | some w => .stall s1 w
              | none =>
                let all := SMap.getD s1.armed [] e.core
                if 256 ≤ all.length then .stall s1 .drain
                else
                  let a : Armed := ⟨ctr, (s.reg t x.2).val.toNat, c, false⟩
                  let s2 : State := (((named.copyRemote e.crewId c).noteWrite (s1.copyGrans c) 8 uid))
                  let s3 : State := { s2 with armed := SMap.put s2.armed e.core (all ++ [a]) }
                  seen (s3.setTrigger e.core ctr e.crew.ctx (s3.trigVal e.core ctr)).1

/-- CPYT (R353, R357). -/
def execCpyt (f : FCpyT) (s : State) : Host.Outcome State Fault Refusal :=
  let pv := 2 * f.p.toNat
  s.once 1 (fun _ => { uses := [⟨pv, 2, 1⟩], cls := 1, anom := [pv, pv + 1], acause := 4, src := some pv,
                       addr := some (pv, 64 * f.off.toNat), stall := true }) fun e s u t g => tensorLane pv (64 * f.off.toNat) none f.f e s u t g

/-- CPYA with an offset in clauses of 64 bytes (R353, R356). -/
def copyArm (size pv off c h : Nat) (fb : Bool) (s : State) : Host.Outcome State Fault Refusal :=
  s.once size (fun _ => { uses := [⟨pv, 2, 1⟩, ⟨c, 1, 1⟩, ⟨h, 1, 1⟩], cls := 1, anom := [pv, pv + 1], acause := 4, src := some pv,
                          addr := some (pv, 64 * off), stall := true }) fun e s u t g => tensorLane pv (64 * off) (some (c, h)) fb e s u t g

/-- CPYA (R353, R356). -/
def execCpya (f : FPairTwo) (s : State) : Host.Outcome State Fault Refusal := copyArm 1 (2 * f.p.toNat) 0 f.r.toNat f.q.toNat f.f s
/-- CPYA with an extension word (R353, R356). -/
def execCpyaLong (f : FPairTwoL) (s : State) : Host.Outcome State Fault Refusal :=
  copyArm 2 (2 * f.p.toNat) f.off.toNat f.r.toNat f.q.toNat f.f s

/-! ## RING (R152, R153, R420, R421) -/

/-- The crew of a launch at a ring position of a gang. -/
def State.ringMember (s : State) (launch g pos : Nat) : Option (Nat × Crew) :=
  match (SMap.get? s.launches launch).bind fun l => l.gangs[g]? with
  | none => none
  | some x =>
    match x.members[pos]? with
    | none => none
    | some ord => s.crews.find? fun e => e.2.launch == launch && e.2.ord == ord

/-- The granules of a tile with their eartags, as the core point holds them. -/
def State.tileGrans (s : State) (core b n : Nat) : List (List Byte × Tag) :=
  (List.range (n / 16)).map fun i => (s.scrRead core (b + 16 * i) 16, SMap.getD s.scrTag 0 (granKey core (b + 16 * i)))

/-- The lines of a run of scratchpad bytes of a core. -/
def scrLines (core b n : Nat) : List (Nat × Nat) := (List.range ((b % 128 + n + 127) / 128)).map fun i => (core, b / 128 + i)

/-- Issue a checked round (R152): the tile is read and on its way, and the incoming tile's lines are raised. -/
def State.sendTile (s : State) (e : Env) (uid : Nat) (t : Thread) (group : List Nat) (flag : Option Nat) (k : CrewGang) (x : Gang)
    (off n : Nat) (bar : Option Nat) : State :=
  let b := e.crew.phys off
  let ls := scrLines e.core b n
  let r := s.newOp group flag 1
  let to_ := (k.pos + 1) % x.members.length
  let tile : Tile := ⟨e.crew.launch, k.entry, k.pos, to_, k.rounds, off, s.tileGrans e.core b n, bar, r.2, e.issuer uid t, false⟩
  let s := r.1.raiseLines ls
  { s with
    tiles := SMap.put s.tiles s.nextTile tile, nextTile := s.nextTile + 1
    ringWaits := s.ringWaits ++ [⟨e.crew.launch, k.entry, k.pos, k.rounds, r.2, ls⟩]
    crews := SMap.mod s.crews e.crewId fun c =>
      { c with gangs := c.gangs.map fun y => if y.entry == k.entry then { y with rounds := y.rounds + 1 } else y } }

/-- RING of lane e (R152, R420, R421). -/
def ringLane (pv off vn vg : Nat) (fb : Bool) (e : Env) (s : State) (uid : Nat) (t : Thread) (group : List Nat) : LaneRes :=
  let a := ((s.pair t pv).1.toNat + off) % 2 ^ 64
  let n := (s.reg t vn).val.toNat
  let g := (s.reg t vg).val.toNat
  let tag := (s.pair t pv).2
  let bar := if g.testBit 8 then some (16 * nfld g 9 15) else none
  if n % 16 != 0 || n == 0 || decide (65536 < n) || nfld g 24 8 != 0 then .trap s { num := 2, addr := a, tag := tag }
  else match s.copyAddr e 1 n 16 a, bar.bind (s.copyAddr e 1 16 16) with
    | some tr, _ => .trap s { tr with tag := tag }
    | _, some tr => .trap s { tr with tag := tag }
    | none, none =>
      match e.crew.gangs.find? fun k => k.entry == g % 256, e.launch.gangs[g % 256]? with
      | some k, some x =>
        match s.issueWait uid t 1 with
        | some w => .stall s w
        | none =>
          let ls := scrLines e.core (e.crew.phys a) n
          if ls.any fun l => SMap.getD s.pend 0 (l.1 * 4096 + l.2) != 0 then .stall s .drain
          else
            let acc : List Access := (List.range (n / 16)).map fun i =>
              ⟨3, true, a + 16 * i, 16, SMap.getD s.scrTag 0 (granKey e.core (e.crew.phys (a + 16 * i)))⟩
            .done ((s.sendTile e uid t group (e.flag fb) k x a n bar).copyWatch (e.issuer uid t) 0 acc).1
      | _, _ => .trap s { num := 24, addr := a, tag := tag }

/-- RING's slot. -/
def ringSlot (size pv off vn vg : Nat) (fb : Bool) (s : State) : Host.Outcome State Fault Refusal :=
  s.once size (fun _ => { uses := [⟨pv, 2, 1⟩, ⟨vn, 1, 1⟩, ⟨vg, 1, 1⟩], cls := 1, anom := [pv, pv + 1, vn], acause := 4, src := some pv,
                          addr := some (pv, off), stall := true }) fun e s u t g => ringLane pv off vn vg fb e s u t g

/-- RING (R420, R421). -/
def execRing (f : FPairTwo) (s : State) : Host.Outcome State Fault Refusal := ringSlot 1 (2 * f.p.toNat) 0 f.r.toNat f.q.toNat f.f s
/-- RING with an extension word (R420, R421). -/
def execRingLong (f : FPairTwoL) (s : State) : Host.Outcome State Fault Refusal :=
  ringSlot 2 (2 * f.p.toNat) (16 * f.off.toNat) f.r.toNat f.q.toNat f.f s

/-- The round a tile's receiver has issued and that still waits for it. -/
def State.ringWaitFor (s : State) (x : Tile) : Option RingWait :=
  s.ringWaits.find? fun r => r.launch == x.launch && r.gang == x.gang && r.pos == x.toPos && r.round == x.round

/-- A tile lands in its receiver (R83, R152): data with eartags, the receiver's barrier credited, its lines lowered and
its flag cleared. -/
def State.landTile (s : State) (i : Nat) (x : Tile) (crew : Nat) (c : Crew) (w : RingWait) : State :=
  let put (s : State) (j : Nat × (List Byte × Tag)) : State :=
    let st : Store := ⟨x.iss.uid, x.iss.crew, x.iss.ctx, c.core, .scr c.core (c.phys (x.off + 16 * j.1)), x.off, j.2.1.map some, j.2.2, none, 0, 0, none,
      0, 0, x.iss, false, false⟩
    s.performStore st
  let s := (x.grans.zipIdx.map fun g => (g.2, g.1)).foldl put s
  let s := (s.credit crew x.bar (16 * x.grans.length)).lowerLines w.lines
  let s := ({ s with tiles := SMap.del s.tiles i, ringWaits := s.ringWaits.erase w } : State).opDone w.op
  ((s.startDue c.core).settleCrew crew).settleCrew x.iss.crew

/-- RING_LANDING (R152, R153): a tile lands once its receiver has issued the round; for a member that is not resident it
goes into device staging, which holds one tile for each member; for a member that has completed it is discarded and
logged. -/
def execRingLanding (i : Nat) (s : State) : Host.Outcome State Fault Refusal :=
  match SMap.get? s.tiles i with
  | none => .refused (.cannotOccur "RING_LANDING")
  | some x =>
    match s.ringMember x.launch x.gang x.toPos with
    | some (crew, c) =>
      if c.placed then
        match s.ringWaitFor x with
        | some w => .next (s.landTile i x crew c w)
        | none => .refused (.cannotOccur "RING_LANDING")
      else if x.staged || (s.tiles.any fun y => y.2.staged && y.2.launch == x.launch && y.2.gang == x.gang && y.2.toPos == x.toPos) then
        .refused (.cannotOccur "RING_LANDING")
      else .next (({ s with tiles := SMap.put s.tiles i { x with staged := true } } : State).settleCrew x.iss.crew)
    | none =>
      let isOver : Bool := match (SMap.get? s.launches x.launch) with
        | none => true
        | some l => match (l.gangs[x.gang]?).bind fun y => y.members[x.toPos]? with
          | none => true
          | some ord => l.done.contains ord
      if isOver then
        let s := (({ s with tiles := SMap.del s.tiles i } : State).log x.iss.ctx 9 2 0 (x.gang * 2 ^ 56 + x.fromPos * 2 ^ 40 + x.toPos * 2 ^ 24 + x.round % 2 ^ 24)
          (s.whereOf x.iss))
        .next (s.settleCrew x.iss.crew)
      else if x.staged || (s.tiles.any fun y => y.2.staged && y.2.launch == x.launch && y.2.gang == x.gang && y.2.toPos == x.toPos) then
        .refused (.cannotOccur "RING_LANDING")
      else .next (({ s with tiles := SMap.put s.tiles i { x with staged := true } } : State).settleCrew x.iss.crew)

end Sys2Proof.Machine
end

