-- ==== Sys2Proof/Machine/Collective.lean ====
section
/-! DEFINITION. Major 27 (R214, R215, R217, R350, R352) and the steps of the parlour, the ports and the base dies: R210,
R218 to R229. -/

namespace Sys2Proof.Machine

/-! ## COLPOST and COLFIRE -/

/-- The status word of a COLPOST (R215). -/
def colStatus (outcome reason nfail : Nat) : Word := BitVec.ofNat 32 (outcome * 2 ^ 30 + reason * 2 ^ 16 + min nfail 65535)

/-- A refused post writes vD of every lane at once (R215). -/
def State.refusePost (s : State) (e : Env) (d : Nat) (reason : Nat) (group : List Nat) : State :=
  group.foldl (fun (s : State) u => match s.thread? u with
    | none => s
    | some t => s.setReg t d ⟨colStatus 2 reason 0, e.ownTag⟩) s

/-- An accepted post: its flag is raised in the group, and vD of every lane is due (R215). -/
def State.acceptPost (s : State) (p : Posted) (fireall : Bool) (d : Nat) (flag : Option Nat) (group : List Nat) : State :=
  let r := s.newOp group flag 1
  let dsts := group.filterMap fun u => (s.thread? u).map fun t => (u, t.wbase + d)
  let p' := { p with op := r.2, number := s.nextLoad, dsts := dsts }
  ({ r.1 with nextLoad := s.nextLoad + 1 } : State).postEntry p' fireall

/-- COLPOST of lane e (R215, R352). -/
def colpostLane (f : FCol) (e : Env) (s : State) (uid : Nat) (t : Thread) (group : List Nat) : LaneRes :=
  let a := (s.pair t f.q.toNat).1.toNat
  match s.releaseTry uid 4 with
    | (s1, some w) => .stall s1 w
    | (s1, none) =>
      if a % 64 != 0 then .done (s1.refusePost e f.r.toNat 2 group)
      else match s1.readBlock e uid t f.q.toNat 4 a with
      | (s2, .trap tr) => .trap s2 tr
      | (s2, .busy c l) => .park s2 (.presence c l)
      | (s1, .ok bs tags) =>
        let s2 := s1.wokenAcquire uid t
        let d := parseCol bs
        let s3 := match s2.postCheck e.crew.ctx d (e.issuer uid t) false with
          | .error reason => s2.refusePost e f.r.toNat reason group
          | .ok p => s2.acceptPost p d.fireall f.r.toNat (e.flag f.f) group
        s2.watched s3 e uid t (blockAccess a tags)

/-- COLPOST (R352). -/
def execColpost (f : FCol) (s : State) : Host.Outcome State Fault Refusal :=
  s.once 1 (fun _ => { uses := [⟨f.r.toNat, 1, 1⟩, ⟨f.q.toNat, 2, 2⟩], src := some f.q.toNat, addr := some (f.q.toNat, 0), stall := true })
    fun e s u t g => colpostLane f e s u t g

/-- COLFIRE of lane e (R217, R350). -/
def colfireLane (f : FCol) (e : Env) (s : State) (uid : Nat) (t : Thread) (group : List Nat) : LaneRes :=
  let cid := (s.reg t f.r.toNat).val.toNat
  let chunk := (s.reg t f.q.toNat).val.toNat
  let tag := (s.reg t f.r.toNat).tag
  match s.colEntry e.crew.ctx cid with
  | none => .trap s { num := 29, tag := tag }
  | some (i, p) =>
    if p.chunks ≤ chunk then .trap s { num := 2, tag := tag }
    else match s.releaseTry uid 4 with
      | (s1, some w) => .stall s1 w
      | (s1, none) =>
        if p.fired.contains chunk then .done (s1.log e.crew.ctx 8 1 0 (cid * 2 ^ 32 + chunk) (s1.whereOf (e.issuer uid t)))
        else
          let r := s1.newOp group (e.flag f.f) 1
          .done (r.1.fireChunk i chunk (some r.2))

/-- COLFIRE (R350). -/
def execColfire (f : FCol) (s : State) : Host.Outcome State Fault Refusal :=
  s.once 1 (fun _ => { uses := [⟨f.r.toNat, 1, 1⟩, ⟨f.q.toNat, 1, 1⟩], src := some f.r.toNat, stall := true })
    fun e s u t g => colfireLane f e s u t g

/-! ## Messages that arrive (R218, R220, R229) -/

/-- PARLOUR_POST (R218): the coordinator receives another member's post. -/
def execParlourPost (clock ctx cid rank : Nat) (fields : List Nat) (s : State) : Host.Outcome State Fault Refusal :=
  match (SMap.get? s.ctxs ctx).bind fun c => SMap.get? c.comms (fields.getD 0 0) with
  | none => .refused (.cannotOccur "PARLOUR_POST")
  | some cm =>
    let posted := match s.coordOf ctx cid with
      | some (_, c) => c.posts.any fun p => p.1 == rank
      | none => false
    if coordinator cm.members != s.chip.dev || decide (cm.members.length ≤ rank) || cm.members.getD rank s.chip.dev == s.chip.dev || posted ||
        fields.length != 7 then
      .refused (.cannotOccur "PARLOUR_POST")
    else .next ((s.hear clock).recvPost ctx cid rank cm.members fields)

/-- TICKET (R218, R220): a member receives its group's ticket. -/
def execTicket (i value clock : Nat) (s : State) : Host.Outcome State Fault Refusal :=
  match SMap.get? s.posted i with
  | none => .refused (.cannotOccur "TICKET")
  | some p =>
    if p.state == .posted && coordinator p.members != s.chip.dev && value % 65536 == coordinator p.members then
      .next ((s.hear clock).recvTicket i value)
    else .refused (.cannotOccur "TICKET")

/-- COLLECTIVE_START (R220): the lowest-ranked held ticket whose demand is free. -/
def execCollectiveStart (i : Nat) (s : State) : Host.Outcome State Fault Refusal :=
  match s.lowestHeld with
  | none => .refused (.cannotOccur "COLLECTIVE_START")
  | some (j, p) => if i = j && s.demandFree p (s.dstStacks p) then .next (s.startEntry i p).yieldHigher else .refused (.cannotOccur "COLLECTIVE_START")

/-- READY (R220): the coordinator receives another member's READY. -/
def execReady (ctx cid rank clock : Nat) (s : State) : Host.Outcome State Fault Refusal :=
  match s.coordOf ctx cid with
  | none => .refused (.cannotOccur "READY")
  | some (_, c) =>
    if c.ticket.isSome && decide (rank < c.members.length) && c.members.getD rank s.chip.dev != s.chip.dev && !c.readys.contains rank then
      .next ((s.hear clock).recvReady ctx cid rank)
    else .refused (.cannotOccur "READY")

/-- GO (R220): a member receives GO. -/
def execGo (i clock : Nat) (s : State) : Host.Outcome State Fault Refusal :=
  match SMap.get? s.posted i with
  | none => .refused (.cannotOccur "GO")
  | some p =>
    if (p.state == .started || p.state == .withdrawing) && coordinator p.members != s.chip.dev then .next ((s.hear clock).recvGo i)
    else .refused (.cannotOccur "GO")

/-- WITHDRAW (R220): the coordinator receives another member's WITHDRAW; for a group that has been sent GO it is void. -/
def execWithdraw (ctx cid rank clock : Nat) (s : State) : Host.Outcome State Fault Refusal :=
  match s.coordOf ctx cid with
  | none => .next (s.hear clock)
  | some (_, c) =>
    if c.readys.contains rank && c.members.getD rank s.chip.dev != s.chip.dev then .next ((s.hear clock).recvWithdraw ctx cid rank)
    else .refused (.cannotOccur "WITHDRAW")

/-- WITHDRAW_ACK (R220, R229): a member's withdrawal is acknowledged. -/
def execWithdrawAck (i clock : Nat) (s : State) : Host.Outcome State Fault Refusal :=
  match SMap.get? s.posted i with
  | none => .refused (.cannotOccur "WITHDRAW_ACK")
  | some p =>
    if p.state == .withdrawing && coordinator p.members != s.chip.dev then .next ((s.hear clock).recvAck i).yieldHigher
    else .refused (.cannotOccur "WITHDRAW_ACK")

/-! ## Runs, commands and landings (R223 to R226) -/

/-- Whether a run of `n` elements may enter a chunk's DST elements: they are this member's, in order, and its terms are new
ones, or the whole result. -/
def Posted.runOk (p : Posted) (chunk elt ranks n : Nat) : Bool :=
  let need := p.needs chunk
  n != 0 && ranks != 0 && decide (n * p.esz ≤ 256) && (p.dst + elt * p.esz) / 256 == (p.dst + (elt + n) * p.esz - 1) / 256 &&
  (List.range n).all fun k =>
    match need.find? fun x => x.1 == elt + k with
    | none => false
    | some x => let t := SMap.getD p.terms 0 (elt + k); (ranks &&& x.2) == ranks && (ranks == x.2 || (ranks &&& t) == 0)

/-- Whether a run holds the whole result of its elements, which lands as it is. -/
def Posted.runWhole (p : Posted) (chunk elt ranks : Nat) : Bool :=
  !p.reduces || ((p.needs chunk).find? fun x => x.1 == elt).map (·.2) == some ranks

/-- Whether a run is one command's: a multiple of 32 bytes, or the last elements of its chunk (R223; log entry 48, DEDUCED). -/
def Posted.runFits (p : Posted) (chunk elt n : Nat) : Bool :=
  n * p.esz % 32 == 0 || !((p.needs chunk).any fun x => x.1 == elt + n)

/-- The command of a receive-reduce step (R223), its run staged in a block that the device chooses (log entry 78, DESIGN
CHOICE). -/
def State.command (s : State) (i : Nat) (p : Posted) (chunk elt ranks : Nat) (data : List Nat) (marks : List (Nat × Nat × Tag)) : Command :=
  let pa := match (SMap.get? s.ctxs p.ctx).map fun c => s.transDev c (p.dst + elt * p.esz) with
    | some (.hit h) => match h.loc with
      | .hbm a => a
      | _ => 0
    | _ => 0
  ⟨i, p.ctx, pa, Config.stagingAt s.nextStore, (data.length * p.esz + 31) / 32, p.rop, p.ty, chunk, p.ticket.getD 0, elt, ranks, data, marks⟩

/-- A run that lands as it is (R213, R225): it replaces what stands. -/
def Posted.applyRun (p : Posted) (elt ranks : Nat) (data : List Nat) (marks : List (Nat × Nat × Tag)) : Posted :=
  let p := (data.zipIdx).foldl (fun (p : Posted) d =>
    ({ p with terms := SMap.del p.terms (elt + d.2) } : Posted).addTerm (elt + d.2) ranks d.1) p
  marks.foldl (fun (p : Posted) m => p.mark m.1 m.2.1 m.2.2) p

/-- RECEIVE_REDUCE_ARRIVE (R28, R213, R223): an incoming run of the kinds that reduce is staged, and a command is queued on
the base die of the stack that homes its destination: 64 in a queue, 8 of one collective. A run of the other kinds, or
one that holds the whole result, joins the collective queue. With no data it says that members have fired a chunk that
has no elements. `ranks` is the mask of the members whose contributions it combines. -/
def execReceiveReduceArrive (i chunk elt ranks : Nat) (data : List Nat) (marks : List (Nat × Nat × Tag)) (s : State) :
    Host.Outcome State Fault Refusal :=
  match SMap.get? s.posted i with
  | none => .refused (.cannotOccur "RECEIVE_REDUCE_ARRIVE")
  | some p =>
    if p.state != .running || decide (p.members.length < 2) || (SMap.get? p.status chunk).isSome then .refused (.cannotOccur "RECEIVE_REDUCE_ARRIVE")
    else if data.isEmpty then
      if (p.elems chunk).isEmpty && decide (chunk < p.chunks) then
        .next { s with posted := SMap.put s.posted i { p with heard := SMap.put p.heard chunk (SMap.getD p.heard 0 chunk ||| ranks) } }
      else .refused (.cannotOccur "RECEIVE_REDUCE_ARRIVE")
    else if !p.runOk chunk elt ranks data.length then .refused (.cannotOccur "RECEIVE_REDUCE_ARRIVE")
    else
      let bits := data.map (· % 2 ^ (8 * p.esz))
      if p.runWhole chunk elt ranks then
        let p' := p.applyRun elt ranks bits marks
        let s : State := { s with posted := SMap.put s.posted i p' }
        .next ((p'.gransOf ((List.range bits.length).map (elt + ·))).foldl (fun (s : State) g => s.queueLanding i p' g) s)
      else
        let stack := match SMap.get? s.ctxs p.ctx with
          | none => 0
          | some c => ((s.unitStacks c (p.dst + elt * p.esz) (p.dst + (elt + data.length) * p.esz))).getD 0 0
        let q := SMap.getD s.commands [] stack
        if 8 ≤ (q.filter fun x => x.posted == i).length || decide (64 ≤ q.length) || !p.runFits chunk elt data.length then
          .refused (.cannotOccur "RECEIVE_REDUCE_ARRIVE")
        else .next { s with commands := SMap.put s.commands stack (q ++ [s.command i p chunk elt ranks bits marks]), nextStore := s.nextStore + 1 }

/-- BASE_DIE_REDUCE (R224, R225): the oldest command of a stack's queue combines its run into DST, each granule with its tag
word in one held step; it waits while a page does not take its result. -/
def execBaseDieReduce (stack : Nat) (s : State) : Host.Outcome State Fault Refusal :=
  match SMap.getD s.commands [] stack with
  | [] => .refused (.cannotOccur "BASE_DIE_REDUCE")
  | x :: rest =>
    let s : State := { s with commands := SMap.setD s.commands [] stack rest }
    let s := s.count (cntStack stack 2) 1
    match SMap.get? s.posted x.posted with
    | none => .next s
    | some p =>
      if p.ctx != x.ctx || (SMap.get? p.status x.chunk).isSome then .next s
      else
        let p1 := x.marks.foldl (fun (p : Posted) m => p.mark m.1 m.2.1 m.2.2) p
        let terms := x.data.zipIdx.map fun d => (x.elt + d.2, d.1)
        match ({ s with posted := SMap.put s.posted x.posted p1 } : State).reduceRun x.posted x.ranks terms (p.gransOf (terms.map (·.1))) with
        | some s' => .next s'
        | none => .refused (.cannotOccur "BASE_DIE_REDUCE")

/-- COLLECTIVE_LANDING (R172, R226): a landing of the collective queue reaches the device point, bytes and eartag in one
step; a page it cannot write keeps it waiting (log entry 18, DESIGN CHOICE). -/
def execCollectiveLanding (i : Nat) (s : State) : Host.Outcome State Fault Refusal :=
  match SMap.get? s.colQ i with
  | none => .refused (.cannotOccur "COLLECTIVE_LANDING")
  | some x =>
    match SMap.get? s.ctxs x.ctx with
    | none => .refused (.cannotOccur "COLLECTIVE_LANDING")
    | some c =>
      match s.transDev c x.va with
      | .hit h =>
        if !h.w || !h.peerW || h.loc.isTable then .refused (.cannotOccur "COLLECTIVE_LANDING")
        else .next (({ s with colQ := SMap.del s.colQ i } : State).performResult x.ctx x.va h x.data x.tag)
      | _ => .refused (.cannotOccur "COLLECTIVE_LANDING")

/-! ## Completion (R227, R244) -/

/-- Write a COLPOST's status word into a lane of its group, or hold it while its crew is removed (R215, R244). -/
def State.writePost (s : State) (p : Posted) (x : Nat × Nat) : State :=
  let r : Reg := ⟨colStatus (if p.nfail = 0 then 0 else 1) 0 p.nfail, siteTag p.iss.site (p.iss.ord % 256)⟩
  match s.thread? x.1 with
  | none => s
  | some t =>
    if t.status == .removed then
      { s with crews := SMap.mod s.crews t.crew fun c => { c with saved := c.saved.map fun v => { v with posts := v.posts ++ [(x.1, x.2, r)] } } }
    else s.landRegs x.1 p.number x.2 [r]

/-- An entry is Done or Failed (R220, R227): the completion record is written, its demand and entry are free, vD is
written and its flags clear (log entry 34, DEDUCED). -/
def State.finishCollective (s : State) (i : Nat) (p : Posted) : State :=
  let s := p.dsts.foldl (fun (s : State) x => s.writePost p x) s
  let s := if p.state == .failed then s else s.unbind p
  let s : State := { s with
    posted := SMap.del s.posted i
    commands := s.commands.map fun e => (e.1, e.2.filter fun x => x.posted != i) }
  let s := (p.fires.foldl (fun (s : State) f => s.opDone f.2) s).opDone p.op
  let s := s.putRecord 0 0 true false p.ctx p.res 0 (grans 2 (p.record s.timebase))
  ((s.endCoord p.ctx p.cid).settleCrew p.iss.crew).yieldHigher

/-- Whether a chunk has completed on this member (R213, R226): it has fired, on every member where it has no elements, this member's SRC is read, and every DST
element that depends on it holds every term it needs. -/
def Posted.chunkDone (p : Posted) (c : Nat) : Bool :=
  p.fired.contains c && ((p.elems c).isEmpty → (List.range p.members.length).all fun r => r == p.rank || (SMap.getD p.heard 0 c).testBit r) &&
  (!p.readsSrc c || p.srcRead.contains c) &&
  (p.needs c).all fun x => (SMap.getD p.terms 0 x.1 &&& x.2) == x.2

/-- CHUNK_COMPLETE (R226, R227): a chunk's landings on this member complete (status 1), or it fails with the code of its
first cause, here or, by a message (R218; log entry 79, DESIGN CHOICE), on another member, in whatever state the entry stands; its status byte is written, and with the
last one the collective is over. -/
def execChunkComplete (i chunk status : Nat) (s : State) : Host.Outcome State Fault Refusal :=
  match SMap.get? (s.sendFired i).posted i with
  | none => .refused (.cannotOccur "CHUNK_COMPLETE")
  | some p =>
    let s := s.sendFired i
    let decided := SMap.get? p.status chunk
    let ok : Bool := decide (chunk < p.chunks) && !p.written.contains chunk &&
      match decided with
      | some c => c == status
      | none => if status = 1 then p.state == .running && p.chunkDone chunk &&
            !(s.commands.any fun e => e.2.any fun x => x.posted == i && x.chunk == chunk)
          else decide (2 ≤ status) && decide (status ≤ 6) && decide (2 ≤ p.members.length)
    if !ok then .refused (.cannotOccur "CHUNK_COMPLETE")
    else
      let s := if status = 1 then s else if decided.isNone then (s.hear (Config.failClock s.chip.clock)).failChunk i chunk status else s
      let s : State := { s with posted := SMap.mod s.posted i fun p =>
        { p with status := SMap.put p.status chunk status, written := p.written ++ [chunk] } }
      let s := s.putRecord 0 0 true false p.ctx (p.res + 0x20 + chunk) 0 [[BitVec.ofNat 8 status]]
      match SMap.get? s.posted i with
      | none => .next s
      | some p => .next (if p.written.length < p.chunks then s else s.finishCollective i p)

/-! ## Links (R30, R210, R222) -/

/-- The routes of an entry that use a port here, with the units of 64 elements they carry of a chunk (R222): route 0
takes the first units. -/
def Posted.partOn (p : Posted) (port chunk : Nat) : Bool :=
  let units := ((p.elems chunk).length + 63) / 64
  let total := p.weights.foldl (· + ·) 0
  (p.routes.zipIdx).any fun r =>
    let before := (p.weights.take r.2).foldl (· + ·) 0
    let w := p.weights.getD r.2 0
    r.1.ports.contains port && total != 0 && units * before / total != units * (before + w) / total

/-- A link fails (R210, R222): each chunk with a part in flight on it fails with code 3. -/
def State.failLink (s : State) (port : Nat) : State :=
  let s : State := { s with chip := { s.chip with linkFailed := if s.chip.linkFailed.contains port then s.chip.linkFailed else s.chip.linkFailed ++ [port] } }
  (s.posted.filter fun e => e.2.state == .running && decide (2 ≤ e.2.members.length)).foldl (fun (s : State) e =>
    (e.2.fired.filter fun c => e.2.partOn port c).foldl (fun (s : State) c => s.failHere e.1 c 3) s) s

/-- CRC failures in a row of a port (log entry 49, DEDUCED). -/
def Chip.retriesOf (c : Chip) (port : Nat) : Nat := ((c.retries.find? fun r => r.1 == port).map (·.2)).getD 0
/-- Set the CRC failures in a row of a port. -/
def Chip.setRetries (c : Chip) (port n : Nat) : Chip :=
  { c with retries := if n = 0 then c.retries.filter fun r => r.1 != port else (port, n) :: c.retries.filter fun r => r.1 != port }

/-- FLIT_RECEIVE (R210): a flit arrives and its CRC is checked; a failed one is retried, and when 8 retries of it have
failed too the link is declared failed (log entry 49, DEDUCED) (log entry 59, DESIGN CHOICE). -/
def execFlitReceive (port : Nat) (good : Bool) (s : State) : Host.Outcome State Fault Refusal :=
  if s.chip.width.getD port 0 = 0 || s.chip.linkFailed.contains port then .refused (.cannotOccur "FLIT_RECEIVE")
  else
    let n := s.chip.retriesOf port
    let put (s : State) (k : Nat) : State := { s with chip := s.chip.setRetries port k }
    if good then .next (put (s.count (cntPort port 1) 1) 0)
    else if n = 8 then .next ((put s 0).failLink port)
    else .next (put (s.count (cntPort port 2) 1) (n + 1))

/-- LINK_TRAIN (R30, R210): a port trains at four, two or no lanes; a failed link is a link again. -/
def execLinkTrain (port width : Nat) (s : State) : Host.Outcome State Fault Refusal :=
  if decide (48 ≤ port) || !([0, 2, 4].contains width) || !s.chip.powered then .refused (.cannotOccur "LINK_TRAIN")
  else
    let s : State := { s with chip := (({ s.chip with width := s.chip.width.set port width, linkFailed := s.chip.linkFailed.filter (· != port) } : Chip).setRetries port 0) }
    .next (s.blockUpdate fun p => p.portmap.testBit port)

end Sys2Proof.Machine
end

