-- ==== Sys2Proof/Machine/Sign.lean ====
section
/-! DEFINITION. The hash and the signature of the boot image (R275, R276): SHA-512, and Ed25519ph of RFC 8032, which R276
names and which the spec's other files do not repeat (log entry 7, PRESUMED). -/

namespace Sys2Proof.Machine

/-! ## SHA-512 -/

/-- The largest r below 2^bits with r^k at most n. -/
def rootOf (k n : Nat) : Nat → Nat → Nat
  | 0, r => r
  | b + 1, r => rootOf k n b (if (r + 2 ^ b) ^ k ≤ n then r + 2 ^ b else r)

/-- The first `n` primes from `k` on, with the primes below `k`. -/
def primesFrom : Nat → Nat → List Nat → List Nat
  | 0, _, l => l
  | f + 1, k, l => primesFrom f (k + 1) (if l.any fun p => k % p == 0 then l else l ++ [k])

/-- The first 80 primes. -/
def primes80 : List Nat := (primesFrom 408 2 []).take 80

/-- The round constants: the first 64 bits of the fractions of the primes' cube roots. -/
def shaK : List Nat := primes80.map fun p => rootOf 3 (p * 2 ^ 192) 68 0 % 2 ^ 64

/-- The first chaining value: the first 64 bits of the fractions of the square roots of the first 8 primes. -/
def shaInit : List Nat := (primes80.take 8).map fun p => rootOf 2 (p * 2 ^ 128) 67 0 % 2 ^ 64

/-- Rotate a 64-bit word right. -/
def rotr64 (x n : Nat) : Nat := x / 2 ^ n + x % 2 ^ n * 2 ^ (64 - n)

/-- The exclusive or of three words. -/
def xor3 (a b c : Nat) : Nat := (a ^^^ b) ^^^ c

/-- The message schedule, newest word first: `n` more words. -/
def shaSchedule : Nat → List Nat → List Nat
  | 0, w => w
  | n + 1, w =>
    let g (i : Nat) : Nat := w.getD (i - 1) 0
    let s1 := xor3 (rotr64 (g 2) 19) (rotr64 (g 2) 61) (g 2 / 2 ^ 6)
    let s0 := xor3 (rotr64 (g 15) 1) (rotr64 (g 15) 8) (g 15 / 2 ^ 7)
    shaSchedule n ((s1 + g 7 + s0 + g 16) % 2 ^ 64 :: w)

/-- One round on the eight working words. -/
def shaRound (v : List Nat) (k w : Nat) : List Nat :=
  let g (i : Nat) : Nat := v.getD i 0
  let e := g 4
  let a := g 0
  let ch := (e &&& g 5) ^^^ ((2 ^ 64 - 1 - e) &&& g 6)
  let t1 := g 7 + xor3 (rotr64 e 14) (rotr64 e 18) (rotr64 e 41) + ch + k + w
  let t2 := xor3 (rotr64 a 28) (rotr64 a 34) (rotr64 a 39) + xor3 (a &&& g 1) (a &&& g 2) (g 1 &&& g 2)
  [(t1 + t2) % 2 ^ 64, a, g 1, g 2, (g 3 + t1) % 2 ^ 64, e, g 5, g 6]

/-- A number of big-endian bytes. -/
def ofBytesBe (bs : List Byte) : Nat := ofBytes bs.reverse

/-- One block of 128 bytes. -/
def shaBlock (ks h : List Nat) (block : List Byte) : List Nat :=
  let w0 := (List.range 16).map fun i => ofBytesBe ((block.drop (8 * i)).take 8)
  let w := (shaSchedule 64 w0.reverse).reverse
  let v := (ks.zip w).foldl (fun v x => shaRound v x.1 x.2) h
  (h.zip v).map fun x => (x.1 + x.2) % 2 ^ 64

/-- The blocks of a padded message. -/
def shaBlocks (ks : List Nat) : Nat → List Nat → List Byte → List Nat
  | 0, h, _ => h
  | n + 1, h, bs => shaBlocks ks n (shaBlock ks h (bs.take 128)) (bs.drop 128)

/-- SHA-512: 64 bytes. -/
def sha512 (m : List Byte) : List Byte :=
  let n := m.length
  let pad := (239 - n % 128) % 128
  let bs := m ++ [0x80] ++ List.replicate pad 0 ++ (toBytes 16 (8 * n)).reverse
  (shaBlocks shaK (bs.length / 128) shaInit bs).flatMap fun x => (toBytes 8 x).reverse

/-! ## Ed25519ph -/

/-- The field's prime. -/
def edP : Nat := 2 ^ 255 - 19
/-- The group's order. -/
def edL : Nat := 2 ^ 252 + 27742317777372353535851937790883648493

/-- b^e in the field, over the low `n` bits of e. -/
def edPow : Nat → Nat → Nat → Nat
  | 0, _, _ => 1
  | n + 1, b, e => (if e % 2 = 1 then b else 1) * edPow n (b * b % edP) (e / 2) % edP

/-- The inverse in the field. -/
def edInv (x : Nat) : Nat := edPow 255 x (edP - 2)
/-- a − b in the field. -/
def edSub (a b : Nat) : Nat := (a + edP - b) % edP
/-- The curve's d. -/
def edD : Nat := (edP - 121665) * edInv 121666 % edP

/-- A point of the curve in extended coordinates. -/
structure EdPoint where
  x : Nat
  y : Nat
  z : Nat
  t : Nat
  deriving DecidableEq, Repr

/-- The neutral point. -/
def EdPoint.zero : EdPoint := ⟨0, 1, 1, 0⟩

/-- The sum of two points. -/
def EdPoint.add (p q : EdPoint) : EdPoint :=
  let a := edSub p.y p.x * edSub q.y q.x % edP
  let b := (p.y + p.x) * (q.y + q.x) % edP
  let c := 2 * (p.t * q.t % edP) * edD % edP
  let d := 2 * p.z * q.z % edP
  let e := edSub b a
  let f := edSub d c
  let g := (d + c) % edP
  let h := (b + a) % edP
  ⟨e * f % edP, g * h % edP, f * g % edP, e * h % edP⟩

/-- A multiple of a point, over the low bits of the factor. -/
def EdPoint.mul : Nat → Nat → EdPoint → EdPoint
  | 0, _, _ => EdPoint.zero
  | n + 1, k, p =>
    let r := EdPoint.mul n (k / 2) (p.add p)
    if k % 2 = 1 then p.add r else r

/-- Whether two points are the same. -/
def EdPoint.same (p q : EdPoint) : Bool := p.x * q.z % edP == q.x * p.z % edP && p.y * q.z % edP == q.y * p.z % edP

/-- The point with a y and the low bit of its x, where there is one. -/
def edPoint (y sign : Nat) : Option EdPoint :=
  let u := edSub (y * y % edP) 1
  let v := (edD * (y * y % edP) + 1) % edP
  let v3 := v * v % edP * v % edP
  let r := u * v3 % edP * edPow 255 (u * (v3 * v3 % edP * v % edP) % edP) ((edP - 5) / 8) % edP
  let w := v * (r * r % edP) % edP
  let x? : Option Nat := if w = u then some r else if w = edSub 0 u then some (r * edPow 255 2 ((edP - 1) / 4) % edP) else none
  match x? with
  | none => none
  | some x =>
    if edP ≤ y || (x == 0 && sign == 1) then none
    else
      let x := if x % 2 = sign then x else edP - x
      some ⟨x, y, 1, x * y % edP⟩

/-- Decode a point of 32 bytes. -/
def edDecode (bs : List Byte) : Option EdPoint := edPoint (ofBytes bs % 2 ^ 255) (ofBytes bs / 2 ^ 255)

/-- Whether a signature of 64 bytes on a message verifies under a key, as Ed25519ph with an empty context. -/
def ed25519ph (key sig message : List Byte) : Bool :=
  let s := ofBytes (sig.drop 32)
  match edPoint (4 * edInv 5 % edP) 0, edDecode key, edDecode (sig.take 32) with
  | some b, some a, some r =>
    let prefix_ := "SigEd25519 no Ed25519 collisions".toList.map (fun c => (BitVec.ofNat 8 c.toNat : Byte)) ++ [1, 0]
    let k := ofBytes (sha512 (prefix_ ++ sig.take 32 ++ key ++ sha512 message)) % edL
    decide (s < edL) && ((b.mul 256 s).mul 4 8).same (((r.add (a.mul 256 k)).mul 4 8))
  | _, _, _ => false

end Sys2Proof.Machine
end

