-- ==== Sys2Proof/Machine/Launch.lean ====
section
/-! DEFINITION. The launcher: launch records and group tables (R48 to R53), the checks of a launch (R51), its lifetime
manifest (R289), its binding (R216), and the placing of crews (R22, R35, R55). -/

namespace Sys2Proof.Machine

/-! ## Launch records (R48 to R50) -/

/-- A launch record. -/
structure LaunchRec where
  code : Nat
  khw : Nat
  sptimer : Nat
  gx : Nat
  gy : Nat
  gz : Nat
  scrlines : Nat
  args : Nat
  gtab : Nat
  gcount : Nat
  colid : Nat
  tilem : Nat
  tilen : Nat
  cbase : Nat
  cx : Nat
  cy : Nat
  cz : Nat
  role64 : List Nat
  reserved : Bool
  deriving DecidableEq, Repr

/-- Parse the 128 bytes of a launch record (R48). -/
def parseLaunch (bs : List Byte) : LaunchRec :=
  let w (o n : Nat) : Nat := ofBytes ((bs.drop o).take n)
  let roles := (List.range 4).map fun i => w (0x40 + 8 * i) 8
  let khw := w 8 4
  { code := w 0 8, khw := khw, sptimer := w 0x0C 2, gx := w 0x10 2, gy := w 0x12 2, gz := w 0x14 2, scrlines := w 0x16 2
    args := w 0x18 8, gtab := w 0x20 8, gcount := w 0x28 4 % 512, colid := w 0x2C 4 % 65536, tilem := w 0x30 2, tilen := w 0x32 2
    cbase := w 0x34 4, cx := w 0x38 2, cy := w 0x3A 2, cz := w 0x3C 2, role64 := roles
    reserved := w 0x0E 2 != 0 || w 0x28 4 / 512 != 0 || w 0x2E 2 != 0 || w 0x3E 2 != 0 || w 0x60 32 != 0 || nfld khw 4 8 != 0 ||
      roles.any fun r => nfld r 39 25 != 0 }

/-- A role entry (R49). -/
def parseRole (r : Nat) : Role := ⟨nfld r 37 2, nfld r 30 7, 32 * (nfld r 26 4 + 1), nfld r 0 26⟩

/-- The role entries with warps, in index order. -/
def LaunchRec.roles (r : LaunchRec) : List Role := (r.role64.map parseRole).takeWhile fun x => x.warps != 0

/-- Status 4: no role, a gap between roles, or CLASS 3 beside another role (R51). -/
def LaunchRec.badRoles (r : LaunchRec) : Bool :=
  let all := r.role64.map parseRole
  r.roles.isEmpty || decide ((all.filter fun x => x.warps != 0).length ≠ r.roles.length) ||
    (r.roles.any (fun x => x.cls == 3) && decide (1 < r.roles.length))

/-- Warps of a crew. -/
def warpCount (rs : List Role) : Nat := rs.foldl (fun n x => n + x.warps) 0

/-- ANOM (R50). -/
def LaunchRec.anom (r : LaunchRec) : Nat := nfld r.khw 1 2
/-- Crews of the launch. -/
def LaunchRec.crews (r : LaunchRec) : Nat := r.gx * r.gy * r.gz

/-! ## Room for crews (R22) -/

/-- Every way to share `w` warps of allotment `a` out over quadrants that already hold (warps, registers of a lane). -/
def shareOut (a : Nat) : Nat → List (Nat × Nat) → List (List (Nat × Nat))
  | w, [] => if w = 0 then [[]] else []
  | w, q :: qs =>
    (List.range (min w (min (16 - q.1) ((2048 - q.2) / max 1 a)) + 1)).reverse.flatMap fun n =>
      (shareOut a (w - n) qs).map fun r => (q.1 + n, q.2 + n * a) :: r

/-- Whether warps of the given (count, allotment) fit together in the quadrants. -/
def packs : List (Nat × Nat) → List (Nat × Nat) → Bool
  | [], _ => true
  | r :: rs, qs => (shareOut r.2 r.1 qs).any fun x => packs rs x

/-- Whether a role is of CLASS 2 or 3: at most one crew with such a role is on a core (R115) (log entry 54, DEDUCED). -/
def usesMatrix (r : Role) : Bool := decide (2 ≤ r.cls)

/-- An empty core. -/
def emptyCore : List (Nat × Nat) := [(0, 0), (0, 0), (0, 0), (0, 0)]

/-- Whether `k` crews of these roles and lines fit on one empty core: lane slots and registers (R22), scratchpad lines
(R21), crew table entries (R139) and the matrix engine (R115). -/
def crewsFit (rs : List Role) (lines k : Nat) : Bool :=
  (k ≤ 1 || !(rs.any usesMatrix)) && decide (k ≤ 64) && decide (k * lines ≤ 4096) && decide (k * warpCount rs ≤ 64) && packs (rs.map fun r => (k * r.warps, r.allot)) emptyCore

/-- Crews of these roles and lines that one empty core holds at once. -/
def crewsPerCore (rs : List Role) (lines : Nat) : Nat :=
  (((List.range 64).map (· + 1)).takeWhile fun k => crewsFit rs lines k).length

/-! ## The group table (R52, R53) -/

/-- A group table entry with its reserved-field check. -/
structure GangRec where
  gang : Gang
  count : Nat
  reserved : Bool
  deriving DecidableEq, Repr

/-- Treat a page that is not present as unmappable when the operating system has found it so (R51). -/
def DevRead.settle (unmap : Bool) : DevRead → DevRead
  | .wait => if unmap then .bad else .wait
  | r => r

/-- What reading the group table comes to. -/
inductive GangRead where
  | ok (l : List GangRec)
  | wait
  | bad

/-- Read `n` group table entries with their member lists (R51, R52). -/
def State.readGangs (s : State) (c : Context) (unmap : Bool) : Nat → Nat → GangRead
  | 0, _ => .ok []
  | n + 1, a =>
    match (s.devRead c a 16).settle unmap with
    | .wait => .wait
    | .bad => .bad
    | .ok bs =>
      let x := ofBytes bs
      let k := nfld x 32 16
      match (s.devRead c (nfld x 64 64) (4 * k)).settle unmap with
      | .wait => .wait
      | .bad => .bad
      | .ok ms =>
        match s.readGangs c unmap n (a + 16) with
        | .ok l => .ok (⟨⟨x.testBit 0, nfld x 16 16, (List.range k).map fun i => ofBytes ((ms.drop (4 * i)).take 4)⟩, k,
            nfld x 48 16 != 0 || nfld x 1 15 != 0⟩ :: l)
        | r => r

/-- Whether every element of one list is in another. -/
def allIn (a b : List Nat) : Bool := a.all b.contains

/-- Whether two different entries nest (R53). -/
def nested : List Gang → Bool
  | [] => false
  | g :: gs => (gs.any fun h => allIn g.members h.members || allIn h.members g.members) || nested gs

/-- Whether the group table breaks a rule of R53, or gives a count outside its range (log entry 20, DEDUCED). -/
def badGangs (r : LaunchRec) (gs : List Gang) : Bool :=
  decide (256 < r.gcount) || gs.any (fun g => g.members.isEmpty || !(g.members.all (· < r.crews)) || g.members.eraseDups.length != g.members.length ||
    (g.cores && decide (128 * r.scrlines ≤ 16 * g.gboff))) ||
  (gs.flatMap (·.members)).any (fun o => decide (4 < (gs.filter fun g => g.members.contains o).length)) || nested gs

/-! ## The lifetime manifest (R289, R327) -/

/-- The lifetime class the opcode map gives a form (R327). -/
def opClass (major op : Nat) : Nat :=
  if (major = 22 && op = 1) || (major = 28 && op = 10) then 1 else if major = 31 && op = 0 then 2 else 0

/-- The generation that removes a form of class 1 (R327). -/
def opRemove (major op : Nat) : Nat := if opClass major op = 1 then 4 else 0

/-- The last three tests of R289 for a manifest: its head and its entries. -/
def manifestOk (step head : Nat) (es : List Nat) : Bool :=
  decide (nfld head 16 8 ≤ 2) &&
  es.all fun e =>
    nfld e 8 8 == opClass (nfld e 27 5) (nfld e 16 11) && !(nfld e 8 8 == 1 && decide (nfld e 0 8 ≤ 2)) &&
      !(nfld e 27 5 == 31 && nfld head 24 8 != step)

/-- Read and test the manifest at a code-space offset: `none` while a page is not present; one that cannot be read
admits nothing (log entry 20, DEDUCED). -/
def State.manifestTest (s : State) (c : Context) (unmap : Bool) (off : Nat) : Option Bool :=
  let a := (c.cspace + off) % 2 ^ 64
  match (s.devRead c a 4).settle unmap with
  | .wait => none
  | .bad => some false
  | .ok h =>
    let head := ofBytes h
    let n := head % 65536
    match (s.devRead c (a + 4) (4 * n)).settle unmap with
    | .wait => none
    | .bad => some false
    | .ok bs => some (manifestOk s.chip.step head ((List.range n).map fun i => ofBytes ((bs.drop (4 * i)).take 4)))

/-! ## Checking a launch (R51) -/

/-- What the launcher finds: it waits for a page or for bring-up, rejects with a status, or accepts. -/
inductive LaunchRes where
  | wait
  | reject (status : Nat)
  | accept (r : LaunchRec) (gs : List Gang)

/-- The first failing status of R51 in its table's order; `none` is none. `man` is the manifest's answer and `cores`
the released cores. -/
def LaunchRec.status (r : LaunchRec) (gs : List GangRec) (man : Bool) (cores : Nat) : Option Nat :=
  let gangs := gs.map (·.gang)
  let tests : List (Nat × Bool) := [
    (1, r.reserved || gs.any (·.reserved)),
    (2, r.code % 64 != 0),
    (3, r.gx == 0 || r.gy == 0 || r.gz == 0),
    (4, r.badRoles),
    (5, decide (64 < warpCount r.roles)),
    (6, cores == 0 || !(crewsFit r.roles 0 1)),
    (7, decide (4096 < r.scrlines)),
    (8, r.anom == 3 || !man),
    (9, badGangs r gangs),
    (10, gangs.any fun g => g.cores && decide (cores * crewsPerCore r.roles r.scrlines < g.members.length))]
  (tests.find? (·.2)).map (·.1)

/-- Released cores of a partition, ascending (R261). -/
def State.usable (s : State) (p : Partition) : List Nat := p.cores.filter s.chip.released.contains

/-- The stacks that hold a partition's frames: both stacks of each frame's die (R24, R259). -/
def Partition.stacksOf (p : Partition) : List Nat := (List.range 8).filter fun k => p.frames.any fun f => f / 256 == k / 2

/-- STATE of a partition's capability block (R260, R261, R276). -/
def State.partState (s : State) (p : Partition) : Nat :=
  if s.chip.recovery then 2
  else if p.cores.all (fun c => s.chip.released.contains c || s.chip.failed.contains c) && p.stacksOf.all (fun k => decide (2 ≤ s.chip.sst.getD k 0)) then 1
  else 0

/-- READ AND CHECK A LAUNCH (R51): the record, its group table and member lists, then the tests. A launch that can
never be placed waits while bring-up goes on (R261). -/
def State.launchTest (s : State) (c : Context) (a : Nat) (unmap : Bool) : LaunchRes :=
  if a % 128 != 0 then .reject 12
  else match (s.devRead c a 128).settle unmap, s.partOf c with
    | .wait, _ => .wait
    | .bad, _ => .reject 12
    | .ok _, none => .wait
    | .ok bs, some (_, p) =>
      let r := parseLaunch bs
      match s.readGangs c unmap (if r.gtab = 0 then 0 else r.gcount) r.gtab with
      | .wait => .wait
      | .bad => .reject 12
      | .ok gs =>
        match (if r.khw / 4096 = 0 then some true else s.manifestTest c unmap (r.code + 64 * (r.khw / 4096))) with
        | none => .wait
        | some man =>
          match r.status gs man (s.usable p).length with
          | none => .accept r (gs.map (·.gang))
          | some n => if (n = 6 || n = 10) && s.partState p = 0 then .wait else .reject n

/-- The launch of an accepted record. -/
def LaunchRec.launch (r : LaunchRec) (ctx : Nat) (gs : List Gang) (seq : Nat) (o : Origin) (batch count size : Nat) : Launch where
  ctx := ctx
  code := r.code
  manifest := r.khw / 4096
  iovf := r.khw.testBit 3
  anom := r.anom
  c16 := r.khw.testBit 0
  sptimer := r.sptimer
  gx := r.gx
  gy := r.gy
  gz := r.gz
  scrlines := r.scrlines
  args := r.args
  batch := batch
  batchCount := count
  batchSize := size
  cid := none
  ended := none
  cbase := r.cbase
  cx := r.cx
  cy := r.cy
  cz := r.cz
  roles := r.roles
  gangs := gs
  seq := seq
  cores := []
  placed := []
  done := []
  failed := false
  origin := o

/-! ## Binding (R216) -/

/-- The issuer of a bound post: the launch itself. -/
def boundIssuer (ctx launch : Nat) : Issuer := ⟨0, 0, ctx, launch, 0, 0, 0, 0, 0, 0, 0, 0, 0, 0, 0⟩

/-- Bind a launch to an entry; a result tile of another shape fails every chunk (R216). -/
def State.bindTo (s : State) (id i cid shape : Nat) : State :=
  let s : State := { s with
    launches := SMap.mod s.launches id fun l => { l with cid := some cid }
    posted := SMap.mod s.posted i fun p => { p with bound := true } }
  match SMap.get? s.posted i with
  | none => s
  | some p => if p.perChunk = shape then s else (s.failEntry i 5).sendOthers p.members 6 cid [5]

/-- COLLECTIVE_BIND (R216): `none` while the descriptor's page is not present. -/
def State.bindLaunch (s : State) (c : Context) (cid id : Nat) (r : LaunchRec) (unmap : Bool) : Option State :=
  if r.colid = 0 then some s
  else
    let a := (c.coldesc + 64 * r.colid) % 2 ^ 64
    let refused := s.log cid 5 2 (a % 2 ^ 32) (r.colid * 2 ^ 32 + 0xFFFFFFFF) 0
    match (s.devRead c a 64).settle unmap with
    | .wait => none
    | .bad => some refused
    | .ok bs =>
      let d := parseCol bs
      match s.colEntry cid d.cid with
      | some (i, _) => some (s.bindTo id i d.cid (r.tilem * r.tilen))
      | none =>
        match s.postCheck cid d (boundIssuer cid id) true with
        | .error _ => some refused
        | .ok p =>
          let s := s.postEntry p d.fireall
          match s.colEntry cid d.cid with
          | some (i, _) => some (s.bindTo id i d.cid (r.tilem * r.tilen))
          | none => some s

/-- Accept a launch and bind it. -/
def State.acceptLaunch (s : State) (c : Context) (cid id : Nat) (r : LaunchRec) (l : Launch) (unmap : Bool) : Option State :=
  ({ s with launches := SMap.put s.launches id l, accepted := s.accepted + 1 } : State).bindLaunch c cid id r unmap

/-- Whether a number can be a new launch id: 32 bits, as records hold it, not 0 and not in use (log entry 52, DESIGN CHOICE). -/
def State.freeLaunchId (s : State) (id : Nat) : Bool := id != 0 && decide (id < 2 ^ 32) && (SMap.get? s.launches id).isNone

/-! ## Turns of virtual devices (R264) -/

/-- Whether a virtual device has work: a launch that has not completed. -/
def State.vdReady (s : State) (vd : Nat) : Bool :=
  s.launches.any fun l => ((SMap.get? s.ctxs l.2.ctx).map fun c => c.vd == vd && !c.ended) == some true

/-- The virtual devices of a partition that may take a turn, ascending: the weighted ones with work, or, with none, the
others with work. -/
def State.vdWaiting (s : State) (part : Nat) : List Nat :=
  let l := s.vdevs.filter fun v => v.2.part == part && s.vdReady v.1
  let w := l.filter fun v => v.2.weight != 0
  (if w.isEmpty then l else w).map (·.1)

/-- The virtual device whose turn follows that of `after`, in ascending order and round again (log entry 55, DEDUCED). -/
def State.vdNext (s : State) (part after : Nat) : Option Nat :=
  let l := s.vdWaiting part
  (l.find? fun v => decide (after < v)).orElse fun _ => l.head?

/-- A virtual device's turn begins: a changed weight and quantum count from now (R263). -/
def VDev.begin (v : VDev) (now : Nat) : VDev :=
  match v.next with
  | none => { v with turn := true, start := now }
  | some (w, q, e) => { v with weight := w, quantum := q, eq_ := e, turn := true, start := now, next := none }

/-- Begin a turn (log entry 55, DEDUCED). -/
def State.beginTurn (s : State) (vd : Nat) : State := { s with vdevs := SMap.mod s.vdevs vd fun v => v.begin s.timebase }

/-- The state in which a virtual device has its turn, if it may run now: it has it, or none of its partition has and it
is the first of the round. -/
def State.inTurn (s : State) (vd : Nat) : Option State :=
  match SMap.get? s.vdevs vd with
  | none => none
  | some v =>
    if v.turn then (if v.ending then none else some s)
    else if s.vdevs.any (fun x => x.2.part == v.part && x.2.turn) then none
    else if (s.vdWaiting v.part).head? = some vd then some (s.beginTurn vd) else none

/-! ## Placing crews (R22, R34, R35, R55) -/

/-- The warps of a crew in order: role index, allotment and entry of each (R35). -/
def warpsOf (rs : List Role) : List (Nat × Nat × Nat) :=
  rs.zipIdx.flatMap fun x => List.replicate x.1.warps (x.2, x.1.allot, x.1.entry)

/-- The registers a launched thread starts with (R34). -/
def Launch.startRegs (l : Launch) : List Reg :=
  let w (x : Nat) : Reg := ⟨BitVec.ofNat 32 x, 0⟩
  [w l.args, w (l.args / 2 ^ 32), w l.batch, w (l.batch / 2 ^ 32), w l.batchCount]

/-- Place the threads of one warp, one in each lane of its quadrant. -/
def State.placeWarp (s : State) (l : Launch) (crew core quad w : Nat) (x : Nat × Nat × Nat) : List Nat → Option State
  | [] => some s
  | lane :: ls =>
    match s.roomIn core quad lane x.2.1 with
    | none => none
    | some (slot, rbase) =>
      let t := freshThread crew x.1 (32 * w + lane) core quad lane slot rbase x.2.1 l.startAnom (l.code + 64 * x.2.2)
      ((s.startRegs t l.startRegs).addThread t).1.placeWarp l crew core quad w x ls

/-- Place warps in their quadrants. -/
def State.placeWarps (s : State) (l : Launch) (crew core : Nat) : Nat → List ((Nat × Nat × Nat) × Nat) → Option State
  | _, [] => some s
  | w, x :: xs =>
    match s.placeWarp l crew core x.2 w x.1 (List.range 32) with
    | none => none
    | some s => s.placeWarps l crew core (w + 1) xs

/-- Whether lines [b, b + n) of a core's scratchpad are free. -/
def State.linesFree (s : State) (core b n : Nat) : Bool :=
  decide (b + n ≤ 4096) && s.crews.all fun e => !(e.2.core == core && e.2.placed) || decide (b + n ≤ e.2.base) || decide (e.2.base + e.2.lines ≤ b)

/-- The lowest base for `n` lines on a core (log entry 14, DESIGN CHOICE). -/
def State.lineBase (s : State) (core n : Nat) : Option Nat :=
  (0 :: (s.crews.filter fun e => e.2.core == core && e.2.placed).map fun e => e.2.base + e.2.lines).foldl (fun o b =>
    if s.linesFree core b n then (match o with
      | some x => some (min x b)
      | none => some b) else o) none

/-- The lowest free crew table entry of a core (R139). -/
def State.crewIndex (s : State) (core : Nat) : Option Nat :=
  (List.range 64).find? fun i => !(s.crews.any fun e => e.2.core == core && e.2.placed && e.2.index == i)

/-- A crew's standings in its gangs, in ascending entry (R54). -/
def Launch.gangsOf (l : Launch) (ord : Nat) : List CrewGang :=
  (l.gangs.zipIdx.filter fun x => x.1.members.contains ord).map fun x => ⟨x.2, x.1.members.idxOf ord, false, 0⟩

/-- The start of a crew, as data. -/
def freshCrew (l : Launch) (id ord core base index : Nat) : Crew where
  launch := id
  ctx := l.ctx
  ord := ord
  core := core
  base := base
  lines := l.scrlines
  index := index
  barPhase := 0
  barArrived := []
  barGang := none
  gangWait := none
  meets := []
  watch := List.replicate 4 Watch.zero
  preempt := .running
  req := false
  left := 0
  halted := false
  gangs := l.gangsOf ord
  saved := none
  placed := true
  release := none
  finished := false
  objs := []
  came := []

/-- Whether a core's matrix engine is free for a crew with these roles (R115) (log entry 54, DEDUCED). -/
def State.matrixFree (s : State) (core : Nat) (rs : List Role) : Bool :=
  !(rs.any usesMatrix) || !(s.crews.any fun e => e.2.core == core && e.2.placed &&
    (((SMap.get? s.launches e.2.launch).map fun l => l.roles.any usesMatrix) == some true))

/-- PLACE A CREW (R22, R34, R35): on a released core with room for all of it; its first issue acquires at device scope
(R63) (log entry 54, DEDUCED). -/
def State.placeCrew (s : State) (id : Nat) (l : Launch) (usable : List Nat) (p : Placement) : Option State :=
  let ws := warpsOf l.roles
  if !usable.contains p.core || decide (l.gx * l.gy * l.gz ≤ p.crew) || l.placed.contains p.crew || p.quads.length != ws.length ||
      p.quads.any (fun q => decide (4 ≤ q)) || !(s.matrixFree p.core l.roles) then none
  else match s.lineBase p.core l.scrlines, s.crewIndex p.core with
    | some b, some ix =>
      let uid := s.nextCrew
      let s : State := { s with
        crews := SMap.put s.crews uid (freshCrew l id p.crew p.core b ix)
        pend := s.pend.filter fun e => !(e.1 / 4096 == p.core && decide (b ≤ e.1 % 4096) && decide (e.1 % 4096 < b + l.scrlines))
        nextCrew := uid + 1
        launches := SMap.mod s.launches id fun l => { l with
          placed := p.crew :: l.placed
          cores := if l.cores.contains p.core then l.cores else l.cores ++ [p.core] } }
      (s.placeWarps l uid p.core 0 (ws.zip p.quads)).map fun s => (List.range 4).foldl (fun (s : State) q => s.dropL1 p.core q) s
    | _, _ => none

/-- Place crews one after another. -/
def State.placeCrews (s : State) (id : Nat) (usable : List Nat) : List Placement → Option State
  | [] => some s
  | p :: ps =>
    match SMap.get? s.launches id with
    | none => none
    | some l =>
      match s.placeCrew id l usable p with
      | none => none
      | some s => s.placeCrews id usable ps

/-- Initialise the gang object of entry `g` (R184): as by BARINIT.ARV with n = COUNT; the device's write leaves the
granule the eartag 0 (log entry 21, DEDUCED). -/
def State.initGang (s : State) (id g n : Nat) (off : Nat) (ord : Nat) : State :=
  match s.crews.find? fun c => c.2.launch == id && c.2.ord == ord with
  | none => s
  | some (u, c) =>
    let b := c.phys off
    let s := s.stepBar c.core b fun _ => freshBar true n
    { s with
      scrTag := SMap.setD s.scrTag 0 (granKey c.core b) 0
      crews := SMap.mod s.crews u fun c => { c with objs := if c.objs.contains off then c.objs else c.objs ++ [off] } }

/-- Whether a set of crews placed at once is one crew outside co-resident gangs, or whole co-resident gangs (R55). -/
def wholeGangs (gs : List Gang) (ords : List Nat) : Bool :=
  let co := gs.filter (·.cores)
  !ords.isEmpty && ords.eraseDups.length == ords.length &&
  co.all (fun g => allIn g.members ords || !(g.members.any ords.contains)) &&
  (ords.length == 1 || ords.all fun o => co.any fun g => g.members.contains o)

end Sys2Proof.Machine
end

