-- ==== Sys2Proof/Machine/Graph.lean ====
section
/-! DEFINITION. The graph engine (R61 to R66): completions, batch buffers, firing, and the graph's idle moment. -/

namespace Sys2Proof.Machine

/-! ## Completion entries (R272) -/

/-- A completion of a queue entry: it is held until the device writes it (R272). -/
def State.complete (s : State) (k htag kind status launch : Nat) : State :=
  { s with queues := SMap.mod s.queues k fun p => { p with outstanding := p.outstanding.erase htag, held := p.held ++ [[htag, kind, status, launch]] } }

/-! ## Completions of nodes (R62, R65) -/

/-- Give one completion to a successor named by node `from_` (R62, R65). -/
def State.giveTo (s : State) (cid from_ succ : Nat) : State :=
  match SMap.get? s.ctxs cid with
  | none => s
  | some c =>
    if succ = 0xFFFF then s
    else if c.nnode ≤ succ then s.log cid 4 2 0 (c.nodeAddr from_) 0
    else s.modNode cid succ fun q => { q with count := q.count + 1 }

/-- A node whose COAL × 16 exceeds BATCHSZ never fires (R66). -/
def Node.tooBig (x : Node) (c : Context) : Bool := x.takes && decide (c.batchSize < 16 * x.coal)

/-- Whether a context's graph is idle (R66): no launch of it is running and no node has met its firing condition
without firing. A node that cannot be read counts as one that has. -/
def State.graphIdle (s : State) (cid : Nat) (c : Context) : Bool :=
  !(s.launches.any fun l => l.2.ctx == cid && (match l.2.origin with | .graph _ => true | _ => false)) &&
  c.nodes.all fun n =>
    match s.node c n.1 with
    | none => false
    | some x => x.tooBig c || !(s.met cid n.1 x n.2)

/-- At the idle moment (R66): each record of a node that can never fire is reported failed, and every accepted start
completes. -/
def State.settleGraph (s : State) (cid : Nat) : State :=
  match SMap.get? s.ctxs cid with
  | none => s
  | some c =>
    if !(s.graphIdle cid c) then s
    else
      let s := c.nodes.foldl (fun (s : State) n =>
        match s.node c n.1 with
        | none => s
        | some x =>
          if x.tooBig c then
            let s := (List.range (n.2.tail - n.2.head)).foldl (fun (s : State) k => s.log cid 4 2 0 (x.recAddr (n.2.head + k)) 0) s
            s.modNode cid n.1 fun q => { q with head := q.tail }
          else s) s
      let s := c.starts.foldl (fun (s : State) g => s.complete (g.vd * 16 + g.q) g.htag 0 0 0) s
      { s with ctxs := SMap.mod s.ctxs cid fun c => { c with starts := [] } }

/-- The launches of a node's producers have all completed (R66): every queue they fed that holds 1 to COAL − 1 records
is due a flush. -/
def State.flushAfter (s : State) (cid : Nat) (succ : List Nat) : State :=
  succ.eraseDups.foldl (fun (s : State) n =>
    match SMap.get? s.ctxs cid with
    | none => s
    | some c =>
      match s.node c n with
      | none => s
      | some x =>
        let q := c.nodeState n
        if n < c.nnode && x.takes && !(s.producing cid n) && decide (q.head < q.tail) && decide (q.tail - q.head < x.coal) then
          s.modNode cid n fun q => { q with flush := true }
        else s) s

/-! ## Batch buffers (R66) -/

/-- The batch buffers of a context not yet released: offset and bytes. -/
def State.batches (s : State) (cid : Nat) (c : Context) : List (Nat × Nat) :=
  (s.launches.filter fun l => l.2.ctx == cid && l.2.batchSize != 0).map fun l => (l.2.batch - c.batchBase, l.2.batchSize)

/-- The offset of a batch buffer of `n` bytes, in ring order: after the last one, or at the start of the area when it
would run past its end (log entry 22, DEDUCED); `none` while the space is not released. -/
def State.batchPlace (s : State) (cid : Nat) (c : Context) (n : Nat) : Option Nat :=
  let off := if c.batchHead + n ≤ c.batchSize then c.batchHead else 0
  if off + n ≤ c.batchSize && (s.batches cid c).all (fun b => decide (off + n ≤ b.1) || decide (b.1 + b.2 ≤ off)) then some off else none

/-- Move records from a queue to a batch buffer with their eartags (R62, R83): `none` while a page cannot be reached. -/
def State.moveRecords (s : State) (cid : Nat) (c : Context) (x : Node) (dst : Nat) : Nat → Nat → Option State
  | 0, _ => some s
  | n + 1, i =>
    match s.transDev c (x.recAddr i), s.transDev c dst with
    | .hit a, .hit b =>
      if !a.r || !b.w || !b.peerW || b.loc.isTable then none
      else
        let tag := twTag (s.twAt a.loc a.tagAddr a.ptag)
        (s.performWrite cid dst b.loc (s.readLoc a.loc 16) tag b.tagAddr).moveRecords cid c x (dst + 16) n (i + 1)
    | _, _ => none

/-! ## Firing (R62) -/

/-- Launch a node's record (R62, R65): `none` while the launcher waits. A rejected launch leaves a type 6 entry naming
its record. -/
def State.nodeLaunch (s : State) (cid node id : Nat) (c : Context) (x : Node) (batch count : Nat) (unmap : Bool) : Option State :=
  match s.launchTest c x.launch unmap with
  | .wait => none
  | .reject _ => some (s.log cid 6 2 0 x.launch 0)
  | .accept r gs =>
    (s.acceptLaunch c cid id r (r.launch cid gs s.accepted (.graph node) batch count (16 * count)) unmap).map fun s => s.count (cntIod 1) 1

/-- Fire a kernel node (R62, R66). -/
def State.fireKernel (s : State) (cid node id : Nat) (unmap : Bool) : Option State :=
  match SMap.get? s.ctxs cid with
  | none => none
  | some c =>
    if c.ended || c.nnode ≤ node || !(s.freeLaunchId id) then none
    else match s.node c node with
      | none => none
      | some x =>
        let q := c.nodeState node
        if x.kind != 0 || !(s.met cid node x q) || x.tooBig c then none
        else if !x.takes then
          ((s.modNode cid node fun q => { q with count := q.count - max 1 x.pred }).nodeLaunch cid node id c x 0 0 unmap).map fun s => s.settleGraph cid
        else
          let n := s.batchOf cid node x q
          match s.batchPlace cid c (16 * n) with
          | none => none
          | some off =>
            match s.moveRecords cid c x (c.batchBase + off) n q.head with
            | none => none
            | some s1 =>
              let s2 := s1.modNode cid node fun q => { q with head := q.head + n, flush := false }
              (s2.nodeLaunch cid node id c x (c.batchBase + off) n unmap).map fun s =>
                (({ s with ctxs := SMap.mod s.ctxs cid fun c =>
                    { c with batchHead := if s.launches.any (fun l => l.1 == id) then off + 16 * n else c.batchHead } } : State)).settleGraph cid

/-- Fire a conditional or while node of the given kind (R62, R63): its condition word is read at device scope. -/
def State.fireChoice (s : State) (kind cid node : Nat) : Option State :=
  match SMap.get? s.ctxs cid with
  | none => none
  | some c =>
    if c.ended || c.nnode ≤ node then none
    else match s.node c node with
      | none => none
      | some x =>
        if x.kind != kind || !(s.met cid node x (c.nodeState node)) then none
        else match s.devRead c x.cond 4 with
          | .ok bs =>
            let s := s.modNode cid node fun q => { q with count := q.count - max 1 x.pred }
            some ((s.giveTo cid node (x.succ.getD (if ofBytes bs = 0 then 1 else 0) 0xFFFF)).settleGraph cid)
          | _ => none

/-- GRAPH_KERNEL_FIRE (R62). -/
def execGraphKernelFire (ctx node id : Nat) (s : State) : Host.Outcome State Fault Refusal :=
  match s.fireKernel ctx node id false with
  | some s' => .next s'
  | none => .refused (.cannotOccur "GRAPH_KERNEL_FIRE")

/-- GRAPH_CONDITIONAL_FIRE (R62) (log entry 51, DEDUCED). -/
def execGraphConditionalFire (ctx node : Nat) (s : State) : Host.Outcome State Fault Refusal :=
  match s.fireChoice 1 ctx node with
  | some s' => .next s'
  | none => .refused (.cannotOccur "GRAPH_CONDITIONAL_FIRE")

/-- GRAPH_WHILE_FIRE (R62). -/
def execGraphWhileFire (ctx node : Nat) (s : State) : Host.Outcome State Fault Refusal :=
  match s.fireChoice 2 ctx node with
  | some s' => .next s'
  | none => .refused (.cannotOccur "GRAPH_WHILE_FIRE")

/-- GRAPH_INSTALL (R65): GRAPH and NNODE are set while no crew of the context is resident; every completion count is 0
and every queue empty. -/
def execGraphInstall (ctx graph nnode : Nat) (s : State) : Host.Outcome State Fault Refusal :=
  match SMap.get? s.ctxs ctx with
  | none => .refused (.cannotOccur "GRAPH_INSTALL")
  | some c =>
    if c.ended || s.crews.any (fun e => e.2.ctx == ctx && e.2.placed) || decide (65535 < nnode) || decide (2 ^ 64 ≤ graph) || (graph != 0 && nnode == 0) then
      .refused (.cannotOccur "GRAPH_INSTALL")
    else .next { s with ctxs := SMap.put s.ctxs ctx { c with graph := graph, nnode := if graph = 0 then 0 else nnode, nodes := [] } }

end Sys2Proof.Machine
end

