-- ==== Sys2Proof/Machine/Sched.lean ====
section
/-! DEFINITION. Queue pairs (R271, R272), launches from them (R51), crew placement (R22, R55) and the completion of a
launch (R46, R63, R287). -/

namespace Sys2Proof.Machine

/-! ## Queue pairs (R271) -/

/-- Key of a queue pair. -/
def queueKey (vd q : Nat) : Nat := vd * 16 + q

/-- A queue pair of a virtual function; `none` where the function or the pair does not exist. -/
def State.pair? (s : State) (vd q : Nat) : Option QueuePair :=
  if decide (q < 16) && (SMap.get? s.vdevs vd).isSome then some (SMap.getD s.queues QueuePair.zero (queueKey vd q)) else none

/-- Replace a queue pair. -/
def State.setPair (s : State) (vd q : Nat) (p : QueuePair) : State := { s with queues := SMap.put s.queues (queueKey vd q) p }

/-- SQTAIL (R272): a doorbell write. -/
def execSqtail (vd q value : Nat) (s : State) : Host.Outcome State Fault Refusal :=
  match s.pair? vd q with
  | none => .refused (.cannotOccur "SQTAIL")
  | some p => .next (s.setPair vd q { p with sqtail := value % 2 ^ 32 })

/-- CQHEAD (R272). -/
def execCqhead (vd q value : Nat) (s : State) : Host.Outcome State Fault Refusal :=
  match s.pair? vd q with
  | none => .refused (.cannotOccur "CQHEAD")
  | some p => .next (s.setPair vd q { p with cqhead := value % 2 ^ 32 })

/-- Whether the setup of a pair is in error (R271). -/
def State.setupBad (s : State) (vd : Nat) (p : QueuePair) : Bool :=
  ((SMap.get? s.ctxs p.ctx).map fun c => c.vd == vd && !c.ended) != some true || p.sqbase % 64 != 0 || p.cqbase % 64 != 0 ||
    decide (p.sqlog < 4) || decide (p.cqlog < 4)

/-- A write of EN = 1 (R271): with EN already 1 it changes nothing (log entry 64, DEDUCED). -/
def State.enable (s : State) (vd : Nat) (p : QueuePair) : QueuePair :=
  if p.en then p else if s.setupBad vd p then { p with err := true } else { p with en := true }

/-- QUEUE_ENABLE (R271). -/
def execQueueEnable (vd q : Nat) (s : State) : Host.Outcome State Fault Refusal :=
  match s.pair? vd q with
  | none => .refused (.cannotOccur "QUEUE_ENABLE")
  | some p => .next (s.setPair vd q (s.enable vd p))

/-- A write to a register of a pair by its access code (R9, R271): SQBASE to VEC hold still while EN = 1, ERR is
cleared by a 1, read-only registers and unlisted offsets ignore writes. -/
def State.writePair (s : State) (vd : Nat) (p : QueuePair) (off v : Nat) : QueuePair :=
  match off with
  | 0x00 => if p.en then p else { p with sqbase := v % 2 ^ 64 }
  | 0x0C => if p.en then p else { p with ctx := v % 4096 }
  | 0x10 => if p.en then p else { p with cqbase := v % 2 ^ 64 }
  | 0x18 => if p.en then p else { p with cqlog := nfld v 4 4, sqlog := nfld v 0 4 }
  | 0x1C => if p.en then p else { p with vec := v % 2048 }
  | 0x20 => { p with sqtail := v % 2 ^ 32 }
  | 0x28 => { p with cqhead := v % 2 ^ 32 }
  | 0x30 =>
    let p := if v.testBit 1 then { p with err := false } else p
    if v.testBit 0 then s.enable vd p else { p with en := false }
  | _ => p

/-- REGISTER_WRITE (R9, R271): a host write to a register in BAR0 of a virtual function (log entry 64, DEDUCED). -/
def execRegisterWrite (vd off value : Nat) (s : State) : Host.Outcome State Fault Refusal :=
  match SMap.get? s.vdevs vd with
  | none => .refused (.cannotOccur "REGISTER_WRITE")
  | some _ =>
    if 0x10000 ≤ off then .next s
    else
      let q := off / 0x1000
      .next (s.setPair vd q (s.writePair vd (SMap.getD s.queues QueuePair.zero (queueKey vd q)) (off % 0x1000) value))

/-! ## Submission entries (R272) -/

/-- A submission entry. -/
structure SqEntry where
  op : Nat
  htag : Nat
  arg : Nat
  invalid : Bool
  deriving DecidableEq, Repr

/-- Parse an entry; the argument's bits that are to be zero count as reserved (log entry 50, DEDUCED). -/
def parseEntry (bs : List Byte) : SqEntry :=
  let w (o n : Nat) : Nat := ofBytes ((bs.drop o).take n)
  let op := w 0 1
  let arg := w 8 8
  ⟨op, w 4 4, arg, w 1 3 != 0 || w 16 48 != 0 || op == 0 || decide (4 ≤ op) || (op == 2 && nfld arg 24 40 != 0) || (op == 3 && arg != 0)⟩

/-- The entry at SQHEAD that a doorbell covers, with its pair and context; `none` while there is none that the device
can read. -/
def State.nextEntry (s : State) (vd q : Nat) : Option (QueuePair × Context × SqEntry) :=
  match s.pair? vd q with
  | none => none
  | some p =>
    match SMap.get? s.ctxs p.ctx with
    | none => none
    | some c =>
      if !p.en || c.ended || p.sqhead % 2 ^ p.sqlog == p.sqtail % 2 ^ p.sqlog then none
      else match s.devRead c ((p.sqbase + 64 * (p.sqhead % 2 ^ p.sqlog)) % 2 ^ 64) 64 with
        | .ok bs => some (p, c, parseEntry bs)
        | _ => none

/-- Take the entry at SQHEAD. -/
def QueuePair.take (p : QueuePair) : QueuePair := { p with sqhead := (p.sqhead + 1) % 2 ^ p.sqlog }

/-- Take the entry and let it stand until its work completes. -/
def State.takeEntry (s : State) (vd q : Nat) (p : QueuePair) (htag : Nat) : State :=
  s.setPair vd q { p.take with outstanding := p.outstanding ++ [htag] }

/-- Take the entry and complete it at once. -/
def State.finishEntry (s : State) (vd q : Nat) (p : QueuePair) (htag kind status : Nat) : State :=
  (s.setPair vd q { p.take with outstanding := htag :: p.outstanding }).complete (queueKey vd q) htag kind status 0

/-- LAUNCH with or without the operating system's finding that an awaited page is unmappable (R51). -/
def State.launchEntry (s : State) (vd q id : Nat) (unmap : Bool) : Option State :=
  match s.nextEntry vd q with
  | none => none
  | some (p, c, x) =>
    if x.op != 1 || x.invalid || !(s.freeLaunchId id) then none
    else match s.launchTest c x.arg unmap with
      | .wait => none
      | .reject n => some (s.finishEntry vd q p x.htag 1 n)
      | .accept r gs =>
        (s.takeEntry vd q p x.htag).acceptLaunch c p.ctx id r (r.launch p.ctx gs s.accepted (.queue vd q x.htag) 0 0 0) unmap

/-- LAUNCH (R51, R216, R272) (log entry 52, DESIGN CHOICE). -/
def execLaunch (vd q id : Nat) (s : State) : Host.Outcome State Fault Refusal :=
  match s.launchEntry vd q id false with
  | some s' => .next s'
  | none => .refused (.cannotOccur "LAUNCH")

/-- GRAPH_START (R65): a start is refused with STATUS 9, or gives node n its completions. -/
def execGraphStart (vd q : Nat) (s : State) : Host.Outcome State Fault Refusal :=
  match s.nextEntry vd q with
  | none => .refused (.cannotOccur "GRAPH_START")
  | some (p, c, x) =>
    let n := x.arg % 65536
    if x.op != 2 || x.invalid then .refused (.cannotOccur "GRAPH_START")
    else if c.graph = 0 || c.nnode ≤ n then .next (s.finishEntry vd q p x.htag 1 9)
    else match s.node c n with
      | none => .refused (.cannotOccur "GRAPH_START")
      | some y =>
        if y.kind = 3 then .next (s.finishEntry vd q p x.htag 1 9)
        else
          let s := (s.takeEntry vd q p x.htag).modNode p.ctx n fun k => { k with count := k.count + nfld x.arg 16 8 }
          let s : State := { s with ctxs := SMap.mod s.ctxs p.ctx fun c => { c with starts := c.starts ++ [⟨vd, q, x.htag⟩] } }
          .next (s.settleGraph p.ctx)

/-- QUEUE_BARRIER (R272): it completes once every earlier entry has completed; until then it stands at SQHEAD (log entry 50, DEDUCED). -/
def execQueueBarrier (vd q : Nat) (s : State) : Host.Outcome State Fault Refusal :=
  match s.nextEntry vd q with
  | none => .refused (.cannotOccur "QUEUE_BARRIER")
  | some (p, _, x) =>
    if x.op != 3 || x.invalid || !p.outstanding.isEmpty then .refused (.cannotOccur "QUEUE_BARRIER")
    else .next (s.finishEntry vd q p x.htag 0 0)

/-- INVALID_ENTRY (R272): KIND 1 and STATUS 11 (log entry 50, DEDUCED). -/
def execInvalidEntry (vd q : Nat) (s : State) : Host.Outcome State Fault Refusal :=
  match s.nextEntry vd q with
  | none => .refused (.cannotOccur "INVALID_ENTRY")
  | some (p, _, x) =>
    if x.invalid then .next (s.finishEntry vd q p x.htag 1 11) else .refused (.cannotOccur "INVALID_ENTRY")

/-! ## Completion entries (R272) -/

/-- Whether stores that a completion entry's fabric-scope release orders have not been performed: those of its launch, or
of the context for a graph start or a barrier. -/
def State.fabricBusy (s : State) (ctx kind launch : Nat) : Bool :=
  (s.storesOf s.fabric).any fun x => if launch != 0 then x.iss.launch == launch else kind == 0 && x.ctx == ctx

/-- Write `n` held completions, oldest first; `none` when the ring has no room or a release is not over. -/
def State.writeEntries (s : State) (k : Nat) : Nat → Option State
  | 0 => some s
  | n + 1 =>
    match SMap.get? s.queues k with
    | none => none
    | some p =>
      match p.held with
      | [htag, kind, status, launch] :: rest =>
        let m := 2 ^ p.cqlog
        if (p.cqtail + 1) % m == p.cqhead % m || s.fabricBusy p.ctx kind launch then none
        else
          let bytes := toBytes 4 htag ++ toBytes 4 ((if p.phase then 2 ^ 31 else 0) + kind * 256 + status) ++ toBytes 8 launch
          let t := (p.cqtail + 1) % m
          ({ s with
            hostMem := writeCells s.hostMem (p.cqbase + 16 * p.cqtail) bytes
            queues := SMap.put s.queues k { p with held := rest, cqtail := t, phase := if t = 0 then !p.phase else p.phase } } : State).writeEntries k n
      | _ => none

/-- COMPLETION_ENTRY_WRITE (R272): a batch of `i` entries, each written as a fabric-scope release; VEC is raised once. -/
def execCompletionEntryWrite (vd q i : Nat) (s : State) : Host.Outcome State Fault Refusal :=
  let k := queueKey vd q
  if i = 0 then .refused (.cannotOccur "COMPLETION_ENTRY_WRITE")
  else match s.writeEntries k i with
    | none => .refused (.cannotOccur "COMPLETION_ENTRY_WRITE")
    | some s => .next { s with queues := SMap.mod s.queues k fun p => { p with raised := p.raised + 1 } }

/-! ## Placing (R22, R55, R184, R272) -/

/-- Whether every earlier launch of the same queue has been placed whole (R272). -/
def State.placeOrder (s : State) (l : Launch) : Bool :=
  match l.origin with
  | .graph _ => true
  | .queue vd q _ => s.launches.all fun e =>
      match e.2.origin with
      | .queue vd' q' _ => !(vd' == vd && q' == q && decide (e.2.seq < l.seq)) || decide (e.2.gx * e.2.gy * e.2.gz ≤ e.2.placed.length)
      | .graph _ => true

/-- CREW_PLACE (R22, R55): one crew, or co-resident gangs whole. -/
def execCrewPlace (launch : Nat) (places : List Placement) (s : State) : Host.Outcome State Fault Refusal :=
  match SMap.get? s.launches launch with
  | none => .refused (.cannotOccur "CREW_PLACE")
  | some l =>
    match (SMap.get? s.ctxs l.ctx).bind fun c => (s.partOf c).bind fun p => (s.inTurn c.vd).map fun s' => (p.2, s') with
    | none => .refused (.cannotOccur "CREW_PLACE")
    | some (p, s1) =>
      if !(wholeGangs l.gangs (places.map (·.crew))) || !(s.placeOrder l) then .refused (.cannotOccur "CREW_PLACE")
      else match s1.placeCrews launch (s.usable p) places with
        | none => .refused (.cannotOccur "CREW_PLACE")
        | some s2 =>
          .next (l.gangs.zipIdx.foldl (fun (s : State) x =>
            match x.1.members with
            | [] => s
            | o :: _ => if x.1.cores && (places.any fun p => p.crew == o) then s.initGang launch x.2 x.1.members.length (16 * x.1.gboff) o else s) s2)

/-! ## The completion of a launch (R46, R63, R287) -/

/-- Block counts of a context held on the cores where a launch ran. -/
def State.heldCounts (s : State) (l : Launch) : List BlockCount :=
  l.cores.flatMap fun k => (SMap.getD s.blocks [] k).filter fun b => b.ctx == l.ctx

/-- Write those counts back (R287); one that no page takes stays in its cache. -/
def State.flushCounts (s : State) (l : Launch) : State :=
  l.cores.foldl (fun (s : State) k =>
    ((SMap.getD s.blocks [] k).filter fun b => b.ctx == l.ctx).foldl (fun (s : State) b =>
      match s.bbcWrite l.ctx b.addr b.delta with
      | some s' => { s' with blocks := SMap.mod s'.blocks k fun x => x.filter (· != b) }
      | none => s) s) s

/-- A launch of the graph engine has completed: its node's successors get their completions and its producers' queues
their flush (R62, R66). A failed launch gives none (R65, log entry 23, DEDUCED). -/
def State.graphDone (s : State) (l : Launch) (node : Nat) : State :=
  match SMap.get? s.ctxs l.ctx with
  | none => s
  | some c =>
    match s.node c node with
    | none => s
    | some x =>
      let s := if l.failed then s else x.succ.foldl (fun (s : State) n => s.giveTo l.ctx node n) s
      (s.flushAfter l.ctx x.succ).settleGraph l.ctx

/-- LAUNCH_COMPLETE (R46, R63): a release at device scope. -/
def execLaunchComplete (launch : Nat) (s : State) : Host.Outcome State Fault Refusal :=
  match SMap.get? s.launches launch with
  | none => .refused (.cannotOccur "LAUNCH_COMPLETE")
  | some l =>
    match SMap.get? s.ctxs l.ctx with
    | none => .refused (.cannotOccur "LAUNCH_COMPLETE")
    | some c =>
      let readable : Bool := match l.origin with
        | .queue _ _ _ => true
        | .graph n => (s.node c n).isSome
      let counts : Bool := (s.heldCounts l).all fun b => match s.transDev c b.addr with
        | .absent => false
        | .format => false
        | _ => true
      if !l.over || !readable || !counts then .refused (.cannotOccur "LAUNCH_COMPLETE")
      else
        let s := s.flushCounts l
        let s : State := { s with launches := SMap.del s.launches launch, ringWaits := s.ringWaits.filter fun r => r.launch != launch }
        match l.origin with
        | .queue vd q htag => .next (s.complete (queueKey vd q) htag (if l.failed then 2 else 0) 0 launch)
        | .graph n => .next (s.graphDone l n)

end Sys2Proof.Machine
end

