-- ==== Sys2Proof/Machine/Preempt.lean ====
section
/-! DEFINITION. Delivery of traps (R233), the watchdog (R249), what the operating system does about pages (R156, R237),
pre-emption, saves and restores (R240 to R247, R256), and the turns of virtual devices (R262 to R264). -/

namespace Sys2Proof.Machine

/-- Whether a thread's crew may issue. -/
def State.crewRuns (s : State) (t : Thread) : Bool := ((SMap.get? s.crews t.crew).map Crew.runs).getD false

/-! ## Delivery (R233, R443) -/

/-- Whether a lower lane of a thread's sub-warp is still parked for delivery (R233) (log entry 56, DEDUCED). -/
def State.lowerParked (s : State) (t : Thread) (tr : Trap) : Bool :=
  s.threads.any fun e => match e.2.status with
    | .parked _ x => x.group == tr.group && e.2.crew == t.crew && e.2.core == t.core && e.2.quad == t.quad && decide (e.2.lane < t.lane)
    | _ => false

/-- TRAP_DELIVERY (R233): a parked lane, those of a sub-warp in ascending order, or a lane at a clause boundary with a trap due
there (R443), which a continuation holds (R205) (log entry 56, DEDUCED). -/
def execTrapDelivery (uid : Nat) (s : State) : Host.Outcome State Fault Refusal :=
  match s.thread? uid with
  | none => .refused (.cannotOccur "TRAP_DELIVERY")
  | some t =>
    if !(s.crewRuns t) then .refused (.cannotOccur "TRAP_DELIVERY")
    else match t.status with
      | .parked seq tr =>
        if s.lowerParked t tr then .refused (.cannotOccur "TRAP_DELIVERY") else
        match s.deliver uid seq tr with
        | some s' => .next s'
        | none => .refused (.cannotOccur "TRAP_DELIVERY")
      | .boundary =>
        if t.at_ != 0 || t.handler.isSome || t.wait.isSome || t.spec then .refused (.cannotOccur "TRAP_DELIVERY")
        else match t.bndTraps with
          | [] => .refused (.cannotOccur "TRAP_DELIVERY")
          | (seq, tr) :: rest =>
            match (s.modThread uid fun t => { t with bndTraps := rest }).deliver uid seq tr with
            | some s' => .next s'
            | none => .refused (.cannotOccur "TRAP_DELIVERY")
      | _ => .refused (.cannotOccur "TRAP_DELIVERY")

/-! ## The watchdog (R249) -/

/-- Take a thread out of its formed warp to the slot it stands at (R38, R242); a slot it has passed is behind it. -/
def State.standOut (s : State) (uid : Nat) : State :=
  match s.warps.find? fun e => e.2.members.contains uid with
  | none => s
  | some (wk, w) =>
    let p := if w.arrived.contains uid then nextPlace w (sizeOf (w.words.drop (2 + w.slot))) else (w.pc, w.slot)
    (s.modThread uid fun t => t.standAt p.1 p.2 (p.2 == 0 && w.arrived.contains uid) false).leaveWarp wk uid

/-- The instruction word at the slot a thread stands at, 0 where its clause is not at hand. -/
def State.wordAt (s : State) (t : Thread) : Word :=
  match (SMap.get? s.crews t.crew).bind fun c => s.clauseFor t.core c.ctx t.pc with
  | none => 0
  | some ws => ws.getD (2 + t.at_) 0

/-- WATCHDOG_EXPIRY (R249): the thread parks at its next slot with the watchdog trap; reaching WDOG again before its count
restarts otherwise than by ERET kills its crew, and so does an expiry inside a handler, of a count reached before it (R238).
A continuation holds the trap (R205). -/
def execWatchdogExpiry (uid : Nat) (s : State) : Host.Outcome State Fault Refusal :=
  match s.thread? uid with
  | none => .refused (.cannotOccur "WATCHDOG_EXPIRY")
  | some t =>
    let budget := (((SMap.get? s.crews t.crew).bind fun c => SMap.get? s.ctxs c.ctx).map (·.wdog)).getD 0
    let passed := s.warps.any fun e => e.2.arrived.contains uid
    if budget = 0 || t.wdog < budget || t.wait.isSome || passed || !(t.status == .inWarp || t.status == .boundary) ||
        !(s.crewRuns t) then .refused (.cannotOccur "WATCHDOG_EXPIRY")
    else if t.handler.isSome && !t.spec then .next (s.killCrew t.crew)
    else if t.wdogHit then .next (s.killCrew t.crew)
    else
      let s := s.standOut uid
      match s.thread? uid with
      | none => .next s
      | some t =>
        let s := s.modThread uid fun t' => { t' with wdogHit := !t.spec, wdog := if t.spec then t'.wdog else 0 }
        .next (s.trapStanding uid 0 (t.pc + 8 + 4 * t.at_) (s.wordAt t) (2 ^ t.lane)
          { num := 34, group := s.trapGroup (((SMap.get? s.crews t.crew).map (·.ctx)).getD 0) })

/-! ## Pages (R156, R237) -/

/-- Write a record that waited for its page, if it can be reached now; a step that waited for a page can be taken now (R237). -/
def State.retryRecord (s : State) (r : PendRec) : State :=
  let s : State := { s with records := s.records.filter (· != r) }
  if r.held then s else s.putRecord r.uid r.core r.engine false r.ctx r.va r.seq r.data

/-- Whether an address of a context translates to a page or to an address no table maps there. -/
def State.mapped (s : State) (cid va : Nat) : Bool :=
  match (SMap.get? s.ctxs cid).map fun c => s.transDev c va with
  | some (.hit _) => true
  | some .badPhys => true
  | _ => false

/-- PAGE_FAULT_RESOLVE (R156, R237): the operating system has mapped the page; a record waiting for it is written, or the
lane is to execute its instruction again (log entry 63, DESIGN CHOICE). -/
def execPageFaultResolve (uid : Nat) (s : State) : Host.Outcome State Fault Refusal :=
  match s.records.find? fun r => r.uid == uid && s.mapped r.ctx r.va with
  | some r => .next (s.retryRecord r)
  | none =>
    match s.thread? uid with
    | none => .refused (.cannotOccur "PAGE_FAULT_RESOLVE")
    | some t =>
      match t.status with
      | .osServed tr _ =>
        if s.mapped (((SMap.get? s.crews t.crew).map (·.ctx)).getD 0) tr.addr then .next (s.modThread uid fun t => { t with status := .boundary, held := none })
        else .refused (.cannotOccur "PAGE_FAULT_RESOLVE")
      | _ => .refused (.cannotOccur "PAGE_FAULT_RESOLVE")

/-- The page of a delivery's save block, or of an ERET's, is unmappable (R236, R237): the context ends, or the handler's
crew is killed. -/
def State.saveUnmappable (s : State) (uid : Nat) (t : Thread) : Option State :=
  match SMap.get? s.crews t.crew with
  | none => none
  | some cr =>
    match SMap.get? s.ctxs cr.ctx with
    | none => none
    | some c =>
      let a := if t.handler.isSome then t.block else s.saveAddr c t
      let lost := !(s.mapped cr.ctx a) || !(s.mapped cr.ctx (a + 0x7FF))
      if !lost then none
      else match t.status with
        | .parked seq _ => some ((s.endContext cr.ctx 0).log cr.ctx 11 2 (a % 2 ^ 32) seq 0)
        | .boundary => (match t.bndTraps with
            | (seq, _) :: _ =>
              if t.at_ = 0 ∧ t.handler.isNone = true ∧ t.wait.isNone = true ∧ t.spec = false then
                some ((s.endContext cr.ctx 0).log cr.ctx 11 2 (a % 2 ^ 32) seq 0) else none
            | [] => none)
        | .inWarp =>
          match s.warps.find? fun e => e.2.members.contains uid with
          | none => none
          | some (_, w) =>
            (match decode (w.words.drop (2 + w.slot)) with
              | .ok (.eret, _) => if t.handler.isSome then some (s.killCrew t.crew) else none
              | _ => none)
        | _ => none

/-- PAGE_UNMAPPABLE (R51, R149, R156, R236, R237): the operating system gives no page. `kind` says who waits: 0 a lane, or
a record, save block or ERET of thread `i`; 1 copy `i`; 2 the launcher, on the entry of queue pair `i`; 3 the graph
engine, on node `i` = context × 65,536 + node. -/
def execPageUnmappable (kind i : Nat) (s : State) : Host.Outcome State Fault Refusal :=
  match kind with
  | 0 =>
    match s.records.find? fun r => r.uid == i && !(s.mapped r.ctx r.va) with
    | some r => .next ((s.endContext r.ctx 0).log r.ctx 11 2 (r.va % 2 ^ 32) r.seq 0)
    | none =>
      match s.thread? i with
      | none => .refused (.cannotOccur "PAGE_UNMAPPABLE")
      | some t =>
        match t.status with
        | .osServed tr subw =>
          if s.mapped (((SMap.get? s.crews t.crew).map (·.ctx)).getD 0) tr.addr then .refused (.cannotOccur "PAGE_UNMAPPABLE")
          else
          let tr' := { tr with os := false }
          let r := s.faultRecord (s.issuerAt i t 0 (t.pc + 8 + 4 * t.at_) (s.wordAt t)) tr' subw t.held.isSome false
          .next (r.1.modThread i fun t => { t with status := .parked r.2 tr', held := none })
        | _ =>
          match s.saveUnmappable i t with
          | some s' => .next s'
          | none => .refused (.cannotOccur "PAGE_UNMAPPABLE")
  | 1 =>
    match SMap.get? s.copies i with
    | none => .refused (.cannotOccur "PAGE_UNMAPPABLE")
    | some c =>
      match c.held with
      | none => .refused (.cannotOccur "PAGE_UNMAPPABLE")
      | some k =>
        let u := c.unit k
        let src := if c.ssp = 0 then (granSpans 33 u.sa u.sn).map (·.1) else []
        let dst := if c.dsp = 0 then [u.da] else []
        match (src ++ dst).find? fun a => !(s.mapped c.iss.ctx a) with
        | some a => if s.engineWaits c.iss.uid then .refused (.cannotOccur "PAGE_UNMAPPABLE") else
            .next (s.engineStep (s.copyStop i c { num := 8, cause := 2, addr := a }))
        | none => .refused (.cannotOccur "PAGE_UNMAPPABLE")
  | 2 =>
    match s.launchEntry (i / 16) (i % 16) (SMap.fresh s.launches) false, s.launchEntry (i / 16) (i % 16) (SMap.fresh s.launches) true with
    | none, some s' => .next s'
    | _, _ => .refused (.cannotOccur "PAGE_UNMAPPABLE")
  | 3 =>
    match s.fireKernel (i / 65536) (i % 65536) (SMap.fresh s.launches) false, s.fireKernel (i / 65536) (i % 65536) (SMap.fresh s.launches) true with
    | none, some s' => .next s'
    | _, _ => .refused (.cannotOccur "PAGE_UNMAPPABLE")
  | _ => .refused (.cannotOccur "PAGE_UNMAPPABLE")

/-! ## Requests (R240, R245, R55) -/

/-- Grow a set of crews by shared gangs. -/
def State.gangGrow (s : State) : Nat → List Nat → List Nat
  | 0, l => l
  | n + 1, l => s.gangGrow n (s.gangStep l)

/-- The crews that move through the pre-emption states as one unit with a crew (R245). -/
def State.unit (s : State) (crew : Nat) : List Nat := s.gangGrow s.crews.length [crew]

/-- Request pre-emption of a unit with `left` cycles (R240, R245). -/
def State.requestUnit (s : State) (crew left : Nat) : State := (s.unit crew).foldl (fun (s : State) u => s.requestCrew u left) s

/-- PREDL of a crew's context (R240). -/
def State.predlOf (s : State) (c : Crew) : Nat := ((SMap.get? s.ctxs c.ctx).map (·.predl)).getD 0

/-- PREEMPT_REQUEST (R240, R245). -/
def execPreemptRequest (crew : Nat) (s : State) : Host.Outcome State Fault Refusal :=
  match SMap.get? s.crews crew with
  | none => .refused (.cannotOccur "PREEMPT_REQUEST")
  | some c =>
    if c.placed && c.preempt == .running then .next (s.requestUnit crew (s.predlOf c)) else .refused (.cannotOccur "PREEMPT_REQUEST")

/-- A cancelled crew runs again, and its threads at YIELD go on (R245). -/
def State.cancelCrew (s : State) (crew : Nat) : State :=
  { s with
    crews := SMap.mod s.crews crew fun c => { c with preempt := .running, req := false, left := 0 }
    threads := s.threads.map fun e => if e.2.crew == crew && e.2.wait == some .yield then (e.1, { e.2 with wait := none }) else e }

/-- PREEMPT_CANCEL (R245). -/
def execPreemptCancel (crew : Nat) (s : State) : Host.Outcome State Fault Refusal :=
  let us := s.unit crew
  if !us.isEmpty && us.all (fun u => ((SMap.get? s.crews u).map (·.preempt)) == some .requested) then
    .next (us.foldl (fun (s : State) u => s.cancelCrew u) s)
  else .refused (.cannotOccur "PREEMPT_CANCEL")

/-! ## Saves (R241 to R246) -/

/-- Whether a crew's engine work has completed or stopped (R241, R242); with `held` a copy held on a page may stand. A RING
round counts as complete: its own tile has been read at its issue (R421). -/
def State.engineIdle (s : State) (crew : Nat) (held : Bool) : Bool :=
  !(s.copies.any fun e => e.2.iss.crew == crew && !(held && e.2.held.isSome)) &&
  !(s.armed.any fun e => e.2.any fun a => a.due && a.copy.iss.crew == crew) &&
  !(s.matQ.any fun q => q.2.any fun m => m.iss.crew == crew)

/-- Whether nothing of a crew's memory traffic is under way: FIFOs, loads, its stores at the core and die points (log
entry 24, DEDUCED), stores and arrivals on their way to its scratchpad (R246). -/
def State.trafficIdle (s : State) (crew : Nat) (c : Crew) : Bool :=
  (s.crewThreads crew).all (fun e => e.2.fifo.isEmpty && !(s.loads.any fun l => l.2.uid == e.1)) &&
  !((s.storesOf (SMap.getD s.corePoint [] c.core ++ SMap.getD s.diePoint [] (dieOf c.core))).any fun x => x.crew == crew) &&
  !(s.corePoint.any fun e => (s.storesOf e.2).any fun x =>
    match x.loc with
    | .scr k b => k == c.core && decide (128 * c.base ≤ b) && decide (b < 128 * (c.base + c.lines))
    | _ => false) &&
  !(s.arrivals.any fun a => a.2.crew == crew || (match a.2.loc with
    | .scr k b => k == c.core && decide (128 * c.base ≤ b) && decide (b < 128 * (c.base + c.lines))
    | _ => false))

/-- A crew's scratchpad bytes, by offset. -/
def State.grabScr (s : State) (c : Crew) : SMap Byte :=
  let lo := scrKey c.core (128 * c.base)
  (s.scr.filter fun e => decide (lo ≤ e.1) && decide (e.1 < lo + 128 * c.lines)).map fun e => (e.1 - lo, e.2)

/-- A crew's scratchpad eartags, by granule. -/
def State.grabTags (s : State) (c : Crew) : SMap Tag :=
  let lo := granKey c.core (128 * c.base)
  (s.scrTag.filter fun e => decide (lo ≤ e.1) && decide (e.1 < lo + 8 * c.lines)).map fun e => (e.1 - lo, e.2)

/-- The accumulators of a core, by element. -/
def State.grabAcc (s : State) (core : Nat) : SMap Reg :=
  (s.acc.filter fun e => e.1 / 65536 == core).map fun e => (e.1 % 65536, e.2)

/-- A crew's spawn bins, by quadrant. -/
def State.grabBins (s : State) (crew : Nat) : List (Nat × SpawnBin) :=
  (s.bins.map fun b => (b.1 / 16 % 4, { b.2 with recs := b.2.recs.filter fun r => r.iss.crew == crew })).filter fun b => !b.2.recs.isEmpty

/-- Whether a crew has a matrix role, and with it the accumulators of its core (R115). -/
def State.hasMatrix (s : State) (c : Crew) : Bool := ((SMap.get? s.launches c.launch).map fun l => l.roles.any usesMatrix) == some true

/-- The registers of a thread that are not 0 with eartag 0. -/
def State.grabRegs (s : State) (t : Thread) (as : List Nat) : List (Nat × Reg) :=
  (as.map fun a => (a, s.rd t a)).filter fun x => x.2 != Reg.zero

/-- Remove a crew: its threads leave their slots with what is kept, its armed copies and bins leave their core, and the counts
its RING rounds hold on its lines are kept for its return (R421). -/
def State.removeCrew (s : State) (crew : Nat) (c : Crew) (v : Saved) : State :=
  let s := s.lowerLines ((s.ringsOf crew).flatMap (·.lines))
  { s with
    threads := s.threads.map fun e => if e.2.crew == crew then (e.1, { e.2 with status := .removed, stamp := none }) else e
    crews := SMap.put s.crews crew { c with placed := false, preempt := .removed, saved := some v }
    armed := s.armed.map fun e => (e.1, e.2.filter fun a => a.copy.iss.crew != crew)
    bins := s.binsWithout crew }

/-- The armed copies of a crew. -/
def State.grabArmed (s : State) (crew : Nat) (c : Crew) : List Armed := (SMap.getD s.armed [] c.core).filter fun a => a.copy.iss.crew == crew

/-- What a light save leaves of a thread besides its registers (R241, R256) (log entry 57, DEDUCED). -/
def Thread.lighten (t : Thread) : Thread :=
  { t with
    preds := 0, meets := [none, none, none, none], lastf := false, refuse := 0, monitor := none, retSite := none, retTarget := 0
    wait := none, timer := none, timedOut := false }

/-- The operations whose flags a light save keeps raised: COLPOST and COLFIRE (R244). -/
def State.keptOps (s : State) : List Nat := s.posted.flatMap fun e => e.2.op :: e.2.fires.map (·.2)

/-- The flags of a crew's threads read clear, but for those of COLPOST and COLFIRE (R244, R256). -/
def State.clearFlags (s : State) (crew : Nat) : State :=
  let kept := s.keptOps
  let us := (s.crewThreads crew).map (·.1)
  { s with ops := s.ops.map fun e => if kept.contains e.1 then e else (e.1, { e.2 with lanes := e.2.lanes.filter fun u => !us.contains u }) }

/-- The light save of one crew (R241) (log entry 57, DEDUCED). -/
def State.lightCrew (s : State) (crew : Nat) : State :=
  match SMap.get? s.crews crew with
  | none => s
  | some c =>
    let ts := (s.crewThreads crew).map fun e => ⟨e.1, e.2.status, s.grabRegs e.2 [e.2.wbase, e.2.wbase + 1]⟩
    let v : Saved := ⟨true, ts, [], [], [], [], s.grabArmed crew c, s.grabBins crew, []⟩
    let s : State := { s with threads := s.threads.map fun e => if e.2.crew == crew then (e.1, e.2.lighten) else e }
    (s.clearFlags crew).removeCrew crew { c with meets := [], objs := [], came := [] } v

/-- Whether a crew is yielded (R241) (log entry 58, DEDUCED). -/
def State.yielded (s : State) (crew : Nat) : Bool :=
  match SMap.get? s.crews crew with
  | none => false
  | some c =>
    c.placed && c.preempt == .requested && !c.halted && (s.crewThreads crew).all (fun e => e.2.status == .boundary && e.2.wait == some .yield) &&
      s.engineIdle crew false && s.trafficIdle crew c

/-- LIGHT_SAVE (R241, R245): a co-resident gang as one unit. -/
def execLightSave (crew : Nat) (s : State) : Host.Outcome State Fault Refusal :=
  let us := s.unit crew
  if !us.isEmpty && us.all s.yielded then .next (us.foldl (fun (s : State) u => s.lightCrew u) s)
  else .refused (.cannotOccur "LIGHT_SAVE")

/-- Squash the continuations of a crew (R206, R242 step 2): each home thread enters join-wait, and a fork that has not
started is undone. -/
def State.squashCrew (s : State) (crew : Nat) : State :=
  (s.crewThreads crew).foldl (fun (s : State) e =>
    match s.thread? e.1 with
    | none => s
    | some t =>
      if t.inherited != 0 then s
      else match t.levels.getLast? with
        | some l => (s.squashFork e.1 t l).modThread e.1 fun t => { t with status := .joinWait }
        | none =>
          match t.status with
          | .forking c _ _ _ _ => (s.discardThread c).modThread e.1 fun t => { t with status := .boundary }
          | _ => s) s

/-- Roll a thread's open region back to its REGB (R239). -/
def State.rollback (s : State) (uid : Nat) : State :=
  match s.thread? uid with
  | none => s
  | some t =>
    match t.region with
    | none => s
    | some r =>
      let s := s.setPail t ((s.pailAll t).filter fun p => p.uid != uid)
      let s := s.squashPend t.core t.quad (((SMap.get? s.crews t.crew).map (·.ctx)).getD 0) r.pend
      ((s.standOut uid).restoreCheck uid r.check).modThread uid fun t =>
        { t.standAt r.pc r.slot false false with region := none, wait := none, timer := none, timedOut := false }

/-- Whether a squash of the crew's continuations would have to wait for loads (R202). -/
def State.squashHeld (s : State) (crew : Nat) : Bool :=
  (s.crewThreads crew).any fun e => e.2.inherited == 0 && match e.2.levels.getLast? with
    | some l => s.squashBusy e.1 e.2 l
    | none => false

/-- Steps 1 to 3 of a forced save (R242): every thread stands at an instruction. A fence's marker is given up and the
fence starts again; a thread at YIELD goes on after it. -/
def State.forceCrew (s : State) (crew : Nat) : State :=
  let s := s.squashCrew crew
  let us := (s.crewThreads crew).map (·.1)
  let s := us.foldl (fun (s : State) u => (s.rollback u).standOut u) s
  us.foldl (fun (s : State) u => s.modThread u fun t => match t.wait with
    | some (.fence _) => { t with wait := none }
    | some .drain => { t with wait := none }
    | some (.request _) => { t with wait := none }
    | some .yield => { t with wait := none }
    | _ => t) s

/-- Step 6 of a forced save of one crew (R242). -/
def State.saveCrew (s : State) (crew : Nat) : State :=
  match SMap.get? s.crews crew with
  | none => s
  | some c =>
    let ts := (s.crewThreads crew).map fun e => ⟨e.1, e.2.status, s.grabRegs e.2 (List.range e.2.allot)⟩
    let trig := (List.range 64).filterMap fun i => match SMap.get? s.triggers (c.core * 64 + i) with
      | some x => if x.ctx == c.ctx then some (i, x.val) else none
      | none => none
    let v : Saved := ⟨false, ts, s.grabScr c, s.grabTags c, if s.hasMatrix c then s.grabAcc c.core else [], trig, s.grabArmed crew c, s.grabBins crew, []⟩
    let held := s.copies.filter fun e => e.2.iss.crew == crew
    let s := held.foldl (fun (s : State) e => s.lowerLines e.2.lines) s
    s.removeCrew crew c v

/-- Whether a crew is to be forced (R242, R245, R247): Forcing, or halted and requested. -/
def Crew.forced (c : Crew) : Bool := c.placed && (c.preempt == .forcing || (c.halted && c.preempt == .requested))

/-- FORCED_SAVE (R242, R245, R246): a co-resident gang as one unit, once its FIFOs and engine work are done. A unit with a
halted crew need not wait for LEFT when its other crews are yielded (R247) (log entry 58, DEDUCED). -/
def execForcedSave (crew : Nat) (s : State) : Host.Outcome State Fault Refusal :=
  let us := s.unit crew
  if us.isEmpty || !(us.all fun u => ((SMap.get? s.crews u).map Crew.forced) == some true || s.yielded u) || us.all s.yielded ||
      us.any s.squashHeld then
    .refused (.cannotOccur "FORCED_SAVE")
  else
    let s1 := us.foldl (fun (s : State) u => s.forceCrew u) s
    if us.all fun u => match SMap.get? s1.crews u with
      | some c => s1.engineIdle u true && s1.trafficIdle u c
      | none => false
    then .next (us.foldl (fun (s : State) u => s.saveCrew u) s1)
    else .refused (.cannotOccur "FORCED_SAVE")

/-! ## Restore (R242, R245, R256) -/

/-- A location in a crew's scratchpad, on its new core. -/
def Loc.move (l : Loc) (c : Crew) (core base : Nat) : Loc :=
  match l with
  | .scr k b => if k = c.core ∧ 128 * c.base ≤ b ∧ b < 128 * (c.base + c.lines) then .scr core (b - 128 * c.base + 128 * base) else l
  | _ => l

/-- A wait, on the new core. -/
def Wait.move (w : Wait) (c : Crew) (core base : Nat) : Wait :=
  match w with
  | .phase l n => .phase (l.move c core base) n
  | .presence k x => if k = c.core ∧ c.base ≤ x ∧ x < c.base + c.lines then .presence core (x - c.base + base) else w
  | _ => w

/-- Put a saved thread into its new quadrant (R19, R242): `none` where it does not fit. -/
def State.restoreThread (s : State) (c : Crew) (core base : Nat) (quads : List Nat) (v : SavedThread) : Option State :=
  match s.thread? v.uid with
  | none => some s
  | some t =>
    match quads[t.quad]? with
    | none => none
    | some q =>
      if 4 ≤ q then none
      else match s.roomIn core q t.lane t.allot with
        | none => none
        | some (slot, rbase) =>
          let t' : Thread := { t with
            core := core, quad := q, slot := slot, rbase := rbase, status := v.status
            wait := t.wait.map fun w => w.move c core base
            monitor := t.monitor.map fun m => (m.1.move c core base, m.2) }
          let s : State := { s with threads := SMap.put s.threads v.uid t' }
          let s := s.startRegs t' []
          some (v.regs.foldl (fun (s : State) r => s.wr t' r.1 r.2) s)

/-- Restore threads one after another. -/
def State.restoreThreads (s : State) (c : Crew) (core base : Nat) (quads : List Nat) : List SavedThread → Option State
  | [] => some s
  | v :: vs =>
    match s.restoreThread c core base quads v with
    | none => none
    | some s => s.restoreThreads c core base quads vs

/-- Clear a crew's lines and bring back what was saved of them. -/
def State.restoreScr (s : State) (core base lines : Nat) (v : Saved) : State :=
  let lo := scrKey core (128 * base)
  let lg := granKey core (128 * base)
  let s : State := { s with
    scr := s.scr.filter fun e => !(decide (lo ≤ e.1) && decide (e.1 < lo + 128 * lines))
    scrTag := s.scrTag.filter fun e => !(decide (lg ≤ e.1) && decide (e.1 < lg + 8 * lines)) }
  { s with
    scr := v.scr.foldl (fun m e => SMap.setD m 0 (lo + e.1) e.2) s.scr
    scrTag := v.scrTag.foldl (fun m e => SMap.setD m 0 (lg + e.1) e.2) s.scrTag }

/-- Put saved bins back in their new quadrants, their timers at SPTIMER again (R426): into the bin of their key where it
has room, else into a free bin (log entry 46, DEDUCED). -/
def State.restoreBins (s : State) (core sptimer : Nat) (quads : List Nat) : List (Nat × SpawnBin) → Option State
  | [] => some s
  | (q, b) :: bs =>
    let base := quadKey core (quads.getD q 0) * 16
    match s.bins.find? fun e => e.1 / 16 * 16 == base && e.2.entry == b.entry && e.2.ctx == b.ctx && decide (e.2.recs.length + b.recs.length ≤ 32) with
    | some (k, x) => ({ s with bins := SMap.put s.bins k { x with recs := x.recs ++ b.recs, timer := sptimer } } : State).restoreBins core sptimer quads bs
    | none =>
      match (List.range 16).find? fun i => (SMap.get? s.bins (base + i)).isNone with
      | none => none
      | some i => ({ s with bins := SMap.put s.bins (base + i) { b with timer := sptimer, launching := false } } : State).restoreBins core sptimer quads bs

/-- Lines of a crew's scratchpad on its new core. -/
def moveLines (c : Crew) (core base : Nat) (ls : List (Nat × Nat)) : List (Nat × Nat) :=
  ls.map fun y => if y.1 = c.core ∧ c.base ≤ y.2 ∧ y.2 < c.base + c.lines then (core, y.2 - c.base + base) else y

/-- The counts of a crew's RING rounds that wait for their tiles stand on its new lines again (R421). -/
def State.restoreRings (s : State) (crew : Nat) (c : Crew) (core base : Nat) : State :=
  let mine := s.ringsOf crew
  let s : State := { s with ringWaits := s.ringWaits.map fun r => if mine.contains r then { r with lines := moveLines c core base r.lines } else r }
  s.raiseLines ((s.ringsOf crew).flatMap (·.lines))

/-- Restore one crew (R242, R245): on a released core that can place it. `none` where it cannot (log entry 57, DEDUCED). -/
def State.restoreCrew (s : State) (usable : List Nat) (p : Placement) : Option State :=
  match SMap.get? s.crews p.crew with
  | none => none
  | some c =>
    match c.saved, SMap.get? s.launches c.launch with
    | some v, some l =>
      let names := v.triggers.map (·.1) ++ v.armed.map (·.ctr)
      if !usable.contains p.core || !(s.matrixFree p.core l.roles) || names.any (fun i => !(s.trigOwn p.core i c.ctx)) ||
          decide (256 < v.armed.length + (SMap.getD s.armed [] p.core).length) then none
      else match s.lineBase p.core c.lines, s.crewIndex p.core with
        | some base, some ix =>
          match (s.restoreThreads c p.core base p.quads v.threads).bind fun s => s.restoreBins p.core l.sptimer p.quads v.bins with
          | none => none
          | some s =>
            let s := s.restoreScr p.core base c.lines v
            let s : State := if l.roles.any usesMatrix then
              { s with acc := v.acc.foldl (fun m e => SMap.setD m Reg.zero (accKey p.core e.1) e.2) (s.acc.filter fun e => e.1 / 65536 != p.core) } else s
            let here (x : Copy) : Copy := { x with
              iss := { x.iss with core := p.core }
              lines := moveLines c p.core base x.lines }
            let s : State := { s with
              copies := s.copies.map fun e => if e.2.iss.crew == p.crew then (e.1, here e.2) else e
              crews := SMap.put s.crews p.crew { c with
                core := p.core, base := base, index := ix, placed := true, preempt := .running, req := false, left := 0, saved := none }
              launches := SMap.mod s.launches c.launch fun l => { l with cores := if l.cores.contains p.core then l.cores else l.cores ++ [p.core] } }
            let s := (s.copies.filter fun e => e.2.iss.crew == p.crew).foldl (fun (s : State) e => s.raiseLines e.2.lines) s
            let s := s.restoreRings p.crew c p.core base
            let s : State := { s with armed := SMap.setD s.armed [] p.core (SMap.getD s.armed [] p.core ++ v.armed.map fun a => { a with copy := here a.copy }) }
            let s := v.triggers.foldl (fun (s : State) x => (s.setTrigger p.core x.1 c.ctx x.2).1) s
            let s := v.posts.foldl (fun (s : State) x => match s.thread? x.1 with
              | none => s
              | some t => s.wr t x.2.1 x.2.2) s
            some ((List.range 4).foldl (fun (s : State) q => s.dropL1 p.core q) s)
        | _, _ => none
    | _, _ => none

/-- Restore crews one after another. -/
def State.restoreCrews (s : State) (usable : List Nat) : List Placement → Option State
  | [] => some s
  | p :: ps =>
    match s.restoreCrew usable p with
    | none => none
    | some s => s.restoreCrews usable ps

/-- CREW_RESTORE (R55, R242, R245): a removed unit whole; each placement names a crew, its core, and for each of its old
quadrants the new one. Its start acquires at device scope. -/
def execCrewRestore (places : List Placement) (s : State) : Host.Outcome State Fault Refusal :=
  match places with
  | [] => .refused (.cannotOccur "CREW_RESTORE")
  | p :: _ =>
    let us := s.unit p.crew
    let named := places.map (·.crew)
    match ((SMap.get? s.crews p.crew).bind fun c => SMap.get? s.ctxs c.ctx).bind fun c =>
        (s.partOf c).bind fun x => (s.inTurn c.vd).map fun s' => (x.2, s') with
    | none => .refused (.cannotOccur "CREW_RESTORE")
    | some (part, s1) =>
      if !(allIn us named) || !(allIn named us) || named.eraseDups.length != named.length ||
          us.any (fun u => ((SMap.get? s.crews u).map fun c => c.saved.isSome) != some true) then .refused (.cannotOccur "CREW_RESTORE")
      else match s1.restoreCrews (s1.usable part) places with
        | none => .refused (.cannotOccur "CREW_RESTORE")
        | some s2 => .next (named.foldl (fun (s : State) u => s.settleCrew u) s2)

/-! ## Debuggers (R247) -/

/-- DEBUG_HALT (R247): the crew stops issue where it stands. -/
def execDebugHalt (crew : Nat) (s : State) : Host.Outcome State Fault Refusal :=
  match SMap.get? s.crews crew with
  | none => .refused (.cannotOccur "DEBUG_HALT")
  | some c => if c.placed && !c.halted then .next { s with crews := SMap.put s.crews crew { c with halted := true } } else .refused (.cannotOccur "DEBUG_HALT")

/-- DEBUG_CONTINUE (R247). -/
def execDebugContinue (crew : Nat) (s : State) : Host.Outcome State Fault Refusal :=
  match SMap.get? s.crews crew with
  | none => .refused (.cannotOccur "DEBUG_CONTINUE")
  | some c => if c.placed && c.halted then .next { s with crews := SMap.put s.crews crew { c with halted := false } } else .refused (.cannotOccur "DEBUG_CONTINUE")

/-! ## Virtual devices (R262 to R264) -/

/-- Whether a turn is over (R264): w × EQ has passed, its virtual device has no work, or weighted work is ready beside a
weight-0 device. -/
def State.turnOver (s : State) (vd : Nat) (v : VDev) : Bool :=
  decide (v.start + 1000 * (max 1 v.weight * v.eq_) ≤ s.timebase) || !(s.vdReady vd) ||
    (v.weight == 0 && s.vdevs.any fun x => x.2.part == v.part && x.2.weight != 0 && s.vdReady x.1)

/-- The crews of a virtual device that are resident. -/
def State.vdCrews (s : State) (vd : Nat) : List (Nat × Crew) :=
  s.crews.filter fun e => e.2.placed && (((SMap.get? s.ctxs e.2.ctx).map (·.vd)) == some vd)

/-- VD_TURN_END (R264): a turn that is over has pre-emption of its device's resident crews requested, and the time until
their removal counts against it; when none is left, the next turn of the round begins. -/
def execVdTurnEnd (vd : Nat) (s : State) : Host.Outcome State Fault Refusal :=
  match SMap.get? s.vdevs vd with
  | none => .refused (.cannotOccur "VD_TURN_END")
  | some v =>
    let mine := s.vdCrews vd
    if !v.turn || (v.ending && !mine.isEmpty) || (!v.ending && !(s.turnOver vd v)) then .refused (.cannotOccur "VD_TURN_END")
    else if mine.isEmpty then
      let s : State := { s with vdevs := SMap.put s.vdevs vd { v with turn := false, ending := false } }
      .next (match s.vdNext v.part vd with
        | none => s
        | some n => s.beginTurn n)
    else
      let s : State := { s with vdevs := SMap.put s.vdevs vd { v with ending := true } }
      .next (mine.foldl (fun (s : State) e => s.requestUnit e.1 (s.predlOf e.2)) s)

/-- VD_CONFIG (R262, R263): the operating system answers with a status and, for status 0, an effective quantum (log entry 55, DEDUCED). -/
def execVdConfig (w0 w1 w2 w3 : Word) (s : State) : Host.Outcome State Fault Refusal :=
  let vd := (fld w0 8 6).toNat
  let part := (fld w0 0 3).toNat
  let weight := (fld w1 0 8).toNat
  let quantum := w2.toNat
  let old := SMap.get? s.vdevs vd
  let reserved := fld w0 14 18 != (0 : BitVec 18) || fld w0 3 5 != (0 : BitVec 5) || fld w1 8 24 != (0 : BitVec 24) || w3 != 0
  match s.chip.powered && !s.chip.recovery, SMap.get? s.parts part with
  | false, _ => .refused (.cannotOccur "VD_CONFIG")
  | true, none => .next { s with answer := [3] }
  | true, some p =>
    let held := (s.vdevs.filter fun x => x.2.part == part && x.1 != vd).length
    let mine := (old.map fun v => v.part == part) == some true
    if reserved || (!mine && decide (p.nvf ≤ held)) then .next { s with answer := [3] }
    else if quantum = 0 then .next { s with answer := [1] }
    else if old.isSome && !mine then .next { s with answer := [2] }
    else
      let eq := if quantum < p.wsave then 2 * p.wsave else quantum
      let v : VDev := match old with
        | none => ⟨part, weight, quantum, eq, false, 0, false, none, (0, 0)⟩
        | some v => if v.turn then { v with next := some (weight, quantum, eq) } else { v with weight := weight, quantum := quantum, eq_ := eq }
      .next { s with vdevs := SMap.put s.vdevs vd v, answer := [0, eq] }

end Sys2Proof.Machine
end

