-- ==== Sys2Proof/Machine/WaitFor.lean ====
section
/-! DEFINITION. The wait-for table and the deadlocked sets a management core finds in it (R188 to R190). -/

namespace Sys2Proof.Machine

/-- An object that agents wait on (R188). -/
inductive WaitObj where
  | bar (core b : Nat)
  | crewBar (crew : Nat)
  | gang (launch entry : Nat)
  | meet (crew token : Nat)
  | presence (core line : Nat)
  deriving DecidableEq, Repr

/-- The object a parked thread waits on (R188); a GBAR's thread waits with its crew on the gang object. -/
def State.objOf (s : State) (t : Thread) : Option WaitObj :=
  if t.status != .boundary || s.waitOver t then none
  else match t.wait with
    | some (.phase (.scr c b) _) => some (.bar c b)
    | some (.crewBar _) => some (.crewBar t.crew)
    | some (.gang g _) => (SMap.get? s.crews t.crew).map fun c => .gang c.launch g
    | some (.meet tok) => some (.meet t.crew tok)
    | some (.presence c l) => some (.presence c l)
    | _ => none

/-- A signaller: a thread, a crew, or a copy or RING round. -/
inductive Signaller where
  | thread (uid : Nat)
  | crew (uid : Nat)
  | engine
  deriving DecidableEq, Repr

/-- The signallers recorded for an object (R188). -/
def State.signallers (s : State) (o : WaitObj) : List Signaller :=
  match o with
  | .bar core b =>
    (match s.crewAt core b with
    | none => []
    | some (i, c) =>
      let off := b - 128 * c.base
      let came := match SMap.get? c.came off with
        | some (p, l) => if p = (s.barAt core b).phase then l else []
        | none => []
      let ths := ((s.crewThreads i).filter fun e => e.2.status != .draining && !came.contains e.1).map fun e => Signaller.thread e.1
      let eng := s.copies.any (fun e => e.2.iss.crew == i && e.2.bar == some off && !e.2.complete) ||
        s.tiles.any (fun e => e.2.launch == c.launch && e.2.bar == some off && c.gangs.any fun g => g.entry == e.2.gang && g.pos == e.2.toPos)
      ths ++ (if eng then [.engine] else []))
  | .crewBar crew =>
    (match SMap.get? s.crews crew with
    | none => []
    | some c => ((s.barExpected crew).filter fun u => !c.barArrived.contains u).map .thread)
  | .gang launch g =>
    (s.crews.filter fun e => e.2.launch == launch && e.2.gangs.any (fun x => x.entry == g) && (e.2.gangWait.map (·.1)) != some g).map fun e => .crew e.1
  | .meet crew tok =>
    match (SMap.get? s.crews crew).bind fun c => c.meets.find? fun m => m.token == tok with
    | none => []
    | some m => (m.armed.filter fun u => !m.arrived.contains u).map .thread
  | .presence core line =>
    if s.copies.any (fun e => e.2.lines.contains (core, line) && !e.2.complete) || s.ringWaits.any (fun r => r.lines.contains (core, line)) then [.engine]
    else []

/-- The object a signaller is parked on. -/
def State.sigObj (s : State) (x : Signaller) : Option WaitObj :=
  match x with
  | .thread u => (s.thread? u).bind s.objOf
  | .crew u => (SMap.get? s.crews u).bind fun c => c.gangWait.map fun g => .gang c.launch g.1
  | .engine => none

/-- The objects on which agents of a context are parked. -/
def State.waitedOn (s : State) (cid : Nat) : List WaitObj :=
  ((s.threads.filter fun e => ((SMap.get? s.crews e.2.crew).map (·.ctx)) == some cid).filterMap fun e => s.objOf e.2).eraseDups

/-- Drop the objects that have no signaller, or one that is not parked on an object of the set, until none is left. -/
def State.deadFix (s : State) : Nat → List WaitObj → List WaitObj
  | 0, w => w
  | n + 1, w => s.deadFix n (w.filter fun o =>
      let xs := s.signallers o
      !xs.isEmpty && xs.all fun x => match s.sigObj x with
        | some y => w.contains y
        | none => false)

/-- Grow a set of objects over shared signallers, within `w`. -/
def State.deadGrow (s : State) (w : List WaitObj) : Nat → List WaitObj → List WaitObj
  | 0, l => l
  | n + 1, l => s.deadGrow w n (w.filter fun o => l.contains o ||
      (s.signallers o).any (fun x => (s.sigObj x).any fun y => l.contains y) ||
      l.any fun p => (s.signallers p).any fun x => s.sigObj x == some o)

/-- Split the deadlocked objects into sets that depend on one another (log entry 25, DEDUCED). -/
def State.deadSets (s : State) (w : List WaitObj) : Nat → List WaitObj → List (List WaitObj)
  | 0, _ => []
  | _, [] => []
  | n + 1, o :: os =>
    let g := s.deadGrow w w.length [o]
    g :: s.deadSets w n (os.filter fun x => !g.contains x)

/-- The on-chip map address of an offset of a core, as a context sees it (R137, R268). -/
def State.mapAddr (s : State) (c : Context) (core off : Nat) : Nat := 2 ^ 44 + s.coreNumber c core * 2 ^ 24 + off

/-- OBJ and OKIND of an object (R190). -/
def State.objWords (s : State) (c : Context) (o : WaitObj) : Nat × Nat :=
  let crewAddr (u : Nat) : Nat := match SMap.get? s.crews u with
    | some x => s.mapAddr c x.core (0x1C2000 + 16 * x.index)
    | none => 0
  match o with
  | .bar core b => (s.mapAddr c core (0x100000 + b), 0)
  | .crewBar u => (crewAddr u, 1)
  | .gang l g =>
    (match s.gangObj l g with
    | some (core, b) => (s.mapAddr c core (0x100000 + b), 2)
    | none => (0, 2))
  | .presence core line => (s.mapAddr c core (0x100000 + 128 * line), 4)
  | .meet u tok => (crewAddr u + tok * 2 ^ 48, 3)

/-- The entries of a deadlocked set (R190), each with the agent's number: a thread, or a crew at GBAR. -/
def State.deadEntries (s : State) (cid : Nat) (c : Context) (w : List WaitObj) : List (Nat × Nat × Nat) :=
  let mine := s.threads.filter fun e => ((SMap.get? s.crews e.2.crew).map (·.ctx)) == some cid
  let ord (u : Nat) : Nat := ((SMap.get? s.crews u).map (·.ord)).getD 0
  let ths := mine.filterMap fun e => match s.objOf e.2 with
    | some o =>
      if !w.contains o || (match o with | .gang _ _ => true | _ => false) then none
      else
        let x := s.objWords c o
        some (2 * e.1, x.1, x.2 * 2 ^ 58 + s.coreNumber c e.2.core * 2 ^ 50 + e.2.quad * 2 ^ 48 + e.2.lane * 2 ^ 43 + e.2.slot * 2 ^ 39 + ord e.2.crew)
    | none => none
  let crs := s.crews.filterMap fun e => match e.2.gangWait with
    | some (g, _) =>
      let o := WaitObj.gang e.2.launch g
      if e.2.ctx == cid && w.contains o then
        some (2 * e.1 + 1, (s.objWords c o).1, 2 ^ 61 + 2 * 2 ^ 58 + s.coreNumber c e.2.core * 2 ^ 50 + e.2.ord)
      else none
    | none => none
  ths ++ crs

/-- WALK THE TABLE of a context (R189): one deadlock record for each deadlocked set whose membership is new. -/
def State.walkTable (s : State) (cid : Nat) (c : Context) : State :=
  let s : State := { s with chip := { s.chip with walks := s.chip.walks + 1 } }
  let w0 := s.waitedOn cid
  let w := s.deadFix w0.length w0
  let sets := (s.deadSets w w.length w).map fun g => s.deadEntries cid c g
  let names := sets.map fun es => es.map (·.1)
  let s := (sets.zip names).foldl (fun (s : State) x =>
    if c.lastSets.contains x.2 then s
    else (s.log cid 10 1 0 0 0).logItem cid (.deadlock s.timebase cid s.chip.walks ((x.1.take 4096).map (·.2)))) s
  { s with ctxs := SMap.mod s.ctxs cid fun c => { c with lastSets := names } }

/-- WAIT_FOR_WALK (R189): a management core's walk at its interval. -/
def execWaitForWalk (ctx : Nat) (s : State) : Host.Outcome State Fault Refusal :=
  match SMap.get? s.ctxs ctx with
  | none => .refused (.cannotOccur "WAIT_FOR_WALK")
  | some c =>
    if c.ended || decide (s.timebase < c.walked + s.chip.walkEvery) then .refused (.cannotOccur "WAIT_FOR_WALK")
    else
      let s := s.walkTable ctx c
      .next { s with ctxs := SMap.mod s.ctxs ctx fun c => { c with walked := s.timebase } }

/-- WALK_REQUEST (R189): the host asks for a walk at once. -/
def execWalkRequest (ctx : Nat) (s : State) : Host.Outcome State Fault Refusal :=
  match SMap.get? s.ctxs ctx with
  | none => .refused (.cannotOccur "WALK_REQUEST")
  | some c => if c.ended then .refused (.cannotOccur "WALK_REQUEST") else .next (s.walkTable ctx c)

end Sys2Proof.Machine
end

