-- ==== Sys2Proof/Machine/Device.lean ====
section
/-! DEFINITION. The device and its operating system: power and boot (R275 to R277, R279), bring-up (R261), partitions
(R257 to R259), contexts (R265), modules (R288, R289), host writes (R273), invalidations (R267), snapshots (R274), peer
apertures (R269), counters (R280 to R285), errors (R250, R251), and the registers the host reads (R260, R271, R282). -/

namespace Sys2Proof.Machine

/-- A device whose operating system serves requests (R276). -/
def State.serves (s : State) : Bool := s.chip.powered && !s.chip.recovery

/-! ## Power (R32, R275 to R277, R279) -/

/-- Whether the flash holds an image that passes the boot checks (R275, R276). -/
def Chip.bootOk (c : Chip) : Bool :=
  let w (o n : Nat) : Nat := ofBytes ((c.flash.drop o).take n)
  let len := w 8 8
  let key := (c.flash.drop 0x10).take 32
  decide (0x1000 + len ≤ c.flash.length) && w 0 4 == 0x4A585A31 && decide (c.minVersion ≤ w 4 4) && decide (1 ≤ len) && decide (len ≤ 2 ^ 29 - 2 ^ 12) &&
    (sha512 key).take 32 == c.fusedDigest &&
    ed25519ph key ((c.flash.drop 0x30).take 64) (c.flash.take 0x30 ++ (c.flash.drop 0x1000).take len)

/-- The body of the boot image: the device operating system (R275, R276). -/
def Chip.body (c : Chip) : List Byte := (c.flash.drop 0x1000).take (ofBytes ((c.flash.drop 8).take 8))

/-- The management cores at power-on (R276, R278): MC0 loads the operating system and starts the others, in S mode over
M-mode firmware; in recovery MC0's boot ROM alone runs (log entry 62, DEDUCED). -/
def Chip.startMcs (c : Chip) : Chip :=
  if c.recovery then { c with mcMode := (List.replicate Config.mcs none).set 0 (some 3), sram := [] }
  else { c with mcMode := List.replicate Config.mcs (some 1), sram := c.body.take Config.sramBytes }

/-- A COREMAP list that grants the given physical cores (R258). -/
def coreMap (cores : List Nat) : List Nat :=
  let n := cores.foldl (fun m c => m + 2 ^ c) 0
  (List.range 4).map fun i => nfld n (64 * i) 64

/-- The boot partition (R277): every core, frame and port that is not fused off, and no virtual device (log entry 62, DEDUCED). -/
def Chip.bootPartition (c : Chip) : Partition where
  map := coreMap ((List.range 200).filter fun k => !c.fusedOff.contains k)
  portmap := 2 ^ 48 - 1
  framesAddr := 0
  frames := List.range Config.frames
  nvf := 0
  wsave := 0
  seq := 0
  raised := 0
  aperture := []

/-- POWER_ON (R276, R277). -/
def execPowerOn (s : State) : Host.Outcome State Fault Refusal :=
  if s.chip.powered then .refused (.cannotOccur "POWER_ON")
  else .next { s with
    chip := ({ s.chip with powered := true, boot := true, recovery := !s.chip.bootOk } : Chip).startMcs
    parts := [(0, s.chip.bootPartition)] }

/-- The module without power: fuses, flash and what the management controller keeps stand; everything else is lost (R276,
R279). Host and peer memory are not the module's. -/
def State.powerLost (s : State) (trips : Nat) : State :=
  { State.reset with
    agenda := s.agenda, hostMem := s.hostMem, peerMem := s.peerMem
    chip := { Chip.reset with
      step := s.chip.step, dev := s.chip.dev, fusedOff := s.chip.fusedOff, minVersion := s.chip.minVersion
      fusedDigest := s.chip.fusedDigest, flash := s.chip.flash, trips := trips } }

/-- POWER_OFF (R276). -/
def execPowerOff (s : State) : Host.Outcome State Fault Refusal :=
  if s.chip.powered then .next (s.powerLost s.chip.trips) else .refused (.cannotOccur "POWER_OFF")

/-- THERMAL_TRIP (R279): the controller is told, and the module powers off. -/
def execThermalTrip (s : State) : Host.Outcome State Fault Refusal :=
  if s.chip.powered then .next (s.powerLost (s.chip.trips + 1)) else .refused (.cannotOccur "THERMAL_TRIP")

/-- FLASH_COMMAND (R276): the image takes effect at the next power-on; the flash holds 512 MiB. -/
def execFlashCommand (image : List Byte) (s : State) : Host.Outcome State Fault Refusal :=
  if s.chip.powered && decide (image.length ≤ 2 ^ 29) then .next { s with chip := { s.chip with flash := image } }
  else .refused (.cannotOccur "FLASH_COMMAND")

/-- GOVERNOR_STEP (R32): 100 MHz down or, below 3.6 GHz, up; issue never stops. The lowest clock and the way up are the
model's choice (log entry 77, DESIGN CHOICE). -/
def execGovernorStep (down : Bool) (s : State) : Host.Outcome State Fault Refusal :=
  if !s.chip.powered || (if down then decide (s.chip.mhz ≤ 100) else decide (3600 ≤ s.chip.mhz)) then .refused (.cannotOccur "GOVERNOR_STEP")
  else .next { s with chip := { s.chip with mhz := if down then s.chip.mhz - 100 else s.chip.mhz + 100 } }

/-! ## Bring-up (R261) -/

/-- CORE_BATCH_RELEASE (R261): up to 16 cores finish self-test. -/
def execCoreBatchRelease (good bad : List Nat) (s : State) : Host.Outcome State Fault Refusal :=
  let all := good ++ bad
  if !s.serves || all.isEmpty || decide (16 < all.length) || all.eraseDups.length != all.length ||
      all.any (fun c => decide (200 ≤ c) || s.chip.fusedOff.contains c || s.chip.released.contains c || s.chip.failed.contains c) then
    .refused (.cannotOccur "CORE_BATCH_RELEASE")
  else
    let s : State := { s with chip := { s.chip with released := s.chip.released ++ good, failed := s.chip.failed ++ bad } }
    .next (s.blockUpdate fun p => p.cores.any all.contains)

/-- Set SST of a stack. -/
def State.setStack (s : State) (k v : Nat) : State :=
  let s : State := { s with chip := { s.chip with sst := s.chip.sst.set k v } }
  s.blockUpdate fun p => p.stacksOf.contains k

/-- STACK_JOIN (R261). -/
def execStackJoin (stack : Nat) (s : State) : Host.Outcome State Fault Refusal :=
  if s.serves && decide (stack < 8) && s.chip.sst.getD stack 0 == 0 then .next (s.setStack stack 1) else .refused (.cannotOccur "STACK_JOIN")

/-- STACK_TRAINED (R261): training completes, or the stack has failed. -/
def execStackTrained (stack : Nat) (good : Bool) (s : State) : Host.Outcome State Fault Refusal :=
  if s.serves && decide (stack < 8) && s.chip.sst.getD stack 0 == 1 then .next (s.setStack stack (if good then 2 else 3))
  else .refused (.cannotOccur "STACK_TRAINED")

/-! ## Partitions (R257 to R259, R277) -/

/-- A remap table entry (R258): the fields of its eight 64-bit words, and the frame list in memory. -/
def State.parsePart (s : State) (m : List Nat) (wsave : Nat) : Partition :=
  let addr := m.getD 5 0
  let n := nfld (m.getD 6 0) 0 11
  { map := [m.getD 0 0, m.getD 1 0, m.getD 2 0, m.getD 3 0 % 256], portmap := m.getD 4 0 % 2 ^ 48, framesAddr := addr
    frames := (List.range n).map fun i => ofBytes (readCells s.mem (addr + 2 * i) 2) % 1024
    nvf := nfld (m.getD 6 0) 32 7, wsave := wsave, seq := 0, raised := 0, aperture := [] }

/-- Whether a partition holds a context. -/
def State.holdsContext (s : State) (i : Nat) : Bool :=
  s.ctxs.any fun c => !c.2.ended && ((SMap.get? s.vdevs c.2.vd).map (·.part)) == some i

/-- Whether two partitions share a core, a frame or a port (R257). -/
def Partition.shares (a b : Partition) : Bool :=
  (a.coreBits &&& b.coreBits) != 0 || (a.portmap &&& b.portmap) != 0 || a.frames.any b.frames.contains

/-- Whether a configured partition breaks a rule of R257 beside the others. -/
def State.partBad (s : State) (i : Nat) (p : Partition) : Bool :=
  p.cores.isEmpty || p.frames.isEmpty || p.cores.any s.chip.fusedOff.contains || decide (Config.frames < p.frames.length) || decide (64 < p.nvf) ||
    s.parts.any fun e => e.1 != i && !(s.chip.boot && e.1 == 0) && p.shares e.2

/-- PARTITION_CONFIG (R257, R258, R277): partition `i` is created or changed, or, with every word 0, deleted; the answer is
0, or 1 when it is refused and the table is left unchanged. The first partition the operating system forms ends the
boot partition (log entry 62, DEDUCED) (log entry 65, DEDUCED). -/
def execPartitionConfig (i : Nat) (map : List DWord) (wsave : Nat) (s : State) : Host.Outcome State Fault Refusal :=
  let m := map.map (·.toNat)
  if !s.serves || decide (8 ≤ i) || m.length != 8 || decide (2 ^ 32 ≤ wsave) then .refused (.cannotOccur "PARTITION_CONFIG")
  else if s.holdsContext i then .next { s with answer := [1] }
  else
    let rest : SMap Partition := if s.chip.boot then [] else s.parts
    if m.all (· == 0) then
      .next { s with
        parts := SMap.del s.parts i, vdevs := s.vdevs.filter fun v => v.2.part != i
        chip := { s.chip with boot := s.chip.boot && i != 0 }, answer := [0] }
    else
      let p := s.parsePart m wsave
      if s.partBad i p then .next { s with answer := [1] }
      else
        let p := match SMap.get? rest i with
          | some old => { p with seq := (old.seq + 2) % 2 ^ 32, raised := old.raised + 1, aperture := old.aperture }
          | none => p
        .next { s with parts := SMap.put rest i p, chip := { s.chip with boot := false }, answer := [0] }

/-- PEER_APERTURE_GRANT (R269): an entry is written on a grant, or cleared on a withdrawal. -/
def execPeerApertureGrant (part entry : Nat) (value : DWord) (s : State) : Host.Outcome State Fault Refusal :=
  match s.serves, SMap.get? s.parts part with
  | true, some p =>
    if 16 ≤ entry then .refused (.cannotOccur "PEER_APERTURE_GRANT")
    else
      let v := nfld value.toNat 62 2 * 2 ^ 62 + value.toNat % 2 ^ 19
      let old := (List.range 16).map fun k => p.aperture.getD k 0
      .next { s with parts := SMap.put s.parts part { p with aperture := old.set entry (if v.testBit 63 then v else 0) } }
  | _, _ => .refused (.cannotOccur "PEER_APERTURE_GRANT")

/-! ## Contexts (R265, R266) -/

/-- A context descriptor's fields over the state the device keeps (R265); `old` is the context it changes. -/
def contextOf (w : List Nat) (old : Option Context) (now : Nat) : Context :=
  let g (i lo n : Nat) : Nat := nfld (w.getD i 0) lo n
  { root := g 0 0 64, cspace := g 1 0 64, anomBase := g 2 0 64, anomSeq := (old.map (·.anomSeq)).getD (g 3 0 64)
    faultBase := g 4 0 64, faultSeq := (old.map (·.faultSeq)).getD (g 5 0 64), tsave := g 6 0 64, coldesc := g 7 0 64, dirty := g 8 0 64
    wdog := g 9 0 32, predl := g 9 32 25, tentry := g 10 0 26, vd := g 10 50 6, ta := g 10 48 2, pshare := g 10 40 6
    finj := (w.getD 10 0).testBit 33, priv := (w.getD 10 0).testBit 32, graph := g 12 0 64, nnode := g 13 0 16
    batchBase := g 14 0 64, batchSize := g 15 0 32, batchHead := 0, nodes := [], starts := (old.map (·.starts)).getD []
    watch := (old.map (·.watch)).getD (List.replicate 8 Watch.zero), comms := (old.map (·.comms)).getD [], modules := (old.map (·.modules)).getD []
    log := (old.map (·.log)).getD [], lastSets := [], walked := (old.map (·.walked)).getD now, binBase := (old.map (·.binBase)).getD none, bins := (old.map (·.bins)).getD []
    snap := (old.map (·.snap)).getD none, ended := false }

/-- CTX of a descriptor (R265). -/
def descCtx (w : List Nat) : Nat := nfld (w.getD 11 0) 0 12

/-- Whether a descriptor breaks a rule of R265, or asks for what only the operating system may give (log entry 66, DEDUCED). -/
def descBad (w : List Nat) (byOs : Bool) : Bool :=
  let g (i lo n : Nat) : Nat := nfld (w.getD i 0) lo n
  g 9 57 7 != 0 || g 10 26 6 != 0 || g 10 56 8 != 0 || g 10 46 2 != 0 || g 10 34 6 != 0 || g 11 12 52 != 0 || g 13 16 48 != 0 || g 15 32 32 != 0 ||
  descCtx w == 0 || g 1 0 16 != 0 || g 2 0 26 != 0 || g 4 0 22 != 0 || g 14 0 16 != 0 || g 15 0 16 != 0 || decide (2 ^ 24 < g 9 32 25) ||
  (g 12 0 64 != 0 && g 13 0 16 == 0) || (!byOs && g 10 32 2 != 0)

/-- Whether a stack gives its frames to contexts (R261). -/
def Chip.joined (c : Chip) (k : Nat) : Bool := c.sst.getD k 0 == 1 || c.sst.getD k 0 == 2

/-- Whether the frame of a descriptor's ROOT may be given to contexts: both stacks of its die have joined (R24, R261) (log entry 86, DESIGN CHOICE). -/
def State.rootJoined (s : State) (w : List Nat) : Bool :=
  match (SMap.get? s.vdevs (nfld (w.getD 10 0) 50 6)).bind fun v => SMap.get? s.parts v.part with
  | none => true
  | some p => match p.target (w.getD 0 0) with
    | some (.hbm a, _) => s.chip.joined (2 * nfld a 38 2) && s.chip.joined (2 * nfld a 38 2 + 1)
    | _ => true

/-- CONTEXT_CREATE (R265): the operating system creates the context, or changes its descriptor while no crew of it is
resident; the answer is 0, or 1 for a request it refuses. Partition 0 is formed before the first request (R277). A
context's log outlasts it (R253) (log entry 66, DEDUCED) (log entry 86, DESIGN CHOICE). -/
def execContextCreate (desc : List DWord) (byOs : Bool) (s : State) : Host.Outcome State Fault Refusal :=
  let w := desc.map (·.toNat)
  let k := descCtx w
  let old := SMap.get? s.ctxs k
  let vdOk := match SMap.get? s.vdevs (nfld (w.getD 10 0) 50 6) with
    | some v => (SMap.get? s.parts v.part).isSome
    | none => false
  let formed := (SMap.get? s.parts 0).isSome || !s.ctxs.isEmpty
  if !s.serves || s.chip.boot || !formed || w.length != 16 then .refused (.cannotOccur "CONTEXT_CREATE")
  else if descBad w byOs || !vdOk || !(s.rootJoined w) || s.crews.any (fun e => e.2.ctx == k && e.2.placed) then .next { s with answer := [1] }
  else
    let c := match old with
      | none => contextOf w none s.timebase
      | some o => if o.ended then { contextOf w none s.timebase with log := o.log } else contextOf w (some o) s.timebase
    .next { s with ctxs := SMap.put s.ctxs k c, answer := [0] }

/-- Whether a route has the shape of a tree or a ring over `n` members at this device (R211): a ring uses two links here, or
one between two members; a tree at most one to each other member. -/
def routeFits (r : Route) (n : Nat) : Bool :=
  let k := r.ports.length
  if r.ring then k == 2 || (n == 2 && k == 1) else decide (1 ≤ k) && decide (k < n)

/-- Whether a communicator request breaks R211; its ports are those of the partition, `granted` of them (R259) (log entry
59, DESIGN CHOICE). -/
def commBad (granted : Nat) (members : List Nat) (routes : List Route) : Bool :=
  let n := members.length
  let links := routes.flatMap (·.ports)
  decide (n = 0) || decide (256 < n) || members.eraseDups.length != n || members.any (fun m => decide (65536 ≤ m)) ||
  (if n = 1 then !routes.isEmpty else routes.isEmpty || decide (8 < routes.length)) || routes.any (fun r => !(routeFits r n)) ||
  links.eraseDups.length != links.length || links.any (fun p => decide (granted ≤ p))

/-- A route with the physical ports behind the partition's (R259). -/
def Partition.route (p : Partition) (r : Route) : Route := { r with ports := r.ports.map fun k => p.ports.getD k 0 }

/-- COMM_CREATE (R211, R266): created when every member has accepted identical lists; refused or unaccepted it exists
nowhere. -/
def execCommCreate (ctx i : Nat) (members : List Nat) (routes : List Route) (accepted : Bool) (s : State) : Host.Outcome State Fault Refusal :=
  match s.serves, SMap.get? s.ctxs ctx with
  | true, some c =>
    match s.partOf c with
    | none => .refused (.cannotOccur "COMM_CREATE")
    | some (_, p) =>
      if c.ended || decide (64 ≤ i) || (SMap.get? c.comms i).isSome || !members.contains s.chip.dev then .refused (.cannotOccur "COMM_CREATE")
      else if commBad p.ports.length members routes || !accepted then .next { s with answer := [1] }
      else .next { s with
        ctxs := SMap.put s.ctxs ctx { c with comms := SMap.put c.comms i ⟨members, routes.map p.route, List.replicate routes.length 4⟩ }, answer := [0] }
  | _, _ => .refused (.cannotOccur "COMM_CREATE")

/-- INVALIDATE (R267): every TLB entry of the context that covers part of [lo, hi) is dropped. -/
def execInvalidate (ctx lo hi : Nat) (s : State) : Host.Outcome State Fault Refusal :=
  let keep (t : TlbEntry) : Bool := !(t.ctx == ctx && decide (t.page < hi) && decide (lo < t.page + t.size))
  if !s.serves then .refused (.cannotOccur "INVALIDATE")
  else .next { s with
    tlb1 := s.tlb1.map fun e => (e.1, e.2.filter keep)
    lltlb := s.lltlb.map fun e => (e.1, e.2.filter keep) }

/-! ## Modules (R288, R289) -/

/-- The lifetime class and form of an instruction word: major and operation, where the class is not 0 (R327). -/
def formOf (w : Word) : Option (Nat × Nat) :=
  let m := (fld w 27 5).toNat
  let op := (fld w 23 4).toNat
  if opClass m op = 0 then none else some (m, op)

/-- The forms of class 1 or 2 in the first `n` slots of a clause; extension words are no instructions. -/
def clauseForms : Nat → List Word → List (Nat × Nat)
  | 0, _ => []
  | _, [] => []
  | n + 1, w :: ws => (formOf w).toList ++ clauseForms n ((w :: ws).drop (sizeOf (w :: ws)))

/-- The forms of class 1 or 2 a code section uses; the blocks of its manifest hold no clauses. -/
def codeForms (code : List Byte) (manoff manlen : Nat) : List (Nat × Nat) :=
  (List.range (code.length / 64)).flatMap fun i =>
    if manoff != 0 && decide (manoff ≤ i) && decide (64 * i < 64 * manoff + manlen) then []
    else
      let ws := (List.range 16).map fun j => (BitVec.ofNat 32 (ofBytes ((code.drop (64 * i + 4 * j)).take 4)) : Word)
      let n := (fld (ws.getD 0 0) 22 4).toNat
      clauseForms n ((ws.drop 2).take n)

/-- A JXM header (R288). -/
structure Jxm where
  codeoff : Nat
  codelen : Nat
  manoff : Nat
  impoff : Nat
  nimp : Nat
  nblock : Nat
  bad : Bool
  deriving DecidableEq, Repr

/-- Parse a JXM header. -/
def parseJxm (f : List Byte) : Jxm :=
  let w (o n : Nat) : Nat := ofBytes ((f.drop o).take n)
  ⟨w 8 8, w 0x10 4, w 0x14 4, w 0x18 4, w 0x1E 2, w 0x20 4,
    decide (f.length < 64) || w 0 4 != 0x314D584A || w 4 4 != 1 || w 0x10 4 % 64 != 0 || decide (f.length < w 8 8 + w 0x10 4) ||
      w 0x1C 2 != 0 || w 0x24 4 != 0 || w 0x30 16 != 0⟩

/-- Whether the loader refuses a module (R288, R289). -/
def moduleBad (step : Nat) (f : List Byte) (x : Jxm) : Bool :=
  let code := (f.drop x.codeoff).take x.codelen
  let w (o n : Nat) : Nat := ofBytes ((code.drop o).take n)
  let head := if x.manoff = 0 then 0x00020000 else w (64 * x.manoff) 4
  let n := head % 65536
  let es := (List.range n).map fun i => w (64 * x.manoff + 4 + 4 * i) 4
  let used := codeForms code x.manoff (4 + 4 * n)
  x.bad || (x.manoff != 0 && decide (x.codelen < 64 * x.manoff + 4 + 4 * n)) ||
    used.any (fun u => !(es.any fun e => nfld e 27 5 == u.1 && nfld e 16 11 == u.2)) || !(manifestOk step head es)

/-- Write bytes into a context's space, granule by granule, with eartag 0: `none` where a page does not take them. -/
def State.osWrite (s : State) (cid : Nat) (c : Context) (va : Nat) : List (List Byte) → Option State
  | [] => some s
  | g :: gs =>
    match s.transDev c va with
    | .hit h => (s.performWrite cid (va % 2 ^ 48) h.loc g 0 h.tagAddr).osWrite cid c (va + 16) gs
    | _ => none

/-- MODULE_LOAD (R286, R288, R289): the code section goes to offset `code` of the code space and the module's block
counters, all 0, to `bcbase`; the answer is 0, or 1 for a module the loader refuses. -/
def execModuleLoad (ctx code bcbase : Nat) (file : List Byte) (s : State) : Host.Outcome State Fault Refusal :=
  match s.serves, SMap.get? s.ctxs ctx with
  | true, some c =>
    let x := parseJxm file
    let bytes := (file.drop x.codeoff).take x.codelen
    if c.ended || code % 64 != 0 || bcbase % 16 != 0 then .refused (.cannotOccur "MODULE_LOAD")
    else if moduleBad s.chip.step file x then .next { s with answer := [1] }
    else match s.osWrite ctx c ((c.cspace + code) % 2 ^ 64) (grans bytes.length bytes) with
      | none => .refused (.cannotOccur "MODULE_LOAD")
      | some s1 =>
        match s1.osWrite ctx c bcbase (grans x.nblock (List.replicate (8 * x.nblock) 0)) with
        | none => .refused (.cannotOccur "MODULE_LOAD")
        | some s2 => .next { s2 with
            ctxs := SMap.mod s2.ctxs ctx fun c => { c with modules := c.modules ++ [⟨code, x.codelen, x.manoff, x.impoff, x.nimp, x.nblock, bcbase⟩] }
            answer := [0] }
  | _, _ => .refused (.cannotOccur "MODULE_LOAD")

/-! ## Host writes and snapshots (R273, R274) -/

/-- A write of bytes at a physical HBM address, inside one granule (R273): through the context's page that maps it the tag
word and the dirty bit are written with the bytes (log entry 27, DESIGN CHOICE). -/
def State.physWrite (s : State) (pa : Nat) (bs : List Byte) : State :=
  let at_ : Option (Nat × Nat × Trans) :=
    s.ctxs.findSome? fun e => if e.2.ended then none else (s.mapsOf e.2 pa).head?.map fun v => (e.1, v.1, s.transDev e.2 v.1)
  match at_ with
  | some (cid, va, .hit h) => s.performWrite cid va (.hbm pa) bs 0 h.tagAddr
  | _ => ({ s with mem := writeCells s.mem pa bs } : State).wakeMonitors (.hbm pa)

/-- Write bytes at a partition's physical addresses in runs that stay within a granule (R273); `none` past its frames. -/
def State.hostBytes (s : State) (p : Partition) : Nat → Nat → List Byte → Option State
  | 0, _, [] => some s
  | 0, _, _ => none
  | _, _, [] => some s
  | n + 1, a, bs =>
    match p.target a with
    | some (.hbm m, _) => (s.physWrite m (bs.take (16 - a % 16))).hostBytes p n (a + (16 - a % 16)) (bs.drop (16 - a % 16))
    | _ => none

/-- The partition, and the address in it, that `n` bytes at an offset of BAR2 name (R270): the frames of partition `part`, or
the window that system software has set for virtual device `via` of it (log entry 63, DESIGN CHOICE). -/
def State.bar2 (s : State) (part : Nat) (via : Option Nat) (addr n : Nat) : Option (Partition × Nat) :=
  match s.serves, SMap.get? s.parts part, via with
  | true, some p, none => if addr + n ≤ 2 ^ 40 then some (p, addr) else none
  | true, some p, some vd =>
    (match SMap.get? s.vdevs vd with
    | none => none
    | some v =>
      if v.part == part && decide (addr + n ≤ min v.window.2 (2 ^ 36)) && decide (v.window.1 + addr + n ≤ 2 ^ 40) then some (p, v.window.1 + addr)
      else none)
  | _, _, _ => none

/-- HOST_WRITE (R270, R273): a write through BAR2 of the partition's physical function, or of a virtual function (log entry
63, DESIGN CHOICE). -/
def execHostWrite (part addr : Nat) (data : List Byte) (via : Option Nat) (s : State) : Host.Outcome State Fault Refusal :=
  match s.bar2 part via addr data.length with
  | some (p, a) =>
    (match s.hostBytes p (data.length + 1) a data with
    | some s' => .next s'
    | none => .refused (.cannotOccur "HOST_WRITE"))
  | none => .refused (.cannotOccur "HOST_WRITE")

/-- The bytes of a context's write-tracking bitmap that are not 0: bitmap offset, location in memory and value (R274). -/
def State.dirtyBytes (s : State) (c : Context) : List (Nat × Nat × Byte) :=
  (List.range 8192).flatMap fun p =>
    match s.transDev c (c.dirty + 65536 * p) with
    | .hit h =>
      (match h.loc with
      | .hbm a => (s.mem.filter fun (e : Host.Cell) => decide (a ≤ e.1) && decide (e.1 < a + 65536)).map fun e => (65536 * p + (e.1 - a), e.1, e.2)
      | _ => [])
    | _ => []

/-- SNAPSHOT (R274): the set bits are recorded and cleared, and their units marked copy-on-write. -/
def execSnapshot (ctx : Nat) (s : State) : Host.Outcome State Fault Refusal :=
  match s.serves, SMap.get? s.ctxs ctx with
  | true, some c =>
    if c.ended || c.dirty = 0 then .refused (.cannotOccur "SNAPSHOT")
    else
      let bs := s.dirtyBytes c
      let units := bs.flatMap fun x => ((List.range 8).filter fun i => bit x.2.2 i).map fun i => 8 * x.1 + i
      .next { s with
        mem := bs.foldl (fun m x => SMap.setD m 0 x.2.1 0) s.mem
        ctxs := SMap.put s.ctxs ctx { c with snap := some ⟨units, [], units⟩ } }
  | _, _ => .refused (.cannotOccur "SNAPSHOT")

/-! ## Counters (R281) -/

/-- COUNTER_TRIGGER (R281): a trigger at tick T, at least 10,000 ticks from now. -/
def execCounterTrigger (tick : Nat) (s : State) : Host.Outcome State Fault Refusal :=
  if s.serves && s.triggerAt.isNone && decide (s.timebase + 10000 ≤ tick) && decide (tick < 2 ^ 64) then .next { s with triggerAt := some tick }
  else .refused (.cannotOccur "COUNTER_TRIGGER")

/-- COUNTER_LATCH (R281): the end of tick T, after exactly its events; the next tick begins. -/
def execCounterLatch (s : State) : Host.Outcome State Fault Refusal :=
  if s.triggerAt = some s.timebase then .next ((s.latch s.timebase).passTime 0 1) else .refused (.cannotOccur "COUNTER_LATCH")

/-- COUNTER_AUTO_TRIGGER (R281): the operating system's own interval, which system software sets, has passed; the latch
stands at the end of the tick. -/
def execCounterAutoTrigger (s : State) : Host.Outcome State Fault Refusal :=
  if s.serves && decide (s.chip.autoAt + s.chip.latchEvery ≤ s.timebase) then
    .next (({ s.latch s.timebase with triggerAt := s.triggerAt, chip := { s.chip with autoAt := s.timebase } } : State).passTime 0 1)
  else .refused (.cannotOccur "COUNTER_AUTO_TRIGGER")

/-! ## Errors (R250, R251) -/

/-- ECC_CORRECTED (R250): counted and logged by the operating system. -/
def execEccCorrected (_ : Pen) (s : State) : Host.Outcome State Fault Refusal :=
  if s.chip.powered then .next { s with chip := { s.chip with ecc := s.chip.ecc + 1 } } else .refused (.cannotOccur "ECC_CORRECTED")

/-- The context of a crew. -/
def State.crewCtx (s : State) (crew : Nat) : Option Nat := (SMap.get? s.crews crew).map (·.ctx)

/-- The page hit of a context's address. -/
def State.hitOf (s : State) (ctx va : Nat) : Option Hit :=
  match (SMap.get? s.ctxs ctx).map fun c => s.transDev c va with
  | some (.hit h) => some h
  | _ => none

/-- The entries of a path's queue at a core (R172, R250). -/
def State.pathQueue (s : State) (core path : Nat) : List Nat :=
  match path with
  | 0 => SMap.getD s.corePoint [] core
  | 1 => SMap.getD s.landing [] core
  | 2 => SMap.getD s.gatherQ [] core
  | _ => []

/-- A store entry becomes invalid: it leaves every queue (R251). -/
def State.voidStore (s : State) (n : Nat) : State :=
  match SMap.get? s.stores n with
  | none => s
  | some x =>
    ({ s with
      stores := SMap.del s.stores n
      threads := s.threads.map fun e => if e.2.fifo.contains n then (e.1, { e.2 with fifo := e.2.fifo.filter (· != n) }) else e
      corePoint := s.corePoint.map fun e => (e.1, e.2.filter (· != n))
      landing := s.landing.map fun e => (e.1, e.2.filter (· != n))
      gatherQ := s.gatherQ.map fun e => (e.1, e.2.filter (· != n)) } : State).opDone x.op

/-- A line of an L2 is lost and filled again from HBM5 (R136, R251): the bytes HBM5 does not hold alike are free (log
entry 76, DESIGN CHOICE). -/
def State.refillLine (s : State) (a : Nat) : State :=
  { s with mem := writeCells s.mem (a / 128 * 128) ((List.range 128).map fun i =>
      (Config.hbmBehind s.nextStore (a / 128 * 128 + i)).getD (SMap.getD s.mem 0 (a / 128 * 128 + i))) }

/-- The owner mark of a pen (R250), 0 the operating system's; `none` where the pen holds nothing (log entry 61, DEDUCED). -/
def State.penOwner (s : State) (pen : Pen) : Option Nat :=
  match pen with
  | .device => some 0
  | .thread u => (s.thread? u).bind fun t => s.crewCtx t.crew
  | .scrLine core line => (s.crewAt core (128 * line)).map fun c => c.2.ctx
  | .accTile core _ => (s.crews.find? fun e => e.2.core == core && e.2.placed && s.hasMatrix e.2).map fun e => e.2.ctx
  | .matrixEntry core i => ((SMap.getD s.matQ [] core)[i]?).map fun m => m.iss.ctx
  | .copyEntry i => (SMap.get? s.copies i).map fun c => c.iss.ctx
  | .storeEntry u i => ((((s.thread? u).map (·.fifo)).getD [])[i]?).bind fun n => (SMap.get? s.stores n).map (·.ctx)
  | .pathEntry core path i => ((s.pathQueue core path)[i]?).bind fun n => (SMap.get? s.stores n).map (·.ctx)
  | .armedEntry core i => ((SMap.getD s.armed [] core)[i]?).map fun a => a.copy.iss.ctx
  | .icacheLine core ctx addr => (SMap.get? s.icache (icKey core ctx addr)).map fun _ => ctx
  | .l1Line _ _ ctx va => (s.hitOf ctx va).map (·.owner)
  | .l2Line ctx va => (s.hitOf ctx va).map (·.owner)
  | .memGranule ctx va => (s.hitOf ctx va).map (·.owner)
  | .tlb1 core i => ((SMap.getD s.tlb1 [] core)[i]?).map (·.owner)
  | .lltlb die i => ((SMap.getD s.lltlb [] die)[i]?).map (·.owner)
  | .pailEntry quad i => ((SMap.getD s.pail [] quad)[i]?).map fun p => p.iss.ctx
  | .spawnBin quad i => (SMap.get? s.bins (quad * 16 + i)).map (·.ctx)
  | .predictor core i => (SMap.get? s.preds (predKey core i)).map (·.ctx)
  | .trigger core i => (SMap.get? s.triggers (trigKey core i)).map (·.ctx)
  | .crew u => s.crewCtx u
  | .posted i => (SMap.get? s.posted i).map (·.ctx)
  | .command k i => ((SMap.getD s.commands [] k)[i]?).map (·.ctx)
  | .staging ctx => (SMap.get? s.ctxs ctx).map fun _ => ctx
  | .graph ctx => (SMap.get? s.ctxs ctx).map fun _ => ctx

/-- Poison the entry (R251 step 1): a memory granule sets POISON; a copy of memory, a translation or a prediction is
dropped and refilled. Entries that hold a context's own state go with the context (log entry 61, DEDUCED). -/
def State.poisonPen (s : State) (pen : Pen) : State :=
  match pen with
  | .icacheLine core ctx addr => s.icDrop (icKey core ctx addr)
  | .l1Line core quad ctx va =>
    (match (s.hitOf ctx va).map Hit.loc with
    | some (.hbm a) => { s with l1 := SMap.del s.l1 (l1Key core quad a) }
    | _ => s)
  | .l2Line ctx va =>
    (match (s.hitOf ctx va).map Hit.loc with
    | some (.hbm a) => s.refillLine a
    | _ => s)
  | .storeEntry u i => (((((s.thread? u).map (·.fifo)).getD [])[i]?).map s.voidStore).getD s
  | .pathEntry core path i => (((s.pathQueue core path)[i]?).map s.voidStore).getD s
  | .memGranule ctx va =>
    (match (s.hitOf ctx va).bind Hit.tagAddr with
    | some t => s.setTagWord t (s.tagWord t ||| 0x80000000)
    | none => s)
  | .tlb1 core i => { s with tlb1 := SMap.mod s.tlb1 core fun l => l.eraseIdx i }
  | .lltlb die i => { s with lltlb := SMap.mod s.lltlb die fun l => l.eraseIdx i }
  | .predictor core i => { s with preds := SMap.del s.preds (predKey core i) }
  | .trigger core i => { s with triggers := SMap.del s.triggers (trigKey core i) }
  | .device => { s with chip := { s.chip with linkFailed := List.range 48, retries := [] } }
  | _ => s

/-- CAUSE of the log entries of an error (R253): the low word of the pen's on-chip map or physical address; 0 for a pen
without one. -/
def State.penCause (s : State) (pen : Pen) : Nat :=
  let core (ctx : Option Nat) (k : Nat) : Nat := match ctx.bind fun c => SMap.get? s.ctxs c with
    | some c => s.coreNumber c k
    | none => k
  match pen with
  | .thread u =>
    (match s.thread? u with
    | some t => (core (s.penOwner pen) t.core * 2 ^ 24 + 0x40000 * t.quad + 0x2000 * t.lane + 4 * t.rbase) % 2 ^ 32
    | none => 0)
  | .scrLine k line => (core (s.penOwner pen) k * 2 ^ 24 + 0x100000 + 128 * line) % 2 ^ 32
  | .accTile k tile => (core (s.penOwner pen) k * 2 ^ 24 + 0x180000 + 1024 * tile) % 2 ^ 32
  | .memGranule ctx va =>
    (match (s.hitOf ctx va).map Hit.loc with
    | some (.hbm a) => a % 2 ^ 32
    | _ => 0)
  | _ => 0

/-- UNCORRECTABLE_ERROR (R251): the entry is poisoned and every context that owns the pen ends; mark 0 ends every
context (log entry 61, DEDUCED). -/
def execUncorrectableError (pen : Pen) (s : State) : Host.Outcome State Fault Refusal :=
  match s.chip.powered, s.penOwner pen with
  | true, some o =>
    let cause := s.penCause pen
    let dead := (s.ctxs.filter fun c => !c.2.ended && (o == 0 || c.1 == o)).map (·.1)
    .next (dead.foldl (fun (s : State) c => s.endContext c cause) (s.poisonPen pen))
  | _, _ => .refused (.cannotOccur "UNCORRECTABLE_ERROR")

/-! ## What the host reads (R260, R271, R282) -/

/-- A partition's capability block (R260): 256 bytes. In the boot partition every field but STEP, PART and STATE reads 0
until bring-up writes it (R277) (log entry 65, DEDUCED). -/
def State.capBlock (s : State) (i : Nat) (p : Partition) : List Byte :=
  let st := s.partState p
  let head := toBytes 4 (s.chip.step * 2 ^ 24 + i * 256 + st)
  if st = 2 || (s.chip.boot && p.seq == 0) then head ++ List.replicate 252 0
  else
    let mine := p.cores.filter s.chip.released.contains
    let onDie (d : Nat) : Nat := (mine.filter fun c => dieOf c == d).length
    let ports := p.ports
    let onStacks := p.stacksOf
    head ++ toBytes 4 p.seq ++ (List.range 4).flatMap (fun d => toBytes 1 (onDie d)) ++ toBytes 4 (onStacks.length + ports.length * 256) ++
      (List.range 8).flatMap (fun k => match onStacks[k]? with
        | some x => toBytes 8 (s.chip.sst.getD x 0 * 2 ^ 62 + if s.chip.joined x then (Config.capacity p.frames x).toNat else 0)
        | none => toBytes 8 0) ++
      (List.range 48).flatMap (fun k => match ports[k]? with
        | some x => toBytes 1 (s.chip.width.getD x 0)
        | none => toBytes 1 0) ++
      toBytes 4 p.wsave ++ toBytes 4 mine.length ++ List.replicate 120 0

/-- Bytes the host reads through BAR2 (R270). -/
def State.bar2Read (s : State) (part : Nat) (via : Option Nat) (addr n : Nat) : Option (List Byte) :=
  (s.bar2 part via addr n).bind fun x => (List.range n).mapM fun i =>
    match x.1.target (x.2 + i) with
    | some (.hbm m, _) => some (SMap.getD s.mem 0 m)
    | _ => none

/-- The bytes of an item of a failure log (R190, R253). -/
def LogItem.bytes (x : LogItem) : List Byte :=
  match x with
  | .entry stamp type status ctx cause id where_ =>
    toBytes 8 stamp ++ toBytes 4 (type * 2 ^ 24 + status * 2 ^ 16 + ctx % 4096) ++ toBytes 4 cause ++ toBytes 8 id ++ toBytes 8 where_
  | .deadlock stamp ctx walk ents =>
    toBytes 8 stamp ++ toBytes 4 (ctx % 4096 * 2 ^ 16 + ents.length) ++ toBytes 4 0 ++ toBytes 8 walk ++ toBytes 8 0 ++
      ents.flatMap fun e => toBytes 8 e.2 ++ toBytes 8 e.1

/-- What the failure-log reader of a partition's physical function gives of a context (R253, R270). -/
def State.readLog (s : State) (part ctx : Nat) : List Byte :=
  match SMap.get? s.ctxs ctx with
  | none => []
  | some c => if ((SMap.get? s.vdevs c.vd).map (·.part)) == some part then c.log.flatMap LogItem.bytes else []

/-- The mailbox ring of a physical function as the host reads it back: the operating system's latest answer (R270; log
entry 63, DESIGN CHOICE). -/
def State.mailbox (s : State) : List Nat := s.answer

/-- The shadow a counter offset names, under partition numbering (R280, R282). -/
def State.shadowAt (s : State) (p : Partition) (o : Nat) : Nat :=
  let v (k : Nat) : Nat := SMap.getD s.shadows 0 k
  if o = 0 then s.latchSeq
  else if o = 8 then s.latchStamp
  else if 0x1000 ≤ o ∧ o < 0x31000 then
    let c := (o - 0x1000) / 0x400
    let x := (o - 0x1000) % 0x400
    match p.coreOf c with
    | none => 0
    | some k =>
      if x < 0x200 then (if x % 0x80 < 8 * 9 then v (cntQuad (quadKey k (x / 0x80)) (x % 0x80 / 8)) else 0)
      else if x < 0x200 + 8 * 9 then v (cntCore k ((x - 0x200) / 8)) else 0
  else if 0x31000 ≤ o ∧ o < 0x31000 + 0x100 then
    let d := (o - 0x31000) / 0x40
    let x := (o - 0x31000) % 0x40
    if x < 32 && p.cores.any (fun c => dieOf c == d) then v (cntDie d (x / 8)) else 0
  else if 0x32000 ≤ o ∧ o < 0x32000 + 0x200 then
    let x := (o - 0x32000) % 0x40
    match p.stacksOf[(o - 0x32000) / 0x40]? with
    | some k => if x < 24 then v (cntStack k (x / 8)) else 0
    | none => 0
  else if 0x33000 ≤ o ∧ o < 0x33000 + 0x600 then
    let x := (o - 0x33000) % 0x20
    match p.ports[(o - 0x33000) / 0x20]? with
    | some k => if x < 24 then v (cntPort k (x / 8)) else 0
    | none => 0
  else if 0x34000 ≤ o ∧ o < 0x34010 then v (cntIod ((o - 0x34000) / 8))
  else 0

/-- A register of a queue pair as the host reads it (R271): write-only and unlisted ones read 0. -/
def QueuePair.read (p : QueuePair) (off : Nat) : Nat :=
  match off with
  | 0x00 => p.sqbase
  | 0x0C => p.ctx
  | 0x10 => p.cqbase
  | 0x18 => p.cqlog * 16 + p.sqlog
  | 0x1C => p.vec
  | 0x24 => p.sqhead
  | 0x2C => p.cqtail
  | 0x30 => (if p.err then 2 else 0) + (if p.en then 1 else 0)
  | _ => 0

end Sys2Proof.Machine
end

