-- ==== Sys2Proof/Machine/MatrixOps.lean ====
section
/-! DEFINITION. The matrix engine: issue and vote (R115 to R118, R397, R398), the parameter block and its checks (R119 to
R122), products, checksums and top-k (R108 to R112, R123, R124, R129), ACCHK (R130, R131, R330, R442), accumulator moves
(R128, R331) and accumulator injection (R132, R382). -/

namespace Sys2Proof.Machine

/-! ## Formats (R117, R118) -/

/-- Bits of an operand element by its code (R117). -/
def matBits (c : Nat) : Nat :=
  match c with
  | 0 => 16
  | 1 => 16
  | 4 => 4
  | 6 => 4
  | _ => 8

/-- The value of a stored element (R98, R99). -/
def matVal (c x : Nat) : FVal :=
  match c with
  | 0 => fBF16.dec x
  | 1 => fF16.dec x
  | 2 => fE4M3.dec x
  | 3 => fE5M2.dec x
  | 4 => fE2M1.dec x
  | 5 => FVal.ofInt (sext 8 x)
  | _ => FVal.ofInt (sext 4 x)

/-- The fields of a format word. -/
structure MatFmt where
  a : Nat
  b : Nat
  scl : Nat
  grp : Nat
  spr : Nat
  deriving DecidableEq, Repr

/-- Read a format word (R117). -/
def matFmt (w : Word) : MatFmt := ⟨(fld w 16 4).toNat, (fld w 12 4).toNat, (fld w 10 2).toNat, (fld w 8 2).toNat, (fld w 6 2).toNat⟩

/-- Whether a format word is valid (R118). -/
def matFmtOk (w : Word) : Bool :=
  let f := matFmt w
  let fp8 (c : Nat) : Bool := c == 2 || c == 3
  fld w 20 12 == (0 : BitVec 12) && fld w 0 6 == (0 : BitVec 6) && decide (f.a ≤ 6) && decide (f.b ≤ 6) &&
  (f.a == f.b || (fp8 f.a && fp8 f.b)) && f.scl != 3 && (if f.scl == 2 then f.grp != 3 else f.grp == 0) &&
  (f.scl != 1 || (decide (2 ≤ f.a) && decide (f.a ≤ 4))) && (f.scl != 2 || decide (5 ≤ f.a))

/-- G (R117). -/
def MatFmt.group (f : MatFmt) : Nat := 32 * 2 ^ f.grp

/-- The unit of one contribution (R110). -/
def MatFmt.unit (f : MatFmt) : Nat :=
  if f.scl = 1 then 32
  else if f.scl = 2 then f.group
  else match f.a with
    | 0 => 16
    | 1 => 16
    | 4 => 64
    | 6 => 64
    | _ => 32

/-- Kept positions of every 24 (R117). -/
def MatFmt.kept (f : MatFmt) : Nat :=
  match f.spr with
  | 0 => 24
  | 1 => 6
  | 2 => 8
  | _ => 12

/-! ## The parameter block (R119) -/

/-- A parameter block by its words. -/
structure MatBlk where
  w : List Nat
  deriving DecidableEq, Repr

/-- The block of 128 bytes. -/
def matBlk (bs : List Byte) : MatBlk := ⟨(List.range 32).map fun i => ofBytes ((bs.drop (4 * i)).take 4)⟩

/-- Word `i`. -/
def MatBlk.word (b : MatBlk) (i : Nat) : Nat := b.w.getD i 0
/-- TKK. -/
def MatBlk.tkk (b : MatBlk) : Nat := nfld (b.word 0) 16 8
/-- TKDIR. -/
def MatBlk.tkdir (b : MatBlk) : Bool := (b.word 0).testBit 15
/-- TKV. -/
def MatBlk.tkv (b : MatBlk) : Bool := (b.word 0).testBit 13
/-- CHK. -/
def MatBlk.chk (b : MatBlk) : Bool := (b.word 0).testBit 11
/-- ACC. -/
def MatBlk.acc (b : MatBlk) : Bool := (b.word 0).testBit 10
/-- AGATH. -/
def MatBlk.agath (b : MatBlk) : Bool := (b.word 0).testBit 9
/-- MODE. -/
def MatBlk.mode (b : MatBlk) : Nat := b.word 0 % 4
/-- N. -/
def MatBlk.n (b : MatBlk) : Nat := nfld (b.word 1) 16 16
/-- M. -/
def MatBlk.m (b : MatBlk) : Nat := b.word 1 % 65536
/-- K. -/
def MatBlk.k (b : MatBlk) : Nat := b.word 2
/-- ACCT. -/
def MatBlk.acct (b : MatBlk) : Nat := b.word 3 % 256
/-- CKFMT. -/
def MatBlk.ckfmt (b : MatBlk) : Word := BitVec.ofNat 32 (b.word 17)

/-- The issuing position of a matrix operation: its crew's scratchpad. -/
structure MatEnv where
  core : Nat
  crew : Crew
  b : MatBlk
  f : MatFmt
  deriving DecidableEq, Repr

/-- A number of bytes of the crew's scratchpad. -/
def State.matNum (s : State) (x : MatEnv) (off n : Nat) : Nat := ofBytes (s.scrRead x.core (x.crew.phys off) n)

/-- The row number of A row `i` (R120). -/
def State.matRow (s : State) (x : MatEnv) (i : Nat) : Nat := if x.b.agath then s.matNum x (x.b.word 4 + 2 * i) 2 else i

/-- Bytes of an A row and of a B row (R120). -/
def MatEnv.aBytes (x : MatEnv) : Nat := x.b.k * matBits x.f.a / 8
/-- Bytes of a B row. -/
def MatEnv.bBytes (x : MatEnv) : Nat := x.b.k * x.f.kept / 24 * matBits x.f.b / 8

/-- Blocks or groups of a row (R120). -/
def MatEnv.blocks (x : MatEnv) : Nat := if x.f.scl = 0 then 0 else x.b.k / x.f.unit

/-- Where A row `i` lies. -/
def State.aRowAt (s : State) (x : MatEnv) (i : Nat) : Nat :=
  (if x.b.agath then x.b.word 6 else x.b.word 4) + s.matRow x i * x.b.word 5

/-- The runs of scratchpad an MMA reads, apart from its checksum area: first byte and length (R120) (log entry 33, DEDUCED). -/
def State.matReads (s : State) (x : MatEnv) : List (Nat × Nat) :=
  let b := x.b
  let nb := x.blocks
  (if b.agath then [(b.word 4, 2 * b.m)] else []) ++
  ((List.range b.m).map fun i => (s.aRowAt x i, x.aBytes)) ++
  ((List.range b.n).map fun j => (b.word 7 + j * b.word 8, x.bBytes)) ++
  (if x.f.spr = 0 then [] else [(b.word 9, 8 * (b.n * b.k / 24))]) ++
  (if x.f.scl = 0 then [] else
    ((List.range b.m).map fun i => (b.word 10 + 2 * (s.matRow x i * nb), 2 * nb)) ++ [(b.word 11, 2 * (b.n * nb))]) ++
  (if x.f.scl = 2 then [(b.word 12, b.n * nb)] else [])

/-- The checksum area (R120). -/
def MatBlk.ckRegion (b : MatBlk) : List (Nat × Nat) := if b.chk then [(b.word 13, 8 * (b.m + b.n))] else []

/-- The runs of top-k outputs (R124). -/
def MatBlk.topRegions (b : MatBlk) : List (Nat × Nat) :=
  (if b.tkk = 0 then [] else [(b.word 14, 2 * b.m * b.tkk)]) ++ (if b.tkk != 0 && b.tkv then [(b.word 15, 4 * b.m * b.tkk)] else [])

/-- Whether a run lies inside the crew's scratchpad. -/
def Crew.inside (c : Crew) (r : Nat × Nat) : Bool := decide (r.1 + r.2 ≤ 128 * c.lines)

/-- Whether the lines of some runs have copies in flight (R125). -/
def State.runsBusy (s : State) (core : Nat) (c : Crew) (rs : List (Nat × Nat)) : Bool :=
  rs.any fun r => (scrLines core (c.phys r.1) r.2).any fun l => SMap.getD s.pend 0 (l.1 * 4096 + l.2) != 0

/-! ## The checks at the head (R122) -/

/-- Check 1: reserved fields, MODE, AGBASE. -/
def MatBlk.bad1 (b : MatBlk) : Bool :=
  let w0 := b.word 0
  nfld w0 24 8 != 0 || w0.testBit 14 || w0.testBit 12 || nfld w0 2 7 != 0 || decide (2 ≤ b.mode) || (b.word 6 != 0 && !b.agath) ||
    nfld (b.word 3) 8 24 != 0 || nfld (b.word 16) 16 16 != 0 || (b.w.drop 18).any (· != 0)

/-- Check 2: M, N and K (R119). -/
def MatBlk.bad2 (b : MatBlk) (f : Option MatFmt) : Bool :=
  let dim (x : Nat) : Bool := decide (x < 16) || decide (256 < x) || x % 16 != 0
  dim b.m || dim b.n || b.k == 0 || decide (65536 < b.k) ||
  (match f with
    | none => false
    | some f => b.k % f.unit != 0 || (f.spr != 0 && b.k % 24 != 0))

/-- Check 3: the accumulator tiles. -/
def MatBlk.bad3 (b : MatBlk) : Bool := decide (256 < b.acct + b.m / 16 * (b.n / 16))

/-- Check 4 for an MMA: runs, alignments and strides (R120). The index vector is judged before the rows it names (log entry 33, DEDUCED). -/
def State.bad4 (s : State) (x : MatEnv) : Bool :=
  let b := x.b
  (b.agath && !x.crew.inside (b.word 4, 2 * b.m)) || !((s.matReads x ++ b.ckRegion ++ b.topRegions).all x.crew.inside) ||
  (if b.agath then b.word 6 else b.word 4) % 16 != 0 || b.word 7 % 16 != 0 || b.word 5 % 16 != 0 || b.word 8 % 16 != 0 ||
  decide (b.word 5 < x.aBytes) || decide (b.word 8 < x.bBytes) || (b.chk && b.word 13 % 16 != 0)

/-- The kept positions of a metadata word (R121). -/
def metaEntries (h w : Nat) : List Nat := (List.range h).map fun i => nfld w (5 * i) 5

/-- Strictly ascending. -/
def ascending : List Nat → Bool
  | x :: y :: l => decide (x < y) && ascending (y :: l)
  | _ => true

/-- Metadata word of row `j`, group `g` (R120). -/
def State.metaWord (s : State) (x : MatEnv) (j g : Nat) : Nat := s.matNum x (x.b.word 9 + 8 * (j * (x.b.k / 24) + g)) 8

/-- Check 5: metadata words and zero points (R121). -/
def State.bad5 (s : State) (x : MatEnv) : Bool :=
  let b := x.b
  let h := x.f.kept
  let badMeta (w : Nat) : Bool := w / 2 ^ (5 * h) != 0 || !ascending (metaEntries h w) || (metaEntries h w).any fun e => decide (24 ≤ e)
  (x.f.spr != 0 && (List.range b.n).any fun j => (List.range (b.k / 24)).any fun g => badMeta (s.metaWord x j g)) ||
  (x.f.scl == 2 && x.f.b == 6 && (List.range (b.n * x.blocks)).any fun i =>
    let z := sext 8 (s.matNum x (b.word 12 + i) 1)
    decide (z < -8) || decide (7 < z))

/-- Check 7: TKK. -/
def MatBlk.bad7 (b : MatBlk) : Bool := decide (64 < b.tkk) || decide (b.n < b.tkk)

/-- The first failing check of an MMA (R122). -/
def State.mmaFails (s : State) (x : MatEnv) : Option Nat :=
  if x.b.bad1 then some 1
  else if x.b.bad2 (some x.f) then some 2
  else if x.b.bad3 then some 3
  else if s.bad4 x then some 4
  else if s.bad5 x then some 5
  else if x.b.mode == 1 && (x.b.chk || x.f.scl == 2) then some 6
  else if x.b.bad7 then some 7
  else none

/-- The first failing check of an ACCHK (R122, R330): it uses the checksum area alone. -/
def acchkFails (c : Crew) (b : MatBlk) : Option Nat :=
  let ok := matFmtOk b.ckfmt
  let f := matFmt b.ckfmt
  if b.bad1 then some 1
  else if b.bad2 (if ok then some f else none) then some 2
  else if b.bad3 then some 3
  else if b.chk && (!c.inside (b.word 13, 8 * (b.m + b.n)) || b.word 13 % 16 != 0) then some 4
  else if b.mode == 1 && (b.chk || (ok && f.scl == 2)) then some 6
  else if b.bad7 then some 7
  else if !b.chk || !ok then some 8
  else none

/-! ## Operands -/

/-- An element or scale as stored, with its eartag and value. -/
structure MatElem where
  code : Nat
  tag : Tag
  v : FVal
  deriving DecidableEq, Repr

/-- Read `bits` bits of scratchpad, element `i` of a packed row (R99). -/
def State.matElem (s : State) (x : MatEnv) (row bits i : Nat) (val : Nat → FVal) : MatElem :=
  let o := row + i * bits / 8
  let c := s.matNum x o ((bits + 7) / 8) / 2 ^ (i * bits % 8) % 2 ^ bits
  ⟨c, SMap.getD s.scrTag 0 (granKey x.core (x.crew.phys o)), val c⟩

/-- One operand row: its elements, none at a dropped position, its scales and its zero points. -/
structure MatRow where
  es : List (Option MatElem)
  sc : List MatElem
  zp : List MatElem
  deriving DecidableEq, Repr

/-- The value of an element; a dropped position is an exact zero (R112). -/
def elemV (e : Option MatElem) : FVal := (e.map (·.v)).getD (.num false 0 0)

/-- The scale format of an operation (R120). -/
def MatEnv.scaleVal (x : MatEnv) (c : Nat) : FVal := if x.f.scl = 2 then fF16.dec c else fBF16.dec c

/-- A row (R120). -/
def State.aRow (s : State) (x : MatEnv) (i : Nat) : MatRow :=
  let at_ := s.aRowAt x i
  ⟨(List.range x.b.k).map fun k => some (s.matElem x at_ (matBits x.f.a) k (matVal x.f.a)),
    (List.range x.blocks).map fun b => s.matElem x (x.b.word 10 + 2 * (s.matRow x i * x.blocks)) 16 b x.scaleVal, []⟩

/-- The place of position `k` among the kept elements of a sparse row, if it is kept (R121). -/
def State.keptAt (s : State) (x : MatEnv) (j k : Nat) : Option Nat :=
  if x.f.spr = 0 then some k
  else
    let h := x.f.kept
    ((metaEntries h (s.metaWord x j (k / 24))).idxOf? (k % 24)).map fun i => k / 24 * h + i

/-- B row (R120, R121). -/
def State.bRow (s : State) (x : MatEnv) (j : Nat) : MatRow :=
  let at_ := x.b.word 7 + j * x.b.word 8
  ⟨(List.range x.b.k).map fun k => (s.keptAt x j k).map fun i => s.matElem x at_ (matBits x.f.b) i (matVal x.f.b),
    (List.range x.blocks).map fun b => s.matElem x (x.b.word 11 + 2 * (j * x.blocks)) 16 b x.scaleVal,
    if x.f.scl = 2 then (List.range x.blocks).map fun b => s.matElem x (x.b.word 12 + j * x.blocks) 8 b (fun c => FVal.ofInt (sext 8 c)) else []⟩

/-! ## Contributions and elements (R108 to R112, R123) -/

/-- A value with its sign turned. -/
def FVal.negate : FVal → FVal
  | .nan => .nan
  | .inf n => .inf (!n)
  | .num n m e => .num (!n) m e

/-- A value without its sign. -/
def FVal.abs : FVal → FVal
  | .nan => .nan
  | .inf _ => .inf false
  | .num _ m e => .num false m e

/-- The value of a B element before its scale: a code less its zero point (R109). -/
def MatRow.bVal (r : MatRow) (f : MatFmt) (k : Nat) : FVal :=
  let v := elemV (r.es.getD k none)
  match r.zp[k / f.group]? with
  | none => v
  | some z => if (r.es.getD k none).isNone then v else fsum [v, z.v.negate]

/-- The scale of a unit, 1 when unscaled. -/
def MatRow.scale (r : MatRow) (u : Nat) : FVal := ((r.sc[u]?).map (·.v)).getD (.num false 1 0)

/-- A value without the magnitude that makes it infinite or no number. -/
def FVal.unitOf : FVal → FVal
  | .nan => .num false 1 0
  | .inf n => .num n 1 0
  | v => v

/-- Two scales times an exact value (R108): with both finite, a zero scale gives an exact zero whatever the value; an infinite
or NaN scale propagates by the IEEE rules (log entry 84, DEDUCED). -/
def scaleBy (sa sb v : FVal) : FVal :=
  (sa.mul sb).mul (if (sa.isZero || sb.isZero) && sa.isFin && sb.isFin then v.unitOf else v)

/-- The exact sum of a unit's products (R109, R110): of integer codes it is an integer, whose zero is +0. -/
def MatFmt.total (f : MatFmt) (v : FVal) : FVal := if 5 ≤ f.a ∧ v.isZero = true then .num false 0 0 else v

/-- The exact contribution of unit `u` (R108 to R110, R112), before its rounding (log entry 84, DEDUCED). -/
def matUnit (f : MatFmt) (mode : Nat) (a b : MatRow) (u : Nat) : FVal :=
  let ks := (List.range f.unit).map (u * f.unit + ·)
  let one : FVal := .num false 1 0
  if mode = 0 then
    scaleBy (a.scale u) (b.scale u) (f.total (fsum (ks.map fun k => (elemV (a.es.getD k none)).mul (b.bVal f k))))
  else fsum (ks.map fun k =>
    let d := fsum [scaleBy (a.scale u) one (elemV (a.es.getD k none)), (scaleBy (b.scale u) one (b.bVal f k)).negate]
    d.mul d)

/-- Add a contribution to the accumulator: two roundings (R110). -/
def addUnit (acc : Nat) (c : FVal) : Nat := fF32.round (fsum [fF32.dec acc, fF32.dec (fF32.round c)])

/-- The accumulator after unit 0, 1, …, with the value before each (R123). -/
def accRun (f : MatFmt) (mode : Nat) (a b : MatRow) (start n : Nat) : List Nat :=
  ((List.range n).foldl (fun (r : Nat × List Nat) u =>
    let x := addUnit r.1 (matUnit f mode a b u)
    (x, r.2 ++ [x])) (start, [start])).2

/-- The contributors of an element in the order of R83, without the starting accumulator. -/
def contributors (f : MatFmt) (k : Nat) (a b : MatRow) : List MatElem :=
  (List.range k).flatMap fun i =>
    (a.es.getD i none).toList ++ (b.es.getD i none).toList ++
    (if f.scl != 0 && i % f.unit == 0 then (a.sc[i / f.unit]?).toList ++ (b.sc[i / f.unit]?).toList ++ (b.zp[i / f.unit]?).toList else [])

/-- A result element: accumulator index, bits, eartag without a birth, birth kind and record. -/
structure MatRes where
  ix : Nat
  bits : Nat
  tag : Tag
  kind : Nat
  bops : BirthOps
  deriving DecidableEq, Repr

/-- Up to three contributors as a record's operands (R84). -/
def bopsOf (l : List (Nat × Tag)) : BirthOps :=
  let x (i : Nat) : Nat × Tag := l.getD i (0, 0)
  ⟨BitVec.ofNat 32 (x 0).1, BitVec.ofNat 32 (x 1).1, BitVec.ofNat 32 (x 2).1, (x 0).2, (x 1).2, (x 2).2⟩

/-- The index of the first unit after which the accumulator is not finite (R84) (log entry 69, DEDUCED). -/
def firstBad (run : List Nat) : Nat := ((run.drop 1).takeWhile fun x => (fF32.dec x).isFin).length

/-- Compute element (i, j) (R83, R84, R111, R123) (log entry 69, DEDUCED). -/
def State.matResult (s : State) (x : MatEnv) (own : Tag) (a b : MatRow) (i j : Nat) : MatRes :=
  let tile := x.b.acct + i / 16 * (x.b.n / 16) + j / 16
  let ix := tile * 256 + i % 16 * 16 + j % 16
  let start := SMap.getD s.acc Reg.zero (accKey x.core ix)
  let sv := if x.b.acc then start.val.toNat else 0
  let run := accRun x.f x.b.mode a b sv (x.b.k / x.f.unit)
  let r := run.getLastD 0
  let first : MatElem := ⟨sv, start.tag, fF32.dec sv⟩
  let cs := contributors x.f x.b.k a b ++ (if x.b.acc then [first] else [])
  let kind := fF32.birthKind r (cs.map (·.v))
  let bad := cs.filter fun c => !c.v.isFin
  let u := firstBad run
  let k := u * x.f.unit
  let e0 (e : Option MatElem) : Nat × Tag := ((e.map fun y => (y.code, y.tag))).getD (0, 0)
  let rec_ := if bad.isEmpty then
      [e0 (a.es.getD k none), e0 (b.es.getD k none), (run.getD u 0, if x.b.acc then start.tag else own)]
    else bad.map fun c => (c.code, c.tag)
  ⟨ix, r, ((cs.find? fun c => isA c.tag).map (·.tag)).getD own, kind, bopsOf rec_⟩

/-! ## Checksums (R129) -/

/-- One checksum value: the units of a row against exact sums of the other operand's column (R129). -/
def ckVec (f : MatFmt) (k : Nat) (vals sums : List FVal) (scale : Nat → FVal) : Nat :=
  (List.range (k / f.unit)).foldl (fun acc u =>
    let ks := (List.range f.unit).map (u * f.unit + ·)
    let z : FVal := .num false 0 0
    addUnit acc (scaleBy (scale u) (.num false 1 0) (f.total (fsum (ks.map fun i => (vals.getD i z).mul (sums.getD i z)))))) 0

/-- The scaled value of an element of a row, or its magnitude (R129). -/
def MatRow.scaled (r : MatRow) (f : MatFmt) (mag : Bool) (k : Nat) : FVal :=
  let v := r.bVal f k
  let c := if f.scl = 0 then .num false 1 0 else r.scale (k / f.unit)
  if mag then scaleBy c.abs (.num false 1 0) v.abs else scaleBy c (.num false 1 0) v

/-- The values of a row before its scales, or their magnitudes. -/
def MatRow.plain (r : MatRow) (f : MatFmt) (k : Nat) (mag : Bool) : List FVal :=
  (List.range k).map fun i => if mag then (r.bVal f i).abs else r.bVal f i

/-- The exact sums over rows of each position (R129). -/
def sumOver (rs : List MatRow) (f : MatFmt) (k : Nat) (mag : Bool) : List FVal :=
  (List.range k).map fun i => fsum (rs.map fun r => r.scaled f mag i)

/-- A checksum of one row. -/
def rowCk (f : MatFmt) (k : Nat) (mag : Bool) (sums : List FVal) (r : MatRow) : Nat :=
  ckVec f k (r.plain f k mag) sums fun u => if mag then (r.scale u).abs else r.scale u

/-- The four vectors, one after another (R129). -/
def checksums (f : MatFmt) (k : Nat) (as bs : List MatRow) : List Nat :=
  let part (mag : Bool) : List Nat :=
    as.map (rowCk f k mag (sumOver bs f k mag)) ++ bs.map (rowCk f k mag (sumOver as f k mag))
  part false ++ part true

/-- The contributors of the checksums of some A rows and some B rows, in the order of R83 (log entry 31, DESIGN CHOICE). -/
def ckContributors (f : MatFmt) (k : Nat) (as bs : List MatRow) : List MatElem :=
  (List.range k).flatMap fun i =>
    (as.flatMap fun r => (r.es.getD i none).toList) ++ (bs.flatMap fun r => (r.es.getD i none).toList) ++
    (if f.scl != 0 && i % f.unit == 0 then
      (as.flatMap fun r => (r.sc[i / f.unit]?).toList) ++ (bs.flatMap fun r => (r.sc[i / f.unit]?).toList) ++
        (bs.flatMap fun r => (r.zp[i / f.unit]?).toList)
    else [])

/-! ## Writes of the engine -/

/-- Write scratchpad bytes of the crew with an eartag (R82, R126): a whole granule replaces its eartag. -/
def State.matWrite (s : State) (x : MatEnv) (off : Nat) (bs : List Byte) (g : Tag) : State :=
  let l := Loc.scr x.core (x.crew.phys off)
  ((s.writeLoc l bs g none (bs.length == 16)).wakeMonitors l.gran).barRetest l

/-- Write the checksum area granule by granule (R129): with ACC = 1 each value is added to the area's (log entry 31, DESIGN CHOICE). -/
def State.writeChecksums (s : State) (x : MatEnv) (own : Tag) (as bs : List MatRow) : State :=
  let vals := checksums x.f x.b.k as bs
  let m := x.b.m
  let n := x.b.n
  (List.range (vals.length / 4)).foldl (fun (s : State) g =>
    let off := x.b.word 13 + 16 * g
    let old := SMap.getD s.scrTag 0 (granKey x.core (x.crew.phys off))
    let i := 4 * g % (m + n)
    let cs := if i < m then ckContributors x.f x.b.k ((as.drop i).take 4) bs else ckContributors x.f x.b.k as ((bs.drop (i - m)).take 4)
    let tag := match cs.find? fun c => isA c.tag with
      | some c => c.tag
      | none => if x.b.acc && isA old then old else own
    let one (q : Nat) : List Byte :=
      let v := vals.getD (4 * g + q) 0
      toBytes 4 (if x.b.acc then fF32.round (fsum [fF32.dec (s.matNum x (off + 4 * q) 4), fF32.dec v]) else v)
    s.matWrite x off ((List.range 4).flatMap one) tag) s

/-! ## Top-k (R124) -/

/-- Whether column value `a` comes before `b`: NaN after every number, equal values keep their order. -/
def topBefore (largest : Bool) (a b : FVal) : Bool :=
  if a.isNaN then false
  else if b.isNaN then true
  else if largest then decide (fcompare false b a < 0) else decide (fcompare false a b < 0)

/-- Insert a column after every column that does not come after it. -/
def topInsert (largest : Bool) (x : Nat × Reg) : List (Nat × Reg) → List (Nat × Reg)
  | [] => [x]
  | y :: l => if topBefore largest (fF32.dec x.2.val.toNat) (fF32.dec y.2.val.toNat) then x :: y :: l else y :: topInsert largest x l

/-- The columns of a row in order. -/
def topOrder (largest : Bool) (l : List (Nat × Reg)) : List (Nat × Reg) := l.foldl (fun acc x => topInsert largest x acc) []

/-- Write scratchpad bytes of the crew from any offset on, granule by granule (R82). -/
def State.matPut (s : State) (x : MatEnv) (off : Nat) (bs : List Byte) (g : Tag) : State :=
  let n := 16 - off % 16
  if bs.length ≤ n then s.matWrite x off bs g else (s.matWrite x off (bs.take n) g).matWrite x (off + n) (bs.drop n) g

/-- The granules of scratchpad bytes take an eartag. -/
def State.matRetag (s : State) (x : MatEnv) (off n : Nat) (g : Tag) : State :=
  (List.range n).foldl (fun (s : State) i => { s with scrTag := SMap.setD s.scrTag 0 (granKey x.core (x.crew.phys (off + i))) g }) s

/-- Write the selection of every row (R124): indices with the MMA's eartag, values with their elements'. Their places need no
alignment (log entry 33, DEDUCED). -/
def State.writeTop (s : State) (x : MatEnv) (own : Tag) : State :=
  let b := x.b
  if b.tkk = 0 then s
  else
    let el (i j : Nat) : Reg :=
      SMap.getD s.acc Reg.zero (accKey x.core ((b.acct + i / 16 * (b.n / 16) + j / 16) * 256 + i % 16 * 16 + j % 16))
    (List.range b.m).foldl (fun (s : State) i =>
      let o := topOrder b.tkdir ((List.range b.n).map fun j => (j, el i j))
      (List.range b.tkk).foldl (fun (s : State) r =>
        let y := o.getD r (0, Reg.zero)
        let at_ := b.word 14 + 2 * (i * b.tkk + r)
        let s := (s.matPut x at_ (toBytes 2 (b.word 16 + y.1)) own).matRetag x at_ 2 own
        if b.tkv then s.matPut x (b.word 15 + 4 * (i * b.tkk + r)) (toBytes 4 y.2.val.toNat) y.2.tag else s) s) s

/-! ## Completing an MMA -/

/-- The eartag of an operation's issuing instruction (R74). -/
def MatOp.own (m : MatOp) : Tag := siteTag m.iss.site (m.iss.ord % 256)

/-- Write the result elements; every born one takes the operation's single record (R84). -/
def State.writeResults (s : State) (x : MatEnv) (m : MatOp) (rs : List MatRes) : State :=
  let b := match rs.find? fun r => r.kind != 0 with
    | none => (s, (0 : Tag))
    | some r => s.birth m.iss r.kind r.bops true false
  rs.foldl (fun (s : State) r =>
    { s with acc := SMap.setD s.acc Reg.zero (accKey x.core r.ix) ⟨BitVec.ofNat 32 r.bits, if r.kind = 0 then r.tag else b.2⟩ }) b.1

/-- The scratchpad as a checked operation reads it: its index vector, metadata and zero points as they were at the head (R122). -/
def State.atHead (s : State) (m : MatOp) : State :=
  { s with
    scr := m.head.foldl (fun r e => SMap.setD r 0 e.1 e.2) s.scr
    scrTag := m.headTag.foldl (fun r e => SMap.setD r 0 e.1 e.2) s.scrTag }

/-- The effect of an MMA (R123, R124, R129): every read before any write. -/
def State.runMma (s : State) (x : MatEnv) (m : MatOp) : State :=
  let as := (List.range x.b.m).map ((s.atHead m).aRow x)
  let bs := (List.range x.b.n).map ((s.atHead m).bRow x)
  let rs := (as.zipIdx).flatMap fun a => (bs.zipIdx).map fun b => s.matResult x m.own a.1 b.1 a.2 b.2
  let s := s.writeResults x m rs
  let s := if x.b.chk then s.writeChecksums x m.own as bs else s
  s.writeTop x m.own

/-! ## ACCHK (R130, R131, R442) -/

/-- A line of the check: whether it fails, its residue and its tolerance. -/
structure CkLine where
  fails : Bool
  res : FVal
  tol : FVal
  deriving DecidableEq, Repr

/-- Judge one line: the sum of its elements against its checksum and magnitude (R130). -/
def ckLine (u : Nat) (els : List FVal) (ck mag : Nat) : CkLine :=
  let sum := fF32.dec (fF32.round (fsum els))
  let r := fF32.dec ck
  let m := fF32.dec mag
  let res := fsum [sum, r.negate]
  let tol := (FVal.num false (4 * u + 2) (-24)).mul m
  let fin := sum.isFin && r.isFin && res.isFin && m.isFin && tol.isFin
  ⟨!fin || decide (fcompare false tol res.abs < 0), res, tol⟩

/-- The accumulator element (i, j) of the block. -/
def State.ckElem (s : State) (x : MatEnv) (i j : Nat) : Nat :=
  accKey x.core ((x.b.acct + i / 16 * (x.b.n / 16) + j / 16) * 256 + i % 16 * 16 + j % 16)

/-- The value of an accumulator element. -/
def State.ckVal (s : State) (x : MatEnv) (i j : Nat) : FVal := fF32.dec (SMap.getD s.acc Reg.zero (s.ckElem x i j)).val.toNat

/-- The rows and the columns of the check (R130). -/
def State.ckLines (s : State) (x : MatEnv) : List CkLine × List CkLine :=
  let b := x.b
  let u := b.k / x.f.unit
  let at_ (i : Nat) : Nat := s.matNum x (b.word 13 + 4 * i) 4
  ((List.range b.m).map fun i => ckLine u ((List.range b.n).map fun j => s.ckVal x i j) (at_ i) (at_ (b.m + b.n + i)),
    (List.range b.n).map fun j => ckLine u ((List.range b.m).map fun i => s.ckVal x i j) (at_ (b.m + j)) (at_ (2 * b.m + b.n + j)))

/-- The numbers of the failing lines. -/
def failing (l : List CkLine) : List Nat := (l.zipIdx.filter fun x => x.1.fails).map (·.2)

/-- The status word of ACCHK (R130). -/
def ckStatus (outcome row col n : Nat) : Word := BitVec.ofNat 32 (outcome * 2 ^ 30 + row * 2 ^ 16 + col * 2 ^ 8 + min n 255)

/-- A matrix-check record's AUX (R442). -/
def ckAux (row col : Option Nat) : Nat :=
  (match row with | none => 0 | some r => 2 ^ 17 + r * 2 ^ 8) + (match col with | none => 0 | some c => 2 ^ 16 + c)

/-- Records of the failing lines (R442): the trap is taken with the first, at the issuing lane's next clause boundary (log entry 85, DESIGN CHOICE). -/
def State.ckRecords (s : State) (m : MatOp) (rows cols : List Nat) : State :=
  let trs : List Trap := (rows.map fun r => { num := 16, cause := 2, addr := m.addr, aux := ckAux (some r) none }) ++
    cols.map fun c => { num := 16, cause := 2, addr := m.addr, aux := ckAux none (some c) }
  let r := trs.foldl (fun (acc : State × List (Nat × Trap)) t =>
    let r := acc.1.faultRecord m.iss t (2 ^ m.iss.lane) false true
    (r.1, acc.2 ++ [(r.2, t)])) (s, [])
  r.1.modThread m.iss.uid fun th => { th with bndTraps := th.bndTraps ++ r.2.take 1 }

/-- Write ACCHK's status word to every lane of its group that still runs (R330). -/
def State.ckWrite (s : State) (m : MatOp) (d : List (Nat × Nat)) (w : Word) : State :=
  d.foldl (fun (s : State) x =>
    match s.thread? x.1 with
    | some t => if t.status == .draining then s else s.landRegs x.1 m.number x.2 [⟨w, m.own⟩]
    | none => s) s

/-- The effect of ACCHK (R130, R131). -/
def State.runAcchk (s : State) (x : MatEnv) (m : MatOp) (d : List (Nat × Nat)) : State :=
  let l := s.ckLines x
  let rows := failing l.1
  let cols := failing l.2
  let n := rows.length + cols.length
  let dflt : CkLine := ⟨false, .nan, .nan⟩
  match rows, cols with
  | [], [] => s.ckWrite m d (ckStatus 0 0 0 0)
  | [i], [j] =>
    let r := l.1.getD i dflt
    let c := l.2.getD j dflt
    let fin := r.res.isFin && r.tol.isFin && c.res.isFin && c.tol.isFin
    let near := !decide (fcompare false (fsum [r.tol, c.tol]) (fsum [r.res, c.res.negate]).abs < 0)
    if fin && near then
      let k := s.ckElem x i j
      let old := SMap.getD s.acc Reg.zero k
      let new := fF32.round (fsum [fF32.dec old.val.toNat, r.res.negate])
      let s := (s.faultRecord m.iss { num := 16, cause := 1, addr := m.addr, tag := old.tag, aux := ckAux (some i) (some j) } 0 false true).1
      ({ s with acc := SMap.setD s.acc Reg.zero k ⟨BitVec.ofNat 32 new, m.own⟩ } : State).ckWrite m d (ckStatus 1 i j n)
    else (s.ckRecords m rows cols).ckWrite m d (ckStatus 2 i j n)
  | _, _ => (s.ckRecords m rows cols).ckWrite m d (ckStatus 2 (rows.headD 0) (cols.headD 0) n)

/-! ## Accumulator moves (R128) -/

/-- ACCLD: a tile from a scratchpad image; each element takes its granule's eartag. -/
def State.runAccld (s : State) (x : MatEnv) (m : MatOp) (tile : Nat) : State :=
  (List.range 256).foldl (fun (s : State) i =>
    let v := s.matNum x (m.addr + 4 * i) 4
    let g := SMap.getD s.scrTag 0 (granKey x.core (x.crew.phys (m.addr + 4 * i)))
    { s with acc := SMap.setD s.acc Reg.zero (accKey x.core (tile * 256 + i)) ⟨BitVec.ofNat 32 v, g⟩ }) s

/-- ACCST of one granule: its elements from `i` on, `n` of them (R82, R84, R128). -/
def State.accstGran (s : State) (x : MatEnv) (m : MatOp) (bf : Bool) (tile i n : Nat) : State :=
  let els := (List.range n).map fun j => SMap.getD s.acc Reg.zero (accKey x.core (tile * 256 + i + j))
  let conv := els.map fun r => if bf then fBF16.narrow 0 false (fF32.dec r.val.toNat) else ⟨r.val.toNat, 0⟩
  let pairs := els.zip conv
  let b := match pairs.find? fun p => p.2.kind == 2 with
    | none => (s, (0 : Tag))
    | some p => s.birth m.iss 2 { va := p.1.val, ta := p.1.tag } true false
  let tags := pairs.map fun p => if p.2.kind == 2 then b.2 else p.1.tag
  let g := ((tags.find? isA)).getD (tags.headD 0)
  b.1.matWrite x (m.addr + i * (16 / n)) (conv.flatMap fun c => toBytes (16 / n) c.code) g

/-- ACCST: a scratchpad image from a tile. -/
def State.runAccst (s : State) (x : MatEnv) (m : MatOp) (bf : Bool) (tile : Nat) : State :=
  let n := if bf then 8 else 4
  (List.range (256 / n)).foldl (fun (s : State) g => s.accstGran x m bf tile (n * g) n) s

/-- ACCZ. -/
def State.runAccz (s : State) (core : Nat) (m : MatOp) (tile n : Nat) : State :=
  (List.range (256 * n)).foldl (fun (s : State) i =>
    { s with acc := SMap.setD s.acc Reg.zero (accKey core (tile * 256 + i)) ⟨0, m.own⟩ }) s

/-- INJECT.acc (R132) (log entry 70, DEDUCED). -/
def State.runInject (s : State) (core : Nat) (m : MatOp) (tile elt bitv : Nat) (tb : Tag) : State :=
  let k := accKey core (tile * 256 + elt)
  let old := SMap.getD s.acc Reg.zero k
  let new := old.val ^^^ BitVec.ofNat 32 (2 ^ bitv)
  let b := s.birth m.iss 7 { va := old.val, vb := BitVec.ofNat 32 bitv, vc := new, ta := old.tag, tb := tb } true false
  { b.1 with acc := SMap.setD b.1.acc Reg.zero k ⟨new, b.2⟩ }

/-! ## The queue (R115, R122, R126) -/

/-- The first operation of a core's matrix queue. -/
def State.matHead (s : State) (core : Nat) : Option (MatOp × List MatOp) :=
  match SMap.getD s.matQ [] core with
  | [] => none
  | m :: rest => some (m, rest)

/-- The head operation leaves the queue; its flag clears. -/
def State.matPop (s : State) (core : Nat) (m : MatOp) (rest : List MatOp) : State :=
  (({ s with matQ := SMap.setD s.matQ [] core rest } : State).opDone m.op).settleCrew m.iss.crew

/-- An aborted operation (R122): one fault record, and the issuing lane takes the trap at its next clause boundary (log entry 85, DESIGN CHOICE). -/
def State.matAbort (s : State) (core : Nat) (m : MatOp) (rest : List MatOp) (cause : Nat) : State :=
  let t : Trap := { num := 15, cause := cause, addr := m.addr }
  let r := s.faultRecord m.iss t (2 ^ m.iss.lane) false true
  (r.1.modThread m.iss.uid fun th => { th with bndTraps := th.bndTraps ++ [(r.2, t)] }).matPop core m rest

/-- Whether an offset names `n` bytes of the crew's scratchpad (R331, R397). -/
def Crew.imageOk (c : Crew) (a n : Nat) : Bool := a % 16 == 0 && decide (a < 2 ^ 19) && c.inside (a, n)

/-- The environment of a block operation. -/
def MatOp.env (m : MatOp) (core : Nat) (c : Crew) (b : List Byte) : MatEnv :=
  let blk := matBlk b
  ⟨core, c, blk, match m.kind with
    | .mma f => matFmt f
    | _ => matFmt blk.ckfmt⟩

/-- The runs the head of an MMA reads besides its block: index vector, metadata, zero points. -/
def MatEnv.headRuns (x : MatEnv) : List (Nat × Nat) :=
  ((if x.b.agath then [(x.b.word 4, 2 * x.b.m)] else []) ++ (if x.f.spr = 0 then [] else [(x.b.word 9, 8 * (x.b.n * x.b.k / 24))]) ++
    (if x.f.scl = 2 then [(x.b.word 12, x.b.n * x.blocks)] else [])).filter x.crew.inside

/-- What the head comes to: it waits, aborts with a cause, or is ready with the block read. -/
inductive HeadRes where
  | wait
  | abort (cause : Nat)
  | ready (block : List Byte)

/-- Judge the head operation (R122, R330, R331) (log entry 85, DESIGN CHOICE). -/
def State.headJudge (s : State) (core : Nat) (c : Crew) (m : MatOp) : HeadRes :=
  let blk (f : MatEnv → HeadRes) : HeadRes :=
    if !c.imageOk m.addr 128 then .abort 4
    else if s.runsBusy core c [(m.addr, 128)] then .wait
    else f (m.env core c (s.scrRead core (c.phys m.addr) 128))
  match m.kind with
  | .mma _ => blk fun x =>
    if s.runsBusy core c x.headRuns then .wait
    else match s.mmaFails x with
      | some n => .abort n
      | none => .ready (s.scrRead core (c.phys m.addr) 128)
  | .acchk _ => blk fun x =>
    match acchkFails c x.b with
    | some n => .abort n
    | none => .ready (s.scrRead core (c.phys m.addr) 128)
  | .accld _ => if c.imageOk m.addr 1024 then .ready [] else .abort 4
  | .accst bf _ => if c.imageOk m.addr (if bf then 512 else 1024) then .ready [] else .abort 4
  | .accz t n => if t + n ≤ 256 then .ready [] else .abort 3
  | .inject _ e b _ => if 255 < e || decide (32 ≤ b) then .abort 9 else .ready []

/-- What the head of an operation reads besides its block, by its physical bytes and granules. -/
def State.headCopy (s : State) (core : Nat) (c : Crew) (m : MatOp) (b : List Byte) : SMap Byte × SMap Tag :=
  let runs := match m.kind with
    | .mma _ => (m.env core c b).headRuns
    | _ => []
  let at_ := runs.flatMap fun r => (List.range r.2).map fun i => c.phys (r.1 + i)
  (at_.map fun a => (scrKey core a, SMap.getD s.scr 0 (scrKey core a)), (at_.map fun a => (granKey core a, SMap.getD s.scrTag 0 (granKey core a))).eraseDups)

/-- MATRIX_OP_HEAD (R122): the head operation's block, index vector, metadata and zero points are read and checked. -/
def execMatrixOpHead (core : Nat) (s : State) : Host.Outcome State Fault Refusal :=
  match s.matHead core with
  | none => .refused (.cannotOccur "MATRIX_OP_HEAD")
  | some (m, rest) =>
    match m.block, SMap.get? s.crews m.iss.crew with
    | none, some c =>
      match s.headJudge core c m with
      | .wait => .refused (.cannotOccur "MATRIX_OP_HEAD")
      | .abort n => if s.engineWaits m.iss.uid then .refused (.cannotOccur "MATRIX_OP_HEAD") else .next (s.engineStep (s.matAbort core m rest n))
      | .ready b =>
        let h := s.headCopy core c m b
        .next { s with matQ := SMap.put s.matQ core ({ m with block := some b, head := h.1, headTag := h.2 } :: rest) }
    | _, _ => .refused (.cannotOccur "MATRIX_OP_HEAD")

/-- The runs a checked operation reads (R125). -/
def State.opRuns (s : State) (core : Nat) (c : Crew) (m : MatOp) (b : List Byte) : List (Nat × Nat) :=
  let x := m.env core c b
  match m.kind with
  | .mma _ => (s.atHead m).matReads x ++ if x.b.acc then x.b.ckRegion else []
  | .acchk _ => [(x.b.word 13, 8 * (x.b.m + x.b.n))]
  | .accld _ => [(m.addr, 1024)]
  | _ => []

/-- The effect of a checked operation. -/
def State.runMat (s : State) (core : Nat) (c : Crew) (m : MatOp) (b : List Byte) : State :=
  let x := m.env core c b
  match m.kind with
  | .mma _ => s.runMma x m
  | .acchk d => s.runAcchk x m d
  | .accld t => s.runAccld x m t
  | .accst bf t => s.runAccst x m bf t
  | .accz t n => s.runAccz core m t n
  | .inject t e v g => s.runInject core m t e v g.2

/-- MATRIX_OP_COMPLETE (R126): the checked head operation reads its operands, makes its writes and clears its flag; the engine
waits for the page of a record it writes (R71, R237). -/
def execMatrixOpComplete (core : Nat) (s : State) : Host.Outcome State Fault Refusal :=
  match s.matHead core with
  | none => .refused (.cannotOccur "MATRIX_OP_COMPLETE")
  | some (m, rest) =>
    match m.block, SMap.get? s.crews m.iss.crew with
    | some b, some c =>
      if s.runsBusy core c (s.opRuns core c m b) || s.engineWaits m.iss.uid then .refused (.cannotOccur "MATRIX_OP_COMPLETE")
      else
        let s1 := { s with matQ := SMap.setD s.matQ [] core rest }.runMat core c m b
        .next (s.engineStep (((s1.opDone m.op).settleCrew m.iss.crew).count (cntCore core 1) 1))
    | _, _ => .refused (.cannotOccur "MATRIX_OP_COMPLETE")

/-! ## Issue (R115, R116, R128) -/

/-- Join the matrix queue for a group: a full queue stalls the warp (R115), and lane e's stores go first (R125). -/
def State.joinMatrix (s : State) (e : Env) (uid : Nat) (t : Thread) (group : List Nat) (flag : Option Nat) (kind : MatKind) (addr : Nat) : LaneRes :=
  match s.issueWait uid t 1 with
  | some w => .stall s w
  | none =>
    let q := SMap.getD s.matQ [] e.core
    if 16 ≤ q.length then .stall s .drain
    else
      let r := s.newOp group flag 1
      let m : MatOp := ⟨kind, addr, r.2, e.issuer uid t, none, [], [], s.nextLoad⟩
      .done { r.1 with matQ := SMap.put r.1.matQ e.core (q ++ [m]), nextLoad := s.nextLoad + 1 }

/-- The block or image address of a lane (R397). -/
def State.matAddr (s : State) (t : Thread) (pv off : Nat) : Nat := ((s.pair t pv).1.toNat + 16 * off) % 2 ^ 64

/-- Checks 2 to 5 of a matrix instruction with an address (R89, R398). -/
def matChk (pv off : Nat) (more : List Use) : Chk :=
  { uses := ⟨pv, 2, 1⟩ :: more, cls := 2, anom := [pv, pv + 1], acause := 4, src := some pv, addr := some (pv, 16 * off), stall := true }

/-- The lowest lane whose format word differs from lane e's (R116). -/
def voteLoser (s : State) (v : Nat) (w : Word) (l : List (Nat × Thread)) : Option (Nat × Thread) :=
  l.find? fun x => (s.reg x.2 v).val != w

/-- MMA (R116, R397, R398). -/
def execMma (f : FMma) (s : State) : Host.Outcome State Fault Refusal :=
  let pv := 2 * f.p.toNat
  let off := f.off.toNat
  let vf := f.r.toNat
  s.perGroup 1 (fun _ => matChk pv off [⟨vf, 1, 1⟩]) fun e s l =>
    match l with
    | [] => .done s []
    | (u, t) :: _ =>
      let w := s.reg t vf
      let tr (x : Nat × Thread) (n : Nat) (aux : Nat) : Nat × Trap :=
        (x.1, { num := n, addr := s.matAddr x.2 pv off, tag := (s.reg x.2 vf).tag, aux := aux })
      match voteLoser s vf w.val l with
      | some y =>
        let b := s.laneBirth e y.1 y.2 6 { va := w.val, vb := (s.reg y.2 vf).val, ta := w.tag, tb := (s.reg y.2 vf).tag }
        .done b.1 (l.map fun x => tr x 14 (s.reg x.2 vf).val.toNat)
      | none =>
        if !matFmtOk w.val then .done s (l.map fun x => tr x 2 0)
        else match s.joinMatrix e u t (l.map (·.1)) (e.flag f.f) (.mma w.val) (s.matAddr t pv off) with
          | .stall s wt => .stall (s.modThread u fun t => { t with wait := some wt })
          | .done s => .done s []
          | _ => .done s []

/-- ACCHK (R330). -/
def execAcchk (f : FMma) (s : State) : Host.Outcome State Fault Refusal :=
  let pv := 2 * f.p.toNat
  let off := f.off.toNat
  s.once 1 (fun _ => matChk pv off [⟨f.r.toNat, 1, 1⟩]) fun e s u t g =>
    let d := g.filterMap fun x => (s.thread? x).map fun th => (x, th.wbase + f.r.toNat)
    s.joinMatrix e u t g (e.flag f.f) (.acchk d) (s.matAddr t pv off)

/-- ACCLD (R331). -/
def execAccld (f : FAccLd) (s : State) : Host.Outcome State Fault Refusal :=
  let pv := 2 * f.p.toNat
  s.once 1 (fun _ => matChk pv f.off.toNat []) fun e s u t g =>
    s.joinMatrix e u t g (e.flag f.f) (.accld f.tile.toNat) (s.matAddr t pv f.off.toNat)

/-- ACCST (R331). -/
def execAccst (f : FAccSt) (s : State) : Host.Outcome State Fault Refusal :=
  let pv := 2 * f.p.toNat
  s.once 1 (fun _ => matChk pv f.off.toNat []) fun e s u t g =>
    s.joinMatrix e u t g (e.flag f.f) (.accst f.bf f.tile.toNat) (s.matAddr t pv f.off.toNat)

/-- ACCZ (R331). -/
def execAccz (f : FAccZ) (s : State) : Host.Outcome State Fault Refusal :=
  s.once 1 (fun _ => { cls := 2, stall := true }) fun e s u t g =>
    s.joinMatrix e u t g (e.flag f.f) (.accz f.tile.toNat (f.n1.toNat + 1)) 0

/-- INJECT.acc (R132, R382). -/
def execInjectAcc (f : FInjAcc) (s : State) : Host.Outcome State Fault Refusal :=
  let k : Chk := { uses := [⟨f.a.toNat, 1, 1⟩, ⟨f.b.toNat, 1, 1⟩], cls := 2, src := some f.a.toNat, stall := true }
  s.perGroup 1 (fun _ => k) fun e s l =>
    match l with
    | [] => .done s []
    | (u, t) :: _ =>
      if !e.c.finj then .done s (l.map fun x => (x.1, { num := 6, tag := (s.reg x.2 f.a.toNat).tag }))
      else
        let a := s.reg t f.a.toNat
        let b := s.reg t f.b.toNat
        match s.joinMatrix e u t (l.map (·.1)) (e.flag f.f) (.inject f.tile.toNat a.val.toNat b.val.toNat (a.tag, b.tag)) 0 with
        | .stall s wt => .stall (s.modThread u fun t => { t with wait := some wt })
        | .done s => .done s []
        | _ => .done s []

end Sys2Proof.Machine
end

