-- ==== Sys2Proof/Machine/SystemOps.lean ====
section
/-! DEFINITION. Major 28: special registers (R328, R396, R403), eartag moves (R431), watchpoints (R437), error injection
(R382), spawning (R58, R59, R426), graph records (R64, R361, R362). -/

namespace Sys2Proof.Machine

/-! ## Special registers (R328) -/

/-- %gang0 to %gang3 (R54): a crew's gangs are listed in ascending entry index. -/
def Crew.gangWord (c : Crew) (i : Nat) : Nat :=
  match c.gangs[i]? with
  | some g => 2 ^ 31 + g.pos % 65536 * 256 + g.entry % 256
  | none => 0

/-- %preq (R240). -/
def Crew.preq (c : Crew) : Nat := (if c.req then 2 ^ 31 else 0) + c.left % 2 ^ 25

/-- %spec (R193). -/
def Thread.specWord (t : Thread) : Nat := (if t.lastf then 2 ^ 11 else 0) + t.refuse % 8 * 2 ^ 8 + t.nest % 8 * 4 + t.depth % 4

/-- %wctl of a watchpoint (R93). -/
def Watch.ctl (w : Watch) : Nat :=
  (if w.en then 2 ^ 31 else 0) + (if w.space then 64 else 0) + (if w.act then 32 else 0) + (if w.tagm then 16 else 0) + w.kinds % 16

/-- The value of a special register as a thread reads it (R396). -/
def State.special (s : State) (e : Env) (t : Thread) (n : Nat) : Nat :=
  let w (i : Nat) : Watch := t.watch.getD i Watch.zero
  match n with
  | 0 => t.lane
  | 1 => t.slot
  | 2 => t.tid
  | 3 => e.crew.ord
  | 4 => e.crew.gangWord 0
  | 5 => e.crew.gangWord 1
  | 6 => e.crew.gangWord 2
  | 7 => e.crew.gangWord 3
  | 8 => t.role
  | 9 => s.chip.dev % 65536
  | 10 => s.timebase
  | 11 => e.crew.preq
  | 12 => t.wbase
  | 13 => t.specWord
  | 14 => t.anom
  | 16 => (w 0).lo
  | 17 => (w 0).hi
  | 18 => (w 0).ctl
  | 19 => (w 1).lo
  | 20 => (w 1).hi
  | 21 => (w 1).ctl
  | _ => 0

/-- MFS (R396): the lanes of one warp read one time base. -/
def execMfs (d : VReg) (n : BitVec 7) (s : State) : Host.Outcome State Fault Refusal :=
  s.perLane 1 (fun _ => { uses := [use (wideSpecial n) d.toNat] }) fun e s _ t =>
    .done (s.setRegs t d.toNat (resultRegs (if wideSpecial n then 64 else 32) (s.special e t n.toNat) e.ownTag))

/-- %anom after a write (R87): POLICY 3 leaves the policy. -/
def anomAfter (old x : Nat) : Nat := x / 4 % 2 * 4 + (if x % 4 = 3 then old % 4 else x % 4)

/-- A watchpoint with a new %wctl (R93). -/
def Watch.setCtl (w : Watch) (x : Nat) : Watch :=
  { w with en := x.testBit 31, space := x.testBit 6, act := x.testBit 5, tagm := x.testBit 4, kinds := x % 16 }

/-- The thread after a write of a special register; it takes effect at the next clause (R403). -/
def Thread.setSpecial (t : Thread) (n x : Nat) : Thread :=
  let ws := t.watchNext.getD t.watch
  let mod (i : Nat) (f : Watch → Watch) : Thread := { t with watchNext := some (ws.modify i f) }
  match n with
  | 14 => { t with anomNext := some (anomAfter (t.anomNext.getD t.anom) x) }
  | 16 => mod 0 fun w => { w with lo := x }
  | 17 => mod 0 fun w => { w with hi := x }
  | 18 => mod 0 fun w => w.setCtl x
  | 19 => mod 1 fun w => { w with lo := x }
  | 20 => mod 1 fun w => { w with hi := x }
  | 21 => mod 1 fun w => w.setCtl x
  | _ => t

/-- MTS (R403). -/
def execMts (n : BitVec 7) (a : VReg) (s : State) : Host.Outcome State Fault Refusal :=
  s.perLane 1 (fun _ => { uses := [use (wideSpecial n) a.toNat], src := some a.toNat, stall := true }) fun _ s u t =>
    .done (s.modThread u fun th => th.setSpecial n.toNat (s.src t (wideSpecial n) a.toNat).bits)

/-! ## Eartag moves (R431) -/

/-- TAGRD (R431). -/
def execTagrd (f : Fda) (s : State) : Host.Outcome State Fault Refusal :=
  s.perLane 1 (fun _ => { uses := [⟨f.d.toNat, 1, 1⟩, ⟨f.a.toNat, 1, 1⟩], src := some f.a.toNat }) fun e s _ t =>
    .done (s.setReg t f.d.toNat ⟨(s.reg t f.a.toNat).tag.zeroExtend 32, e.ownTag⟩)

/-- Whether a value is a legal eartag (R431). -/
def legalTag (x : Word) : Bool := fld x 24 8 == (0 : BitVec 8) && !(bit x 23 && fld x 20 3 != (0 : BitVec 3))

/-- TAGWR (R431). -/
def execTagwr (f : Fda) (s : State) : Host.Outcome State Fault Refusal :=
  s.perLane 1 (fun _ => { uses := [⟨f.d.toNat, 1, 1⟩, ⟨f.a.toNat, 1, 1⟩], src := some f.a.toNat }) fun _ s _ t =>
    let x := s.reg t f.a.toNat
    if legalTag x.val then .done (s.setReg t f.d.toNat ⟨(s.reg t f.d.toNat).val, fld x.val 0 24⟩)
    else .trap s { num := 2, tag := x.tag }

/-! ## WATCH (R93, R437) -/

/-- Parse a watchpoint descriptor: the watchpoint, and whether its reserved fields are zero (R93). -/
def parseWatch (bs : List Byte) : Watch × Bool :=
  let w (o n : Nat) : Nat := ofBytes ((bs.drop o).take n)
  let c := w 0x10 4
  let m := w 0x18 8
  ({ (({ Watch.zero with lo := w 0 8, hi := w 8 8 } : Watch).setCtl c) with mask := nfld m 32 24, value := nfld m 0 24 },
    nfld c 7 24 == 0 && w 0x14 4 == 0 && nfld m 56 8 == 0 && nfld m 24 8 == 0)

/-- Install a crew or context watchpoint (R437). -/
def State.setWatch (s : State) (e : Env) (ctx : Bool) (i : Nat) (w : Watch) : State :=
  if ctx then { s with ctxs := SMap.mod s.ctxs e.crew.ctx fun c => { c with watch := c.watch.set i w } }
  else { s with crews := SMap.mod s.crews e.crewId fun c => { c with watch := c.watch.set i w } }

/-- WATCH of lane e (R437): privilege, the operand limit, the read of the descriptor, and then its reserved fields. The
read is judged against the watchpoints before it (log entry 37, DEDUCED). -/
def watchLane (f : FWatch) (e : Env) (s : State) (uid : Nat) (t : Thread) : LaneRes :=
  let a := (s.pair t f.a.toNat).1.toNat
  let i := (s.reg t f.b.toNat).val.toNat
  let tag := (s.pair t f.a.toNat).2
  if f.ctx && !e.c.priv then .trap s { num := 6, addr := a, tag := tag }
  else if (if f.ctx then 7 else 3) < i then .trap s { num := 2, addr := a, tag := tag }
  else if a % 32 != 0 then .trap s { num := 7, cause := 1, addr := a, key := keyOf a, tag := tag }
  else match s.readBlock e uid t f.a.toNat 2 a with
    | (s1, .trap tr) => .trap s1 tr
    | (s1, .busy c l) => .park s1 (.presence c l)
    | (s0, .ok bs tags) =>
      let s1 := s0.wokenAcquire uid t
      let w := parseWatch bs
      if !w.2 then .trap s1 { num := 2, addr := a, tag := tag }
      else match s1.watched s1 e uid t (blockAccess a tags) with
        | .done s2 => .done (s2.setWatch e f.ctx i w.1)
        | .trap s2 tr => .trap (s2.setWatch e f.ctx i w.1) tr
        | r => r

/-- WATCH (R437). -/
def execWatch (f : FWatch) (s : State) : Host.Outcome State Fault Refusal :=
  s.once 1 (fun _ => { uses := [⟨f.a.toNat, 2, 2⟩, ⟨f.b.toNat, 1, 1⟩], src := some f.a.toNat, addr := some (f.a.toNat, 0), stall := true })
    fun e s u t _ => watchLane f e s u t

/-! ## INJECT (R382) -/

/-- INJECT of a lane (R382): the bit flips, and the altered value takes a record of kind 7. -/
def injectLane (f : FTwo) (e : Env) (s : State) (uid : Nat) (t : Thread) : LaneRes :=
  let d := s.reg t f.r.toNat
  let b := s.reg t f.q.toNat
  if !e.c.finj then .trap s { num := 6, tag := d.tag }
  else if 32 ≤ b.val.toNat then .trap s { num := 2, tag := d.tag }
  else
    let x := d.val ^^^ BitVec.ofNat 32 (2 ^ b.val.toNat)
    s.bornResult e uid t 7 { va := d.val, vb := b.val, vc := x, ta := d.tag, tb := b.tag, tc := 0 } fun s g => s.setReg t f.r.toNat ⟨x, g⟩

/-- INJECT (R382). -/
def execInject (f : FTwo) (s : State) : Host.Outcome State Fault Refusal :=
  s.perLane 1 (fun _ => { uses := [⟨f.r.toNat, 1, 1⟩, ⟨f.q.toNat, 1, 1⟩], src := some f.r.toNat, stall := true })
    fun e s u t => injectLane f e s u t

/-! ## SPAWN (R58, R59, R426) -/

/-- The key of a bin. -/
def binKey (core quad bin : Nat) : Nat := quadKey core quad * 16 + bin

/-- Records and the places of their threads (R59): record i goes to the i-th lane, in ascending order, with a free slot
and room for its spawner's allotment. `none` while there are too few. -/
def State.spawnLanes (s : State) (core quad : Nat) : List Nat → List SpawnRec → Option (List (SpawnRec × Nat × Nat × Nat))
  | _, [] => some []
  | [], _ :: _ => none
  | lane :: lanes, r :: rs =>
    match s.roomIn core quad lane r.allot with
    | some p => (s.spawnLanes core quad lanes rs).map fun l => (r, lane, p.1, p.2) :: l
    | none => s.spawnLanes core quad lanes (r :: rs)

/-- The thread a record starts (R59) (log entry 46, DEDUCED). -/
def SpawnRec.thread (r : SpawnRec) (core quad entry lane slot rbase : Nat) : Thread :=
  { freshThread r.iss.crew r.iss.role (2048 + 512 * quad + 32 * slot + lane) core quad lane slot rbase r.allot r.anom entry with spawned := true }

/-- Start the threads of a launched bin (R59); their start is an acquire at crew scope (R426). -/
def State.startSpawned (s : State) (core quad entry : Nat) (l : List (SpawnRec × Nat × Nat × Nat)) : State :=
  (l.foldl (fun (s : State) x =>
    let t := x.1.thread core quad entry x.2.1 x.2.2.1 x.2.2.2
    ((s.startRegs t x.1.args).addThread t).1) s).dropL1 core quad

/-- Whether a record's crew may launch: it is resident and runs (R245). -/
def State.recRuns (s : State) (r : SpawnRec) : Bool := ((SMap.get? s.crews r.iss.crew).map Crew.runs).getD false

/-- Whether a record's launch has SPTIMER 0. -/
def State.recAlone (s : State) (r : SpawnRec) : Bool :=
  (((SMap.get? s.crews r.iss.crew).bind fun c => SMap.get? s.launches c.launch).map fun l => l.sptimer == 0) == some true

/-- Records a bin launches at a time: with SPTIMER 0 one (R59). A bin made to launch at once launches all (R58). -/
def State.binBatch (s : State) (b : SpawnBin) (all : Bool) : List SpawnRec :=
  match b.recs.filter s.recRuns with
  | r :: rs => if !all && s.recAlone r then [r] else r :: rs
  | [] => []

/-- Launch a bin when enough lanes exist (R59); the bin is free, or keeps the records not launched. -/
def State.launchBin (s : State) (k : Nat) (b : SpawnBin) (all : Bool) : Option State :=
  let rs := s.binBatch b all
  match rs, s.spawnLanes (k / 64) (k / 16 % 4) (List.range 32) rs with
  | _ :: _, some l =>
    let rest := b.recs.filter fun r => !rs.contains r
    let s : State := { s with bins := if rest.isEmpty then SMap.del s.bins k else SMap.put s.bins k { b with recs := rest } }
    some (s.startSpawned (k / 64) (k / 16 % 4) b.entry l)
  | _, _ => none

/-- What placing a record comes to. -/
inductive SpawnRes where
  /-- the record is placed -/
  | placed (s : State)
  /-- its bin is full -/
  | full
  /-- every bin holds another key; the oldest is launching and has not freed its bin -/
  | wait (s : State)
  deriving DecidableEq, Repr

/-- The bins of a quadrant. -/
def State.binsOf (s : State) (core quad : Nat) : List (Nat × SpawnBin) := s.bins.filter fun b => b.1 / 16 == quadKey core quad

/-- The number of a bin's first record among all records spawned. -/
def SpawnBin.age (b : SpawnBin) : Nat := (b.recs.head?.map (·.seq)).getD 0

/-- The bin whose first record is oldest. -/
def oldestBin (bs : List (Nat × SpawnBin)) : Option (Nat × SpawnBin) :=
  bs.foldl (fun (o : Option (Nat × SpawnBin)) b => match o with
    | none => some b
    | some x => if b.2.age < x.2.age then some b else some x) none

/-- Put a record into a free bin; the bin's timer starts (R59). -/
def State.newBin (s : State) (e : Env) (k entry : Nat) (r : SpawnRec) : State :=
  { s with bins := SMap.put s.bins k ⟨entry, e.crew.ctx, [r], e.launch.sptimer, false⟩, spawned := s.spawned + 1 }

/-- Place a record by R58: the bin of its key, a free bin, or the bin freed by launching at once the one whose first
record is oldest (log entry 46, DEDUCED). -/
def State.placeRec (s : State) (e : Env) (entry : Nat) (r : SpawnRec) : SpawnRes :=
  let bs := s.binsOf e.core e.quad
  match bs.find? fun b => b.2.entry == entry && b.2.ctx == e.crew.ctx with
  | some (k, b) =>
    if 32 ≤ b.recs.length then .full
    else .placed { s with bins := SMap.put s.bins k { b with recs := b.recs ++ [r] }, spawned := s.spawned + 1 }
  | none =>
    match (List.range 16).find? fun i => !(bs.any fun b => b.1 == binKey e.core e.quad i) with
    | some i => .placed (s.newBin e (binKey e.core e.quad i) entry r)
    | none =>
      match oldestBin bs with
      | none => .wait s
      | some (k, b) =>
        let s1 : State := { s with bins := SMap.put s.bins k { b with launching := true } }
        match s1.launchBin k b true with
        | none => .wait s1
        | some s2 => if (SMap.get? s2.bins k).isNone then .placed (s2.newBin e k entry r) else .wait s2

/-- SPAWN of a lane (R426). -/
def spawnLane (f : FTwo) (e : Env) (s : State) (uid : Nat) (t : Thread) : LaneRes :=
  let x := (s.pair t f.r.toNat).1.toNat
  if x % 64 != 0 then .trap s { num := 3, tag := (s.pair t f.r.toNat).2 }
  else match s.releaseTry uid 0 with
    | (s1, some w) => .stall s1 w
    | (s1, none) =>
      let r : SpawnRec := ⟨e.issuer uid t, s1.spawned, t.allot, e.launch.startAnom, (List.range 4).map fun i => s1.reg t (f.q.toNat + i)⟩
      match s1.placeRec e x r with
      | .placed s2 => .done s2
      | .full => .park s1 (.spawnBin x)
      | .wait s2 => .stall s2 .drain

/-- SPAWN (R426). -/
def execSpawn (f : FTwo) (s : State) : Host.Outcome State Fault Refusal :=
  s.perLane 1 (fun _ => { uses := [⟨f.r.toNat, 2, 2⟩, ⟨f.q.toNat, 4, 4⟩], src := some f.r.toNat, stall := true, ordered := true })
    fun e s u t => spawnLane f e s u t

/-- SPAWN_BIN_TIMER (R59): a bin's timer has run out, and the bin is to launch. -/
def execSpawnBinTimer (core quad bin : Nat) (s : State) : Host.Outcome State Fault Refusal :=
  let k := binKey core quad bin
  match SMap.get? s.bins k with
  | none => .refused (.cannotOccur "SPAWN_BIN_TIMER")
  | some b =>
    if b.timer = 0 && !b.launching then .next { s with bins := SMap.put s.bins k { b with launching := true } }
    else .refused (.cannotOccur "SPAWN_BIN_TIMER")

/-- SPAWN_BIN_LAUNCH (R59): a bin that holds 32 records, or whose timer has run out, launches its warp. -/
def execSpawnBinLaunch (core quad bin : Nat) (s : State) : Host.Outcome State Fault Refusal :=
  let k := binKey core quad bin
  match SMap.get? s.bins k with
  | none => .refused (.cannotOccur "SPAWN_BIN_LAUNCH")
  | some b =>
    if b.launching || b.recs.length == 32 then
      match s.launchBin k b false with
      | some s' => .next s'
      | none => .refused (.cannotOccur "SPAWN_BIN_LAUNCH")
    else .refused (.cannotOccur "SPAWN_BIN_LAUNCH")

/-! ## EMIT (R64, R361, R362) -/

/-- The eartag of a graph record (R362). -/
def recordTag (rs : List Reg) : Tag :=
  match rs.find? fun r => isA r.tag with
  | some r => r.tag
  | none => (rs.getD 0 Reg.zero).tag

/-- What queueing a record comes to. -/
inductive QueueRes where
  | ok (s : State)
  | full (cap : Nat)
  | wait
  deriving DecidableEq, Repr

/-- Put a record at the tail of successor `n`'s queue, or discard it (R65, R362): a successor past NNODE, one that takes
no records, and a queue that cannot be written (log entry 19, DEDUCED) leave a type 4 entry (log entry 45, DEDUCED). -/
def State.queueRecord (s : State) (cid : Nat) (c : Context) (from_ n where_ : Nat) (rs : List Reg) : QueueRes :=
  if c.nnode ≤ n then .ok (s.log cid 4 2 0 (c.nodeAddr from_) where_)
  else match s.node c n with
    | none => .wait
    | some x =>
      let q := c.nodeState n
      if !x.takes then .ok (s.log cid 4 2 0 (x.recAddr q.tail) where_)
      else if x.qcap ≤ q.tail - q.head then .full x.qcap
      else match s.transDev c (x.recAddr q.tail) with
        | .absent => .wait
        | .format => .wait
        | .badPhys => .ok (s.log cid 4 2 0 (x.recAddr q.tail) where_)
        | .hit h =>
          if !h.w || !h.peerW || h.loc.isTable then .ok (s.log cid 4 2 0 (x.recAddr q.tail) where_)
          else
            let data := rs.flatMap fun r => toBytes 4 r.val.toNat
            .ok ((s.performWrite cid (x.recAddr q.tail % 2 ^ 48) h.loc data (recordTag rs) h.tagAddr).modNode cid n fun y => { y with tail := y.tail + 1 })

/-- EMIT of a lane (R362). -/
def emitLane (a : VReg) (j : Nat) (e : Env) (s : State) (uid : Nat) (t : Thread) : LaneRes :=
  let tag := (s.reg t a.toNat).tag
  match e.launch.origin with
  | .queue _ _ _ => .trap s { num := 27, cause := 1, tag := tag }
  | .graph n =>
    if e.c.graph = 0 then .trap s { num := 27, cause := 1, tag := tag }
    else match s.node e.c n with
      | none => .stall s .drain
      | some x =>
        let d := x.succ.getD j 0xFFFF
        if d = 0xFFFF then .trap s { num := 27, cause := 2, tag := tag }
        else match s.releaseTry uid 4 with
          | (s1, some w) => .stall s1 w
          | (s1, none) =>
            match SMap.get? s1.ctxs e.crew.ctx with
            | none => .done s1
            | some c =>
              match s1.queueRecord e.crew.ctx c n d (s1.whereOf (e.issuer uid t)) ((List.range 4).map fun i => s1.reg t (a.toNat + i)) with
              | .ok s2 => .done s2
              | .full cap => .park s1 (.graphQueue d cap)
              | .wait => .stall s1 .drain

/-- EMIT (R361, R362). -/
def execEmit (a : VReg) (j : BitVec 2) (s : State) : Host.Outcome State Fault Refusal :=
  s.perLane 1 (fun _ => { uses := [⟨a.toNat, 4, 4⟩], src := some a.toNat, stall := true, ordered := true }) fun e s u t => emitLane a j.toNat e s u t

end Sys2Proof.Machine
end

