-- ==== Sys2Proof/Machine/Dispatch.lean ====
section
/-! DEFINITION. One arm per instruction or step of the opcode table, each one call of its meaning. -/

namespace Sys2Proof.Machine

/-- The effect of an instruction or of a step of another agent. -/
def exec (i : Instr) (s : State) : Host.Outcome State Fault Refusal :=
  match i with
  | .warpFormation core quad => Sys2Proof.Machine.execWarpFormation core quad s
  | .icacheFill core ctx addr => Sys2Proof.Machine.execIcacheFill core ctx addr s
  | .spawnBinTimer core quad bin => Sys2Proof.Machine.execSpawnBinTimer core quad bin s
  | .spawnBinLaunch core quad bin => Sys2Proof.Machine.execSpawnBinLaunch core quad bin s
  | .sqtail vd q value => Sys2Proof.Machine.execSqtail vd q value s
  | .cqhead vd q value => Sys2Proof.Machine.execCqhead vd q value s
  | .queueEnable vd q => Sys2Proof.Machine.execQueueEnable vd q s
  | .registerWrite vd off value => Sys2Proof.Machine.execRegisterWrite vd off value s
  | .launch vd q id => Sys2Proof.Machine.execLaunch vd q id s
  | .graphStart vd q => Sys2Proof.Machine.execGraphStart vd q s
  | .queueBarrier vd q => Sys2Proof.Machine.execQueueBarrier vd q s
  | .invalidEntry vd q => Sys2Proof.Machine.execInvalidEntry vd q s
  | .completionEntryWrite vd q ix => Sys2Proof.Machine.execCompletionEntryWrite vd q ix s
  | .crewPlace launch places => Sys2Proof.Machine.execCrewPlace launch places s
  | .launchComplete launch => Sys2Proof.Machine.execLaunchComplete launch s
  | .graphKernelFire ctx node id => Sys2Proof.Machine.execGraphKernelFire ctx node id s
  | .graphConditionalFire ctx node => Sys2Proof.Machine.execGraphConditionalFire ctx node s
  | .graphWhileFire ctx node => Sys2Proof.Machine.execGraphWhileFire ctx node s
  | .storeFifoDrain uid => Sys2Proof.Machine.execStoreFifoDrain uid s
  | .corePointDrain core ix => Sys2Proof.Machine.execCorePointDrain core ix s
  | .diePointDrain die ix => Sys2Proof.Machine.execDiePointDrain die ix s
  | .fabricPointPerform ix => Sys2Proof.Machine.execFabricPointPerform ix s
  | .loadReturn ix => Sys2Proof.Machine.execLoadReturn ix s
  | .gatherWritePerform core ix => Sys2Proof.Machine.execGatherWritePerform core ix s
  | .copyLanding copy k => Sys2Proof.Machine.execCopyLanding copy k s
  | .copyGlobalPerform core ix => Sys2Proof.Machine.execCopyGlobalPerform core ix s
  | .copyComplete copy => Sys2Proof.Machine.execCopyComplete copy s
  | .copyPageResume copy => Sys2Proof.Machine.execCopyPageResume copy s
  | .ringLanding ix => Sys2Proof.Machine.execRingLanding ix s
  | .matrixOpHead core => Sys2Proof.Machine.execMatrixOpHead core s
  | .matrixOpComplete core => Sys2Proof.Machine.execMatrixOpComplete core s
  | .gangArrival ix => Sys2Proof.Machine.execGangArrival ix s
  | .mwaitTimeout uid => Sys2Proof.Machine.execMwaitTimeout uid s
  | .trywaitTimeout uid => Sys2Proof.Machine.execTrywaitTimeout uid s
  | .watchdogExpiry uid => Sys2Proof.Machine.execWatchdogExpiry uid s
  | .trapDelivery uid => Sys2Proof.Machine.execTrapDelivery uid s
  | .pageFaultResolve uid => Sys2Proof.Machine.execPageFaultResolve uid s
  | .pageUnmappable kind ix => Sys2Proof.Machine.execPageUnmappable kind ix s
  | .preemptRequest crew => Sys2Proof.Machine.execPreemptRequest crew s
  | .preemptCancel crew => Sys2Proof.Machine.execPreemptCancel crew s
  | .lightSave crew => Sys2Proof.Machine.execLightSave crew s
  | .forcedSave crew => Sys2Proof.Machine.execForcedSave crew s
  | .crewRestore places => Sys2Proof.Machine.execCrewRestore places s
  | .debugHalt crew => Sys2Proof.Machine.execDebugHalt crew s
  | .vdTurnEnd vd => Sys2Proof.Machine.execVdTurnEnd vd s
  | .vdConfig w0 w1 w2 w3 => Sys2Proof.Machine.execVdConfig w0 w1 w2 w3 s
  | .partitionConfig ix map wsave => Sys2Proof.Machine.execPartitionConfig ix map wsave s
  | .forkStart uid => Sys2Proof.Machine.execForkStart uid s
  | .waitForWalk ctx => Sys2Proof.Machine.execWaitForWalk ctx s
  | .walkRequest ctx => Sys2Proof.Machine.execWalkRequest ctx s
  | .counterTrigger tick => Sys2Proof.Machine.execCounterTrigger tick s
  | .counterLatch => Sys2Proof.Machine.execCounterLatch s
  | .counterAutoTrigger => Sys2Proof.Machine.execCounterAutoTrigger s
  | .parlourPost clock ctx cid rank fields => Sys2Proof.Machine.execParlourPost clock ctx cid rank fields s
  | .ticket ix value clock => Sys2Proof.Machine.execTicket ix value clock s
  | .collectiveStart ix => Sys2Proof.Machine.execCollectiveStart ix s
  | .ready ctx cid rank clock => Sys2Proof.Machine.execReady ctx cid rank clock s
  | .go ix clock => Sys2Proof.Machine.execGo ix clock s
  | .withdraw ctx cid rank clock => Sys2Proof.Machine.execWithdraw ctx cid rank clock s
  | .withdrawAck ix clock => Sys2Proof.Machine.execWithdrawAck ix clock s
  | .chunkComplete ix chunk status => Sys2Proof.Machine.execChunkComplete ix chunk status s
  | .receiveReduceArrive ix chunk elt ranks data marks => Sys2Proof.Machine.execReceiveReduceArrive ix chunk elt ranks data marks s
  | .baseDieReduce stack => Sys2Proof.Machine.execBaseDieReduce stack s
  | .collectiveLanding ix => Sys2Proof.Machine.execCollectiveLanding ix s
  | .flitReceive port good => Sys2Proof.Machine.execFlitReceive port good s
  | .linkTrain port width => Sys2Proof.Machine.execLinkTrain port width s
  | .commCreate ctx ix members routes accepted => Sys2Proof.Machine.execCommCreate ctx ix members routes accepted s
  | .hostWrite part addr data via => Sys2Proof.Machine.execHostWrite part addr data via s
  | .invalidate ctx lo hi => Sys2Proof.Machine.execInvalidate ctx lo hi s
  | .snapshot ctx => Sys2Proof.Machine.execSnapshot ctx s
  | .peerApertureGrant part entry value => Sys2Proof.Machine.execPeerApertureGrant part entry value s
  | .powerOn => Sys2Proof.Machine.execPowerOn s
  | .coreBatchRelease good bad => Sys2Proof.Machine.execCoreBatchRelease good bad s
  | .stackJoin stack => Sys2Proof.Machine.execStackJoin stack s
  | .stackTrained stack good => Sys2Proof.Machine.execStackTrained stack good s
  | .flashCommand image => Sys2Proof.Machine.execFlashCommand image s
  | .thermalTrip => Sys2Proof.Machine.execThermalTrip s
  | .governorStep down => Sys2Proof.Machine.execGovernorStep down s
  | .uncorrectableError pen => Sys2Proof.Machine.execUncorrectableError pen s
  | .eccCorrected pen => Sys2Proof.Machine.execEccCorrected pen s
  | .graphInstall ctx graph nnode => Sys2Proof.Machine.execGraphInstall ctx graph nnode s
  | .contextCreate desc byOs => Sys2Proof.Machine.execContextCreate desc byOs s
  | .moduleLoad ctx code bcbase file => Sys2Proof.Machine.execModuleLoad ctx code bcbase file s
  | .debugContinue crew => Sys2Proof.Machine.execDebugContinue crew s
  | .powerOff => Sys2Proof.Machine.execPowerOff s
  | .remoteStorePerform core ix => Sys2Proof.Machine.execRemoteStorePerform core ix s
  | .iadd f => Sys2Proof.Machine.execIadd f s
  | .isub f => Sys2Proof.Machine.execIsub f s
  | .imul f => Sys2Proof.Machine.execImul f s
  | .imulh f => Sys2Proof.Machine.execImulh f s
  | .idiv f => Sys2Proof.Machine.execIdiv f s
  | .irem f => Sys2Proof.Machine.execIrem f s
  | .imin f => Sys2Proof.Machine.execImin f s
  | .imax f => Sys2Proof.Machine.execImax f s
  | .and f => Sys2Proof.Machine.execAnd f s
  | .or f => Sys2Proof.Machine.execOr f s
  | .xor f => Sys2Proof.Machine.execXor f s
  | .shl f => Sys2Proof.Machine.execShl f s
  | .shr f => Sys2Proof.Machine.execShr f s
  | .sar f => Sys2Proof.Machine.execSar f s
  | .fadd f => Sys2Proof.Machine.execFadd f s
  | .fmul f => Sys2Proof.Machine.execFmul f s
  | .fmin f => Sys2Proof.Machine.execFmin f s
  | .fmax f => Sys2Proof.Machine.execFmax f s
  | .frcp f => Sys2Proof.Machine.execFrcp f s
  | .frsq f => Sys2Proof.Machine.execFrsq f s
  | .fexp2 f => Sys2Proof.Machine.execFexp2 f s
  | .flog2 f => Sys2Proof.Machine.execFlog2 f s
  | .fsin f => Sys2Proof.Machine.execFsin f s
  | .fcos f => Sys2Proof.Machine.execFcos f s
  | .fclass f => Sys2Proof.Machine.execFclass f s
  | .fadd2 f => Sys2Proof.Machine.execFadd2 f s
  | .fmul2 f => Sys2Proof.Machine.execFmul2 f s
  | .fdot2 f => Sys2Proof.Machine.execFdot2 f s
  | .fcvt f => Sys2Proof.Machine.execFcvt f s
  | .quant f => Sys2Proof.Machine.execQuant f s
  | .ffma f => Sys2Proof.Machine.execFfma f s
  | .imad f => Sys2Proof.Machine.execImad f s
  | .fma2 f => Sys2Proof.Machine.execFma2 f s
  | .sel f => Sys2Proof.Machine.execSel f s
  | .bfi f => Sys2Proof.Machine.execBfi f s
  | .iaddi f => Sys2Proof.Machine.execIaddi f s
  | .andi f => Sys2Proof.Machine.execAndi f s
  | .ori f => Sys2Proof.Machine.execOri f s
  | .xori f => Sys2Proof.Machine.execXori f s
  | .icmpi f => Sys2Proof.Machine.execIcmpi f s
  | .movi f => Sys2Proof.Machine.execMovi f s
  | .movhi f => Sys2Proof.Machine.execMovhi f s
  | .ld f => Sys2Proof.Machine.execLd f s
  | .st f => Sys2Proof.Machine.execSt f s
  | .ldg f => Sys2Proof.Machine.execLdg f s
  | .stx f => Sys2Proof.Machine.execStx f s
  | .ldStrong f => Sys2Proof.Machine.execLdStrong f s
  | .stStrong f => Sys2Proof.Machine.execStStrong f s
  | .atom f => Sys2Proof.Machine.execAtom f s
  | .red f => Sys2Proof.Machine.execRed f s
  | .bra f => Sys2Proof.Machine.execBra f s
  | .call off => Sys2Proof.Machine.execCall off s
  | .callf off => Sys2Proof.Machine.execCallf off s
  | .brx a => Sys2Proof.Machine.execBrx a s
  | .callx a => Sys2Proof.Machine.execCallx a s
  | .callxF a => Sys2Proof.Machine.execCallxF a s
  | .ret => Sys2Proof.Machine.execRet s
  | .exit => Sys2Proof.Machine.execExit s
  | .eret => Sys2Proof.Machine.execEret s
  | .yield => Sys2Proof.Machine.execYield s
  | .trap code => Sys2Proof.Machine.execTrap code s
  | .brk => Sys2Proof.Machine.execBrk s
  | .regb => Sys2Proof.Machine.execRegb s
  | .rege => Sys2Proof.Machine.execRege s
  | .ipref off => Sys2Proof.Machine.execIpref off s
  | .bbc n => Sys2Proof.Machine.execBbc n s
  | .shfl f => Sys2Proof.Machine.execShfl f s
  | .rot f => Sys2Proof.Machine.execRot f s
  | .vote f => Sys2Proof.Machine.execVote f s
  | .redux f => Sys2Proof.Machine.execRedux f s
  | .matchLane f => Sys2Proof.Machine.execMatchLane f s
  | .matchLane64 f => Sys2Proof.Machine.execMatchLane64 f s
  | .icmp f => Sys2Proof.Machine.execIcmp f s
  | .fcmp f => Sys2Proof.Machine.execFcmp f s
  | .pand f => Sys2Proof.Machine.execPand f s
  | .por f => Sys2Proof.Machine.execPor f s
  | .pxor f => Sys2Proof.Machine.execPxor f s
  | .pnot f => Sys2Proof.Machine.execPnot f s
  | .barinit f => Sys2Proof.Machine.execBarinit f s
  | .barinitLong f => Sys2Proof.Machine.execBarinitLong f s
  | .bararv f => Sys2Proof.Machine.execBararv f s
  | .barexp f => Sys2Proof.Machine.execBarexp f s
  | .waitp f => Sys2Proof.Machine.execWaitp f s
  | .waitpReg f => Sys2Proof.Machine.execWaitpReg f s
  | .waitpLong f => Sys2Proof.Machine.execWaitpLong f s
  | .trywait f => Sys2Proof.Machine.execTrywait f s
  | .crewbar => Sys2Proof.Machine.execCrewbar s
  | .gbar g => Sys2Proof.Machine.execGbar g s
  | .meetarm token m => Sys2Proof.Machine.execMeetarm token m s
  | .meet m => Sys2Proof.Machine.execMeet m s
  | .monitor f => Sys2Proof.Machine.execMonitor f s
  | .mwait t => Sys2Proof.Machine.execMwait t s
  | .fence scope => Sys2Proof.Machine.execFence scope s
  | .fencex x y => Sys2Proof.Machine.execFencex x y s
  | .trig c v => Sys2Proof.Machine.execTrig c v s
  | .trigrst c v => Sys2Proof.Machine.execTrigrst c v s
  | .cpy f => Sys2Proof.Machine.execCpy f s
  | .cpyLong f => Sys2Proof.Machine.execCpyLong f s
  | .cpycv f => Sys2Proof.Machine.execCpycv f s
  | .cpyt f => Sys2Proof.Machine.execCpyt f s
  | .cpya f => Sys2Proof.Machine.execCpya f s
  | .cpyaLong f => Sys2Proof.Machine.execCpyaLong f s
  | .ring f => Sys2Proof.Machine.execRing f s
  | .ringLong f => Sys2Proof.Machine.execRingLong f s
  | .mma f => Sys2Proof.Machine.execMma f s
  | .accld f => Sys2Proof.Machine.execAccld f s
  | .accst f => Sys2Proof.Machine.execAccst f s
  | .accz f => Sys2Proof.Machine.execAccz f s
  | .acchk f => Sys2Proof.Machine.execAcchk f s
  | .colpost f => Sys2Proof.Machine.execColpost f s
  | .colfire f => Sys2Proof.Machine.execColfire f s
  | .mfs d num => Sys2Proof.Machine.execMfs d num s
  | .mts num a => Sys2Proof.Machine.execMts num a s
  | .tagrd f => Sys2Proof.Machine.execTagrd f s
  | .tagwr f => Sys2Proof.Machine.execTagwr f s
  | .color f => Sys2Proof.Machine.execColor f s
  | .watch f => Sys2Proof.Machine.execWatch f s
  | .inject f => Sys2Proof.Machine.execInject f s
  | .spawn f => Sys2Proof.Machine.execSpawn f s
  | .emit a j => Sys2Proof.Machine.execEmit a j s
  | .cctl => Sys2Proof.Machine.execCctl s
  | .pref a => Sys2Proof.Machine.execPref a s
  | .wbase k => Sys2Proof.Machine.execWbase k s
  | .injectAcc f => Sys2Proof.Machine.execInjectAcc f s
  | .iabs f => Sys2Proof.Machine.execIabs f s
  | .clz f => Sys2Proof.Machine.execClz f s
  | .popc f => Sys2Proof.Machine.execPopc f s
  | .popcP d p => Sys2Proof.Machine.execPopcP d p s
  | .brev f => Sys2Proof.Machine.execBrev f s
  | .bfx f => Sys2Proof.Machine.execBfx f s
  | .lea f => Sys2Proof.Machine.execLea f s
  | .mov f => Sys2Proof.Machine.execMov f s
  | .fdot2E4m3 f => Sys2Proof.Machine.execFdot2E4m3 f s

end Sys2Proof.Machine
end

