-- ==== Sys2Proof/Machine/Step.lean ====
section
/-! DEFINITION. One step of the module: what the agenda names, or, with nothing named, what happens next of itself (log
entry 1, DESIGN CHOICE). -/

namespace Sys2Proof.Machine

/-- The slot at the issue port, named by `cur`, issues (R38). -/
def stepIssue (s : State) : Host.Outcome State Fault Refusal :=
  match s.issue with
  | .empty => .fault .noWarp
  | .hold s' => .next s'
  | .illegal s' => .next s'
  | .run i => exec i s

/-- Another agent's step, with nothing at the issue port: it ends every stall. -/
def stepAct (i : Instr) (s : State) : Host.Outcome State Fault Refusal := exec i { s with cur := none, stalled := [] }

/-- The first of a list of steps that can happen. -/
def firstOf (s : State) : List Instr → Option State
  | [] => none
  | i :: is =>
    match stepAct i s with
    | .next s' => some s'
    | _ => firstOf s is

/-- A quadrant's turn to issue: from its oldest warp that does not wait; with none, nothing issues (R38). -/
def stepQuad (qk : Nat) (s : State) : Host.Outcome State Fault Refusal :=
  match s.pickWarp qk with
  | some wk => stepIssue { s with cur := some wk }
  | none => .next { s with cur := none }

/-- What happens with nothing named. -/
def stepAlone (s : State) : Host.Outcome State Fault Refusal :=
  match s.pickQuad with
  | some qk => stepQuad qk s
  | none =>
    match firstOf s s.candidates with
    | some s' => .next s'
    | none => .next ({ s with cur := none, stalled := [] }.passTime 1 1)

/-- System software sets a limit, an interval or a region (R189, R219, R222, R270, R274, R281, R285). -/
def State.applySetting (s : State) (x : Setting) : State :=
  match x with
  | .capacity n => { s with chip := { s.chip with capacity := max 1 (min 64 n) } }
  | .walkEvery n => { s with chip := { s.chip with walkEvery := n } }
  | .latchEvery n => { s with chip := { s.chip with latchEvery := n } }
  | .binning c base => { s with ctxs := SMap.mod s.ctxs c fun x => { x with binBase := base, bins := [] } }
  | .window v base size => { s with vdevs := SMap.mod s.vdevs v fun x => { x with window := (base, size) } }
  | .far c k r w => { s with ctxs := SMap.mod s.ctxs c fun x => { x with comms := SMap.mod x.comms k fun y => { y with far := y.far.set r w } } }
  | .migrate c => (s.crews.filter fun e => e.2.ctx == c && e.2.placed).foldl (fun (s : State) e => s.requestUnit e.1 0) s
  | .settle i k l c ts =>
    { s with
      launches := if (SMap.get? s.launches i).isSome then s.launches else SMap.put s.launches i l
      crews := SMap.put s.crews k { c with launch := i, placed := false, preempt := .removed }
      threads := ts.foldl (fun m t => SMap.put m t.1 { t.2 with crew := k, status := .removed, stamp := none }) s.threads }

/-- The step the agenda names, or what happens of itself. -/
def stepAgenda (s : State) : Host.Outcome State Fault Refusal :=
  match s.agenda with
  | .issue qk :: rest => stepQuad qk { s with agenda := rest }
  | .act i :: rest => stepAct i { s with agenda := rest }
  | .time c t :: rest => .next ({ s with agenda := rest, cur := none, stalled := [] }.passTime c t)
  | .set x :: rest => .next ({ s with agenda := rest, cur := none, stalled := [] }.applySetting x)
  | [] => stepAlone s

/-- One step: what happens, and after it the switch on faults of every context (R248). -/
def step (s : State) : Host.Outcome State Fault Refusal :=
  match stepAgenda s with
  | .next s' => .next s'.pshareAll
  | .fault f => .fault f
  | .refused r => .refused r

/-- The instruction whose bits are `w`, at the issue port of a small machine, to issue next (log entry 17, DESIGN CHOICE). -/
def State.withFetchWord (s : State) (nbits w : Nat) : State := s.placeWords (tableWords (w % 2 ^ nbits))

end Sys2Proof.Machine
end

