-- ==== Sys2Proof/WellFormed.lean ====
section
/-! DEFINITION. Which instructions have an encoding: the codes and pairs R314 to R328 allow. A field that only an
execution can judge (an odd pair, a range past v127) is not judged here: it traps (R314, R329). -/

namespace Sys2Proof
open Sys2Proof.Machine

/-- An address width and space of LD, ST, LDG and STX (R317). -/
def wfMem (w : BitVec 3) (sp : BitVec 2) : Bool := decide (w.toNat ≤ 4) && sp != 3

/-- A long copy's spaces and barrier (R353). -/
def wfLong (ds ss : BitVec 2) (nobar : Bool) (barp : BitVec 5) (baroff : BitVec 11) : Bool :=
  ds != 3 && ss != 3 && (!nobar || (barp == 0 && baroff == 0))

/-- The instruction forms the opcode map gives an encoding (R320 to R328). A step of another agent has no words, and
is not a form. -/
def wellFormed : Instr → Bool
  | .iadd _ | .isub _ | .imul _ | .imulh _ | .idiv _ | .irem _ | .imin _ | .imax _ => true
  | .and _ | .or _ | .xor _ | .shl _ | .shr _ | .sar _ => true
  | .fadd _ | .fmul _ | .fmin _ | .fmax _ | .frcp _ | .frsq _ | .fexp2 _ | .flog2 _ | .fsin _ | .fcos _ | .fclass _ => true
  | .fadd2 _ | .fmul2 _ | .fdot2 _ => true
  | .fcvt f => cvtPair f.tgt.toNat f.src.toNat && (!cvtExact f.tgt.toNat f.src.toNat || (f.rnd == 0 && !f.ovf))
  | .quant f => f.tgt != 3
  | .ffma _ | .imad _ | .fma2 _ | .sel _ | .bfi _ => true
  | .iaddi _ | .andi _ | .ori _ | .xori _ => true
  | .icmpi f => decide (f.cond.toNat ≤ 9)
  | .movi _ | .movhi _ => true
  | .ld f | .st f => wfMem f.w f.sp
  | .ldg f | .stx f => wfMem f.w f.sp
  | .ldStrong f | .stStrong f => decide (f.w.toNat ≤ 4)
  | .atom f => atomCode false f.aop.toNat f.t.toNat f.sc.toNat
  | .red f => atomCode true f.aop.toNat f.t.toNat f.sc.toNat
  | .bra _ | .call _ | .callf _ | .brx _ | .callx _ | .callxF _ => true
  | .ret | .exit | .eret | .yield | .trap _ | .brk | .regb | .rege | .ipref _ | .bbc _ => true
  | .shfl _ | .rot _ => true
  | .vote f => bit f.v 1 || fld f.d 3 4 == (0 : BitVec 4)
  | .redux f => reduxCode f.op.toNat f.ty.toNat
  | .matchLane _ | .matchLane64 _ => true
  | .icmp f => decide (f.cond.toNat ≤ 9)
  | .fcmp f => decide (f.cond.toNat ≤ 5)
  | .pand _ | .por _ | .pxor _ | .pnot _ => true
  | .barinit _ | .barinitLong _ | .bararv _ | .barexp _ | .waitp _ | .waitpReg _ | .waitpLong _ | .trywait _ => true
  | .crewbar | .gbar _ | .meetarm _ _ | .meet _ | .monitor _ | .mwait _ => true
  | .fence s => decide (s.toNat ≤ 5)
  | .fencex x y => decide (x.toNat ≤ 4) && decide (y.toNat ≤ 4) && x != y
  | .trig _ _ | .trigrst _ _ => true
  | .cpy _ => true
  | .cpyLong f => wfLong f.ds f.ss f.nobar f.barp f.baroff
  | .cpycv f => wfLong f.ds f.ss f.nobar f.barp f.baroff && cvtPair f.td.toNat f.ts.toNat &&
      (!cvtExact f.td.toNat f.ts.toNat || !f.ovf)
  | .cpyt _ | .cpya _ | .cpyaLong _ | .ring _ | .ringLong _ => true
  | .mma _ | .accld _ | .accst _ | .accz _ | .acchk _ => true
  | .colpost _ | .colfire _ => true
  | .mfs _ n => specialListed n.toNat
  | .mts n _ => specialListed n.toNat
  | .tagrd _ | .tagwr _ | .color _ | .watch _ | .inject _ | .spawn _ | .emit _ _ | .cctl | .pref _ | .wbase _ | .injectAcc _ => true
  | .iabs _ | .clz _ | .popc _ | .popcP _ _ | .brev _ | .bfx _ | .lea _ | .mov _ => true
  | .fdot2E4m3 _ => true
  | _ => false

end Sys2Proof
end

