-- ==== Sys2Proof/Safety.lean ====
section
/-! DEFINITION. The terms claims use: the canonical form of the memories, what a slot leaves alone, a warp at the issue
port, and what its active lanes write. -/

namespace Sys2Proof.Machine

/-- The memories and physical arrays are in canonical form (log entries 1 and 2, DESIGN CHOICE). -/
def State.wf (s : State) : Bool :=
  Memory.wf s.mem && Memory.wf s.hostMem && Memory.wf s.peerMem && SMap.wf Reg.zero s.regs && SMap.wf (0 : Byte) s.scr &&
  SMap.wf (0 : Tag) s.scrTag && SMap.wf Reg.zero s.acc && SMap.wf (0 : Nat) s.pend && SMap.wf (0 : Nat) s.counters

/-! ## What a slot changes in any case

Issuing a slot moves threads from place to place, ends or sets their waits, counts (R280, R283 to R285, R249), and
changes the warps. `still` blanks exactly these, so two states with equal `still` agree on everything else: registers,
memories, eartags, buffers, objects, contexts, and every other field of every thread. -/

/-- A level without its held lane-cycles (R284). -/
def Level.still (l : Level) : Level := { l with pend := { l.pend with active := [] } }
/-- A region without its held lane-cycles (R284). -/
def Region.still (r : Region) : Region := { r with pend := { r.pend with active := [] } }

/-- A thread without its place, its waits and its watchdog count. -/
def Thread.still (t : Thread) : Thread :=
  { t with
    pc := 0, at_ := 0, fellThrough := false, status := .boundary, stamp := none, since := 0, late := false, wait := none
    timer := none, timedOut := false, held := none, wdog := 0
    levels := t.levels.map Level.still, region := t.region.map Region.still }

/-- A context without its lane-cycle bins (R285). -/
def Context.still (c : Context) : Context := { c with bins := [] }

/-- Everything of the machine but what issuing a slot changes in any case. -/
def State.still (s : State) : State :=
  { s with
    threads := s.threads.map fun e => (e.1, e.2.still)
    ctxs := s.ctxs.map fun e => (e.1, e.2.still)
    warps := [], counters := [], stalled := [] }

/-! ## A warp at the issue port -/

/-- Whether a thread is a member of the formed warp `e`, as formation makes it (R33, R36, R37, R138). -/
def Thread.memberOf (t : Thread) (e : Env) : Bool :=
  t.status == .inWarp && t.core == e.core && t.quad == e.quad && decide (t.lane < 32) && decide (t.rbase + t.allot ≤ 2048) &&
    t.crew == e.crewId

/-- The lane of a thread. -/
def State.laneOf (s : State) (u : Nat) : Nat := ((s.thread? u).map (·.lane)).getD 0

/-- The warp `e` stands at the issue port, and its members are threads of one crew and one quadrant in ascending lanes. -/
def State.port (s : State) (e : Env) : Bool :=
  s.env? == some e && (e.w.members.all fun u => (s.thread? u).any fun t => t.memberOf e) &&
    decide ((e.w.members.map s.laneOf).Pairwise (· < ·))

/-- The registers an instruction names exist in the thread's window: aligned, below v128, in its allotment, in a handler below
TALLOT (R235, R314, R329). -/
def Env.names (e : Env) (t : Thread) (l : List Use) : Bool :=
  l.all fun u => u.v % u.al == 0 && decide (u.v + u.n ≤ 128) && decide (t.wbase + u.v + u.n ≤ e.c.span t)

/-- Every active lane of the slot meets a condition. -/
def State.lanesAll (s : State) (e : Env) (p : Thread → Bool) : Bool :=
  (s.active e).all fun u => (s.thread? u).any p

/-! ## What the active lanes do -/

/-- Every lane has passed a slot of `n` words: the warp stands at the next slot, or its clause has ended and its
members stand at the boundary of the next clause (R38, R311). -/
def State.passed (s' : State) (e : Env) (n : Nat) : Prop :=
  if e.w.slot + n < e.w.count then
    SMap.get? s'.warps e.wk = some { e.w with slot := e.w.slot + n, arrived := [], issued := false }
  else
    SMap.get? s'.warps e.wk = none ∧
      ∀ u ∈ e.w.members, ∃ t, s'.thread? u = some t ∧ t.status = .boundary ∧ t.pc = e.w.pc + 64 ∧ t.at_ = 0

/-- Registers from v`d` on, as what a lane writes. -/
def fromReg (d : Nat) (rs : List Reg) (v : Nat) : Option Reg := if d ≤ v then rs[v - d]? else none

/-- Between `s` and `s'` every active lane wrote what `w` gives for each register v of its window, and no other register
changed, nor anything else that a slot does not change in any case; the slot of `n` words is passed. -/
def State.lanesWrote (s s' : State) (e : Env) (n : Nat) (w : Thread → Nat → Option Reg) : Prop :=
  s'.still = { s.still with regs := s'.regs } ∧ s'.passed e n ∧
  (∀ u ∈ s.active e, ∀ t, s.thread? u = some t → ∀ v r, w t v = some r → s'.reg t v = r) ∧
  (∀ k, (∀ u ∈ s.active e, ∀ t, s.thread? u = some t → ∀ v r, w t v = some r → k ≠ t.key (t.wbase + v)) →
    SMap.getD s'.regs Reg.zero k = SMap.getD s.regs Reg.zero k)

/-- Between `s` and `s'` every active lane changed its own thread by `g`, and nothing else changed that a slot does not
change in any case; the slot of `n` words is passed. -/
def State.lanesSet (s s' : State) (e : Env) (n : Nat) (g : Thread → Thread) : Prop :=
  s'.still = { s.still with threads := s'.still.threads } ∧ s'.passed e n ∧
  (∀ u ∈ s.active e, (s'.thread? u).map Thread.still = (s.thread? u).map fun t => (g t).still) ∧
  (∀ u, u ∉ s.active e → (s'.thread? u).map Thread.still = (s.thread? u).map Thread.still)

/-! ## Forms of statements about instructions that write registers or predicates -/

/-- Instruction `i` completes and every active lane writes `val` from v`d` on: for every warp at the issue port whose
active lanes have the registers `uses` and meet `ok`. -/
def writes (i : Instr) (d : Nat) (uses : List Use) (ok : State → Env → Thread → Bool) (val : State → Env → Thread → List Reg) : Prop :=
  ∀ s e, s.port e = true → s.lanesAll e (fun t => e.names t uses && ok s e t) = true →
    ∃ s', exec i s = .next s' ∧ s.lanesWrote s' e 1 fun t => fromReg d (val s e t)

/-- Instruction `i` completes and every active lane changes its own thread by `g`. -/
def sets (i : Instr) (uses : List Use) (ok : State → Env → Thread → Bool) (g : State → Env → Thread → Thread) : Prop :=
  ∀ s e, s.port e = true → s.lanesAll e (fun t => e.names t uses && ok s e t) = true →
    ∃ s', exec i s = .next s' ∧ s.lanesSet s' e 1 (g s e)

/-- A lane's condition that always holds. -/
def always : State → Env → Thread → Bool := fun _ _ _ => true

/-- One 32-bit register as an operand of the clause rule (R74). -/
def State.opd32 (s : State) (t : Thread) (v : VReg) : Opd := ⟨(s.reg t v.toNat).val.toNat, (s.reg t v.toNat).tag⟩
/-- A register pair as an operand of the clause rule (R74, R77). -/
def State.opd64 (s : State) (t : Thread) (v : VReg) : Opd := ⟨(s.pair t v.toNat).1.toNat, (s.pair t v.toNat).2⟩
/-- An operand of another width than the result: its bits equal no result's (log entry 13, DEDUCED). -/
def Opd.narrow (o : Opd) : Opd := ⟨2 ^ 64 + o.bits, o.tag⟩

/-- A 32-bit result whose eartag the clause's rule gives from its operands (R74), `sel` the eartag of the operand an
instruction that selects has chosen. -/
def Env.result32 (e : Env) (opds : List Opd) (a : Tag) (sel : Option Tag) (x : Word) : List Reg :=
  [⟨x, ruleTag e.rule e.ownTag opds a sel x.toNat⟩]

/-- A 64-bit result (R74, R77). -/
def Env.result64 (e : Env) (opds : List Opd) (a : Tag) (sel : Option Tag) (x : DWord) : List Reg :=
  pairRegs x (ruleTag e.rule e.ownTag opds a sel x.toNat)

/-- The 32-bit register v`v` of a lane. -/
def State.w32 (s : State) (t : Thread) (v : VReg) : Word := (s.reg t v.toNat).val
/-- The 64-bit pair at v`v` of a lane. -/
def State.w64 (s : State) (t : Thread) (v : VReg) : DWord := (s.pair t v.toNat).1

/-- A two-source instruction of major 1 in its four type variants (R320): `op` and `ovf` are given the width and whether the form is signed; a
signed form that overflows while IOVF is 1 is a birth and outside this statement (R105). `sel` says that it selects. -/
def typed (i : FVdab → Instr) (sel : Bool) (op : (w : Nat) → Bool → BitVec w → BitVec w → BitVec w)
    (ovf : (w : Nat) → BitVec w → BitVec w → Bool) : Prop :=
  ∀ f : FVdab,
    let sgn := !bit f.v 0
    (bit f.v 1 = false →
      writes (i f) f.d.toNat [⟨f.d.toNat, 1, 1⟩, ⟨f.a.toNat, 1, 1⟩, ⟨f.b.toNat, 1, 1⟩]
        (fun s _ t => !(sgn && t.iovf && ovf 32 (s.w32 t f.a) (s.w32 t f.b)))
        (fun s e t =>
          let r := op 32 sgn (s.w32 t f.a) (s.w32 t f.b)
          e.result32 [s.opd32 t f.a, s.opd32 t f.b] (s.opd32 t f.a).tag
            (if sel then some (if r = s.w32 t f.a then (s.opd32 t f.a).tag else (s.opd32 t f.b).tag) else none) r)) ∧
    (bit f.v 1 = true →
      writes (i f) f.d.toNat [⟨f.d.toNat, 2, 2⟩, ⟨f.a.toNat, 2, 2⟩, ⟨f.b.toNat, 2, 2⟩]
        (fun s _ t => !(sgn && t.iovf && ovf 64 (s.w64 t f.a) (s.w64 t f.b)))
        (fun s e t =>
          let r := op 64 sgn (s.w64 t f.a) (s.w64 t f.b)
          e.result64 [s.opd64 t f.a, s.opd64 t f.b] (s.opd64 t f.a).tag
            (if sel then some (if r = s.w64 t f.a then (s.opd64 t f.a).tag else (s.opd64 t f.b).tag) else none) r))

/-- A one-source instruction of major 29 in its two widths (R320), with a result of the operand's width; `birth` marks
the operands that are a birth while IOVF is 1 (R105). -/
def unaryTyped (i : FWda → Instr) (op : (w : Nat) → BitVec w → BitVec w) (birth : (w : Nat) → BitVec w → Bool) : Prop :=
  ∀ f : FWda,
    (f.wide = false →
      writes (i f) f.d.toNat [⟨f.d.toNat, 1, 1⟩, ⟨f.a.toNat, 1, 1⟩] (fun s _ t => !(t.iovf && birth 32 (s.w32 t f.a)))
        (fun s e t => e.result32 [s.opd32 t f.a] (s.opd32 t f.a).tag none (op 32 (s.w32 t f.a)))) ∧
    (f.wide = true →
      writes (i f) f.d.toNat [⟨f.d.toNat, 2, 2⟩, ⟨f.a.toNat, 2, 2⟩] (fun s _ t => !(t.iovf && birth 64 (s.w64 t f.a)))
        (fun s e t => e.result64 [s.opd64 t f.a] (s.opd64 t f.a).tag none (op 64 (s.w64 t f.a))))

/-- A one-source instruction of major 29 that counts bits: its result is one register in both widths (R349, R408). -/
def unaryCount (i : FWda → Instr) (op : (w : Nat) → BitVec w → Nat) : Prop :=
  ∀ f : FWda,
    (f.wide = false →
      writes (i f) f.d.toNat [⟨f.d.toNat, 1, 1⟩, ⟨f.a.toNat, 1, 1⟩] always
        (fun s e t => e.result32 [s.opd32 t f.a] (s.opd32 t f.a).tag none (BitVec.ofNat 32 (op 32 (s.w32 t f.a))))) ∧
    (f.wide = true →
      writes (i f) f.d.toNat [⟨f.d.toNat, 1, 1⟩, ⟨f.a.toNat, 2, 2⟩] always
        (fun s e t => e.result32 [(s.opd64 t f.a).narrow] (s.opd64 t f.a).tag none (BitVec.ofNat 32 (op 64 (s.w64 t f.a)))))

/-- A shift of major 1 in its type variants (R423): the count is b modulo the width. -/
def shifts (i : FVdab → Instr) (op : (w : Nat) → BitVec w → Nat → BitVec w) : Prop :=
  ∀ f : FVdab,
    (bit f.v 1 = false →
      writes (i f) f.d.toNat [⟨f.d.toNat, 1, 1⟩, ⟨f.a.toNat, 1, 1⟩, ⟨f.b.toNat, 1, 1⟩] always
        (fun s e t => e.result32 [s.opd32 t f.a, s.opd32 t f.b] (s.opd32 t f.a).tag none
          (op 32 (s.w32 t f.a) ((s.w32 t f.b).toNat % 32)))) ∧
    (bit f.v 1 = true →
      writes (i f) f.d.toNat [⟨f.d.toNat, 2, 2⟩, ⟨f.a.toNat, 2, 2⟩, ⟨f.b.toNat, 1, 1⟩] always
        (fun s e t => e.result64 [s.opd64 t f.a, (s.opd32 t f.b).narrow] (s.opd64 t f.a).tag none
          (op 64 (s.w64 t f.a) ((s.w32 t f.b).toNat % 64))))

/-- An instruction with a 13-bit immediate and a 32-bit result that is never a birth (R315). -/
def immediate (i : FImm → Instr) (op : Word → BitVec 13 → Word) : Prop :=
  ∀ f : FImm, writes (i f) f.d.toNat [⟨f.d.toNat, 1, 1⟩, ⟨f.a.toNat, 1, 1⟩] always
    (fun s e t => e.result32 [s.opd32 t f.a] (s.opd32 t f.a).tag none (op (s.w32 t f.a) f.imm))

/-- The field of BFI and BFX that a control word names (R339, R340): its position and its length within the register. -/
def fieldOf (c : Word) : Nat × Nat := ((c.extractLsb' 0 5).toNat, min (c.extractLsb' 8 6).toNat (32 - (c.extractLsb' 0 5).toNat))

/-- The mask of a field. -/
def fieldMask (p n : Nat) : Word := (1#32 <<< n - 1#32) <<< p

/-- An integer compare (R322): eq, ne, four signed and four unsigned orders. -/
def intCond {w : Nat} (cond : Nat) (x y : BitVec w) : Bool :=
  match cond with
  | 0 => x == y
  | 1 => x != y
  | 2 => x.slt y
  | 3 => x.sle y
  | 4 => y.slt x
  | 5 => y.sle x
  | 6 => x.ult y
  | 7 => x.ule y
  | 8 => y.ult x
  | _ => y.ule x

/-- No operand among these registers stops a lane at a point of use (R88, R89): the policy is not trap on use, or none
is A-tagged. -/
def State.noUse (s : State) (t : Thread) (l : List Nat) : Bool := t.policy != 2 || l.all fun v => !isA (s.reg t v).tag

/-- A three-operand FP32 instruction. -/
def floatWrites (i : Instr) (d : VReg) (l : List VReg) (ok : State → Env → Thread → Bool) (val : State → Env → Thread → Nat)
    (sel : State → Env → Thread → Option Tag) : Prop :=
  writes i d.toNat (⟨d.toNat, 1, 1⟩ :: l.map fun v => ⟨v.toNat, 1, 1⟩) ok
    (fun s e t => e.result32 (l.map (s.opd32 t)) ((l.map (s.opd32 t)).head?.map (·.tag) |>.getD 0) (sel s e t) (BitVec.ofNat 32 (val s e t)))

/-- An operand of a vector instruction as an exact value: a subnormal is a zero when FTZ is 1 (R102). -/
def State.f32 (s : State) (e : Env) (t : Thread) (v : VReg) : FVal := fF32.opnd e.ftz (s.w32 t v).toNat

/-- Whether an FP32 result is no birth (R73, R75): no NaN from operands that are no NaN, no infinity from finite ones. -/
def noBirth (f : Fmt) (v : FVal) (ops : List FVal) : Bool := f.birthKind (f.round v) ops == 0

/-- Element `i` of a packed register as an exact value (R99, R102). -/
def State.f16 (s : State) (e : Env) (t : Thread) (h : Bool) (v : VReg) (i : Nat) : FVal :=
  (fmt16 h).opnd e.ftz ((s.w32 t v).extractLsb' (16 * i) 16).toNat

/-- Two 16-bit results in one register, element 0 low (R99). -/
def pack16 (f : Fmt) (ftz : Bool) (x : Nat → FVal) : Word :=
  BitVec.ofNat 32 (f.flush ftz (f.round (x 0)) + 2 ^ 16 * f.flush ftz (f.round (x 1)))

/-! ## Cross-lane instructions -/

/-- The active lanes of the slot, in ascending order. -/
def State.lanesOf (s : State) (e : Env) : List Thread := (s.active e).filterMap s.thread?

/-- The active lanes a lane shares its group with: its half under C16, else all (R293). -/
def State.groupOfLane (s : State) (e : Env) (t : Thread) : List Thread :=
  (s.lanesOf e).filter fun x => !e.launch.c16 || x.lane / 16 == t.lane / 16

/-- The first lane of a lane's group (R293). -/
def Env.firstLane (e : Env) (t : Thread) : Nat := if e.launch.c16 then t.lane / 16 * 16 else 0

/-- Register `a` of the active lane `l`, or the lane's own when `l` is no active lane (R422, R425). -/
def State.regOfLane (s : State) (e : Env) (t : Thread) (a : VReg) (l : Option Nat) : Reg :=
  ((l.bind fun l => (s.lanesOf e).find? fun x => x.lane == l).map fun x => s.reg x a.toNat).getD (s.reg t a.toNat)

/-- A set of lanes as a mask from the group's first lane on. -/
def Env.maskOf (e : Env) (t : Thread) (l : List Thread) : Word :=
  l.foldl (fun m x => m ||| BitVec.ofNat 32 (2 ^ (x.lane - e.firstLane t))) 0

/-- The running value of REDUX over the lanes' values, in ascending lane order (R415). -/
def reduxValue (op ty : Nat) (ftz : Bool) : Nat → List Nat → Nat
  | r, [] => r
  | r, y :: ys => reduxValue op ty ftz (reduxStep op ty ftz r y).1 ys

/-- The eartag of the lane whose value wins a min or max over the lanes, the lowest one's on equal values (R416). -/
def reduxWinner (op ty : Nat) (ftz : Bool) : Nat → Tag → List (Nat × Tag) → Tag
  | _, g, [] => g
  | r, g, y :: ys =>
    reduxWinner op ty ftz (reduxStep op ty ftz r y.1).1 (if (reduxStep op ty ftz r y.1).2.1 then y.2 else g) ys

/-- The eartag of REDUX over the lanes `l` when no step is a birth: the winner's under min and max, else the birth rule's (R83, R416). -/
def State.reduxTag (s : State) (e : Env) (f : FRedux) (l : List Thread) : Tag :=
  if f.op = 1 ∨ f.op = 2 then
    match l.map fun x => ((s.w32 x f.a).toNat, (s.opd32 x f.a).tag) with
    | [] => e.ownTag
    | x :: xs => reduxWinner f.op.toNat f.ty.toNat e.ftz (if f.ty = 2 then fF32.flush e.ftz x.1 else x.1) x.2 xs
  else birthRule e.ownTag (l.map fun x => s.opd32 x f.a)

/-- Whether no step of REDUX over the lanes' values is a birth (R416). -/
def reduxQuiet (op ty : Nat) (ftz : Bool) : Nat → List Nat → Bool
  | _, [] => true
  | r, y :: ys => (reduxStep op ty ftz r y).2.2 == 0 && reduxQuiet op ty ftz (reduxStep op ty ftz r y).1 ys

/-- The values REDUX runs over: register a of the given lanes, the first one flushed in a float form (R102). -/
def State.reduxIn (s : State) (e : Env) (f : FRedux) (l : List Thread) : Nat × List Nat :=
  match l.map fun x => (s.w32 x f.a).toNat with
  | [] => (0, [])
  | x :: xs => (if f.ty = 2 then fF32.flush e.ftz x else x, xs)

/-- A cross-lane instruction completes and every active lane writes `val` from v`d` on. No lane is a continuation: one
stalls before the instruction (R200). -/
def crossWrites (i : Instr) (d : Nat) (uses : List Use) (val : State → Env → Thread → List Reg) : Prop :=
  writes i d uses (fun _ _ t => !t.spec) val

/-! ## Instructions whose lanes act on more than registers -/

/-- The effects `f` of the lanes, one after another, each of them with the registers `uses` and under the condition `ok`;
`none` when a lane does not meet it. -/
def laneRun (e : Env) (uses : List Use) (ok : State → Env → Nat → Thread → Bool) (f : State → Env → Nat → Thread → State) :
    State → List Nat → Option State
  | s, [] => some s
  | s, u :: us =>
    match s.thread? u with
    | none => none
    | some t =>
      if t.status == .inWarp && e.names t uses && ok s e u t then laneRun e uses ok f ((f s e u t).arrive e.wk u) us else none

/-- Instruction `i` completes with the effects `f` of its active lanes in ascending order (R329), and nothing else
changes that a slot does not change in any case; the slot of `n` words is passed. -/
def effects (i : Instr) (n : Nat) (uses : List Use) (ok : State → Env → Nat → Thread → Bool)
    (f : State → Env → Nat → Thread → State) : Prop :=
  ∀ s e b, s.port e = true → laneRun e uses ok f (s.begin e) (s.active e) = some b →
    ∃ s', exec i s = .next s' ∧ s'.still = b.still ∧ s'.passed e n

/-- The slot begins with a new operation that holds the flag its F bit names (R15). -/
def State.openOp (s : State) (e : Env) (fb : Bool) : State :=
  ({ s with ops := SMap.put s.ops s.nextOp ⟨[], e.flag fb, 1⟩, nextOp := s.nextOp + 1 } : State).begin e

/-- Instruction `i` completes with the effects of its active lanes, which share one operation; with no piece of a lane left in
it the operation is over with the issue. `f` gets the operation's number. -/
def effectsOp (i : Instr) (fb : Bool) (uses : List Use) (ok : State → Env → Nat → Thread → Bool)
    (f : Nat → State → Env → Nat → Thread → State) : Prop :=
  ∀ s e b, s.port e = true → laneRun e uses ok (f s.nextOp) (s.openOp e fb) (s.active e) = some b →
    ∃ s', exec i s = .next s' ∧ s'.still = (b.opDone s.nextOp).still ∧ s'.passed e 1

/-- The members `ms` that are left of the warp have passed a slot of `n` words; with none left the warp is gone. -/
def State.passedBy (s' : State) (e : Env) (n : Nat) (ms : List Nat) : Prop :=
  if ms = [] then SMap.get? s'.warps e.wk = none
  else if e.w.slot + n < e.w.count then
    SMap.get? s'.warps e.wk = some { e.w with members := ms, slot := e.w.slot + n, arrived := [], issued := false }
  else
    SMap.get? s'.warps e.wk = none ∧
      ∀ u ∈ ms, ∃ t, s'.thread? u = some t ∧ t.status = .boundary ∧ t.pc = e.w.pc + 64 ∧ t.at_ = 0

/-- Where a lane that has left its warp stands: the clause, the slot in it, its status and its wait. -/
structure Stand where
  pc : Nat
  at_ : Nat
  status : Status
  wait : Option Wait

/-- A thread stands outside its warp at a place. -/
def State.standsAt (s' : State) (u : Nat) (p : Stand) : Prop :=
  ∃ t, s'.thread? u = some t ∧ t.pc = p.pc ∧ t.at_ = p.at_ ∧ t.status = p.status ∧ t.wait = p.wait

/-- Instruction `i`, in a slot with one active lane, completes with the effect `f`, the lane leaves its warp for the
place `at_`, and the rest of the warp passes the slot. -/
def departs (i : Instr) (n : Nat) (uses : List Use) (ok : State → Env → Nat → Thread → Bool)
    (f : State → Env → Nat → Thread → State) (place : State → Env → Nat → Thread → Stand) : Prop :=
  ∀ s e u t, s.port e = true → s.active e = [u] → (s.begin e).thread? u = some t → e.names t uses = true →
    ok (s.begin e) e u t = true →
    ∃ s', exec i s = .next s' ∧ s'.still = (f (s.begin e) e u t).still ∧ s'.standsAt u (place (s.begin e) e u t) ∧
      s'.passedBy e n (e.w.members.filter (· != u))

/-- The lane takes a trap: its fault record is written, or waits for its page, and it parks for delivery at the place
`p`, in a sub-warp named by its first record (R230 to R232). -/
def trapStand (s : State) (e : Env) (u : Nat) (t : Thread) (tr : Trap) (p : Nat × Nat) : Stand :=
  ⟨p.1, p.2, .parked (s.faultRecord (e.issuer u t) tr (2 ^ t.lane) t.held.isSome false).2 { tr with group := s.trapGroup e.crew.ctx }, none⟩

/-- Whether a context exists and has not ended. -/
def State.live (s : State) (cid : Nat) : Bool := (SMap.get? s.ctxs cid).any fun c => !c.ended

/-- A lane that may trap: outside a handler, no continuation, and its record does not end the context (R237). -/
def State.mayTrap (s : State) (e : Env) (u : Nat) (t : Thread) (tr : Trap) : Bool :=
  t.handler.isNone && !t.spec && (s.faultRecord (e.issuer u t) tr (2 ^ t.lane) t.held.isSome false).1.live e.crew.ctx

/-- Instruction `i`, in a slot with one active lane that meets `ok`, has the lane take the trap `tr`: with its fault record written, the
lane parks for delivery at the slot, or past it, and has no other effect (R230 to R232). -/
def traps (i : Instr) (ok : State → Env → Thread → Bool) (tr : State → Env → Thread → Trap) (past : Bool) : Prop :=
  departs i 1 [] (fun s e u t => ok s e t && s.mayTrap e u t (tr s e t))
    (fun s e u t => (s.faultRecord (e.issuer u t) (tr s e t) (2 ^ t.lane) t.held.isSome false).1)
    (fun s e u t => trapStand s e u t (tr s e t)
      (if past then (if e.w.slot + 1 < e.w.count then (e.w.pc, e.w.slot + 1) else (e.w.pc + 64, 0)) else (e.w.pc, e.w.slot)))

/-- Between `s` and `s'` the active lanes wrote the registers `w`, as `lanesWrote` says; each lane for which `tgt` gives a
clause stands at it outside the warp, and the rest of the warp has passed the slot. -/
def State.lanesMoved (s s' : State) (e : Env) (w : Thread → Nat → Option Reg) (tgt : Thread → Option Nat) : Prop :=
  s'.still = { s.still with regs := s'.regs } ∧
  (∀ u ∈ s.active e, ∀ t, s.thread? u = some t → ∀ v r, w t v = some r → s'.reg t v = r) ∧
  (∀ k, (∀ u ∈ s.active e, ∀ t, s.thread? u = some t → ∀ v r, w t v = some r → k ≠ t.key (t.wbase + v)) →
    SMap.getD s'.regs Reg.zero k = SMap.getD s.regs Reg.zero k) ∧
  (∀ u ∈ s.active e, ∀ t, s.thread? u = some t → ∀ pc, tgt t = some pc → s'.standsAt u ⟨pc, 0, .boundary, none⟩) ∧
  s'.passedBy e 1 (e.w.members.filter fun u => !((s.active e).contains u && ((s.thread? u).bind tgt).isSome))

/-- A transfer target that is no unresolved stub (R291): its clause is in the instruction cache, or memory holds no stub
there. -/
def State.noStub (s : State) (e : Env) (pc : Nat) : Bool :=
  (SMap.get? s.icache (icKey e.core e.crew.ctx pc)).isSome ||
    match s.transDev e.c ((e.c.cspace + pc) % 2 ^ 64) with
    | .hit h => (match h.loc with
      | .hbm a => BitVec.ofNat 32 (ofBytes (readCells s.mem a 4)) != stubMark
      | _ => false)
    | _ => true

/-- The clause a signed offset names (R16). -/
def Env.target (e : Env) (off : Int) : Nat := (((e.w.pc : Int) + 64 * off) % 2 ^ 64).toNat

/-- Instruction `i` completes: every active lane writes the registers `w`, goes to the clause `tgt` gives or passes the
slot. -/
def moves (i : Instr) (uses : List Use) (ok : State → Env → Thread → Bool) (w : State → Env → Thread → Nat → Option Reg)
    (tgt : State → Env → Thread → Option Nat) : Prop :=
  ∀ s e, s.port e = true → s.lanesAll e (fun t => e.names t uses && ok s e t) = true →
    ∃ s', exec i s = .next s' ∧ s.lanesMoved s' e (w s e) (tgt s e)

/-- No register. -/
def noReg : State → Env → Thread → Nat → Option Reg := fun _ _ _ _ => none

/-- The link of a call: the return clause, with the call's own eartag (R345). -/
def linkRegs (e : Env) : Nat → Option Reg := fromReg 124 (pairRegs (BitVec.ofNat 64 ((e.w.pc + 64) % 2 ^ 64)) e.ownTag)

/-- An address that an indirect transfer may take (R344, R363): aligned to a clause and not the fork token. -/
def plainTarget (x : Nat) : Bool := x % 64 == 0 && x != 0xFFFFFFFFFFFFFFC0

/-- The effect `f` of an instruction that issues once, for the group: the lowest active lane `u` supplies the operands
(R329), every active lane meets `lane`, and `first` holds of that lane. -/
def onceEffects (i : Instr) (n : Nat) (uses : List Use) (lane : State → Env → Thread → Bool)
    (first : State → Env → Nat → Thread → Bool) (f : State → Env → Nat → Thread → List Nat → State) : Prop :=
  ∀ s e u us t, s.port e = true → s.active e = u :: us → (s.begin e).thread? u = some t →
    s.lanesAll e (fun t => e.names t uses && lane s e t) = true → first (s.begin e) e u t = true →
    ∃ s', exec i s = .next s' ∧ s'.still = (f (s.begin e) e u t (s.active e)).still ∧ s'.passed e n

/-- The eartag and the writes of a birth by a lane's own instruction: an open region commits first, and the record is EARLY (R86); the
record, then the result's registers from v`d` on with the record's eartag (R71, R75). -/
def State.born (s : State) (e : Env) (u : Nat) (t : Thread) (kind : Nat) (o : BirthOps) (d : Nat) (rs : Tag → List Reg) : State :=
  let b := s.laneBirth e u t kind o
  b.1.setRegs t d (rs b.2)

/-- A record is written at once: its page is at hand, and no rule ends the context for it (R71, R237). -/
def State.recorded (s s' : State) (cid : Nat) : Bool := s'.live cid && (s.pagesFor s').isEmpty

/-- A lane whose birth goes on: no continuation (R85), no trap on birth (R88), and its record is written at once (R71,
R237). -/
def State.mayBear (s : State) (e : Env) (u : Nat) (t : Thread) (kind : Nat) (o : BirthOps) : Bool :=
  !t.spec && t.policy != 1 && s.recorded (s.laneBirth e u t kind o).1 e.crew.ctx

/-- A lane's result with the birth of kind `kind`, or with none (kind 0) and the eartag `g` of the clause's rule (R74, R75). -/
def State.bornOr (s : State) (e : Env) (u : Nat) (t : Thread) (kind : Nat) (o : BirthOps) (d : Nat) (g : Tag) (rs : Tag → List Reg) : State :=
  if kind = 0 then s.setRegs t d (rs g) else s.born e u t kind o d rs

/-- The operands of the clause's rule, in the order d-source, a, b, c, and the eartag of operand a (R74). -/
structure RuleOps where
  opds : List Opd
  a : Tag

/-- An instruction that may birth: each lane writes the result `x` from v`d` on, one register or a pair; a lane whose result is a birth
writes a record of kind `kind` with the operands `o`, and its result takes the record's eartag; another lane's result takes
the eartag of the clause's rule over `ops` (R71, R72, R74, R75). -/
def bears {w : Nat} (i : Instr) (d : VReg) (uses : List Use) (kind : State → Env → Thread → Nat) (o : State → Env → Thread → BirthOps)
    (ops : State → Thread → RuleOps) (x : State → Env → Thread → BitVec w) : Prop :=
  effects i 1 uses (fun s e u t => kind s e t == 0 || s.mayBear e u t (kind s e t) (o s e t))
    (fun s e u t => s.bornOr e u t (kind s e t) (o s e t) d.toNat
      (ruleTag e.rule e.ownTag (ops s t).opds (ops s t).a none (x s e t).toNat) (resultRegs w (x s e t).toNat))

/-- A signed form of a two-source instruction of major 1 in both widths: kind 4 while IOVF is 1 and `when_` holds of the operands (R73,
R105); the record holds the operands' low words and eartags (log entry 43, DEDUCED, for the wide form). -/
def birth2 (i : FVdab → Instr) (when_ : (w : Nat) → BitVec w → BitVec w → Bool) (op : (w : Nat) → BitVec w → BitVec w → BitVec w) : Prop :=
  ∀ f : FVdab,
    (f.v = 0 → bears (i f) f.d [⟨f.d.toNat, 1, 1⟩, ⟨f.a.toNat, 1, 1⟩, ⟨f.b.toNat, 1, 1⟩]
      (fun s _ t => if t.iovf && when_ 32 (s.w32 t f.a) (s.w32 t f.b) then 4 else 0)
      (fun s _ t => ⟨s.w32 t f.a, s.w32 t f.b, 0, (s.opd32 t f.a).tag, (s.opd32 t f.b).tag, 0⟩)
      (fun s t => ⟨[s.opd32 t f.a, s.opd32 t f.b], (s.opd32 t f.a).tag⟩) (fun s _ t => op 32 (s.w32 t f.a) (s.w32 t f.b))) ∧
    (f.v = 2 → bears (i f) f.d [⟨f.d.toNat, 2, 2⟩, ⟨f.a.toNat, 2, 2⟩, ⟨f.b.toNat, 2, 2⟩]
      (fun s _ t => if t.iovf && when_ 64 (s.w64 t f.a) (s.w64 t f.b) then 4 else 0)
      (fun s _ t => ⟨(s.w64 t f.a).extractLsb' 0 32, (s.w64 t f.b).extractLsb' 0 32, 0, (s.opd64 t f.a).tag, (s.opd64 t f.b).tag, 0⟩)
      (fun s t => ⟨[s.opd64 t f.a, s.opd64 t f.b], (s.opd64 t f.a).tag⟩) (fun s _ t => op 64 (s.w64 t f.a) (s.w64 t f.b)))

/-- What a record holds of one, two and three 32-bit operands (R72). -/
def State.ops1 (s : State) (t : Thread) (a : VReg) : BirthOps := ⟨s.w32 t a, 0, 0, (s.opd32 t a).tag, 0, 0⟩
def State.ops2 (s : State) (t : Thread) (a b : VReg) : BirthOps := ⟨s.w32 t a, s.w32 t b, 0, (s.opd32 t a).tag, (s.opd32 t b).tag, 0⟩
def State.ops3 (s : State) (t : Thread) (a b c : VReg) : BirthOps :=
  ⟨s.w32 t a, s.w32 t b, s.w32 t c, (s.opd32 t a).tag, (s.opd32 t b).tag, (s.opd32 t c).tag⟩

/-- The 32-bit registers `l` as the operands of the clause's rule, the first of them operand a (R74). -/
def State.rule32 (s : State) (t : Thread) (l : List VReg) : RuleOps :=
  ⟨l.map (s.opd32 t), ((l.map (s.opd32 t)).head?.map (·.tag)).getD 0⟩

/-- A result that rounds the exact value `v` of the operands `l` once to FP32, and the birth kind it has (R75, R100, R102). -/
def roundsTo (i : Instr) (d : VReg) (uses : List Use) (v : State → Env → Thread → FVal) (l : State → Env → Thread → List FVal)
    (o : State → Env → Thread → BirthOps) (ops : State → Thread → RuleOps) : Prop :=
  bears i d uses (fun s e t => fF32.birthKind (fF32.round (v s e t)) (l s e t)) o ops
    (fun s e t => BitVec.ofNat 32 (fF32.flush e.ftz (fF32.round (v s e t))))

/-- Element `i` of a packed register as a record holds it (R73). -/
def State.half (s : State) (t : Thread) (v : VReg) (i : Nat) : Word := ((s.w32 t v).extractLsb' (16 * i) 16).zeroExtend 32

/-- A packed instruction of FP16 or BF16 elements: element i is the exact value `v i` of its operands `l i` rounded once; the
lower element that is a birth gives the record its kind and operands (R73, R106). -/
def packedTo (i : Instr) (h : Bool) (d : VReg) (rs : List VReg) (v : State → Env → Thread → Nat → FVal) (l : State → Env → Thread → Nat → List FVal)
    (o : State → Thread → Nat → BirthOps) : Prop :=
  let kind := fun s e t n => (fmt16 h).birthKind ((fmt16 h).round (v s e t n)) (l s e t n)
  bears i d (⟨d.toNat, 1, 1⟩ :: rs.map fun x => ⟨x.toNat, 1, 1⟩) (fun s e t => if kind s e t 0 ≠ 0 then kind s e t 0 else kind s e t 1)
    (fun s e t => o s t (if kind s e t 0 ≠ 0 then 0 else 1)) (fun s t => s.rule32 t rs) (fun s e t => pack16 (fmt16 h) e.ftz (v s e t))

/-- The birth kind of FADD's rounded result (R75). -/
def State.addKind (s : State) (e : Env) (t : Thread) (f : Fdab) : Nat :=
  fF32.birthKind (fF32.round (fsum [s.f32 e t f.a, s.f32 e t f.b])) [s.f32 e t f.a, s.f32 e t f.b]

/-- The trap of a birth under trap on birth (R88). -/
def birthTrap (s : State) (e : Env) (u : Nat) (t : Thread) (kind : Nat) (o : BirthOps) : Trap :=
  { num := 12, cause := kind, tag := (s.laneBirth e u t kind o).2 }

/-- QUANT's code registers from v`d` on, each with its elements and their sources (R413): the first element of a register that
is a birth gives its record and its eartag, another register takes the eartag `g`; with the eartag of the first record. -/
def State.quantRegs (e : Env) (u : Nat) (g : Tag) : Nat → List (List (Narrowed × Opd)) → State → Option Tag → State × Option Tag
  | _, [], s, b => (s, b)
  | d, els :: l, s, b =>
    match s.thread? u with
    | none => (s, b)
    | some t =>
      let x := BitVec.ofNat 32 (packElems (32 / els.length) (els.map fun y => y.1.code))
      match els.find? fun y => y.1.kind != 0 with
      | none => State.quantRegs e u g (d + 1) l (s.setRegs t d [⟨x, g⟩]) b
      | some y =>
        let z := s.laneBirth e u t y.1.kind ⟨BitVec.ofNat 32 y.2.bits, 0, 0, y.2.tag, 0, 0⟩
        State.quantRegs e u g (d + 1) l (z.1.setRegs t d [⟨x, z.2⟩]) (some (b.getD z.2))

/-- QUANT of a lane (R413): the code registers from v`d` on, then the scale in v`b` with the first record's eartag, else that of
the birth rule over the sources. -/
def State.quanted (s : State) (e : Env) (u : Nat) (t : Thread) (f : FQuant) : State :=
  let n := if f.tgt = 2 then 4 else 8
  let src := (List.range 32).map fun i => (⟨(s.reg t (f.a.toNat + i)).val.toNat, (s.reg t (f.a.toNat + i)).tag⟩ : Opd)
  let q := quantise f.tgt.toNat (src.map (·.bits))
  let g := birthRule e.ownTag src
  let r := State.quantRegs e u g f.d.toNat (groupsOf (32 / n) n (q.2.zip src)) s none
  r.1.setRegs t f.b.toNat [⟨BitVec.ofNat 32 q.1, r.2.getD g⟩]

/-- REDUX of one group of lanes whose steps may be births (R416): the first step that is one births a record in its lane, with the
running value and the lane's value; the results over that step take the record's eartag. `s0` holds the registers as read. -/
def State.reduxGroup (s0 s : State) (e : Env) (f : FRedux) (ms : List (Nat × Thread)) : State :=
  let run := fun (l : List (Nat × Thread)) =>
    let x := s0.reduxIn e f (l.map Prod.snd)
    reduxValue f.op.toNat f.ty.toNat e.ftz x.1 x.2
  let kind := fun k => match ms[k]? with
    | some m => (reduxStep f.op.toNat f.ty.toNat e.ftz (run (ms.take k)) (s0.w32 m.2 f.a).toNat).2.2
    | none => 0
  let k := (List.range ms.length).find? fun k => k != 0 && kind k != 0
  let b := match k.bind fun k => ms[k]?.map fun m => (k, m) with
    | some (k, m) =>
      let z := s.laneBirth e m.1 m.2 (kind k)
        ⟨BitVec.ofNat 32 (run (ms.take k)), s0.w32 m.2 f.a, 0, s0.reduxTag e f ((ms.take k).map Prod.snd), (s0.opd32 m.2 f.a).tag, 0⟩
      (z.1, some (k, z.2))
    | none => (s, none)
  ms.zipIdx.foldl (fun (s : State) m =>
    let l := if f.scan then ms.take (m.2 + 1) else ms
    let g := match b.2 with
      | some x => if x.1 < l.length then x.2 else s0.reduxTag e f (l.map Prod.snd)
      | none => s0.reduxTag e f (l.map Prod.snd)
    s.setRegs m.1.2 f.d.toNat [⟨BitVec.ofNat 32 (run l), g⟩]) b.1

/-- REDUX over the active lanes `l`, in one group or in the two halves (R293, R416). -/
def State.reduxed (s : State) (e : Env) (f : FRedux) (l : List Nat) : State :=
  let ms := l.filterMap fun u => (s.thread? u).map fun t => (u, t)
  let groups := if e.launch.c16 then [ms.filter fun m => decide (m.2.lane < 16), ms.filter fun m => !decide (m.2.lane < 16)] else [ms]
  groups.foldl (fun s' g => s.reduxGroup s' e f g) s

/-- The refusal code of a forkable call, 0 when none applies (R192). -/
def State.forkCode (s : State) (e : Env) (u : Nat) (t : Thread) (target : Nat) : Nat :=
  if 2 ≤ t.depth then 1
  else if 4 ≤ t.nest then 2
  else if t.region.isSome || (t.spec && !(s.pailOf t u).isEmpty) then 3
  else if (s.predFind e.core e.crew.ctx (e.ipc / 4) target).isNone then 4
  else if (s.forkPlace e (e.ipc / 4) t.allot).isNone then 5
  else 0

/-- Instructions of one word before which a continuation always stops (R200): all but COLOR and STX, which open an operation first. -/
def stopsContinuation : Instr → Bool
  | .atom _ | .red _ | .fence _ | .fencex _ _ | .barinit _ | .bararv _ | .barexp _ | .crewbar | .gbar _ | .waitp _ | .waitpReg _ | .monitor _ | .mwait _
  | .meetarm _ _ | .meet _ | .shfl _ | .rot _ | .vote _ | .redux _ | .matchLane _ | .matchLane64 _ | .popcP _ _ | .brx _ | .callx _ | .callxF _
  | .ret | .spawn _ | .emit _ _ | .trig _ _ | .trigrst _ _ | .regb | .mts _ _ | .watch _ | .inject _ | .yield | .trap _ | .brk | .exit
  | .mma _ | .acchk _ | .accld _ | .accst _ | .accz _ | .injectAcc _ | .cpy _ | .cpyt _ | .cpya _ | .ring _ | .colpost _ | .colfire _ => true
  | _ => false

/-- The waits of a release or a fence at a scope are over at its first try (R167, R169): no open region, an empty store
FIFO, and nothing older at the points the scope waits for. -/
def State.released (s : State) (u : Nat) (t : Thread) (scope : Nat) : Bool :=
  t.region.isNone && t.fifo.isEmpty && (decide (scope ≤ 1) ||
    match t.wait with
    | some (.fence _) => false
    | _ => s.markerDone t.core u scope s.nextStore)

/-- Where the slot after one of `n` words stands. -/
def Env.nextAt (e : Env) (n : Nat) : Nat × Nat := if e.w.slot + n < e.w.count then (e.w.pc, e.w.slot + n) else (e.w.pc + 64, 0)

/-- A thread's save block as memory holds it, when it has the form R236 asks: registers, RPC, predicates, %wbase. -/
def State.saveBlock (s : State) (c : Context) (t : Thread) : Option (List Reg × Nat × Nat × Nat) :=
  let n := min (32 * (c.ta + 1)) t.allot
  let a := t.block
  match s.readSave c a (n / 4), s.readSave c (a + 0x200) (n / 4), s.readSave c (a + 0x400) 2 with
  | .ok data, .ok tags, .ok rest =>
    (saveRegs n data tags).map fun rs => (rs, ofBytes (rest.take 8), ofBytes ((rest.drop 8).take 4), ofBytes ((rest.drop 12).take 4))
  | _, _, _ => none

/-- Whether RPC names a slot where an instruction of its clause can begin, and %wbase a window (R236). -/
def State.resumable (s : State) (c : Context) (t : Thread) (rpc wb : Nat) : Bool :=
  decide (8 ≤ rpc % 64) && rpc % 4 == 0 && wb % 32 == 0 && decide (wb < t.allot) &&
    match s.codeWords c (rpc / 64 * 64) 1 with
    | some [w] => rpc % 64 == 8 || decide ((rpc % 64 - 8) / 4 < (w.extractLsb' 22 4).toNat)
    | _ => false

/-! ## Memory accesses -/

/-- A place found for a lane's access, with the translation caches as they are after it; `none` when the address or the
page gives a trap (R133, R156). -/
def State.found (s : State) (e : Env) (sp width need a : Nat) : Option (State × Place) :=
  match s.place e sp width need a with
  | (s1, .ok p) => some (s1, p)
  | _ => none

/-- No enabled watchpoint of the thread, its crew or its context is hit by an access, given by its parts (R94, R95), and the
thread holds no watch trap of an earlier try (R202). -/
def State.unwatched (s : State) (e : Env) (u : Nat) (t : Thread) (as : List Access) : Bool :=
  (s.watchHit u e.crewId e.crew.ctx false 0 as).isNone && t.heldWatch.isNone

/-- A lane's load that starts: its place is found, colours agree, no poison, no copies in flight to the line, none of its
thread's accesses to the same host or peer page on its way (R171), no watch hit, and no watchpoint that compares the eartag
it finds; outside speculation, where the load set is not written (R386). -/
def loadStarts (m : MemArgs) (s : State) (e : Env) (u : Nat) (t : Thread) : Bool :=
  let a := m.addr s t
  match s.found e m.sp (widthOf m.w) 1 a with
  | none => false
  | some (s1, p) =>
    (s1.colourTrap u t p a m.pv).isNone && !twPoison (s1.view u t p.loc p.tagAddr p.ptag m.gather (m.scope != 0)).1.tw &&
      (s1.busyLine p.loc).isNone && !t.spec && !(s1.pageHeld u e.core p true) &&
      (match t.wait with
        | some (.presence _ _) => false
        | _ => true) &&
      s1.unwatched e u t (s1.loadAccess u t m p a) && !((s1.loadAccess u t m p a).any (s1.watchTagged u e.crewId e.crew.ctx))

/-- The load of a lane stands between its issue and its read step, as one piece of the operation `op` (R386, R387). -/
def loadOut (m : MemArgs) (op : Nat) (s : State) (e : Env) (u : Nat) (t : Thread) : State :=
  match s.found e m.sp (widthOf m.w) 1 (m.addr s t) with
  | none => s
  | some (s1, p) =>
    let s2 := (s1.noteRemote e.crewId m.sp (m.addr s t)).joinOp op u 1
    { s2 with
      loads := SMap.put s2.loads s2.nextLoad
        { op := op, uid := u, dst := t.wbase + m.d, regs := memRegs m.w, width := widthOf m.w, loc := p.loc, va := p.va
          tagAddr := p.tagAddr, ptag := p.ptag, gather := m.gather, scope := m.scope, wide := m.scope != 0, iss := e.issuer u t }
      nextLoad := s2.nextLoad + 1 }

/-- A lane's store that enters a buffer: its place is found, colours agree, its registers trap on no use, no access of its
thread to the same host or peer page waits before it (R171), no watch hit (R427, R428). `stores` counts its thread's stores
among those accesses. -/
def storeGoes (m : MemArgs) (stores : Bool) (s : State) (e : Env) (u : Nat) (t : Thread) : Bool :=
  let a := m.addr s t
  s.noUse t ([m.pv, m.pv + 1] ++ m.idx.toList ++ (List.range (memRegs m.w)).map (m.d + ·)) &&
  match s.found e m.sp (widthOf m.w) 2 a with
  | none => false
  | some (s1, p) =>
    (s1.colourTrap u t p a m.pv).isNone && !(s1.pageHeld u e.core p stores) && s1.unwatched e u t (storeAccess m a (s.stTag t m.w m.d))

/-- The store as a buffer holds it: its bytes from the found location on, its eartag, strength and operation (R160, R428). -/
def storeEntry (m : MemArgs) (op : Nat) (s : State) (e : Env) (u : Nat) (t : Thread) (p : Place) : Store :=
  { uid := u, crew := e.crewId, ctx := e.crew.ctx, core := e.core, loc := p.loc, va := p.va
    data := (s.stData t m.w m.d).map some, tag := s.stTag t m.w m.d, tagAddr := p.tagAddr, page := p.page, scope := m.scope
    color := none, op := op, seq := 0, iss := e.issuer u t, half := false, pailed := false }

/-- The store joins the tail of its thread's store FIFO with an operation of its own for its flag (R160, R429). -/
def storeOut (m : MemArgs) (fb : Bool) (s : State) (e : Env) (u : Nat) (t : Thread) : State :=
  match s.found e m.sp (widthOf m.w) 2 (m.addr s t) with
  | none => s
  | some (s1, p) =>
    let s2 := (s1.noteRemote e.crewId m.sp (m.addr s t)).noteWrite [p.loc.gran] 8 u
    let r := s2.newOp [u] (e.flag fb) 1
    r.1.pushStore u (storeEntry m r.2 s e u t p)

/-- The store of a speculative lane or of one in an open region merges into its pail entry, or takes a new one (R199, R417);
`none` when the thread or the pail is full. -/
def storePail (m : MemArgs) (s : State) (e : Env) (u : Nat) (t : Thread) : Option State :=
  match s.found e m.sp (widthOf m.w) 2 (m.addr s t) with
  | none => none
  | some (s1, p) =>
    match ((s1.noteRemote e.crewId m.sp (m.addr s t)).noteWrite [p.loc.gran] 8 u).pailStore e u t t.depth p (s.stData t m.w m.d) (s.stTag t m.w m.d) m.scope with
    | .ok s2 => some s2
    | _ => none

/-- A scatter write joins its core's gather queue, or on .s and .x the store FIFO, as one piece of `op` (R430). -/
def scatterOut (m : MemArgs) (op : Nat) (s : State) (e : Env) (u : Nat) (t : Thread) : State :=
  match s.found e m.sp (widthOf m.w) 2 (m.addr s t) with
  | none => s
  | some (s1, p) =>
    let s2 := ((s1.noteRemote e.crewId m.sp (m.addr s t)).noteWrite [p.loc.gran] 8 u).joinOp op u 1
    let x := storeEntry { m with scope := 0 } op s e u t p
    if m.sp = 0 then
      { s2 with
        stores := SMap.put s2.stores s2.nextStore x, nextStore := s2.nextStore + 1
        gatherQ := SMap.put s2.gatherQ e.core (SMap.getD s2.gatherQ [] e.core ++ [s2.nextStore]) }
    else s2.pushStore u x

/-- Every crew has a thread: no crew is at its end, where its completion would follow (R46, R217). -/
def State.crewed (s : State) : Bool := s.crews.all fun e => !(s.crewThreads e.1).isEmpty

/-- No watch hit of an entry from the pail is due when it drains (R96, R428). -/
def State.pailQuiet (s : State) (x : Store) : Bool := !x.pailed || (s.watchHit x.uid x.iss.crew x.iss.ctx false 0 x.accesses).isNone

/-- Step `i` performs the store `x`, number `n`, which then leaves the machine: every storage is as the store's performance
leaves it, from the state `s0` in which its buffer has let it go. -/
def performs (i : Instr) (s s0 : State) (n : Nat) (x : Store) : Prop :=
  ∃ s', exec i s = .next s' ∧ SMap.get? s'.stores n = none ∧ s'.mem = (s0.performStore x).mem ∧
    s'.hostMem = (s0.performStore x).hostMem ∧ s'.peerMem = (s0.performStore x).peerMem ∧ s'.regs = (s0.performStore x).regs ∧
    s'.scr = (s0.performStore x).scr ∧ s'.scrTag = (s0.performStore x).scrTag ∧ s'.acc = (s0.performStore x).acc

/-- A store of a buffer moves and no storage changes. -/
def State.sameStorage (s s' : State) : Prop :=
  s'.mem = s.mem ∧ s'.hostMem = s.hostMem ∧ s'.peerMem = s.peerMem ∧ s'.regs = s.regs ∧ s'.scr = s.scr ∧ s'.scrTag = s.scrTag ∧
    s'.acc = s.acc

/-- The one active lane of an ATOM or RED whose request is applied at once: its place has both permissions, colours agree
with the tag word at the device point, no poison, no copies in flight, no stores of its core to the granule on their way,
no birth and no watch hit (R186). -/
def atomApplies (m : AtomArgs) (s : State) (e : Env) (u : Nat) (t : Thread) : Option (State × Place) :=
  let a := (s.pair t m.pv).1.toNat
  match s.found e m.sp (m.bits / 8) 3 a with
  | none => none
  | some (s1, p) =>
    let tw := s1.twAt p.loc p.tagAddr p.ptag
    let lock := match p.hit, p.loc with
      | none, _ => 0
      | _, .win _ _ => 0
      | some h, _ => h.lock tw
    if !(m.sp == 0 && colourBad (keyOf a) lock) && !twPoison tw && (s1.busyLine p.loc).isNone && !t.spec && t.region.isNone &&
        (match t.wait with
          | some (.presence _ _) => false
          | some (.request _) => false
          | _ => true) &&
        s.noUse t m.chk.anom && !(s1.storesPending t p.loc) && !(s1.pageHeld u e.core p true) &&
        !((s1.storesOf s1.fabric).any fun y => y.core == t.core && y.loc.gran == p.loc.gran) &&
        (atomStep m.aop m.ty (ofBytes (s1.readLoc p.loc (m.bits / 8))) (s.src t m.wide m.b).bits
          ((m.d.map fun d => (s.src t m.wide d).bits).getD 0)).2.2 == 0 &&
        (s1.watchHit u e.crewId e.crew.ctx false 0 [⟨2, m.sp == 1, a, m.bits / 8, twTag tw⟩]).isNone
    then some (s1, p) else none

/-- What that lane's request does: the new value and its eartag at the place, in one step; the core's copies of the line go;
ATOM's destination takes the old value with the granule's old eartag (R166, R186, R334, R335). -/
def atomDoes (m : AtomArgs) (s : State) (e : Env) (u : Nat) (t : Thread) (s1 : State) (p : Place) : State :=
  let old := ofBytes (s1.readLoc p.loc (m.bits / 8))
  let g := twTag (s1.twAt p.loc p.tagAddr p.ptag)
  let x := s.src t m.wide m.b
  let y := atomStep m.aop m.ty old x.bits ((m.d.map fun d => (s.src t m.wide d).bits).getD 0)
  let tag :=
    if m.aop = 1 ∨ m.aop = 2 then (if y.2.1 then x.tag else g)
    else if isA g then g else if isA x.tag then x.tag else e.ownTag
  let s2 := ((s1.performWrite e.crew.ctx p.va p.loc (toBytes (m.bits / 8) y.1) tag p.tagAddr).barRetest p.loc).dropLine e.core p.loc
  let s3 := match m.d with
    | none => s2
    | some d => s2.setRegs t d (resultRegs m.bits old g)
  s3.noteWrite [p.loc.gran] 8 u

/-- The colour changes a COLOR enters into its lane's store FIFO, when every granule can be coloured (R92, R351). -/
def colourOut (f : FColor) (op : Nat) (s : State) (e : Env) (u : Nat) (t : Thread) : Option State :=
  match s.colourRange e op u t (s.w32 t f.d).toNat f.mark (s.opd32 t f.d).tag (s.w32 t f.b).toNat (s.w64 t f.a).toNat with
  | .done s1 => some s1
  | _ => none

/-! ## Synchronisation -/

/-- The core and byte of a lane's barrier object, when its address gives no trap (R133, R177). -/
def ObjArgs.found (m : ObjArgs) (s : State) (e : Env) (t : Thread) : Option (Nat × Nat) :=
  match m.place s e t with
  | .ok x => some x
  | _ => none

/-- No earlier scratchpad store of the lane is on its way (R337). -/
def State.scrQuiet (s : State) (u : Nat) (t : Thread) : Bool :=
  !((s.pailOf t u).any fun p => p.loc.isScr) && !((s.storesOf t.fifo).any fun x => x.loc.isScr)

/-- Change the barrier object found at a place, with its completion test, in one step (R178). -/
def objStep (m : ObjArgs) (f : Bar → Bar) (s : State) (e : Env) (t : Thread) : State :=
  match m.found s e t with
  | none => s
  | some (c, b) => s.stepBar c b f

/-- A BARINIT takes its step in the lowest lane: the object is fresh, its granule has the instruction's eartag, and the
crew has the object in use (R179, R255). -/
def initStarts (i : Instr) (n : Nat) (m : ObjArgs) (arv : Bool) (k : Nat) : Prop :=
  onceEffects i n [⟨m.pv, 2, 1⟩] (fun _ _ t => !t.spec)
    (fun s e u t => !(arv && k == 0) && (m.found s e t).isSome && s.scrQuiet u t)
    (fun s e _ t _ => match m.found s e t with
      | none => s
      | some (c, b) =>
        let s1 := s.stepBar c b fun _ => ⟨0, k, k, 0, if arv then 9 else 0⟩
        let off := b - 128 * e.crew.base
        { s1 with
          scrTag := SMap.setD s1.scrTag 0 (granKey c b) e.ownTag
          crews := SMap.mod s1.crews e.crewId fun x =>
            { x with objs := if x.objs.contains off then x.objs else x.objs ++ [off], came := SMap.del x.came off } })

/-- A parked lane whose object came to OVR or ERR while it waited: it traps (R181). -/
def Thread.failedWait (t : Thread) : Bool :=
  match t.wait with
  | some (.failed _ _) => true
  | _ => false

/-- The trap of a wait whose phase has not passed on an object with OVR or ERR set (R181). -/
def ObjArgs.waitTrap (m : ObjArgs) (s : State) (t : Thread) (c b : Nat) : Trap :=
  { num := if (s.barAt c b).ovr then 19 else 20, cause := if (s.barAt c b).ovr then 2 else 0, addr := m.addr s t, tag := (s.pair t m.pv).2 }

/-- A wait whose phase `ph` has not passed, on an object with OVR or ERR set, takes its trap, which names the object, and resumes
after the wait (R181, R231). -/
def waitTraps (i : Instr) (n : Nat) (m : ObjArgs) (uses : List Use) (ph : State → Thread → Nat) : Prop :=
  ∀ c b, departs i n uses
    (fun s e u t => !t.spec && m.found s e t == some (c, b) && t.wait != some .woken && !t.failedWait && !(phasePassed (s.barAt c b).phase (ph s t)) &&
      ((s.barAt c b).ovr || (s.barAt c b).err) && s.mayTrap e u t (m.waitTrap s t c b))
    (fun s e u t => (s.faultRecord (e.issuer u t) (m.waitTrap s t c b) (2 ^ t.lane) t.held.isSome false).1)
    (fun s e u t => trapStand s e u t (m.waitTrap s t c b) (e.nextAt n))

/-- A WAITP whose phase `ph` has passed goes on with an acquire; one whose phase has not parks on the object, or with OVR or
ERR set takes the trap (R181). -/
def waitsPhase (i : Instr) (n : Nat) (m : ObjArgs) (more : List Use) (ph : State → Thread → Nat) : Prop :=
  effects i n (⟨m.pv, 2, 1⟩ :: more)
    (fun s e _ t => !t.spec && (m.found s e t).any fun x =>
      t.wait == some .woken || !t.failedWait && phasePassed (s.barAt x.1 x.2).phase (ph s t))
    (fun s _ u _ => s.acquire u) ∧
  (∀ c b, departs i n (⟨m.pv, 2, 1⟩ :: more)
    (fun s e _ t => !t.spec && m.found s e t == some (c, b) && t.wait != some .woken && !t.failedWait && !(phasePassed (s.barAt c b).phase (ph s t)) &&
      !(s.barAt c b).ovr && !(s.barAt c b).err)
    (fun s _ _ _ => s) (fun s e _ t => ⟨e.w.pc, e.w.slot, .boundary, some (.phase (.scr c b) (ph s t))⟩)) ∧
  waitTraps i n m (⟨m.pv, 2, 1⟩ :: more) ph

/-- The phase operand of TRYWAIT. -/
def tryPhase (f : FTry) (s : State) (t : Thread) : Nat :=
  match f.n with
  | .imm n => n.toNat
  | .reg r => (s.w32 t r).toNat

/-- The registers TRYWAIT names. -/
def tryUses (f : FTry) : List Use :=
  [⟨2 * f.p.toNat, 2, 1⟩, ⟨f.h.toNat, 1, 1⟩] ++ match f.n with
    | .imm _ => []
    | .reg r => [⟨r.toNat, 1, 1⟩]

/-- The crew barrier once thread `home` has arrived in it as `kind` (R183, R184). -/
def Crew.arrived (c : Crew) (home : Nat) (kind : Option Nat) : Crew :=
  { c with barGang := kind, barArrived := if c.barArrived.contains home then c.barArrived else c.barArrived ++ [home] }

/-- Whether every thread the crew barrier expects has arrived, `home` among them. -/
def State.barFull (s : State) (crew : Nat) (c : Crew) (home : Nat) : Bool :=
  (s.barExpected crew).all fun u => u == home || c.barArrived.contains u

/-- A lane that may arrive at its crew barrier as `kind`: a launched thread, its release over, no arrival of another kind
in the phase (R183, R184). -/
def State.mayArrive (s : State) (e : Env) (u : Nat) (t : Thread) (scope : Nat) (kind : Option Nat) : Bool :=
  !t.spec && !(s.isSpawned u) && s.released u t scope && (e.crew.barArrived.isEmpty || e.crew.barGang == kind) &&
    match t.wait with
    | some .woken => false
    | some (.crewBar _) => false
    | _ => true

/-- The meet object of a token once a thread has arrived at it. -/
def MeetObj.with_ (m : MeetObj) (u : Nat) : MeetObj := { m with arrived := if m.arrived.contains u then m.arrived else m.arrived ++ [u] }

/-- Whether a thread's arrival passes the phase of its token's meet object (R44). -/
def State.meetPasses (s : State) (crew u token : Nat) : Bool :=
  (SMap.get? s.crews crew).any fun c => (c.meets.find? fun m => m.token == token).any fun m =>
    !m.armed.isEmpty && (m.with_ u).arrived.length == m.armed.length

/-! ## Asynchronous copies -/

/-- A lane of the group as an engine instruction's checks 2 to 5 ask (R47, R89, R329). -/
def engineLane (cls : Nat) (anom : List Nat) (s : State) (e : Env) (t : Thread) : Bool :=
  !t.spec && e.classOk cls && s.noUse t anom

/-- The copy that CPY or CPYCV hands to an engine: its elements, spaces, addresses and barrier (R146, R353). -/
def CpyArgs.job (m : CpyArgs) (s : State) (e : Env) (u : Nat) (t : Thread) : Copy :=
  let n := (s.reg t m.n).val.toNat
  { iss := e.issuer u t, op := s.nextOp
    kind := match m.cv with
      | none => .plain n
      | some x => .convert n x.1 x.2.1 x.2.2
    dsp := m.ds, ssp := m.ss, dst := s.cpyAt t m.ds m.dp m.doff, src := s.cpyAt t m.ss m.sr m.soff
    bar := m.bar.map fun b => s.cpyAt t 1 b.1 b.2
    ten := none, engine := 0, landed := [], lines := [], held := none, watched := 0, mark := 0 }

/-- Whether CPY or CPYCV takes its operands (R133, R146, R354, R355): count, alignment and addresses. -/
def CpyArgs.legal (m : CpyArgs) (s : State) (e : Env) (t : Thread) : Bool :=
  let n := (s.reg t m.n).val.toNat
  let dst := s.cpyAt t m.ds m.dp m.doff
  let src := s.cpyAt t m.ss m.sr m.soff
  (match m.cv with
    | none => n % 16 == 0 && decide (n ≤ 2 ^ 24) && dst % 16 == 0 && src % 16 == 0 && (s.copyAddr e m.ds n 1 dst).isNone &&
        (s.copyAddr e m.ss n 1 src).isNone
    | some x => decide (1 ≤ n) && decide (n ≤ 2 ^ 20) && dst % elemAlign x.1 == 0 && src % elemAlign x.2.1 == 0 &&
        (s.copyAddr e m.ds (cvBytes n x.1) 1 dst).isNone && (s.copyAddr e m.ss (cvBytes n x.2.1) 1 src).isNone) &&
    match m.bar with
    | none => true
    | some b => (s.copyAddr e 1 16 16 (s.cpyAt t 1 b.1 b.2)).isNone

/-- Whether the engine of the core with the fewest copies takes another at once (R141, R144, R145, R173). -/
def State.engineTakes (s : State) (u : Nat) (t : Thread) (c : Copy) : Bool := (s.issueWait u t c.ssp).isNone && s.copyFits c

/-- The copy stands in its engine's queue with an operation of its own, its destination's lines are raised, and its .x
accesses and written granules are noted (R56, R141, R144, R201). -/
def State.copyOut (s : State) (e : Env) (u : Nat) (group : List Nat) (flag : Option Nat) (c : Copy) : State :=
  (((s.newOp group flag 1).1.copyRemote e.crewId c).noteWrite ((s.newOp group flag 1).1.copyGrans c) 8 u).startCopy c

/-- CPY or CPYCV hands its copy to an engine; of 0 bytes it does nothing (R146, R354). -/
def copyIssues (i : Instr) (n : Nat) (m : CpyArgs) : Prop :=
  onceEffects i n m.chk.uses (engineLane 1 m.chk.anom)
    (fun s e u t => m.legal s e t && (s.reg t m.n).val != 0 && s.engineTakes u t (m.job s e u t))
    (fun s e u t group => s.copyOut e u group (e.flag m.fb) (m.job s e u t)) ∧
  onceEffects i n m.chk.uses (engineLane 1 m.chk.anom) (fun s e _ t => m.legal s e t && m.cv.isNone && (s.reg t m.n).val == 0)
    (fun s _ _ _ _ => s)

/-- The bytes and eartags of the descriptor CPYT or CPYA reads, with the caches as they are after it; a lane that waited for a
line acquires (R168, R354). -/
def State.descAt (s : State) (e : Env) (u : Nat) (t : Thread) (pv off : Nat) : Option (State × List Byte × List Tag) :=
  let a := ((s.pair t pv).1.toNat + off) % 2 ^ 64
  if a % 64 != 0 then none
  else match s.readBlock e u t pv 4 a with
    | (s1, .ok bs tags) => some (s1.wokenAcquire u t, bs, tags)
    | _ => none

/-- The copy of a descriptor, issued by a lane (R147). -/
def Env.tensorJob (e : Env) (u : Nat) (t : Thread) (op : Nat) (bs : List Byte) : Copy :=
  { (parseTensor bs).copy with iss := e.issuer u t, op := op }

/-- Whether CPYT or CPYA takes a descriptor that it has read (R91, R148, R150, R354), `names` the counters it names itself. -/
def State.tensorLegal (s : State) (e : Env) (u : Nat) (t : Thread) (pv off : Nat) (names : List Nat) (bs : List Byte) (tags : List Tag) : Bool :=
  let c := e.tensorJob u t 0 bs
  (t.policy != 2 || tags.all fun g => !isA g) && (names.all fun n => decide (n < 64)) &&
    ((names ++ c.ten.toList).all fun n => s.trigOwn e.core n e.crew.ctx) && (parseTensor bs).ok && (s.tensorAddr e c).isNone &&
    s.unwatched e u t (blockAccess (((s.pair t pv).1.toNat + off) % 2 ^ 64) tags)

/-- The counter that a descriptor names passes to the crew's context (R150). -/
def State.named (s : State) (e : Env) (c : Copy) : State := c.ten.toList.foldl (fun (s : State) n => s.nameTrigger e.crew.ctx e.core n) s

/-- CPYA arms the descriptor's copy on a counter; it fires at once when the counter has reached the threshold (R151). -/
def State.armOut (s : State) (e : Env) (u : Nat) (ctr thr : Nat) (c : Copy) : State :=
  let s1 : State := ((s.named e c).copyRemote e.crewId c).noteWrite (s.copyGrans c) 8 u
  (({ s1 with armed := SMap.put s1.armed e.core (SMap.getD s.armed [] e.core ++ [⟨ctr, thr, c, false⟩]) } : State).setTrigger e.core ctr e.crew.ctx
    (s1.trigVal e.core ctr)).1

/-- CPYA arms its copy. -/
def armIssues (i : Instr) (n pv off c h : Nat) : Prop :=
  onceEffects i n [⟨pv, 2, 1⟩, ⟨c, 1, 1⟩, ⟨h, 1, 1⟩] (engineLane 1 [pv, pv + 1])
    (fun s e u t => (s.descAt e u t pv off).any fun d =>
      d.1.tensorLegal e u t pv off [(s.reg t c).val.toNat] d.2.1 d.2.2 && (d.1.issueWait u t (e.tensorJob u t 0 d.2.1).ssp).isNone &&
        decide ((SMap.getD d.1.armed [] e.core).length < 256))
    (fun s e u t _ => match s.descAt e u t pv off with
      | none => s
      | some d => d.1.armOut e u (s.reg t c).val.toNat (s.reg t h).val.toNat (e.tensorJob u t 0 d.2.1))

/-- The barrier that the control register of RING names (R420). -/
def ringBar (g : Nat) : Option Nat := if g.testBit 8 then some (16 * nfld g 9 15) else none

/-- RING sends its tile and raises the lines of the incoming one; the round of the crew in that gang counts (R152). -/
def ringIssues (i : Instr) (n pv off vn vg : Nat) (fb : Bool) : Prop :=
  let at_ := fun (s : State) (t : Thread) => ((s.pair t pv).1.toNat + off) % 2 ^ 64
  let num := fun (s : State) (t : Thread) => (s.reg t vn).val.toNat
  let ctl := fun (s : State) (t : Thread) => (s.reg t vg).val.toNat
  onceEffects i n [⟨pv, 2, 1⟩, ⟨vn, 1, 1⟩, ⟨vg, 1, 1⟩] (engineLane 1 [pv, pv + 1, vn])
    (fun s e u t =>
      num s t % 16 == 0 && decide (1 ≤ num s t) && decide (num s t ≤ 65536) && nfld (ctl s t) 24 8 == 0 &&
        (s.copyAddr e 1 (num s t) 16 (at_ s t)).isNone && ((ringBar (ctl s t)).all fun b => (s.copyAddr e 1 16 16 b).isNone) &&
        (e.crew.gangs.any fun k => k.entry == ctl s t % 256) && (e.launch.gangs[ctl s t % 256]?).isSome && t.fifo.isEmpty &&
        (scrLines e.core (e.crew.phys (at_ s t)) (num s t)).all (fun l => SMap.getD s.pend 0 (l.1 * 4096 + l.2) == 0) &&
        (s.watchHit u e.crewId e.crew.ctx true 0 ((List.range (num s t / 16)).map fun i =>
          ⟨3, true, at_ s t + 16 * i, 16, SMap.getD s.scrTag 0 (granKey e.core (e.crew.phys (at_ s t + 16 * i)))⟩)).isNone)
    (fun s e u t group => match e.crew.gangs.find? fun k => k.entry == ctl s t % 256, e.launch.gangs[ctl s t % 256]? with
      | some k, some x => s.sendTile e u t group (e.flag fb) k x (at_ s t) (num s t) (ringBar (ctl s t))
      | _, _ => s)

/-- Unit `k` of copy `i` can land: no unit before it holds the copy up, the core's older stores have reached the device
point, and no element before it writes the same bytes (R145, R148, R149). -/
def State.mayLand (s : State) (c : Copy) (k : Nat) : Bool :=
  !(c.landed.contains k) && decide (k < c.units) && c.held.isNone && !(s.engineWaits c.iss.uid) && !(s.olderThan c.iss.core c.mark) && !(c.behind k) &&
    ((List.range k).filter fun j => !c.landed.contains j).all fun j => (s.copyUnit c j).2.passes

/-! ## The matrix engine -/

/-- The operation joins its core's matrix queue with an operation of its own for the flag (R115). -/
def State.matrixOut (s : State) (e : Env) (u : Nat) (t : Thread) (group : List Nat) (fb : Bool) (kind : MatKind) (addr : Nat) : State :=
  let r := s.newOp group (e.flag fb) 1
  { r.1 with
    matQ := SMap.put r.1.matQ e.core (SMap.getD s.matQ [] e.core ++ [⟨kind, addr, r.2, e.issuer u t, none, [], [], s.nextLoad⟩]), nextLoad := s.nextLoad + 1 }

/-- The matrix queue of the core has room, and lane e's stores have left its store FIFO (R115, R125). -/
def State.matrixTakes (s : State) (e : Env) (t : Thread) : Bool := t.fifo.isEmpty && decide ((SMap.getD s.matQ [] e.core).length < 16)

/-- A matrix instruction joins the queue, once for the group, when `first` holds of lane e. -/
def matrixIssues (i : Instr) (fb : Bool) (uses : List Use) (anom : List Nat) (first : State → Env → Nat → Thread → Bool)
    (kind : State → Env → Nat → Thread → List Nat → MatKind) (addr : State → Thread → Nat) : Prop :=
  onceEffects i 1 uses (engineLane 2 anom) (fun s e u t => s.matrixTakes e t && first s e u t)
    (fun s e u t group => s.matrixOut e u t group fb (kind s e u t group) (addr s t))

/-- No condition on lane e. -/
def anyLane : State → Env → Nat → Thread → Bool := fun _ _ _ _ => true

/-- The place of result element (i, j) in the accumulator (R123). -/
def MatEnv.elemKey (x : MatEnv) (i j : Nat) : Nat :=
  accKey x.core ((x.b.acct + i / 16 * (x.b.n / 16) + j / 16) * 256 + i % 16 * 16 + j % 16)

/-- The accumulator a result element starts from (R123). -/
def MatEnv.start (x : MatEnv) (s : State) (i j : Nat) : Nat :=
  if x.b.acc then (SMap.getD s.acc Reg.zero (x.elemKey i j)).val.toNat else 0

/-- A result element: from the start on, for each unit of k in ascending order, its contribution rounded once to FP32 and
added with one further rounding (R110, R123). -/
def MatEnv.value (x : MatEnv) (s : State) (i j : Nat) : Nat :=
  (List.range (x.b.k / x.f.unit)).foldl (fun acc u =>
    fF32.round (fsum [fF32.dec acc, fF32.dec (fF32.round (matUnit x.f x.b.mode (s.aRow x i) (s.bRow x j) u))])) (x.start s i j)

/-- What goes into a result element: its operands in ascending k, then the starting accumulator (R83). -/
def MatEnv.parts (x : MatEnv) (s : State) (i j : Nat) : List (FVal × Tag) :=
  (contributors x.f x.b.k (s.aRow x i) (s.bRow x j)).map (fun c => (c.v, c.tag)) ++
    if x.b.acc then [(fF32.dec (x.start s i j), (SMap.getD s.acc Reg.zero (x.elemKey i j)).tag)] else []

/-- The first A-tagged eartag of a list, else the given one (R83). -/
def firstA (own : Tag) (l : List Tag) : Tag := (l.find? isA).getD own

/-- A matrix operation is at the head of its core's queue, with its crew. -/
def State.headIs (s : State) (core : Nat) (m : MatOp) (rest : List MatOp) (c : Crew) : Prop :=
  SMap.getD s.matQ [] core = m :: rest ∧ SMap.get? s.crews m.iss.crew = some c

/-- Step `i` takes the head operation off the queue with its flag; `q` holds of the state after it. -/
def headLeaves (i : Instr) (s : State) (core : Nat) (m : MatOp) (rest : List MatOp) (q : State → Prop) : Prop :=
  ∃ s', exec i s = .next s' ∧ SMap.getD s'.matQ [] core = rest ∧ s'.regs = s.regs ∧
    (∀ o, SMap.get? s.ops m.op = some o → o.left ≤ 1 → SMap.get? s'.ops m.op = none) ∧ q s'

/-! ## Collectives -/

/-- Whether COLPOST reads its descriptor: its release is over, the descriptor is aligned and readable, no watch hit (R215,
R352). -/
def State.postReads (s : State) (e : Env) (u : Nat) (t : Thread) (q : VReg) (bad : ColDesc → State → Bool) : Bool :=
  s.released u t 4 && (s.descAt e u t q.toNat 0).any fun d =>
    bad (parseCol d.2.1) d.1 && d.1.unwatched e u t (blockAccess (s.w64 t q).toNat d.2.2)

/-- No entry is Started, so none withdraws for a lower ticket (R220). -/
def State.noneStarted (s : State) : Bool := s.posted.all fun e => e.2.state != .started

/-- The fabric clock once a message with a clock has arrived (R218). -/
def State.heard (s : State) (clock : Nat) : Nat := (max s.chip.clock clock + 1) % 2 ^ 48

/-- Every fired chunk of an entry has read this member's SRC bytes, has none to read, or has a status (R217). -/
def Posted.settled (p : Posted) : Bool := p.fired.all fun c => p.srcRead.contains c || !(p.readsSrc c) || (SMap.get? p.status c).isSome

/-! ## Fetching and forming -/

/-- The 16 words of a clause at an HBM address (R313). -/
def State.clauseAt (s : State) (a : Nat) : List Word := (List.range 16).map fun i => BitVec.ofNat 32 (ofBytes (s.readLoc (.hbm (a + 4 * i)) 4))

/-- The same clause as the stores under way will leave it, oldest first. -/
def State.clauseSoon (s : State) (a : Nat) : List Word :=
  (List.range 16).map fun i =>
    let l := Loc.hbm (a + 16 * (i / 4))
    let g := s.stores.foldl (fun (g : Gran) e => Gran.apply g l.gran e.2) ⟨s.readLoc l 16, 0⟩
    BitVec.ofNat 32 (ofBytes ((g.bytes.drop (4 * (i % 4))).take 4))

/-- Every ready thread of a quadrant is in one of 32 lanes and stands at a clause that passes its check, or in the middle
of one (R310). -/
def State.formable (s : State) (core quad : Nat) : Prop :=
  ∀ e ∈ s.readyIn core quad, e.2.lane < 32 ∧ (e.2.at_ = 0 → ∀ cr ws, SMap.get? s.crews e.2.crew = some cr → s.clauseFor core cr.ctx e.2.pc = some ws →
    clauseCheck ws = none)

/-! ## Queue pairs -/

/-- Between `s` and `s'` one queue pair became `p` and nothing else changed. -/
def State.queueSet (s s' : State) (vd q : Nat) (p : QueuePair) : Prop :=
  SMap.get? s'.queues (queueKey vd q) = some p ∧ (∀ k, k ≠ queueKey vd q → SMap.get? s'.queues k = SMap.get? s.queues k) ∧
    ({ s' with queues := s.queues } : State) = s

/-- A queue pair whose entry at SQHEAD has completed at once (R272). -/
def QueuePair.finished (p : QueuePair) (htag kind status : Nat) : QueuePair :=
  { p with sqhead := (p.sqhead + 1) % 2 ^ p.sqlog, held := p.held ++ [[htag, kind, status, 0]] }

/-! ## The step -/

/-- An outcome with what a step adds to it: the switch on faults of every context (R248). -/
def switched : Host.Outcome State Fault Refusal → Host.Outcome State Fault Refusal
  | .next s => .next s.pshareAll
  | .fault f => .fault f
  | .refused r => .refused r

/-! ## Handlers -/

/-- Between `s` and `s'` thread `u`, as it was `t`, took the trap of record `seq` into its context's handler (R233, R235). -/
def State.handles (s s' : State) (u : Nat) (t : Thread) (c : Context) (code seq : Nat) (tr : Trap) : Prop :=
  ∃ t', s'.thread? u = some t' ∧ t'.pc = code + 64 * c.tentry ∧ t'.at_ = 0 ∧ t'.status = .boundary ∧ t'.handler = some seq ∧ t'.block = s.saveAddr c t ∧ t'.wbase = 0 ∧
    t'.preds = 0 ∧
    ∀ i, i < min (32 * (c.ta + 1)) t.allot → s'.rd t i =
      ([c.faultBase + 64 * (seq % 2 ^ 16), (c.faultBase + 64 * (seq % 2 ^ 16)) / 2 ^ 32, s.saveAddr c t, s.saveAddr c t / 2 ^ 32, c.anomBase,
        c.anomBase / 2 ^ 32, tr.num, tr.cause].map fun x => (⟨BitVec.ofNat 32 x, 0⟩ : Reg)).getD i Reg.zero

/-! ## Pre-emption -/

/-- A running crew asked to leave within `left` cycles (R240, R245). -/
def Crew.asked (c : Crew) (left : Nat) : Crew := { c with preempt := if left = 0 then .forcing else .requested, req := true, left := left }

/-- Every thread of a crew stands at a clause boundary or a slot, with no fork, no region and no buffer it waits on. -/
def State.standing (s : State) (crew : Nat) : Prop :=
  ∀ e ∈ s.crewThreads crew, e.2.status = .boundary ∧ e.2.inherited = 0 ∧ e.2.levels = [] ∧ e.2.region = none ∧ e.2.wait ≠ some .drain ∧
    (∀ n, e.2.wait ≠ some (.fence n)) ∧ (s.warps.all fun w => !(w.2.members.contains e.1)) = true

end Sys2Proof.Machine
end

