-- ==== Sys2Proof/Certificates/Slice0/Obligations.lean ====
section
/-! DEFINITION. The statements for the provers. -/

open Sys2Proof Sys2Proof.Machine

/-! ## Integer instructions -/

/-- R378, R105: IADD, ISUB, IMUL and IMULH complete in every active lane with the wrapped sum, difference and product,
and the upper half of the exact product, in both widths; IDIV and IREM with the quotient rounded toward zero and its
remainder, a zero divisor giving all ones and the dividend; nothing else changes. -/
def Obligations.IntegerArithmetic : Prop :=
  typed .iadd false (fun _ _ x y => x + y) (fun _ x y => x.saddOverflow y) ∧
  typed .isub false (fun _ _ x y => x - y) (fun _ x y => x.ssubOverflow y) ∧
  typed .imul false (fun _ _ x y => x * y) (fun _ x y => x.smulOverflow y) ∧
  typed .imulh false
    (fun w sgn x y => ((if sgn then x.signExtend (2 * w) else x.zeroExtend (2 * w)) *
      (if sgn then y.signExtend (2 * w) else y.zeroExtend (2 * w))).extractLsb' w w)
    (fun _ _ _ => false) ∧
  typed .idiv false (fun w sgn x y => if y = 0 then BitVec.allOnes w else if sgn then x.sdiv y else x / y)
    (fun w x y => y == 0 || (x == BitVec.intMin w && y == -1)) ∧
  typed .irem false (fun _ sgn x y => if y = 0 then x else if sgn then x.srem y else x % y) (fun _ _ y => y == 0)

/-- R378, R74, R332, R406, R439, R423: IMIN and IMAX complete with the lesser and the greater operand, a on equal values, and
under the select rule with the chosen operand's eartag; AND, OR and XOR, on registers and on immediates, with the bitwise
result; SHL, SHR and SAR with the shift by the count modulo the width. -/
def Obligations.MinMaxLogicShift : Prop :=
  typed .imin true (fun _ sgn x y => if (if sgn then y.slt x else y.ult x) then y else x) (fun _ _ _ => false) ∧
  typed .imax true (fun _ sgn x y => if (if sgn then x.slt y else x.ult y) then y else x) (fun _ _ _ => false) ∧
  typed .and false (fun _ _ x y => x &&& y) (fun _ _ _ => false) ∧
  typed .or false (fun _ _ x y => x ||| y) (fun _ _ _ => false) ∧
  typed .xor false (fun _ _ x y => x ^^^ y) (fun _ _ _ => false) ∧
  immediate .andi (fun x i => x &&& i.zeroExtend 32) ∧
  immediate .ori (fun x i => x ||| i.zeroExtend 32) ∧
  immediate .xori (fun x i => x ^^^ i.zeroExtend 32) ∧
  shifts .shl (fun _ x n => x <<< n) ∧ shifts .shr (fun _ x n => x >>> n) ∧ shifts .sar (fun _ x n => x.sshiftRight n)

/-- R379, R381, R391: IADDI and IMAD complete with the wrapped result (an overflow while IOVF is 1 is a birth, in
BirthsAndRules), LEA with the pointer sum (one with bits [63:60] or [55:48] set is a birth, in BirthsAndRules). R339, R340: BFI inserts a
field of a into b, BFX extracts one, zero-extended or sign-extended; the field is cut at the register's end and may be
empty. -/
def Obligations.MultiplyAddAddressFields : Prop :=
  (∀ f : FImm, writes (.iaddi f) f.d.toNat [⟨f.d.toNat, 1, 1⟩, ⟨f.a.toNat, 1, 1⟩]
    (fun s _ t => !(t.iovf && (s.w32 t f.a).saddOverflow (f.imm.signExtend 32)))
    (fun s e t => e.result32 [s.opd32 t f.a] (s.opd32 t f.a).tag none (s.w32 t f.a + f.imm.signExtend 32))) ∧
  (∀ f : FR4, writes (.imad f) f.d.toNat [⟨f.d.toNat, 1, 1⟩, ⟨f.a.toNat, 1, 1⟩, ⟨f.b.toNat, 1, 1⟩, ⟨f.c.toNat, 1, 1⟩]
    (fun s _ t =>
      let x := (s.w32 t f.a).toInt * (s.w32 t f.b).toInt + (s.w32 t (f.c.zeroExtend 7)).toInt
      !(t.iovf && (decide (x < -2 ^ 31) || decide (2 ^ 31 ≤ x))))
    (fun s e t => e.result32 [s.opd32 t f.a, s.opd32 t f.b, s.opd32 t (f.c.zeroExtend 7)] (s.opd32 t f.a).tag none
      (s.w32 t f.a * s.w32 t f.b + s.w32 t (f.c.zeroExtend 7)))) ∧
  (∀ f : Fdab, writes (.lea f) f.d.toNat [⟨f.d.toNat, 2, 2⟩, ⟨f.a.toNat, 2, 2⟩, ⟨f.b.toNat, 1, 1⟩]
    (fun s _ t =>
      let x := s.w64 t f.a + (s.w32 t f.b).zeroExtend 64
      x.extractLsb' 60 4 == 0#4 && x.extractLsb' 48 8 == 0#8)
    (fun s e t => e.result64 [s.opd64 t f.a, (s.opd32 t f.b).narrow] (s.opd64 t f.a).tag none
      (s.w64 t f.a + (s.w32 t f.b).zeroExtend 64))) ∧
  (∀ f : FBfi, writes (.bfi f) f.d.toNat [⟨f.d.toNat, 1, 1⟩, ⟨f.a.toNat, 1, 1⟩, ⟨f.b.toNat, 1, 1⟩, ⟨f.c.toNat, 1, 1⟩] always
    (fun s e t =>
      let p := fieldOf (s.w32 t (f.c.zeroExtend 7))
      let m := fieldMask p.1 p.2
      e.result32 [s.opd32 t f.a, s.opd32 t f.b, s.opd32 t (f.c.zeroExtend 7)] (s.opd32 t f.a).tag none
        ((s.w32 t f.b &&& ~~~m) ||| (s.w32 t f.a <<< p.1 &&& m)))) ∧
  (∀ f : FBfx, writes (.bfx f) f.d.toNat [⟨f.d.toNat, 1, 1⟩, ⟨f.a.toNat, 1, 1⟩, ⟨f.b.toNat, 1, 1⟩] always
    (fun s e t =>
      let p := fieldOf (s.w32 t f.b)
      let x := s.w32 t f.a <<< (32 - p.1 - p.2)
      e.result32 [s.opd32 t f.a, s.opd32 t f.b] (s.opd32 t f.a).tag none
        (if p.2 = 0 then 0 else if f.sgn then x.sshiftRight (32 - p.2) else x >>> (32 - p.2))))

/-- R424, R400, R402, R401, R76: SEL writes the operand its predicate picks, MOV a copy, MOVI the sign-extended immediate
and MOVHI the immediate above the low 12 bits of d, the last two with the eartag of the instruction's own SITE and
CREW. R377, R349, R408, R342: IABS (the most negative value gives itself and, while IOVF is 1, a birth, which BirthsAndRules states),
CLZ, POPC and BREV in both widths. -/
def Obligations.SelectMoveOneSource : Prop :=
  (∀ f : FSel, writes (.sel f) f.d.toNat [⟨f.d.toNat, 1, 1⟩, ⟨f.a.toNat, 1, 1⟩, ⟨f.b.toNat, 1, 1⟩] always
    (fun s e t =>
      let pick := t.pred f.p != f.neg
      e.result32 [s.opd32 t f.a, s.opd32 t f.b] (s.opd32 t f.a).tag
        (some (if s.w32 t f.a = s.w32 t f.b ∨ pick = true then (s.opd32 t f.a).tag else (s.opd32 t f.b).tag))
        (if pick then s.w32 t f.a else s.w32 t f.b))) ∧
  unaryTyped .mov (fun _ x => x) (fun _ _ => false) ∧
  (∀ f : FMov, writes (.movi f) f.d.toNat [⟨f.d.toNat, 1, 1⟩] always (fun _ e _ => [⟨f.imm.signExtend 32, e.ownTag⟩])) ∧
  (∀ f : FMov, writes (.movhi f) f.d.toNat [⟨f.d.toNat, 1, 1⟩] always
    (fun s e t => [⟨f.imm ++ (s.w32 t f.d).extractLsb' 0 12, e.ownTag⟩])) ∧
  unaryTyped .iabs (fun _ x => if x.msb then -x else x) (fun w x => x == BitVec.intMin w) ∧
  unaryCount .clz (fun w x => (List.range w).findIdx fun i => x.getMsbD i) ∧
  unaryCount .popc (fun w x => (List.range w).countP fun i => x.getLsbD i) ∧
  unaryTyped .brev (fun _ x => x.reverse) (fun _ _ => false)

/-- R380, R369, R407, R316, R89: the compares and the predicate logic complete in every active lane; a write to p7 is
discarded. -/
def Obligations.ComparesAndPredicates : Prop :=
  (∀ f : FICmp, f.cond.toNat ≤ 9 → f.wide = false →
    sets (.icmp f) [⟨f.a.toNat, 1, 1⟩, ⟨f.b.toNat, 1, 1⟩] (fun s _ t => s.noUse t [f.a.toNat, f.b.toNat])
      (fun s _ t => t.setPred f.pd (intCond f.cond.toNat (s.w32 t f.a) (s.w32 t f.b)))) ∧
  (∀ f : FICmp, f.cond.toNat ≤ 9 → f.wide = true →
    sets (.icmp f) [⟨f.a.toNat, 2, 2⟩, ⟨f.b.toNat, 2, 2⟩]
      (fun s _ t => s.noUse t [f.a.toNat, f.a.toNat + 1, f.b.toNat, f.b.toNat + 1])
      (fun s _ t => t.setPred f.pd (intCond f.cond.toNat (s.w64 t f.a) (s.w64 t f.b)))) ∧
  (∀ f : FCmpI, f.cond.toNat ≤ 9 →
    sets (.icmpi f) [⟨f.a.toNat, 1, 1⟩] (fun s _ t => s.noUse t [f.a.toNat])
      (fun s _ t => t.setPred f.pd (intCond f.cond.toNat (s.w32 t f.a) (f.imm.signExtend 32)))) ∧
  (∀ f : FFCmp, f.cond.toNat ≤ 5 →
    sets (.fcmp f) [⟨f.a.toNat, 1, 1⟩, ⟨f.b.toNat, 1, 1⟩] (fun s _ t => s.noUse t [f.a.toNat, f.b.toNat])
      (fun s e t => t.setPred f.pd (fcond f.cond.toNat (s.f32 e t f.a) (s.f32 e t f.b)))) ∧
  (∀ f : FPred, sets (.pand f) [] always (fun _ _ t => t.setPred f.pd ((t.pred f.pa ^^ f.na) && (t.pred f.pb ^^ f.nb)))) ∧
  (∀ f : FPred, sets (.por f) [] always (fun _ _ t => t.setPred f.pd ((t.pred f.pa ^^ f.na) || (t.pred f.pb ^^ f.nb)))) ∧
  (∀ f : FPred, sets (.pxor f) [] always (fun _ _ t => t.setPred f.pd ((t.pred f.pa ^^ f.na) ^^ (t.pred f.pb ^^ f.nb)))) ∧
  (∀ f : FPnot, sets (.pnot f) [] always (fun _ _ t => t.setPred f.pd (!(t.pred f.pa ^^ f.na))))

/-! ## Float instructions -/

/-- R366, R374, R100, R102, R103: FADD, FMUL and FFMA round the exact sum, product and product-sum once, to nearest even;
FTZ turns subnormal operands and results into zeros. BirthsAndRules states the births. -/
def Obligations.FloatArithmetic : Prop :=
  (∀ f : Fdab, floatWrites (.fadd f) f.d [f.a, f.b]
    (fun s e t => noBirth fF32 (fsum [s.f32 e t f.a, s.f32 e t f.b]) [s.f32 e t f.a, s.f32 e t f.b])
    (fun s e t => fF32.flush e.ftz (fF32.round (fsum [s.f32 e t f.a, s.f32 e t f.b]))) (fun _ _ _ => none)) ∧
  (∀ f : Fdab, floatWrites (.fmul f) f.d [f.a, f.b]
    (fun s e t => noBirth fF32 ((s.f32 e t f.a).mul (s.f32 e t f.b)) [s.f32 e t f.a, s.f32 e t f.b])
    (fun s e t => fF32.flush e.ftz (fF32.round ((s.f32 e t f.a).mul (s.f32 e t f.b)))) (fun _ _ _ => none)) ∧
  (∀ f : FR4, floatWrites (.ffma f) f.d [f.a, f.b, f.c.zeroExtend 7]
    (fun s e t => noBirth fF32 (fsum [(s.f32 e t f.a).mul (s.f32 e t f.b), s.f32 e t (f.c.zeroExtend 7)])
      [s.f32 e t f.a, s.f32 e t f.b, s.f32 e t (f.c.zeroExtend 7)])
    (fun s e t => fF32.flush e.ftz (fF32.round (fsum [(s.f32 e t f.a).mul (s.f32 e t f.b), s.f32 e t (f.c.zeroExtend 7)])))
    (fun _ _ _ => none))

/-- R375, R368, R103: FMIN and FMAX return an operand (a NaN loses to a number, two NaNs give the canonical NaN, −0 lies
below +0); FCLASS sets the one bit of the operand's class. R107, R366: the six approximating instructions complete with the value
the model takes for the unpublished function (log entry 6, DESIGN CHOICE: a free value where it meets the bound). BirthsAndRules
states the births. -/
def Obligations.FloatSelectClassApproximate : Prop :=
  (∀ f : Fdab, floatWrites (.fmin f) f.d [f.a, f.b] always
    (fun s e t => (fF32.minmax e.ftz false (s.w32 t f.a).toNat (s.w32 t f.b).toNat).1)
    (fun s e t => some (if (fF32.minmax e.ftz false (s.w32 t f.a).toNat (s.w32 t f.b).toNat).2 = 2 then (s.opd32 t f.b).tag else (s.opd32 t f.a).tag))) ∧
  (∀ f : Fdab, floatWrites (.fmax f) f.d [f.a, f.b] always
    (fun s e t => (fF32.minmax e.ftz true (s.w32 t f.a).toNat (s.w32 t f.b).toNat).1)
    (fun s e t => some (if (fF32.minmax e.ftz true (s.w32 t f.a).toNat (s.w32 t f.b).toNat).2 = 2 then (s.opd32 t f.b).tag else (s.opd32 t f.a).tag))) ∧
  (∀ f : Fda, floatWrites (.fclass f) f.d [f.a] always (fun s _ t => 2 ^ classBit (s.w32 t f.a).toNat) (fun _ _ _ => none)) ∧
  (∀ (f : Fda) (i : Instr) (op : Nat),
    (i, op) ∈ [(Instr.frcp f, 4), (.frsq f, 5), (.fexp2 f, 6), (.flog2 f, 7), (.fsin f, 8), (.fcos f, 9)] →
    floatWrites i f.d [f.a] (fun s e t => (approxOf op e.ftz (s.w32 t f.a).toNat).kind == 0)
      (fun s e t => (approxOf op e.ftz (s.w32 t f.a).toNat).code) (fun _ _ _ => none))

/-- R367, R106, R326: the packed instructions round each element once in FP16 or BF16; FDOT2 and FDOT2.E4M3 round the
exact sum of the products and the FP32 addend d once. FDOT2.E4M3 is meant where the stepping and the manifest admit it
(R290). BirthsAndRules states the births. -/
def Obligations.PackedArithmetic : Prop :=
  (∀ f : FHdab, writes (.fadd2 f) f.d.toNat [⟨f.d.toNat, 1, 1⟩, ⟨f.a.toNat, 1, 1⟩, ⟨f.b.toNat, 1, 1⟩]
    (fun s e t => [0, 1].all fun i => noBirth (fmt16 f.h) (fsum [s.f16 e t f.h f.a i, s.f16 e t f.h f.b i])
      [s.f16 e t f.h f.a i, s.f16 e t f.h f.b i])
    (fun s e t => e.result32 [s.opd32 t f.a, s.opd32 t f.b] (s.opd32 t f.a).tag none
      (pack16 (fmt16 f.h) e.ftz fun i => fsum [s.f16 e t f.h f.a i, s.f16 e t f.h f.b i]))) ∧
  (∀ f : FHdab, writes (.fmul2 f) f.d.toNat [⟨f.d.toNat, 1, 1⟩, ⟨f.a.toNat, 1, 1⟩, ⟨f.b.toNat, 1, 1⟩]
    (fun s e t => [0, 1].all fun i => noBirth (fmt16 f.h) ((s.f16 e t f.h f.a i).mul (s.f16 e t f.h f.b i))
      [s.f16 e t f.h f.a i, s.f16 e t f.h f.b i])
    (fun s e t => e.result32 [s.opd32 t f.a, s.opd32 t f.b] (s.opd32 t f.a).tag none
      (pack16 (fmt16 f.h) e.ftz fun i => (s.f16 e t f.h f.a i).mul (s.f16 e t f.h f.b i)))) ∧
  (∀ f : FFma2, let c : VReg := f.c.zeroExtend 7
    writes (.fma2 f) f.d.toNat [⟨f.d.toNat, 1, 1⟩, ⟨f.a.toNat, 1, 1⟩, ⟨f.b.toNat, 1, 1⟩, ⟨c.toNat, 1, 1⟩]
    (fun s e t => [0, 1].all fun i =>
      noBirth (fmt16 f.h) (fsum [(s.f16 e t f.h f.a i).mul (s.f16 e t f.h f.b i), s.f16 e t f.h c i])
        [s.f16 e t f.h f.a i, s.f16 e t f.h f.b i, s.f16 e t f.h c i])
    (fun s e t => e.result32 [s.opd32 t f.a, s.opd32 t f.b, s.opd32 t c] (s.opd32 t f.a).tag none
      (pack16 (fmt16 f.h) e.ftz fun i => fsum [(s.f16 e t f.h f.a i).mul (s.f16 e t f.h f.b i), s.f16 e t f.h c i]))) ∧
  (∀ f : FHdab, writes (.fdot2 f) f.d.toNat [⟨f.d.toNat, 1, 1⟩, ⟨f.a.toNat, 1, 1⟩, ⟨f.b.toNat, 1, 1⟩]
    (fun s e t =>
      let x := s.f16 e t f.h f.a
      let y := s.f16 e t f.h f.b
      noBirth fF32 (fsum [(x 0).mul (y 0), (x 1).mul (y 1), s.f32 e t f.d]) [x 0, x 1, y 0, y 1, s.f32 e t f.d])
    (fun s e t =>
      let x := s.f16 e t f.h f.a
      let y := s.f16 e t f.h f.b
      e.result32 [s.opd32 t f.d, s.opd32 t f.a, s.opd32 t f.b] (s.opd32 t f.a).tag none
        (BitVec.ofNat 32 (fF32.flush e.ftz (fF32.round (fsum [(x 0).mul (y 0), (x 1).mul (y 1), s.f32 e t f.d])))))) ∧
  (∀ f : Fdab, writes (.fdot2E4m3 f) f.d.toNat [⟨f.d.toNat, 1, 1⟩, ⟨f.a.toNat, 1, 1⟩, ⟨f.b.toNat, 1, 1⟩]
    (fun s e t =>
      let x := fun i => fE4M3.dec ((s.w32 t f.a).extractLsb' (8 * i) 8).toNat
      let y := fun i => fE4M3.dec ((s.w32 t f.b).extractLsb' (8 * i) 8).toNat
      s.admits31 e && noBirth fF32 (fsum [(x 0).mul (y 0), (x 1).mul (y 1), (x 2).mul (y 2), (x 3).mul (y 3), s.f32 e t f.d])
        [x 0, x 1, x 2, x 3, y 0, y 1, y 2, y 3, s.f32 e t f.d])
    (fun s e t =>
      let x := fun i => fE4M3.dec ((s.w32 t f.a).extractLsb' (8 * i) 8).toNat
      let y := fun i => fE4M3.dec ((s.w32 t f.b).extractLsb' (8 * i) 8).toNat
      e.result32 [s.opd32 t f.d, s.opd32 t f.a, s.opd32 t f.b] (s.opd32 t f.a).tag none
        (BitVec.ofNat 32 (fF32.flush e.ftz
          (fF32.round (fsum [(x 0).mul (y 0), (x 1).mul (y 1), (x 2).mul (y 2), (x 3).mul (y 3), s.f32 e t f.d]))))))

/-- R370, R371, R412, R413: FCVT completes with the narrowed element; QUANT completes with the packed codes in v`d` on
and the scale in v`b`. BirthsAndRules states the births. -/
def Obligations.ConvertAndQuantise : Prop :=
  (∀ f : FCvt, wellFormed (.fcvt f) = true → writes (.fcvt f) f.d.toNat [⟨f.d.toNat, 1, 1⟩, ⟨f.a.toNat, 1, 1⟩]
    (fun s e t => (cvtElem f.tgt.toNat f.src.toNat f.rnd.toNat f.ovf e.ftz (s.w32 t f.a).toNat).kind == 0)
    (fun s e t => e.result32 [s.opd32 t f.a] (s.opd32 t f.a).tag none
      (BitVec.ofNat 32 (cvtElem f.tgt.toNat f.src.toNat f.rnd.toNat f.ovf e.ftz (s.w32 t f.a).toNat).code))) ∧
  (∀ f : FQuant, wellFormed (.quant f) = true →
    let n := if f.tgt = 2 then 4 else 8
    let q := fun (s : State) (t : Thread) => quantise f.tgt.toNat ((List.range 32).map fun i => (s.reg t (f.a.toNat + i)).val.toNat)
    ∀ s e, s.port e = true →
      s.lanesAll e (fun t => e.names t [⟨f.a.toNat, 32, 1⟩, ⟨f.d.toNat, n, 1⟩, ⟨f.b.toNat, 1, 1⟩] &&
        !(decide (f.d.toNat ≤ f.b.toNat) && decide (f.b.toNat < f.d.toNat + n)) && (q s t).2.all fun x => x.kind == 0) = true →
      ∃ s', exec (.quant f) s = .next s' ∧ s.lanesWrote s' e 1 fun t v =>
        let g := birthRule e.ownTag ((List.range 32).map fun i => ⟨(s.reg t (f.a.toNat + i)).val.toNat, (s.reg t (f.a.toNat + i)).tag⟩)
        if v = f.b.toNat then some ⟨BitVec.ofNat 32 (q s t).1, g⟩
        else fromReg f.d.toNat ((groupsOf (32 / n) n ((q s t).2.map (·.code))).map fun l => ⟨BitVec.ofNat 32 (packElems n l), g⟩) v)

/-! ## Special registers and eartag moves -/

/-- R328, R396, R403, R431, R87, R93: MFS writes the value of each special register with the instruction's own eartag,
MTS changes the thread's %anom or watchpoints for its next clause, TAGRD reads and TAGWR writes an eartag, WBASE moves
the window. -/
def Obligations.SpecialRegisters : Prop :=
  (∀ (d : VReg) (n : BitVec 7) (x : State → Env → Thread → Nat),
    (n.toNat, x) ∈ ([(0, fun _ _ t => t.lane), (1, fun _ _ t => t.slot), (2, fun _ _ t => t.tid), (3, fun _ e _ => e.crew.ord),
      (4, fun _ e _ => e.crew.gangWord 0), (5, fun _ e _ => e.crew.gangWord 1), (6, fun _ e _ => e.crew.gangWord 2),
      (7, fun _ e _ => e.crew.gangWord 3), (8, fun _ _ t => t.role), (9, fun s _ _ => s.chip.dev % 65536),
      (11, fun _ e _ => (if e.crew.req then 2 ^ 31 else 0) + e.crew.left % 2 ^ 25), (12, fun _ _ t => t.wbase),
      (13, fun _ _ t => (if t.lastf then 2 ^ 11 else 0) + t.refuse % 8 * 2 ^ 8 + t.nest % 8 * 4 + t.depth % 4),
      (14, fun _ _ t => t.anom), (18, fun _ _ t => (t.watch.getD 0 Watch.zero).ctl),
      (21, fun _ _ t => (t.watch.getD 1 Watch.zero).ctl)] : List (Nat × (State → Env → Thread → Nat))) →
    writes (.mfs d n) d.toNat [⟨d.toNat, 1, 1⟩] always (fun s e t => [⟨BitVec.ofNat 32 (x s e t), e.ownTag⟩])) ∧
  (∀ (d : VReg) (n : BitVec 7) (x : State → Env → Thread → Nat),
    (n.toNat, x) ∈ ([(10, fun s _ _ => s.timebase), (16, fun _ _ t => (t.watch.getD 0 Watch.zero).lo),
      (17, fun _ _ t => (t.watch.getD 0 Watch.zero).hi), (19, fun _ _ t => (t.watch.getD 1 Watch.zero).lo),
      (20, fun _ _ t => (t.watch.getD 1 Watch.zero).hi)] : List (Nat × (State → Env → Thread → Nat))) →
    writes (.mfs d n) d.toNat [⟨d.toNat, 2, 2⟩] always (fun s e t => pairRegs (BitVec.ofNat 64 (x s e t)) e.ownTag)) ∧
  (∀ (n : BitVec 7) (a : VReg), specialListed n.toNat = true → wideSpecial n = false →
    sets (.mts n a) [⟨a.toNat, 1, 1⟩] (fun _ _ t => !t.spec) (fun s _ t => t.setSpecial n.toNat (s.w32 t a).toNat)) ∧
  (∀ (n : BitVec 7) (a : VReg), specialListed n.toNat = true → wideSpecial n = true →
    sets (.mts n a) [⟨a.toNat, 2, 2⟩] (fun _ _ t => !t.spec) (fun s _ t => t.setSpecial n.toNat (s.w64 t a).toNat)) ∧
  (∀ f : Fda, writes (.tagrd f) f.d.toNat [⟨f.d.toNat, 1, 1⟩, ⟨f.a.toNat, 1, 1⟩] always
    (fun s e t => [⟨(s.reg t f.a.toNat).tag.zeroExtend 32, e.ownTag⟩])) ∧
  (∀ f : Fda, writes (.tagwr f) f.d.toNat [⟨f.d.toNat, 1, 1⟩, ⟨f.a.toNat, 1, 1⟩]
    (fun s _ t => (s.w32 t f.a).extractLsb' 24 8 == 0#8 &&
      !((s.w32 t f.a).getLsbD 23 && (s.w32 t f.a).extractLsb' 20 3 != 0#3))
    (fun s _ t => [⟨s.w32 t f.d, (s.w32 t f.a).extractLsb' 0 24⟩])) ∧
  (∀ k : BitVec 4, sets (.wbase k) [] (fun _ e t => decide (32 * k.toNat < e.c.span t)) (fun _ _ t => { t with wbase := 32 * k.toNat }))

/-! ## Cross-lane instructions -/

/-- R425, R422, R408, R392, R293: SHFL and ROT copy the value and eartag of a source lane, or the lane's own when that lane
is not active; POPC of a predicate counts the active lanes that hold it; MATCH gives the first equal lane, the number of
equal lanes below, the mask of the equal lanes or their number; under C16 each half is a group of its own. -/
def Obligations.ShuffleAndMatch : Prop :=
  (∀ f : FVdab, crossWrites (.shfl f) f.d.toNat [⟨f.d.toNat, 1, 1⟩, ⟨f.a.toNat, 1, 1⟩, ⟨f.b.toNat, 1, 1⟩]
    (fun s e t => [s.regOfLane e t f.a (shflSrc e.launch.c16 f.v.toNat t.lane (s.w32 t f.b).toNat)])) ∧
  (∀ f : Fdab, crossWrites (.rot f) f.d.toNat [⟨f.d.toNat, 1, 1⟩, ⟨f.a.toNat, 1, 1⟩, ⟨f.b.toNat, 1, 1⟩]
    (fun s e t =>
      let n := if e.launch.c16 then 16 else 32
      [s.regOfLane e t f.a (some (e.firstLane t + (t.lane + (s.w32 t f.b).toNat) % n))])) ∧
  (∀ (d : VReg) (p : PReg), crossWrites (.popcP d p) d.toNat [⟨d.toNat, 1, 1⟩]
    (fun s e t => [⟨BitVec.ofNat 32 ((s.groupOfLane e t).countP fun x => x.pred p), e.ownTag⟩])) ∧
  (∀ (i : FVda → Instr) (wide : Bool), (i, wide) ∈ [(Instr.matchLane, false), (Instr.matchLane64, true)] → ∀ f : FVda,
    crossWrites (i f) f.d.toNat [⟨f.d.toNat, 1, 1⟩, use wide f.a.toNat]
    (fun s e t =>
      let x := fun t => if wide then s.w64 t f.a else (s.w32 t f.a).zeroExtend 64
      let eq := (s.groupOfLane e t).filter fun y => x y == x t
      [⟨match f.v.toNat with
        | 0 => BitVec.ofNat 32 (((eq.head?).map fun y => y.lane - e.firstLane t).getD 0)
        | 1 => BitVec.ofNat 32 (eq.countP fun y => decide (y.lane < t.lane))
        | 2 => e.maskOf t eq
        | _ => BitVec.ofNat 32 eq.length, e.ownTag⟩]))

/-- R436, R415, R416: VOTE any and all write a predicate, ballot and first a register; REDUX gives every lane the operation
over the active lanes of its group in ascending order, or under .scan over those up to itself, with the eartag of the
winning lane under min and max, else of the birth rule over those lanes; BirthsAndRules states a float step that is a birth. -/
def Obligations.VoteAndReduce : Prop :=
  (∀ f : FVote, wellFormed (.vote f) = true → f.v = 0 →
    sets (.vote f) [] (fun _ _ t => !t.spec)
      (fun s e t => t.setPred (f.d.extractLsb' 0 3) ((s.groupOfLane e t).any fun x => x.pred f.p ^^ f.neg))) ∧
  (∀ f : FVote, wellFormed (.vote f) = true → f.v = 1 →
    sets (.vote f) [] (fun _ _ t => !t.spec)
      (fun s e t => t.setPred (f.d.extractLsb' 0 3) ((s.groupOfLane e t).all fun x => x.pred f.p ^^ f.neg))) ∧
  (∀ f : FVote, f.v = 2 → crossWrites (.vote f) f.d.toNat [⟨f.d.toNat, 1, 1⟩]
    (fun s e t => [⟨e.maskOf t ((s.groupOfLane e t).filter fun x => x.pred f.p ^^ f.neg), e.ownTag⟩])) ∧
  (∀ f : FVote, f.v = 3 → crossWrites (.vote f) f.d.toNat [⟨f.d.toNat, 1, 1⟩]
    (fun s e t => [⟨BitVec.ofNat 32 ((((s.groupOfLane e t).find? fun x => x.pred f.p ^^ f.neg).map fun x => x.lane - e.firstLane t).getD
      (if e.launch.c16 then 16 else 32)), e.ownTag⟩])) ∧
  (∀ f : FRedux, wellFormed (.redux f) = true → ∀ s e, s.port e = true →
    s.lanesAll e (fun t => e.names t [⟨f.d.toNat, 1, 1⟩, ⟨f.a.toNat, 1, 1⟩] && !t.spec) = true →
    (∀ t ∈ s.lanesOf e, reduxQuiet f.op.toNat f.ty.toNat e.ftz (s.reduxIn e f (s.groupOfLane e t)).1
      (s.reduxIn e f (s.groupOfLane e t)).2 = true) →
    ∃ s', exec (.redux f) s = .next s' ∧ s.lanesWrote s' e 1 fun t =>
      let ms := (s.groupOfLane e t).filter fun x => !f.scan || decide (x.lane ≤ t.lane)
      let l := s.reduxIn e f ms
      fromReg f.d.toNat [⟨BitVec.ofNat 32 (reduxValue f.op.toNat f.ty.toNat e.ftz l.1 l.2), s.reduxTag e f ms⟩])

/-! ## Births and traps -/

/-- R73, R105, R75, in every lane of a slot whose births go on: while IOVF is 1 a signed overflow and a division by zero are
births of kind 4, in both widths: the record holds the operands, and the result, wrapped, takes the record's eartag. R391: a
pointer sum that leaves the address bits is one of kind 5. R104, R106, R107: a float result births by its own kind, a packed
one by its lowest element that is a birth. R413, R416: each code register of QUANT births for its first such element, and REDUX once a
group, for the first such step. R86: in an open region the region commits first. A lane without a birth takes the eartag of the clause's rule. R88: under trap on
birth the lane then takes trap 12 and stands past the instruction. R74: the eartag of a result that is no birth under
each value of RULE: the birth rule takes the first A-tagged operand's or the instruction's own; rule 1 operand a's; the
select rule the chosen operand's, or that of the first operand equal to the result; rule 3 the own. -/
def Obligations.BirthsAndRules : Prop :=
  birth2 .iadd (fun _ x y => x.saddOverflow y) (fun _ x y => x + y) ∧
  birth2 .isub (fun _ x y => x.ssubOverflow y) (fun _ x y => x - y) ∧
  birth2 .imul (fun _ x y => x.smulOverflow y) (fun _ x y => x * y) ∧
  birth2 .idiv (fun w x y => y == 0 || (x == BitVec.intMin w && y == -1)) (fun w x y => if y = 0 then BitVec.allOnes w else x.sdiv y) ∧
  birth2 .irem (fun _ _ y => y == 0) (fun _ x y => if y = 0 then x else x.srem y) ∧
  (∀ f : FImm, bears (.iaddi f) f.d [⟨f.d.toNat, 1, 1⟩, ⟨f.a.toNat, 1, 1⟩]
    (fun s _ t => if t.iovf && (s.w32 t f.a).saddOverflow (f.imm.signExtend 32) then 4 else 0) (fun s _ t => s.ops1 t f.a)
    (fun s t => s.rule32 t [f.a]) (fun s _ t => s.w32 t f.a + f.imm.signExtend 32)) ∧
  (∀ f : FR4, let c : VReg := f.c.zeroExtend 7
    bears (.imad f) f.d [⟨f.d.toNat, 1, 1⟩, ⟨f.a.toNat, 1, 1⟩, ⟨f.b.toNat, 1, 1⟩, ⟨f.c.toNat, 1, 1⟩]
    (fun s _ t =>
      let x := (s.w32 t f.a).toInt * (s.w32 t f.b).toInt + (s.w32 t c).toInt
      if t.iovf && (decide (x < -2 ^ 31) || decide (2 ^ 31 ≤ x)) then 4 else 0)
    (fun s _ t => s.ops3 t f.a f.b c) (fun s t => s.rule32 t [f.a, f.b, c]) (fun s _ t => s.w32 t f.a * s.w32 t f.b + s.w32 t c)) ∧
  (∀ f : FWda, f.wide = false → bears (.iabs f) f.d [⟨f.d.toNat, 1, 1⟩, ⟨f.a.toNat, 1, 1⟩]
    (fun s _ t => if t.iovf && s.w32 t f.a == BitVec.intMin 32 then 4 else 0) (fun s _ t => s.ops1 t f.a)
    (fun s t => s.rule32 t [f.a]) (fun s _ t => if (s.w32 t f.a).msb then -(s.w32 t f.a) else s.w32 t f.a)) ∧
  (∀ f : FWda, f.wide = true → bears (.iabs f) f.d [⟨f.d.toNat, 2, 2⟩, ⟨f.a.toNat, 2, 2⟩]
    (fun s _ t => if t.iovf && s.w64 t f.a == BitVec.intMin 64 then 4 else 0)
    (fun s _ t => ⟨(s.w64 t f.a).extractLsb' 0 32, 0, 0, (s.opd64 t f.a).tag, 0, 0⟩)
    (fun s t => ⟨[s.opd64 t f.a], (s.opd64 t f.a).tag⟩) (fun s _ t => if (s.w64 t f.a).msb then -(s.w64 t f.a) else s.w64 t f.a)) ∧
  (∀ f : Fdab, bears (.lea f) f.d [⟨f.d.toNat, 2, 2⟩, ⟨f.a.toNat, 2, 2⟩, ⟨f.b.toNat, 1, 1⟩]
    (fun s _ t =>
      let x := s.w64 t f.a + (s.w32 t f.b).zeroExtend 64
      if x.extractLsb' 60 4 == 0#4 && x.extractLsb' 48 8 == 0#8 then 0 else 5)
    (fun s _ t => ⟨(s.w64 t f.a).extractLsb' 0 32, s.w32 t f.b, 0, (s.opd64 t f.a).tag, (s.opd32 t f.b).tag, 0⟩)
    (fun s t => ⟨[s.opd64 t f.a, (s.opd32 t f.b).narrow], (s.opd64 t f.a).tag⟩)
    (fun s _ t => s.w64 t f.a + (s.w32 t f.b).zeroExtend 64)) ∧
  (∀ f : Fdab, roundsTo (.fadd f) f.d [⟨f.d.toNat, 1, 1⟩, ⟨f.a.toNat, 1, 1⟩, ⟨f.b.toNat, 1, 1⟩]
    (fun s e t => fsum [s.f32 e t f.a, s.f32 e t f.b]) (fun s e t => [s.f32 e t f.a, s.f32 e t f.b])
    (fun s _ t => s.ops2 t f.a f.b) (fun s t => s.rule32 t [f.a, f.b])) ∧
  (∀ f : Fdab, roundsTo (.fmul f) f.d [⟨f.d.toNat, 1, 1⟩, ⟨f.a.toNat, 1, 1⟩, ⟨f.b.toNat, 1, 1⟩]
    (fun s e t => (s.f32 e t f.a).mul (s.f32 e t f.b)) (fun s e t => [s.f32 e t f.a, s.f32 e t f.b])
    (fun s _ t => s.ops2 t f.a f.b) (fun s t => s.rule32 t [f.a, f.b])) ∧
  (∀ f : FR4, let c : VReg := f.c.zeroExtend 7
    roundsTo (.ffma f) f.d [⟨f.d.toNat, 1, 1⟩, ⟨f.a.toNat, 1, 1⟩, ⟨f.b.toNat, 1, 1⟩, ⟨f.c.toNat, 1, 1⟩]
    (fun s e t => fsum [(s.f32 e t f.a).mul (s.f32 e t f.b), s.f32 e t c]) (fun s e t => [s.f32 e t f.a, s.f32 e t f.b, s.f32 e t c])
    (fun s _ t => s.ops3 t f.a f.b c) (fun s t => s.rule32 t [f.a, f.b, c])) ∧
  (∀ f : FHdab, packedTo (.fadd2 f) f.h f.d [f.a, f.b] (fun s e t i => fsum [s.f16 e t f.h f.a i, s.f16 e t f.h f.b i])
    (fun s e t i => [s.f16 e t f.h f.a i, s.f16 e t f.h f.b i])
    (fun s t i => ⟨s.half t f.a i, s.half t f.b i, 0, (s.opd32 t f.a).tag, (s.opd32 t f.b).tag, 0⟩)) ∧
  (∀ f : FHdab, packedTo (.fmul2 f) f.h f.d [f.a, f.b] (fun s e t i => (s.f16 e t f.h f.a i).mul (s.f16 e t f.h f.b i))
    (fun s e t i => [s.f16 e t f.h f.a i, s.f16 e t f.h f.b i])
    (fun s t i => ⟨s.half t f.a i, s.half t f.b i, 0, (s.opd32 t f.a).tag, (s.opd32 t f.b).tag, 0⟩)) ∧
  (∀ f : FFma2, let c : VReg := f.c.zeroExtend 7
    packedTo (.fma2 f) f.h f.d [f.a, f.b, c]
    (fun s e t i => fsum [(s.f16 e t f.h f.a i).mul (s.f16 e t f.h f.b i), s.f16 e t f.h c i])
    (fun s e t i => [s.f16 e t f.h f.a i, s.f16 e t f.h f.b i, s.f16 e t f.h c i])
    (fun s t i => ⟨s.half t f.a i, s.half t f.b i, s.half t c i, (s.opd32 t f.a).tag, (s.opd32 t f.b).tag, (s.opd32 t c).tag⟩)) ∧
  (∀ f : FHdab, roundsTo (.fdot2 f) f.d [⟨f.d.toNat, 1, 1⟩, ⟨f.a.toNat, 1, 1⟩, ⟨f.b.toNat, 1, 1⟩]
    (fun s e t => fsum [(s.f16 e t f.h f.a 0).mul (s.f16 e t f.h f.b 0), (s.f16 e t f.h f.a 1).mul (s.f16 e t f.h f.b 1), s.f32 e t f.d])
    (fun s e t => [s.f16 e t f.h f.a 0, s.f16 e t f.h f.a 1, s.f16 e t f.h f.b 0, s.f16 e t f.h f.b 1, s.f32 e t f.d])
    (fun s _ t => s.ops3 t f.a f.b f.d)
    (fun s t => ⟨[s.opd32 t f.d, s.opd32 t f.a, s.opd32 t f.b], (s.opd32 t f.a).tag⟩)) ∧
  (∀ f : Fdab,
    let x := fun (s : State) t i => fE4M3.dec ((s.w32 t f.a).extractLsb' (8 * i) 8).toNat
    let y := fun (s : State) t i => fE4M3.dec ((s.w32 t f.b).extractLsb' (8 * i) 8).toNat
    let v := fun (s : State) e t => fsum [(x s t 0).mul (y s t 0), (x s t 1).mul (y s t 1), (x s t 2).mul (y s t 2), (x s t 3).mul (y s t 3), s.f32 e t f.d]
    let kind := fun (s : State) e t => fF32.birthKind (fF32.round (v s e t))
      [x s t 0, x s t 1, x s t 2, x s t 3, y s t 0, y s t 1, y s t 2, y s t 3, s.f32 e t f.d]
    let r := fun (s : State) e t => fF32.flush e.ftz (fF32.round (v s e t))
    effects (.fdot2E4m3 f) 1 [⟨f.d.toNat, 1, 1⟩, ⟨f.a.toNat, 1, 1⟩, ⟨f.b.toNat, 1, 1⟩]
      (fun s e u t => s.admits31 e && (kind s e t == 0 || s.mayBear e u t (kind s e t) (s.ops3 t f.a f.b f.d)))
      (fun s e u t => s.bornOr e u t (kind s e t) (s.ops3 t f.a f.b f.d) f.d.toNat
        (ruleTag e.rule e.ownTag [s.opd32 t f.d, s.opd32 t f.a, s.opd32 t f.b] (s.opd32 t f.a).tag none (BitVec.ofNat 32 (r s e t)).toNat)
        (resultRegs 32 (BitVec.ofNat 32 (r s e t)).toNat))) ∧
  (∀ (f : Fda) (i : Instr) (op : Nat),
    (i, op) ∈ [(Instr.frcp f, 4), (.frsq f, 5), (.fexp2 f, 6), (.flog2 f, 7), (.fsin f, 8), (.fcos f, 9)] →
    bears i f.d [⟨f.d.toNat, 1, 1⟩, ⟨f.a.toNat, 1, 1⟩] (fun s e t => (approxOf op e.ftz (s.w32 t f.a).toNat).kind) (fun s _ t => s.ops1 t f.a)
      (fun s t => s.rule32 t [f.a]) (fun s e t => BitVec.ofNat 32 (approxOf op e.ftz (s.w32 t f.a).toNat).code)) ∧
  (∀ f : FCvt, wellFormed (.fcvt f) = true → bears (.fcvt f) f.d [⟨f.d.toNat, 1, 1⟩, ⟨f.a.toNat, 1, 1⟩]
    (fun s e t => (cvtElem f.tgt.toNat f.src.toNat f.rnd.toNat f.ovf e.ftz (s.w32 t f.a).toNat).kind) (fun s _ t => s.ops1 t f.a)
    (fun s t => s.rule32 t [f.a])
    (fun s e t => BitVec.ofNat 32 (cvtElem f.tgt.toNat f.src.toNat f.rnd.toNat f.ovf e.ftz (s.w32 t f.a).toNat).code)) ∧
  (∀ f : FQuant, wellFormed (.quant f) = true →
    let n := if f.tgt = 2 then 4 else 8
    effects (.quant f) 1 [⟨f.a.toNat, 32, 1⟩, ⟨f.d.toNat, n, 1⟩, ⟨f.b.toNat, 1, 1⟩]
      (fun s e u t => !(decide (f.d.toNat ≤ f.b.toNat) && decide (f.b.toNat < f.d.toNat + n)) && !t.spec && t.policy != 1 &&
        s.recorded (s.quanted e u t f) e.crew.ctx)
      (fun s e u t => s.quanted e u t f)) ∧
  (∀ f : FRedux, wellFormed (.redux f) = true →
    onceEffects (.redux f) 1 [⟨f.d.toNat, 1, 1⟩, ⟨f.a.toNat, 1, 1⟩] (fun _ _ t => !t.spec && t.policy != 1)
      (fun s e _ _ => s.recorded (s.reduxed e f (s.active e)) e.crew.ctx) (fun s e _ _ l => s.reduxed e f l)) ∧
  (∀ f : Fdab, let born := fun (s : State) e u t => s.born e u t (s.addKind e t f) (s.ops2 t f.a f.b) f.d.toNat fun g =>
      [⟨BitVec.ofNat 32 (fF32.flush e.ftz (fF32.round (fsum [s.f32 e t f.a, s.f32 e t f.b]))), g⟩]
    let trap := fun (s : State) e u t => birthTrap s e u t (s.addKind e t f) (s.ops2 t f.a f.b)
    departs (.fadd f) 1 [⟨f.d.toNat, 1, 1⟩, ⟨f.a.toNat, 1, 1⟩, ⟨f.b.toNat, 1, 1⟩]
    (fun s e u t => s.addKind e t f != 0 && !t.spec && t.region.isNone && t.policy == 1 && s.recorded (born s e u t) e.crew.ctx &&
      (born s e u t).mayTrap e u t (trap s e u t))
    (fun s e u t => ((born s e u t).faultRecord (e.issuer u t) (trap s e u t) (2 ^ t.lane) t.held.isSome false).1)
    (fun s e u t => trapStand (born s e u t) e u t (trap s e u t) (e.nextAt 1))) ∧
  (∀ (own a : Tag) (opds : List Opd) (sel : Option Tag) (bits : Nat),
    ((∀ o ∈ opds, isA o.tag = false) → ruleTag 0 own opds a sel bits = own) ∧
    (∀ l o r, opds = l ++ o :: r → (∀ x ∈ l, isA x.tag = false) → isA o.tag = true → ruleTag 0 own opds a sel bits = o.tag) ∧
    ruleTag 1 own opds a sel bits = a ∧
    (∀ g, ruleTag 2 own opds a (some g) bits = g) ∧
    (∀ l o r, opds = l ++ o :: r → (∀ x ∈ l, x.bits ≠ bits) → o.bits = bits → ruleTag 2 own opds a none bits = o.tag) ∧
    ((∀ o ∈ opds, o.bits ≠ bits) → ruleTag 2 own opds a none bits = a) ∧
    ruleTag 3 own opds a sel bits = own)

/-- R432, R343, R230 to R232: TRAP parks the lane for delivery with number 35 and its code at the next instruction, BRK with
number 36 at itself, each with its fault record. R329, R314: a major-1 form that names a register past the allotment takes
window-overrun, one that names an odd pair illegal-operand. R89: ICMP of an A-tagged operand under trap on use takes
anomaly-use. R431: TAGWR of an illegal eartag and WBASE past the allotment take illegal-operand; R382: INJECT without FINJ
takes privilege; R363: ERET outside a handler illegal-instruction; R133: a misaligned global load and one with pointer bits
set take the address trap, whatever else the load would do. -/
def Obligations.LaneTraps : Prop :=
  (∀ code : BitVec 16, traps (.trap code) (fun _ _ _ => true) (fun _ _ _ => { num := 35, cause := code.toNat % 256 }) true) ∧
  traps .brk (fun _ _ _ => true) (fun _ _ _ => { num := 36 }) false ∧
  (∀ (f : FVdab) (i : FVdab → Instr),
    i ∈ [Instr.iadd, .isub, .imul, .imulh, .idiv, .irem, .imin, .imax, .and, .or, .xor] →
    (f.v.toNat < 2 → traps (i f) (fun _ e t => !(e.names t [⟨f.d.toNat, 1, 1⟩, ⟨f.a.toNat, 1, 1⟩, ⟨f.b.toNat, 1, 1⟩]))
      (fun s _ t => { num := 4, tag := (s.opd32 t f.a).tag }) false) ∧
    (2 ≤ f.v.toNat → f.d.toNat % 2 = 1 ∨ f.a.toNat % 2 = 1 ∨ f.b.toNat % 2 = 1 → traps (i f) (fun _ _ _ => true)
      (fun s _ t => { num := 2, tag := (s.opd64 t f.a).tag }) false)) ∧
  (∀ f : FICmp, f.wide = false → traps (.icmp f)
    (fun s e t => e.names t [⟨f.a.toNat, 1, 1⟩, ⟨f.b.toNat, 1, 1⟩] && t.policy == 2 && isA (s.opd32 t f.a).tag)
    (fun s _ t => { num := 13, cause := 2, tag := (s.opd32 t f.a).tag }) false) ∧
  (∀ f : Fda, traps (.tagwr f)
    (fun s e t => e.names t [⟨f.d.toNat, 1, 1⟩, ⟨f.a.toNat, 1, 1⟩] &&
      ((s.w32 t f.a).extractLsb' 24 8 != 0#8 || ((s.w32 t f.a).getLsbD 23 && (s.w32 t f.a).extractLsb' 20 3 != 0#3)))
    (fun s _ t => { num := 2, tag := (s.opd32 t f.a).tag }) false) ∧
  (∀ k : BitVec 4, traps (.wbase k) (fun _ e t => decide (e.c.span t ≤ 32 * k.toNat)) (fun _ _ _ => { num := 2 }) false) ∧
  (∀ f : FTwo, traps (.inject f) (fun _ e t => e.names t [⟨f.r.toNat, 1, 1⟩, ⟨f.q.toNat, 1, 1⟩] && !e.c.finj)
    (fun s _ t => { num := 6, tag := (s.opd32 t f.r).tag }) false) ∧
  traps .eret (fun _ _ t => t.handler.isNone) (fun _ _ _ => { num := 1, cause := 5 }) false ∧
  (∀ f : FMem, wellFormed (.ld f) = true → f.sp = 0 → ∀ s e u t, s.port e = true → s.active e = [u] → (s.begin e).thread? u = some t →
    e.names t (memArgs f).ldChk.uses = true →
    let w := widthOf f.w.toNat
    let v : VReg := BitVec.ofNat 7 (2 * f.p.toNat)
    let a := ((s.begin e).w64 t v).toNat + f.off.toNat * w
    let tr : Trap := { num := 7, cause := if a % w = 0 then 3 else 1, addr := a % 2 ^ 64, tag := ((s.begin e).opd64 t v).tag, key := a / 2 ^ 56 % 16 }
    a % w ≠ 0 ∨ a / 2 ^ 60 % 16 ≠ 0 ∨ a / 2 ^ 48 % 256 ≠ 0 → (s.begin e).mayTrap e u t tr = true →
    ∃ s', exec (.ld f) s = .next s' ∧ s'.standsAt u (trapStand (s.begin e) e u t tr (e.w.pc, e.w.slot)) ∧ s'.regs = s.regs ∧ s'.loads = s.loads ∧
      s'.mem = ((s.begin e).faultRecord (e.issuer u t) tr (2 ^ t.lane) t.held.isSome false).1.mem)

/-! ## Control -/

/-- R341, R345, R344, R347, R311, R291, R419, R197: BRA goes to its clause in the lanes whose predicate holds, the others pass;
CALL, BRX and CALLX go to theirs in every lane, the calls with the link in v124:v125; RET goes to the clause its link names,
and a return to the clause after a refused forkable call trains the return predictor. A target that is an unresolved stub takes
lazy-binding; an indirect one that is not a clause's takes misaligned-target, and the fork token outside a forked callee fork-return, each
with the target's eartag (R77, R232; log entry 87). -/
def Obligations.BranchesCallsReturns : Prop :=
  (∀ f : FBra, moves (.bra f) [] (fun s e _ => s.noStub e (e.target f.off.toInt)) noReg
    (fun _ e t => if t.pred f.p != f.neg then some (e.target f.off.toInt) else none)) ∧
  (∀ off : BitVec 26, moves (.call off) [⟨124, 2, 1⟩] (fun s e _ => s.noStub e (e.target off.toInt))
    (fun _ e _ => linkRegs e) (fun _ e _ => some (e.target off.toInt))) ∧
  (∀ a : VReg, moves (.brx a) [⟨a.toNat, 2, 2⟩]
    (fun s e t => !t.spec && s.noUse t [a.toNat, a.toNat + 1] && plainTarget (s.w64 t a).toNat && s.noStub e (s.w64 t a).toNat)
    noReg (fun s _ t => some (s.w64 t a).toNat)) ∧
  (∀ a : VReg, moves (.callx a) [⟨a.toNat, 2, 2⟩, ⟨124, 2, 1⟩]
    (fun s e t => !t.spec && s.noUse t [a.toNat, a.toNat + 1] && plainTarget (s.w64 t a).toNat && s.noStub e (s.w64 t a).toNat)
    (fun _ e _ => linkRegs e) (fun s _ t => some (s.w64 t a).toNat)) ∧
  departs .ret 1 [⟨124, 2, 1⟩]
    (fun s e _ t => !t.spec && plainTarget (s.w64 t 124).toNat && s.noStub e (s.w64 t 124).toNat &&
      !(t.retSite.any fun r => r.1 == (s.w64 t 124).toNat))
    (fun s _ _ _ => s) (fun s _ _ t => ⟨(s.w64 t 124).toNat, 0, .boundary, none⟩) ∧
  (∀ site : Nat, departs .ret 1 [⟨124, 2, 1⟩]
    (fun s e _ t => !t.spec && plainTarget (s.w64 t 124).toNat && s.noStub e (s.w64 t 124).toNat &&
      t.retSite == some ((s.w64 t 124).toNat, site))
    (fun s e u t => (s.train e.core e.crew.ctx site t.retTarget [s.reg t 0, s.reg t 1, s.reg t 2, s.reg t 3]).modThread u fun x => { x with retSite := none })
    (fun s _ _ t => ⟨(s.w64 t 124).toNat, 0, .boundary, none⟩)) ∧
  (∀ f : FBra, traps (.bra f) (fun s e t => t.pred f.p != f.neg && s.isStub e.core e.crew.ctx e.c (e.target f.off.toInt)) (fun _ _ _ => { num := 31 }) false) ∧
  (∀ off : BitVec 26, traps (.call off) (fun s e t => e.names t [⟨124, 2, 1⟩] && s.isStub e.core e.crew.ctx e.c (e.target off.toInt))
    (fun _ _ _ => { num := 31 }) false) ∧
  (∀ (i : Instr) (a : VReg) (uses : List Use),
    (i, uses) ∈ [(Instr.brx a, [⟨a.toNat, 2, 2⟩]), (.callx a, [⟨a.toNat, 2, 2⟩, ⟨124, 2, 1⟩]), (.callxF a, [⟨a.toNat, 2, 2⟩, ⟨124, 2, 1⟩])] →
    let ok := fun (s : State) (e : Env) (t : Thread) => e.names t uses && s.noUse t [a.toNat, a.toNat + 1]
    traps i (fun s e t => ok s e t && (s.w64 t a).toNat % 64 != 0) (fun s _ t => { num := 3, tag := (s.opd64 t a).tag }) false ∧
    traps i (fun s e t => ok s e t && (s.w64 t a).toNat == forkToken) (fun s _ t => { num := 30, tag := (s.opd64 t a).tag }) false ∧
    traps i (fun s e t => ok s e t && plainTarget (s.w64 t a).toNat && s.isStub e.core e.crew.ctx e.c (s.w64 t a).toNat)
      (fun s _ t => { num := 31, tag := (s.opd64 t a).tag }) false) ∧
  traps .ret (fun s e t => e.names t [⟨124, 2, 1⟩] && (s.w64 t 124).toNat % 64 != 0) (fun s _ t => { num := 3, tag := (s.opd64 t 124).tag }) false ∧
  traps .ret (fun s e t => e.names t [⟨124, 2, 1⟩] && (s.w64 t 124).toNat == forkToken && t.callee.isNone)
    (fun s _ t => { num := 30, tag := (s.opd64 t 124).tag }) false ∧
  traps .ret (fun s e t => e.names t [⟨124, 2, 1⟩] && plainTarget (s.w64 t 124).toNat && s.isStub e.core e.crew.ctx e.c (s.w64 t 124).toNat)
    (fun s _ t => { num := 31, tag := (s.opd64 t 124).tag }) false

/-- R192, R346, R347, R208: a forkable call that a condition refuses is an ordinary call and leaves the code in %spec; one
that none refuses takes a slot for its callee and waits. R200: before the instructions listed a continuation stops, at the slot,
until its fork resolves, with no other effect. -/
def Obligations.ForkableCalls : Prop :=
  (∀ i : Instr, stopsContinuation i = true → departs i 1 [] (fun _ _ _ t => t.spec) (fun s _ _ _ => s)
    (fun _ e _ _ => ⟨e.w.pc, e.w.slot, .boundary, some .resolution⟩)) ∧
  ∀ (i : Instr) (uses : List Use) (tgt : State → Env → Thread → Nat) (ok : State → Thread → Bool) (plain : Bool),
    ((∃ off : BitVec 26, i = .callf off ∧ uses = [⟨124, 2, 1⟩] ∧ (tgt = fun _ e _ => e.target off.toInt) ∧ (ok = fun _ _ => true) ∧ plain = true) ∨
     (∃ a : VReg, i = .callxF a ∧ uses = [⟨a.toNat, 2, 2⟩, ⟨124, 2, 1⟩] ∧ (tgt = fun s _ t => (s.w64 t a).toNat) ∧
      (ok = fun s t => !t.spec && s.noUse t [a.toNat, a.toNat + 1] && plainTarget (s.w64 t a).toNat) ∧ plain = false)) →
    departs i 1 uses (fun s e u t => ok s t && s.noStub e (tgt s e t) && s.forkCode e u t (tgt s e t) != 0)
      (fun s e u t => (s.modThread u fun x =>
        { x with refuse := s.forkCode e u t (tgt s e t), lastf := false, retSite := some ((e.w.pc + 64) % 2 ^ 64, e.ipc / 4), retTarget := tgt s e t }).setRegs t 124
          (pairRegs (BitVec.ofNat 64 ((e.w.pc + 64) % 2 ^ 64)) e.ownTag))
      (fun s e _ t => ⟨tgt s e t, 0, .boundary, none⟩) ∧
    ∀ (p : Pred) (lane slot rbase : Nat), departs i 1 uses
      (fun s e u t => ok s t && s.noStub e (tgt s e t) && s.forkCode e u t (tgt s e t) == 0 &&
        s.predFind e.core e.crew.ctx (e.ipc / 4) (tgt s e t) == some p && s.forkPlace e (e.ipc / 4) t.allot == some (lane, slot, rbase))
      (fun s e u t => (s.addThread { freshThread t.crew t.role (2048 + 512 * e.quad + 32 * slot + lane) e.core e.quad lane slot rbase t.allot t.anom (tgt s e t) with
        callee := some u, forkSite := (e.ipc / 4, tgt s e t), status := .reserved }).1)
      (fun s e _ t => ⟨e.w.pc, e.w.slot, .forking s.nextUid (tgt s e t) (e.ipc / 4) (e.predict t p plain) e.ownTag, none⟩)

/-- R365, R183: EXIT ends a thread that is not the last of its crew: it is gone, or with stores in its FIFO it stays as
draining; it is in no warp, and no register, memory byte or scratchpad byte changes. -/
def Obligations.ThreadExit : Prop :=
  ∀ s e u t v tv, s.port e = true → s.active e = [u] → (s.begin e).thread? u = some t → t.spec = false → t.callee = none →
    t.region = none → v ≠ u → (s.begin e).thread? v = some tv → tv.crew = t.crew → tv.status ≠ .draining →
    ∃ s', exec .exit s = .next s' ∧
      (if t.fifo = [] then s'.thread? u = none else ∃ t', s'.thread? u = some t' ∧ t'.status = .draining ∧ t'.fifo = t.fifo) ∧
      (∀ w, SMap.get? s'.warps e.wk = some w → u ∉ w.members) ∧ s'.regs = s.regs ∧ s'.mem = s.mem ∧ s'.scr = s.scr ∧ s'.scrTag = s.scrTag

/-- R236, R363, R364: ERET restores the registers, predicates and window base of the save block and resumes at RPC. -/
def Obligations.HandlerReturn : Prop :=
  ∀ (rs : List Reg) (rpc pred wb : Nat), departs .eret 1 []
    (fun s e _ t => t.handler.isSome && s.saveBlock e.c t == some (rs, rpc, pred, wb) && s.resumable e.c t rpc wb)
    (fun s _ u t => (s.wrs t 0 rs).modThread u fun x => { x with handler := none, block := 0, wbase := wb, preds := BitVec.ofNat 7 pred })
    (fun _ _ _ _ => ⟨rpc / 64 * 64, (rpc % 64 - 8) / 4, .boundary, none⟩)

/-- R440, R239, R417, R418: YIELD goes on in a handler and while no pre-emption is requested, else it stops at the next
instruction once its release is over; REGB opens a region with a checkpoint at its slot; REGE moves the region's stores
to the store FIFO and closes it. R383, R338, R286, R287: IPREF fills the instruction cache with the clause it names, once for the
group, and changes nothing when the fetch would fault; BBC adds the number of its lanes to its block's counter in the core's
counter cache, and ignores a block number at or above NBLOCK. -/
def Obligations.YieldRegionsPrefetchCount : Prop :=
  effects .yield 1 [] (fun _ e _ t => !t.spec && (t.handler.isSome || !e.crew.req))
    (fun s _ u t => if t.handler.isSome then s else s.modThread u fun x => { x with wdogHit := false }) ∧
  departs .yield 1 [] (fun s e u t => !t.spec && t.handler.isNone && e.crew.req && !(s.writesOwed u fun _ => true) && s.released u t 4)
    (fun s _ u _ => s.modThread u fun x => { x with wdogHit := false })
    (fun _ e _ _ => ⟨(e.nextAt 1).1, (e.nextAt 1).2, .boundary, some .yield⟩) ∧
  effects .regb 1 [] (fun _ _ _ t => !t.spec && t.region.isNone)
    (fun s e u t => s.modThread u fun x => { x with region := some ⟨s.checkpoint t, e.w.pc, e.w.slot, ⟨[], []⟩⟩ }) ∧
  effects .rege 1 [] (fun _ _ _ t => t.region.any fun r => r.pend.blocks.isEmpty)
    (fun s _ u t =>
      (((s.pailAll t).filter fun p => p.uid == u && p.level == 0).foldl (fun s p => s.pushStore u (p.toStore t.core))
        (s.setPail t ((s.pailAll t).filter fun p => !(p.uid == u && p.level == 0)))).modThread u fun x => { x with region := none }) ∧
  (∀ (off : BitVec 23) (s : State) (e : Env), s.port e = true → s.active e ≠ [] →
    ∃ s', exec (.ipref off) s = .next s' ∧ s'.still = ((s.begin e).prefetch e (e.target off.toInt)).still ∧ s'.passed e 1) ∧
  (∀ (n : BitVec 23) (s : State) (e : Env) (m : Module), s.port e = true → s.active e ≠ [] →
    (s.lanesAll e fun t => !t.pends) = true → (e.c.modules.find? fun m => decide (m.code ≤ e.ipc) && decide (e.ipc < m.code + m.len)) = some m →
    ∃ s', exec (.bbc n) s = .next s' ∧ s'.passed e 1 ∧
      s'.still = (if n.toNat < m.nblock then (s.begin e).bbcAdd e.core e.crew.ctx (m.bcbase + 8 * n.toNat) (s.active e).length else s.begin e).still)

/-! ## Forks -/

/-- R194, R208: a fork starts when its home thread's stores have drained and no load is due to the registers it copies: the
callee stands at the target with v0 to v7, v120:v121 and the fork token, its other registers 0; the home thread goes on at
the return clause with the predicted values and one more open level. -/
def Obligations.ForkStarts : Prop :=
  ∀ (s : State) (u callee target site : Nat) (pred : List Reg) (link : Tag) (t c : Thread),
    s.thread? u = some t → t.status = .forking callee target site pred link → t.fifo = [] → pred.length = 4 → callee ≠ u →
    (s.writesDue u fun a => ([0, 1, 2, 3, 4, 5, 6, 7, 120, 121, 124, 125].map (t.wbase + ·)).contains a) = false →
    s.thread? callee = some c → c.core = t.core → c.quad = t.quad → c.lane < 32 → t.lane < 32 → c.rbase + c.allot ≤ 2048 →
    t.rbase + t.allot ≤ 2048 → t.wbase + 4 ≤ t.allot →
    (c.lane ≠ t.lane ∨ c.rbase + c.allot ≤ t.rbase ∨ t.rbase + t.allot ≤ c.rbase) →
    ∃ s' t' c', exec (.forkStart u) s = .next s' ∧ s'.thread? u = some t' ∧ s'.thread? callee = some c' ∧
      c'.status = .boundary ∧ c'.pc = target ∧ c'.inherited = t.depth ∧ c'.nest = t.nest + 1 ∧
      (∀ i, i < c.allot → s'.rd c i =
        ([s.reg t 0, s.reg t 1, s.reg t 2, s.reg t 3, s.reg t 4, s.reg t 5, s.reg t 6, s.reg t 7] ++ List.replicate 112 Reg.zero ++
          [s.reg t 120, s.reg t 121, Reg.zero, Reg.zero, ⟨0xFFFFFFC0, link⟩, ⟨0xFFFFFFFF, link⟩]).getD i Reg.zero) ∧
      t'.status = .boundary ∧ t'.pc = (t.pc + 64) % 2 ^ 64 ∧ t'.at_ = 0 ∧ t'.lastf = true ∧ t'.refuse = 0 ∧
      t'.levels.length = t.levels.length + 1 ∧ (t'.levels.head?.map fun l => (l.callee, l.retPc, l.pred, l.conflict)) =
        some (callee, (t.pc + 64) % 2 ^ 64, pred, false) ∧
      (∀ i, i < 4 → s'.reg t i = pred.getD i Reg.zero)

/-- R195, R202, R205: a callee that returns to the fork token ends; when it returned what was predicted and no access
conflicted its fork commits, else the home thread is set back to the fork's checkpoint, receives v0 to v3 and stands at
the return clause. The fork here is the home thread's only one and holds no stores, hits or counts. -/
def Obligations.ForkResolution : Prop :=
  ∀ s e u t home h l, s.port e = true → s.active e = [u] → (s.begin e).thread? u = some t → e.names t [⟨124, 2, 1⟩] = true →
    t.spec = false → t.region = none → t.fifo = [] → t.callee = some home → ((s.begin e).pair t 124).1 = 0xFFFFFFFFFFFFFFC0#64 →
    (s.begin e).thread? home = some h → h.levels = [l] → l.callee = u → l.hits = [] → l.pend = ⟨[], []⟩ → (s.begin e).pailAll h = [] →
    (h.status = .boundary ∨ h.status = .inWarp) → h.held = none → l.check.wbase + 4 ≤ h.allot →
    let rs := [(s.begin e).reg t 0, (s.begin e).reg t 1, (s.begin e).reg t 2, (s.begin e).reg t 3]
    (rs = l.pred → l.conflict = false → ∃ s' h', exec .ret s = .next s' ∧ s'.thread? u = none ∧ s'.thread? home = some h' ∧ h'.levels = []) ∧
    ((rs ≠ l.pred ∨ l.conflict = true) → (s.loads.any fun x => x.2.uid == home && decide (l.check.mark ≤ x.1)) = false →
      ∃ s' h', exec .ret s = .next s' ∧ s'.thread? u = none ∧ s'.thread? home = some h' ∧ h'.levels = [] ∧ h'.pc = l.retPc ∧ h'.at_ = 0 ∧
        h'.status = .boundary ∧ h'.preds = l.check.preds ∧ h'.wbase = l.check.wbase ∧ h'.lastf = true ∧ h'.refuse = 0 ∧
        ∀ i, i < 4 → s'.reg h' i = rs.getD i Reg.zero)

/-! ## Memory -/

/-- R385, R386, R388, R389, R317, R318: LD, LD.strong and LDG complete with a load for each active lane between its issue
and its read step, all pieces of one operation that holds the flag; no register changes yet. -/
def Obligations.LoadsIssue : Prop :=
  (∀ f : FMem, wellFormed (.ld f) = true → effectsOp (.ld f) f.f (memArgs f).ldChk.uses (loadStarts (memArgs f)) (loadOut (memArgs f))) ∧
  (∀ f : FStrong, wellFormed (.ldStrong f) = true →
    effectsOp (.ldStrong f) f.f (strongArgs f).ldChk.uses (loadStarts (strongArgs f)) (loadOut (strongArgs f))) ∧
  (∀ f : FGather, wellFormed (.ldg f) = true →
    effectsOp (.ldg f) f.f (gatherArgs f).ldChk.uses (loadStarts (gatherArgs f)) (loadOut (gatherArgs f)))

/-- R163, R386, R387, R82: the read step of a thread's oldest load writes its registers, little-endian from the granule the
search finds, each with the granule's eartag; no other register and no byte of memory changes, and the load is over. -/
def Obligations.LoadsReturn : Prop :=
  ∀ (s : State) (i : Nat) (x : Load) (t : Thread),
    SMap.get? s.loads i = some x → s.thread? x.uid = some t → (s.loads.any fun y => y.2.uid == x.uid && decide (y.1 < i)) = false →
    s.busyLine x.loc = none → (∀ c o, x.loc ≠ .win c o) →
    let g := (s.view x.uid t x.loc x.tagAddr x.ptag x.gather x.wide).1
    let bs := (g.bytes.drop x.loc.inGran).take x.width
    ∃ s', exec (.loadReturn i) s = .next s' ∧ SMap.get? s'.loads i = none ∧ s'.mem = s.mem ∧ s'.scr = s.scr ∧ s'.scrTag = s.scrTag ∧
      (∀ j, j < x.regs → s'.rd t (x.dst + j) = ⟨BitVec.ofNat 32 (ofBytes ((bs.drop (4 * j)).take 4)), g.tw.extractLsb' 0 24⟩) ∧
      (∀ k, (∀ j, j < x.regs → k ≠ t.key (x.dst + j)) → SMap.getD s'.regs Reg.zero k = SMap.getD s.regs Reg.zero k)

/-- R427, R428, R160, R199, R417, R430: ST and ST.strong complete with each active lane's store at the tail of its thread's store
FIFO, or, in a speculative lane and in an open region, in its pail entry; STX with each active lane's write in the core's
gather queue, or on .s and .x in the store FIFO; no byte of memory changes yet. -/
def Obligations.StoresIssue : Prop :=
  (∀ (i : Instr) (m : MemArgs) (fb : Bool),
    ((∃ f : FMem, wellFormed (.st f) = true ∧ i = .st f ∧ m = memArgs f ∧ fb = f.f) ∨
     (∃ f : FStrong, wellFormed (.stStrong f) = true ∧ i = .stStrong f ∧ m = strongArgs f ∧ fb = f.f)) →
    effects i 1 m.ldChk.uses (fun s e u t => storeGoes m false s e u t && !t.spec && t.region.isNone) (storeOut m fb) ∧
    effects i 1 m.ldChk.uses (fun s e u t => storeGoes m false s e u t && (t.spec || t.region.isSome) && (storePail m s e u t).isSome)
      (fun s e u t => (storePail m s e u t).getD s)) ∧
  (∀ f : FGather, wellFormed (.stx f) = true →
    effectsOp (.stx f) f.f (gatherArgs f).ldChk.uses (fun s e u t => storeGoes (gatherArgs f) true s e u t && !t.spec && t.region.isNone)
      (scatterOut (gatherArgs f)))

/-- R160, R161, R170, R82: the oldest store of a FIFO enters its core point behind the others, and a store to the own scratchpad is
performed there; one of a STX waits for those of lower lanes on its granule; a global store leaves its core point for its die point, and a .x store is performed from it, when no older
entry to its granule and no marker holds it; a held one does not leave. -/
def Obligations.CorePointOrder : Prop :=
  (∀ (s : State) (u n : Nat) (rest : List Nat) (t : Thread) (x : Store), s.thread? u = some t → t.fifo = n :: rest →
    t.status ≠ .draining → SMap.get? s.stores n = some x →
    (s.lowerLane n x = true → exec (.storeFifoDrain u) s = .refused (.cannotOccur "STORE_FIFO_DRAIN")) ∧
    ((∀ b, x.loc ≠ .scr t.core b) → s.lowerLane n x = false → s.pailQuiet x = true → ∃ s' t', exec (.storeFifoDrain u) s = .next s' ∧ s.sameStorage s' ∧ s'.thread? u = some t' ∧ t'.fifo = rest ∧
      SMap.get? s'.stores n = some { x with seq := s.nextStore, core := t.core, pailed := false } ∧
      SMap.getD s'.corePoint [] t.core = SMap.getD s.corePoint [] t.core ++ [n] ∧
      ∀ a q, x.loc = .hbm a → q < 4 → a < 2 ^ 40 → SMap.get? s'.l1 (l1Key t.core q a) = none) ∧
    (∀ b, x.loc = .scr t.core b → s.lowerLane n x = false → s.pailQuiet x = true → s.crewed = true → performs (.storeFifoDrain u) s (s.modThread u fun t => { t with fifo := rest }) n x)) ∧
  (∀ (s : State) (core i n : Nat) (x : Store) (older : List Store), s.queued (SMap.getD s.corePoint [] core) i = some (n, x, older) →
    let q := SMap.getD s.corePoint [] core
    let held := older.any (fun y => y.blocks x) || markerBlocks (SMap.getD s.markers [] core) (s.storesOf q) x
    (held = true → exec (.corePointDrain core i) s = .refused (.cannotOccur "CORE_POINT_DRAIN")) ∧
    (held = false → x.loc.isScr = false → ∃ s', exec (.corePointDrain core i) s = .next s' ∧ s.sameStorage s' ∧
      SMap.getD s'.corePoint [] core = q.eraseIdx i ∧ SMap.getD s'.diePoint [] (dieOf core) = SMap.getD s.diePoint [] (dieOf core) ++ [n]) ∧
    (held = false → x.loc.isScr = true → (older.any fun y => y.loc.isScr && y.uid == x.uid && y.loc.place?.1 == x.loc.place?.1) = false → s.crewed = true →
      performs (.remoteStorePerform core i) s { s with corePoint := SMap.setD s.corePoint [] core (q.eraseIdx i) } n x))

/-- R161, R164, R171, R172, R430: a store leaves its die point for the device point, where it is performed or passes on to
the fabric point; accesses at the fabric point, scatter writes and copy landings are performed; each only when no older one
that must come first stands before it. -/
def Obligations.DevicePointOrder : Prop :=
  (∀ (s : State) (die i n : Nat) (x : Store) (older : List Store), s.queued (SMap.getD s.diePoint [] die) i = some (n, x, older) →
    let q := SMap.getD s.diePoint [] die
    let held := older.any (fun y => y.blocks x) || markerBlocks (SMap.getD s.markers [] x.core) ((s.storesOf q).filter fun y => y.core == x.core) x
    (held = true → exec (.diePointDrain die i) s = .refused (.cannotOccur "DIE_POINT_DRAIN")) ∧
    (held = false → x.loc.fabric = true → ∃ s', exec (.diePointDrain die i) s = .next s' ∧ s.sameStorage s' ∧
      s'.fabric = s.fabric ++ [n] ∧ SMap.getD s'.diePoint [] die = q.eraseIdx i) ∧
    (held = false → x.loc.fabric = false → s.crewed = true →
      performs (.diePointDrain die i) s { s with diePoint := SMap.setD s.diePoint [] die (q.eraseIdx i) } n x)) ∧
  (∀ (s : State) (i n : Nat) (x : Store) (older : List Store), s.queued s.fabric i = some (n, x, older) →
    (older.any fun y => y.samePage x) = false → s.crewed = true →
    performs (.fabricPointPerform i) s { s with fabric := s.fabric.eraseIdx i } n x) ∧
  (∀ (s : State) (core i n : Nat) (x : Store) (older : List Store), s.queued (SMap.getD s.gatherQ [] core) i = some (n, x, older) →
    (older.any fun y => y.op == x.op && y.loc.gran == x.loc.gran) = false → s.crewed = true → x.loc.fabric = false →
    performs (.gatherWritePerform core i) s { s with gatherQ := SMap.setD s.gatherQ [] core ((SMap.getD s.gatherQ [] core).eraseIdx i) } n x) ∧
  (∀ (s : State) (core i n : Nat) (x : Store) (older : List Store), s.queued (SMap.getD s.landing [] core) i = some (n, x, older) →
    (older.any fun y => y.seq == x.seq && y.meets x) = false → s.crewed = true → x.loc.fabric = false →
    performs (.copyGlobalPerform core i) s { s with landing := SMap.setD s.landing [] core ((SMap.getD s.landing [] core).eraseIdx i) } n x)

/-- R81, R82, R428: a store performed in HBM writes its bytes and the tag word of its granule, in one step, and no other byte;
one performed in a scratchpad writes its bytes and its granule's eartag. A whole granule replaces the eartag and clears POISON; a
part of one keeps an A-tagged eartag under one that is not. -/
def Obligations.StorePerformed : Prop :=
  ∀ (s : State) (x : Store) (bs : List Byte), x.color = none → x.half = false → x.data = bs.map some → bs ≠ [] →
    (∀ e ∈ s.ctxs, e.2.dirty = 0) →
    let keeps := fun (old : Tag) => if bs.length ≠ 16 ∧ x.tag.getLsbD 23 = false ∧ old.getLsbD 23 = true then old else x.tag
    (∀ a ta, x.loc = .hbm a → x.tagAddr = some ta → (ta + 4 ≤ a ∨ a + bs.length ≤ ta) →
      let s' := s.performStore x
      (∀ i, i < bs.length → SMap.getD s'.mem 0 (a + i) = bs.getD i 0) ∧
      twTag (s'.tagWord ta) = keeps (twTag (s.tagWord ta)) ∧ twColour (s'.tagWord ta) = twColour (s.tagWord ta) ∧
      twPoison (s'.tagWord ta) = (twPoison (s.tagWord ta) && bs.length != 16) ∧
      ∀ k, (k < a ∨ a + bs.length ≤ k) → (k < ta ∨ ta + 4 ≤ k) → SMap.getD s'.mem 0 k = SMap.getD s.mem 0 k) ∧
    (∀ a, x.loc = .hbm a → x.tagAddr = none →
      ∀ k, SMap.getD (s.performStore x).mem 0 k = if a ≤ k ∧ k < a + bs.length then bs.getD (k - a) 0 else SMap.getD s.mem 0 k) ∧
    (∀ c b, x.loc = .scr c b → ((s.crewAt c (b / 16 * 16)).any fun e => e.2.objs.contains (b / 16 * 16 - 128 * e.2.base)) = false →
      (∀ k, SMap.getD (s.performStore x).scr 0 k = if scrKey c b ≤ k ∧ k < scrKey c b + bs.length then bs.getD (k - scrKey c b) 0 else SMap.getD s.scr 0 k) ∧
      ∀ k, SMap.getD (s.performStore x).scrTag 0 k = if k = granKey c b then keeps (SMap.getD s.scrTag 0 k) else SMap.getD s.scrTag 0 k)

/-- R166, R186, R333 to R335, R414: ATOM and RED of one active lane apply their operation in one step at their place; ATOM gives
the old value. What each atomic operation makes of the value in memory and a lane's operand, on 32-bit and 64-bit integers. -/
def Obligations.Atomics : Prop :=
  (∀ (i : Instr) (m : AtomArgs),
    ((∃ f : FAtom, wellFormed (.atom f) = true ∧ i = .atom f ∧ m = atomArgs f) ∨ (∃ f : FRed, wellFormed (.red f) = true ∧ i = .red f ∧ m = redArgs f)) →
    ∀ s e u t s1 p, s.port e = true → s.active e = [u] → (s.begin e).thread? u = some t → e.names t m.chk.uses = true →
      atomApplies m (s.begin e) e u t = some (s1, p) →
      ∃ s', exec i s = .next s' ∧ s'.still = (atomDoes m (s.begin e) e u t s1 p).still ∧ s'.passed e 1) ∧
  (∀ (x y c : Word) (ty : Nat), ty = 0 ∨ ty = 1 →
    (atomStep 0 ty x.toNat y.toNat c.toNat).1 = (x + y).toNat ∧
    (atomStep 1 ty x.toNat y.toNat c.toNat).1 = (if (if ty = 0 then y.slt x else y.ult x) then y else x).toNat ∧
    (atomStep 2 ty x.toNat y.toNat c.toNat).1 = (if (if ty = 0 then x.slt y else x.ult y) then y else x).toNat ∧
    (atomStep 3 ty x.toNat y.toNat c.toNat).1 = (x &&& y).toNat ∧ (atomStep 4 ty x.toNat y.toNat c.toNat).1 = (x ||| y).toNat ∧
    (atomStep 5 ty x.toNat y.toNat c.toNat).1 = (x ^^^ y).toNat ∧ (atomStep 6 ty x.toNat y.toNat c.toNat).1 = y.toNat ∧
    (atomStep 7 ty x.toNat y.toNat c.toNat).1 = (if x = c then y else x).toNat) ∧
  (∀ (x y c : DWord) (ty : Nat), ty = 2 ∨ ty = 3 →
    (atomStep 0 ty x.toNat y.toNat c.toNat).1 = (x + y).toNat ∧
    (atomStep 1 ty x.toNat y.toNat c.toNat).1 = (if (if ty = 2 then y.slt x else y.ult x) then y else x).toNat ∧
    (atomStep 2 ty x.toNat y.toNat c.toNat).1 = (if (if ty = 2 then x.slt y else x.ult y) then y else x).toNat ∧
    (atomStep 6 ty x.toNat y.toNat c.toNat).1 = y.toNat ∧ (atomStep 7 ty x.toNat y.toNat c.toNat).1 = (if x = c then y else x).toNat)

/-- R167, R169, R174, R348, R372, R373, R410, R351: FENCE completes when its scope's waits are over and invalidates its quadrant's L1,
FENCEX when its path is idle; CCTL invalidates the L1; PREF fills the line it can read; COLOR enters its colour changes into
the store FIFO. -/
def Obligations.FencesAndLines : Prop :=
  (∀ scope : BitVec 3, effects (.fence scope) 1 [] (fun s _ u t => !t.spec && s.released u t scope.toNat) (fun s _ u _ => s.acquire u)) ∧
  (∀ x y : BitVec 3, effects (.fencex x y) 1 []
    (fun s _ _ t => !t.spec && !(x == 0 && !t.fifo.isEmpty) && !(s.pathBusy t x.toNat (s.pathMark x.toNat)) &&
      match t.wait with
      | some (.fence _) => false
      | _ => true)
    (fun s _ _ t => if y = 0 then s.dropL1 t.core t.quad else s)) ∧
  (∀ s e, s.port e = true → s.active e ≠ [] →
    ∃ s', exec .cctl s = .next s' ∧ s'.still = ((s.begin e).dropL1 e.core e.quad).still ∧ s'.passed e 1) ∧
  (∀ a : VReg, effects (.pref a) 1 [⟨a.toNat, 2, 2⟩] (fun _ _ _ _ => true) (fun s e _ t => s.prefLane e t (s.w64 t a).toNat)) ∧
  (∀ f : FColor, effectsOp (.color f) f.f [⟨f.d.toNat, 1, 1⟩, ⟨f.a.toNat, 2, 2⟩, ⟨f.b.toNat, 1, 1⟩]
    (fun s e u t => !t.spec && decide ((s.w32 t f.d).toNat < 16) && decide ((s.w32 t f.b).toNat ≤ 65536) && (s.w64 t f.a).toNat % 16 == 0 &&
      ptrOk (s.w64 t f.a).toNat && (colourOut f 0 s e u t).isSome)
    (fun op s e u t => (colourOut f op s e u t).getD s))

/-- R182, R399, R404: MONITOR arms on its granule; MWAIT goes on at once when nothing is armed or a write has come, and then
disarms, else it waits; its time runs out once. -/
def Obligations.Monitors : Prop :=
  (∀ f : FMonitor, let m : ObjArgs := ⟨2 * f.p.toNat, f.off.toNat, if f.s then 1 else 0⟩
    effects (.monitor f) 1 [⟨2 * f.p.toNat, 2, 1⟩] (fun s e _ t => !t.spec && (s.found e m.sp 1 1 (m.addr s t)).isSome)
      (fun s e u t => match s.found e m.sp 1 1 (m.addr s t) with
        | none => s
        | some (s1, p) => s1.modThread u fun x => { x with monitor := some (p.loc.canon.gran, false) })) ∧
  (∀ v : VReg, effects (.mwait v) 1 [⟨v.toNat, 1, 1⟩] (fun _ _ _ t => !t.spec && (t.monitor.map (·.2)) != some false)
    (fun s _ u t => if t.monitor.isNone then s else (s.modThread u fun x => { x with monitor := none }).acquire u)) ∧
  (∀ v : VReg, departs (.mwait v) 1 [⟨v.toNat, 1, 1⟩]
    (fun s _ _ t => !t.spec && (t.monitor.map (·.2)) == some false && !t.timedOut && s.w32 t v != 0)
    (fun s _ _ _ => s) (fun _ e _ _ => ⟨e.w.pc, e.w.slot, .boundary, some .monitor⟩)) ∧
  (∀ (s : State) (u : Nat) (t : Thread) (l : Loc), s.thread? u = some t → t.wait = some .monitor → t.timer = some 0 → t.timedOut = false →
    t.monitor = some (l, false) → exec (.mwaitTimeout u) s = .next (s.modThread u fun t => { t with timedOut := true }))

/-! ## Synchronisation -/

/-- R177 to R179, R181: a barrier object reads as it was written; an arrival takes one from the arrivals due or, with none
due, sets OVR; the phase completes when POSTED is 1, no arrival and no byte is due and neither OVR nor ERR is set: PHASE
rises, the arrivals due are EXPECTED again, and POSTED is 1 only on an arrivals-only object; fewer bytes than none set OVR; a
phase has passed n when PHASE - n, as a signed number, is above 0. -/
def Obligations.BarrierObjectRules : Prop :=
  (∀ (s : State) (c b : Nat) (x : Bar), x.phase < 2 ^ 32 → x.exp < 2 ^ 16 → x.arr < 2 ^ 16 → x.rest < 2 ^ 32 → -2 ^ 31 ≤ x.bytes → x.bytes < 2 ^ 31 →
    (s.putBar c b x).barAt c b = x) ∧
  (∀ x : Bar, x.arrive = if x.arr = 0 then { x with rest := x.rest ||| 2 } else { x with arr := x.arr - 1 }) ∧
  (∀ x : Bar, x.posted = true → x.ovr = false → x.err = false → x.arr = 0 → x.bytes = 0 → x.rest < 2 ^ 32 →
    x.test.phase = (x.phase + 1) % 2 ^ 32 ∧ x.test.arr = x.exp ∧ x.test.exp = x.exp ∧ x.test.bytes = 0 ∧ x.test.posted = x.arvonly) ∧
  (∀ x : Bar, x.posted = true → x.bytes < 0 → x.test = { x with rest := x.rest ||| 2 }) ∧
  (∀ x : Bar, (x.posted = false ∨ (0 ≤ x.bytes ∧ (x.ovr = true ∨ x.err = true ∨ x.arr ≠ 0 ∨ x.bytes ≠ 0))) → x.test = x) ∧
  (∀ p n : Word, phasePassed p.toNat n.toNat = (0#32).slt (p - n)) ∧
  (∀ (m : ObjArgs) (s : State) (e : Env) (t : Thread), m.sp = 1 →
    m.found s e t = if m.addr s t % 16 = 0 ∧ m.addr s t + 16 ≤ 128 * e.crew.lines then some (e.crew.core, 128 * e.crew.base + m.addr s t) else none)

/-- R179, R336, R337: BARINIT and BAREXP act once for the group, BARARV in each active lane after its release, each in one
step with the completion test; an arrival at an object with none due sets OVR and takes barrier-overrun. -/
def Obligations.BarrierOperations : Prop :=
  (∀ f : FBarInit, initStarts (.barinit f) 1 ⟨2 * f.p.toNat, f.off.toNat, 1⟩ f.arv f.n.toNat) ∧
  (∀ f : FBarInitL, initStarts (.barinitLong f) 2 ⟨2 * f.p.toNat, f.off.toNat, 1⟩ f.arv f.n.toNat) ∧
  (∀ f : FObjReg, let m : ObjArgs := ⟨2 * f.p.toNat, f.off.toNat, 1⟩
    onceEffects (.barexp f) 1 [⟨2 * f.p.toNat, 2, 1⟩, ⟨f.r.toNat, 1, 1⟩] (fun _ _ t => !t.spec)
      (fun s e u t => decide ((s.w32 t f.r).toNat ≤ 2 ^ 24) && s.scrQuiet u t &&
        (m.found s e t).any fun x => decide ((s.barAt x.1 x.2).bytes + (s.w32 t f.r).toNat < 2 ^ 31))
      (fun s e _ t _ => objStep m (fun x => ({ x with bytes := x.bytes + ((s.w32 t f.r).toNat : Int) } : Bar).setBit 0 true) s e t)) ∧
  (∀ f : FBarArv, let m : ObjArgs := ⟨2 * f.p.toNat, f.off.toNat, if f.x then 2 else 1⟩
    effects (.bararv f) 1 [⟨2 * f.p.toNat, 2, 1⟩]
      (fun s e u t => !t.spec && s.released u t (if f.x then 2 else 0) && (m.found s e t).any fun x => (s.barAt x.1 x.2).arr != 0)
      (fun s e u t => match m.found s e t with
        | none => s
        | some (c, b) =>
          let s1 := if f.x then (s.noteRemote e.crewId 2 (m.addr s t)).remoteArrival e.crew.launch (nfld (m.addr s t) 48 8) c b else s
          (s1.noteCame e.crewId c b u).stepBar c b Bar.arrive)) ∧
  (∀ f : FBarArv, let m : ObjArgs := ⟨2 * f.p.toNat, f.off.toNat, if f.x then 2 else 1⟩
    let after := fun (s : State) (e : Env) (t : Thread) => match m.found s e t with
      | none => s
      | some (c, b) =>
        (if f.x then (s.noteRemote e.crewId 2 (m.addr s t)).remoteArrival e.crew.launch (nfld (m.addr s t) 48 8) c b else s).stepBar c b Bar.arrive
    let tr := fun (s : State) (t : Thread) => ({ num := 19, cause := 1, addr := m.addr s t, tag := (s.pair t m.pv).2 } : Trap)
    departs (.bararv f) 1 [⟨2 * f.p.toNat, 2, 1⟩]
      (fun s e u t => !t.spec && s.released u t (if f.x then 2 else 0) && ((m.found s e t).any fun x => (s.barAt x.1 x.2).arr == 0) &&
        (after s e t).mayTrap e u t (tr s t))
      (fun s e u t => ((after s e t).faultRecord (e.issuer u t) (tr s t) (2 ^ t.lane) t.held.isSome false).1)
      (fun s e u t => trapStand (after s e t) e u t (tr s t) (e.nextAt 1)))

/-- R181, R434, R435: WAITP and TRYWAIT go on when their phase has passed; else, with OVR or ERR set, they take barrier-overrun or
barrier-error; else WAITP parks on the object, and TRYWAIT, with no hint or its hint run out, writes false, or parks; the hint runs
out once. -/
def Obligations.PhaseWaits : Prop :=
  (∀ f : FWait, waitsPhase (.waitp f) 1 ⟨2 * f.p.toNat, f.off.toNat, 1⟩ [] (fun _ _ => f.n.toNat)) ∧
  (∀ f : FObjReg, waitsPhase (.waitpReg f) 1 ⟨2 * f.p.toNat, f.off.toNat, 1⟩ [⟨f.r.toNat, 1, 1⟩] (fun s t => (s.w32 t f.r).toNat)) ∧
  (∀ f : FWaitL, waitsPhase (.waitpLong f) 2 ⟨2 * f.p.toNat, f.off.toNat, 1⟩ [] (fun _ _ => f.n.toNat)) ∧
  (∀ f : FTry, let m : ObjArgs := ⟨2 * f.p.toNat, f.off.toNat, 1⟩
    effects (.trywait f) 2 (tryUses f)
      (fun s e _ t => !t.spec && (m.found s e t).any fun x =>
        t.wait == some .woken || !t.failedWait && (phasePassed (s.barAt x.1 x.2).phase (tryPhase f s t) ||
          !(s.barAt x.1 x.2).ovr && !(s.barAt x.1 x.2).err && (t.timedOut || (s.w32 t f.h).extractLsb' 0 16 == 0#16)))
      (fun s e u t =>
        let passed := (m.found s e t).any fun x => t.wait == some .woken || phasePassed (s.barAt x.1 x.2).phase (tryPhase f s t)
        (if passed then s.acquire u else s).modThread u fun x => x.setPred f.pd passed) ∧
    (∀ c b, departs (.trywait f) 2 (tryUses f)
      (fun s e _ t => !t.spec && m.found s e t == some (c, b) && t.wait != some .woken && !t.failedWait && !(phasePassed (s.barAt c b).phase (tryPhase f s t)) &&
        !(s.barAt c b).ovr && !(s.barAt c b).err && !t.timedOut && (s.w32 t f.h).extractLsb' 0 16 != 0#16)
      (fun s _ _ _ => s) (fun s e _ t => ⟨e.w.pc, e.w.slot, .boundary, some (.phase (.scr c b) (tryPhase f s t))⟩)) ∧
    waitTraps (.trywait f) 2 m (tryUses f) (tryPhase f)) ∧
  (∀ (s : State) (u : Nat) (t : Thread) (l : Loc) (n : Nat), s.thread? u = some t → t.wait = some (.phase l n) → t.timer = some 0 → t.timedOut = false →
    exec (.trywaitTimeout u) s = .next (s.modThread u fun t => { t with timedOut := true }))

/-- R183, R358: CREWBAR arrives after its release and waits; the last of the crew's launched threads to arrive passes the
phase; a waiting lane whose phase has passed goes on with an acquire. R184, R376, R56: GBAR waits as CREWBAR does; with the last
arrival the crew's threads wait on the gang's object, and its one arrival is on its way; the arrival takes its step at the
object, and a crew whose phase has passed there goes on. -/
def Obligations.CrewAndGangBarriers : Prop :=
  departs .crewbar 1 [] (fun s e u t => s.mayArrive e u t 0 none)
    (fun s e u _ =>
      let c : Crew := if s.barFull e.crewId e.crew (s.rootHome 8 u) then { e.crew with barPhase := (e.crew.barPhase + 1) % 2 ^ 32, barArrived := [], barGang := none }
        else e.crew.arrived (s.rootHome 8 u) none
      { s with crews := SMap.put s.crews e.crewId c })
    (fun _ e _ _ => ⟨e.w.pc, e.w.slot, .boundary, some (.crewBar e.crew.barPhase)⟩) ∧
  effects .crewbar 1 [] (fun _ _ _ t => !t.spec && (t.wait == some .woken || match t.wait with
      | some (.crewBar _) => true
      | _ => false))
    (fun s _ u _ => (s.acquire u).modThread u fun x => { x with wdogHit := false }) ∧
  (∀ g : VReg,
    let ok := fun (s : State) (e : Env) (u : Nat) (t : Thread) =>
      decide ((s.w32 t g).toNat < 256) && (e.launch.gangs[(s.w32 t g).toNat]?).any (·.cores) && (e.crew.gangs.any fun k => k.entry == (s.w32 t g).toNat) &&
        s.mayArrive e u t 2 (some (s.w32 t g).toNat)
    departs (.gbar g) 1 [⟨g.toNat, 1, 1⟩] (fun s e u t => ok s e u t && !(s.barFull e.crewId e.crew (s.rootHome 8 u)))
      (fun s e u t => { s with crews := SMap.put s.crews e.crewId (e.crew.arrived (s.rootHome 8 u) (some (s.w32 t g).toNat)) })
      (fun _ e _ _ => ⟨e.w.pc, e.w.slot, .boundary, some (.crewBar e.crew.barPhase)⟩) ∧
    (∀ core b, departs (.gbar g) 1 [⟨g.toNat, 1, 1⟩]
      (fun s e u t => ok s e u t && s.barFull e.crewId e.crew (s.rootHome 8 u) && s.gangObj e.crew.launch (s.w32 t g).toNat == some (core, b))
      (fun s e _ t => { s with
        crews := SMap.put s.crews e.crewId { e.crew with
          barPhase := (e.crew.barPhase + 1) % 2 ^ 32, barArrived := [], barGang := none, gangWait := some ((s.w32 t g).toNat, (s.barAt core b).phase) }
        arrivals := SMap.put s.arrivals s.nextArrival ⟨e.crew.launch, (s.w32 t g).toNat, e.crewId, .scr core b⟩, nextArrival := s.nextArrival + 1 })
      (fun s e _ t => ⟨e.w.pc, e.w.slot, .boundary, some (.gang (s.w32 t g).toNat (s.barAt core b).phase)⟩)) ∧
    effects (.gbar g) 1 [⟨g.toNat, 1, 1⟩]
      (fun s e _ t => !t.spec && decide ((s.w32 t g).toNat < 256) && (e.launch.gangs[(s.w32 t g).toNat]?).any (·.cores) &&
        (e.crew.gangs.any fun k => k.entry == (s.w32 t g).toNat) && t.wait == some .woken)
      (fun s _ u _ => (s.acquire u).modThread u fun x => { x with wdogHit := false })) ∧
  (∀ (s : State) (i : Nat) (a : Arrival) (c : Crew) (core b : Nat), SMap.get? s.arrivals i = some a → a.loc = .scr core b →
    s.gangObj a.launch a.gang = some (core, b) →
    SMap.get? s.crews a.crew = some c → s.crewRemote a.crew c.core = false → s.crewed = true →
    ∃ s', exec (.gangArrival i) s = .next s' ∧ SMap.get? s'.arrivals i = none ∧ s'.barAt core b = (s.barAt core b).arrive.test ∧ s'.mem = s.mem ∧
      s'.regs = s.regs ∧ ∀ v tv n cr, s.thread? v = some tv → tv.wait = some (.gang a.gang n) → SMap.get? s.crews tv.crew = some cr → cr.launch = a.launch →
        cr.gangWait = some (a.gang, n) → phasePassed (s.barAt core b).arrive.test.phase n = true →
        ∃ tv', s'.thread? v = some tv' ∧ tv'.wait = some .woken)

/-- R43, R44, R394, R395: MEETARM arms a meet register of each active lane on a token; MEET of a disarmed register does
nothing; an armed one arrives and waits; the last arrival wakes the others and disarms; a woken lane goes on with an acquire. -/
def Obligations.Meets : Prop :=
  (∀ (token : BitVec 16) (m : BitVec 2), effects (.meetarm token m) 1 []
    (fun s _ u t => !t.spec && t.meets.getD m.toNat none == none && (s.meetArm u m.toNat token.toNat).isSome)
    (fun s _ u t => match SMap.get? s.crews t.crew with
      | none => s
      | some c =>
        let c1 : Crew := if c.meets.any fun x => x.token == token.toNat then c else { c with meets := c.meets ++ [⟨token.toNat, [], [], 0⟩] }
        ({ s with crews := SMap.put s.crews t.crew { c1 with meets := c1.meets.map fun x =>
          if x.token == token.toNat then { x with armed := if x.armed.contains u then x.armed else x.armed ++ [u] } else x } } : State).modThread u fun x =>
            { x with meets := x.meets.set m.toNat (some token.toNat) })) ∧
  (∀ m : BitVec 2, effects (.meet m) 1 [] (fun _ _ _ t => !t.spec && t.wait != some .woken && t.meets.getD m.toNat none == none) (fun s _ _ _ => s)) ∧
  (∀ m : BitVec 2, effects (.meet m) 1 [] (fun _ _ _ t => !t.spec && t.wait == some .woken)
    (fun s _ u _ => (s.acquire u).modThread u fun x => { x with wdogHit := false })) ∧
  (∀ (m : BitVec 2) (token : Nat), departs (.meet m) 1 []
    (fun s _ u t => !t.spec && t.wait != some .woken && t.meets.getD m.toNat none == some token && s.released u t 0)
    (fun s e u _ => (s.modMeet e.crewId token fun x => x.with_ u).meetTest e.crewId token)
    (fun s e u _ => ⟨e.w.pc, e.w.slot, .boundary, some (if s.meetPasses e.crewId u token then .woken else .meet token)⟩))

/-- R150, R433: TRIG adds to a trigger counter of its core, TRIGRST sets it, once for the group; armed copies whose threshold
is reached fire, and a reset that leaves copies armed on the counter is logged. -/
def Obligations.TriggerCounters : Prop :=
  ∀ (i : Instr) (c v : VReg) (reset : Bool), (i, reset) ∈ [(Instr.trig c v, false), (Instr.trigrst c v, true)] →
    onceEffects i 1 [⟨c.toNat, 1, 1⟩, ⟨v.toNat, 1, 1⟩] (fun _ _ t => !t.spec)
      (fun s e u t => decide ((s.w32 t c).toNat < 64) && s.trigOwn e.core (s.w32 t c).toNat e.crew.ctx && s.released u t 1)
      (fun s e u t _ =>
        let n := (s.w32 t c).toNat
        let old := s.trigVal e.core n
        let new := if reset then (s.w32 t v).toNat else (old + (s.w32 t v).toNat) % 2 ^ 32
        let r := s.setTrigger e.core n e.crew.ctx new
        if reset && ((SMap.getD r.1.armed [] e.core).any fun a => a.ctr == n && !a.due) then
          r.1.log e.crew.ctx 12 1 new (old * 2 ^ 32 + n * 256 + min r.2 255) (r.1.whereOf (e.issuer u t))
        else r.1)

/-! ## Asynchronous copies -/

/-- R144 to R148, R151, R152, R353 to R357, R420, R421: CPY and CPYCV hand a copy to an engine, CPYT the copy of its
descriptor, CPYA arms it on a trigger counter, RING sends its tile; CPY of no bytes does nothing. Each issues once for the
group and raises its flag. -/
def Obligations.CopiesIssue : Prop :=
  (∀ f : FCpy, copyIssues (.cpy f) 1 (cpyArgs f)) ∧ (∀ f : FCpyL, copyIssues (.cpyLong f) 3 (cpyLongArgs f)) ∧
  (∀ f : FCpyCv, copyIssues (.cpycv f) 3 (cpycvArgs f)) ∧
  (∀ f : FCpyT, let pv := 2 * f.p.toNat
    let off := 64 * f.off.toNat
    onceEffects (.cpyt f) 1 [⟨pv, 2, 1⟩] (engineLane 1 [pv, pv + 1])
      (fun s e u t => (s.descAt e u t pv off).any fun d => d.1.tensorLegal e u t pv off [] d.2.1 d.2.2 && d.1.engineTakes u t (e.tensorJob u t d.1.nextOp d.2.1))
      (fun s e u t group => match s.descAt e u t pv off with
        | none => s
        | some d =>
          let c := e.tensorJob u t d.1.nextOp d.2.1
          (d.1.named e c).copyOut e u group (e.flag f.f) c)) ∧
  (∀ f : FPairTwo, armIssues (.cpya f) 1 (2 * f.p.toNat) 0 f.r.toNat f.q.toNat) ∧
  (∀ f : FPairTwoL, armIssues (.cpyaLong f) 2 (2 * f.p.toNat) (64 * f.off.toNat) f.r.toNat f.q.toNat) ∧
  (∀ f : FPairTwo, ringIssues (.ring f) 1 (2 * f.p.toNat) 0 f.r.toNat f.q.toNat f.f) ∧
  (∀ f : FPairTwoL, ringIssues (.ringLong f) 2 (2 * f.p.toNat) (16 * f.off.toNat) f.r.toNat f.q.toNat f.f)

/-- R83, R144, R145, R149, R151, R152: a granule of a plain copy between scratchpad addresses lands with its source's bytes and
eartag and credits the barrier; a granule for memory joins the landing stage; a page that is not present holds the copy
until it is mapped; a complete copy leaves and adds 1 to its counter; a ring tile lands in its receiver's scratchpad. -/
def Obligations.CopiesLand : Prop :=
  (∀ (s : State) (i k n : Nat) (c : Copy) (cr : Crew) (l : Launch) (ctx : Context), SMap.get? s.copies i = some c → s.mayLand c k = true →
    c.kind = .plain n → c.dsp = 1 → c.ssp = 1 → c.dst % 16 = 0 → c.src % 16 = 0 →
    SMap.get? s.crews c.iss.crew = some cr → SMap.get? s.launches c.iss.launch = some l → SMap.get? s.ctxs c.iss.ctx = some ctx →
    let a := cr.phys (c.src + 16 * k)
    let b := cr.phys (c.dst + 16 * k)
    SMap.getD s.pend 0 (lineKey cr.core a) = 0 → (s.crews.all fun e => e.2.objs.isEmpty) = true → (c.bar.all fun o => cr.phys o % 16 == 0 && cr.phys o != b) = true →
    (s.watchHit c.iss.uid c.iss.crew c.iss.ctx true c.watched (c.accesses (c.unit k) [SMap.getD s.scrTag 0 (granKey cr.core a)])).isNone = true →
    i < s.nextCopy →
    ∃ s' c', exec (.copyLanding i k) s = .next s' ∧ s'.scrRead cr.core b 16 = s.scrRead cr.core a 16 ∧
      SMap.getD s'.scrTag 0 (granKey cr.core b) = SMap.getD s.scrTag 0 (granKey cr.core a) ∧
      SMap.get? s'.copies i = some c' ∧ c'.landed = k :: c.landed ∧ s'.mem = s.mem ∧ s'.regs = s.regs ∧
      (c.bar = none → ∀ m, (m < scrKey cr.core b ∨ scrKey cr.core b + 16 ≤ m) → SMap.getD s'.scr 0 m = SMap.getD s.scr 0 m) ∧
      ∀ o, c.bar = some o → -2 ^ 31 + 16 ≤ (s.barAt cr.core (cr.phys o)).bytes →
        s'.barAt cr.core (cr.phys o) = ({ s.barAt cr.core (cr.phys o) with bytes := (s.barAt cr.core (cr.phys o)).bytes - 16 } : Bar).test) ∧
  (∀ (s s1 : State) (i k : Nat) (c : Copy) (x : Landing), SMap.get? s.copies i = some c → s.mayLand c k = true → s.copyUnit c k = (s1, .land x) →
    x.p.loc.onChip = false → x.birth = none → i < s.nextCopy →
    (s.watchHit c.iss.uid c.iss.crew c.iss.ctx true c.watched (c.accesses (c.unit k) x.stags)).isNone = true →
    ∃ s' c' st, exec (.copyLanding i k) s = .next s' ∧ SMap.get? s'.copies i = some c' ∧ c'.landed = k :: c.landed ∧
      SMap.getD s'.landing [] c.iss.core = SMap.getD s.landing [] c.iss.core ++ [s.nextStore] ∧ SMap.get? s'.stores s.nextStore = some st ∧
      st.loc = x.p.loc ∧ st.data = x.data.map some ∧ st.tag = x.tag ∧ st.tagAddr = x.p.tagAddr) ∧
  (∀ (s s1 : State) (i k : Nat) (c : Copy), SMap.get? s.copies i = some c → s.mayLand c k = true → s.copyUnit c k = (s1, .absent) →
    (∀ j, j < k → c.landed.contains j = true) →
    exec (.copyLanding i k) s = .next { s1 with copies := SMap.put s1.copies i { c with held := some k } }) ∧
  (∀ (s s1 : State) (i k : Nat) (c : Copy) (x : Landing), SMap.get? s.copies i = some c → c.held = some k → s.copyUnit c k = (s1, .land x) →
    ((SMap.get? s.crews c.iss.crew).map (·.placed)) = some true →
    exec (.copyPageResume i) s = .next { s with copies := SMap.put s.copies i { c with held := none } }) ∧
  (∀ (s : State) (i : Nat) (c : Copy), SMap.get? s.copies i = some c → c.complete = true → s.crewed = true → i < s.nextCopy →
    ∃ s', exec (.copyComplete i) s = .next s' ∧ SMap.get? s'.copies i = none ∧ s'.mem = s.mem ∧ s'.scr = s.scr ∧ s'.regs = s.regs ∧
      (∀ o, SMap.get? s.ops c.op = some o → o.left ≤ 1 → SMap.get? s'.ops c.op = none) ∧ (c.ten = none → s'.triggers = s.triggers) ∧
      ∀ t, c.ten = some t → s'.trigVal c.iss.core t = (s.trigVal c.iss.core t + 1) % 2 ^ 32) ∧
  (∀ (s : State) (i crew : Nat) (x : Tile) (c : Crew) (w : RingWait), SMap.get? s.tiles i = some x →
    s.ringMember x.launch x.gang x.toPos = some (crew, c) → c.placed = true → s.ringWaitFor x = some w → s.crewed = true → x.bar = none →
    (s.crews.all fun e => e.2.objs.isEmpty) = true → x.off % 16 = 0 → (x.grans.all fun g => g.1.length == 16) = true →
    ∃ s', exec (.ringLanding i) s = .next s' ∧ SMap.get? s'.tiles i = none ∧ s'.ringWaits = s.ringWaits.erase w ∧
      (∀ o, SMap.get? s.ops w.op = some o → o.left ≤ 1 → SMap.get? s'.ops w.op = none) ∧
      ∀ j g, x.grans[j]? = some g → s'.scrRead c.core (c.phys (x.off + 16 * j)) 16 = g.1 ∧
        SMap.getD s'.scrTag 0 (granKey c.core (c.phys (x.off + 16 * j))) = g.2)

/-! ## The matrix engine -/

/-- R115, R116, R128, R132, R330, R331, R397: MMA (its lanes agreeing on a valid format word), ACCHK, ACCLD, ACCST, ACCZ and
INJECT.acc (with FINJ) join their core's matrix queue, once for the group, and hold their flag. -/
def Obligations.MatrixIssue : Prop :=
  (∀ f : FMma, let pv := 2 * f.p.toNat
    matrixIssues (.mma f) f.f [⟨pv, 2, 1⟩, ⟨f.r.toNat, 1, 1⟩] [pv, pv + 1]
      (fun s e _ t => matFmtOk (s.w32 t f.r) && (s.active e).all fun v => (s.thread? v).any fun x => s.w32 x f.r == s.w32 t f.r)
      (fun s _ _ t _ => .mma (s.w32 t f.r)) (fun s t => s.matAddr t pv f.off.toNat) ∧
    matrixIssues (.acchk f) f.f [⟨pv, 2, 1⟩, ⟨f.r.toNat, 1, 1⟩] [pv, pv + 1] anyLane
      (fun s _ _ _ group => .acchk (group.filterMap fun x => (s.thread? x).map fun th => (x, th.wbase + f.r.toNat)))
      (fun s t => s.matAddr t pv f.off.toNat)) ∧
  (∀ f : FAccLd, matrixIssues (.accld f) f.f [⟨2 * f.p.toNat, 2, 1⟩] [2 * f.p.toNat, 2 * f.p.toNat + 1] anyLane
    (fun _ _ _ _ _ => .accld f.tile.toNat) (fun s t => s.matAddr t (2 * f.p.toNat) f.off.toNat)) ∧
  (∀ f : FAccSt, matrixIssues (.accst f) f.f [⟨2 * f.p.toNat, 2, 1⟩] [2 * f.p.toNat, 2 * f.p.toNat + 1] anyLane
    (fun _ _ _ _ _ => .accst f.bf f.tile.toNat) (fun s t => s.matAddr t (2 * f.p.toNat) f.off.toNat)) ∧
  (∀ f : FAccZ, matrixIssues (.accz f) f.f [] [] anyLane (fun _ _ _ _ _ => .accz f.tile.toNat (f.n1.toNat + 1)) (fun _ _ => 0)) ∧
  (∀ f : FInjAcc, matrixIssues (.injectAcc f) f.f [⟨f.a.toNat, 1, 1⟩, ⟨f.b.toNat, 1, 1⟩] [] (fun _ e _ _ => e.c.finj)
    (fun s _ _ t _ => .inject f.tile.toNat (s.w32 t f.a).toNat (s.w32 t f.b).toNat ((s.opd32 t f.a).tag, (s.opd32 t f.b).tag)) (fun _ _ => 0))

/-- R119, R122, R128, R132, R331: the head of a matrix queue is checked once: an MMA or ACCHK that passes keeps the block and the vectors it read,
an accumulator move is ready when its image and tiles exist; an operation that fails a check leaves the queue with
a matrix-parameter record that names the check. -/
def Obligations.MatrixHead : Prop :=
  ∀ (s : State) (core : Nat) (m : MatOp) (rest : List MatOp) (c : Crew), s.headIs core m rest c → m.block = none →
    let block := s.scrRead core (c.phys m.addr) 128
    let x := m.env core c block
    let ready := fun (b : List Byte) => exec (.matrixOpHead core) s = .next { s with
      matQ := SMap.put s.matQ core ({ m with block := some b, head := (s.headCopy core c m b).1, headTag := (s.headCopy core c m b).2 } :: rest) }
    let aborts := fun (n : Nat) =>
      let r := (s.faultRecord m.iss { num := 15, cause := n, addr := m.addr } (2 ^ m.iss.lane) false true).1
      s.recorded r m.iss.ctx = true → s.crewed = true → s.engineWaits m.iss.uid = false → ∃ s', exec (.matrixOpHead core) s = .next s' ∧ SMap.getD s'.matQ [] core = rest ∧
        s'.mem = r.mem ∧ s'.regs = r.regs ∧ s'.acc = r.acc
    let image := fun (n : Nat) => m.addr % 16 = 0 ∧ m.addr < 2 ^ 19 ∧ m.addr + n ≤ 128 * c.lines
    let quiet := s.runsBusy core c [(m.addr, 128)] = false
    (∀ w, m.kind = .mma w → (image 128 → quiet → s.runsBusy core c x.headRuns = false → s.mmaFails x = none → ready block) ∧
      (image 128 → quiet → s.runsBusy core c x.headRuns = false → ∀ n, s.mmaFails x = some n → aborts n) ∧ (¬ image 128 → aborts 4)) ∧
    (∀ d, m.kind = .acchk d → (image 128 → quiet → acchkFails c x.b = none → ready block) ∧
      (image 128 → quiet → ∀ n, acchkFails c x.b = some n → aborts n) ∧ (¬ image 128 → aborts 4)) ∧
    (∀ t, m.kind = .accld t → (image 1024 → ready []) ∧ (¬ image 1024 → aborts 4)) ∧
    (∀ bf t, m.kind = .accst bf t → (image (if bf then 512 else 1024) → ready []) ∧ (¬ image (if bf then 512 else 1024) → aborts 4)) ∧
    (∀ t n, m.kind = .accz t n → (t + n ≤ 256 → ready []) ∧ (256 < t + n → aborts 3)) ∧
    (∀ t e b g, m.kind = .inject t e b g → (e ≤ 255 → b < 32 → ready []) ∧ ((255 < e ∨ 32 ≤ b) → aborts 9))

/-- R83, R110, R123, R126, R128, R130, R132: a checked operation completes: MMA writes every result element from its operands and the vectors its head read, ACCLD and ACCZ every
element of their tiles, ACCST the image, ACCHK its status word in every lane when no line fails, INJECT.acc flips one bit
with a birth of kind 7; its flag clears. -/
def Obligations.MatrixComplete : Prop :=
  ∀ (s : State) (core : Nat) (m : MatOp) (rest : List MatOp) (c : Crew) (b : List Byte), s.headIs core m rest c → m.block = some b →
    s.runsBusy core c (s.opRuns core c m b) = false → s.crewed = true → s.engineWaits m.iss.uid = false →
    let x := m.env core c b
    let leaves := headLeaves (.matrixOpComplete core) s core m rest
    let s0 := s.atHead m
    (∀ w, m.kind = .mma w → x.b.n % 16 = 0 →
      (∀ i j, i < x.b.m → j < x.b.n → fF32.birthKind (x.value s0 i j) ((x.parts s0 i j).map (·.1)) = 0) →
      leaves fun s' => ∀ i j, i < x.b.m → j < x.b.n →
        SMap.getD s'.acc Reg.zero (x.elemKey i j) = ⟨BitVec.ofNat 32 (x.value s0 i j), firstA m.own ((x.parts s0 i j).map (·.2))⟩) ∧
    (∀ t, m.kind = .accld t → leaves fun s' => s'.scr = s.scr ∧ ∀ i, i < 256 → SMap.getD s'.acc Reg.zero (accKey core (t * 256 + i)) =
      ⟨BitVec.ofNat 32 (ofBytes (s.scrRead core (c.phys (m.addr + 4 * i)) 4)), SMap.getD s.scrTag 0 (granKey core (c.phys (m.addr + 4 * i)))⟩) ∧
    (∀ t n, m.kind = .accz t n → leaves fun s' => s'.scr = s.scr ∧ ∀ k, SMap.getD s'.acc Reg.zero k =
      if accKey core (t * 256) ≤ k ∧ k < accKey core (t * 256) + 256 * n then ⟨0, m.own⟩ else SMap.getD s.acc Reg.zero k) ∧
    (∀ t, m.kind = .accst false t → m.addr % 16 = 0 → (s.crews.all fun e => e.2.objs.isEmpty) = true →
      leaves fun s' => s'.acc = s.acc ∧ ∀ g, g < 64 →
        s'.scrRead core (c.phys (m.addr + 16 * g)) 16 =
          (List.range 4).flatMap (fun j => toBytes 4 (SMap.getD s.acc Reg.zero (accKey core (t * 256 + 4 * g + j))).val.toNat) ∧
        SMap.getD s'.scrTag 0 (granKey core (c.phys (m.addr + 16 * g))) =
          let gs := (List.range 4).map fun j => (SMap.getD s.acc Reg.zero (accKey core (t * 256 + 4 * g + j))).tag
          firstA (gs.headD 0) gs) ∧
    (∀ d, m.kind = .acchk d → failing (s.ckLines x).1 = [] → failing (s.ckLines x).2 = [] →
      ∃ s', exec (.matrixOpComplete core) s = .next s' ∧ SMap.getD s'.matQ [] core = rest ∧ s'.mem = s.mem ∧ s'.acc = s.acc ∧ s'.scr = s.scr ∧
        ∀ u r t, d = [(u, r)] → s.thread? u = some t → t.status ≠ .draining → s'.rd t r = ⟨0, m.own⟩) ∧
    (∀ t e v g, m.kind = .inject t e v g →
      let old := SMap.getD s.acc Reg.zero (accKey core (t * 256 + e))
      let new : Word := old.val ^^^ BitVec.ofNat 32 (2 ^ v)
      let born := s.birth m.iss 7 { va := old.val, vb := BitVec.ofNat 32 v, vc := new, ta := old.tag, tb := g.2 } true false
      s.recorded born.1 m.iss.ctx = true →
      ∃ s', exec (.matrixOpComplete core) s = .next s' ∧ SMap.getD s'.matQ [] core = rest ∧ s'.mem = born.1.mem ∧ s'.regs = born.1.regs ∧
        ∀ k, SMap.getD s'.acc Reg.zero k = if k = accKey core (t * 256 + e) then ⟨new, born.2⟩ else SMap.getD born.1.acc Reg.zero k)

/-! ## Collectives -/

/-- R212, R214, R215, R217, R350, R352: COLPOST posts an entry, or writes the reason of its refusal to vD of every lane, 2 for a
descriptor that is not aligned to 64 bytes; COLFIRE fires a chunk of a live collective; a chunk fired before is logged and nothing else. -/
def Obligations.CollectivesIssue : Prop :=
  (∀ (f : FCol) (reason : Nat), onceEffects (.colpost f) 1 [⟨f.r.toNat, 1, 1⟩, ⟨f.q.toNat, 2, 2⟩] (fun _ _ t => !t.spec)
    (fun s e u t => s.postReads e u t f.q fun d s1 => match s1.postCheck e.crew.ctx d (e.issuer u t) false with
      | .error r => r == reason
      | .ok _ => false)
    (fun s e u t group => match s.descAt e u t f.q.toNat 0 with
      | none => s
      | some d => group.foldl (fun (s : State) u => match s.thread? u with
        | none => s
        | some t => s.setReg t f.r.toNat ⟨BitVec.ofNat 32 (2 * 2 ^ 30 + reason * 2 ^ 16), e.ownTag⟩) d.1)) ∧
  (∀ f : FCol, onceEffects (.colpost f) 1 [⟨f.r.toNat, 1, 1⟩, ⟨f.q.toNat, 2, 2⟩] (fun _ _ t => !t.spec)
    (fun s e u t => s.postReads e u t f.q fun d s1 => match s1.postCheck e.crew.ctx d (e.issuer u t) false with
      | .error _ => false
      | .ok _ => true)
    (fun s e u t group => match s.descAt e u t f.q.toNat 0 with
      | none => s
      | some d => match d.1.postCheck e.crew.ctx (parseCol d.2.1) (e.issuer u t) false with
        | .error _ => s
        | .ok p => d.1.acceptPost p (parseCol d.2.1).fireall f.r.toNat (e.flag f.f) group)) ∧
  (∀ f : FCol, onceEffects (.colpost f) 1 [⟨f.r.toNat, 1, 1⟩, ⟨f.q.toNat, 2, 2⟩] (fun _ _ t => !t.spec)
    (fun s _ u t => s.released u t 4 && (s.w64 t f.q).toNat % 64 != 0)
    (fun s e _ _ group => group.foldl (fun (s : State) u => match s.thread? u with
      | none => s
      | some t => s.setReg t f.r.toNat ⟨BitVec.ofNat 32 (2 * 2 ^ 30 + 2 * 2 ^ 16), e.ownTag⟩) s)) ∧
  (∀ f : FCol, onceEffects (.colfire f) 1 [⟨f.r.toNat, 1, 1⟩, ⟨f.q.toNat, 1, 1⟩] (fun _ _ t => !t.spec)
    (fun s e u t => s.released u t 4 && (s.colEntry e.crew.ctx (s.w32 t f.r).toNat).any fun x => decide ((s.w32 t f.q).toNat < x.2.chunks))
    (fun s e u t group => match s.colEntry e.crew.ctx (s.w32 t f.r).toNat with
      | none => s
      | some (i, p) =>
        if p.fired.contains (s.w32 t f.q).toNat then
          s.log e.crew.ctx 8 1 0 ((s.w32 t f.r).toNat * 2 ^ 32 + (s.w32 t f.q).toNat) (s.whereOf (e.issuer u t))
        else (s.newOp group (e.flag f.f) 1).1.fireChunk i (s.w32 t f.q).toNat (some s.nextOp)))

/-- R218, R220, R229: the parlour's messages: a post is noted by the coordinator, a ticket makes its entry Held, the lowest held
ticket whose demand is free starts and sends READY, the last READY sends GO to every other member, GO makes an entry Running,
a withdrawal is acknowledged and its entry is Held again; the fabric clock of each receipt. R211, R259, R266: a communicator that
every member accepts exists, its routes over the physical ports behind the partition's (the width of a route's far links, 4
before any training tells another, is log entry 59's DESIGN CHOICE). -/
def Obligations.ParlourSteps : Prop :=
  (∀ (s : State) (clock ctx cid rank : Nat) (fields : List Nat) (cx : Context) (cm : Comm), SMap.get? s.ctxs ctx = some cx →
    SMap.get? cx.comms (fields.getD 0 0) = some cm → coordinator cm.members = s.chip.dev → rank < cm.members.length →
    cm.members.getD rank s.chip.dev ≠ s.chip.dev → fields.length = 7 →
    let old := ((s.coordOf ctx cid).map (·.2.posts)).getD []
    (∀ k c, s.coordOf ctx cid = some (k, c) → c.members = cm.members) → (old.any fun p => p.1 == rank) = false → old.length + 1 < cm.members.length →
    ∃ s' k c, exec (.parlourPost clock ctx cid rank fields) s = .next s' ∧ s'.chip.clock = s.heard clock ∧ s'.coordOf ctx cid = some (k, c) ∧
      c.posts = old ++ [(rank, fields)] ∧ s'.outbox = s.outbox) ∧
  (∀ (s : State) (i value clock : Nat) (p : Posted), SMap.get? s.posted i = some p → p.state = .posted → coordinator p.members ≠ s.chip.dev →
    value % 65536 = coordinator p.members → s.noneStarted = true →
    ∃ s', exec (.ticket i value clock) s = .next s' ∧ SMap.get? s'.posted i = some { p with state := .held, ticket := some value } ∧
      s'.chip.clock = s.heard clock ∧ s'.outbox = s.outbox) ∧
  (∀ (s : State) (i : Nat) (p : Posted), (i, p) ∈ s.posted → p.state = .held → (∀ e ∈ s.posted, e.2.state = .held → e = (i, p) ∨ p.ticket.getD 0 < e.2.ticket.getD 0) →
    s.demandFree p (s.dstStacks p) = true → coordinator p.members ≠ s.chip.dev → s.noneStarted = true →
    ∃ s', exec (.collectiveStart i) s = .next s' ∧ SMap.get? s'.posted i = some { p with state := .started, onStacks := s.dstStacks p } ∧
      s'.chip.clock = (s.chip.clock + 1) % 2 ^ 48 ∧ s'.outbox = s.outbox ++ [⟨(s.chip.clock + 1) % 2 ^ 48, coordinator p.members, 2, p.cid, [p.rank]⟩]) ∧
  (∀ (s : State) (ctx cid rank clock k : Nat) (c : Coord), s.coordOf ctx cid = some (k, c) → c.ticket.isSome = true → rank < c.members.length →
    c.members.getD rank s.chip.dev ≠ s.chip.dev → c.readys.contains rank = false →
    (c.readys.length + 1 < c.members.length → ∃ s' k' c', exec (.ready ctx cid rank clock) s = .next s' ∧ s'.chip.clock = s.heard clock ∧
      s'.coordOf ctx cid = some (k', c') ∧ c'.readys = c.readys ++ [rank] ∧ s'.outbox = s.outbox) ∧
    (∀ i p, c.readys.length + 1 = c.members.length → s.colEntry ctx cid = some (i, p) → SMap.get? s.posted i = some p →
      p.state = .started ∨ p.state = .withdrawing →
      ∃ s' p', exec (.ready ctx cid rank clock) s = .next s' ∧ SMap.get? s'.posted i = some p' ∧ p'.state = .running ∧ SMap.get? s'.coords k = none ∧
        let others := c.members.filter (· != s.chip.dev)
        ((s'.outbox.drop s.outbox.length).take others.length).map (fun m => (m.dest, m.kind, m.cid)) = others.map fun d => (d, 3, cid))) ∧
  (∀ (s : State) (i clock : Nat) (p : Posted), SMap.get? s.posted i = some p → p.state = .started ∨ p.state = .withdrawing →
    coordinator p.members ≠ s.chip.dev →
    ∃ s' p', exec (.go i clock) s = .next s' ∧ SMap.get? s'.posted i = some p' ∧ p'.state = .running ∧ p'.weights = s.weightsOf p ∧
      (p.fired = [] → (s.weightsOf p).any (· != 0) = true → s'.chip.clock = s.heard clock)) ∧
  (∀ (s : State) (ctx cid rank clock k : Nat) (c : Coord), s.coordOf ctx cid = some (k, c) → c.readys.contains rank = true →
    c.members.getD rank s.chip.dev ≠ s.chip.dev → c.members.getD rank 0 ≠ s.chip.dev →
    ∃ s' k' c', exec (.withdraw ctx cid rank clock) s = .next s' ∧ s'.coordOf ctx cid = some (k', c') ∧ c'.readys = c.readys.filter (· != rank) ∧
      s'.outbox = s.outbox ++ [⟨(s.heard clock + 1) % 2 ^ 48, c.members.getD rank 0, 5, cid, []⟩]) ∧
  (∀ (s : State) (ctx cid rank clock : Nat), s.coordOf ctx cid = none →
    exec (.withdraw ctx cid rank clock) s = .next { s with chip := { s.chip with clock := s.heard clock } }) ∧
  (∀ (s : State) (i clock : Nat) (p : Posted), SMap.get? s.posted i = some p → p.state = .withdrawing → coordinator p.members ≠ s.chip.dev →
    s.noneStarted = true → ∃ s', exec (.withdrawAck i clock) s = .next s' ∧ s'.chip.clock = s.heard clock ∧
      SMap.get? s'.posted i = some { p with state := .held, onStacks := [] }) ∧
  (∀ (s : State) (ctx i k : Nat) (members : List Nat) (routes : List Route) (accepted : Bool) (c : Context) (p : Partition), s.serves = true →
    SMap.get? s.ctxs ctx = some c → s.partOf c = some (k, p) → c.ended = false → i < 64 → SMap.get? c.comms i = none →
    members.contains s.chip.dev = true →
    exec (.commCreate ctx i members routes accepted) s = .next (if commBad p.ports.length members routes || !accepted then { s with answer := [1] }
      else
        let comm : Comm := ⟨members, routes.map fun r => { r with ports := r.ports.map fun n => p.ports.getD n 0 }, List.replicate routes.length 4⟩
        { s with ctxs := SMap.put s.ctxs ctx { c with comms := SMap.put c.comms i comm }, answer := [0] }))

/-- R210, R28, R223 to R227, R172, R83: an incoming run is staged and a command queued at the base die of its destination's
stack (its staging address is log entry 78's DESIGN CHOICE), while that queue has room; a run that is its elements' whole result
joins the collective queue; the base die combines a command's term with what DST holds and writes it with its eartag; a landing is
then written; a chunk that holds every term completes with its status byte, and the last one ends the collective; a flit's CRC,
its eight retries and the training of a link. -/
def Obligations.CollectiveData : Prop :=
  (∀ (s : State) (i chunk elt ranks : Nat) (data : List Nat) (marks : List (Nat × Nat × Tag)) (p : Posted) (c : Context),
    SMap.get? s.posted i = some p → SMap.get? s.ctxs p.ctx = some c → p.state = .running → 2 ≤ p.members.length → SMap.get? p.status chunk = none →
    p.runOk chunk elt ranks data.length = true →
    let stack := (s.unitStacks c (p.dst + elt * p.esz) (p.dst + (elt + data.length) * p.esz)).getD 0 0
    let q := SMap.getD s.commands [] stack
    (p.runWhole chunk elt ranks = false → p.runFits chunk elt data.length = true →
      ((q.filter fun x => x.posted == i).length < 8 → q.length < 64 → ∀ h a, s.transDev c (p.dst + elt * p.esz) = .hit h → h.loc = .hbm a →
        exec (.receiveReduceArrive i chunk elt ranks data marks) s =
          .next { s with
            commands := SMap.put s.commands stack (q ++ [⟨i, p.ctx, a, Config.stagingAt s.nextStore, (data.length * p.esz + 31) / 32, p.rop, p.ty,
              chunk, p.ticket.getD 0, elt, ranks, data.map (· % 2 ^ (8 * p.esz)), marks⟩])
            nextStore := s.nextStore + 1 }) ∧
      (8 ≤ (q.filter fun x => x.posted == i).length ∨ 64 ≤ q.length →
        exec (.receiveReduceArrive i chunk elt ranks data marks) s = .refused (.cannotOccur "RECEIVE_REDUCE_ARRIVE"))) ∧
    (p.runWhole chunk elt ranks = true → (elt + data.length - 1) * p.esz / 16 = elt * p.esz / 16 →
      ∃ s', exec (.receiveReduceArrive i chunk elt ranks data marks) s = .next s' ∧ s'.mem = s.mem ∧ s'.commands = s.commands ∧
        (s'.colQ.any fun q => q.2.posted == i && q.2.ctx == p.ctx && q.2.va == (p.dst + 16 * (elt * p.esz / 16)) % 2 ^ 64) = true)) ∧
  (∀ (s : State) (stack v : Nat) (x : Command) (rest : List Command) (p : Posted) (c : Context) (h : Hit),
    SMap.getD s.commands [] stack = x :: rest → SMap.get? s.posted x.posted = some p → p.ctx = x.ctx → SMap.get? p.status x.chunk = none →
    x.data = [v] → x.marks = [] → SMap.get? s.ctxs p.ctx = some c →
    let g := x.elt * p.esz / 16
    let va := (p.dst + 16 * g) % 2 ^ 64
    s.transDev c va = .hit h → h.w = true → h.peerW = true → h.loc.isTable = false →
    let t := SMap.getD p.terms 0 x.elt
    let old := ofBytes (((s.readLoc h.loc 16).drop (x.elt * p.esz % 16)).take p.esz)
    let new := if t = 0 then v else (p.combine old v).1
    let data := (p.granElems g).flatMap fun e => if e = x.elt then (toBytes p.esz new).map some else List.replicate p.esz none
    ∃ s' p', exec (.baseDieReduce stack) s = .next s' ∧ SMap.getD s'.commands [] stack = rest ∧ SMap.get? s'.posted x.posted = some p' ∧
      SMap.get? p'.terms x.elt = some (t ||| x.ranks) ∧
      s'.mem = (({ s with commands := SMap.setD s.commands [] stack rest, posted := SMap.put s.posted x.posted p' } : State).performResult
        p.ctx va h data (p.granTag g)).mem) ∧
  (∀ (s : State) (cid va a ta : Nat) (h : Hit) (data : List (Option Byte)) (g : Tag), h.loc = .hbm a → h.tagAddr = some ta →
    twTag ((s.performResult cid va h data g).tagWord ta) = g) ∧
  (∀ (p : Posted) (m x : Word), p.ty = 2 → (p.combine m.toNat x.toNat).1 =
    if p.rop = 0 then (m + x).toNat else if p.rop = 1 then (if x.slt m then x else m).toNat else if p.rop = 2 then (if m.slt x then x else m).toNat
    else (p.combine m.toNat x.toNat).1) ∧
  (∀ (s : State) (i : Nat) (x : ColLand) (c : Context) (h : Hit), SMap.get? s.colQ i = some x → SMap.get? s.ctxs x.ctx = some c →
    s.transDev c x.va = .hit h → h.w = true → h.peerW = true → h.loc.isTable = false →
    exec (.collectiveLanding i) s = .next (({ s with colQ := SMap.del s.colQ i } : State).performResult x.ctx x.va h x.data x.tag)) ∧
  (∀ (s : State) (i chunk : Nat) (p : Posted), SMap.get? s.posted i = some p → p.settled = true → p.state = .running → chunk < p.chunks →
    p.written.contains chunk = false → SMap.get? p.status chunk = none → p.fired.contains chunk = true →
    ((p.elems chunk).isEmpty = true → ∀ r, r < p.members.length → r ≠ p.rank → (SMap.getD p.heard 0 chunk).testBit r = true) →
    (p.readsSrc chunk = true → p.srcRead.contains chunk = true) → (∀ e n, (e, n) ∈ p.needs chunk → SMap.getD p.terms 0 e &&& n = n) →
    (s.commands.any fun e => e.2.any fun x => x.posted == i && x.chunk == chunk) = false →
    let wrote := s.putRecord 0 0 true false p.ctx (p.res + 0x20 + chunk) 0 [[1]]
    wrote.live p.ctx = true → s.live p.ctx = true →
    (p.written.length + 1 < p.chunks → ∃ s', exec (.chunkComplete i chunk 1) s = .next s' ∧ s'.mem = wrote.mem ∧
      SMap.get? s'.posted i = some { p with status := SMap.put p.status chunk 1, written := p.written ++ [chunk] }) ∧
    (p.chunks ≤ p.written.length + 1 → s.noneStarted = true → s.crewed = true → ∃ s', exec (.chunkComplete i chunk 1) s = .next s' ∧
      SMap.get? s'.posted i = none ∧ ∀ u r t, p.dsts = [(u, r)] → (p.status.all fun e => e.2 == 1) = true → s.thread? u = some t →
        t.status ≠ .removed → s'.live p.ctx = true →
        s'.regs = ((wrote.landRegs u p.number r [⟨0, siteTag p.iss.site (p.iss.ord % 256)⟩]).putRecord 0 0 true false p.ctx p.res 0
          (grans 2 (({ p with status := SMap.put p.status chunk 1 } : Posted).record s.timebase))).regs)) ∧
  (∀ (s : State) (port : Nat), s.chip.width.getD port 0 ≠ 0 → s.chip.linkFailed.contains port = false →
    (∃ s', exec (.flitReceive port true) s = .next s' ∧ s'.chip.retriesOf port = 0 ∧ s'.chip.linkFailed = s.chip.linkFailed) ∧
    (s.chip.retriesOf port ≠ 8 → ∃ s', exec (.flitReceive port false) s = .next s' ∧ s'.chip.retriesOf port = s.chip.retriesOf port + 1 ∧
      s'.chip.linkFailed = s.chip.linkFailed) ∧
    (s.chip.retriesOf port = 8 → ∃ s', exec (.flitReceive port false) s = .next s' ∧ s'.chip.linkFailed.contains port = true)) ∧
  (∀ (s : State) (port width : Nat), port < 48 → width = 0 ∨ width = 2 ∨ width = 4 → s.chip.powered = true →
    ∃ s', exec (.linkTrain port width) s = .next s' ∧ s'.chip.linkFailed = s.chip.linkFailed.filter (· != port) ∧ s'.chip.retriesOf port = 0 ∧
      s'.chip.width = s.chip.width.set port width ∧ s'.mem = s.mem)

/-! ## Watchpoints, injection, spawning, graph records -/

/-- R93, R382, R437: WATCH installs a crew or context watchpoint from a descriptor of 32 bytes, .ctx in a privileged context;
INJECT flips one bit of a register with a birth of kind 7, in a context with FINJ. R64, R65, R83, R362: EMIT writes four registers
of each active lane as one record at the tail of its successor's queue, with the first A-tagged of their eartags, else vA's,
and the tail advances; a successor that takes no records discards it with a failure-log entry of type 4. -/
def Obligations.WatchInjectEmit : Prop :=
  (∀ f : FWatch,
    let at_ := fun (s : State) (t : Thread) => (s.w64 t f.a).toNat
    onceEffects (.watch f) 1 [⟨f.a.toNat, 2, 2⟩, ⟨f.b.toNat, 1, 1⟩] (fun _ _ t => !t.spec)
      (fun s e u t => (!f.ctx || e.c.priv) && decide ((s.w32 t f.b).toNat ≤ if f.ctx then 7 else 3) && at_ s t % 32 == 0 &&
        match s.readBlock e u t f.a.toNat 2 (at_ s t) with
        | (s1, .ok bs tags) => (parseWatch bs).2 && s1.unwatched e u t (blockAccess (at_ s t) tags)
        | _ => false)
      (fun s e u t _ => match s.readBlock e u t f.a.toNat 2 (at_ s t) with
        | (s1, .ok bs _) =>
          let s2 := s1.wokenAcquire u t
          if f.ctx then { s2 with ctxs := SMap.mod s2.ctxs e.crew.ctx fun c => { c with watch := c.watch.set (s.w32 t f.b).toNat (parseWatch bs).1 } }
          else { s2 with crews := SMap.mod s2.crews e.crewId fun c => { c with watch := c.watch.set (s.w32 t f.b).toNat (parseWatch bs).1 } }
        | _ => s)) ∧
  (∀ f : FTwo,
    let new := fun (s : State) (t : Thread) => s.w32 t f.r ^^^ BitVec.ofNat 32 (2 ^ (s.w32 t f.q).toNat)
    let o := fun (s : State) (t : Thread) => (⟨s.w32 t f.r, s.w32 t f.q, new s t, (s.opd32 t f.r).tag, (s.opd32 t f.q).tag, 0⟩ : BirthOps)
    effects (.inject f) 1 [⟨f.r.toNat, 1, 1⟩, ⟨f.q.toNat, 1, 1⟩]
      (fun s e u t => e.c.finj && decide ((s.w32 t f.q).toNat < 32) && s.mayBear e u t 7 (o s t))
      (fun s e u t => s.born e u t 7 (o s t) f.r.toNat fun g => [⟨new s t, g⟩])) ∧
  (∀ (a : VReg) (j : BitVec 2),
    let succ := fun (s : State) (e : Env) => match e.launch.origin with
      | .queue _ _ _ => none
      | .graph n => if e.c.graph = 0 then none else ((s.node e.c n).bind fun x => if x.succ.getD j.toNat 0xFFFF = 0xFFFF then none else
          (SMap.get? s.ctxs e.crew.ctx).map fun c => (n, x.succ.getD j.toNat 0xFFFF, c))
    let rs := fun (s : State) (t : Thread) => (List.range 4).map fun i => s.reg t (a.toNat + i)
    let place := fun (s : State) (e : Env) => (succ s e).bind fun (_, d, c) => if c.nnode ≤ d then none else (s.node c d).bind fun x =>
      if !x.takes || decide (x.qcap ≤ (c.nodeState d).tail - (c.nodeState d).head) then none
      else match s.transDev c (x.recAddr (c.nodeState d).tail) with
        | .hit h => if h.w && h.peerW && !h.loc.isTable then some (d, x.recAddr (c.nodeState d).tail % 2 ^ 48, h) else none
        | _ => none
    effects (.emit a j) 1 [⟨a.toNat, 4, 4⟩] (fun s e u t => !t.spec && s.released u t 4 && (place s e).isSome)
      (fun s e _ t => match place s e with
        | none => s
        | some (d, va, h) =>
          (s.performWrite e.crew.ctx va h.loc ((rs s t).flatMap fun r => toBytes 4 r.val.toNat)
            ((((rs s t).map (·.tag)).find? isA).getD (s.reg t a.toNat).tag) h.tagAddr).modNode e.crew.ctx d fun y => { y with tail := y.tail + 1 }) ∧
    effects (.emit a j) 1 [⟨a.toNat, 4, 4⟩]
      (fun s e u t => !t.spec && s.released u t 4 && (succ s e).any fun (_, d, c) => decide (d < c.nnode) && (s.node c d).any fun x => !x.takes)
      (fun s e u t => match (succ s e).bind fun (_, d, c) => (s.node c d).map fun x => x.recAddr (c.nodeState d).tail with
        | none => s
        | some q => s.log e.crew.ctx 4 2 0 q (s.whereOf (e.issuer u t))))

/-- R58, R59, R426: SPAWN places each active lane's record in the bin of its entry address, in a free bin, or, with every bin taken,
in the one freed by launching at once the bin whose first record is oldest; a bin's timer that has run out makes it launch; a
launch starts one thread for each record, in ascending lanes with room for its allotment, with the record's crew and role, its
arguments in v0 to v3 with their eartags. -/
def Obligations.Spawning : Prop :=
  (∀ f : FTwo,
    let rec_ := fun (s : State) (e : Env) (u : Nat) (t : Thread) =>
      (⟨e.issuer u t, s.spawned, t.allot, e.launch.startAnom, (List.range 4).map fun i => s.reg t (f.q.toNat + i)⟩ : SpawnRec)
    effects (.spawn f) 1 [⟨f.r.toNat, 2, 2⟩, ⟨f.q.toNat, 4, 4⟩]
      (fun s e u t => !t.spec && (s.w64 t f.r).toNat % 64 == 0 && s.released u t 0 &&
        match s.placeRec e (s.w64 t f.r).toNat (rec_ s e u t) with
        | .placed _ => true
        | _ => false)
      (fun s e u t => match s.placeRec e (s.w64 t f.r).toNat (rec_ s e u t) with
        | .placed s1 => s1
        | _ => s)) ∧
  (∀ (s : State) (e : Env) (entry k : Nat) (r : SpawnRec) (b : SpawnBin),
    ((s.binsOf e.core e.quad).find? fun b => b.2.entry == entry && b.2.ctx == e.crew.ctx) = some (k, b) →
    b.recs.length < 32 → s.placeRec e entry r = .placed { s with bins := SMap.put s.bins k { b with recs := b.recs ++ [r] }, spawned := s.spawned + 1 }) ∧
  (∀ (s : State) (e : Env) (entry : Nat) (r : SpawnRec),
    ((s.binsOf e.core e.quad).any fun b => b.2.entry == entry && b.2.ctx == e.crew.ctx) = false →
    let taken := fun i => (s.binsOf e.core e.quad).any fun b => b.1 == binKey e.core e.quad i
    let into := fun (s : State) (k : Nat) => { s with
      bins := SMap.put s.bins k ⟨entry, e.crew.ctx, [r], e.launch.sptimer, false⟩, spawned := s.spawned + 1 }
    (∀ i, i < 16 → (∀ j, j < i → taken j = true) → taken i = false → s.placeRec e entry r = .placed (into s (binKey e.core e.quad i))) ∧
    ∀ k b s1, (∀ i, i < 16 → taken i = true) → (k, b) ∈ s.binsOf e.core e.quad →
      (∀ x ∈ s.binsOf e.core e.quad, x = (k, b) ∨ b.age < x.2.age) →
      ({ s with bins := SMap.put s.bins k { b with launching := true } } : State).launchBin k b true = some s1 → SMap.get? s1.bins k = none →
      s.placeRec e entry r = .placed (into s1 k)) ∧
  (∀ (s : State) (core quad bin : Nat) (b : SpawnBin), SMap.get? s.bins (binKey core quad bin) = some b → b.timer = 0 → b.launching = false →
    exec (.spawnBinTimer core quad bin) s = .next { s with bins := SMap.put s.bins (binKey core quad bin) { b with launching := true } }) ∧
  (∀ (s : State) (core quad : Nat) (rs : List SpawnRec) (l : List (SpawnRec × Nat × Nat × Nat)),
    s.spawnLanes core quad (List.range 32) rs = some l → l.map (·.1) = rs ∧ (l.map (·.2.1)).Pairwise (· < ·) ∧
      ∀ x ∈ l, x.2.1 < 32 ∧ s.roomIn core quad x.2.1 x.1.allot = some (x.2.2.1, x.2.2.2)) ∧
  (∀ (s : State) (core quad bin : Nat) (b : SpawnBin) (l : List (SpawnRec × Nat × Nat × Nat)), quad < 4 → bin < 16 →
    SMap.get? s.bins (binKey core quad bin) = some b → b.launching = true ∨ b.recs.length = 32 → s.binBatch b false = b.recs → b.recs ≠ [] →
    s.spawnLanes core quad (List.range 32) b.recs = some l →
    ∃ s', exec (.spawnBinLaunch core quad bin) s = .next s' ∧ SMap.get? s'.bins (binKey core quad bin) = none ∧ s'.mem = s.mem ∧
      ∀ (i : Nat) (r : SpawnRec) (lane slot base : Nat), l[i]? = some (r, lane, slot, base) →
        ∃ t, s'.thread? (s.nextUid + i) = some t ∧ t.crew = r.iss.crew ∧ t.role = r.iss.role ∧ t.core = core ∧ t.quad = quad ∧ t.lane = lane ∧
          t.slot = slot ∧ t.tid = 2048 + 512 * quad + 32 * slot + lane ∧ t.allot = r.allot ∧ t.anom = r.anom ∧ t.pc = b.entry ∧ t.at_ = 0 ∧
          t.status = .boundary ∧ t.spawned = true ∧ ∀ j x, r.args[j]? = some x → j < r.allot → s'.rd t j = x)

/-! ## The launcher, queues and graphs -/

/-- R42, R313, R291, R36 to R39, R87: a miss fills the instruction cache with the clause's 16 words, each as memory holds it or as a
store under way will leave it; a quadrant with a ready thread and a free warp slot forms a warp of its oldest ready thread with, in
every other lane, the oldest one that agrees with it in crew, role, clause, slot and handler. Age is by stamp, then lane, then
slot; of threads stamped in one cycle those whose last clause had YIELD set come after the others. -/
def Obligations.FetchAndFormation : Prop :=
  (∀ (s : State) (core ctx addr a : Nat) (c : Context) (h : Hit), SMap.get? s.ctxs ctx = some c → s.standingAt core ctx addr ≠ [] → addr % 64 = 0 →
    SMap.get? s.icache (icKey core ctx addr) = none → s.isStub core ctx c addr = false → ptrOk ((c.cspace + addr) % 2 ^ 64) = true →
    (s.translate core ctx c ((c.cspace + addr) % 2 ^ 64 % 2 ^ 48)).2 = .hit h → h.r = true → h.loc = .hbm a → a % 16 = 0 →
    (∀ i, i < 4 → twPoison (s.twAt (.hbm (a + 16 * i)) (h.tagAddr.map (· + 4 * i)) h.ptag) = false) →
    (s.clauseAt a).getD 0 0 ≠ stubMark → (s.clauseSoon a).getD 0 0 ≠ stubMark →
    ∃ s' ws, exec (.icacheFill core ctx addr) s = .next s' ∧ SMap.get? s'.icache (icKey core ctx addr) = some ws ∧ ws.length = 16 ∧
      (∀ i, i < 16 → ws.getD i 0 = (s.clauseAt a).getD i 0 ∨ ws.getD i 0 = (s.clauseSoon a).getD i 0) ∧
      (s.stores = [] → ws = s.clauseAt a) ∧ s'.mem = s.mem ∧ s'.regs = s.regs ∧ ((s.icOf core).length < 2048 → s'.threads = s.threads)) ∧
  (∀ (s0 : State) (core quad : Nat), SMap.rising s0.threads = true →
    let s := s0.stampQuad core quad
    let l := s.readyIn core quad
    let age := fun (t : Thread) => ageKey (SMap.getD s0.formation 0 (quadKey core quad)) t
    l ≠ [] → s.formable core quad → (∃ i, i < 4 ∧ (s.warpSlots core quad).contains i = false) →
    ∃ s' u t ws words cr w, exec (.warpFormation core quad) s0 = .next s' ∧ (u, t) ∈ l ∧ (∀ y ∈ l, stampedBefore t y.2 = false) ∧
      (∀ x ∈ l, (∀ y ∈ l, stampedBefore x.2 y.2 = false) → age t ≤ age x.2) ∧
      ws < 4 ∧ (s.warpSlots core quad).contains ws = false ∧ SMap.get? s.crews t.crew = some cr ∧ s.clauseFor core cr.ctx t.pc = some words ∧
      SMap.get? s'.warps (quadKey core quad * 4 + ws) = some w ∧ w.pc = t.pc ∧ w.slot = t.at_ ∧ w.words = words ∧ w.ctx = cr.ctx ∧ w.arrived = [] ∧
      w.issued = false ∧ w.lane0 = t.lane ∧ w.slot0 = t.slot ∧
      u ∈ w.members ∧ (w.members.map s.laneOf).Pairwise (· < ·) ∧
      (∀ v ∈ w.members, ∃ x x', (v, x) ∈ l ∧ joins t x = true ∧ s'.thread? v = some x' ∧ x'.status = .inWarp ∧
        x'.anom = if t.at_ = 0 then x.anomNext.getD x.anom else x.anom) ∧
      (∀ y ∈ l, joins t y.2 = true → y.2.lane ≠ t.lane → ∃ x, (x.1 ∈ w.members ∧ x ∈ l) ∧ x.2.lane = y.2.lane ∧
        (∀ z ∈ l, joins t z.2 = true → z.2.lane = y.2.lane → stampedBefore x.2 z.2 = false) ∧
        ((∀ z ∈ l, joins t z.2 = true → z.2.lane = y.2.lane → stampedBefore y.2 z.2 = false) → age x.2 ≤ age y.2)) ∧
      SMap.getD s'.formation 0 (quadKey core quad) = (SMap.getD s0.formation 0 (quadKey core quad) + 1) % 65536 ∧
      s'.regs = s0.regs ∧ s'.mem = s0.mem ∧ ∀ v, v ∉ w.members → (s'.thread? v).map Thread.still = (s0.thread? v).map Thread.still)

/-- R9, R271, R272: doorbells, enable and register writes of a queue pair: SQBASE to VEC hold still while EN = 1, a write of 1
clears ERR, read-only registers ignore writes; a barrier completes when every earlier entry has, an invalid entry with
STATUS 11; a completion entry is written at CQTAIL with the phase, which flips when the ring wraps. -/
def Obligations.QueuePairs : Prop :=
  (∀ (s : State) (vd q v : Nat) (p : QueuePair), s.pair? vd q = some p →
    (∃ s', exec (.sqtail vd q v) s = .next s' ∧ s.queueSet s' vd q { p with sqtail := v % 2 ^ 32 }) ∧
    (∃ s', exec (.cqhead vd q v) s = .next s' ∧ s.queueSet s' vd q { p with cqhead := v % 2 ^ 32 }) ∧
    (∃ s', exec (.queueEnable vd q) s = .next s' ∧ s.queueSet s' vd q
      (if p.en then p else if ((SMap.get? s.ctxs p.ctx).any fun c => c.vd == vd && !c.ended) && p.sqbase % 64 == 0 && p.cqbase % 64 == 0 &&
        decide (4 ≤ p.sqlog) && decide (4 ≤ p.cqlog) then { p with en := true } else { p with err := true }))) ∧
  (∀ (s : State) (vd q off v : Nat) (p : QueuePair), s.pair? vd q = some p → off < 0x1000 →
    ∃ s' p', exec (.registerWrite vd (q * 0x1000 + off) v) s = .next s' ∧ s.queueSet s' vd q p' ∧
      (off ∉ [0, 0x0C, 0x10, 0x18, 0x1C, 0x20, 0x28, 0x30] → p' = p) ∧
      (p.en = true → off ≠ 0x20 → off ≠ 0x28 → off ≠ 0x30 → p' = p) ∧
      (p.en = false → off = 0 → p' = { p with sqbase := v % 2 ^ 64 }) ∧ (p.en = false → off = 0x0C → p' = { p with ctx := v % 4096 }) ∧
      (p.en = false → off = 0x10 → p' = { p with cqbase := v % 2 ^ 64 }) ∧
      (p.en = false → off = 0x18 → p' = { p with cqlog := v / 16 % 16, sqlog := v % 16 }) ∧ (p.en = false → off = 0x1C → p' = { p with vec := v % 2048 }) ∧
      (off = 0x20 → p' = { p with sqtail := v % 2 ^ 32 }) ∧ (off = 0x28 → p' = { p with cqhead := v % 2 ^ 32 }) ∧
      (off = 0x30 → v.testBit 0 = false → p' = { p with err := p.err && !v.testBit 1, en := false })) ∧
  (∀ (s : State) (vd q : Nat) (p : QueuePair) (c : Context) (x : SqEntry), s.nextEntry vd q = some (p, c, x) → SMap.get? s.queues (queueKey vd q) = some p →
    (x.op = 3 → x.invalid = false → p.outstanding = [] → ∃ s', exec (.queueBarrier vd q) s = .next s' ∧ s.queueSet s' vd q (p.finished x.htag 0 0)) ∧
    (x.op = 3 → p.outstanding ≠ [] → exec (.queueBarrier vd q) s = .refused (.cannotOccur "QUEUE_BARRIER")) ∧
    (x.invalid = true → ∃ s', exec (.invalidEntry vd q) s = .next s' ∧ s.queueSet s' vd q (p.finished x.htag 1 11))) ∧
  (∀ (s : State) (vd q htag kind status launch : Nat) (rest : List (List Nat)) (p : QueuePair), SMap.get? s.queues (queueKey vd q) = some p →
    p.held = [htag, kind, status, launch] :: rest → (p.cqtail + 1) % 2 ^ p.cqlog ≠ p.cqhead % 2 ^ p.cqlog → s.fabricBusy p.ctx kind launch = false →
    ∃ s' p', exec (.completionEntryWrite vd q 1) s = .next s' ∧ SMap.get? s'.queues (queueKey vd q) = some p' ∧ p'.held = rest ∧
      p'.cqtail = (p.cqtail + 1) % 2 ^ p.cqlog ∧ p'.phase = (if p'.cqtail = 0 then !p.phase else p.phase) ∧ p'.raised = p.raised + 1 ∧
      (let a := p.cqbase + 16 * p.cqtail
       ofBytes (readCells s'.hostMem a 4) = htag % 2 ^ 32 ∧
       ofBytes (readCells s'.hostMem (a + 4) 4) = ((if p.phase then 2 ^ 31 else 0) + kind * 256 + status) % 2 ^ 32 ∧
       ofBytes (readCells s'.hostMem (a + 8) 8) = launch % 2 ^ 64 ∧
       ∀ k, (k < a ∨ a + 16 ≤ k) → SMap.getD s'.hostMem 0 k = SMap.getD s.hostMem 0 k) ∧ s'.mem = s.mem)

/-- R51, R46, R22, R34, R35, R54, R63, R265, R272, R286, R288, R289: a launch entry is accepted or rejected with its status; a crew is
placed whole, each of its threads with its start registers; a completed launch gives its queue a completion; the loader refuses
a bad module; a context takes its descriptor's fields. -/
def Obligations.Launching : Prop :=
  (∀ (s : State) (vd q id : Nat) (p : QueuePair) (c : Context) (x : SqEntry), s.nextEntry vd q = some (p, c, x) →
    SMap.get? s.queues (queueKey vd q) = some p → x.op = 1 → x.invalid = false → s.freeLaunchId id = true →
    (x.arg % 128 ≠ 0 → ∃ s', exec (.launch vd q id) s = .next s' ∧ s.queueSet s' vd q (p.finished x.htag 1 12)) ∧
    (∀ n, s.launchTest c x.arg false = .reject n → ∃ s', exec (.launch vd q id) s = .next s' ∧ s.queueSet s' vd q (p.finished x.htag 1 n)) ∧
    (∀ r gs, s.launchTest c x.arg false = .accept r gs → r.colid = 0 →
      ∃ s' l, exec (.launch vd q id) s = .next s' ∧ SMap.get? s'.launches id = some l ∧ l.ctx = p.ctx ∧ l.code = r.code ∧ l.roles = r.roles ∧
        l.gangs = gs ∧ (l.gx, l.gy, l.gz) = (r.gx, r.gy, r.gz) ∧ l.scrlines = r.scrlines ∧ l.args = r.args ∧ l.anom = r.khw / 2 % 4 ∧ l.placed = [] ∧
        l.done = [] ∧ l.failed = false ∧ l.origin = .queue vd q x.htag ∧
        SMap.get? s'.queues (queueKey vd q) = some { p with sqhead := (p.sqhead + 1) % 2 ^ p.sqlog, outstanding := p.outstanding ++ [x.htag] } ∧
        s'.mem = s.mem ∧ s'.regs = s.regs)) ∧
  (∀ (s s1 : State) (launch part : Nat) (l : Launch) (c : Context) (p : Partition) (pl : Placement), SMap.get? s.launches launch = some l →
    SMap.get? s.ctxs l.ctx = some c → s.partOf c = some (part, p) → s.inTurn c.vd = some s1 → s.placeOrder l = true →
    (l.gangs.all fun g => !g.cores) = true → (s1.placeCrew launch l (s.usable p) pl).isSome = true →
    ∃ s' cr, exec (.crewPlace launch [pl]) s = .next s' ∧ SMap.get? s'.crews s.nextCrew = some cr ∧ cr.launch = launch ∧ cr.ctx = l.ctx ∧
      cr.ord = pl.crew ∧ cr.core = pl.core ∧ cr.lines = l.scrlines ∧ s.linesFree pl.core cr.base l.scrlines = true ∧ cr.placed = true ∧
      cr.preempt = .running ∧ s'.mem = s.mem ∧
      ∀ w lane x quad, (warpsOf l.roles)[w]? = some x → pl.quads[w]? = some quad → lane < 32 →
        ∃ t, s'.thread? (s.nextUid + 32 * w + lane) = some t ∧ t.crew = s.nextCrew ∧ t.role = x.1 ∧ t.tid = 32 * w + lane ∧ t.core = pl.core ∧
          t.quad = quad ∧ t.lane = lane ∧ t.allot = x.2.1 ∧ t.pc = l.code + 64 * x.2.2 ∧ t.at_ = 0 ∧ t.status = .boundary ∧ t.preds = 0 ∧
          t.wbase = 0 ∧ t.anom = (if l.iovf then 4 else 0) + l.anom % 4 ∧
          ∀ i, i < t.allot → s'.rd t i = ([l.args, l.args / 2 ^ 32, l.batch, l.batch / 2 ^ 32, l.batchCount].map fun x => (⟨BitVec.ofNat 32 x, 0⟩ : Reg)).getD i Reg.zero) ∧
  (∀ (s : State) (launch vd q htag : Nat) (l : Launch) (c : Context) (p : QueuePair), SMap.get? s.launches launch = some l → SMap.get? s.ctxs l.ctx = some c →
    l.done.length = l.gx * l.gy * l.gz → l.origin = .queue vd q htag → s.heldCounts l = [] → SMap.get? s.queues (queueKey vd q) = some p →
    ∃ s', exec (.launchComplete launch) s = .next s' ∧ SMap.get? s'.launches launch = none ∧ SMap.get? s'.queues (queueKey vd q) =
      some { p with outstanding := p.outstanding.erase htag, held := p.held ++ [[htag, if l.failed then 2 else 0, 0, launch]] } ∧ s'.mem = s.mem ∧
      s'.regs = s.regs ∧ s'.threads = s.threads) ∧
  (∀ (s : State) (ctx code bcbase : Nat) (file : List Byte) (c : Context), s.serves = true → SMap.get? s.ctxs ctx = some c → c.ended = false →
    code % 64 = 0 → bcbase % 16 = 0 →
    let x := parseJxm file
    let text := (file.drop x.codeoff).take x.codelen
    (moduleBad s.chip.step file x = true → exec (.moduleLoad ctx code bcbase file) s = .next { s with answer := [1] }) ∧
    ∀ s1 s2, moduleBad s.chip.step file x = false → s.osWrite ctx c ((c.cspace + code) % 2 ^ 64) (grans text.length text) = some s1 →
      s1.osWrite ctx c bcbase (grans x.nblock (List.replicate (8 * x.nblock) 0)) = some s2 →
      ∃ s' c', exec (.moduleLoad ctx code bcbase file) s = .next s' ∧ s'.answer = [0] ∧ s'.mem = s2.mem ∧ SMap.get? s'.ctxs ctx = some c' ∧
        c'.modules = c.modules ++ [⟨code, x.codelen, x.manoff, x.impoff, x.nimp, x.nblock, bcbase⟩]) ∧
  (∀ (s : State) (desc : List DWord) (byOs : Bool) (v : VDev) (p : Partition), s.serves = true → s.chip.boot = false → desc.length = 16 →
    let w := fun i => (desc.getD i 0).toNat
    let k := w 11 % 4096
    SMap.get? s.vdevs (w 10 / 2 ^ 50 % 64) = some v → SMap.get? s.parts v.part = some p → (SMap.get? s.parts 0 ≠ none ∨ s.ctxs ≠ []) → (s.crews.any fun e => e.2.ctx == k && e.2.placed) = false →
    (descBad (desc.map (·.toNat)) byOs = true ∨ s.rootJoined (desc.map (·.toNat)) = false →
      exec (.contextCreate desc byOs) s = .next { s with answer := [1] }) ∧
    (descBad (desc.map (·.toNat)) byOs = false → s.rootJoined (desc.map (·.toNat)) = true → SMap.get? s.ctxs k = none → ∃ c, exec (.contextCreate desc byOs) s =
      .next { s with ctxs := SMap.put s.ctxs k c, answer := [0] } ∧ c.root = w 0 ∧ c.cspace = w 1 ∧ c.anomBase = w 2 ∧ c.anomSeq = w 3 ∧
        c.faultBase = w 4 ∧ c.faultSeq = w 5 ∧ c.tsave = w 6 ∧ c.coldesc = w 7 ∧ c.dirty = w 8 ∧ c.wdog = w 9 % 2 ^ 32 ∧
        c.predl = w 9 / 2 ^ 32 % 2 ^ 25 ∧ c.tentry = w 10 % 2 ^ 26 ∧ c.vd = w 10 / 2 ^ 50 % 64 ∧ c.ta = w 10 / 2 ^ 48 % 4 ∧
        c.pshare = w 10 / 2 ^ 40 % 64 ∧ c.finj = (w 10).testBit 33 ∧ c.priv = (w 10).testBit 32 ∧ c.graph = w 12 ∧ c.nnode = w 13 % 2 ^ 16 ∧
        c.batchBase = w 14 ∧ c.batchSize = w 15 % 2 ^ 32 ∧ c.log = [] ∧ c.ended = false))

/-- R61 to R66, R272: a graph start gives its node completions, or completes with STATUS 9 where there is no such node; a kernel
node whose completions are there launches its record; a conditional or while node reads its condition word and gives one
completion to its first successor, or with 0 to its second; installing a graph empties every count and queue. -/
def Obligations.GraphSteps : Prop :=
  (∀ (s : State) (vd q : Nat) (p : QueuePair) (c : Context) (x : SqEntry), s.nextEntry vd q = some (p, c, x) → SMap.get? s.queues (queueKey vd q) = some p →
    x.op = 2 → x.invalid = false →
    (c.graph = 0 ∨ c.nnode ≤ x.arg % 65536 → ∃ s', exec (.graphStart vd q) s = .next s' ∧ s.queueSet s' vd q (p.finished x.htag 1 9)) ∧
    ∀ y, c.graph ≠ 0 → x.arg % 65536 < c.nnode → s.node c (x.arg % 65536) = some y →
      (y.kind = 3 → ∃ s', exec (.graphStart vd q) s = .next s' ∧ s.queueSet s' vd q (p.finished x.htag 1 9)) ∧
      (y.kind ≠ 3 → y.takes = false → max 1 y.pred ≤ (c.nodeState (x.arg % 65536)).count + x.arg / 2 ^ 16 % 256 →
        ∃ s' c', exec (.graphStart vd q) s = .next s' ∧ SMap.get? s'.ctxs p.ctx = some c' ∧ c'.starts = c.starts ++ [⟨vd, q, x.htag⟩] ∧
          c'.nodeState (x.arg % 65536) = { c.nodeState (x.arg % 65536) with count := (c.nodeState (x.arg % 65536)).count + x.arg / 2 ^ 16 % 256 } ∧
          (∀ n, n ≠ x.arg % 65536 → c'.nodeState n = c.nodeState n) ∧
          SMap.get? s'.queues (queueKey vd q) = some { p with sqhead := (p.sqhead + 1) % 2 ^ p.sqlog, outstanding := p.outstanding ++ [x.htag] } ∧
          s'.mem = s.mem)) ∧
  (∀ (s : State) (ctx node id : Nat) (c : Context) (x : Node) (r : LaunchRec) (gs : List Gang), SMap.get? s.ctxs ctx = some c → c.ended = false →
    node < c.nnode → s.freeLaunchId id = true → s.node c node = some x → x.kind = 0 → x.coal = 0 → max 1 x.pred ≤ (c.nodeState node).count →
    s.launchTest c x.launch false = .accept r gs → r.colid = 0 →
    ∃ s' c' l, exec (.graphKernelFire ctx node id) s = .next s' ∧ SMap.get? s'.ctxs ctx = some c' ∧
      (c'.nodeState node).count = (c.nodeState node).count - max 1 x.pred ∧ SMap.get? s'.launches id = some l ∧ l.ctx = ctx ∧ l.code = r.code ∧
      l.roles = r.roles ∧ l.gangs = gs ∧ l.batchCount = 0 ∧ l.placed = [] ∧ l.done = [] ∧ l.origin = .graph node ∧ s'.mem = s.mem ∧ s'.regs = s.regs) ∧
  (∀ (i : Nat → Nat → Instr) (kind : Nat), (i, kind) ∈ [(Instr.graphConditionalFire, 1), (Instr.graphWhileFire, 2)] →
    ∀ (s : State) (ctx node : Nat) (c : Context) (x : Node) (bs : List Byte), SMap.get? s.ctxs ctx = some c → c.ended = false → node < c.nnode →
      s.node c node = some x → x.kind = kind → max 1 x.pred ≤ (c.nodeState node).count → s.devRead c x.cond 4 = .ok bs →
      let d := x.succ.getD (if ofBytes bs = 0 then 1 else 0) 0xFFFF
      d = 0xFFFF ∨ d < c.nnode → ∃ s' c', exec (i ctx node) s = .next s' ∧ SMap.get? s'.ctxs ctx = some c' ∧ s'.mem = s.mem ∧ s'.regs = s.regs ∧
        ∀ n, (c'.nodeState n).count = (c.nodeState n).count - (if n = node then max 1 x.pred else 0) + (if n = d ∧ d ≠ 0xFFFF then 1 else 0)) ∧
  (∀ (s : State) (ctx graph nnode : Nat) (c : Context), SMap.get? s.ctxs ctx = some c → c.ended = false → nnode < 65536 → graph < 2 ^ 64 →
    (graph = 0 ∨ nnode ≠ 0) →
    ((s.crews.any fun e => e.2.ctx == ctx && e.2.placed) = false → exec (.graphInstall ctx graph nnode) s =
      .next { s with ctxs := SMap.put s.ctxs ctx { c with graph := graph, nnode := if graph = 0 then 0 else nnode, nodes := [] } }) ∧
    ((s.crews.any fun e => e.2.ctx == ctx && e.2.placed) = true → exec (.graphInstall ctx graph nnode) s = .refused (.cannotOccur "GRAPH_INSTALL")))

/-! ## Traps, pages, pre-emption -/

/-- R233 to R235, R443, R249, R156, R237, R251: delivery starts the handler with its eight registers; a thread that has reached WDOG
parks with trap 34, and its crew is killed when it reaches WDOG again, or in a handler; a mapped page lets its lane go on or its record be
written; an unmappable one parks its lane with the trap, or ends the context whose record waits for it. -/
def Obligations.TrapsAndPages : Prop :=
  (∀ (s : State) (u seq : Nat) (tr : Trap) (t : Thread) (cr : Crew) (c : Context) (l : Launch), s.thread? u = some t → t.region = none →
    SMap.get? s.crews t.crew = some cr → cr.runs = true → SMap.get? s.ctxs cr.ctx = some c → SMap.get? s.launches cr.launch = some l →
    s.writesDue u (fun _ => true) = false → (s.records.any fun r => r.uid == u) = false →
    (∀ s1, t.status = .parked seq tr → s.lowerParked t tr = false → s.writeSave c cr.ctx t seq = .ok s1 →
      ∃ s', exec (.trapDelivery u) s = .next s' ∧ s.handles s' u t c l.code seq tr) ∧
    (∀ s1 rest, t.status = .boundary → t.at_ = 0 → t.handler = none → t.wait = none → t.spec = false → t.bndTraps = (seq, tr) :: rest →
      (s.modThread u fun x => { x with bndTraps := rest }).writeSave c cr.ctx { t with bndTraps := rest } seq = .ok s1 →
      ∃ s', exec (.trapDelivery u) s = .next s' ∧ s.handles s' u t c l.code seq tr ∧ (s'.thread? u).map (·.bndTraps) = some rest)) ∧
  (∀ (s : State) (u : Nat) (t : Thread) (cr : Crew) (c : Context), s.thread? u = some t → SMap.get? s.crews t.crew = some cr → cr.runs = true →
    SMap.get? s.ctxs cr.ctx = some c → c.wdog ≠ 0 → c.wdog ≤ t.wdog → t.wait = none → t.status = .boundary →
    (s.warps.all fun w => !(w.2.members.contains u) && !(w.2.arrived.contains u)) = true →
    (t.handler = none → t.wdogHit = false → t.spec = false →
      let s1 := s.modThread u fun x => { x with wdogHit := true, wdog := 0 }
      let tr : Trap := { num := 34, group := c.faultSeq }
      let r := (s1.faultRecord (s1.issuerAt u t 0 (t.pc + 8 + 4 * t.at_) (s1.wordAt t)) tr (2 ^ t.lane) t.held.isSome false).1
      r.live cr.ctx = true → ∃ s' t', exec (.watchdogExpiry u) s = .next s' ∧ s'.thread? u = some t' ∧ t'.status = .parked c.faultSeq tr ∧
        t'.wdogHit = true ∧ t'.pc = t.pc ∧ t'.at_ = t.at_ ∧ s'.mem = r.mem) ∧
    (t.wdogHit = true ∨ (t.handler.isSome = true ∧ t.spec = false) → ∃ s', exec (.watchdogExpiry u) s = .next s' ∧ SMap.get? s'.crews t.crew = none ∧
      (∀ v tv, s'.thread? v = some tv → tv.crew ≠ t.crew) ∧ ∀ l, SMap.get? s.launches cr.launch = some l → ∃ l', SMap.get? s'.launches cr.launch = some l' ∧
        l'.failed = true)) ∧
  (∀ (s : State) (u subw : Nat) (t : Thread) (cr : Crew) (tr : Trap), s.thread? u = some t → t.status = .osServed tr subw →
    SMap.get? s.crews t.crew = some cr → (s.records.any fun r => r.uid == u) = false →
    (s.mapped cr.ctx tr.addr = true → exec (.pageFaultResolve u) s = .next (s.modThread u fun x => { x with status := .boundary, held := none })) ∧
    (s.mapped cr.ctx tr.addr = false → ∀ c, SMap.get? s.ctxs cr.ctx = some c →
      let tr' : Trap := { tr with os := false }
      let r := (s.faultRecord (s.issuerAt u t 0 (t.pc + 8 + 4 * t.at_) (s.wordAt t)) tr' subw t.held.isSome false).1
      r.live cr.ctx = true → ∃ s' t', exec (.pageUnmappable 0 u) s = .next s' ∧ s'.thread? u = some t' ∧ t'.status = .parked c.faultSeq tr' ∧ s'.mem = r.mem)) ∧
  (∀ (s : State) (u : Nat) (r : PendRec), s.records = [r] → r.uid = u → r.held = false →
    (∀ s1, s.mapped r.ctx r.va = true → ({ s with records := [] } : State).recWrite r.ctx r.va r.data = .ok s1 → exec (.pageFaultResolve u) s = .next s1) ∧
    (∀ c, s.mapped r.ctx r.va = false → SMap.get? s.ctxs r.ctx = some c → ∃ s' c', exec (.pageUnmappable 0 u) s = .next s' ∧
      SMap.get? s'.ctxs r.ctx = some c' ∧ c'.ended = true ∧ (s'.crews.all fun e => e.2.ctx != r.ctx) = true ∧ s'.records = []))

/-- R240 to R247: a request asks the crew's unit to leave within PREDL cycles; a cancelled request lets the crews run and their
yielded threads go on; a light save keeps v0 and v1 of each window and clears every flag but those of COLPOST and COLFIRE, a forced save every register and the crew's scratchpad; a
restore places the crew again with what was saved; a debugger stops and continues a crew's issue. -/
def Obligations.Preemption : Prop :=
  (∀ (s : State) (crew : Nat) (c : Crew), SMap.get? s.crews crew = some c → c.placed = true → c.preempt = .running →
    (∀ v ∈ s.unit crew, ∃ x, SMap.get? s.crews v = some x ∧ x.preempt = .running) →
    ∃ s', exec (.preemptRequest crew) s = .next s' ∧ ({ s' with crews := s.crews } : State) = s ∧
      ∀ v, SMap.get? s'.crews v = (SMap.get? s.crews v).map fun x => if (s.unit crew).contains v then x.asked (s.predlOf c) else x) ∧
  (∀ (s : State) (crew : Nat), s.unit crew ≠ [] → (∀ v ∈ s.unit crew, ∃ x, SMap.get? s.crews v = some x ∧ x.preempt = .requested) →
    ∃ s', exec (.preemptCancel crew) s = .next s' ∧ ({ s' with crews := s.crews, threads := s.threads } : State) = s ∧
      (∀ v, SMap.get? s'.crews v = (SMap.get? s.crews v).map fun x =>
        if (s.unit crew).contains v then { x with preempt := .running, req := false, left := 0 } else x) ∧
      ∀ u, s'.thread? u = (s.thread? u).map fun t => if (s.unit crew).contains t.crew && t.wait == some .yield then { t with wait := none } else t) ∧
  (∀ (s : State) (crew : Nat) (c : Crew), s.unit crew = [crew] → s.yielded crew = true → SMap.get? s.crews crew = some c →
    ∃ s' c' v, exec (.lightSave crew) s = .next s' ∧ SMap.get? s'.crews crew = some c' ∧ c'.placed = false ∧ c'.preempt = .removed ∧ c'.saved = some v ∧
      v.light = true ∧ c'.meets = [] ∧ c'.objs = [] ∧ s'.regs = s.regs ∧ s'.mem = s.mem ∧ s'.scr = s.scr ∧
      ∀ u t, s.thread? u = some t → t.crew = crew → ∃ t' x, s'.thread? u = some t' ∧ t'.status = .removed ∧ t'.preds = 0 ∧ t'.wait = none ∧ t'.pc = t.pc ∧
        t'.at_ = t.at_ ∧ x ∈ v.threads ∧ x.uid = u ∧ x.status = t.status ∧
        (∀ k o, SMap.get? s'.ops k = some o → s.keptOps.contains k = false → u ∉ o.lanes) ∧
        ∀ i, i < 2 → SMap.getD x.regs Reg.zero (t.wbase + i) = s.rd t (t.wbase + i)) ∧
  (∀ (s : State) (crew : Nat) (c : Crew), s.unit crew = [crew] → SMap.get? s.crews crew = some c → c.forced = true → SMap.rising s.threads = true → s.standing crew →
    s.engineIdle crew true = true → s.trafficIdle crew c = true →
    ∃ s' c' v, exec (.forcedSave crew) s = .next s' ∧ SMap.get? s'.crews crew = some c' ∧ c'.placed = false ∧ c'.preempt = .removed ∧ c'.saved = some v ∧
      v.light = false ∧ s'.regs = s.regs ∧ s'.mem = s.mem ∧
      (∀ i, i < 128 * c.lines → SMap.getD v.scr 0 i = SMap.getD s.scr 0 (scrKey c.core (128 * c.base) + i)) ∧
      (∀ i, i < 8 * c.lines → SMap.getD v.scrTag 0 i = SMap.getD s.scrTag 0 (granKey c.core (128 * c.base) + i)) ∧
      ∀ u t, s.thread? u = some t → t.crew = crew → ∃ t' x, s'.thread? u = some t' ∧ t'.status = .removed ∧ t'.pc = t.pc ∧ t'.at_ = t.at_ ∧
        x ∈ v.threads ∧ x.uid = u ∧ x.status = .boundary ∧ ∀ i, i < t.allot → SMap.getD x.regs Reg.zero i = s.rd t i) ∧
  (∀ (s s1 : State) (pl : Placement) (c : Crew) (v : Saved) (ctx : Context) (part : Nat) (p : Partition), s.unit pl.crew = [pl.crew] →
    SMap.get? s.crews pl.crew = some c → c.saved = some v → SMap.get? s.ctxs c.ctx = some ctx → s.partOf ctx = some (part, p) → s.inTurn ctx.vd = some s1 →
    (s1.restoreCrew (s1.usable p) pl).isSome = true → v.threads ≠ [] → (v.threads.map (·.uid)).Nodup → v.posts = [] →
    (∀ x ∈ v.threads, x.status = .boundary ∧ SMap.rising x.regs = true ∧ ∃ t, s.thread? x.uid = some t ∧ t.crew = pl.crew ∧ t.lane < 32 ∧
      ∀ r ∈ x.regs, r.1 < t.allot) →
    ∃ s' c', exec (.crewRestore [pl]) s = .next s' ∧ SMap.get? s'.crews pl.crew = some c' ∧ c'.placed = true ∧ c'.preempt = .running ∧ c'.req = false ∧
      c'.saved = none ∧ c'.core = pl.core ∧ c'.lines = c.lines ∧ s.linesFree pl.core c'.base c.lines = true ∧ s'.mem = s.mem ∧
      ∀ x ∈ v.threads, ∀ t, s.thread? x.uid = some t → ∃ t', s'.thread? x.uid = some t' ∧ t'.status = .boundary ∧ t'.core = pl.core ∧
        pl.quads[t.quad]? = some t'.quad ∧ t'.lane = t.lane ∧ t'.pc = t.pc ∧ t'.at_ = t.at_ ∧ ∀ i, i < t.allot → s'.rd t' i = SMap.getD x.regs Reg.zero i) ∧
  (∀ (s : State) (crew : Nat) (c : Crew), SMap.get? s.crews crew = some c → c.placed = true →
    (c.halted = false → exec (.debugHalt crew) s = .next { s with crews := SMap.put s.crews crew { c with halted := true } }) ∧
    (c.halted = true → exec (.debugContinue crew) s = .next { s with crews := SMap.put s.crews crew { c with halted := false } }))

/-- R262 to R264, R189, R190, R281, R285: a virtual device whose turn is over has its resident crews pre-empted, and once none is left gives way to the next of the round; VD_CONFIG answers with
its status and effective quantum; a walk of the wait-for table reports the greatest set of objects on which only its own
agents wait, once; counters latch at the end of their trigger's tick, or of the operating
system's own interval, with LATCHSEQ raised twice (how far the counters of log entry 26's DESIGN CHOICE have risen is free). -/
def Obligations.TurnsWalksCounters : Prop :=
  (∀ (s : State) (vd : Nat) (v : VDev), SMap.get? s.vdevs vd = some v → v.turn = true → SMap.rising s.crews = true → SMap.rising s.vdevs = true →
    let spent := v.start + 1000 * (max 1 v.weight * v.eq_) ≤ s.timebase ∨ s.vdReady vd = false
    (s.vdCrews vd ≠ [] → v.ending = false → spent → (∀ u c, SMap.get? s.crews u = some c → s.unit u = [u] ∧ c.preempt = .running) →
      ∃ s', exec (.vdTurnEnd vd) s = .next s' ∧ ({ s' with crews := s.crews, vdevs := s.vdevs } : State) = s ∧
        (∀ u, SMap.get? s'.crews u = (SMap.get? s.crews u).map fun c =>
          if c.placed && ((SMap.get? s.ctxs c.ctx).map (·.vd)) == some vd then c.asked (s.predlOf c) else c) ∧
        ∀ k, SMap.get? s'.vdevs k = if k = vd then some { v with ending := true } else SMap.get? s.vdevs k) ∧
    (s.vdCrews vd = [] → v.ending = true ∨ spent →
      ∃ s', exec (.vdTurnEnd vd) s = .next s' ∧ ({ s' with vdevs := s.vdevs } : State) = s ∧
        ∀ k, SMap.get? s'.vdevs k = (if k = vd then some { v with turn := false, ending := false } else SMap.get? s.vdevs k).map fun x =>
          if s.vdNext v.part vd = some k then x.begin s.timebase else x)) ∧
  (∀ (s : State) (w0 w1 w2 w3 : Word) (p : Partition), s.serves = true →
    let vd := w0.toNat / 256 % 64
    let part := w0.toNat % 8
    let legal := w0.toNat / 2 ^ 14 = 0 ∧ w0.toNat / 8 % 32 = 0 ∧ w1.toNat / 256 = 0 ∧ w3 = 0
    SMap.get? s.parts part = some p →
    (¬ legal → exec (.vdConfig w0 w1 w2 w3) s = .next { s with answer := [3] }) ∧
    (legal → SMap.get? s.vdevs vd = none → (s.vdevs.filter fun x => x.2.part == part && x.1 != vd).length < p.nvf →
      (w2 = 0 → exec (.vdConfig w0 w1 w2 w3) s = .next { s with answer := [1] }) ∧
      (w2 ≠ 0 →
        let q := if w2.toNat < p.wsave then 2 * p.wsave else w2.toNat
        exec (.vdConfig w0 w1 w2 w3) s = .next { s with vdevs := SMap.put s.vdevs vd ⟨part, w1.toNat % 256, w2.toNat, q, false, 0, false, none, (0, 0)⟩, answer := [0, q] })) ∧
    (∀ v, legal → SMap.get? s.vdevs vd = some v → v.part = part → w2 ≠ 0 →
      let q := if w2.toNat < p.wsave then 2 * p.wsave else w2.toNat
      exec (.vdConfig w0 w1 w2 w3) s = .next { s with
        vdevs := SMap.put s.vdevs vd (if v.turn then { v with next := some (w1.toNat % 256, w2.toNat, q) } else
          { v with weight := w1.toNat % 256, quantum := w2.toNat, eq_ := q }), answer := [0, q] })) ∧
  (∀ (i : Nat → Instr), i ∈ [Instr.waitForWalk, Instr.walkRequest] → ∀ (s : State) (ctx : Nat) (c : Context), SMap.get? s.ctxs ctx = some c → c.ended = false →
    (i = Instr.waitForWalk → c.walked + s.chip.walkEvery ≤ s.timebase) →
    ∃ s' c', exec (i ctx) s = .next s' ∧ SMap.get? s'.ctxs ctx = some c' ∧ (i = Instr.waitForWalk → c'.walked = s.timebase) ∧ s'.chip.walks = s.chip.walks + 1 ∧ s'.mem = s.mem ∧ s'.regs = s.regs ∧
      s'.threads = s.threads ∧
      let w := s.deadFix (s.waitedOn ctx).length (s.waitedOn ctx)
      (w = [] → c'.log = c.log ∧ c'.lastSets = []) ∧
      ∀ g, s.deadSets w w.length w = [g] →
        let entries := s.deadEntries ctx c g
        c'.lastSets = [entries.map (·.1)] ∧
        c'.log = if c.lastSets.contains (entries.map (·.1)) then c.log
          else c.log ++ [.entry s.timebase 10 1 ctx 0 0 0, .deadlock s.timebase ctx (s.chip.walks + 1) ((entries.take 4096).map (·.2))]) ∧
  (∀ (s : State) (w0 : List WaitObj),
    let w := s.deadFix w0.length w0
    let stuck := fun (x : List WaitObj) => ∀ o ∈ x, s.signallers o ≠ [] ∧ ∀ y ∈ s.signallers o, ∃ z ∈ x, s.sigObj y = some z
    stuck w ∧ (∀ o ∈ w, o ∈ w0) ∧ ∀ x, (∀ o ∈ x, o ∈ w0) → stuck x → ∀ o ∈ x, o ∈ w) ∧
  (∀ (s : State) (tick : Nat), s.serves = true → s.triggerAt = none → tick < 2 ^ 64 →
    (s.timebase + 10000 ≤ tick → exec (.counterTrigger tick) s = .next { s with triggerAt := some tick }) ∧
    (tick < s.timebase + 10000 → exec (.counterTrigger tick) s = .refused (.cannotOccur "COUNTER_TRIGGER"))) ∧
  (∀ (i : Instr) (s : State),
    (i = .counterLatch ∧ s.triggerAt = some s.timebase) ∨
      (i = .counterAutoTrigger ∧ s.serves = true ∧ s.chip.autoAt + s.chip.latchEvery ≤ s.timebase ∧ s.triggerAt ≠ some s.timebase ∧
        ∀ t, s.triggerAt = some t → s.timebase < t) →
    (s.ctxs.all fun e => e.2.binBase.isNone) = true →
    ∃ s', exec i s = .next s' ∧ s'.latchSeq = (s.latchSeq + 2) % 2 ^ 32 ∧ s'.latchStamp = s.timebase ∧ s'.timebase = (s.timebase + 1) % 2 ^ 64 ∧
      s'.triggerAt = (if i = .counterLatch then none else s.triggerAt) ∧ s'.mem = s.mem ∧ s'.regs = s.regs ∧
      ∀ k, k ∉ trafficKeys → SMap.getD s'.shadows 0 k = SMap.getD s.counters 0 k)

/-! ## The device and the host -/

/-- R257, R258, R267, R269, R270, R273, R274, R277: a host write stores its bytes in HBM at once, through the first context that
maps them with eartag 0 and its dirty bit (log entry 27, DESIGN CHOICE), and one of a virtual function within its window; an invalidation drops every
translation of the context that covers part of its range; a snapshot records and clears the dirty bits; an aperture entry is
set or cleared; a partition is formed as its entry says, refused, or deleted. -/
def Obligations.HostMemory : Prop :=
  (∀ (s : State) (part addr m : Nat) (data : List Byte) (p : Partition) (pw : Bool), s.serves = true → SMap.get? s.parts part = some p →
    p.target addr = some (.hbm m, pw) → data.length ≤ 16 - addr % 16 → addr + data.length ≤ 2 ^ 40 →
    ((∀ e ∈ s.ctxs, e.2.ended = true ∨ s.mapsOf e.2 m = []) → ∃ s', exec (.hostWrite part addr data none) s = .next s' ∧ s'.regs = s.regs ∧
      s'.hostMem = s.hostMem ∧
      ∀ k, SMap.getD s'.mem 0 k = if m ≤ k ∧ k < m + data.length then data.getD (k - m) 0 else SMap.getD s.mem 0 k) ∧
    ∀ cid c l1 l2 va leaf vs h, s.ctxs = l1 ++ (cid, c) :: l2 → (∀ e ∈ l1, e.2.ended = true ∨ s.mapsOf e.2 m = []) → c.ended = false →
      s.mapsOf c m = (va, leaf) :: vs → s.transDev c va = .hit h → data ≠ [] →
      exec (.hostWrite part addr data none) s = .next (s.performWrite cid va (.hbm m) data 0 h.tagAddr)) ∧
  (∀ (s : State) (part vd addr : Nat) (data : List Byte) (p : Partition) (v : VDev), s.serves = true → SMap.get? s.parts part = some p →
    SMap.get? s.vdevs vd = some v → v.part = part →
    (addr + data.length ≤ min v.window.2 (2 ^ 36) → v.window.1 + addr + data.length ≤ 2 ^ 40 →
      exec (.hostWrite part addr data (some vd)) s = exec (.hostWrite part (v.window.1 + addr) data none) s) ∧
    (min v.window.2 (2 ^ 36) < addr + data.length → exec (.hostWrite part addr data (some vd)) s = .refused (.cannotOccur "HOST_WRITE"))) ∧
  (∀ (s : State) (ctx lo hi : Nat), s.serves = true → ∃ s', exec (.invalidate ctx lo hi) s = .next s' ∧
    ({ s' with tlb1 := s.tlb1, lltlb := s.lltlb } : State) = s ∧
    ∀ k t, (t ∈ SMap.getD s'.tlb1 [] k ↔ t ∈ SMap.getD s.tlb1 [] k ∧ ¬ (t.ctx = ctx ∧ t.page < hi ∧ lo < t.page + t.size)) ∧
      (t ∈ SMap.getD s'.lltlb [] k ↔ t ∈ SMap.getD s.lltlb [] k ∧ ¬ (t.ctx = ctx ∧ t.page < hi ∧ lo < t.page + t.size))) ∧
  (∀ (s : State) (ctx : Nat) (c : Context), s.serves = true → SMap.get? s.ctxs ctx = some c → c.ended = false → c.dirty ≠ 0 → Memory.wf s.mem = true →
    ∃ s' n, exec (.snapshot ctx) s = .next s' ∧ (SMap.get? s'.ctxs ctx).map (·.snap) = some (some n) ∧ n.cow = n.bits ∧ n.copied = [] ∧
      ∀ unit h a, unit / 524288 < 8192 → s.transDev c (c.dirty + 65536 * (unit / 524288)) = .hit h → h.loc = .hbm a →
        (unit ∈ n.bits ↔ (SMap.getD s.mem 0 (a + unit / 8 % 65536)).getLsbD (unit % 8) = true) ∧ SMap.getD s'.mem 0 (a + unit / 8 % 65536) = 0) ∧
  (∀ (s : State) (part entry : Nat) (value : DWord) (p : Partition), s.serves = true → SMap.get? s.parts part = some p → entry < 16 →
    ∃ s' p', exec (.peerApertureGrant part entry value) s = .next s' ∧ SMap.get? s'.parts part = some p' ∧ s'.mem = s.mem ∧
      ∀ k, k < 16 → p'.aperture.getD k 0 = if k = entry then (if value.getLsbD 63 then value.toNat / 2 ^ 62 * 2 ^ 62 + value.toNat % 2 ^ 19 else 0) else p.aperture.getD k 0) ∧
  (∀ (s : State) (i wsave : Nat) (map : List DWord), s.serves = true → i < 8 → map.length = 8 → wsave < 2 ^ 32 →
    (s.holdsContext i = true → exec (.partitionConfig i map wsave) s = .next { s with answer := [1] }) ∧
    (s.holdsContext i = false → (∀ x ∈ map, x = 0) → ∃ s', exec (.partitionConfig i map wsave) s = .next s' ∧ s'.answer = [0] ∧ SMap.get? s'.parts i = none ∧
      s'.mem = s.mem ∧ (∀ k, k ≠ i → SMap.get? s'.parts k = SMap.get? s.parts k) ∧ (s'.vdevs.all fun v => v.2.part != i) = true) ∧
    (s.holdsContext i = false → (∃ x ∈ map, x ≠ 0) →
      let p := s.parsePart (map.map (·.toNat)) wsave
      (s.partBad i p = true → exec (.partitionConfig i map wsave) s = .next { s with answer := [1] }) ∧
      (s.partBad i p = false → ∃ s' p', exec (.partitionConfig i map wsave) s = .next s' ∧ s'.answer = [0] ∧ SMap.get? s'.parts i = some p' ∧
        s'.chip.boot = false ∧ s'.mem = s.mem ∧ p'.map = [(map.getD 0 0).toNat, (map.getD 1 0).toNat, (map.getD 2 0).toNat, (map.getD 3 0).toNat % 256] ∧
        p'.portmap = (map.getD 4 0).toNat % 2 ^ 48 ∧ p'.frames.length = (map.getD 6 0).toNat % 2 ^ 11 ∧ p'.nvf = (map.getD 6 0).toNat / 2 ^ 32 % 128 ∧
        p'.wsave = wsave ∧ (s.chip.boot = false → ∀ k, k ≠ i → SMap.get? s'.parts k = SMap.get? s.parts k))))

/-- R32, R250, R251, R258, R260, R261, R275 to R277, R279: power on forms the boot partition and starts the management cores, or
recovery, in MC0 alone, when the boot checks fail (the modes are log entry 62's); power off and a thermal trip lose everything but what the board keeps; the arithmetic clock falls by 100 MHz, and rises again up
to 3.6 GHz (the lowest clock and the way up are log entry 77's DESIGN CHOICE); cores and stacks join with their capability block updated; an uncorrectable error ends every context that owns the
pen. -/
def Obligations.Device : Prop :=
  (∀ s : State, s.chip.powered = false → ∃ s' p, exec .powerOn s = .next s' ∧ s'.chip.powered = true ∧ s'.chip.boot = true ∧ s'.chip.recovery = !s.chip.bootOk ∧
    s'.chip.mcMode = (if s.chip.bootOk then List.replicate 16 (some 1) else (List.replicate 16 none).set 0 (some 3)) ∧
    s'.parts = [(0, p)] ∧ s'.mem = s.mem ∧ p.nvf = 0 ∧ p.frames = List.range Config.frames ∧ ∀ k, k < 200 → (k ∈ p.cores ↔ s.chip.fusedOff.contains k = false)) ∧
  (∀ s : State, s.chip.powered = true →
    (∃ s', exec .powerOff s = .next s' ∧ s'.chip.powered = false ∧ s'.mem = [] ∧ s'.regs = [] ∧ s'.scr = [] ∧ s'.acc = [] ∧ s'.threads = [] ∧ s'.crews = [] ∧
      s'.ctxs = [] ∧ s'.parts = [] ∧ s'.hostMem = s.hostMem ∧ s'.chip.flash = s.chip.flash ∧ s'.chip.fusedOff = s.chip.fusedOff ∧ s'.chip.trips = s.chip.trips) ∧
    (∃ s', exec .thermalTrip s = .next s' ∧ s'.chip.powered = false ∧ s'.mem = [] ∧ s'.ctxs = [] ∧ s'.chip.flash = s.chip.flash ∧ s'.chip.trips = s.chip.trips + 1) ∧
    (∀ image, image.length ≤ 2 ^ 29 → exec (.flashCommand image) s = .next { s with chip := { s.chip with flash := image } }) ∧
    (∀ pen, exec (.eccCorrected pen) s = .next { s with chip := { s.chip with ecc := s.chip.ecc + 1 } }) ∧
    (100 < s.chip.mhz → exec (.governorStep true) s = .next { s with chip := { s.chip with mhz := s.chip.mhz - 100 } }) ∧
    (s.chip.mhz < 3600 → exec (.governorStep false) s = .next { s with chip := { s.chip with mhz := s.chip.mhz + 100 } }) ∧
    (3600 ≤ s.chip.mhz → exec (.governorStep false) s = .refused (.cannotOccur "GOVERNOR_STEP"))) ∧
  (∀ (s : State) (good bad : List Nat), s.serves = true → good ++ bad ≠ [] → (good ++ bad).length ≤ 16 → (good ++ bad).Nodup →
    (∀ c ∈ good ++ bad, c < 200 ∧ s.chip.fusedOff.contains c = false ∧ s.chip.released.contains c = false ∧ s.chip.failed.contains c = false) →
    ∃ s', exec (.coreBatchRelease good bad) s = .next s' ∧ s'.chip.released = s.chip.released ++ good ∧ s'.chip.failed = s.chip.failed ++ bad ∧ s'.mem = s.mem ∧
      ∀ k p, SMap.get? s.parts k = some p → SMap.get? s'.parts k = some (if p.cores.any (good ++ bad).contains then
        { p with seq := (p.seq + 2) % 2 ^ 32, raised := p.raised + 1 } else p)) ∧
  (∀ (s : State) (k : Nat), s.serves = true → k < 8 → s.chip.sst.length = 8 →
    (s.chip.sst.getD k 0 = 0 → ∃ s', exec (.stackJoin k) s = .next s' ∧ s'.chip.sst = s.chip.sst.set k 1) ∧
    (∀ good, s.chip.sst.getD k 0 = 1 → ∃ s', exec (.stackTrained k good) s = .next s' ∧ s'.chip.sst = s.chip.sst.set k (if good then 2 else 3) ∧
      ∀ j p, SMap.get? s.parts j = some p → SMap.get? s'.parts j = some (if p.stacksOf.contains k then
        { p with seq := (p.seq + 2) % 2 ^ 32, raised := p.raised + 1 } else p))) ∧
  (∀ (s : State) (pen : Pen) (o : Nat), s.chip.powered = true → s.penOwner pen = some o → SMap.rising s.ctxs = true →
    ∃ s', exec (.uncorrectableError pen) s = .next s' ∧ (∀ k c, SMap.get? s.ctxs k = some c → ∃ c', SMap.get? s'.ctxs k = some c' ∧
      c'.ended = (c.ended || o == 0 || k == o)) ∧ (s'.crews.all fun e => o != 0 && e.2.ctx != o || !(s.live e.2.ctx)) = true)

/-! ## Decoding and the step -/

/-- R306 to R312, R314 to R327: for every well-formed instruction that has words, the decoder reads it back from the encoder's
words, whatever words follow. -/
def Obligations.DecodeEncode : Prop :=
  ∀ (i : Instr) (rest : List Word), wellFormed i = true → encode i ≠ [] → decode (encode i ++ rest) = .ok (i, rest)

/-- R316 to R327 and the words the reference pages give: one or more words of nearly every major opcode decode to the instructions
they stand for, and a word that encodes nothing to none. -/
def Obligations.DecodeWords : Prop :=
  decodeTableWord 32 0x08808184 = some (.isub ⟨0, 2, 3, 4⟩) ∧ decodeTableWord 32 0x08408206 = some (.iadd ⟨2, 2, 4, 6⟩) ∧
  decodeTableWord 32 0x10818204 = some (.fmul ⟨6, 4, 4⟩) ∧ decodeTableWord 32 0x1B014218 = some (.fcvt ⟨false, 0, 5, 4, 3, 0⟩) ∧
  decodeTableWord 32 0x20700246 = some (.ffma ⟨7, 0, 9, 6⟩) ∧ decodeTableWord 32 0x28206105 = some (.imad ⟨2, 3, 4, 5⟩) ∧
  decodeTableWord 32 0x30206125 = some (.fma2 ⟨2, 3, 4, true, 5⟩) ∧ decodeTableWord 32 0x38206129 = some (.sel ⟨2, 3, 4, true, 1⟩) ∧
  decodeTableWord 32 0x38206105 = some (.bfi ⟨2, 3, 4, 5⟩) ∧ decodeTableWord 32 0x4070FFFF = some (.iaddi ⟨7, 7, 0x1FFF⟩) ∧
  decodeTableWord 32 0x61102010 = some (.icmpi ⟨2, 1, 1, 16⟩) ∧ decodeTableWord 32 0x687FFFFF = some (.movi ⟨7, 0xFFFFF⟩) ∧
  decodeTableWord 32 0x70300418 = some (.movhi ⟨3, 0x418⟩) ∧ decodeTableWord 32 0x7A079B00 = some (.ld ⟨32, 15, false, 3, 1, 0x100⟩) ∧
  decodeTableWord 32 0x80669A02 = some (.st ⟨6, 13, false, 3, 1, 2⟩) ∧ decodeTableWord 32 0x8A108190 = some (.stx ⟨4, 4, 6, 2, 0, false⟩) ∧
  decodeTableWord 32 0x8C088520 = some (.ldStrong ⟨2, 4, false, 2, 4, 0x20⟩) ∧ decodeTableWord 32 0x90084185 = some (.atom ⟨0, 0, 4, false, 4, 6, 5⟩) ∧
  decodeTableWord 32 0x99800005 = some (.bra ⟨1, true, 5⟩) ∧ decodeTableWord 32 0xA8C01400 = some (.callxF 40) ∧
  decodeTableWord 32 0xAB001234 = some (.trap 0x1234) ∧ decodeTableWord 32 0xB140C480 = some (.vote ⟨2, 3, true, 1⟩) ∧
  decodeTableWord 32 0xB900C482 = some (.pand ⟨3, true, 1, false, 2⟩) ∧ decodeTableWord 32 0xC01F2A20 = some (.barinit ⟨15, 0x4A, true, 32⟩) ∧
  decodeTableWord 32 0xC802D86A = some (.cpy ⟨false, 0, 11, 12, 3, 10⟩) ∧ decodeTableWord 32 0xD0A03C08 = some (.mma ⟨true, 32, 15, 8⟩) ∧
  decodeTableWord 32 0xD8600205 = some (.colfire ⟨true, 4, 5⟩) ∧ decodeTableWord 32 0xE0838280 = some (.mts 14 5) ∧
  decodeTableWord 32 0xE8808180 = some (.clz ⟨false, 2, 3⟩) ∧ decodeTableWord 32 0xFFFFFFFF = none

/-- R38, R312, R248: the oldest warp of a quadrant that does not wait, whose slot decodes, issues exactly that instruction; an
agent's step named in the agenda is that step; a word laid out at the fetch of the small machine after reset decodes and runs; and
after each the switch on faults of every context is tested. -/
def Obligations.StepRunsDecoded : Prop :=
  (∀ (s : State) (qk wk : Nat) (todo : List Move) (i : Instr) (ws : List Word) (e : Env), s.agenda = .issue qk :: todo → s.pickWarp qk = some wk →
    let s0 : State := { s with agenda := todo, cur := some wk }
    s0.env? = some e → e.crew.runs = true → decode e.w.slotWords = .ok (i, ws) → s0.hazard e i = false → step s = switched (exec i s0)) ∧
  (∀ (s : State) (qk wk : Nat), s.pickWarp qk = some wk → SMap.rising s.warps = true → ∃ w, SMap.get? s.warps wk = some w ∧ wk / 4 = qk ∧
    s.stalled.contains wk = false ∧ ∀ k v, SMap.get? s.warps k = some v → k / 4 = qk → s.stalled.contains k = false → s.warpAge wk w ≤ s.warpAge k v) ∧
  (∀ (s : State) (i : Instr) (todo : List Move), s.agenda = .act i :: todo →
    step s = switched (exec i { s with agenda := todo, cur := none, stalled := [] })) ∧
  (∀ (nbits w : Nat) (i : Instr), decodeTableWord nbits w = some i →
    step (State.reset.withFetchWord nbits w) = switched (exec i { State.reset.withFetchWord nbits w with agenda := [], cur := some 0 }))

/-- R24, R25 and log entries 1 and 2, DESIGN CHOICE: no step takes the memories, the registers, the scratchpads, the accumulators, the presence
counts or the counters out of their canonical form. -/
def Obligations.StepKeepsCanonical : Prop := ∀ s s' : State, s.wf = true → step s = .next s' → s'.wf = true

/-- R2, R32, R276, R277, R280 (and log entries 2 to 4, DESIGN CHOICE for what the spec leaves open): after reset nothing is powered, no core is
released, no counter counts, every memory is empty and in canonical form. -/
def Obligations.ResetState : Prop :=
  State.reset.wf = true ∧ State.reset.chip.powered = false ∧ State.reset.chip.released = [] ∧ State.reset.chip.mhz = 3600 ∧ State.reset.timebase = 0 ∧
    State.reset.counters = [] ∧ State.reset.latchSeq = 0 ∧ State.reset.mem = [] ∧ State.reset.threads = [] ∧ State.reset.ctxs = [] ∧
    (∀ k, SMap.getD State.reset.regs Reg.zero k = Reg.zero) ∧ ∀ k, State.reset.chip.width.getD k 0 = 0
end

