-- ==== Sys2Proof/Laws/SMap.lean ====
section
/-! SUPPORT. What reading a sparse map gives after each update, and that every update keeps the canonical form. -/

namespace Sys2Proof.Machine

variable {α : Type}

@[simp] theorem SMap.get?_nil (x : Nat) : SMap.get? ([] : SMap α) x = none := rfl

theorem SMap.get?_cons (k : Nat) (v : α) (m : SMap α) (x : Nat) :
    SMap.get? ((k, v) :: m) x = if x = k then some v else SMap.get? m x := rfl

@[simp] theorem SMap.get?_put_same (m : SMap α) (x : Nat) (a : α) : SMap.get? (SMap.put m x a) x = some a := by
  induction m with
  | nil => simp [SMap.put, SMap.get?]
  | cons e m ih =>
    obtain ⟨k, v⟩ := e
    by_cases h : x = k
    · simp [SMap.put, SMap.get?, h]
    · by_cases h' : x < k <;> simp [SMap.put, SMap.get?, h, h', ih]

theorem SMap.get?_put_ne (m : SMap α) {x y : Nat} (a : α) (h : y ≠ x) : SMap.get? (SMap.put m x a) y = SMap.get? m y := by
  induction m with
  | nil => simp [SMap.put, SMap.get?, h]
  | cons e m ih =>
    obtain ⟨k, v⟩ := e
    by_cases hx : x = k
    · subst hx; simp [SMap.put, SMap.get?, h]
    · by_cases h' : x < k
      · simp [SMap.put, SMap.get?, hx, h', h]
      · by_cases hy : y = k <;> simp [SMap.put, SMap.get?, hx, h', hy, ih]

theorem SMap.get?_put (m : SMap α) (x y : Nat) (a : α) :
    SMap.get? (SMap.put m x a) y = if y = x then some a else SMap.get? m y := by
  by_cases h : y = x
  · subst h; simp
  · simp [SMap.get?_put_ne m a h, h]

theorem SMap.get?_filter_key (m : SMap α) (p : Nat → Bool) (y : Nat) :
    SMap.get? (m.filter fun e => p e.1) y = if p y then SMap.get? m y else none := by
  induction m with
  | nil => simp
  | cons e m ih =>
    obtain ⟨k, v⟩ := e
    by_cases hk : p k = true <;> by_cases hy : y = k <;> simp_all [SMap.get?, List.filter]

theorem SMap.get?_del (m : SMap α) (x y : Nat) : SMap.get? (SMap.del m x) y = if y = x then none else SMap.get? m y := by
  by_cases h : y = x
  · subst h; simp [SMap.del, SMap.get?_filter_key m (fun k => k != y)]
  · simp [SMap.del, SMap.get?_filter_key m (fun k => k != x), h]

theorem SMap.getD_setD [DecidableEq α] (m : SMap α) (d : α) (x y : Nat) (a : α) :
    SMap.getD (SMap.setD m d x a) d y = if y = x then a else SMap.getD m d y := by
  by_cases ha : a = d <;> by_cases hy : y = x <;> simp [SMap.setD, SMap.getD, ha, hy, SMap.get?_del, SMap.get?_put]

@[simp] theorem SMap.getD_setD_same [DecidableEq α] (m : SMap α) (d : α) (x : Nat) (a : α) :
    SMap.getD (SMap.setD m d x a) d x = a := by simp [SMap.getD_setD]

theorem SMap.getD_setD_ne [DecidableEq α] (m : SMap α) (d : α) {x y : Nat} (a : α) (h : y ≠ x) :
    SMap.getD (SMap.setD m d x a) d y = SMap.getD m d y := by simp [SMap.getD_setD, h]

theorem SMap.getD_put (m : SMap α) (d : α) (x y : Nat) (a : α) :
    SMap.getD (SMap.put m x a) d y = if y = x then a else SMap.getD m d y := by
  by_cases h : y = x <;> simp [SMap.getD, SMap.get?_put, h]

/-- Reading through a map of the values. -/
theorem SMap.get?_map {β : Type} (m : SMap α) (f : Nat → α → β) (y : Nat) :
    SMap.get? (m.map fun e => (e.1, f e.1 e.2)) y = (SMap.get? m y).map (f y) := by
  induction m with
  | nil => rfl
  | cons e m ih =>
    obtain ⟨k, v⟩ := e
    by_cases h : y = k
    · subst h; simp [SMap.get?]
    · simpa [SMap.get?, h] using ih

theorem SMap.get?_mod (m : SMap α) (x y : Nat) (f : α → α) :
    SMap.get? (SMap.mod m x f) y = if y = x then (SMap.get? m y).map f else SMap.get? m y := by
  have h : SMap.mod m x f = m.map fun e => (e.1, (fun k v => if k = x then f v else v) e.1 e.2) := by
    unfold SMap.mod
    congr 1
    funext e
    by_cases h : e.1 = x <;> simp [h]
  rw [h, SMap.get?_map m (fun k v => if k = x then f v else v)]
  by_cases hy : y = x
  · simp [hy]
  · cases SMap.get? m y <;> simp [hy]

@[simp] theorem SMap.get?_mod_same (m : SMap α) (x : Nat) (f : α → α) :
    SMap.get? (SMap.mod m x f) x = (SMap.get? m x).map f := by simp [SMap.get?_mod]

theorem SMap.get?_mod_ne (m : SMap α) {x y : Nat} (f : α → α) (h : y ≠ x) :
    SMap.get? (SMap.mod m x f) y = SMap.get? m y := by simp [SMap.get?_mod, h]

/-- A change that a view does not show leaves the view as it is. -/
theorem SMap.map_mod {β : Type} (m : SMap α) (x : Nat) (f : α → α) (g : α → β) (h : ∀ a, g (f a) = g a) :
    ((SMap.mod m x f).map fun e => (e.1, g e.2)) = m.map fun e => (e.1, g e.2) := by
  simp only [SMap.mod, List.map_map]
  congr 1
  funext e
  by_cases he : e.1 = x <;> simp [he, h]

/-- A view of a change is the change of the view. -/
theorem SMap.map_mod_comm {β : Type} (m : SMap α) (x : Nat) (f : α → α) (g : α → β) (f' : β → β)
    (h : ∀ a, g (f a) = f' (g a)) :
    ((SMap.mod m x f).map fun e => (e.1, g e.2)) = SMap.mod (m.map fun e => (e.1, g e.2)) x f' := by
  simp only [SMap.mod, List.map_map]
  congr 1
  funext e
  by_cases he : e.1 = x <;> simp [he, h]

/-! ## The canonical form -/

theorem SMap.risingFrom_mono {lo lo' : Nat} (h : lo ≤ lo') : ∀ (m : SMap α), SMap.risingFrom lo' m = true → SMap.risingFrom lo m = true
  | [], _ => rfl
  | (k, v) :: m, hm => by
    simp only [SMap.risingFrom, Bool.and_eq_true, decide_eq_true_eq] at hm ⊢
    exact ⟨by omega, hm.2⟩

theorem SMap.risingFrom_put (x : Nat) (a : α) : ∀ (m : SMap α) (lo : Nat), lo ≤ x → SMap.risingFrom lo m = true →
    SMap.risingFrom lo (SMap.put m x a) = true
  | [], lo, hx, _ => by simpa [SMap.put, SMap.risingFrom] using hx
  | (k, v) :: m, lo, hx, hm => by
    simp only [SMap.risingFrom, Bool.and_eq_true, decide_eq_true_eq] at hm
    by_cases h : x = k
    · subst h; simp [SMap.put, SMap.risingFrom, hm]
    · by_cases h' : x < k
      · simp only [SMap.put, h, h', if_true, if_false, SMap.risingFrom, Bool.and_eq_true, decide_eq_true_eq]
        exact ⟨hx, by omega, hm.2⟩
      · simp only [SMap.put, h, h', if_false, SMap.risingFrom, Bool.and_eq_true, decide_eq_true_eq]
        exact ⟨hm.1, SMap.risingFrom_put x a m (k + 1) (by omega) hm.2⟩

theorem SMap.risingFrom_filter (p : Nat × α → Bool) : ∀ (m : SMap α) (lo : Nat), SMap.risingFrom lo m = true →
    SMap.risingFrom lo (m.filter p) = true
  | [], _, _ => rfl
  | (k, v) :: m, lo, hm => by
    simp only [SMap.risingFrom, Bool.and_eq_true, decide_eq_true_eq] at hm
    by_cases h : p (k, v) = true
    · simp only [List.filter, h, SMap.risingFrom, Bool.and_eq_true, decide_eq_true_eq]
      exact ⟨hm.1, SMap.risingFrom_filter p m (k + 1) hm.2⟩
    · simp only [List.filter, h]
      exact SMap.risingFrom_mono (by omega) _ (SMap.risingFrom_filter p m (k + 1) hm.2)

theorem SMap.mem_put {m : SMap α} {x : Nat} {a : α} {e : Nat × α} : e ∈ SMap.put m x a → e = (x, a) ∨ e ∈ m := by
  induction m with
  | nil => simp [SMap.put]
  | cons c m ih =>
    obtain ⟨k, v⟩ := c
    by_cases h : x = k
    · subst h; simp only [SMap.put, if_true, List.mem_cons]; tauto
    · by_cases h' : x < k
      · simp only [SMap.put, h, h', if_true, if_false, List.mem_cons]; tauto
      · simp only [SMap.put, h, h', if_false, List.mem_cons]
        rintro (rfl | hm)
        · tauto
        · rcases ih hm with h1 | h1 <;> tauto

/-- A write keeps the canonical form: keys strictly rising, the default unlisted. -/
theorem SMap.wf_setD [DecidableEq α] {m : SMap α} {d : α} (x : Nat) (a : α) (h : SMap.wf d m = true) :
    SMap.wf d (SMap.setD m d x a) = true := by
  simp only [SMap.wf, Bool.and_eq_true, List.all_eq_true, bne_iff_ne] at h ⊢
  by_cases ha : a = d
  · simp only [SMap.setD, ha, if_true]
    exact ⟨SMap.risingFrom_filter _ m 0 h.1, fun e he => h.2 e (List.mem_of_mem_filter he)⟩
  · simp only [SMap.setD, ha, if_false]
    refine ⟨SMap.risingFrom_put x a m 0 (Nat.zero_le _) h.1, fun e he => ?_⟩
    rcases SMap.mem_put he with rfl | he
    · exact ha
    · exact h.2 e he

/-- A choice of entries keeps the canonical form. -/
theorem SMap.wf_filter [DecidableEq α] {m : SMap α} {d : α} (p : Nat × α → Bool) (h : SMap.wf d m = true) :
    SMap.wf d (m.filter p) = true := by
  simp only [SMap.wf, Bool.and_eq_true, List.all_eq_true] at h ⊢
  exact ⟨SMap.risingFrom_filter p m 0 h.1, fun e he => h.2 e (List.mem_of_mem_filter he)⟩

end Sys2Proof.Machine
end

