-- ==== Sys2Proof/Laws/Slot.lean ====
section
/-! SUPPORT. What beginning, passing and closing a slot change (R38, R283, R284, R329), and what running a slot comes to
when every active lane is done. -/

namespace Sys2Proof.Machine

/-! ## Views of a thread and of the machine -/

/-- A thread without what counting a slot and passing it change: its place is kept. -/
def Thread.base (t : Thread) : Thread :=
  { t with
    wait := none, timer := none, timedOut := false, held := none, wdog := 0
    levels := t.levels.map Level.still, region := t.region.map Region.still }

/-- The machine without what counting and passing a slot change. -/
def State.base (s : State) : State :=
  { s with
    threads := s.threads.map fun e => (e.1, e.2.base)
    ctxs := s.ctxs.map fun e => (e.1, e.2.still)
    warps := [], counters := [], stalled := [] }

@[simp] theorem Level.still_still (l : Level) : l.still.still = l.still := rfl
@[simp] theorem Region.still_still (r : Region) : r.still.still = r.still := rfl

theorem Thread.base_still (t : Thread) : t.base.still = t.still := by
  cases t with
  | mk => simp [Thread.base, Thread.still, Function.comp_def]

theorem State.base_still (s : State) : s.base.still = s.still := by
  simp [State.base, State.still, List.map_map, Function.comp_def, Thread.base_still, Context.still]

theorem State.still_of_base {s s1 : State} (h : s1.base = s.base) : s1.still = s.still := by
  rw [← s1.base_still, ← s.base_still, h]

@[simp] theorem State.base_regs (s : State) : s.base.regs = s.regs := rfl
@[simp] theorem State.still_regs (s : State) : s.still.regs = s.regs := rfl

theorem State.regs_of_base {s s1 : State} (h : s1.base = s.base) : s1.regs = s.regs := by
  have := congrArg State.regs h; exact this
theorem State.regs_of_still {s s1 : State} (h : s1.still = s.still) : s1.regs = s.regs := by
  have := congrArg State.regs h; exact this

theorem State.base_thread (s : State) (u : Nat) : s.base.thread? u = (s.thread? u).map Thread.base :=
  SMap.get?_map s.threads (fun _ t => t.base) u

theorem State.still_thread (s : State) (u : Nat) : s.still.thread? u = (s.thread? u).map Thread.still :=
  SMap.get?_map s.threads (fun _ t => t.still) u

theorem State.thread_of_base {s s1 : State} (h : s1.base.threads = s.base.threads) (u : Nat) :
    (s1.thread? u).map Thread.base = (s.thread? u).map Thread.base := by
  have := congrArg (fun m => SMap.get? m u) h
  simpa [State.base, SMap.get?_map _ (fun _ t => Thread.base t), State.thread?] using this

/-! ## Single updates -/

theorem State.modThread_thread (s : State) (u v : Nat) (f : Thread → Thread) :
    (s.modThread u f).thread? v = if v = u then (s.thread? v).map f else s.thread? v := SMap.get?_mod _ _ _ _

@[simp] theorem State.modThread_thread_same (s : State) (u : Nat) (f : Thread → Thread) :
    (s.modThread u f).thread? u = (s.thread? u).map f := by simp [State.modThread_thread]

theorem State.modThread_base (s : State) (u : Nat) (f : Thread → Thread) (h : ∀ t, (f t).base = t.base) :
    (s.modThread u f).base = s.base := by
  simp [State.base, State.modThread, SMap.map_mod _ _ _ Thread.base h]

theorem State.modThread_still (s : State) (u : Nat) (f : Thread → Thread) (h : ∀ t, (f t).still = t.still) :
    (s.modThread u f).still = s.still := by
  simp [State.still, State.modThread, SMap.map_mod _ _ _ Thread.still h]

@[simp] theorem State.count_base (s : State) (k n : Nat) : (s.count k n).base = s.base := rfl
@[simp] theorem State.count_warps (s : State) (k n : Nat) : (s.count k n).warps = s.warps := rfl

theorem Context.bin_still (c : Context) (m : List Host.Cell) (pc cls n : Nat) : (c.bin m pc cls n).still = c.still := by
  unfold Context.bin
  split
  · rfl
  · dsimp only
    split <;> rfl

@[simp] theorem State.lanes_base (s : State) (qk cid pc cls n : Nat) : (s.lanes qk cid pc cls n).base = s.base := by
  unfold State.lanes
  split
  · rfl
  · simp [State.base, State.count, SMap.map_mod _ _ _ Context.still (fun c => Context.bin_still c s.mem pc cls n)]

@[simp] theorem State.lanes_warps (s : State) (qk cid pc cls n : Nat) : (s.lanes qk cid pc cls n).warps = s.warps := by
  unfold State.lanes
  split <;> rfl

theorem List.map_modify_of_eq {α β : Type} (g : α → β) (f : α → α) (h : ∀ a, g (f a) = g a) (l : List α) (i : Nat) :
    (l.modify i f).map g = l.map g := by
  induction l generalizing i with
  | nil => simp
  | cons a l ih => cases i <;> simp [h, ih]

theorem State.pendActive_base (s : State) (u pc n : Nat) : (s.pendActive u pc n).base = s.base := by
  unfold State.pendActive
  split
  · apply State.modThread_base
    intro t
    simp only [Thread.base]
    congr 1
    apply List.map_modify_of_eq
    intro v
    rfl
  · apply State.modThread_base
    intro t
    cases h : t.region <;> simp [Thread.base, h, Region.still]

@[simp] theorem State.pendActive_warps (s : State) (u pc n : Nat) : (s.pendActive u pc n).warps = s.warps := by
  unfold State.pendActive
  split <;> rfl

theorem foldl_keep {σ α β : Type} (v : σ → β) (f : σ → α → σ) (h : ∀ s a, v (f s a) = v s) (l : List α) (s : σ) :
    v (l.foldl f s) = v s := by
  induction l generalizing s with
  | nil => rfl
  | cons a l ih => simp [ih, h]

theorem State.countSlot_base (s : State) (e : Env) : (s.countSlot e).base = s.base := by
  unfold State.countSlot
  dsimp only
  have h : ∀ (l : List (Nat × Thread)) (s1 : State),
      (l.foldl (fun (s : State) x => s.pendActive x.1 e.ipc 1) s1).base = s1.base :=
    fun l s1 => foldl_keep State.base _ (fun s x => State.pendActive_base s x.1 e.ipc 1) l s1
  have h2 : ∀ (s1 : State) (p : Nat → Bool),
      ({ s1 with threads := s1.threads.map fun (x : Nat × Thread) => if p x.1 then (x.1, { x.2 with wdog := x.2.wdog + 1 }) else x }).base = s1.base := by
    intro s1 p
    simp only [State.base, List.map_map]
    congr 1
    apply List.map_congr_left
    intro x _
    by_cases hp : p x.1 <;> simp [hp, Thread.base]
  split
  · simp [h]
  · rw [h2 _ (fun u => e.w.members.contains u)]
    simp [h]

theorem State.countSlot_warps (s : State) (e : Env) : (s.countSlot e).warps = s.warps := by
  unfold State.countSlot
  dsimp only
  have h : ∀ (l : List (Nat × Thread)) (s1 : State),
      (l.foldl (fun (s : State) x => s.pendActive x.1 e.ipc 1) s1).warps = s1.warps :=
    fun l s1 => foldl_keep State.warps _ (fun s x => State.pendActive_warps s x.1 e.ipc 1) l s1
  split <;> simp [h]

/-! ## Where the warp stands -/

/-- The warp of the slot is as at its beginning but for the members that have passed it, `done` among them. -/
def WarpAt (e : Env) (s1 : State) (done : Nat → Prop) : Prop :=
  ∃ w1, SMap.get? s1.warps e.wk = some w1 ∧ w1 = { e.w with arrived := w1.arrived, issued := w1.issued } ∧
    ∀ u ∈ e.w.members, done u → u ∈ w1.arrived

theorem State.env_wk {s : State} {e : Env} (h : s.env? = some e) :
    SMap.get? s.warps e.wk = some e.w ∧ s.cur = some e.wk := by
  unfold State.env? at h
  split at h
  · cases h
  · rename_i wk hc
    split at h
    · cases h
    · rename_i w hw
      split at h
      · cases h
      · split at h
        · cases h
        · split at h
          · cases h
          · split at h
            · cases h; exact ⟨hw, hc⟩
            · cases h

theorem State.port_env {s : State} {e : Env} (h : s.port e = true) : s.env? = some e := by
  simp only [State.port, Bool.and_eq_true, beq_iff_eq] at h
  exact h.1.1

theorem State.port_member {s : State} {e : Env} (h : s.port e = true) {u : Nat} (hu : u ∈ e.w.members) :
    ∃ t, s.thread? u = some t ∧ t.status = .inWarp ∧ t.core = e.core ∧ t.quad = e.quad ∧ t.lane < 32 ∧
      t.rbase + t.allot ≤ 2048 := by
  simp only [State.port, Bool.and_eq_true, List.all_eq_true, Option.any_eq_true] at h
  obtain ⟨t, ht, hm⟩ := h.1.2 u hu
  simp only [Thread.memberOf, Bool.and_eq_true, beq_iff_eq, decide_eq_true_eq] at hm
  exact ⟨t, ht, hm.1.1.1.1.1, hm.1.1.1.1.2, hm.1.1.1.2, hm.1.1.2, hm.1.2⟩

theorem State.port_lanes {s : State} {e : Env} (h : s.port e = true) : (e.w.members.map s.laneOf).Nodup := by
  simp only [State.port, Bool.and_eq_true, decide_eq_true_eq] at h
  exact h.2.imp fun hab => Nat.ne_of_lt hab

theorem State.port_lane {s : State} {e : Env} (h : s.port e = true) {u v : Nat} {t t' : Thread} (hu : u ∈ e.w.members)
    (hv : v ∈ e.w.members) (ht : s.thread? u = some t) (ht' : s.thread? v = some t') (hl : t.lane = t'.lane) : u = v := by
  exact List.inj_on_of_nodup_map (State.port_lanes h) hu hv (by simp [State.laneOf, ht, ht', hl])

theorem State.active_member {s : State} {e : Env} {u : Nat} (h : u ∈ s.active e) : u ∈ e.w.members :=
  (List.mem_filter.1 h).1

theorem State.port_nodup {s : State} {e : Env} (h : s.port e = true) : (s.active e).Nodup := by
  exact (List.Nodup.of_map _ (State.port_lanes h)).filter _

theorem State.passInactive_base (s : State) (e : Env) : (s.passInactive e).base = s.base :=
  foldl_keep State.base (fun (s : State) u => { s with warps := SMap.mod s.warps e.wk fun w => { w with arrived := u :: w.arrived } })
    (fun _ _ => rfl) _ _

theorem State.begin_base (s : State) (e : Env) : (s.begin e).base = s.base := by
  unfold State.begin
  rw [State.passInactive_base]
  split
  · rfl
  · exact s.countSlot_base e

@[simp] theorem Thread.base_preds (t : Thread) : t.base.preds = t.preds := rfl

theorem Warp.guard_base (w : Warp) (t : Thread) : w.guard t.base = w.guard t := rfl

theorem guard_of_base {s s1 : State} {e : Env} (h : s1.base.threads = s.base.threads) (u : Nat) :
    (match s1.thread? u with | some t => e.w.guard t | none => false) =
      (match s.thread? u with | some t => e.w.guard t | none => false) := by
  have := State.thread_of_base h u
  cases h1 : s1.thread? u <;> cases h2 : s.thread? u <;> simp_all
  rw [← Warp.guard_base, this, Warp.guard_base]

/-- Arriving puts a thread among those that have passed the slot. -/
theorem foldl_arrived (wk : Nat) (us : List Nat) : ∀ (s : State) (w : Warp), SMap.get? s.warps wk = some w →
    ∃ w1, SMap.get? (us.foldl (fun (s : State) u =>
        { s with warps := SMap.mod s.warps wk fun w => { w with arrived := u :: w.arrived } }) s).warps wk = some w1 ∧
      w1 = { w with arrived := w1.arrived } ∧ (∀ u, u ∈ w.arrived ∨ u ∈ us → u ∈ w1.arrived) := by
  induction us with
  | nil => intro s w h; exact ⟨w, h, rfl, by simp⟩
  | cons a us ih =>
    intro s w h
    obtain ⟨w1, h1, h2, h3⟩ := ih { s with warps := SMap.mod s.warps wk fun w => { w with arrived := a :: w.arrived } }
      { w with arrived := a :: w.arrived } (by simp [h])
    refine ⟨w1, h1, h2, fun u hu => h3 u ?_⟩
    simp only [List.mem_cons] at hu ⊢
    tauto

theorem State.begin_warp {s : State} {e : Env} (h : s.port e = true) :
    WarpAt e (s.begin e) (fun u => u ∉ s.active e) := by
  have he := State.port_env h
  have hw := (State.env_wk he).1
  unfold State.begin
  set s0 : State := if e.w.issued then s else s.countSlot e with hs0
  have hb : s0.base = s.base := by
    rw [hs0]; split
    · rfl
    · exact s.countSlot_base e
  have hw0 : SMap.get? s0.warps e.wk = some e.w := by
    rw [hs0]; split
    · exact hw
    · rw [State.countSlot_warps]; exact hw
  obtain ⟨w1, h1, h2, h3⟩ := foldl_arrived e.wk
    (e.w.members.filter fun u => !e.w.arrived.contains u && (match s0.thread? u with | some t => !e.w.guard t | none => true))
    s0 e.w hw0
  refine ⟨w1, h1, ?_, fun u hu hn => h3 u ?_⟩
  · rw [h2]
  · by_cases ha : u ∈ e.w.arrived
    · exact Or.inl ha
    · right
      have hg := guard_of_base (e := e) (congrArg State.threads hb) u
      simp only [State.active, List.mem_filter, not_and, Bool.and_eq_true] at hn
      simp only [List.mem_filter, Bool.and_eq_true]
      refine ⟨hu, by simpa using ha, ?_⟩
      have := hn hu
      obtain ⟨t, ht, _⟩ := State.port_member h hu
      cases h0 : s0.thread? u with
      | none => simp
      | some t0 =>
        simp only [h0, ht] at hg ⊢
        simp only [ht] at this
        simp only [hg]
        simpa [ha] using this

theorem State.arrive_warp {e : Env} {s : State} {d d' : Nat → Prop} {u : Nat} (h : WarpAt e s d)
    (hd : ∀ v, d' v → d v ∨ v = u) : WarpAt e (s.arrive e.wk u) d' := by
  obtain ⟨w1, h1, h2, h3⟩ := h
  refine ⟨{ w1 with arrived := u :: w1.arrived }, by simp [State.arrive, h1], by rw [h2], fun v hv hdv => ?_⟩
  rcases hd v hdv with h | rfl
  · exact List.mem_cons_of_mem _ (h3 v hv h)
  · exact List.mem_cons_self

theorem State.arrive_base (s : State) (wk u : Nat) : (s.arrive wk u).base = s.base := by
  have := State.modThread_base s u (fun t => { t with wait := none, timer := none, timedOut := false, held := none }) (fun _ => rfl)
  simpa [State.arrive, State.base, State.modThread] using this

@[simp] theorem State.arrive_regs (s : State) (wk u : Nat) : (s.arrive wk u).regs = s.regs := rfl

/-! ## Running a slot whose active lanes are all done -/

@[simp] theorem State.pagesFor_same {s s' : State} (h : s'.records = s.records) : s.pagesFor s' = [] := by
  simp only [State.pagesFor, h, List.filter_eq_nil_iff]
  intro r hr
  simp [hr]

/-- A lane that is done and waits for no page is done. -/
theorem LaneRes.await_done {s s' : State} (h : s.pagesFor s' = []) : (LaneRes.done s').await s = .done s' := by
  simp [LaneRes.await, h]

theorem applyRes_done (e : Env) (u : Nat) (acc : State × List (Nat × Trap)) (s2 : State) :
    State.applyRes e u acc (.done s2) = (s2.arrive e.wk u, acc.2) := rfl

/-- What stands before `u` in a list and is kept by a filter stands before `u` in what is kept. -/
theorem mem_before {p : Nat → Bool} {u v : Nat} {post : List Nat} : ∀ (l pre : List Nat), l.filter p = pre ++ u :: post →
    v ∈ l.takeWhile (· != u) → p v = true → v ∈ pre := by
  intro l
  induction l with
  | nil => intro pre h; simp at h
  | cons a l ih =>
    intro pre h hv hp
    have hau : a ≠ u := by
      rintro rfl
      simp at hv
    rw [List.takeWhile_cons_of_pos (by simpa using hau)] at hv
    by_cases ha : p a = true
    · rw [List.filter_cons_of_pos ha] at h
      cases pre with
      | nil => simp only [List.nil_append, List.cons.injEq] at h; exact absurd h.1 hau
      | cons b pre =>
        simp only [List.cons_append, List.cons.injEq] at h
        rcases List.mem_cons.1 hv with rfl | hv
        · simp [h.1]
        · exact List.mem_cons_of_mem _ (ih pre h.2 hv hp)
    · rw [List.filter_cons_of_neg ha] at h
      rcases List.mem_cons.1 hv with rfl | hv
      · exact absurd hp ha
      · exact ih pre h hv hp

/-- With every lane before it past the slot, no lane is held (R230). -/
theorem heldBefore_false {s s1 : State} {e : Env} {k : Chk} {tr : List (Nat × Trap)} {u : Nat} {pre post : List Nat}
    (h : s.active e = pre ++ u :: post) (hW : WarpAt e s1 fun v => v ∉ s.active e ∨ v ∈ pre) : s1.heldBefore e k tr u = false := by
  obtain ⟨w1, h1, h2, h3⟩ := hW
  have hm : w1.members = e.w.members := by rw [h2]
  simp only [State.heldBefore, h1, List.any_eq_false, hm]
  intro v hv
  have hvm : v ∈ e.w.members := List.takeWhile_subset _ hv
  have : v ∈ w1.arrived := by
    refine h3 v hvm ?_
    by_cases ha : v ∈ s.active e
    · exact .inr (mem_before e.w.members pre h hv (List.mem_filter.1 ha).2)
    · exact .inl ha
  simp [this]

/-- A sweep over lanes each of which is done, by an invariant of the lanes passed. -/
theorem sweep_done {e : Env} {k : Chk} {f : State → Nat → Thread → LaneRes} (I : List Nat → State → Prop) (all : List Nat)
    (hstep : ∀ pre u post s1, all = pre ++ u :: post → I pre s1 →
      ∃ t1 s2, s1.thread? u = some t1 ∧ t1.status = .inWarp ∧ (k.stall && t1.spec) = false ∧ s1.check e k t1 = none ∧
        s1.heldBefore e k [] u = false ∧ f s1 u t1 = .done s2 ∧ s1.pagesFor s2 = [] ∧ I (pre ++ [u]) (s2.arrive e.wk u)) :
    ∀ post pre s1, all = pre ++ post → I pre s1 →
      ∃ s2, post.foldl (runLane e k f) (s1, []) = (s2, []) ∧ I all s2 := by
  intro post
  induction post with
  | nil => intro pre s1 h hI; exact ⟨s1, rfl, by simpa [h] using hI⟩
  | cons u post ih =>
    intro pre s1 h hI
    obtain ⟨t1, s2, ht, hst, hsp, hc, hh, hf, hrec, hI'⟩ := hstep pre u post s1 h hI
    obtain ⟨s3, h3, hI3⟩ := ih (pre ++ [u]) (s2.arrive e.wk u) (by simp [h]) hI'
    refine ⟨s3, ?_, hI3⟩
    have : runLane e k f (s1, []) u = (s2.arrive e.wk u, []) := by
      simp [runLane, ht, hst, hsp, hc, hh, hf, LaneRes.await_done hrec, applyRes_done]
    simpa [List.foldl_cons, this] using h3

/-- Running a slot: with every active lane done the slot closes with the invariant of all lanes. -/
theorem runSlot_done {s : State} {e : Env} {n : Nat} {k : Chk} {f : State → Nat → Thread → LaneRes} (hp : s.port e = true)
    (I : List Nat → State → Prop) (h0 : I [] (s.begin e))
    (hstep : ∀ pre u post s1, s.active e = pre ++ u :: post → I pre s1 →
      ∃ t1 s2, s1.thread? u = some t1 ∧ t1.status = .inWarp ∧ (k.stall && t1.spec) = false ∧ s1.check e k t1 = none ∧
        f s1 u t1 = .done s2 ∧ s1.pagesFor s2 = [] ∧ s2.warps = s1.warps ∧ I (pre ++ [u]) (s2.arrive e.wk u)) :
    ∃ s1, I (s.active e) s1 ∧ WarpAt e s1 (fun _ => True) ∧ s.runSlot e n k f = s1.closeSlot e.wk n := by
  obtain ⟨s1, h1, hI, hW⟩ := sweep_done (e := e) (k := k) (f := f)
    (fun pre s1 => I pre s1 ∧ WarpAt e s1 fun u => u ∉ s.active e ∨ u ∈ pre) (s.active e)
    (by
      rintro pre u post s1 h ⟨hI, hW⟩
      obtain ⟨t1, s2, ht, hst, hsp, hc, hf, hrec, hw, hI'⟩ := hstep pre u post s1 h hI
      refine ⟨t1, s2, ht, hst, hsp, hc, heldBefore_false h hW, hf, hrec, hI', State.arrive_warp (d := fun u => u ∉ s.active e ∨ u ∈ pre) ?_ ?_⟩
      · obtain ⟨w1, a, b⟩ := hW; exact ⟨w1, by rw [hw]; exact a, b⟩
      · intro v hv
        simp only [List.mem_append, List.mem_singleton] at hv
        tauto)
    (s.active e) [] (s.begin e) (by simp) ⟨h0, by
      obtain ⟨w1, a, b, c⟩ := State.begin_warp hp
      exact ⟨w1, a, b, fun u hu hd => c u hu (by simpa using hd)⟩⟩
  refine ⟨s1, hI, ?_, ?_⟩
  · obtain ⟨w1, a, b, c⟩ := hW
    exact ⟨w1, a, b, fun u hu _ => c u hu (by tauto)⟩
  · simp [State.runSlot, h1, State.finish, State.takeTraps]

/-! ## Closing the slot -/

theorem standAt_still (t : Thread) (pc slot : Nat) (a b : Bool) : (t.standAt pc slot a b).still = t.still := rfl

theorem State.closeSlot_still (s : State) (wk n : Nat) : (s.closeSlot wk n).still = s.still := by
  unfold State.closeSlot
  split
  · rfl
  · split
    · split
      · rfl
      · exact foldl_keep State.still _ (fun s u => State.modThread_still s u _ fun t => standAt_still t _ _ _ _) _ _
    · rfl

theorem foldl_standAt (us : List Nat) (pc : Nat) (b : Bool) : ∀ (s : State) (u : Nat),
    (us.foldl (fun (s : State) u => s.modThread u fun t => t.standAt pc 0 true b) s).thread? u =
      if u ∈ us then (s.thread? u).map fun t => t.standAt pc 0 true b else s.thread? u := by
  induction us with
  | nil => simp
  | cons a us ih =>
    intro s u
    rw [List.foldl_cons, ih]
    by_cases h : u = a <;> by_cases h' : u ∈ us <;> simp [h, h', State.modThread_thread] <;>
      cases s.thread? a <;> simp [Thread.standAt]

theorem foldl_modThread_warps (us : List Nat) (f : Thread → Thread) (s : State) :
    (us.foldl (fun (s : State) u => s.modThread u f) s).warps = s.warps :=
  foldl_keep State.warps (fun (s : State) u => s.modThread u f) (fun _ _ => rfl) _ _

/-- A slot all of whose members have passed is passed. -/
theorem closeSlot_passed {s1 : State} {e : Env} {n : Nat} (hW : WarpAt e s1 fun _ => True)
    (hm : ∀ u ∈ e.w.members, ∃ t, s1.thread? u = some t) : (s1.closeSlot e.wk n).passed e n := by
  obtain ⟨w1, h1, h2, h3⟩ := hW
  have hall : w1.members.all w1.arrived.contains = true := by
    rw [List.all_eq_true]; intro u hu
    have : w1.members = e.w.members := by rw [h2]
    simpa using h3 u (this ▸ hu) trivial
  have hc : w1.count = e.w.count := by rw [h2]; rfl
  have hs : w1.slot = e.w.slot := by rw [h2]
  have hpc : w1.pc = e.w.pc := by rw [h2]
  have hme : w1.members = e.w.members := by rw [h2]
  unfold State.passed State.closeSlot
  simp only [h1, hall, if_true, hc, hs]
  split
  · simp only [SMap.get?_put_same, Option.some.injEq]
    rw [h2]
  · refine ⟨by simp [SMap.get?_del], fun u hu => ?_⟩
    obtain ⟨t, ht⟩ := hm u hu
    refine ⟨t.standAt (w1.pc + 64) 0 true w1.hint, ?_, rfl, by simp [Thread.standAt, hpc], rfl⟩
    have := foldl_standAt w1.members (w1.pc + 64) w1.hint s1 u
    rw [if_pos (hme ▸ hu), ht] at this
    exact this

end Sys2Proof.Machine
end

