-- ==== Sys2Proof/Laws/Lanes.lean ====
section
/-! SUPPORT. What a slot comes to when every active lane only writes registers, or only changes its own thread. -/

namespace Sys2Proof.Machine

/-! ## Registers of lanes -/

theorem State.reg_base (s : State) (t : Thread) (v : Nat) : s.reg t.base v = s.reg t v := rfl

theorem reg_of_base {s : State} {t t1 : Thread} (h : t1.base = t.base) (v : Nat) : s.reg t1 v = s.reg t v := by
  rw [← s.reg_base t1, h, s.reg_base]

theorem key_of_base {t t1 : Thread} (h : t1.base = t.base) (a : Nat) : t1.key a = t.key a := by
  have : t1.base.key a = t.base.key a := by rw [h]
  exact this

theorem allot_of_base {t t1 : Thread} (h : t1.base = t.base) : t1.allot = t.allot := by
  have := congrArg Thread.allot h; exact this
theorem wbase_of_base {t t1 : Thread} (h : t1.base = t.base) : t1.wbase = t.wbase := by
  have := congrArg Thread.wbase h; exact this
theorem span_of_base {t t1 : Thread} (h : t1.base = t.base) (c : Context) : c.span t1 = c.span t := by
  have : c.span t1.base = c.span t.base := by rw [h]
  exact this
theorem anom_of_base {t t1 : Thread} (h : t1.base = t.base) : t1.anom = t.anom := by
  have := congrArg Thread.anom h; exact this
theorem preds_of_base {t t1 : Thread} (h : t1.base = t.base) : t1.preds = t.preds := by
  have := congrArg Thread.preds h; exact this
theorem status_of_base {t t1 : Thread} (h : t1.base = t.base) : t1.status = t.status := by
  have := congrArg Thread.status h; exact this
theorem spec_of_base {t t1 : Thread} (h : t1.base = t.base) : t1.spec = t.spec := by
  have h1 : t1.base.levels.length = t.base.levels.length := by rw [h]
  have h2 : t1.base.inherited = t.base.inherited := by rw [h]
  simp only [Thread.base, List.length_map] at h1 h2
  simp [Thread.spec, Thread.depth, h1, h2]

/-- Registers of different lanes are different words. -/
theorem key_ne {t t' : Thread} {a b : Nat} (hc : t.core = t'.core) (hq : t.quad = t'.quad) (_ : t.lane < 32)
    (_ : t'.lane < 32) (hne : t.lane ≠ t'.lane) (ha : t.rbase + a < 2048) (hb : t'.rbase + b < 2048) :
    t.key a ≠ t'.key b := by
  simp only [Thread.key, regKey, hc, hq]
  omega

theorem key_inj {t : Thread} {a b : Nat} (h : t.key a = t.key b) : a = b := by
  simp only [Thread.key, regKey] at h
  omega

theorem getD_wrs (t : Thread) : ∀ (rs : List Reg) (s : State) (a k : Nat),
    SMap.getD (s.wrs t a rs).regs Reg.zero k =
      if ∃ i, i < rs.length ∧ k = t.key (a + i) then (rs[k - t.key a]?).getD Reg.zero else SMap.getD s.regs Reg.zero k := by
  intro rs
  induction rs with
  | nil => intro s a k; simp [State.wrs]
  | cons r rs ih =>
    intro s a k
    rw [State.wrs, ih]
    by_cases h : ∃ i, i < rs.length ∧ k = t.key (a + 1 + i)
    · have h' : ∃ i, i < (r :: rs).length ∧ k = t.key (a + i) := by
        obtain ⟨i, hi, hk⟩ := h
        exact ⟨i + 1, by simpa using hi, by rw [hk]; congr 1; omega⟩
      rw [if_pos h, if_pos h']
      obtain ⟨i, hi, hk⟩ := h
      have e1 : k - t.key (a + 1) = i := by rw [hk]; simp only [Thread.key, regKey]; omega
      have e2 : k - t.key a = i + 1 := by rw [hk]; simp only [Thread.key, regKey]; omega
      rw [e1, e2, List.getElem?_cons_succ]
    · rw [if_neg h]
      by_cases hk : k = t.key a
      · have h' : ∃ i, i < (r :: rs).length ∧ k = t.key (a + i) := ⟨0, by simp, by simpa using hk⟩
        rw [if_pos h']
        simp [State.wr, hk]
      · have h' : ¬ ∃ i, i < (r :: rs).length ∧ k = t.key (a + i) := by
          rintro ⟨i, hi, hk'⟩
          cases i with
          | zero => exact hk (by simpa using hk')
          | succ i => exact h ⟨i, by simpa using hi, by rw [hk']; congr 1; omega⟩
        rw [if_neg h']
        simp [State.wr, SMap.getD_setD, hk]

theorem wrs_frame (t : Thread) : ∀ (rs : List Reg) (s : State) (a : Nat), s.wrs t a rs = { s with regs := (s.wrs t a rs).regs }
  | [], _, _ => rfl
  | r :: rs, s, a => by
    rw [State.wrs, wrs_frame t rs]
    rfl

theorem reg_of_getD {s s1 : State} {t : Thread} (h : ∀ a < t.allot, SMap.getD s1.regs Reg.zero (t.key a) = SMap.getD s.regs Reg.zero (t.key a))
    (v : Nat) : s1.reg t v = s.reg t v := by
  unfold State.reg
  split
  · exact h _ (by assumption)
  · rfl

/-! ## Checks -/

theorem check_congr {s s1 : State} {e : Env} {k : Chk} {t t1 : Thread} (ht : t1.base = t.base)
    (hr : ∀ v, s1.reg t v = s.reg t v) : s1.check e k t1 = s.check e k t := by
  have hr1 : ∀ v, s1.reg t1 v = s.reg t v := fun v => by rw [reg_of_base ht, hr]
  have ha := span_of_base ht e.c
  have hw := wbase_of_base ht
  have hp := anom_of_base ht
  have hpair : ∀ v, s1.pair t1 v = s.pair t v := fun v => by simp [State.pair, hr1]
  have haddr : s1.addrOf t1 = s.addrOf t := by funext a; simp [State.addrOf, hpair]
  have hs : s1.srcTag t1 k = s.srcTag t k := by simp [State.srcTag, hpair, hr1]
  have hc : ∀ n c, s1.chkTrap t1 k n c = s.chkTrap t k n c := fun n c => by simp [State.chkTrap, haddr, hs]
  simp only [State.check, hc, ha, hw, Thread.policy, hp, hr1]
  rfl

/-- The checks pass for a lane that may run the instruction, whose registers exist, and that traps on no use. -/
theorem check_none {s : State} {e : Env} {k : Chk} {t : Thread} (hc : e.classOk k.cls = true) (hn : e.names t k.uses = true)
    (ha : t.policy ≠ 2 ∨ ∀ v ∈ k.anom, isA (s.reg t v).tag = false) : s.check e k t = none := by
  simp only [Env.names, List.all_eq_true, Bool.and_eq_true, beq_iff_eq, decide_eq_true_eq] at hn
  have h1 : k.uses.any (fun u => u.v % u.al != 0 || decide (128 < u.v + u.n)) = false := by
    rw [List.any_eq_false]; intro u hu
    have := hn u hu
    simp [this.1.1]; omega
  have h2 : k.uses.any (fun u => decide (e.c.span t < t.wbase + u.v + u.n)) = false := by
    rw [List.any_eq_false]; intro u hu
    have := hn u hu
    simp; omega
  unfold State.check
  rw [if_neg (by simp [hc]), h1, h2]
  simp only [Bool.false_eq_true, if_false]
  split
  · rename_i h2
    rcases ha with h | h
    · exact absurd (by simpa using h2) h
    · rw [List.find?_eq_none.2 (fun v hv => by simp [h v hv])]
  · rfl

@[simp] theorem classOk_zero (e : Env) : e.classOk 0 = true := rfl

theorem Context.span_le (c : Context) (t : Thread) : c.span t ≤ t.allot := by
  unfold Context.span
  split
  · exact Nat.min_le_right _ _
  · exact Nat.le_refl _

theorem lanesAll_iff {s : State} {e : Env} {p : Thread → Bool} :
    s.lanesAll e p = true ↔ ∀ u ∈ s.active e, ∃ t, s.thread? u = some t ∧ p t = true := by
  simp [State.lanesAll, Option.any_eq_true]

/-! ## Lanes that write registers -/

/-- What is true of a lane while the sweep goes on: nothing of it has changed but what counting and passing change. -/
structure LaneAt (s s1 : State) (t t1 : Thread) : Prop where
  frame : s1.base = { s.base with regs := s1.regs }
  thread : t1.base = t.base
  reg : ∀ v, s1.reg t1 v = s.reg t v

theorem lanes_wrote {s : State} {e : Env} {n : Nat} {k : Chk} {f : State → Nat → Thread → LaneRes} {w : Thread → Nat → Option Reg}
    (hp : s.port e = true)
    (hc : ∀ u ∈ s.active e, ∀ t, s.thread? u = some t →
      (k.stall && t.spec) = false ∧ s.check e k t = none ∧ ∀ v r, w t v = some r → t.wbase + v < t.allot)
    (hf : ∀ u ∈ s.active e, ∀ t, s.thread? u = some t → ∀ s1 t1, s1.thread? u = some t1 → LaneAt s s1 t t1 →
      ∃ s2, f s1 u t1 = .done s2 ∧ s2 = { s1 with regs := s2.regs } ∧
        (∀ v r, w t v = some r → SMap.getD s2.regs Reg.zero (t.key (t.wbase + v)) = r) ∧
        (∀ kk, (∀ v r, w t v = some r → kk ≠ t.key (t.wbase + v)) →
          SMap.getD s2.regs Reg.zero kk = SMap.getD s1.regs Reg.zero kk)) :
    s.lanesWrote (s.runSlot e n k f) e n w := by
  have hnd := State.port_nodup hp
  -- two active lanes: different words
  have hdis : ∀ {u v : Nat} {t t' : Thread} {a b : Nat}, u ∈ s.active e → v ∈ s.active e → u ≠ v → s.thread? u = some t →
      s.thread? v = some t' → a < t.allot → b < t'.allot → t.key a ≠ t'.key b := by
    intro u v t t' a b hu hv huv ht ht' ha hb
    obtain ⟨t1, ht1, _, hc1, hq1, hl1, hf1⟩ := State.port_member hp (State.active_member hu)
    obtain ⟨t2, ht2, _, hc2, hq2, hl2, hf2⟩ := State.port_member hp (State.active_member hv)
    obtain rfl : t1 = t := by rw [ht] at ht1; simpa using ht1.symm
    obtain rfl : t2 = t' := by rw [ht'] at ht2; simpa using ht2.symm
    have hne : t1.lane ≠ t2.lane := fun hl =>
      huv (State.port_lane hp (State.active_member hu) (State.active_member hv) ht ht' hl)
    exact key_ne (by rw [hc1, hc2]) (by rw [hq1, hq2]) hl1 hl2 hne (by omega) (by omega)
  -- the invariant of the lanes passed
  let I : List Nat → State → Prop := fun pre s1 =>
    s1.base = { s.base with regs := s1.regs } ∧
    (∀ u ∈ pre, ∀ t, s.thread? u = some t → ∀ v r, w t v = some r → SMap.getD s1.regs Reg.zero (t.key (t.wbase + v)) = r) ∧
    (∀ kk, (∀ u ∈ pre, ∀ t, s.thread? u = some t → ∀ v r, w t v = some r → kk ≠ t.key (t.wbase + v)) →
      SMap.getD s1.regs Reg.zero kk = SMap.getD s.regs Reg.zero kk)
  obtain ⟨s1, ⟨hb, hw, ho⟩, hW, hs⟩ := runSlot_done (n := n) (k := k) (f := f) hp I
    ⟨by rw [State.regs_of_base (State.begin_base s e)]; exact State.begin_base s e, by simp, fun kk _ => by
        rw [State.regs_of_base (State.begin_base s e)]⟩
    (by
      rintro pre u post s1 hact ⟨hb, hw, ho⟩
      have hu : u ∈ s.active e := by rw [hact]; simp
      have hpre : ∀ v ∈ pre, v ∈ s.active e ∧ v ≠ u := by
        intro v hv
        refine ⟨by rw [hact]; simp [hv], ?_⟩
        rintro rfl
        rw [hact] at hnd
        exact (List.nodup_append.1 hnd).2.2 v hv v (by simp) rfl
      obtain ⟨t, ht, hst, _⟩ := State.port_member hp (State.active_member hu)
      have hth : s1.base.threads = s.base.threads := by rw [hb]
      have h1 := State.thread_of_base hth u
      rw [ht] at h1
      obtain ⟨t1, ht1, hbase⟩ : ∃ t1, s1.thread? u = some t1 ∧ t1.base = t.base := by
        cases h : s1.thread? u with
        | none => rw [h] at h1; simp at h1
        | some t1 => exact ⟨t1, rfl, by rw [h] at h1; simpa using h1⟩
      obtain ⟨hsp, hchk, hal⟩ := hc u hu t ht
      -- the lane's registers are those it began with
      have hreg' : ∀ v, s1.reg t v = s.reg t v := reg_of_getD fun a ha => ho _ fun v hv t' ht' x r hx =>
        hdis hu (hpre v hv).1 (hpre v hv).2.symm ht ht' ha ((hc v (hpre v hv).1 t' ht').2.2 x r hx)
      obtain ⟨s2, hfe, hfr, hw2, ho2⟩ := hf u hu t ht s1 t1 ht1 ⟨hb, hbase, fun v => by rw [reg_of_base hbase, hreg']⟩
      refine ⟨t1, s2, ht1, (status_of_base hbase).trans hst, by rw [spec_of_base hbase]; exact hsp,
        by rw [check_congr hbase hreg']; exact hchk, hfe, State.pagesFor_same (by rw [hfr]), by rw [hfr], ?_, ?_, ?_⟩
      · rw [State.arrive_base, State.arrive_regs]
        have : s2.base = { s1.base with regs := s2.regs } := by rw [hfr]; rfl
        rw [this, hb]
      · intro v hv t' ht' x r hx
        rw [State.arrive_regs]
        by_cases hvu : v = u
        · subst hvu
          obtain rfl : t = t' := by rw [ht] at ht'; simpa using ht'
          exact hw2 x r hx
        · have hv' : v ∈ pre := by simpa [hvu] using hv
          rw [ho2 _ fun y r' hy => hdis (hpre v hv').1 hu hvu ht' ht ((hc v (hpre v hv').1 t' ht').2.2 x r hx) (hal y r' hy)]
          exact hw v hv' t' ht' x r hx
      · intro kk hkk
        rw [State.arrive_regs, ho2 kk fun v r hv => hkk u (by simp) t ht v r hv]
        exact ho kk fun v hv => hkk v (by simp [hv]))
  have hr : (s.runSlot e n k f).regs = s1.regs := by rw [hs]; exact State.regs_of_still (State.closeSlot_still s1 e.wk n)
  refine ⟨?_, ?_, ?_, ?_⟩
  · rw [hr, hs, State.closeSlot_still, ← s1.base_still, hb, ← s.base_still]
    rfl
  · rw [hs]
    refine closeSlot_passed hW fun u hu => ?_
    obtain ⟨t, ht, _⟩ := State.port_member hp hu
    have h1 := State.thread_of_base (s := s) (s1 := s1) (by rw [hb]) u
    rw [ht] at h1
    cases h : s1.thread? u with
    | none => rw [h] at h1; simp at h1
    | some t1 => exact ⟨t1, rfl⟩
  · intro u hu t ht v r hv
    rw [State.reg, if_pos ((hc u hu t ht).2.2 v r hv), State.rd, hr]
    exact hw u hu t ht v r hv
  · intro kk hkk
    rw [hr]
    exact ho kk hkk

/-- Writing a list of registers from v`d` on, as `lanes_wrote` asks of a lane. -/
theorem setRegs_wrote {t t1 : Thread} {s1 : State} {d : Nat} {rs : List Reg} (hb : t1.base = t.base) :
    s1.setRegs t1 d rs = { s1 with regs := (s1.setRegs t1 d rs).regs } ∧
    (∀ v r, fromReg d rs v = some r → SMap.getD (s1.setRegs t1 d rs).regs Reg.zero (t.key (t.wbase + v)) = r) ∧
    (∀ kk, (∀ v r, fromReg d rs v = some r → kk ≠ t.key (t.wbase + v)) →
      SMap.getD (s1.setRegs t1 d rs).regs Reg.zero kk = SMap.getD s1.regs Reg.zero kk) := by
  have hwb := wbase_of_base hb
  refine ⟨wrs_frame _ _ _ _, ?_, ?_⟩
  · intro v r hv
    unfold fromReg at hv
    split at hv
    · rename_i hd
      obtain ⟨hi, hr⟩ := List.getElem?_eq_some_iff.1 hv
      rw [← key_of_base hb, State.setRegs, getD_wrs, if_pos ⟨v - d, hi, by congr 1; omega⟩]
      have : t1.key (t.wbase + v) - t1.key (t1.wbase + d) = v - d := by simp only [Thread.key, regKey, hwb]; omega
      simp [this, hv]
    · cases hv
  · intro kk hkk
    rw [State.setRegs, getD_wrs, if_neg]
    rintro ⟨i, hi, hk⟩
    refine hkk (d + i) rs[i] (by simp [fromReg, hi]) ?_
    rw [hk, key_of_base hb, hwb]
    congr 1
    omega

theorem fromReg_fits {t : Thread} {d v : Nat} {rs : List Reg} {r : Reg} (h : t.wbase + d + rs.length ≤ t.allot)
    (hv : fromReg d rs v = some r) : t.wbase + v < t.allot := by
  unfold fromReg at hv
  split at hv
  · have := (List.getElem?_eq_some_iff.1 hv).1
    omega
  · cases hv

/-! ## Lanes that change their own thread -/

/-- What is true of a lane while the sweep goes on, when lanes change their threads. -/
structure ThreadAt (s s1 : State) (t t1 : Thread) : Prop where
  frame : s1.base = { s.base with threads := s1.base.threads }
  thread : t1.base = t.base
  reg : ∀ v, s1.reg t1 v = s.reg t v

theorem lanes_set {s : State} {e : Env} {n : Nat} {k : Chk} {f : State → Nat → Thread → LaneRes} {g : Thread → Thread}
    (hp : s.port e = true)
    (hc : ∀ u ∈ s.active e, ∀ t, s.thread? u = some t → (k.stall && t.spec) = false ∧ s.check e k t = none)
    (hf : ∀ u ∈ s.active e, ∀ t, s.thread? u = some t → ∀ s1 t1, s1.thread? u = some t1 → ThreadAt s s1 t t1 →
      ∃ h : Thread → Thread, f s1 u t1 = .done (s1.modThread u h) ∧ (h t1).base = (g t).base) :
    s.lanesSet (s.runSlot e n k f) e n g := by
  have hnd := State.port_nodup hp
  let I : List Nat → State → Prop := fun pre s1 =>
    s1.base = { s.base with threads := s1.base.threads } ∧
    (∀ u ∈ pre, (s1.thread? u).map Thread.base = (s.thread? u).map fun t => (g t).base) ∧
    (∀ u, u ∉ pre → (s1.thread? u).map Thread.base = (s.thread? u).map Thread.base)
  obtain ⟨s1, ⟨hb, hw, ho⟩, hW, hs⟩ := runSlot_done (n := n) (k := k) (f := f) hp I
    ⟨by rw [State.begin_base], by simp, fun u _ => State.thread_of_base (by rw [State.begin_base]) u⟩
    (by
      rintro pre u post s1 hact ⟨hb, hw, ho⟩
      have hu : u ∈ s.active e := by rw [hact]; simp
      obtain ⟨t, ht, hst, _⟩ := State.port_member hp (State.active_member hu)
      have hupre : u ∉ pre := by
        rw [hact] at hnd
        intro h
        exact (List.nodup_append.1 hnd).2.2 u h u (by simp) rfl
      have h1 := ho u hupre
      rw [ht] at h1
      obtain ⟨t1, ht1, hbase⟩ : ∃ t1, s1.thread? u = some t1 ∧ t1.base = t.base := by
        cases h : s1.thread? u with
        | none => rw [h] at h1; simp at h1
        | some t1 => exact ⟨t1, rfl, by rw [h] at h1; simpa using h1⟩
      obtain ⟨hsp, hchk⟩ := hc u hu t ht
      have hregs : s1.regs = s.regs := by have := congrArg State.regs hb; exact this
      have hreg' : ∀ v, s1.reg t v = s.reg t v := fun v => by simp [State.reg, State.rd, hregs]
      obtain ⟨h, hfe, hh⟩ := hf u hu t ht s1 t1 ht1 ⟨hb, hbase, fun v => by rw [reg_of_base hbase, hreg']⟩
      have hth : ∀ v, (((s1.modThread u h).arrive e.wk u).thread? v).map Thread.base =
          ((s1.modThread u h).thread? v).map Thread.base := fun v =>
        State.thread_of_base (by rw [State.arrive_base]) v
      refine ⟨t1, s1.modThread u h, ht1, (status_of_base hbase).trans hst, by rw [spec_of_base hbase]; exact hsp,
        by rw [check_congr hbase hreg']; exact hchk, hfe, State.pagesFor_same rfl, rfl, ?_, ?_, ?_⟩
      · rw [State.arrive_base]
        have : (s1.modThread u h).base = { s1.base with threads := (s1.modThread u h).base.threads } := rfl
        rw [this, hb]
      · intro v hv
        rw [hth, State.modThread_thread]
        by_cases hvu : v = u
        · subst hvu
          rw [if_pos rfl, ht1, ht]
          simp [hh]
        · rw [if_neg hvu]
          exact hw v (by simpa [hvu] using hv)
      · intro v hv
        simp only [List.mem_append, List.mem_singleton, not_or] at hv
        rw [hth, State.modThread_thread, if_neg hv.2]
        exact ho v hv.1)
  have hstill : (s.runSlot e n k f).still = s1.still := by rw [hs, State.closeSlot_still]
  have hthr : ∀ u, ((s.runSlot e n k f).thread? u).map Thread.still = (s1.thread? u).map Thread.still := by
    intro u
    rw [← State.still_thread, ← State.still_thread, hstill]
  have hsb : ∀ {x y : Option Thread}, x.map Thread.base = y.map Thread.base → x.map Thread.still = y.map Thread.still := by
    intro x y h
    have := congrArg (Option.map Thread.still) h
    simpa [Option.map_map, Function.comp_def, Thread.base_still] using this
  refine ⟨?_, ?_, ?_, ?_⟩
  · rw [hstill, ← s1.base_still, hb]
    rw [← s.base_still]
    simp only [State.still]
  · rw [hs]
    refine closeSlot_passed hW fun u hu => ?_
    obtain ⟨t, ht, _⟩ := State.port_member hp hu
    by_cases ha : u ∈ s.active e
    · have := hw u ha
      rw [ht] at this
      cases h : s1.thread? u with
      | none => rw [h] at this; simp at this
      | some t1 => exact ⟨t1, rfl⟩
    · have := ho u ha
      rw [ht] at this
      cases h : s1.thread? u with
      | none => rw [h] at this; simp at this
      | some t1 => exact ⟨t1, rfl⟩
  · intro u hu
    rw [hthr]
    have := hw u hu
    have h2 : (s.thread? u).map (fun t => (g t).base) = ((s.thread? u).map g).map Thread.base := by simp [Option.map_map, Function.comp_def]
    rw [h2] at this
    have := hsb this
    rw [this]
    simp [Option.map_map, Function.comp_def]
  · intro u hu
    rw [hthr]
    exact hsb (ho u hu)

end Sys2Proof.Machine
end

