-- ==== Sys2Proof/Laws/Results.lean ====
section
/-! SUPPORT. Instructions whose lanes write one result that is no birth (R74), and the integers behind the model's
arithmetic. -/

namespace Sys2Proof.Machine

theorem resultRegs_length (w bits : Nat) (g : Tag) : (resultRegs w bits g).length = if w = 64 then 2 else 1 := by
  unfold resultRegs; split <;> rfl

/-- A per-lane instruction whose result is no birth in any active lane writes that result in every active lane. -/
theorem results_wrote {s : State} {e : Env} {n d : Nat} {k : Chk} {G : State → Thread → Result}
    (hp : s.port e = true) (hst : k.stall = false)
    (hG : ∀ s1 t t1, t1.base = t.base → (∀ v, s1.reg t1 v = s.reg t v) → G s1 t1 = G s t)
    (hc : ∀ u ∈ s.active e, ∀ t, s.thread? u = some t →
      s.check e k t = none ∧ (G s t).kind = 0 ∧ t.wbase + d + (if (G s t).w = 64 then 2 else 1) ≤ t.allot)
    (hd : ∀ t, (G s t).d = d) :
    s.lanesWrote (s.runSlot e n k fun s u t => s.putResult e u t (G s t)) e n
      fun t => fromReg d (resultRegs (G s t).w (G s t).bits ((G s t).tag e)) := by
  apply lanes_wrote hp
  · intro u hu t ht
    obtain ⟨h1, _, h3⟩ := hc u hu t ht
    exact ⟨by simp [hst], h1, fun v r hv => fromReg_fits (by rw [resultRegs_length]; exact h3) hv⟩
  · intro u hu t ht s1 t1 _ hat
    obtain ⟨_, h2, _⟩ := hc u hu t ht
    have hg := hG s1 t t1 hat.thread hat.reg
    exact ⟨_, by simp only [State.putResult, hg, h2, hd, if_true], setRegs_wrote hat.thread⟩

/-- A per-lane instruction answers with its slot run. -/
theorem perLane_next {s : State} {e : Env} (h : s.env? = some e) (n : Nat) (k : Env → Chk)
    (f : Env → State → Nat → Thread → LaneRes) : s.perLane n k f = .next (s.runSlot e n (k e) (f e)) := by
  simp [State.perLane, h]

/-- Operands of a lane do not change while the sweep goes on. -/
theorem src32_congr {s s1 : State} {t t1 : Thread} (h : ∀ v, s1.reg t1 v = s.reg t v) (v : Nat) : s1.src32 t1 v = s.src32 t v := by
  simp [State.src32, h]
theorem pair_congr {s s1 : State} {t t1 : Thread} (h : ∀ v, s1.reg t1 v = s.reg t v) (v : Nat) : s1.pair t1 v = s.pair t v := by
  simp [State.pair, h]
theorem src64_congr {s s1 : State} {t t1 : Thread} (h : ∀ v, s1.reg t1 v = s.reg t v) (v : Nat) : s1.src64 t1 v = s.src64 t v := by
  simp [State.src64, pair_congr h]
theorem src_congr {s s1 : State} {t t1 : Thread} (h : ∀ v, s1.reg t1 v = s.reg t v) (b : Bool) (v : Nat) : s1.src t1 b v = s.src t b v := by
  simp [State.src, src32_congr h, src64_congr h]
theorem iovf_of_base {t t1 : Thread} (h : t1.base = t.base) : t1.iovf = t.iovf := by
  simp [Thread.iovf, anom_of_base h]
theorem pred_of_base {t t1 : Thread} (h : t1.base = t.base) (p : PReg) : t1.pred p = t.pred p := by
  simp [Thread.pred, preds_of_base h]

/-- What a ready lane is. -/
theorem lane_ready {s : State} {e : Env} {uses : List Use} {ok : State → Env → Thread → Bool}
    (hl : s.lanesAll e (fun t => e.names t uses && ok s e t) = true) {u : Nat} {t : Thread} (hu : u ∈ s.active e)
    (ht : s.thread? u = some t) : e.names t uses = true ∧ ok s e t = true := by
  obtain ⟨t', ht', h⟩ := lanesAll_iff.1 hl u hu
  obtain rfl : t' = t := by rw [ht] at ht'; simpa using ht'.symm
  simpa using h

theorem names_head {e : Env} {t : Thread} {u : Use} {l : List Use} (h : e.names t (u :: l) = true) : t.wbase + u.v + u.n ≤ t.allot := by
  simp only [Env.names, List.all_cons, Bool.and_eq_true, decide_eq_true_eq] at h
  exact Nat.le_trans h.1.2 (e.c.span_le t)

/-- An instruction whose lanes write one result that is no birth writes it in every active lane. -/
theorem writes_of_result {i : Instr} {d : Nat} {uses : List Use} {ok : State → Env → Thread → Bool}
    {val : State → Env → Thread → List Reg} {k : Chk} {G : Env → State → Thread → Result}
    (hi : ∀ s, exec i s = s.perLane 1 (fun _ => k) fun e s u t => s.putResult e u t (G e s t))
    (hu : k.uses = uses) (hc : k.cls = 0) (ha : k.anom = []) (hst : k.stall = false)
    (hG : ∀ e s s1 t t1, t1.base = t.base → (∀ v, s1.reg t1 v = s.reg t v) → G e s1 t1 = G e s t)
    (hd : ∀ e s t, (G e s t).d = d)
    (hfit : ∀ e s t, e.names t uses = true → t.wbase + d + (if (G e s t).w = 64 then 2 else 1) ≤ t.allot)
    (hkind : ∀ s e t, ok s e t = true → (G e s t).kind = 0)
    (hval : ∀ s e t, resultRegs (G e s t).w (G e s t).bits ((G e s t).tag e) = val s e t) : writes i d uses ok val := by
  intro s e hp hl
  refine ⟨_, (hi s).trans (perLane_next (State.port_env hp) 1 _ _), ?_⟩
  have key := results_wrote (n := 1) (d := d) (k := k) (G := G e) hp hst (fun s1 t t1 => hG e s s1 t t1)
    (fun u hu' t ht => by
      obtain ⟨h1, h2⟩ := lane_ready hl hu' ht
      exact ⟨check_none (by rw [hc]; rfl) (by rw [hu]; exact h1) (Or.inr (by simp [ha])), hkind s e t h2, hfit e s t h1⟩)
    (hd e s)
  simpa only [hval] using key

/-! ## Integers of a width -/

theorem sext_toNat {w : Nat} (x : BitVec w) : sext w x.toNat = x.toInt := by
  unfold sext
  have hx : x.toNat % 2 ^ w = x.toNat := Nat.mod_eq_of_lt x.isLt
  simp only [hx]
  rcases Nat.eq_zero_or_pos w with rfl | hw
  · have : x.toNat = 0 := by have := x.isLt; omega
    simp [BitVec.toInt, this]
  · rw [if_neg (by omega), BitVec.toInt]
    have h2 : 2 ^ w = 2 * 2 ^ (w - 1) := by
      conv_lhs => rw [show w = (w - 1) + 1 from by omega, Nat.pow_succ]
      omega
    by_cases h : x.toNat < 2 ^ (w - 1)
    · rw [if_pos h, if_pos (by omega)]
    · rw [if_neg h, if_neg (by omega)]

theorem wrapInt_eq (w : Nat) (x : Int) : wrapInt w x = (BitVec.ofInt w x).toNat := by
  simp [wrapInt, BitVec.toNat_ofInt]

theorem toNat_mod {w : Nat} (x : BitVec w) : x.toNat % 2 ^ w = x.toNat := Nat.mod_eq_of_lt x.isLt

end Sys2Proof.Machine
end

