-- ==== Sys2Proof/Laws/Integer.lean ====
section
/-! SUPPORT. The integer operations of major 1 (R105, R378) as operations on bit vectors. -/

namespace Sys2Proof.Machine

/-- Signed overflow of an exact result that a bit vector of `w` bits cannot hold. -/
theorem signedOverflow_iff {w : Nat} (x : Int) :
    signedOverflow w x = (decide (x < -2 ^ (w - 1)) || decide (2 ^ (w - 1) ≤ x)) := by
  simp [signedOverflow]

/-- The integer an operand stands for, signed or unsigned. -/
def operandInt {w : Nat} (sgn : Bool) (x : BitVec w) : Int := if sgn then x.toInt else (x.toNat : Int)

theorem intOp_operands (w : Nat) (sgn : Bool) (x y : BitVec w) :
    (if sgn then sext w x.toNat else ((x.toNat % 2 ^ w : Nat) : Int)) = operandInt sgn x ∧
    (if sgn then sext w y.toNat else ((y.toNat % 2 ^ w : Nat) : Int)) = operandInt sgn y := by
  simp only [sext_toNat, toNat_mod, operandInt, and_self]

theorem ofInt_operandInt {w : Nat} (sgn : Bool) (x : BitVec w) : BitVec.ofInt w (operandInt sgn x) = x := by
  cases sgn <;> simp [operandInt]

theorem ofInt_sub {w : Nat} (a b : Int) : BitVec.ofInt w (a - b) = BitVec.ofInt w a - BitVec.ofInt w b := by
  rw [Int.sub_eq_add_neg, BitVec.ofInt_add, BitVec.ofInt_neg, BitVec.sub_eq_add_neg]

theorem intOp_add {w : Nat} (sgn : Bool) (x y : BitVec w) :
    (intOp 0 w sgn x.toNat y.toNat).bits = (x + y).toNat := by
  simp only [intOp, (intOp_operands w sgn x y).1, (intOp_operands w sgn x y).2, wrapRes, wrapInt_eq, BitVec.ofInt_add, ofInt_operandInt]

theorem intOp_sub {w : Nat} (sgn : Bool) (x y : BitVec w) :
    (intOp 1 w sgn x.toNat y.toNat).bits = (x - y).toNat := by
  simp only [intOp, (intOp_operands w sgn x y).1, (intOp_operands w sgn x y).2, wrapRes, wrapInt_eq, ofInt_sub, ofInt_operandInt]

theorem intOp_mul {w : Nat} (sgn : Bool) (x y : BitVec w) :
    (intOp 2 w sgn x.toNat y.toNat).bits = (x * y).toNat := by
  simp only [intOp, (intOp_operands w sgn x y).1, (intOp_operands w sgn x y).2, wrapRes, wrapInt_eq, BitVec.ofInt_mul, ofInt_operandInt]

/-- The upper half of the exact product. -/
theorem intOp_mulh {w : Nat} (sgn : Bool) (x y : BitVec w) :
    (intOp 3 w sgn x.toNat y.toNat).bits =
      (((if sgn then x.signExtend (2 * w) else x.zeroExtend (2 * w)) *
        (if sgn then y.signExtend (2 * w) else y.zeroExtend (2 * w))).extractLsb' w w).toNat := by
  have hz : ∀ z : BitVec w, (if sgn then z.signExtend (2 * w) else z.zeroExtend (2 * w)) = BitVec.ofInt (2 * w) (operandInt sgn z) := by
    intro z
    cases sgn
    · apply BitVec.eq_of_toNat_eq
      simp [operandInt, BitVec.toNat_setWidth]
    · simp [operandInt, BitVec.signExtend]
  simp only [intOp, (intOp_operands w sgn x y).1, (intOp_operands w sgn x y).2, hz, ← BitVec.ofInt_mul]
  generalize operandInt sgn x * operandInt sgn y = p
  simp only [BitVec.extractLsb'_toNat, BitVec.toNat_ofInt, wrapInt, Nat.shiftRight_eq_div_pow]
  have hpos : (0 : Int) < ((2 ^ w : Nat) : Int) := by exact_mod_cast Nat.two_pow_pos w
  have h2 : ((2 ^ (2 * w) : Nat) : Int) = ((2 ^ w : Nat) : Int) * ((2 ^ w : Nat) : Int) := by
    rw [show 2 * w = w + w from by omega, Nat.pow_add]; push_cast; ring
  have hnn : 0 ≤ p % ((2 ^ (2 * w) : Nat) : Int) := Int.emod_nonneg _ (by rw [h2]; positivity)
  have key : p / ((2 ^ w : Nat) : Int) % ((2 ^ w : Nat) : Int) =
      p % ((2 ^ (2 * w) : Nat) : Int) / ((2 ^ w : Nat) : Int) % ((2 ^ w : Nat) : Int) := by
    conv_lhs => rw [← Int.emod_add_mul_ediv p ((2 ^ (2 * w) : Nat) : Int)]
    rw [h2, Int.mul_assoc, Int.add_mul_ediv_left _ _ (by omega), Int.add_mul_emod_self_left]
  rw [key]
  obtain ⟨q, hq⟩ := Int.eq_ofNat_of_zero_le hnn
  rw [hq]
  norm_cast

theorem operandInt_zero {w : Nat} (sgn : Bool) (y : BitVec w) : operandInt sgn y = 0 ↔ y = 0 := by
  cases sgn
  · simp [operandInt, ← BitVec.toNat_inj]
  · simp [operandInt, ← BitVec.toInt_inj]

/-- IDIV's quotient (R105): all ones for a zero divisor. -/
theorem intOp_div {w : Nat} (sgn : Bool) (x y : BitVec w) :
    (intOp 4 w sgn x.toNat y.toNat).bits =
      (if y = 0 then BitVec.allOnes w else if sgn then x.sdiv y else x / y).toNat := by
  simp only [intOp, (intOp_operands w sgn x y).1, (intOp_operands w sgn x y).2, operandInt_zero]
  split
  · simp
  · simp only [wrapRes, wrapInt_eq]
    congr 1
    cases sgn
    · apply BitVec.eq_of_toNat_eq
      simp [operandInt, BitVec.toNat_ofInt, BitVec.toNat_udiv]
      have h : x.toNat / y.toNat < 2 ^ w := lt_of_le_of_lt (Nat.div_le_self _ _) x.isLt
      norm_cast
      simp [Nat.mod_eq_of_lt h]
    · apply BitVec.eq_of_toInt_eq
      simp [operandInt, BitVec.toInt_sdiv, BitVec.toInt_ofInt]

theorem intOp_rem {w : Nat} (sgn : Bool) (x y : BitVec w) :
    (intOp 5 w sgn x.toNat y.toNat).bits =
      (if y = 0 then x else if sgn then x.srem y else x % y).toNat := by
  simp only [intOp, (intOp_operands w sgn x y).1, (intOp_operands w sgn x y).2, operandInt_zero]
  split
  · simp
  · simp only [wrapInt_eq]
    congr 1
    cases sgn
    · apply BitVec.eq_of_toNat_eq
      have ht : (x.toNat : Int).tmod (y.toNat : Int) = ((x.toNat % y.toNat : Nat) : Int) := rfl
      simp only [operandInt, BitVec.toNat_ofInt, BitVec.toNat_umod, Bool.false_eq_true, if_false, ht]
      have h : x.toNat % y.toNat < 2 ^ w := lt_of_le_of_lt (Nat.mod_le _ _) x.isLt
      norm_cast
      simp [Nat.mod_eq_of_lt h]
    · simp only [operandInt, if_true]
      rw [← BitVec.toInt_srem, BitVec.ofInt_toInt]

/-- The lesser or the greater of two operands. -/
theorem intOp_min {w : Nat} (sgn : Bool) (x y : BitVec w) :
    (intOp 6 w sgn x.toNat y.toNat).bits = (if (if sgn then y.slt x else y.ult x) then y else x).toNat := by
  cases sgn <;> simp only [intOp, sext_toNat, toNat_mod, BitVec.slt, BitVec.ult, decide_eq_true_eq, Nat.cast_lt, if_true, if_false,
    Bool.false_eq_true] <;> split <;> rfl

theorem intOp_max {w : Nat} (sgn : Bool) (x y : BitVec w) :
    (intOp 7 w sgn x.toNat y.toNat).bits = (if (if sgn then x.slt y else x.ult y) then y else x).toNat := by
  cases sgn <;> simp only [intOp, sext_toNat, toNat_mod, BitVec.slt, BitVec.ult, decide_eq_true_eq, Nat.cast_lt, if_true, if_false,
    Bool.false_eq_true] <;> split <;> rfl

/-! ## Overflow of the signed forms (R105) -/

theorem intOp_add_ovf {w : Nat} (x y : BitVec w) : (intOp 0 w true x.toNat y.toNat).ovf = x.saddOverflow y := by
  simp only [intOp, sext_toNat, if_true, wrapRes, signedOverflow_iff, BitVec.saddOverflow, ge_iff_le, Bool.or_comm]

theorem intOp_sub_ovf {w : Nat} (x y : BitVec w) : (intOp 1 w true x.toNat y.toNat).ovf = x.ssubOverflow y := by
  simp only [intOp, sext_toNat, if_true, wrapRes, signedOverflow_iff, BitVec.ssubOverflow, ge_iff_le, Bool.or_comm]

theorem intOp_mul_ovf {w : Nat} (x y : BitVec w) : (intOp 2 w true x.toNat y.toNat).ovf = x.smulOverflow y := by
  simp only [intOp, sext_toNat, if_true, wrapRes, signedOverflow_iff, BitVec.smulOverflow, ge_iff_le, Bool.or_comm]

/-- A quotient overflows for a zero divisor, and for the least value divided by −1. -/
theorem intOp_div_ovf {w : Nat} (x y : BitVec w) (hw : 1 < w) :
    (intOp 4 w true x.toNat y.toNat).ovf = (y == 0 || (x == BitVec.intMin w && y == -1)) := by
  have hz := operandInt_zero true y
  simp only [operandInt, if_true] at hz
  simp only [intOp, sext_toNat, if_true, hz]
  by_cases h0 : y = 0
  · simp [h0]
  · have hb : y.toInt ≠ 0 := fun h => h0 (hz.1 h)
    have hx1 := BitVec.le_toInt x
    have hx2 := BitVec.toInt_lt (x := x)
    have hpow : (2 : Int) ≤ 2 ^ w / 2 := by
      obtain ⟨v, rfl⟩ : ∃ v, w = v + 2 := ⟨w - 2, by omega⟩
      rw [pow_succ, pow_succ, Int.mul_ediv_cancel _ (by norm_num)]
      have : (1 : Int) ≤ 2 ^ v := one_le_pow₀ (by norm_num)
      omega
    have hm1 : y = -1 ↔ y.toInt = -1 := by
      rw [← BitVec.toInt_inj]
      have : (-1 : BitVec w).toInt = -1 := by
        have h1 : (-1 : BitVec w) = BitVec.allOnes w := BitVec.neg_one_eq_allOnes
        rw [h1, BitVec.toInt_allOnes, if_pos (by omega)]
      rw [this]
    have hmin : x = BitVec.intMin w ↔ x.toInt = -2 ^ (w - 1) := by
      rw [← BitVec.toInt_inj, BitVec.toInt_intMin_of_pos (by omega)]
    simp only [h0, if_false, wrapRes, signedOverflow_iff]
    rw [show (y == 0) = false by simpa using h0, Bool.false_or]
    rw [Bool.eq_iff_iff]
    simp only [Bool.or_eq_true, Bool.and_eq_true, decide_eq_true_eq, beq_iff_eq, hm1, hmin]
    generalize x.toInt = a at *
    generalize y.toInt = b at *
    by_cases hb1 : b = -1
    · subst hb1
      simp only [Int.reduceNeg, Int.tdiv_neg, Int.tdiv_one, and_true]
      omega
    · have habs : (a.tdiv b).natAbs = a.natAbs / b.natAbs := Int.natAbs_tdiv a b
      have h2 : b = 1 ∨ 2 ≤ b.natAbs := by omega
      simp only [hb1, and_false, iff_false, not_or, not_le, not_lt]
      rcases h2 with rfl | h2
      · simp; omega
      · have hle : a.natAbs / b.natAbs ≤ a.natAbs / 2 := Nat.div_le_div_left h2 (by norm_num)
        have hp1 : (1 : Int) ≤ 2 ^ (w - 1) := one_le_pow₀ (by norm_num)
        omega

theorem intOp_rem_ovf {w : Nat} (x y : BitVec w) : (intOp 5 w true x.toNat y.toNat).ovf = (y == 0) := by
  have := operandInt_zero true y
  simp only [operandInt, if_true] at this
  simp only [intOp, sext_toNat, if_true, this]
  by_cases h : y = 0
  · simp [h]
  · rw [if_neg h]; simpa using h

/-! ## Instructions of major 1 in their type variants -/

theorem ofNat_toNat_self {w : Nat} (x : BitVec w) : BitVec.ofNat w x.toNat = x := by simp

/-- The operand a selecting operation has chosen, by its value (R74). -/
theorem chosen_eq {w : Nat} (x y r : BitVec w) (gx gy : Tag) (h : r = x ∨ r = y) :
    chosenTag ⟨x.toNat, w, gx⟩ ⟨y.toNat, w, gy⟩ r.toNat = if r = x then gx else gy := by
  simp only [chosenTag, BitVec.toNat_inj]
  by_cases hxy : x = y
  · subst hxy; rcases h with rfl | rfl <;> simp
  · simp [hxy]

/-- An instruction that runs operation `op` of major 1, from what `op` is on bit vectors. -/
theorem typed_of_arith {i : FVdab → Instr} {op : Nat} {sel : Bool} {g : (w : Nat) → Bool → BitVec w → BitVec w → BitVec w}
    {ovf : (w : Nat) → BitVec w → BitVec w → Bool} (hi : ∀ f s, exec (i f) s = arith op f s)
    (hbits : ∀ (w : Nat) (sgn : Bool) (x y : BitVec w), (intOp op w sgn x.toNat y.toNat).bits = (g w sgn x y).toNat)
    (hovf : ∀ (w : Nat) (x y : BitVec w), 1 < w → (intOp op w true x.toNat y.toNat).ovf = ovf w x y)
    (hsel : sel = decide (6 ≤ op))
    (hch : sel = true → ∀ (w : Nat) (sgn : Bool) (x y : BitVec w), g w sgn x y = x ∨ g w sgn x y = y) : typed i sel g ovf := by
  intro f
  dsimp only
  have hcongr : ∀ (s s1 : State) (t t1 : Thread), t1.base = t.base → (∀ v, s1.reg t1 v = s.reg t v) →
      arithResult op f s1 t1 = arithResult op f s t := by
    intro s s1 t t1 hb hr
    simp [arithResult, src_congr hr, ovfKind, iovf_of_base hb]
  have hkind : ∀ (w : Nat) (_ : 1 < w) (t : Thread) (x y : BitVec w),
      (!(!bit f.v 0 && t.iovf && ovf w x y)) = true → ovfKind t (!bit f.v 0) (intOp op w (!bit f.v 0) x.toNat y.toNat).ovf = 0 := by
    intro w hw t x y h
    cases hs : bit f.v 0
    · simp only [hs, Bool.not_false, Bool.true_and, Bool.not_eq_true', Bool.and_eq_false_iff] at h
      simp only [ovfKind, Bool.not_false, Bool.true_and, hovf w x y hw]
      rcases h with h | h <;> simp [h]
    · simp [ovfKind]
  have hsel' : ∀ (w : Nat) (sgn : Bool) (x y : BitVec w) (gx gy : Tag),
      (if 6 ≤ op then some (chosenTag ⟨x.toNat, w, gx⟩ ⟨y.toNat, w, gy⟩ (g w sgn x y).toNat) else none) =
        if sel = true then some (if g w sgn x y = x then gx else gy) else none := by
    intro w sgn x y gx gy
    by_cases h6 : 6 ≤ op
    · have hs : sel = true := by rw [hsel]; simpa using h6
      rw [if_pos h6, if_pos hs, chosen_eq _ _ _ _ _ (hch hs w sgn x y)]
    · have hs : sel = false := by rw [hsel]; simpa using h6
      rw [if_neg h6, hs]; rfl
  constructor <;> intro hv
  · apply writes_of_result (k := chk3 (vIs64 f.v) (vIs64 f.v) (vIs64 f.v) f.d f.a f.b) (G := fun _ s t => arithResult op f s t)
      (hi f) (by simp [chk3, vIs64, hv, use]) rfl rfl rfl (fun _ s s1 t t1 => hcongr s s1 t t1) (fun _ _ _ => rfl)
    · intro e s t h
      simpa [arithResult, binResult, vIs64, hv] using names_head h
    · intro s e t h
      simpa [arithResult, binResult, vIs64, hv, vSigned, State.src, State.src32, State.w32] using
        hkind 32 (by norm_num) t (s.w32 t f.a) (s.w32 t f.b) h
    · intro s e t
      have hb := hbits 32 (!bit f.v 0) (s.reg t f.a.toNat).val (s.reg t f.b.toNat).val
      have hc := hsel' 32 (!bit f.v 0) (s.reg t f.a.toNat).val (s.reg t f.b.toNat).val (s.reg t f.a.toNat).tag (s.reg t f.b.toNat).tag
      simp only [arithResult, binResult, vIs64, hv, vSigned, State.src, Bool.false_eq_true, if_false, Env.result32, resultRegs,
        Result.tag, Result.opdList, List.map_cons, List.map_nil, State.src32, hb, hc, ofNat_toNat_self, State.opd32, State.w32,
        show ((32 : Nat) = 64) = False by simp, if_true]
      rfl
  · apply writes_of_result (k := chk3 (vIs64 f.v) (vIs64 f.v) (vIs64 f.v) f.d f.a f.b) (G := fun _ s t => arithResult op f s t)
      (hi f) (by simp [chk3, vIs64, hv, use]) rfl rfl rfl (fun _ s s1 t t1 => hcongr s s1 t t1) (fun _ _ _ => rfl)
    · intro e s t h
      simpa [arithResult, binResult, vIs64, hv] using names_head h
    · intro s e t h
      simpa [arithResult, binResult, vIs64, hv, vSigned, State.src, State.src64, State.w64] using
        hkind 64 (by norm_num) t (s.w64 t f.a) (s.w64 t f.b) h
    · intro s e t
      have hb := hbits 64 (!bit f.v 0) (s.pair t f.a.toNat).1 (s.pair t f.b.toNat).1
      have hc := hsel' 64 (!bit f.v 0) (s.pair t f.a.toNat).1 (s.pair t f.b.toNat).1 (s.pair t f.a.toNat).2 (s.pair t f.b.toNat).2
      simp only [arithResult, binResult, vIs64, hv, vSigned, State.src, Env.result64, resultRegs,
        Result.tag, Result.opdList, List.map_cons, List.map_nil, State.src64, hb, hc, ofNat_toNat_self, State.opd64, State.w64, if_true]
      rfl

end Sys2Proof.Machine
end

