-- ==== Sys2Proof/Laws/Group.lean ====
section
/-! SUPPORT. What an instruction of the whole group comes to when every active lane passes its checks (R329). -/

namespace Sys2Proof.Machine

/-- The lanes that pass the checks are all of them. -/
theorem checkLanes_all {e : Env} {k : Chk} {s : State} : ∀ us : List Nat,
    (∀ u ∈ us, ∃ t, s.thread? u = some t ∧ (k.stall && t.spec) = false ∧ s.check e k t = none) →
    checkLanes e k s us = (s, us.filterMap fun u => (s.thread? u).map fun t => (u, t), [])
  | [], _ => rfl
  | u :: us, h => by
    obtain ⟨t, ht, hs, hc⟩ := h u (by simp)
    have ih := checkLanes_all us fun v hv => h v (by simp [hv])
    simp [checkLanes, ht, hs, hc, ih]

/-- The lanes of the group as the instruction sees them: those of the slot, in order. -/
structure GroupAt (s s0 : State) (e : Env) (l : List (Nat × Thread)) : Prop where
  base : s0.base = s.base
  fst : l.map Prod.fst = s.active e
  thread : ∀ x ∈ l, s0.thread? x.1 = some x.2
  orig : ∀ x ∈ l, ∃ t, s.thread? x.1 = some t ∧ x.2.base = t.base

theorem foldl_arrive_base (wk : Nat) (l : List (Nat × Thread)) (s : State) :
    (l.foldl (fun (s : State) x => s.arrive wk x.1) s).base = s.base :=
  foldl_keep State.base (fun (s : State) (x : Nat × Thread) => s.arrive wk x.1) (fun s x => State.arrive_base s wk x.1) l s

theorem foldl_arrive_warp {e : Env} (l : List (Nat × Thread)) : ∀ {s : State} {d : Nat → Prop}, WarpAt e s d →
    WarpAt e (l.foldl (fun (s : State) x => s.arrive e.wk x.1) s) fun u => d u ∨ u ∈ l.map Prod.fst := by
  induction l with
  | nil => intro s d h; simpa using h
  | cons x l ih =>
    intro s d h
    have := ih (State.arrive_warp (d := d) (d' := fun u => d u ∨ u = x.1) h fun v hv => hv)
    obtain ⟨w1, a, b, c⟩ := this
    exact ⟨w1, a, b, fun u hu hd => c u hu (by simp only [List.map_cons, List.mem_cons] at hd; tauto)⟩

/-- An instruction of the group that is done and traps no lane: the lanes arrive and the slot closes. -/
theorem group_done {s : State} {e : Env} {n : Nat} {k : Env → Chk} {f : Env → State → List (Nat × Thread) → GroupRes}
    (hp : s.port e = true)
    (hc : ∀ u ∈ s.active e, ∀ t, s.thread? u = some t → ((k e).stall && t.spec) = false ∧ s.check e (k e) t = none)
    (hf : ∀ s0 l, GroupAt s s0 e l → ∃ s2, f e s0 l = .done s2 [] ∧ s0.pagesFor s2 = [] ∧ s2.warps = s0.warps ∧
      ∀ x ∈ l, s2.isInWarp x.1 = true) :
    ∃ s0 l s2 s3, GroupAt s s0 e l ∧ f e s0 l = .done s2 [] ∧ s3.base = s2.base ∧ WarpAt e s3 (fun _ => True) ∧
      s.perGroup n k f = .next (s3.closeSlot e.wk n) := by
  have he := State.port_env hp
  set s0 := s.begin e with hs0
  set l := (s.active e).filterMap fun u => (s0.thread? u).map fun t => (u, t) with hl
  have hb : s0.base = s.base := State.begin_base s e
  have hthr : ∀ u ∈ s.active e, ∃ t t1, s.thread? u = some t ∧ s0.thread? u = some t1 ∧ t1.base = t.base := by
    intro u hu
    obtain ⟨t, ht, _⟩ := State.port_member hp (State.active_member hu)
    have h1 := State.thread_of_base (s := s) (s1 := s0) (by rw [hb]) u
    rw [ht] at h1
    cases h : s0.thread? u with
    | none => rw [h] at h1; simp at h1
    | some t1 => exact ⟨t, t1, ht, rfl, by rw [h] at h1; simpa using h1⟩
  have hfst : l.map Prod.fst = s.active e := by
    rw [hl]
    have : ∀ us : List Nat, (∀ u ∈ us, ∃ t1, s0.thread? u = some t1) →
        (us.filterMap fun u => (s0.thread? u).map fun t => (u, t)).map Prod.fst = us := by
      intro us
      induction us with
      | nil => simp
      | cons u us ih =>
        intro h
        obtain ⟨t1, h1⟩ := h u (by simp)
        simp [h1, ih fun v hv => h v (by simp [hv])]
    exact this _ fun u hu => by obtain ⟨_, t1, _, h, _⟩ := hthr u hu; exact ⟨t1, h⟩
  have hmem : ∀ x ∈ l, x.1 ∈ s.active e ∧ s0.thread? x.1 = some x.2 := by
    intro x hx
    rw [hl, List.mem_filterMap] at hx
    obtain ⟨u, hu, h⟩ := hx
    cases h1 : s0.thread? u with
    | none => rw [h1] at h; simp at h
    | some t1 => rw [h1] at h; simp only [Option.map_some, Option.some.injEq] at h; subst h; exact ⟨hu, h1⟩
  have hg : GroupAt s s0 e l := ⟨hb, hfst, fun x hx => (hmem x hx).2, fun x hx => by
    obtain ⟨t, t1, ht, ht1, hbb⟩ := hthr x.1 (hmem x hx).1
    have := (hmem x hx).2
    rw [ht1] at this
    obtain rfl : t1 = x.2 := by simpa using this
    exact ⟨t, ht, hbb⟩⟩
  have hreg : ∀ t v, s0.reg t v = s.reg t v := fun t v => by simp [State.reg, State.rd, State.regs_of_base hb]
  have hck : checkLanes e (k e) s0 (s.active e) = (s0, l, []) := checkLanes_all _ fun u hu => by
    obtain ⟨t, t1, ht, ht1, hbb⟩ := hthr u hu
    obtain ⟨h1, h2⟩ := hc u hu t ht
    exact ⟨t1, ht1, by rw [spec_of_base hbb]; exact h1, by rw [check_congr hbb (hreg t)]; exact h2⟩
  obtain ⟨s2, hfe, hrec, hw, hin⟩ := hf s0 l hg
  have hall : s2.arriveAll e.wk (l.map (·.1)) (leaving []) = l.foldl (fun (s : State) x => s.arrive e.wk x.1) s2 := by
    rw [State.arriveAll, List.filter_eq_self.2, List.foldl_map]
    intro u hu
    obtain ⟨x, hx, rfl⟩ := List.mem_map.1 hu
    simp [leaving, hin x hx]
  refine ⟨s0, l, s2, l.foldl (fun (s : State) x => s.arrive e.wk x.1) s2, hg, hfe, foldl_arrive_base _ _ _, ?_, ?_⟩
  · have h0 : WarpAt e s2 (fun u => u ∉ s.active e) := by
      obtain ⟨w1, a, b, c⟩ := State.begin_warp hp
      exact ⟨w1, by rw [hw]; exact a, b, c⟩
    obtain ⟨w1, a, b, c⟩ := foldl_arrive_warp l h0
    exact ⟨w1, a, b, fun u hu _ => c u hu (by rw [hfst]; tauto)⟩
  · have hno : trapsOf e.w.members [] = [] := by
      rw [trapsOf, List.filterMap_eq_nil_iff]; intro u _; rfl
    simp only [State.perGroup, he, ← hs0, hck, hfe, GroupRes.await, hrec, List.isEmpty_nil, if_true, hall,
      List.append_nil, hno]
    simp [State.finish, State.takeTraps]

/-- A cross-lane instruction that only writes registers of its lanes. -/
theorem group_wrote {s : State} {e : Env} {n : Nat} {k : Env → Chk} {f : Env → State → List (Nat × Thread) → GroupRes}
    {w : Thread → Nat → Option Reg} (hp : s.port e = true)
    (hc : ∀ u ∈ s.active e, ∀ t, s.thread? u = some t →
      ((k e).stall && t.spec) = false ∧ s.check e (k e) t = none ∧ ∀ v r, w t v = some r → t.wbase + v < t.allot)
    (hf : ∀ s0 l, GroupAt s s0 e l → ∃ s2, f e s0 l = .done s2 [] ∧ s2 = { s0 with regs := s2.regs } ∧
      (∀ u ∈ s.active e, ∀ t, s.thread? u = some t → ∀ v r, w t v = some r →
        SMap.getD s2.regs Reg.zero (t.key (t.wbase + v)) = r) ∧
      (∀ kk, (∀ u ∈ s.active e, ∀ t, s.thread? u = some t → ∀ v r, w t v = some r → kk ≠ t.key (t.wbase + v)) →
        SMap.getD s2.regs Reg.zero kk = SMap.getD s.regs Reg.zero kk)) :
    ∃ s', s.perGroup n k f = .next s' ∧ s.lanesWrote s' e n w := by
  obtain ⟨s0, l, s2, s3, hg, hfe, hb3, hW, hs⟩ := group_done (n := n) (k := k) (f := f) hp
    (fun u hu t ht => ⟨(hc u hu t ht).1, (hc u hu t ht).2.1⟩)
    (fun s0 l hg => by
      obtain ⟨s2, h1, h2, _⟩ := hf s0 l hg
      refine ⟨s2, h1, State.pagesFor_same (by rw [h2]), by rw [h2], fun x hx => ?_⟩
      obtain ⟨t, ht, hbb⟩ := hg.orig x hx
      have hxa : x.1 ∈ s.active e := by rw [← hg.fst]; exact List.mem_map_of_mem hx
      obtain ⟨t', ht', hst, _⟩ := State.port_member hp (State.active_member hxa)
      obtain rfl : t = t' := by rw [ht] at ht'; simpa using ht'
      have : s2.thread? x.1 = some x.2 := by rw [h2]; exact hg.thread x hx
      simp [State.isInWarp, this, status_of_base hbb, hst])
  obtain ⟨s2', hfe', hfr, hw2, ho2⟩ := hf s0 l hg
  rw [hfe] at hfe'
  obtain rfl : s2 = s2' := by simpa using hfe'
  have hr3 : s3.regs = s2.regs := State.regs_of_base hb3
  have hr : (s3.closeSlot e.wk n).regs = s2.regs := (State.regs_of_still (State.closeSlot_still s3 e.wk n)).trans hr3
  refine ⟨_, hs, ?_, ?_, ?_, ?_⟩
  · rw [hr, State.closeSlot_still, ← s3.base_still, hb3, hfr]
    have : ({ s0 with regs := s2.regs } : State).base = { s0.base with regs := s2.regs } := rfl
    rw [this, hg.base, ← s.base_still]
    rfl
  · refine closeSlot_passed hW fun u hu => ?_
    obtain ⟨t, ht, _⟩ := State.port_member hp hu
    have h1 : (s3.thread? u).map Thread.base = (s.thread? u).map Thread.base := by
      refine State.thread_of_base ?_ u
      rw [hb3, hfr]
      have : ({ s0 with regs := s2.regs } : State).base.threads = s0.base.threads := rfl
      rw [this, hg.base]
    rw [ht] at h1
    cases h : s3.thread? u with
    | none => rw [h] at h1; simp at h1
    | some t1 => exact ⟨t1, rfl⟩
  · intro u hu t ht v r hv
    rw [State.reg, if_pos ((hc u hu t ht).2.2 v r hv), State.rd, hr]
    exact hw2 u hu t ht v r hv
  · intro kk hkk
    rw [hr]
    exact ho2 kk hkk

/-- A cross-lane instruction that only changes its lanes' threads. -/
theorem group_set {s : State} {e : Env} {n : Nat} {k : Env → Chk} {f : Env → State → List (Nat × Thread) → GroupRes}
    {g : Thread → Thread} (hp : s.port e = true)
    (hc : ∀ u ∈ s.active e, ∀ t, s.thread? u = some t → ((k e).stall && t.spec) = false ∧ s.check e (k e) t = none)
    (hf : ∀ s0 l, GroupAt s s0 e l → ∃ s2, f e s0 l = .done s2 [] ∧ s2 = { s0 with threads := s2.threads } ∧
      (∀ u ∈ s.active e, (s2.thread? u).map Thread.base = (s.thread? u).map fun t => (g t).base) ∧
      (∀ u ∈ s.active e, ∀ t, s.thread? u = some t → (g t).status = t.status) ∧
      (∀ u, u ∉ s.active e → s2.thread? u = s0.thread? u)) :
    ∃ s', s.perGroup n k f = .next s' ∧ s.lanesSet s' e n g := by
  obtain ⟨s0, l, s2, s3, hg, hfe, hb3, hW, hs⟩ := group_done (n := n) (k := k) (f := f) hp hc
    (fun s0 l hg => by
      obtain ⟨s2, h1, h2, h3, h4, _⟩ := hf s0 l hg
      refine ⟨s2, h1, State.pagesFor_same (by rw [h2]), by rw [h2], fun x hx => ?_⟩
      have hxa : x.1 ∈ s.active e := by rw [← hg.fst]; exact List.mem_map_of_mem hx
      obtain ⟨t, ht, hst, _⟩ := State.port_member hp (State.active_member hxa)
      have := h3 x.1 hxa
      rw [ht] at this
      cases h : s2.thread? x.1 with
      | none => rw [h] at this; simp at this
      | some t2 =>
        rw [h] at this
        have hbb : t2.base = (g t).base := by simpa using this
        simp [State.isInWarp, h, status_of_base hbb, h4 x.1 hxa t ht, hst])
  obtain ⟨s2', hfe', hfr, hset, _, hother⟩ := hf s0 l hg
  rw [hfe] at hfe'
  obtain rfl : s2 = s2' := by simpa using hfe'
  have hstill : (s3.closeSlot e.wk n).still = s2.still := by
    rw [State.closeSlot_still]; exact State.still_of_base hb3
  have hthr : ∀ u, ((s3.closeSlot e.wk n).thread? u).map Thread.still = (s2.thread? u).map Thread.still := fun u => by
    rw [← State.still_thread, ← State.still_thread, hstill]
  have hsb : ∀ {x y : Option Thread}, x.map Thread.base = y.map Thread.base → x.map Thread.still = y.map Thread.still := by
    intro x y h
    have := congrArg (Option.map Thread.still) h
    simpa [Option.map_map, Function.comp_def, Thread.base_still] using this
  have h0 : ∀ u, (s0.thread? u).map Thread.base = (s.thread? u).map Thread.base := fun u =>
    State.thread_of_base (by rw [hg.base]) u
  refine ⟨_, hs, ?_, ?_, ?_, ?_⟩
  · rw [hstill, hfr]
    have h1 : ({ s0 with threads := s2.threads } : State).still = { s0.still with threads := ({ s0 with threads := s2.threads } : State).still.threads } := rfl
    rw [h1, ← s0.base_still, hg.base, ← s.base_still]
  · refine closeSlot_passed hW fun u hu => ?_
    obtain ⟨t, ht, _⟩ := State.port_member hp hu
    have h3 : (s3.thread? u).map Thread.base = (s2.thread? u).map Thread.base := State.thread_of_base (by rw [hb3]) u
    have h2 : ∃ t2, s2.thread? u = some t2 := by
      by_cases ha : u ∈ s.active e
      · have := hset u ha
        rw [ht] at this
        cases h : s2.thread? u with
        | none => rw [h] at this; simp at this
        | some t2 => exact ⟨t2, rfl⟩
      · have := h0 u
        rw [← hother u ha, ht] at this
        cases h : s2.thread? u with
        | none => rw [h] at this; simp at this
        | some t2 => exact ⟨t2, rfl⟩
    obtain ⟨t2, h2⟩ := h2
    rw [h2] at h3
    cases h : s3.thread? u with
    | none => rw [h] at h3; simp at h3
    | some t1 => exact ⟨t1, rfl⟩
  · intro u hu
    rw [hthr]
    have := hset u hu
    have h2 : (s.thread? u).map (fun t => (g t).base) = ((s.thread? u).map g).map Thread.base := by simp [Option.map_map, Function.comp_def]
    rw [h2] at this
    rw [hsb this]
    simp [Option.map_map, Function.comp_def]
  · intro u hu
    rw [hthr, hother u hu]
    exact hsb (h0 u)

end Sys2Proof.Machine
end

