-- ==== Sys2Proof/Laws/Effects.lean ====
section
/-! SUPPORT. What a slot comes to when its lanes act one after another (`laneRun`), and when its one active lane leaves the
warp. -/

namespace Sys2Proof.Machine

/-- Whether a state holds every thread another holds. -/
def keepsThreads (s s1 : State) : Prop := ∀ v t, s.thread? v = some t → ∃ t1, s1.thread? v = some t1

theorem keepsThreads_refl (s : State) : keepsThreads s s := fun _ t h => ⟨t, h⟩

theorem keepsThreads_modThread (s : State) (u : Nat) (f : Thread → Thread) : keepsThreads s (s.modThread u f) := by
  intro v t h
  rw [State.modThread_thread]
  split <;> simp [h]

theorem keepsThreads_arrive (s : State) (wk u : Nat) : keepsThreads s (s.arrive wk u) := by
  intro v t h
  have : (s.arrive wk u).thread? v = (s.modThread u fun t => { t with wait := none, timer := none, timedOut := false, held := none }).thread? v := rfl
  rw [this]
  exact keepsThreads_modThread s u _ v t h

theorem begin_members {s : State} {e : Env} (hp : s.port e = true) : ∀ u ∈ e.w.members, ∃ t, (s.begin e).thread? u = some t := by
  intro u hu
  obtain ⟨t, ht, _⟩ := State.port_member hp hu
  have h1 := State.thread_of_base (s := s) (s1 := s.begin e) (by rw [State.begin_base]) u
  rw [ht] at h1
  cases h : (s.begin e).thread? u with
  | none => rw [h] at h1; simp at h1
  | some t1 => exact ⟨t1, rfl⟩

/-- The slot of lanes that act one after another. -/
theorem laneRun_slot {s : State} {e : Env} {n : Nat} {k : Chk} {F : State → Nat → Thread → LaneRes} {uses : List Use}
    {ok : State → Env → Nat → Thread → Bool} {g : State → Env → Nat → Thread → State} {b : State} (hp : s.port e = true)
    (h : ∀ s1 u t, s1.thread? u = some t → e.names t uses = true → ok s1 e u t = true →
      (k.stall && t.spec) = false ∧ s1.check e k t = none ∧ F s1 u t = .done (g s1 e u t) ∧ s1.pagesFor (g s1 e u t) = [] ∧ (g s1 e u t).warps = s1.warps ∧
        keepsThreads s1 (g s1 e u t))
    (hb : laneRun e uses ok g (s.begin e) (s.active e) = some b) :
    (s.runSlot e n k F).still = b.still ∧ (s.runSlot e n k F).passed e n ∧ s.runSlot e n k F = b.closeSlot e.wk n := by
  obtain ⟨s1, hI, hW, hs⟩ := runSlot_done (n := n) (k := k) (f := F) hp
    (fun pre s1 => ∀ post, s.active e = pre ++ post → laneRun e uses ok g s1 post = some b ∧
      ∀ u ∈ e.w.members, ∃ t, s1.thread? u = some t)
    (fun post hpost => by
      simp only [List.nil_append] at hpost
      exact ⟨hpost ▸ hb, begin_members hp⟩)
    (by
      intro pre u post s1 hact hI
      obtain ⟨hr, hm⟩ := hI (u :: post) hact
      unfold laneRun at hr
      cases ht : s1.thread? u with
      | none => simp [ht] at hr
      | some t =>
        simp only [ht] at hr
        split at hr
        · rename_i hc
          simp only [Bool.and_eq_true, beq_iff_eq] at hc
          obtain ⟨a1, a2, a3, ap, a4, a5⟩ := h s1 u t ht hc.1.2 hc.2
          refine ⟨t, g s1 e u t, rfl, hc.1.1, a1, a2, a3, ap, a4, ?_⟩
          intro post' hpost'
          have : post' = post := by
            rw [hact] at hpost'
            simpa using hpost'.symm
          subst this
          refine ⟨hr, fun v hv => ?_⟩
          obtain ⟨t0, h0⟩ := hm v hv
          obtain ⟨t1, h1⟩ := a5 v t0 h0
          exact keepsThreads_arrive _ _ _ v t1 h1
        · cases hr)
  obtain ⟨hr, hm⟩ := hI [] (by simp)
  obtain rfl : s1 = b := by simpa [laneRun] using hr
  exact ⟨by rw [hs, State.closeSlot_still], by rw [hs]; exact closeSlot_passed hW hm, hs⟩

/-- A per-lane instruction all of whose lanes are done with their effects. -/
theorem effects_of_lane {i : Instr} {n : Nat} {k : Env → Chk} {F : Env → State → Nat → Thread → LaneRes} {uses : List Use}
    {ok : State → Env → Nat → Thread → Bool} {g : State → Env → Nat → Thread → State}
    (hi : ∀ s, exec i s = s.perLane n k F)
    (h : ∀ e s1 u t, s1.thread? u = some t → e.names t uses = true → ok s1 e u t = true →
      ((k e).stall && t.spec) = false ∧ s1.check e (k e) t = none ∧ F e s1 u t = .done (g s1 e u t) ∧
        s1.pagesFor (g s1 e u t) = [] ∧ (g s1 e u t).warps = s1.warps ∧ keepsThreads s1 (g s1 e u t)) : effects i n uses ok g := by
  intro s e b hp hb
  obtain ⟨h1, h2, _⟩ := laneRun_slot (n := n) (k := k e) (F := F e) hp (h e) hb
  exact ⟨_, (hi s).trans (perLane_next (State.port_env hp) n k F), h1, h2⟩

/-! ## A lane that leaves its warp -/

theorem closeSlot_passedBy {s1 : State} {e : Env} {n : Nat} {ms : List Nat} {w1 : Warp}
    (hms : ms ≠ []) (h1 : SMap.get? s1.warps e.wk = some w1)
    (h2 : w1 = { e.w with members := ms, arrived := w1.arrived, issued := w1.issued }) (h3 : ∀ u ∈ ms, u ∈ w1.arrived)
    (hm : ∀ u ∈ ms, ∃ t, s1.thread? u = some t) : (s1.closeSlot e.wk n).passedBy e n ms := by
  have hme : w1.members = ms := by rw [h2]
  have hall : w1.members.all w1.arrived.contains = true := by
    rw [List.all_eq_true]; intro u hu
    simpa using h3 u (hme ▸ hu)
  have hc : w1.count = e.w.count := by rw [h2]; rfl
  have hs : w1.slot = e.w.slot := by rw [h2]
  have hpc : w1.pc = e.w.pc := by rw [h2]
  unfold State.passedBy State.closeSlot
  rw [if_neg hms]
  simp only [h1, hall, if_true, hc, hs]
  split
  · simp only [SMap.get?_put_same, Option.some.injEq]
    rw [h2]
  · refine ⟨by simp [SMap.get?_del], fun u hu => ?_⟩
    obtain ⟨t, ht⟩ := hm u hu
    refine ⟨t.standAt (w1.pc + 64) 0 true w1.hint, ?_, rfl, by simp [Thread.standAt, hpc], rfl⟩
    have := foldl_standAt w1.members (w1.pc + 64) w1.hint s1 u
    rw [if_pos (hme ▸ hu), ht] at this
    exact this

/-- The warp after a member has left it. -/
theorem leaveWarp_warps (s : State) (wk u : Nat) {w : Warp} (h : SMap.get? s.warps wk = some w) :
    SMap.get? (s.leaveWarp wk u).warps wk =
      if w.members.filter (· != u) = [] then none
      else some { w with members := w.members.filter (· != u), arrived := w.arrived.filter (· != u) } := by
  unfold State.leaveWarp
  simp only [h]
  by_cases hm : w.members.filter (· != u) = []
  · simp [hm, SMap.get?_del]
  · simp [hm]

@[simp] theorem leaveWarp_threads (s : State) (wk u : Nat) : (s.leaveWarp wk u).threads = s.threads := by
  unfold State.leaveWarp
  split
  · rfl
  · dsimp only; split <;> rfl

theorem leaveWarp_still (s : State) (wk u : Nat) : (s.leaveWarp wk u).still = s.still := by
  unfold State.leaveWarp
  split
  · rfl
  · dsimp only; split <;> rfl

/-- A slot whose one active lane has left the warp: `s2` is the state after the lane, its warp as it was but for the lane. -/
theorem departed {s : State} {e : Env} {n : Nat} {u : Nat} {s2 : State} (hp : s.port e = true) (ha : s.active e = [u])
    (hw : SMap.get? s2.warps e.wk =
      match SMap.get? (s.begin e).warps e.wk with
      | none => none
      | some w => if w.members.filter (· != u) = [] then none
        else some { w with members := w.members.filter (· != u), arrived := w.arrived.filter (· != u) })
    (hk : keepsThreads (s.begin e) s2) :
    (s2.closeSlot e.wk n).still = s2.still ∧ (s2.closeSlot e.wk n).passedBy e n (e.w.members.filter (· != u)) ∧
      (s2.closeSlot e.wk n).thread? u = s2.thread? u := by
  obtain ⟨w1, h1, h2, h3⟩ := State.begin_warp hp
  rw [h1] at hw
  have hme : w1.members = e.w.members := by rw [h2]
  simp only [hme] at hw
  by_cases hf : e.w.members.filter (· != u) = []
  · rw [if_pos hf] at hw
    refine ⟨State.closeSlot_still _ _ _, ?_, ?_⟩
    · simp [State.passedBy, hf, State.closeSlot, hw]
    · simp [State.closeSlot, hw]
  · rw [if_neg hf] at hw
    refine ⟨State.closeSlot_still _ _ _, ?_, ?_⟩
    · refine closeSlot_passedBy hf hw ?_ ?_ ?_
      · rw [h2]
      · intro v hv
        simp only [List.mem_filter, bne_iff_ne] at hv ⊢
        exact ⟨h3 v hv.1 (by simp [ha, hv.2]), hv.2⟩
      · intro v hv
        obtain ⟨t, ht⟩ := begin_members hp v (List.mem_of_mem_filter hv)
        exact hk v t ht
    · unfold State.closeSlot
      simp only [hw]
      split
      · split
        · rfl
        · have := foldl_standAt (e.w.members.filter (· != u)) (w1.pc + 64) w1.hint s2 u
          rw [if_neg (by simp)] at this
          exact this
      · rfl

/-- The only active lane of a slot is held by none. -/
theorem heldBefore_alone {s : State} {e : Env} {k : Chk} {tr : List (Nat × Trap)} {u : Nat} (hp : s.port e = true) (ha : s.active e = [u]) :
    (s.begin e).heldBefore e k tr u = false := by
  obtain ⟨w1, h1, h2, h3⟩ := State.begin_warp hp
  exact heldBefore_false (pre := []) (post := []) (by simpa using ha) ⟨w1, h1, h2, fun v hv hd => h3 v hv (by simpa using hd)⟩

/-- A per-lane instruction whose one active lane leaves the warp by its effect. -/
theorem departs_of_gone {i : Instr} {n : Nat} {k : Env → Chk} {F : Env → State → Nat → Thread → LaneRes} {uses : List Use}
    {ok : State → Env → Nat → Thread → Bool} {g : State → Env → Nat → Thread → State} {p : State → Env → Nat → Thread → Stand}
    (hi : ∀ s, exec i s = s.perLane n k F)
    (h : ∀ e s1 u t, s1.thread? u = some t → e.names t uses = true → ok s1 e u t = true →
      ((k e).stall && t.spec) = false ∧ s1.check e (k e) t = none ∧ ∃ s2, F e s1 u t = .gone s2 ∧ s2.still = (g s1 e u t).still ∧
        s2.warps = (s1.leaveWarp e.wk u).warps ∧ keepsThreads s1 s2 ∧ s2.standsAt u (p s1 e u t)) : departs i n uses ok g p := by
  intro s e u t hp ha ht hn ho
  obtain ⟨a1, a2, s2, a3, a4, a5, a6, a7⟩ := h e (s.begin e) u t ht hn ho
  have hst : t.status = .inWarp := by
    obtain ⟨t0, ht0, hst0, _⟩ := State.port_member hp (State.active_member (by rw [ha]; simp : u ∈ s.active e))
    have h1 := State.thread_of_base (s := s) (s1 := s.begin e) (by rw [State.begin_base]) u
    rw [ht, ht0] at h1
    simp only [Option.map_some, Option.some.injEq] at h1
    exact (status_of_base h1).trans hst0
  have hrun : s.runSlot e n (k e) (F e) = s2.closeSlot e.wk n := by
    simp [State.runSlot, ha, runLane, ht, hst, a1, a2, a3, heldBefore_alone hp ha, LaneRes.await, State.applyRes, State.finish, State.takeTraps]
  obtain ⟨w1, h1, h2, h3⟩ := State.begin_warp hp
  obtain ⟨c1, c2, c3⟩ := departed (n := n) hp ha (s2 := s2) (by rw [a5, leaveWarp_warps _ _ _ h1, h1]) a6
  refine ⟨_, (hi s).trans (perLane_next (State.port_env hp) n k F), ?_, ?_, ?_⟩
  · rw [hrun, c1, a4]
  · obtain ⟨t', ht', hh⟩ := a7
    exact ⟨t', by rw [hrun, c3, ht'], hh⟩
  · rw [hrun]; exact c2

/-- A per-lane instruction whose one active lane parks. -/
theorem departs_of_park {i : Instr} {n : Nat} {k : Env → Chk} {F : Env → State → Nat → Thread → LaneRes} {uses : List Use}
    {ok : State → Env → Nat → Thread → Bool} {g : State → Env → Nat → Thread → State} {p : State → Env → Nat → Thread → Stand}
    (hi : ∀ s, exec i s = s.perLane n k F)
    (h : ∀ e s1 u t, s1.thread? u = some t → e.names t uses = true → ok s1 e u t = true →
      ((k e).stall && t.spec) = false ∧ s1.check e (k e) t = none ∧ ∃ s2 w, F e s1 u t = .park s2 w ∧ s2.still = (g s1 e u t).still ∧
        s2.warps = s1.warps ∧ keepsThreads s1 s2 ∧ p s1 e u t = ⟨e.w.pc, e.w.slot, .boundary, some w⟩) : departs i n uses ok g p := by
  intro s e u t hp ha ht hn ho
  obtain ⟨a1, a2, s2, w, a3, a4, a5, a6, a7⟩ := h e (s.begin e) u t ht hn ho
  have hst : t.status = .inWarp := by
    obtain ⟨t0, ht0, hst0, _⟩ := State.port_member hp (State.active_member (by rw [ha]; simp : u ∈ s.active e))
    have h1 := State.thread_of_base (s := s) (s1 := s.begin e) (by rw [State.begin_base]) u
    rw [ht, ht0] at h1
    simp only [Option.map_some, Option.some.injEq] at h1
    exact (status_of_base h1).trans hst0
  have hrun : s.runSlot e n (k e) (F e) = (s2.park e u w).closeSlot e.wk n := by
    simp [State.runSlot, ha, runLane, ht, hst, a1, a2, a3, heldBefore_alone hp ha, LaneRes.await, State.applyRes, State.finish, State.takeTraps]
  obtain ⟨w1, h1, h2, h3⟩ := State.begin_warp hp
  have hk : keepsThreads (s.begin e) (s2.park e u w) := by
    intro v tv hv
    obtain ⟨t1, h1⟩ := a6 v tv hv
    have := keepsThreads_modThread s2 u (fun t => { t.standAt e.w.pc e.w.slot false false with wait := some w }) v t1 h1
    simpa [State.park, State.thread?] using this
  obtain ⟨c1, c2, c3⟩ := departed (n := n) hp ha (s2 := s2.park e u w)
    (by
      have hsw : SMap.get? (s2.modThread u fun t => { t.standAt e.w.pc e.w.slot false false with wait := some w }).warps e.wk = some w1 := by
        show SMap.get? s2.warps e.wk = some w1
        rw [a5, h1]
      rw [State.park, leaveWarp_warps _ _ _ hsw, h1]) hk
  obtain ⟨t2, ht2⟩ := a6 u t ht
  refine ⟨_, (hi s).trans (perLane_next (State.port_env hp) n k F), ?_, ?_, ?_⟩
  · rw [hrun, c1, ← a4, State.park, leaveWarp_still]
    exact State.modThread_still _ _ _ fun _ => rfl
  · rw [a7]
    refine ⟨{ t2.standAt e.w.pc e.w.slot false false with wait := some w }, ?_, rfl, rfl, rfl, rfl⟩
    rw [hrun, c3]
    simp [State.park, State.thread?] 
    have := State.modThread_thread_same s2 u (fun t => { t.standAt e.w.pc e.w.slot false false with wait := some w })
    rw [ht2] at this
    simpa [State.thread?] using this
  · rw [hrun]; exact c2

/-- A record does not depend on the sub-warp a trap is parked in. -/
theorem faultRecord_group (s : State) (i : Issuer) (x : Trap) (g w : Nat) (h en : Bool) :
    s.faultRecord i { x with group := g } w h en = s.faultRecord i x w h en := rfl

/-- One lane of the issue traps: its record is written, or waits, and it parks outside the warp (R230 to R232). -/
theorem takeTraps_one {s : State} {e : Env} {u n : Nat} {t : Thread} {x : Trap} (ht : s.thread? u = some t) (hh : t.handler = none)
    (hos : x.os = false) (hon : x.only = false) :
    let q := if trapResumesNext x.num then nextPlace e.w n else (e.w.pc, e.w.slot)
    let r := s.faultRecord (e.issuer u t) x (2 ^ t.lane) t.held.isSome false
    s.takeTraps e n [(u, x)] =
      (r.1.modThread u fun t => { t.standAt q.1 q.2 (q.2 == 0 && trapResumesNext x.num) false with
        status := .parked r.2 { x with group := s.trapGroup e.crew.ctx }, wait := none, timer := none, timedOut := false, held := none }).leaveWarp e.wk u := by
  have hw : s.subwOf [(u, x)] = 2 ^ t.lane := by simp [State.subwOf, hon, ht]
  simp only [State.takeTraps, List.foldl_cons, List.foldl_nil, hw, State.takeTrap, ht, hon, hh, hos, Option.isSome_none,
    faultRecord_group]
  rfl

/-- A per-lane instruction whose one active lane traps: its record is written, or waits, and it parks. -/
theorem departs_of_trap {i : Instr} {n : Nat} {k : Env → Chk} {F : Env → State → Nat → Thread → LaneRes} {uses : List Use}
    {ok : State → Env → Nat → Thread → Bool} {tr : State → Env → Nat → Thread → Trap}
    (hi : ∀ s, exec i s = s.perLane n k F)
    (h : ∀ e s1 u t, s1.thread? u = some t → e.names t uses = true → ok s1 e u t = true →
      ((k e).stall && t.spec) = false ∧ (tr s1 e u t).os = false ∧ (tr s1 e u t).only = false ∧ s1.mayTrap e u t (tr s1 e u t) = true ∧
        (s1.check e (k e) t = some (tr s1 e u t) ∨ s1.check e (k e) t = none ∧ F e s1 u t = .trap s1 (tr s1 e u t)) ∧
        (s1.faultRecord (e.issuer u t) (tr s1 e u t) (2 ^ t.lane) t.held.isSome false).1.warps = s1.warps ∧
        keepsThreads s1 (s1.faultRecord (e.issuer u t) (tr s1 e u t) (2 ^ t.lane) t.held.isSome false).1) :
    departs i n uses ok (fun s e u t => (s.faultRecord (e.issuer u t) (tr s e u t) (2 ^ t.lane) t.held.isSome false).1)
      (fun s e u t => trapStand s e u t (tr s e u t)
        (if trapResumesNext (tr s e u t).num then (if e.w.slot + n < e.w.count then (e.w.pc, e.w.slot + n) else (e.w.pc + 64, 0))
         else (e.w.pc, e.w.slot))) := by
  intro s e u t hp ha ht hn ho
  obtain ⟨a1, a2, ho', a3, a4, a5, a6⟩ := h e (s.begin e) u t ht hn ho
  simp only [State.mayTrap, Bool.and_eq_true, Option.isNone_iff_eq_none, Bool.not_eq_true'] at a3
  obtain ⟨⟨hh, hsp⟩, _⟩ := a3
  obtain ⟨t2, ht2⟩ := a6 u t ht
  have hst : t.status = .inWarp := by
    obtain ⟨t0, ht0, hst0, _⟩ := State.port_member hp (State.active_member (by rw [ha]; simp : u ∈ s.active e))
    have h1 := State.thread_of_base (s := s) (s1 := s.begin e) (by rw [State.begin_base]) u
    rw [ht, ht0] at h1
    simp only [Option.map_some, Option.some.injEq] at h1
    exact (status_of_base h1).trans hst0
  generalize htr : tr (s.begin e) e u t = x at *
  have hfold : (s.active e).foldl (runLane e (k e) (F e)) (s.begin e, []) = (s.begin e, [(u, x)]) := by
    rcases a4 with a4 | ⟨a4, a4'⟩
    · simp [ha, runLane, ht, hst, a4, State.applyRes, hsp, ho']
    · simp [ha, runLane, ht, hst, a4, a4', heldBefore_alone hp ha, LaneRes.await, State.pagesFor_same, State.applyRes, hsp, ho']
  set r := (s.begin e).faultRecord (e.issuer u t) x (2 ^ t.lane) t.held.isSome false with hr
  set q := if trapResumesNext x.num then nextPlace e.w n else (e.w.pc, e.w.slot) with hq
  set m : Thread → Thread := fun t => { t.standAt q.1 q.2 (q.2 == 0 && trapResumesNext x.num) false with status := .parked r.2 { x with group := (s.begin e).trapGroup e.crew.ctx }, wait := none, timer := none, timedOut := false, held := none } with hm
  have hrun : s.runSlot e n (k e) (F e) = ((r.1.modThread u m).leaveWarp e.wk u).closeSlot e.wk n := by
    rw [State.runSlot, hfold]
    simp only [State.finish, takeTraps_one ht hh a2 ho']
    rfl
  obtain ⟨w1, h1, h2, h3⟩ := State.begin_warp hp
  have hk : keepsThreads (s.begin e) ((r.1.modThread u m).leaveWarp e.wk u) := by
    intro v tv hv
    obtain ⟨t1, h1⟩ := a6 v tv hv
    have := keepsThreads_modThread r.1 u m v t1 h1
    simpa [State.thread?] using this
  obtain ⟨c1, c2, c3⟩ := departed (n := n) hp ha (s2 := (r.1.modThread u m).leaveWarp e.wk u)
    (by
      have hsw : SMap.get? (r.1.modThread u m).warps e.wk = some w1 := by
        show SMap.get? r.1.warps e.wk = some w1
        rw [a5, h1]
      rw [leaveWarp_warps _ _ _ hsw, h1]) hk
  refine ⟨_, (hi s).trans (perLane_next (State.port_env hp) n k F), ?_, ?_, ?_⟩
  · dsimp only
    rw [hrun, c1, leaveWarp_still, htr, ← hr]
    exact State.modThread_still _ _ _ fun _ => rfl
  · dsimp only
    rw [htr]
    have hqq : (if trapResumesNext x.num then (if e.w.slot + n < e.w.count then (e.w.pc, e.w.slot + n) else (e.w.pc + 64, 0)) else (e.w.pc, e.w.slot)) = q := rfl
    rw [hqq]
    refine ⟨m t2, ?_, rfl, rfl, ?_, rfl⟩
    · rw [hrun, c3]
      have := State.modThread_thread_same r.1 u m
      rw [ht2] at this
      simpa [State.thread?] using this
    · simp [trapStand, hm, ← hr]
  · rw [hrun]; exact c2

/-- Leaving a warp reads only the warps. -/
theorem leaveWarp_congr {s s1 : State} (h : s1.warps = s.warps) (wk u : Nat) : (s1.leaveWarp wk u).warps = (s.leaveWarp wk u).warps := by
  unfold State.leaveWarp
  rw [h]
  split
  · exact h
  · dsimp only; split <;> rfl

/-- A lane that leaves its warp with its thread changed by `m`, which shows only in its place. -/
theorem left_facts {s : State} {wk u : Nat} {m : Thread → Thread} (hm : ∀ t, (m t).still = t.still) {t : Thread}
    (ht : s.thread? u = some t) :
    ((s.modThread u m).leaveWarp wk u).still = s.still ∧
    ((s.modThread u m).leaveWarp wk u).warps = (s.leaveWarp wk u).warps ∧
    keepsThreads s ((s.modThread u m).leaveWarp wk u) ∧
    ((s.modThread u m).leaveWarp wk u).thread? u = some (m t) := by
  refine ⟨by rw [leaveWarp_still]; exact State.modThread_still _ _ _ hm, leaveWarp_congr (s := s) (s1 := s.modThread u m) rfl wk u, ?_, ?_⟩
  · intro v tv hv
    have := keepsThreads_modThread s u m v tv hv
    simpa [State.thread?] using this
  · have := State.modThread_thread_same s u m
    rw [ht] at this
    simpa [State.thread?] using this

theorem transfer_facts {s : State} {e : Env} {u x : Nat} {t : Thread} (ht : s.thread? u = some t) :
    (s.transfer e u x).still = s.still ∧ (s.transfer e u x).warps = (s.leaveWarp e.wk u).warps ∧
    keepsThreads s (s.transfer e u x) ∧ (s.transfer e u x).standsAt u ⟨x, 0, .boundary, none⟩ := by
  obtain ⟨a, b, c, d⟩ := left_facts (wk := e.wk)
    (m := fun t => { t.standAt x 0 false e.w.hint with wait := none, timer := none, timedOut := false, held := none }) (fun _ => rfl) ht
  exact ⟨a, b, c, _, d, rfl, rfl, rfl, rfl⟩

theorem standNext_facts {s : State} {e : Env} {u n : Nat} {t : Thread} (ht : s.thread? u = some t) :
    (s.standNext e u n).still = s.still ∧ (s.standNext e u n).warps = (s.leaveWarp e.wk u).warps ∧
    keepsThreads s (s.standNext e u n) ∧
    (s.standNext e u n).standsAt u ⟨(nextPlace e.w n).1, (nextPlace e.w n).2, .boundary, none⟩ := by
  obtain ⟨a, b, c, d⟩ := left_facts (wk := e.wk)
    (m := fun t => { t.standAt (nextPlace e.w n).1 (nextPlace e.w n).2 ((nextPlace e.w n).2 == 0) ((nextPlace e.w n).2 == 0 && e.w.hint) with
      wait := none, timer := none, timedOut := false, held := none }) (fun _ => rfl) ht
  exact ⟨a, b, c, _, d, rfl, rfl, rfl, rfl⟩

/-- A target that is no stub is none for the model's test. -/
theorem noStub_isStub {s : State} {e : Env} {pc : Nat} (h : s.noStub e pc = true) : s.isStub e.core e.crew.ctx e.c pc = false := by
  unfold State.noStub at h
  unfold State.isStub
  split
  · rfl
  · rename_i hc
    simp only [hc, Bool.or_eq_true, Bool.false_eq_true, false_or] at h
    have hr : List.range 1 = [0] := rfl
    simp only [State.codeWords, hr, List.mapM_cons, List.mapM_nil, Nat.mul_zero, Nat.add_zero]
    cases ht : s.transDev e.c ((e.c.cspace + pc) % 2 ^ 64) with
    | hit hh =>
      rw [ht] at h
      dsimp only at h
      cases hl : hh.loc with
      | hbm a => simp only [hl, bne_iff_ne] at h; simp [hl, State.readLoc, h]
      | _ => simp only [hl] at h; cases h
    | _ => simp

end Sys2Proof.Machine
end

