-- ==== Sys2Proof/Laws/Records.lean ====
section
/-! SUPPORT. What a record of the device leaves alone when it does not end its context (R71, R237). -/

namespace Sys2Proof.Machine

/-- What a write that reaches its point may change of the threads: their monitors. -/
structure Kept (s s1 : State) : Prop where
  warps : s1.warps = s.warps
  threads : keepsThreads s s1
  live : ∀ cid, s1.live cid = s.live cid

theorem Kept.refl (s : State) : Kept s s := ⟨rfl, keepsThreads_refl s, fun _ => rfl⟩

theorem Kept.trans {s s1 s2 : State} (h : Kept s s1) (h' : Kept s1 s2) : Kept s s2 :=
  ⟨h'.warps.trans h.warps, fun v t hv => by
    obtain ⟨t1, h1⟩ := h.threads v t hv
    exact h'.threads v t1 h1, fun cid => (h'.live cid).trans (h.live cid)⟩

theorem keepsThreads_of_map {s s1 : State} {g : Nat × Thread → Thread} (h : s1.threads = s.threads.map fun e => (e.1, g e)) :
    keepsThreads s s1 := by
  intro v t hv
  rw [State.thread?] at hv ⊢
  rw [h]
  generalize s.threads = m at hv
  induction m with
  | nil => simp at hv
  | cons e m ih =>
    rw [List.map_cons, SMap.get?_cons]
    split
    · exact ⟨_, rfl⟩
    · rename_i hne
      rw [SMap.get?_cons, if_neg hne] at hv
      exact ih hv

theorem wakeMonitors_kept (s : State) (l : Loc) : Kept s (s.wakeMonitors l) := by
  refine ⟨rfl, ?_, fun _ => rfl⟩
  apply keepsThreads_of_map
    (g := fun e : Nat × Thread => match e.2.monitor with
      | some (g, _) => if g == l.canon.gran && (e.2.resident || !l.canon.isScr) then { e.2 with monitor := some (g, true) } else e.2
      | none => e.2)
  unfold State.wakeMonitors
  dsimp only
  apply List.map_congr_left
  intro e _
  cases h : e.2.monitor with
  | none => simp
  | some x => dsimp only; split <;> rfl

theorem Kept.of_eq {s s1 : State} (h1 : s1.warps = s.warps) (h2 : s1.threads = s.threads) (h3 : s1.ctxs = s.ctxs) : Kept s s1 :=
  ⟨h1, fun v t hv => ⟨t, by rw [State.thread?, h2]; exact hv⟩, fun cid => by rw [State.live, h3, ← State.live]⟩

theorem foldl_kept {α : Type} (f : State → α → State) (h : ∀ s a, Kept s (f s a)) : ∀ (l : List α) (s : State), Kept s (l.foldl f s)
  | [], s => Kept.refl s
  | a :: l, s => (h s a).trans (foldl_kept f h l _)

theorem snapUnit_kept (s : State) (cid u : Nat) (l : Loc) : Kept s (s.snapUnit cid u l) := by
  unfold State.snapUnit
  split
  · rename_i c a hc
    split
    · exact Kept.refl s
    · split
      · refine ⟨rfl, keepsThreads_refl s, fun cid' => ?_⟩
        simp only [State.live, SMap.get?_put]
        by_cases h : cid' = cid
        · subst h; rw [if_pos rfl, hc]; rfl
        · rw [if_neg h]
      · exact Kept.refl s
  · exact Kept.refl s

theorem markUnit_kept (s : State) (cid u : Nat) (l : Loc) : Kept s (s.markUnit cid u l) := by
  unfold State.markUnit
  split
  · exact Kept.refl s
  · split
    · exact Kept.refl s
    · split
      · dsimp only
        split
        · exact (snapUnit_kept s cid u l).trans (Kept.of_eq rfl rfl rfl)
        · exact snapUnit_kept s cid u l
      · exact snapUnit_kept s cid u l

theorem markDirty_kept (s : State) (cid va : Nat) (l : Loc) : Kept s (s.markDirty cid va l) := by
  unfold State.markDirty
  dsimp only
  split
  · exact (markUnit_kept s _ _ _).trans (foldl_kept _ (fun s _ => foldl_kept _ (fun s _ => markUnit_kept s _ _ _) _ s) _ _)
  · exact markUnit_kept s _ _ _

theorem scrWrite_kept : ∀ (bs : List Byte) (s : State) (c b : Nat), Kept s (s.scrWrite c b bs)
  | [], s, _, _ => Kept.refl s
  | x :: xs, s, c, b => by
    rw [State.scrWrite]
    exact (Kept.of_eq rfl rfl rfl : Kept s { s with scr := SMap.setD s.scr 0 (scrKey c b) x }).trans (scrWrite_kept xs _ _ _)

theorem winWrite1_kept (s : State) (c o : Nat) (d : List Byte) (g : Tag) : Kept s (s.winWrite1 c o d g) := by
  unfold State.winWrite1
  dsimp only
  split
  · exact Kept.of_eq rfl rfl rfl
  · exact Kept.of_eq rfl rfl rfl
  · exact (scrWrite_kept d s c _).trans (Kept.of_eq rfl rfl rfl)
  · exact Kept.refl s

theorem writeLoc_kept (s : State) (l : Loc) (d : List Byte) (g : Tag) (ta : Option Nat) (w : Bool) : Kept s (s.writeLoc l d g ta w) := by
  unfold State.writeLoc
  split
  · dsimp only
    split
    · exact Kept.of_eq rfl rfl rfl
    · exact Kept.of_eq rfl rfl rfl
  · exact Kept.of_eq rfl rfl rfl
  · exact Kept.of_eq rfl rfl rfl
  · unfold State.winWrite
    dsimp only
    split
    · split
      · exact (foldl_kept _ (fun s (x : Nat × List Byte) => winWrite1_kept s _ x.1 x.2 g) _ s).trans (Kept.of_eq rfl rfl rfl)
      · exact foldl_kept _ (fun s (x : Nat × List Byte) => winWrite1_kept s _ x.1 x.2 g) _ s
    · exact foldl_kept _ (fun s (x : Nat × List Byte) => winWrite1_kept s _ x.1 x.2 g) _ s
  · exact (scrWrite_kept d s _ _).trans (Kept.of_eq rfl rfl rfl)

/-- A write that reaches its point leaves warps, threads and contexts as they are but for monitors and dirty marks. -/
theorem performWrite_kept (s : State) (cid va : Nat) (l : Loc) (d : List Byte) (g : Tag) (ta : Option Nat) :
    Kept s (s.performWrite cid va l d g ta) := by
  unfold State.performWrite
  dsimp only
  refine Kept.trans ?_ (wakeMonitors_kept _ l)
  refine Kept.trans ?_ (writeLoc_kept _ _ _ _ _ _)
  split
  · exact Kept.refl s
  · exact markDirty_kept s cid va l

theorem recWrite_kept : ∀ (gs : List (List Byte)) (s : State) (cid va : Nat) (s1 : State), s.recWrite cid va gs = .ok s1 → Kept s s1
  | [], s, _, _, s1, h => by
    simp only [State.recWrite, RecOut.ok.injEq] at h
    exact h ▸ Kept.refl s
  | g :: gs, s, cid, va, s1, h => by
    unfold State.recWrite at h
    split at h
    · cases h
    · split at h
      · cases h
      · cases h
      · cases h
      · split at h
        · cases h
        · exact (performWrite_kept s cid va _ _ _ _).trans (recWrite_kept gs _ _ _ _ h)

theorem live_put {s : State} {cid : Nat} {c c' : Context} (h : SMap.get? s.ctxs cid = some c) (he : c'.ended = c.ended) (cid' : Nat) :
    ({ s with ctxs := SMap.put s.ctxs cid c' } : State).live cid' = s.live cid' := by
  simp only [State.live, SMap.get?_put]
  by_cases hc : cid' = cid
  · subst hc; rw [if_pos rfl, h]; simp [he]
  · rw [if_neg hc]

theorem endContext_dead (s : State) (cid cause : Nat) : (s.endContext cid cause).live cid = false := by
  simp only [State.endContext, State.live, SMap.get?_mod_same]
  generalize SMap.get? _ cid = o
  cases o <;> simp

theorem log_live (s : State) (cid a b c d f cid' : Nat) : (s.log cid a b c d f).live cid' = s.live cid' := by
  simp only [State.log, State.logItem, State.live, SMap.get?_mod]
  by_cases h : cid' = cid
  · subst h; rw [if_pos rfl]; cases SMap.get? s.ctxs cid' <;> rfl
  · rw [if_neg h]

theorem putRecord_kept (s : State) (uid core : Nat) (engine held : Bool) (cid va seq : Nat) (data : List (List Byte))
    (h : (s.putRecord uid core engine held cid va seq data).live cid = true) : Kept s (s.putRecord uid core engine held cid va seq data) := by
  unfold State.putRecord at h ⊢
  split
  · rename_i s1 h1
    exact recWrite_kept _ _ _ _ _ h1
  · exact Kept.of_eq rfl rfl rfl
  · rename_i h1
    rw [h1] at h
    simp only [log_live, endContext_dead] at h
    cases h

/-- A fault record that does not end its context leaves warps and threads in place. -/
theorem faultRecord_kept (s : State) (i : Issuer) (t : Trap) (subw : Nat) (held engine : Bool)
    (h : (s.faultRecord i t subw held engine).1.live i.ctx = true) : Kept s (s.faultRecord i t subw held engine).1 := by
  unfold State.faultRecord at h ⊢
  split
  · exact Kept.refl s
  · rename_i c hc
    rw [hc] at h
    have h1 : Kept s { s with ctxs := SMap.put s.ctxs i.ctx { c with faultSeq := (c.faultSeq + 1) % 2 ^ 64 } } :=
      ⟨rfl, keepsThreads_refl s, live_put hc rfl⟩
    exact h1.trans (putRecord_kept _ _ _ _ _ _ _ _ _ h)

/-- A birth that does not end its context leaves warps and threads in place. -/
theorem birth_kept (s : State) (i : Issuer) (kind : Nat) (o : BirthOps) (engine early : Bool)
    (h : (s.birth i kind o engine early).1.live i.ctx = true) : Kept s (s.birth i kind o engine early).1 := by
  unfold State.birth at h ⊢
  split
  · exact Kept.refl s
  · rename_i c hc
    rw [hc] at h
    have h1 : Kept s { s with ctxs := SMap.put s.ctxs i.ctx { c with anomSeq := (c.anomSeq + 1) % 2 ^ 64 } } :=
      ⟨rfl, keepsThreads_refl s, live_put hc rfl⟩
    exact h1.trans (putRecord_kept _ _ _ _ _ _ _ _ _ h)

/-! ## A region that commits -/

theorem live_mod {s : State} {f : Context → Context} (hf : ∀ c, (f c).ended = c.ended) (k cid : Nat) :
    ({ s with ctxs := SMap.mod s.ctxs k f } : State).live cid = s.live cid := by
  simp only [State.live, SMap.get?_mod]
  by_cases h : cid = k
  · subst h; rw [if_pos rfl]; cases SMap.get? s.ctxs cid <;> simp [hf]
  · rw [if_neg h]

theorem Context.bin_ended (c : Context) (mem : List Host.Cell) (pc cls n : Nat) : (c.bin mem pc cls n).ended = c.ended := by
  unfold Context.bin
  cases c.binBase with
  | none => rfl
  | some b =>
    dsimp only
    cases List.find? _ (List.range 16) <;> rfl

theorem lanes_kept (s : State) (qk cid pc cls n : Nat) : Kept s (s.lanes qk cid pc cls n) := by
  unfold State.lanes
  split
  · exact Kept.refl s
  · exact ⟨rfl, keepsThreads_refl s, fun cid' => live_mod (fun c => Context.bin_ended c _ _ _ _) cid cid'⟩

theorem bbcWrite_kept {s s1 : State} {cid addr delta : Nat} (h : s.bbcWrite cid addr delta = some s1) : Kept s s1 := by
  unfold State.bbcWrite at h
  split at h
  · cases h; exact Kept.refl s
  · split at h
    · cases h; exact performWrite_kept s cid addr _ _ _ _
    · cases h

theorem bbcAdd_kept (s : State) (core cid addr n : Nat) : Kept s (s.bbcAdd core cid addr n) := by
  unfold State.bbcAdd
  dsimp only
  split
  · split
    · rename_i s1 h
      split at h
      · exact (bbcWrite_kept h).trans (Kept.of_eq rfl rfl rfl)
      · cases h
    · exact Kept.of_eq rfl rfl rfl
  · split
    · rename_i v s1 h
      split at h
      · cases h
      · unfold State.bbcEvict at h
        obtain ⟨x, -, hx⟩ := List.exists_of_findSome?_eq_some h
        rw [Option.map_eq_some_iff] at hx
        obtain ⟨s2, h2, h3⟩ := hx
        cases h3
        exact (bbcWrite_kept h2).trans (Kept.of_eq rfl rfl rfl)
    · exact Kept.of_eq rfl rfl rfl

theorem modThread_kept (s : State) (u : Nat) (f : Thread → Thread) : Kept s (s.modThread u f) :=
  ⟨rfl, keepsThreads_modThread s u f, fun _ => rfl⟩

theorem pushStore_kept (s : State) (u : Nat) (x : Store) : Kept s (s.pushStore u x) :=
  ⟨rfl, keepsThreads_modThread s u fun t => { t with fifo := t.fifo ++ [s.nextStore] }, fun _ => rfl⟩

theorem releasePail_kept (s : State) (u level : Nat) : Kept s (s.releasePail u level) := by
  unfold State.releasePail
  split
  · exact Kept.refl s
  · dsimp only
    rename_i t _
    have h : Kept s (s.setPail t ((s.pailAll t).filter fun p => !(p.uid == u && p.level == level))) := Kept.of_eq rfl rfl rfl
    exact h.trans (foldl_kept _ (fun s (p : PailEntry) => pushStore_kept s u (p.toStore t.core)) _ _)

theorem commitPend_kept (s : State) (core quad cid : Nat) (p : Pending) : Kept s (s.commitPend core quad cid p) := by
  unfold State.commitPend
  dsimp only
  exact (foldl_kept _ (fun s x => lanes_kept s _ _ _ _ _) _ s).trans (foldl_kept _ (fun s x => bbcAdd_kept s _ _ _ _) _ _)

/-- A region that commits leaves warps and threads in place. -/
theorem commitRegion_kept (s : State) (u : Nat) : Kept s (s.commitRegion u) := by
  unfold State.commitRegion
  split
  · exact Kept.refl s
  · split
    · exact Kept.refl s
    · dsimp only
      exact ((releasePail_kept s u 0).trans (commitPend_kept _ _ _ _ _)).trans (modThread_kept _ _ _)

/-- A birth of a lane's own instruction leaves warps and threads in place, unless it ends the context. -/
theorem laneBirth_kept (s : State) (e : Env) (u : Nat) (t : Thread) (kind : Nat) (o : BirthOps)
    (h : (s.laneBirth e u t kind o).1.live e.crew.ctx = true) : Kept s (s.laneBirth e u t kind o).1 := by
  unfold State.laneBirth at h ⊢
  dsimp only at h ⊢
  have hb := birth_kept _ (e.issuer u t) kind o false t.region.isSome h
  refine Kept.trans ?_ hb
  split
  · exact commitRegion_kept s u
  · exact Kept.refl s

end Sys2Proof.Machine
end

