-- ==== Sys2Proof/Laws/Births.lean ====
section
/-! SUPPORT. Instructions whose lanes write one result that may be a birth (R71, R74, R75). -/

namespace Sys2Proof.Machine

theorem setRegs_same (s : State) (t : Thread) (d : Nat) (rs : List Reg) :
    (s.setRegs t d rs).records = s.records ∧ (s.setRegs t d rs).warps = s.warps ∧ (s.setRegs t d rs).threads = s.threads := by
  rw [(setRegs_wrote (s1 := s) (d := d) (rs := rs) (rfl : t.base = t.base)).1]
  exact ⟨rfl, rfl, rfl⟩

/-- A lane's result is done with what `bornOr` says, when its birth, if it has one, goes on. -/
theorem putResult_bornOr {s : State} {e : Env} {u : Nat} {t : Thread} {r : Result}
    (h : r.kind = 0 ∨ s.mayBear e u t r.kind r.bops = true) :
    s.putResult e u t r = .done (s.bornOr e u t r.kind r.bops r.d (r.tag e) (resultRegs r.w r.bits)) ∧
      s.pagesFor (s.bornOr e u t r.kind r.bops r.d (r.tag e) (resultRegs r.w r.bits)) = [] ∧
      (s.bornOr e u t r.kind r.bops r.d (r.tag e) (resultRegs r.w r.bits)).warps = s.warps ∧
      keepsThreads s (s.bornOr e u t r.kind r.bops r.d (r.tag e) (resultRegs r.w r.bits)) := by
  unfold State.putResult State.bornOr
  by_cases hk : r.kind = 0
  · rw [if_pos hk, if_pos hk]
    obtain ⟨h1, h2, h3⟩ := setRegs_same s t r.d (resultRegs r.w r.bits (r.tag e))
    exact ⟨rfl, State.pagesFor_same h1, h2, fun v x hv => ⟨x, by rw [State.thread?, h3]; exact hv⟩⟩
  · rw [if_neg hk, if_neg hk]
    have h := h.resolve_left hk
    simp only [State.mayBear, State.recorded, Bool.and_eq_true, Bool.not_eq_true', bne_iff_ne, ne_eq, List.isEmpty_iff] at h
    obtain ⟨⟨hsp, hpol⟩, hl, hp⟩ := h
    have hb := laneBirth_kept s e u t r.kind r.bops hl
    unfold State.born
    dsimp only
    generalize hbb : s.laneBirth e u t r.kind r.bops = b at hb hp
    obtain ⟨h1, h2, h3⟩ := setRegs_same b.1 t r.d (resultRegs r.w r.bits b.2)
    refine ⟨?_, ?_, h2.trans hb.warps, fun v x hv => ?_⟩
    · simp [State.bornResult, hsp, hpol, hbb]
    · rw [← hp]; simp only [State.pagesFor, h1]
    · obtain ⟨y, hy⟩ := hb.threads v x hv
      exact ⟨y, by rw [State.thread?, h3]; exact hy⟩

/-- An instruction whose lanes write one result bears as `bears` says, when its result is the one that `bears` gives. -/
theorem bears_of_result {w : Nat} {i : Instr} {d : VReg} {uses : List Use} {kind : State → Env → Thread → Nat}
    {o : State → Env → Thread → BirthOps} {ops : State → Thread → RuleOps} {x : State → Env → Thread → BitVec w} {k : Chk}
    {G : Env → State → Thread → Result}
    (hi : ∀ s, exec i s = s.perLane 1 (fun _ => k) fun e s u t => s.putResult e u t (G e s t))
    (hu : k.uses = uses) (hc : k.cls = 0) (ha : k.anom = []) (hst : k.stall = false)
    (hG : ∀ e s t, (G e s t).d = d.toNat ∧ (G e s t).kind = kind s e t ∧ (kind s e t ≠ 0 → (G e s t).bops = o s e t) ∧
      (G e s t).w = w ∧ (G e s t).bits = (x s e t).toNat ∧ (G e s t).opdList = (ops s t).opds ∧ (G e s t).a.tag = (ops s t).a ∧
      (G e s t).sel = none) : bears i d uses kind o ops x := by
  refine effects_of_lane (k := fun _ => k) hi ?_
  intro e s1 u t _ hn hok
  obtain ⟨g1, g2, g3, g4, g5, g6, g7, g8⟩ := hG e s1 t
  have htag : (G e s1 t).tag e = ruleTag e.rule e.ownTag (ops s1 t).opds (ops s1 t).a none (x s1 e t).toNat := by
    simp only [Result.tag, g5, g6, g7, g8]
  have heq : s1.bornOr e u t (kind s1 e t) (o s1 e t) d.toNat
      (ruleTag e.rule e.ownTag (ops s1 t).opds (ops s1 t).a none (x s1 e t).toNat) (resultRegs w (x s1 e t).toNat) =
      s1.bornOr e u t (G e s1 t).kind (G e s1 t).bops (G e s1 t).d ((G e s1 t).tag e) (resultRegs (G e s1 t).w (G e s1 t).bits) := by
    rw [htag, g1, g2, g4, g5]
    by_cases hk : kind s1 e t = 0
    · simp only [State.bornOr, hk, if_true]
    · rw [g3 hk]
  rw [heq]
  refine ⟨by simp [hst], check_none (by rw [hc]; rfl) (by rw [hu]; exact hn) (Or.inr (by simp [ha])), putResult_bornOr ?_⟩
  simp only [Bool.or_eq_true, beq_iff_eq] at hok
  rcases hok with hk | hm
  · exact Or.inl (g2.trans hk)
  · by_cases hk : kind s1 e t = 0
    · exact Or.inl (g2.trans hk)
    · rw [g2, g3 hk]; exact Or.inr hm

/-- An instruction that runs operation `op` of major 1 births in its signed forms as `birth2` says, from what `op` is on bit vectors. -/
theorem birth2_of_arith {i : FVdab → Instr} {op : Nat} {when_ : (w : Nat) → BitVec w → BitVec w → Bool}
    {g : (w : Nat) → BitVec w → BitVec w → BitVec w} (hop : op < 6) (hi : ∀ f s, exec (i f) s = arith op f s)
    (hbits : ∀ (w : Nat) (x y : BitVec w), (intOp op w true x.toNat y.toNat).bits = (g w x y).toNat)
    (hovf : ∀ (w : Nat) (x y : BitVec w), 1 < w → (intOp op w true x.toNat y.toNat).ovf = when_ w x y) : birth2 i when_ g := by
  intro f
  have h6 : ¬ 6 ≤ op := by omega
  constructor <;> intro hv
  · refine bears_of_result (k := chk3 (vIs64 f.v) (vIs64 f.v) (vIs64 f.v) f.d f.a f.b) (G := fun _ s t => arithResult op f s t)
      (hi f) (by simp [chk3, vIs64, hv, use, bit]) rfl rfl rfl fun e s t => ?_
    have hb := hbits 32 (s.reg t f.a.toNat).val (s.reg t f.b.toNat).val
    have ho := hovf 32 (s.reg t f.a.toNat).val (s.reg t f.b.toNat).val (by norm_num)
    simp [arithResult, binResult, vIs64, vSigned, hv, bit, State.src, State.src32, hb, ho, State.w32, State.opd32, Result.opdList, h6, ovfKind, bops2, Src.rec32, and_comm]
  · refine bears_of_result (k := chk3 (vIs64 f.v) (vIs64 f.v) (vIs64 f.v) f.d f.a f.b) (G := fun _ s t => arithResult op f s t)
      (hi f) (by simp [chk3, vIs64, hv, use, bit]) rfl rfl rfl fun e s t => ?_
    have hb := hbits 64 (s.pair t f.a.toNat).1 (s.pair t f.b.toNat).1
    have ho := hovf 64 (s.pair t f.a.toNat).1 (s.pair t f.b.toNat).1 (by norm_num)
    simp [arithResult, binResult, vIs64, vSigned, hv, bit, State.src, State.src64, hb, ho, State.w64, State.opd64, Result.opdList, h6, ovfKind, bops2, Src.rec32, and_comm]
    intro _ _
    constructor <;> (apply BitVec.eq_of_toNat_eq; simp [BitVec.extractLsb'_toNat])

end Sys2Proof.Machine
end

