-- ==== Sys2Proof/Laws/Floats.lean ====
section
/-! SUPPORT. Codes of a float format stay within its width, and float results within their registers. -/

namespace Sys2Proof.Machine

/-- What a format's constants keep: its greatest magnitude, infinity and NaN lie below the sign bit. -/
def Fmt.fits (f : Fmt) : Prop :=
  f.maxCode < 2 ^ (f.eb + f.mb) ∧ (2 ^ f.eb - 1) * 2 ^ f.mb < 2 ^ (f.eb + f.mb) ∧ f.nanCode < 2 ^ (f.eb + f.mb)

theorem fF32_fits : fF32.fits := by unfold Fmt.fits; decide
theorem fF16_fits : fF16.fits := by unfold Fmt.fits; decide
theorem fBF16_fits : fBF16.fits := by unfold Fmt.fits; decide
theorem fE4M3_fits : fE4M3.fits := by unfold Fmt.fits; decide
theorem fE5M2_fits : fE5M2.fits := by unfold Fmt.fits; decide
theorem fE2M1_fits : fE2M1.fits := by unfold Fmt.fits; decide

theorem Fmt.pow_width (f : Fmt) : 2 ^ f.width = 2 ^ (f.eb + f.mb) + 2 ^ (f.eb + f.mb) := by
  rw [Fmt.width, show 1 + f.eb + f.mb = (f.eb + f.mb) + 1 from by omega, Nat.pow_succ]; omega

theorem Fmt.signBit_le (f : Fmt) (neg : Bool) : f.signBit neg ≤ 2 ^ (f.eb + f.mb) := by
  unfold Fmt.signBit; split <;> simp

theorem Fmt.narrowRat_lt {f : Fmt} (h : f.fits) (mode : Nat) (ovf neg : Bool) (num den : Nat) :
    (f.narrowRat mode ovf neg num den).code < 2 ^ f.width := by
  obtain ⟨h1, h2, h3⟩ := h
  have hs := f.signBit_le neg
  unfold Fmt.narrowRat
  simp only [Fmt.infCode]
  rw [f.pow_width]
  repeat' split
  all_goals (dsimp only; omega)

/-- A narrowed value's code lies within the width of its format. -/
theorem Fmt.narrow_lt {f : Fmt} (h : f.fits) (mode : Nat) (ovf : Bool) (v : FVal) : (f.narrow mode ovf v).code < 2 ^ f.width := by
  cases v with
  | num neg m e => exact Fmt.narrowRat_lt h mode ovf neg _ _
  | nan => have := h.2.2; rw [f.pow_width]; simp only [Fmt.narrow]; omega
  | inf neg =>
    obtain ⟨h1, h2, h3⟩ := h
    have hs := f.signBit_le neg
    simp only [Fmt.narrow, Fmt.infCode]
    rw [f.pow_width]
    repeat' split
    all_goals (dsimp only; omega)

theorem Fmt.round_lt {f : Fmt} (h : f.fits) (v : FVal) : f.round v < 2 ^ f.width := Fmt.narrow_lt h 0 false v

theorem Fmt.flush_lt {f : Fmt} {x : Nat} (h : x < 2 ^ f.width) (ftz : Bool) : f.flush ftz x < 2 ^ f.width := by
  unfold Fmt.flush
  split
  · have := f.signBit_le (x.testBit (f.eb + f.mb))
    have := Nat.two_pow_pos (f.eb + f.mb)
    rw [f.pow_width]; omega
  · exact h

/-- An FP32 result is a word. -/
theorem fF32_result_lt (ftz : Bool) (v : FVal) : fF32.flush ftz (fF32.round v) < 2 ^ 32 := Fmt.flush_lt (Fmt.round_lt fF32_fits v) ftz

/-- A packed element is 16 bits. -/
theorem fmt16_result_lt (h ftz : Bool) (v : FVal) : (fmt16 h).flush ftz ((fmt16 h).round v) < 2 ^ 16 := by
  cases h
  · exact Fmt.flush_lt (f := fBF16) (Fmt.round_lt fBF16_fits v) ftz
  · exact Fmt.flush_lt (f := fF16) (Fmt.round_lt fF16_fits v) ftz

/-! ## Approximated and converted results (R107, R371) -/

/-- FP32 codes that results are made of are words. -/
theorem fF32_codes_lt : fF32.nanCode < 2 ^ 32 ∧ (∀ n, fF32.infCode n < 2 ^ 32) ∧ (∀ v, fF32.round v < 2 ^ 32) ∧
    (∀ a b c x y, (fF32.narrowRat a b c x y).code < 2 ^ 32) ∧ ∀ n, fF32.signBit n < 2 ^ 32 :=
  ⟨by decide, by decide, Fmt.round_lt fF32_fits, fun _ _ _ _ _ => Fmt.narrowRat_lt fF32_fits _ _ _ _ _, by decide⟩

theorem acceptUlp_lt {raw : Nat} (h : raw < 2 ^ 32) (neg : Bool) (lo hi k : Int) (n : Nat) : acceptUlp raw neg lo hi k n < 2 ^ 32 := by
  obtain ⟨h1, h2, h3, _⟩ := fF32_codes_lt
  unfold acceptUlp
  dsimp only
  split
  · split
    · exact h
    · exact h3 _
  · exact h3 _

theorem frcpOf_lt {raw : Nat} (h : raw < 2 ^ 32) (v : FVal) : (frcpOf raw v).code < 2 ^ 32 := by
  obtain ⟨h1, h2, h3, h4, h5⟩ := fF32_codes_lt
  unfold frcpOf
  dsimp only
  repeat' split
  all_goals first | with_reducible exact h | with_reducible exact h1 | with_reducible exact h2 _ | with_reducible exact h3 _ | with_reducible exact h4 _ _ _ _ _ | with_reducible exact h5 _

theorem frsqOf_lt {raw : Nat} (h : raw < 2 ^ 32) (v : FVal) : (frsqOf raw v).code < 2 ^ 32 := by
  obtain ⟨h1, h2, h3, h4, h5⟩ := fF32_codes_lt
  unfold frsqOf
  dsimp only
  repeat' split
  all_goals first | with_reducible exact acceptUlp_lt h _ _ _ _ _ | with_reducible exact h1 | with_reducible exact h2 _ | with_reducible exact Nat.two_pow_pos 32

theorem fexp2Of_lt {raw : Nat} (h : raw < 2 ^ 32) (v : FVal) : (fexp2Of raw v).code < 2 ^ 32 := by
  obtain ⟨h1, h2, h3, h4, h5⟩ := fF32_codes_lt
  unfold fexp2Of
  dsimp only
  repeat' split
  all_goals first | with_reducible exact acceptUlp_lt h _ _ _ _ _ | with_reducible exact h1 | with_reducible exact h2 _ | with_reducible exact h3 _ | with_reducible exact Nat.two_pow_pos 32 | exact Nat.max_lt.2 ⟨h3 _, by norm_num⟩

theorem flog2Of_lt {raw : Nat} (h : raw < 2 ^ 32) (v : FVal) : (flog2Of raw v).code < 2 ^ 32 := by
  obtain ⟨h1, h2, h3, h4, h5⟩ := fF32_codes_lt
  unfold flog2Of
  dsimp only
  repeat' split
  all_goals first | with_reducible exact acceptUlp_lt h _ _ _ _ _ | with_reducible exact h | with_reducible exact h1 | with_reducible exact h2 _ | with_reducible exact h3 _

theorem trigOf_lt {raw : Nat} (h : raw < 2 ^ 32) (c : Bool) (v : FVal) : (trigOf c raw v).code < 2 ^ 32 := by
  obtain ⟨h1, h2, h3, h4, h5⟩ := fF32_codes_lt
  unfold trigOf
  dsimp only
  repeat' split
  all_goals first | with_reducible exact h | with_reducible exact h1 | with_reducible exact h2 _ | with_reducible exact h3 _ | with_reducible exact Nat.two_pow_pos 32

/-- An approximated result is a word. -/
theorem approxOf_lt (op : Nat) (ftz : Bool) (x : Nat) : (approxOf op ftz x).code < 2 ^ 32 := by
  have h := (Config.approx op (BitVec.ofNat 32 (fF32.flush ftz x))).isLt
  unfold approxOf
  apply Fmt.flush_lt (f := fF32)
  split
  · exact frcpOf_lt h _
  · exact frsqOf_lt h _
  · exact fexp2Of_lt h _
  · exact flog2Of_lt h _
  · exact trigOf_lt h _ _
  · exact trigOf_lt h _ _

theorem cvtFmt_fits {c : Nat} {f : Fmt} (h : cvtFmt c = some f) : f.fits ∧ f.width ≤ 32 ∧ ∀ ftz x, x < 2 ^ f.width → flushCode c ftz x < 2 ^ f.width := by
  have hf : f.fits ∧ f.width ≤ 32 := by
    unfold cvtFmt at h
    split at h <;> simp only [Option.some.injEq, reduceCtorEq] at h <;> subst h
    · exact ⟨fF32_fits, by decide⟩
    · exact ⟨fF16_fits, by decide⟩
    · exact ⟨fBF16_fits, by decide⟩
    · exact ⟨fE4M3_fits, by decide⟩
    · exact ⟨fE5M2_fits, by decide⟩
    · exact ⟨fE2M1_fits, by decide⟩
  refine ⟨hf.1, hf.2, fun ftz x hx => ?_⟩
  unfold flushCode
  rw [h]
  split
  · exact Fmt.flush_lt hx ftz
  · exact hx

/-- A converted element is a word. -/
theorem cvtElem_lt (td ts mode : Nat) (ovf ftz : Bool) (x : Nat) : (cvtElem td ts mode ovf ftz x).code < 2 ^ 32 := by
  unfold cvtElem
  dsimp only
  split
  · rename_i f h
    obtain ⟨h1, h2, h3⟩ := cvtFmt_fits h
    exact Nat.lt_of_lt_of_le (h3 _ _ (Fmt.narrow_lt h1 _ _ _)) (Nat.pow_le_pow_right (by norm_num) h2)
  · dsimp only
    rw [wrapInt_eq]
    refine Nat.lt_of_lt_of_le (BitVec.isLt _) (Nat.pow_le_pow_right (by norm_num) ?_)
    unfold cvtWidth
    split <;> norm_num
end Sys2Proof.Machine
end

