-- ==== Sys2Proof/Laws/Memory.lean ====
section
/-! SUPPORT. Memory: a read after a write, and the canonical form that every memory operation keeps (log entries 1
and 2, DESIGN CHOICE). -/

namespace Sys2Proof.Machine

/-! ## Lists of bytes -/

theorem getD_writeCells : ∀ (bs : List Byte) (m : List Host.Cell) (a k : Nat),
    SMap.getD (writeCells m a bs) 0 k = if a ≤ k ∧ k < a + bs.length then bs.getD (k - a) 0 else SMap.getD m 0 k
  | [], m, a, k => by rw [if_neg (by simp only [List.length_nil]; omega)]; rfl
  | b :: bs, m, a, k => by
    rw [writeCells, getD_writeCells bs, SMap.getD_setD, List.length_cons]
    by_cases h : k = a
    · subst h; rw [if_neg (by omega), if_pos rfl, if_pos (by omega)]; simp
    · by_cases h2 : a + 1 ≤ k ∧ k < a + 1 + bs.length
      · rw [if_pos h2, if_pos (by omega), show k - a = (k - (a + 1)) + 1 by omega, List.getD_cons_succ]
      · rw [if_neg h2, if_neg h, if_neg (by omega)]

theorem readCells_congr {m m' : List Host.Cell} : ∀ (n a : Nat), (∀ k, a ≤ k → k < a + n → SMap.getD m 0 k = SMap.getD m' 0 k) →
    readCells m a n = readCells m' a n
  | 0, _, _ => rfl
  | n + 1, a, h => by
    rw [readCells, readCells, h a (Nat.le_refl a) (by omega), readCells_congr n (a + 1) fun k h1 h2 => h k (by omega) (by omega)]

/-- What was written is read back. -/
theorem readCells_writeCells : ∀ (bs : List Byte) (m : List Host.Cell) (a : Nat), readCells (writeCells m a bs) a bs.length = bs
  | [], _, _ => rfl
  | b :: bs, m, a => by
    have h : SMap.getD (writeCells m a (b :: bs)) 0 a = b := by
      rw [getD_writeCells, if_pos (by simp)]; simp
    rw [List.length_cons, readCells, h]
    exact congrArg (b :: ·) (readCells_writeCells bs (SMap.setD m 0 a b) (a + 1))

/-- A write leaves every other byte alone. -/
theorem readCells_writeCells_apart (bs : List Byte) (m : List Host.Cell) {a b n : Nat} (h : b + n ≤ a ∨ a + bs.length ≤ b) :
    readCells (writeCells m a bs) b n = readCells m b n :=
  readCells_congr n b fun k h1 h2 => by rw [getD_writeCells, if_neg (by omega)]

/-! ## The canonical form -/

theorem writeCells_wf : ∀ (bs : List Byte) {m : List Host.Cell} (a : Nat), Memory.wf m = true → Memory.wf (writeCells m a bs) = true
  | [], _, _, h => h
  | b :: bs, m, a, h => by rw [writeCells]; exact writeCells_wf bs (a + 1) (SMap.wf_setD a b h)

theorem State.wf_iff (s : State) : s.wf = true ↔ Memory.wf s.mem = true ∧ Memory.wf s.hostMem = true ∧ Memory.wf s.peerMem = true ∧
    SMap.wf Reg.zero s.regs = true ∧ SMap.wf (0 : Byte) s.scr = true ∧ SMap.wf (0 : Tag) s.scrTag = true ∧ SMap.wf Reg.zero s.acc = true ∧
    SMap.wf (0 : Nat) s.pend = true ∧ SMap.wf (0 : Nat) s.counters = true := by
  simp only [State.wf, Bool.and_eq_true]; tauto

/-- An update of other fields keeps the form. -/
theorem State.wf_of_eq {s s' : State} (h : s.wf = true) (h1 : s'.mem = s.mem) (h2 : s'.hostMem = s.hostMem) (h3 : s'.peerMem = s.peerMem)
    (h4 : s'.regs = s.regs) (h5 : s'.scr = s.scr) (h6 : s'.scrTag = s.scrTag) (h7 : s'.acc = s.acc) (h8 : s'.pend = s.pend)
    (h9 : s'.counters = s.counters) : s'.wf = true := by
  rw [State.wf, h1, h2, h3, h4, h5, h6, h7, h8, h9]; exact h

theorem State.reset_wf : State.reset.wf = true := by decide

theorem State.wr_wf {s : State} (h : s.wf = true) (t : Thread) (a : Nat) (r : Reg) : (s.wr t a r).wf = true := by
  rw [State.wf_iff] at h ⊢; exact ⟨h.1, h.2.1, h.2.2.1, SMap.wf_setD _ r h.2.2.2.1, h.2.2.2.2⟩

theorem State.wrs_wf (t : Thread) : ∀ (rs : List Reg) {s : State} (a : Nat), s.wf = true → (s.wrs t a rs).wf = true
  | [], _, _, h => h
  | r :: rs, s, a, h => by rw [State.wrs]; exact State.wrs_wf t rs (a + 1) (s.wr_wf h t a r)

theorem State.count_wf {s : State} (h : s.wf = true) (k n : Nat) : (s.count k n).wf = true := by
  rw [State.wf_iff] at h ⊢
  exact ⟨h.1, h.2.1, h.2.2.1, h.2.2.2.1, h.2.2.2.2.1, h.2.2.2.2.2.1, h.2.2.2.2.2.2.1, h.2.2.2.2.2.2.2.1, SMap.wf_setD _ _ h.2.2.2.2.2.2.2.2⟩

theorem foldl_wf {α : Type} (f : State → α → State) (h : ∀ s a, s.wf = true → (f s a).wf = true) :
    ∀ (l : List α) {s : State}, s.wf = true → (l.foldl f s).wf = true
  | [], _, hs => hs
  | a :: l, s, hs => foldl_wf f h l (h s a hs)

theorem State.lines_wf (f : Nat → Nat) : ∀ (l : List (Nat × Nat)) {m : SMap Nat}, SMap.wf 0 m = true →
    SMap.wf 0 (l.foldl (fun m e => SMap.setD m 0 (e.1 * 4096 + e.2) (f (SMap.getD m 0 (e.1 * 4096 + e.2)))) m) = true
  | [], _, h => h
  | _ :: l, _, h => State.lines_wf f l (SMap.wf_setD _ _ h)

theorem State.raiseLines_wf {s : State} (h : s.wf = true) (l : List (Nat × Nat)) : (s.raiseLines l).wf = true := by
  rw [State.wf_iff] at h ⊢
  exact ⟨h.1, h.2.1, h.2.2.1, h.2.2.2.1, h.2.2.2.2.1, h.2.2.2.2.2.1, h.2.2.2.2.2.2.1, State.lines_wf (· + 1) l h.2.2.2.2.2.2.2.1, h.2.2.2.2.2.2.2.2⟩

theorem State.lowerLines_wf {s : State} (h : s.wf = true) (l : List (Nat × Nat)) : (s.lowerLines l).wf = true := by
  rw [State.wf_iff] at h ⊢
  exact ⟨h.1, h.2.1, h.2.2.1, h.2.2.2.1, h.2.2.2.2.1, h.2.2.2.2.2.1, h.2.2.2.2.2.2.1, State.lines_wf (· - 1) l h.2.2.2.2.2.2.2.1, h.2.2.2.2.2.2.2.2⟩

theorem State.scrWrite_wf : ∀ (bs : List Byte) {s : State} (c b : Nat), s.wf = true → (s.scrWrite c b bs).wf = true
  | [], _, _, _, h => h
  | x :: xs, s, c, b, h => by
    rw [State.scrWrite]
    refine State.scrWrite_wf xs c (b + 1) ?_
    rw [State.wf_iff] at h ⊢
    exact ⟨h.1, h.2.1, h.2.2.1, h.2.2.2.1, SMap.wf_setD _ x h.2.2.2.2.1, h.2.2.2.2.2⟩

theorem State.setTagWord_wf {s : State} (h : s.wf = true) (a : Nat) (w : Word) : (s.setTagWord a w).wf = true := by
  unfold State.setTagWord
  generalize toBytes 4 w.toNat = bs
  rw [State.wf_iff] at h ⊢
  exact ⟨writeCells_wf bs a h.1, h.2⟩

theorem State.scrTag_wf {s : State} (h : s.wf = true) (k : Nat) (g : Tag) : ({ s with scrTag := SMap.setD s.scrTag 0 k g } : State).wf = true := by
  rw [State.wf_iff] at h ⊢; exact ⟨h.1, h.2.1, h.2.2.1, h.2.2.2.1, h.2.2.2.2.1, SMap.wf_setD k g h.2.2.2.2.2.1, h.2.2.2.2.2.2⟩

theorem State.winWrite1_wf {s : State} (h : s.wf = true) (c o : Nat) (d : List Byte) (g : Tag) : (s.winWrite1 c o d g).wf = true := by
  unfold State.winWrite1
  dsimp only
  split
  · rw [State.wf_iff] at h ⊢; exact ⟨h.1, h.2.1, h.2.2.1, SMap.wf_setD _ _ h.2.2.2.1, h.2.2.2.2⟩
  · rw [State.wf_iff] at h ⊢
    exact ⟨h.1, h.2.1, h.2.2.1, h.2.2.2.1, h.2.2.2.2.1, h.2.2.2.2.2.1, SMap.wf_setD _ _ h.2.2.2.2.2.2.1, h.2.2.2.2.2.2.2⟩
  · exact State.scrTag_wf (State.scrWrite_wf d c _ h) _ _
  · exact h

theorem State.winWrite_wf {s : State} (h : s.wf = true) (c o : Nat) (d : List Byte) (g : Tag) : (s.winWrite c o d g).wf = true := by
  have key : ((chunks4 5 o d).foldl (fun s e => s.winWrite1 c e.1 e.2 g) s).wf = true :=
    foldl_wf (fun (s : State) (e : Nat × List Byte) => s.winWrite1 c e.1 e.2 g) (fun _ a hs => State.winWrite1_wf hs c a.1 a.2 g) (chunks4 5 o d) h
  unfold State.winWrite
  dsimp only
  split
  · split
    · exact State.scrTag_wf key _ _
    · exact key
  · exact key

/-- A write at a location keeps the form (R81, R82). -/
theorem State.writeLoc_wf {s : State} (h : s.wf = true) (l : Loc) (d : List Byte) (g : Tag) (ta : Option Nat) (w : Bool) :
    (s.writeLoc l d g ta w).wf = true := by
  unfold State.writeLoc
  cases l with
  | hbm a =>
    have h1 : ({ s with mem := writeCells s.mem a d } : State).wf = true := by
      rw [State.wf_iff] at h ⊢; exact ⟨writeCells_wf d a h.1, h.2⟩
    dsimp only
    split
    · exact h1
    · exact State.setTagWord_wf h1 _ _
  | host a => rw [State.wf_iff] at h ⊢; exact ⟨h.1, writeCells_wf d a h.2.1, h.2.2⟩
  | peer x p a => rw [State.wf_iff] at h ⊢; exact ⟨h.1, h.2.1, writeCells_wf d _ h.2.2.1, h.2.2.2⟩
  | win c o => exact State.winWrite_wf h c o d g
  | scr c b => exact State.scrTag_wf (State.scrWrite_wf d c b h) _ _

theorem State.wakeMonitors_wf {s : State} (h : s.wf = true) (l : Loc) : (s.wakeMonitors l).wf = true := h

theorem State.snapUnit_wf {s : State} (h : s.wf = true) (cid u : Nat) (l : Loc) : (s.snapUnit cid u l).wf = true := by
  unfold State.snapUnit
  split
  · split
    · exact h
    · split
      · exact h
      · exact h
  · exact h

theorem State.markUnit_wf {s : State} (h : s.wf = true) (cid u : Nat) (l : Loc) : (s.markUnit cid u l).wf = true := by
  unfold State.markUnit
  split
  · exact h
  · split
    · exact h
    · split
      · have h1 := State.snapUnit_wf h cid u l
        dsimp only
        split
        · generalize BitVec.ofNat 8 (2 ^ (u % 8)) = b
          rw [State.wf_iff] at h1 ⊢
          exact ⟨SMap.wf_setD _ _ h1.1, h1.2⟩
        · exact h1
      · exact State.snapUnit_wf h cid u l

theorem State.markDirty_wf {s : State} (h : s.wf = true) (cid va : Nat) (l : Loc) : (s.markDirty cid va l).wf = true := by
  unfold State.markDirty
  dsimp only
  split
  · refine foldl_wf _ (fun s1 e h1 => foldl_wf _ (fun s2 v h2 => State.markUnit_wf h2 _ _ _) _ h1) _ (State.markUnit_wf h _ _ _)
  · exact State.markUnit_wf h _ _ _

/-- A write that reaches its point keeps the form. -/
theorem State.performWrite_wf {s : State} (h : s.wf = true) (cid va : Nat) (l : Loc) (d : List Byte) (g : Tag) (ta : Option Nat) :
    (s.performWrite cid va l d g ta).wf = true := by
  unfold State.performWrite
  dsimp only
  refine State.wakeMonitors_wf (State.writeLoc_wf ?_ l d g ta _) l
  split
  · exact h
  · exact State.markDirty_wf h cid va l

theorem State.performMasked_wf {s : State} (h : s.wf = true) (cid va : Nat) (l : Loc) (d : List (Option Byte)) (g : Tag) (ta : Option Nat) :
    (s.performMasked cid va l d g ta).wf = true := by
  unfold State.performMasked
  dsimp only
  refine State.wakeMonitors_wf (foldl_wf (fun (s : State) (e : Nat × List Byte) => s.writeLoc (l.add e.1) e.2 g ta (wholeGran d))
    (fun _ a hs => State.writeLoc_wf hs (l.add a.1) a.2 g ta (wholeGran d)) (maskRuns 0 d) ?_) l
  split
  · exact h
  · exact State.markDirty_wf h cid va l

end Sys2Proof.Machine
end

