-- ==== Sys2Proof/Laws/State.lean ====
section
/-! SUPPORT. The fields that the named updates of the state leave alone, and what they set. -/

namespace Sys2Proof.Machine

@[simp] theorem State.modThread_mem (s : State) (u : Nat) (f : Thread → Thread) : (s.modThread u f).mem = s.mem := rfl
@[simp] theorem State.modThread_hostMem (s : State) (u : Nat) (f : Thread → Thread) : (s.modThread u f).hostMem = s.hostMem := rfl
@[simp] theorem State.modThread_peerMem (s : State) (u : Nat) (f : Thread → Thread) : (s.modThread u f).peerMem = s.peerMem := rfl
@[simp] theorem State.modThread_regs (s : State) (u : Nat) (f : Thread → Thread) : (s.modThread u f).regs = s.regs := rfl
@[simp] theorem State.modThread_scr (s : State) (u : Nat) (f : Thread → Thread) : (s.modThread u f).scr = s.scr := rfl
@[simp] theorem State.modThread_scrTag (s : State) (u : Nat) (f : Thread → Thread) : (s.modThread u f).scrTag = s.scrTag := rfl
@[simp] theorem State.modThread_acc (s : State) (u : Nat) (f : Thread → Thread) : (s.modThread u f).acc = s.acc := rfl
@[simp] theorem State.modThread_pend (s : State) (u : Nat) (f : Thread → Thread) : (s.modThread u f).pend = s.pend := rfl
@[simp] theorem State.modThread_warps (s : State) (u : Nat) (f : Thread → Thread) : (s.modThread u f).warps = s.warps := rfl
@[simp] theorem State.modThread_crews (s : State) (u : Nat) (f : Thread → Thread) : (s.modThread u f).crews = s.crews := rfl
@[simp] theorem State.modThread_ctxs (s : State) (u : Nat) (f : Thread → Thread) : (s.modThread u f).ctxs = s.ctxs := rfl
@[simp] theorem State.modThread_launches (s : State) (u : Nat) (f : Thread → Thread) : (s.modThread u f).launches = s.launches := rfl
@[simp] theorem State.modThread_counters (s : State) (u : Nat) (f : Thread → Thread) : (s.modThread u f).counters = s.counters := rfl
@[simp] theorem State.modThread_queues (s : State) (u : Nat) (f : Thread → Thread) : (s.modThread u f).queues = s.queues := rfl

@[simp] theorem State.wr_mem (s : State) (t : Thread) (a : Nat) (r : Reg) : (s.wr t a r).mem = s.mem := rfl
@[simp] theorem State.wr_hostMem (s : State) (t : Thread) (a : Nat) (r : Reg) : (s.wr t a r).hostMem = s.hostMem := rfl
@[simp] theorem State.wr_peerMem (s : State) (t : Thread) (a : Nat) (r : Reg) : (s.wr t a r).peerMem = s.peerMem := rfl
@[simp] theorem State.wr_scr (s : State) (t : Thread) (a : Nat) (r : Reg) : (s.wr t a r).scr = s.scr := rfl
@[simp] theorem State.wr_scrTag (s : State) (t : Thread) (a : Nat) (r : Reg) : (s.wr t a r).scrTag = s.scrTag := rfl
@[simp] theorem State.wr_acc (s : State) (t : Thread) (a : Nat) (r : Reg) : (s.wr t a r).acc = s.acc := rfl
@[simp] theorem State.wr_pend (s : State) (t : Thread) (a : Nat) (r : Reg) : (s.wr t a r).pend = s.pend := rfl
@[simp] theorem State.wr_threads (s : State) (t : Thread) (a : Nat) (r : Reg) : (s.wr t a r).threads = s.threads := rfl
@[simp] theorem State.wr_warps (s : State) (t : Thread) (a : Nat) (r : Reg) : (s.wr t a r).warps = s.warps := rfl
@[simp] theorem State.wr_crews (s : State) (t : Thread) (a : Nat) (r : Reg) : (s.wr t a r).crews = s.crews := rfl
@[simp] theorem State.wr_ctxs (s : State) (t : Thread) (a : Nat) (r : Reg) : (s.wr t a r).ctxs = s.ctxs := rfl
@[simp] theorem State.wr_launches (s : State) (t : Thread) (a : Nat) (r : Reg) : (s.wr t a r).launches = s.launches := rfl
@[simp] theorem State.wr_counters (s : State) (t : Thread) (a : Nat) (r : Reg) : (s.wr t a r).counters = s.counters := rfl
@[simp] theorem State.wr_queues (s : State) (t : Thread) (a : Nat) (r : Reg) : (s.wr t a r).queues = s.queues := rfl

@[simp] theorem State.setTagWord_hostMem (s : State) (a : Nat) (w : Word) : (s.setTagWord a w).hostMem = s.hostMem := rfl
@[simp] theorem State.setTagWord_peerMem (s : State) (a : Nat) (w : Word) : (s.setTagWord a w).peerMem = s.peerMem := rfl
@[simp] theorem State.setTagWord_regs (s : State) (a : Nat) (w : Word) : (s.setTagWord a w).regs = s.regs := rfl
@[simp] theorem State.setTagWord_scr (s : State) (a : Nat) (w : Word) : (s.setTagWord a w).scr = s.scr := rfl
@[simp] theorem State.setTagWord_scrTag (s : State) (a : Nat) (w : Word) : (s.setTagWord a w).scrTag = s.scrTag := rfl
@[simp] theorem State.setTagWord_acc (s : State) (a : Nat) (w : Word) : (s.setTagWord a w).acc = s.acc := rfl
@[simp] theorem State.setTagWord_pend (s : State) (a : Nat) (w : Word) : (s.setTagWord a w).pend = s.pend := rfl
@[simp] theorem State.setTagWord_threads (s : State) (a : Nat) (w : Word) : (s.setTagWord a w).threads = s.threads := rfl
@[simp] theorem State.setTagWord_warps (s : State) (a : Nat) (w : Word) : (s.setTagWord a w).warps = s.warps := rfl
@[simp] theorem State.setTagWord_crews (s : State) (a : Nat) (w : Word) : (s.setTagWord a w).crews = s.crews := rfl
@[simp] theorem State.setTagWord_ctxs (s : State) (a : Nat) (w : Word) : (s.setTagWord a w).ctxs = s.ctxs := rfl
@[simp] theorem State.setTagWord_launches (s : State) (a : Nat) (w : Word) : (s.setTagWord a w).launches = s.launches := rfl
@[simp] theorem State.setTagWord_counters (s : State) (a : Nat) (w : Word) : (s.setTagWord a w).counters = s.counters := rfl
@[simp] theorem State.setTagWord_queues (s : State) (a : Nat) (w : Word) : (s.setTagWord a w).queues = s.queues := rfl

@[simp] theorem State.count_mem (s : State) (k n : Nat) : (s.count k n).mem = s.mem := rfl
@[simp] theorem State.count_hostMem (s : State) (k n : Nat) : (s.count k n).hostMem = s.hostMem := rfl
@[simp] theorem State.count_peerMem (s : State) (k n : Nat) : (s.count k n).peerMem = s.peerMem := rfl
@[simp] theorem State.count_regs (s : State) (k n : Nat) : (s.count k n).regs = s.regs := rfl
@[simp] theorem State.count_scr (s : State) (k n : Nat) : (s.count k n).scr = s.scr := rfl
@[simp] theorem State.count_scrTag (s : State) (k n : Nat) : (s.count k n).scrTag = s.scrTag := rfl
@[simp] theorem State.count_acc (s : State) (k n : Nat) : (s.count k n).acc = s.acc := rfl
@[simp] theorem State.count_pend (s : State) (k n : Nat) : (s.count k n).pend = s.pend := rfl
@[simp] theorem State.count_threads (s : State) (k n : Nat) : (s.count k n).threads = s.threads := rfl
@[simp] theorem State.count_crews (s : State) (k n : Nat) : (s.count k n).crews = s.crews := rfl
@[simp] theorem State.count_ctxs (s : State) (k n : Nat) : (s.count k n).ctxs = s.ctxs := rfl
@[simp] theorem State.count_launches (s : State) (k n : Nat) : (s.count k n).launches = s.launches := rfl
@[simp] theorem State.count_queues (s : State) (k n : Nat) : (s.count k n).queues = s.queues := rfl

@[simp] theorem State.raiseLines_mem (s : State) (l : List (Nat × Nat)) : (s.raiseLines l).mem = s.mem := rfl
@[simp] theorem State.raiseLines_hostMem (s : State) (l : List (Nat × Nat)) : (s.raiseLines l).hostMem = s.hostMem := rfl
@[simp] theorem State.raiseLines_peerMem (s : State) (l : List (Nat × Nat)) : (s.raiseLines l).peerMem = s.peerMem := rfl
@[simp] theorem State.raiseLines_regs (s : State) (l : List (Nat × Nat)) : (s.raiseLines l).regs = s.regs := rfl
@[simp] theorem State.raiseLines_scr (s : State) (l : List (Nat × Nat)) : (s.raiseLines l).scr = s.scr := rfl
@[simp] theorem State.raiseLines_scrTag (s : State) (l : List (Nat × Nat)) : (s.raiseLines l).scrTag = s.scrTag := rfl
@[simp] theorem State.raiseLines_acc (s : State) (l : List (Nat × Nat)) : (s.raiseLines l).acc = s.acc := rfl
@[simp] theorem State.raiseLines_threads (s : State) (l : List (Nat × Nat)) : (s.raiseLines l).threads = s.threads := rfl
@[simp] theorem State.raiseLines_warps (s : State) (l : List (Nat × Nat)) : (s.raiseLines l).warps = s.warps := rfl
@[simp] theorem State.raiseLines_crews (s : State) (l : List (Nat × Nat)) : (s.raiseLines l).crews = s.crews := rfl
@[simp] theorem State.raiseLines_ctxs (s : State) (l : List (Nat × Nat)) : (s.raiseLines l).ctxs = s.ctxs := rfl
@[simp] theorem State.raiseLines_launches (s : State) (l : List (Nat × Nat)) : (s.raiseLines l).launches = s.launches := rfl
@[simp] theorem State.raiseLines_counters (s : State) (l : List (Nat × Nat)) : (s.raiseLines l).counters = s.counters := rfl
@[simp] theorem State.raiseLines_queues (s : State) (l : List (Nat × Nat)) : (s.raiseLines l).queues = s.queues := rfl

@[simp] theorem State.lowerLines_mem (s : State) (l : List (Nat × Nat)) : (s.lowerLines l).mem = s.mem := rfl
@[simp] theorem State.lowerLines_hostMem (s : State) (l : List (Nat × Nat)) : (s.lowerLines l).hostMem = s.hostMem := rfl
@[simp] theorem State.lowerLines_peerMem (s : State) (l : List (Nat × Nat)) : (s.lowerLines l).peerMem = s.peerMem := rfl
@[simp] theorem State.lowerLines_regs (s : State) (l : List (Nat × Nat)) : (s.lowerLines l).regs = s.regs := rfl
@[simp] theorem State.lowerLines_scr (s : State) (l : List (Nat × Nat)) : (s.lowerLines l).scr = s.scr := rfl
@[simp] theorem State.lowerLines_scrTag (s : State) (l : List (Nat × Nat)) : (s.lowerLines l).scrTag = s.scrTag := rfl
@[simp] theorem State.lowerLines_acc (s : State) (l : List (Nat × Nat)) : (s.lowerLines l).acc = s.acc := rfl
@[simp] theorem State.lowerLines_threads (s : State) (l : List (Nat × Nat)) : (s.lowerLines l).threads = s.threads := rfl
@[simp] theorem State.lowerLines_warps (s : State) (l : List (Nat × Nat)) : (s.lowerLines l).warps = s.warps := rfl
@[simp] theorem State.lowerLines_crews (s : State) (l : List (Nat × Nat)) : (s.lowerLines l).crews = s.crews := rfl
@[simp] theorem State.lowerLines_ctxs (s : State) (l : List (Nat × Nat)) : (s.lowerLines l).ctxs = s.ctxs := rfl
@[simp] theorem State.lowerLines_launches (s : State) (l : List (Nat × Nat)) : (s.lowerLines l).launches = s.launches := rfl
@[simp] theorem State.lowerLines_counters (s : State) (l : List (Nat × Nat)) : (s.lowerLines l).counters = s.counters := rfl
@[simp] theorem State.lowerLines_queues (s : State) (l : List (Nat × Nat)) : (s.lowerLines l).queues = s.queues := rfl

@[simp] theorem State.logItem_mem (s : State) (c : Nat) (x : LogItem) : (s.logItem c x).mem = s.mem := rfl
@[simp] theorem State.logItem_hostMem (s : State) (c : Nat) (x : LogItem) : (s.logItem c x).hostMem = s.hostMem := rfl
@[simp] theorem State.logItem_peerMem (s : State) (c : Nat) (x : LogItem) : (s.logItem c x).peerMem = s.peerMem := rfl
@[simp] theorem State.logItem_regs (s : State) (c : Nat) (x : LogItem) : (s.logItem c x).regs = s.regs := rfl
@[simp] theorem State.logItem_scr (s : State) (c : Nat) (x : LogItem) : (s.logItem c x).scr = s.scr := rfl
@[simp] theorem State.logItem_scrTag (s : State) (c : Nat) (x : LogItem) : (s.logItem c x).scrTag = s.scrTag := rfl
@[simp] theorem State.logItem_acc (s : State) (c : Nat) (x : LogItem) : (s.logItem c x).acc = s.acc := rfl
@[simp] theorem State.logItem_pend (s : State) (c : Nat) (x : LogItem) : (s.logItem c x).pend = s.pend := rfl
@[simp] theorem State.logItem_threads (s : State) (c : Nat) (x : LogItem) : (s.logItem c x).threads = s.threads := rfl
@[simp] theorem State.logItem_warps (s : State) (c : Nat) (x : LogItem) : (s.logItem c x).warps = s.warps := rfl
@[simp] theorem State.logItem_crews (s : State) (c : Nat) (x : LogItem) : (s.logItem c x).crews = s.crews := rfl
@[simp] theorem State.logItem_launches (s : State) (c : Nat) (x : LogItem) : (s.logItem c x).launches = s.launches := rfl
@[simp] theorem State.logItem_counters (s : State) (c : Nat) (x : LogItem) : (s.logItem c x).counters = s.counters := rfl
@[simp] theorem State.logItem_queues (s : State) (c : Nat) (x : LogItem) : (s.logItem c x).queues = s.queues := rfl

@[simp] theorem State.log_mem (s : State) (c a b d i w : Nat) : (s.log c a b d i w).mem = s.mem := rfl
@[simp] theorem State.log_hostMem (s : State) (c a b d i w : Nat) : (s.log c a b d i w).hostMem = s.hostMem := rfl
@[simp] theorem State.log_peerMem (s : State) (c a b d i w : Nat) : (s.log c a b d i w).peerMem = s.peerMem := rfl
@[simp] theorem State.log_regs (s : State) (c a b d i w : Nat) : (s.log c a b d i w).regs = s.regs := rfl
@[simp] theorem State.log_scr (s : State) (c a b d i w : Nat) : (s.log c a b d i w).scr = s.scr := rfl
@[simp] theorem State.log_scrTag (s : State) (c a b d i w : Nat) : (s.log c a b d i w).scrTag = s.scrTag := rfl
@[simp] theorem State.log_acc (s : State) (c a b d i w : Nat) : (s.log c a b d i w).acc = s.acc := rfl
@[simp] theorem State.log_pend (s : State) (c a b d i w : Nat) : (s.log c a b d i w).pend = s.pend := rfl
@[simp] theorem State.log_threads (s : State) (c a b d i w : Nat) : (s.log c a b d i w).threads = s.threads := rfl
@[simp] theorem State.log_warps (s : State) (c a b d i w : Nat) : (s.log c a b d i w).warps = s.warps := rfl
@[simp] theorem State.log_crews (s : State) (c a b d i w : Nat) : (s.log c a b d i w).crews = s.crews := rfl
@[simp] theorem State.log_launches (s : State) (c a b d i w : Nat) : (s.log c a b d i w).launches = s.launches := rfl
@[simp] theorem State.log_counters (s : State) (c a b d i w : Nat) : (s.log c a b d i w).counters = s.counters := rfl
@[simp] theorem State.log_queues (s : State) (c a b d i w : Nat) : (s.log c a b d i w).queues = s.queues := rfl

@[simp] theorem State.setPair_mem (s : State) (vd q : Nat) (p : QueuePair) : (s.setPair vd q p).mem = s.mem := rfl
@[simp] theorem State.setPair_hostMem (s : State) (vd q : Nat) (p : QueuePair) : (s.setPair vd q p).hostMem = s.hostMem := rfl
@[simp] theorem State.setPair_peerMem (s : State) (vd q : Nat) (p : QueuePair) : (s.setPair vd q p).peerMem = s.peerMem := rfl
@[simp] theorem State.setPair_regs (s : State) (vd q : Nat) (p : QueuePair) : (s.setPair vd q p).regs = s.regs := rfl
@[simp] theorem State.setPair_scr (s : State) (vd q : Nat) (p : QueuePair) : (s.setPair vd q p).scr = s.scr := rfl
@[simp] theorem State.setPair_scrTag (s : State) (vd q : Nat) (p : QueuePair) : (s.setPair vd q p).scrTag = s.scrTag := rfl
@[simp] theorem State.setPair_acc (s : State) (vd q : Nat) (p : QueuePair) : (s.setPair vd q p).acc = s.acc := rfl
@[simp] theorem State.setPair_pend (s : State) (vd q : Nat) (p : QueuePair) : (s.setPair vd q p).pend = s.pend := rfl
@[simp] theorem State.setPair_threads (s : State) (vd q : Nat) (p : QueuePair) : (s.setPair vd q p).threads = s.threads := rfl
@[simp] theorem State.setPair_warps (s : State) (vd q : Nat) (p : QueuePair) : (s.setPair vd q p).warps = s.warps := rfl
@[simp] theorem State.setPair_crews (s : State) (vd q : Nat) (p : QueuePair) : (s.setPair vd q p).crews = s.crews := rfl
@[simp] theorem State.setPair_ctxs (s : State) (vd q : Nat) (p : QueuePair) : (s.setPair vd q p).ctxs = s.ctxs := rfl
@[simp] theorem State.setPair_launches (s : State) (vd q : Nat) (p : QueuePair) : (s.setPair vd q p).launches = s.launches := rfl
@[simp] theorem State.setPair_counters (s : State) (vd q : Nat) (p : QueuePair) : (s.setPair vd q p).counters = s.counters := rfl

@[simp] theorem State.complete_mem (s : State) (k h i j l : Nat) : (s.complete k h i j l).mem = s.mem := rfl
@[simp] theorem State.complete_hostMem (s : State) (k h i j l : Nat) : (s.complete k h i j l).hostMem = s.hostMem := rfl
@[simp] theorem State.complete_peerMem (s : State) (k h i j l : Nat) : (s.complete k h i j l).peerMem = s.peerMem := rfl
@[simp] theorem State.complete_regs (s : State) (k h i j l : Nat) : (s.complete k h i j l).regs = s.regs := rfl
@[simp] theorem State.complete_scr (s : State) (k h i j l : Nat) : (s.complete k h i j l).scr = s.scr := rfl
@[simp] theorem State.complete_scrTag (s : State) (k h i j l : Nat) : (s.complete k h i j l).scrTag = s.scrTag := rfl
@[simp] theorem State.complete_acc (s : State) (k h i j l : Nat) : (s.complete k h i j l).acc = s.acc := rfl
@[simp] theorem State.complete_pend (s : State) (k h i j l : Nat) : (s.complete k h i j l).pend = s.pend := rfl
@[simp] theorem State.complete_threads (s : State) (k h i j l : Nat) : (s.complete k h i j l).threads = s.threads := rfl
@[simp] theorem State.complete_warps (s : State) (k h i j l : Nat) : (s.complete k h i j l).warps = s.warps := rfl
@[simp] theorem State.complete_crews (s : State) (k h i j l : Nat) : (s.complete k h i j l).crews = s.crews := rfl
@[simp] theorem State.complete_ctxs (s : State) (k h i j l : Nat) : (s.complete k h i j l).ctxs = s.ctxs := rfl
@[simp] theorem State.complete_launches (s : State) (k h i j l : Nat) : (s.complete k h i j l).launches = s.launches := rfl
@[simp] theorem State.complete_counters (s : State) (k h i j l : Nat) : (s.complete k h i j l).counters = s.counters := rfl

@[simp] theorem State.modNode_mem (s : State) (c n : Nat) (f : NodeState → NodeState) : (s.modNode c n f).mem = s.mem := rfl
@[simp] theorem State.modNode_hostMem (s : State) (c n : Nat) (f : NodeState → NodeState) : (s.modNode c n f).hostMem = s.hostMem := rfl
@[simp] theorem State.modNode_peerMem (s : State) (c n : Nat) (f : NodeState → NodeState) : (s.modNode c n f).peerMem = s.peerMem := rfl
@[simp] theorem State.modNode_regs (s : State) (c n : Nat) (f : NodeState → NodeState) : (s.modNode c n f).regs = s.regs := rfl
@[simp] theorem State.modNode_scr (s : State) (c n : Nat) (f : NodeState → NodeState) : (s.modNode c n f).scr = s.scr := rfl
@[simp] theorem State.modNode_scrTag (s : State) (c n : Nat) (f : NodeState → NodeState) : (s.modNode c n f).scrTag = s.scrTag := rfl
@[simp] theorem State.modNode_acc (s : State) (c n : Nat) (f : NodeState → NodeState) : (s.modNode c n f).acc = s.acc := rfl
@[simp] theorem State.modNode_pend (s : State) (c n : Nat) (f : NodeState → NodeState) : (s.modNode c n f).pend = s.pend := rfl
@[simp] theorem State.modNode_threads (s : State) (c n : Nat) (f : NodeState → NodeState) : (s.modNode c n f).threads = s.threads := rfl
@[simp] theorem State.modNode_warps (s : State) (c n : Nat) (f : NodeState → NodeState) : (s.modNode c n f).warps = s.warps := rfl
@[simp] theorem State.modNode_crews (s : State) (c n : Nat) (f : NodeState → NodeState) : (s.modNode c n f).crews = s.crews := rfl
@[simp] theorem State.modNode_launches (s : State) (c n : Nat) (f : NodeState → NodeState) : (s.modNode c n f).launches = s.launches := rfl
@[simp] theorem State.modNode_counters (s : State) (c n : Nat) (f : NodeState → NodeState) : (s.modNode c n f).counters = s.counters := rfl
@[simp] theorem State.modNode_queues (s : State) (c n : Nat) (f : NodeState → NodeState) : (s.modNode c n f).queues = s.queues := rfl

@[simp] theorem State.wakeMonitors_mem (s : State) (l : Loc) : (s.wakeMonitors l).mem = s.mem := rfl
@[simp] theorem State.wakeMonitors_hostMem (s : State) (l : Loc) : (s.wakeMonitors l).hostMem = s.hostMem := rfl
@[simp] theorem State.wakeMonitors_peerMem (s : State) (l : Loc) : (s.wakeMonitors l).peerMem = s.peerMem := rfl
@[simp] theorem State.wakeMonitors_regs (s : State) (l : Loc) : (s.wakeMonitors l).regs = s.regs := rfl
@[simp] theorem State.wakeMonitors_scr (s : State) (l : Loc) : (s.wakeMonitors l).scr = s.scr := rfl
@[simp] theorem State.wakeMonitors_scrTag (s : State) (l : Loc) : (s.wakeMonitors l).scrTag = s.scrTag := rfl
@[simp] theorem State.wakeMonitors_acc (s : State) (l : Loc) : (s.wakeMonitors l).acc = s.acc := rfl
@[simp] theorem State.wakeMonitors_pend (s : State) (l : Loc) : (s.wakeMonitors l).pend = s.pend := rfl
@[simp] theorem State.wakeMonitors_warps (s : State) (l : Loc) : (s.wakeMonitors l).warps = s.warps := rfl
@[simp] theorem State.wakeMonitors_crews (s : State) (l : Loc) : (s.wakeMonitors l).crews = s.crews := rfl
@[simp] theorem State.wakeMonitors_ctxs (s : State) (l : Loc) : (s.wakeMonitors l).ctxs = s.ctxs := rfl
@[simp] theorem State.wakeMonitors_launches (s : State) (l : Loc) : (s.wakeMonitors l).launches = s.launches := rfl
@[simp] theorem State.wakeMonitors_counters (s : State) (l : Loc) : (s.wakeMonitors l).counters = s.counters := rfl
@[simp] theorem State.wakeMonitors_queues (s : State) (l : Loc) : (s.wakeMonitors l).queues = s.queues := rfl

/-- A write of a register is read back, and only it (R138). -/
theorem State.rd_wr (s : State) (t t' : Thread) (a b : Nat) (r : Reg) :
    (s.wr t a r).rd t' b = if t'.key b = t.key a then r else s.rd t' b := by
  simp only [State.rd, State.wr, SMap.getD_setD]

/-- A counter counts modulo 2^64 (R280). -/
theorem State.count_getD (s : State) (k n x : Nat) :
    SMap.getD (s.count k n).counters 0 x = if x = k then (SMap.getD s.counters 0 k + n) % 2 ^ 64 else SMap.getD s.counters 0 x := by
  simp only [State.count, SMap.getD_setD]

/-- A queue pair set is the queue pair read. -/
@[simp] theorem State.setPair_get (s : State) (vd q : Nat) (p : QueuePair) : SMap.get? (s.setPair vd q p).queues (queueKey vd q) = some p := by
  simp [State.setPair]

end Sys2Proof.Machine
end

