-- ==== Sys2Proof/Tests/Slice0.lean ====
section
/-! SUPPORT. The model's own tests: the well-formedness checks on ill-formed terms, the words of every constructor written out
from the encoding tables, the specification's worked values, and a concrete state for the hypotheses of every statement. -/

namespace Sys2Proof.Tests
open Sys2Proof Sys2Proof.Machine

-- Many long kernel evaluations that wait for one another would each hold a thread's stack.
set_option Elab.async false

/-! ## Well-formedness and decoding -/

/-- Three words as one number, the first lowest. -/
def words (w0 w1 w2 : Nat) : Nat := w0 + w1 * 2 ^ 32 + w2 * 2 ^ 64

/-- The decoder reads `i`. -/
def reads (nbits w : Nat) (i : Instr) : Bool := decide (decodeTableWord nbits w = some i)

/-! Ill-formed terms: one for each check of `wellFormed`, beside a well-formed neighbour of each. -/

theorem test_wf_convert :
    wellFormed (.fcvt ⟨false, 0, 1, 2, 15, 7⟩) = false ∧ wellFormed (.fcvt ⟨true, 0, 1, 2, 4, 0⟩) = true ∧
    wellFormed (.quant ⟨3, 1, 2, 3⟩) = false ∧ wellFormed (.quant ⟨2, 1, 2, 3⟩) = true := by
  decide

theorem test_wf_convert_exact :
    wellFormed (.fcvt ⟨false, 0, 1, 2, 0, 1⟩) = true ∧ wellFormed (.fcvt ⟨false, 1, 1, 2, 0, 1⟩) = false ∧
    wellFormed (.fcvt ⟨true, 0, 1, 2, 0, 1⟩) = false := by
  decide

theorem test_wf_conditions :
    wellFormed (.icmpi ⟨10, 0, 1, 2⟩) = false ∧ wellFormed (.icmpi ⟨9, 0, 1, 2⟩) = true ∧
    wellFormed (.icmp ⟨true, 10, 0, 1, 2⟩) = false ∧ wellFormed (.icmp ⟨true, 9, 0, 1, 2⟩) = true ∧
    wellFormed (.fcmp ⟨6, 0, 1, 2⟩) = false ∧ wellFormed (.fcmp ⟨5, 0, 1, 2⟩) = true := by
  decide

theorem test_wf_memory :
    wellFormed (.ld ⟨1, 2, true, 5, 0, 0⟩) = false ∧ wellFormed (.ld ⟨1, 2, true, 4, 3, 0⟩) = false ∧
    wellFormed (.st ⟨1, 2, true, 5, 0, 0⟩) = false ∧ wellFormed (.st ⟨1, 2, true, 4, 3, 0⟩) = false ∧
    wellFormed (.ldg ⟨1, 2, 3, 5, 0, true⟩) = false ∧ wellFormed (.stx ⟨1, 2, 3, 4, 3, true⟩) = false ∧
    wellFormed (.ldStrong ⟨1, 2, true, 5, 0, 0⟩) = false ∧ wellFormed (.stStrong ⟨1, 2, true, 5, 0, 0⟩) = false ∧
    wellFormed (.ldStrong ⟨1, 2, true, 4, 7, 0⟩) = true := by
  decide

theorem test_wf_atomic :
    wellFormed (.atom ⟨7, 7, 0, true, 1, 2, 3⟩) = false ∧ wellFormed (.atom ⟨2, 1, 4, true, 9, 35, 44⟩) = true ∧
    wellFormed (.red ⟨7, 0, 0, true, 1, 2⟩) = false := by
  decide

theorem test_wf_cross_lane :
    wellFormed (.vote ⟨0, 8, false, 1⟩) = false ∧ wellFormed (.vote ⟨0, 7, false, 1⟩) = true ∧
    wellFormed (.vote ⟨2, 8, false, 1⟩) = true ∧ wellFormed (.redux ⟨1, 2, false, 7, 7⟩) = false := by
  decide

theorem test_wf_fences :
    wellFormed (.fence 6) = false ∧ wellFormed (.fence 5) = true ∧ wellFormed (.fencex 5 0) = false ∧
    wellFormed (.fencex 0 5) = false ∧ wellFormed (.fencex 2 2) = false ∧ wellFormed (.fencex 4 0) = true := by
  decide

theorem test_wf_long_copies :
    wellFormed (.cpyLong ⟨true, 3, 0, 1, 2, 3, false, 4, 5, 6, 7⟩) = false ∧
    wellFormed (.cpyLong ⟨true, 1, 3, 1, 2, 3, false, 4, 5, 6, 7⟩) = false ∧
    wellFormed (.cpyLong ⟨true, 1, 0, 1, 2, 3, true, 4, 0, 6, 7⟩) = false ∧
    wellFormed (.cpyLong ⟨true, 1, 0, 1, 2, 3, true, 0, 5, 6, 7⟩) = false ∧
    wellFormed (.cpyLong ⟨true, 1, 0, 1, 2, 3, true, 0, 0, 6, 7⟩) = true ∧
    wellFormed (.cpycv ⟨true, 1, 0, 1, 2, 3, false, 4, 5, 6, 15, 15, false, 7⟩) = false ∧
    wellFormed (.cpycv ⟨true, 1, 0, 1, 2, 3, false, 4, 5, 6, 0, 1, true, 7⟩) = false := by
  decide

theorem test_wf_special : wellFormed (.mfs 1 127) = false ∧ wellFormed (.mts 127 1) = false ∧ wellFormed (.mfs 1 0) = true := by
  decide

/-- A step of another agent has no words. -/
theorem test_wf_step : wellFormed (.powerOn) = false ∧ encode .powerOn = [] ∧ wellFormed (.sqtail 0 0 0) = false := by
  decide

/-- A word whose field must be zero, and majors 0 and 30, are refused (R319, R329). -/
theorem test_decode_refuses :
    decodeTableWord 32 0 = none ∧ decodeTableWord 32 0b11110_000000000000000000000000000 = none ∧
    decodeTableWord 32 0b10101_0010_00000000000000000000001 = none ∧
    decodeTableWord 32 0b00001_1110_00_0000101_1000110_1111111 = none ∧
    decodeTableWord 32 0b01100_1010_011_1000110_1101010111100 = none := by
  decide

/-- Words of major 1 (R320), bit by bit. -/
theorem test_decode_integer :
    reads 32 0b00001_0000_01_0000101_1000110_1111111 (.iadd ⟨1, 5, 70, 127⟩) = true ∧
    reads 32 0b00001_0001_00_0000101_1000110_1111111 (.isub ⟨0, 5, 70, 127⟩) = true ∧
    reads 32 0b00001_0010_10_0000101_1000110_1111111 (.imul ⟨2, 5, 70, 127⟩) = true ∧
    reads 32 0b00001_0011_11_0000101_1000110_1111111 (.imulh ⟨3, 5, 70, 127⟩) = true ∧
    reads 32 0b00001_0100_01_0000101_1000110_1111111 (.idiv ⟨1, 5, 70, 127⟩) = true ∧
    reads 32 0b00001_0101_00_0000101_1000110_1111111 (.irem ⟨0, 5, 70, 127⟩) = true ∧
    reads 32 0b00001_0110_10_0000101_1000110_1111111 (.imin ⟨2, 5, 70, 127⟩) = true ∧
    reads 32 0b00001_0111_11_0000101_1000110_1111111 (.imax ⟨3, 5, 70, 127⟩) = true ∧
    reads 32 0b00001_1000_01_0000101_1000110_1111111 (.and ⟨1, 5, 70, 127⟩) = true ∧
    reads 32 0b00001_1001_00_0000101_1000110_1111111 (.or ⟨0, 5, 70, 127⟩) = true ∧
    reads 32 0b00001_1010_10_0000101_1000110_1111111 (.xor ⟨2, 5, 70, 127⟩) = true ∧
    reads 32 0b00001_1011_11_0000101_1000110_1111111 (.shl ⟨3, 5, 70, 127⟩) = true ∧
    reads 32 0b00001_1100_01_0000101_1000110_1111111 (.shr ⟨1, 5, 70, 127⟩) = true ∧
    reads 32 0b00001_1101_00_0000101_1000110_1111111 (.sar ⟨0, 5, 70, 127⟩) = true := by
  decide

/-- Words of major 2 (R320), bit by bit. -/
theorem test_decode_float :
    reads 32 0b00010_0000_00_0000101_1000110_1111111 (.fadd ⟨5, 70, 127⟩) = true ∧
    reads 32 0b00010_0001_00_0000101_1000110_1111111 (.fmul ⟨5, 70, 127⟩) = true ∧
    reads 32 0b00010_0010_00_0000101_1000110_1111111 (.fmin ⟨5, 70, 127⟩) = true ∧
    reads 32 0b00010_0011_00_0000101_1000110_1111111 (.fmax ⟨5, 70, 127⟩) = true ∧
    reads 32 0b00010_0100_00_0000101_1000110_0000000 (.frcp ⟨5, 70⟩) = true ∧
    reads 32 0b00010_0101_00_0000101_1000110_0000000 (.frsq ⟨5, 70⟩) = true ∧
    reads 32 0b00010_0110_00_0000101_1000110_0000000 (.fexp2 ⟨5, 70⟩) = true ∧
    reads 32 0b00010_0111_00_0000101_1000110_0000000 (.flog2 ⟨5, 70⟩) = true ∧
    reads 32 0b00010_1000_00_0000101_1000110_0000000 (.fsin ⟨5, 70⟩) = true ∧
    reads 32 0b00010_1001_00_0000101_1000110_0000000 (.fcos ⟨5, 70⟩) = true ∧
    reads 32 0b00010_1010_00_0000101_1000110_0000000 (.fclass ⟨5, 70⟩) = true := by
  decide

/-- Words of major 3 (R320, R367, R370, R412), bit by bit. -/
theorem test_decode_packed :
    reads 32 0b00011_000_00_1_0000101_1000110_1111111 (.fadd2 ⟨true, 5, 70, 127⟩) = true ∧
    reads 32 0b00011_001_00_0_0000101_1000110_1111111 (.fmul2 ⟨false, 5, 70, 127⟩) = true ∧
    reads 32 0b00011_010_00_1_0000101_1000110_1111111 (.fdot2 ⟨true, 5, 70, 127⟩) = true ∧
    reads 32 0b00011_011_1_01_0000101_1000110_0100_000 (.fcvt ⟨true, 1, 5, 70, 4, 0⟩) = true ∧
    reads 32 0b00011_100_0_10_0000101_1000110_1111111 (.quant ⟨2, 5, 70, 127⟩) = true := by
  decide

/-- Words of majors 4 to 7 (R319, R339, R367, R381, R424), bit by bit. -/
theorem test_decode_four_operands :
    reads 32 0b00100_0000101_1000110_1111111_100001 (.ffma ⟨5, 70, 127, 33⟩) = true ∧
    reads 32 0b00101_0000101_1000110_1111111_100001 (.imad ⟨5, 70, 127, 33⟩) = true ∧
    reads 32 0b00110_0000101_1000110_1111111_1_10001 (.fma2 ⟨5, 70, 127, true, 17⟩) = true ∧
    reads 32 0b00111_0000101_1000110_1111111_10_1_110 (.sel ⟨5, 70, 127, true, 6⟩) = true ∧
    reads 32 0b00111_0000101_1000110_1111111_0_10001 (.bfi ⟨5, 70, 127, 17⟩) = true := by
  decide

/-- Words of majors 8 to 14 (R315, R319, R380), bit by bit. -/
theorem test_decode_immediate :
    reads 32 0b01000_0000101_1000110_1101010111100 (.iaddi ⟨5, 70, 0x1ABC⟩) = true ∧
    reads 32 0b01001_0000101_1000110_1101010111100 (.andi ⟨5, 70, 0x1ABC⟩) = true ∧
    reads 32 0b01010_0000101_1000110_1101010111100 (.ori ⟨5, 70, 0x1ABC⟩) = true ∧
    reads 32 0b01011_0000101_1000110_1101010111100 (.xori ⟨5, 70, 0x1ABC⟩) = true ∧
    reads 32 0b01100_1001_011_1000110_1101010111100 (.icmpi ⟨9, 3, 70, 0x1ABC⟩) = true ∧
    reads 32 0b01101_0000101_10101011110011011110 (.movi ⟨5, 0xABCDE⟩) = true ∧
    reads 32 0b01110_0000101_10101011110011011110 (.movhi ⟨5, 0xABCDE⟩) = true := by
  decide

/-- Words of majors 15 to 18 (R317, R318, R333, R414), bit by bit. -/
theorem test_decode_memory :
    reads 32 0b01111_0000101_10001_1_011_10_100000001 (.ld ⟨5, 17, true, 3, 2, 257⟩) = true ∧
    reads 32 0b10000_0000101_10001_0_100_01_100000001 (.st ⟨5, 17, false, 4, 1, 257⟩) = true ∧
    reads 32 0b10001_00_0000101_10001_1111111_100_01_1 (.ldg ⟨5, 17, 127, 4, 1, true⟩) = true ∧
    reads 32 0b10001_01_0000101_10001_1111111_001_10_0 (.stx ⟨5, 17, 127, 1, 2, false⟩) = true ∧
    reads 32 0b10001_10_0000101_10001_1_010_110_100001 (.ldStrong ⟨5, 17, true, 2, 6, 33⟩) = true ∧
    reads 32 0b10001_11_0000101_10001_0_011_001_100001 (.stStrong ⟨5, 17, false, 3, 1, 33⟩) = true ∧
    reads 32 0b10010_0_010_001_100_1_1001_100011_101100 (.atom ⟨2, 1, 4, true, 9, 35, 44⟩) = true ∧
    reads 32 0b10010_1_000_100_000_0_1001_100011_000000 (.red ⟨0, 4, 0, false, 9, 35⟩) = true := by
  decide

/-- Words of majors 19 to 21 (R320, R341), bit by bit. -/
theorem test_decode_control :
    reads 32 0b10011_101_1_10000000000000000000001 (.bra ⟨5, true, 0x400001⟩) = true ∧
    reads 32 0b10100_0_10000000000000000000000001 (.call 0x2000001) = true ∧
    reads 32 0b10100_1_10000000000000000000000001 (.callf 0x2000001) = true ∧
    reads 32 0b10101_0000_000000000_1000110_0000000 (.brx 70) = true ∧
    reads 32 0b10101_0001_000000000_1000110_0000000 (.callx 70) = true ∧
    reads 32 0b10101_0001_1_00000000_1000110_0000000 (.callxF 70) = true ∧
    reads 32 0b10101_0010_00000000000000000000000 (.ret) = true ∧
    reads 32 0b10101_0011_00000000000000000000000 (.exit) = true ∧
    reads 32 0b10101_0100_00000000000000000000000 (.eret) = true ∧
    reads 32 0b10101_0101_00000000000000000000000 (.yield) = true ∧
    reads 32 0b10101_0110_0000000_1010101111001101 (.trap 0xABCD) = true ∧
    reads 32 0b10101_0111_00000000000000000000000 (.brk) = true ∧
    reads 32 0b10101_1000_00000000000000000000000 (.regb) = true ∧
    reads 32 0b10101_1001_00000000000000000000000 (.rege) = true ∧
    reads 32 0b10101_1010_10000000000000000000001 (.ipref 0x400001) = true ∧
    reads 32 0b10101_1011_10000000000000000000001 (.bbc 0x400001) = true := by
  decide

/-- Words of major 22 (R320, R392, R415, R436), bit by bit. -/
theorem test_decode_cross_lane :
    reads 32 0b10110_0000_10_0000101_1000110_1111111 (.shfl ⟨2, 5, 70, 127⟩) = true ∧
    reads 32 0b10110_0001_00_0000101_1000110_1111111 (.rot ⟨5, 70, 127⟩) = true ∧
    reads 32 0b10110_0010_11_0000101_000_1_110_0000000 (.vote ⟨3, 5, true, 6⟩) = true ∧
    reads 32 0b10110_0011_00_0000101_1000110_1_001_010 (.redux ⟨5, 70, true, 1, 2⟩) = true ∧
    reads 32 0b10110_0100_01_0000101_1000110_0000000 (.matchLane ⟨1, 5, 70⟩) = true ∧
    reads 32 0b10110_0101_00_0000101_1000110_0000000 (.matchLane64 ⟨0, 5, 70⟩) = true := by
  decide

/-- Words of major 23 (R320, R369, R380, R407), bit by bit. -/
theorem test_decode_compare :
    reads 32 0b10111_0000_10_1001_011_1000110_1111111 (.icmp ⟨true, 9, 3, 70, 127⟩) = true ∧
    reads 32 0b10111_0001_00_0101_011_1000110_1111111 (.fcmp ⟨5, 3, 70, 127⟩) = true ∧
    reads 32 0b10111_0010_00_0000_011_000_1_110_000_0_101 (.pand ⟨3, true, 6, false, 5⟩) = true ∧
    reads 32 0b10111_0011_00_0000_011_000_1_110_000_0_101 (.por ⟨3, true, 6, false, 5⟩) = true ∧
    reads 32 0b10111_0100_00_0000_011_000_1_110_000_0_101 (.pxor ⟨3, true, 6, false, 5⟩) = true ∧
    reads 32 0b10111_0101_00_0000_011_000_1_110_000_0_000 (.pnot ⟨3, true, 6⟩) = true := by
  decide

/-- Words of major 24 (R323, R336, R434), bit by bit. -/
theorem test_decode_sync :
    reads 32 0b11000_0000_0_10001_1000001_1_0_11001000 (.barinit ⟨17, 65, true, 200⟩) = true ∧
    reads 64 (words 0b11000_0000_1_10001_1000001_1_000000000 0b0000000000000000_1010101111001101 0) (.barinitLong ⟨17, 65, true, 0xABCD⟩) = true ∧
    reads 32 0b11000_0001_0_10001_1000001_10_00000000 (.bararv ⟨17, 65, true⟩) = true ∧
    reads 32 0b11000_0010_0_10001_1000001_000_1111111 (.barexp ⟨17, 65, 127⟩) = true ∧
    reads 32 0b11000_0011_0_10001_1000001_00_11001000 (.waitp ⟨17, 65, 200⟩) = true ∧
    reads 32 0b11000_0011_0_10001_1000001_1_00_1000110 (.waitpReg ⟨17, 65, 70⟩) = true ∧
    reads 64 (words 0b11000_0011_1_10001_1000001_0000000000 0b00000000000000000000_101010111100 0) (.waitpLong ⟨17, 65, 0xABC⟩) = true ∧
    reads 64 (words 0b11000_0100_1_10001_1000001_011_1000110 0b00000000000000000000_101010111100 0) (.trywait ⟨17, 65, 3, 70, .imm 0xABC⟩) = true ∧
    reads 64 (words 0b11000_0100_1_10001_1000001_011_1000110 0b1_000000000000000000000000_1111111 0) (.trywait ⟨17, 65, 3, 70, .reg 127⟩) = true ∧
    reads 32 0b11000_0101_0_0000000000000000000000 (.crewbar) = true ∧
    reads 32 0b11000_0110_0_000000000000000_1111111 (.gbar 127) = true ∧
    reads 32 0b11000_0111_0_1010101111001101_0000_10 (.meetarm 0xABCD 2) = true ∧
    reads 32 0b11000_1000_0_00000000000000000000_11 (.meet 3) = true ∧
    reads 32 0b11000_1001_0_10001_1000001_1_000000000 (.monitor ⟨17, 65, true⟩) = true ∧
    reads 32 0b11000_1010_0_000000000000000_1111111 (.mwait 127) = true ∧
    reads 32 0b11000_1011_0_0000000000000000000_101 (.fence 5) = true ∧
    reads 32 0b11000_1100_0_0000000000000000_100_001 (.fencex 4 1) = true ∧
    reads 32 0b11000_1101_0_00000_1000110_000_1111111 (.trig 70 127) = true ∧
    reads 32 0b11000_1110_0_00000_1000110_000_1111111 (.trigrst 70 127) = true := by
  decide

/-- Words of major 25 (R324, R353, R355, R420), bit by bit. -/
theorem test_decode_copy :
    reads 32 0b11001_000_1_0_101_01001_10001_1011_10101 (.cpy ⟨true, 5, 9, 17, 11, 21⟩) = true ∧
    reads 96 (words 0b11001_000_1_1_01_00_1000110_01001_10001_0 0b10101_10000000001_1010101111001101 0b0000000000000000_0001001000110100) (.cpyLong ⟨true, 1, 0, 70, 9, 17, false, 21, 0x401, 0xABCD, 0x1234⟩) = true ∧
    reads 96 (words 0b11001_001_0_1_01_00_1000110_01001_10001_0 0b10101_10000000001_1010101111001101 0b0100_0000_1_0000000_0001001000110100) (.cpycv ⟨false, 1, 0, 70, 9, 17, false, 21, 0x401, 0xABCD, 4, 0, true, 0x1234⟩) = true ∧
    reads 32 0b11001_010_1_0_100001_1010101111001101 (.cpyt ⟨true, 33, 0xABCD⟩) = true ∧
    reads 32 0b11001_011_1_0_100001_1000110_1111111_00 (.cpya ⟨true, 33, 70, 127⟩) = true ∧
    reads 64 (words 0b11001_011_0_1_100001_1000110_1111111_00 0b0000000000000000_1010101111001101 0) (.cpyaLong ⟨false, 33, 70, 127, 0xABCD⟩) = true ∧
    reads 32 0b11001_100_1_0_100001_1000110_1111111_00 (.ring ⟨true, 33, 70, 127⟩) = true ∧
    reads 64 (words 0b11001_100_0_1_100001_1000110_1111111_00 0b0000000000000000_1010101111001101 0) (.ringLong ⟨false, 33, 70, 127, 0xABCD⟩) = true := by
  decide

/-- Words of majors 26, 27 (R214, R325, R330, R331), bit by bit. -/
theorem test_decode_matrix :
    reads 32 0b11010_000_1_1000110_100001_1000000001 (.mma ⟨true, 70, 33, 513⟩) = true ∧
    reads 32 0b11010_001_1_0_11001000_100001_10000001 (.accld ⟨true, 200, 33, 129⟩) = true ∧
    reads 32 0b11010_010_0_1_11001000_100001_10000001 (.accst ⟨false, true, 200, 33, 129⟩) = true ∧
    reads 32 0b11010_011_1_0_11001000_00001111_000000 (.accz ⟨true, 200, 15⟩) = true ∧
    reads 32 0b11010_100_0_1000110_100001_1000000001 (.acchk ⟨false, 70, 33, 513⟩) = true ∧
    reads 32 0b11011_0000_0_1_0000101_1000110_0000000 (.colpost ⟨true, 5, 70⟩) = true ∧
    reads 32 0b11011_0000_1_1_0000000_1000110_1111111 (.colfire ⟨true, 70, 127⟩) = true := by
  decide

/-- Words of major 28 (R327), bit by bit. -/
theorem test_decode_system :
    reads 32 0b11100_0000_0_0_0000101_0000011_0000000 (.mfs 5 3) = true ∧
    reads 32 0b11100_0001_0_0_0000011_1000110_0000000 (.mts 3 70) = true ∧
    reads 32 0b11100_0010_0_0_0000101_1000110_0000000 (.tagrd ⟨5, 70⟩) = true ∧
    reads 32 0b11100_0011_0_0_0000101_1000110_0000000 (.tagwr ⟨5, 70⟩) = true ∧
    reads 32 0b11100_0100_1_1_0000101_1000110_1111111 (.color ⟨true, true, 5, 70, 127⟩) = true ∧
    reads 32 0b11100_0101_1_0_0000000_1000110_1111111 (.watch ⟨true, 70, 127⟩) = true ∧
    reads 32 0b11100_0110_0_0_0000101_0000000_1111111 (.inject ⟨5, 127⟩) = true ∧
    reads 32 0b11100_0111_0_0_0000000_1000110_1111111 (.spawn ⟨70, 127⟩) = true ∧
    reads 32 0b11100_1000_0_0_0000000_1000110_0000010 (.emit 70 2) = true ∧
    reads 32 0b11100_1001_0_0_0000000_0000000_0000000 (.cctl) = true ∧
    reads 32 0b11100_1010_0_0_0000000_1000110_0000000 (.pref 70) = true ∧
    reads 32 0b11100_1011_0_0_0000000_0000000_0001001 (.wbase 9) = true ∧
    reads 32 0b11100_1100_1_1_0000101_1000110_1111111 (.injectAcc ⟨true, 133, 70, 127⟩) = true := by
  decide

/-- Words of majors 29 and 31 (R320, R328, R340), bit by bit. -/
theorem test_decode_one_source :
    reads 32 0b11101_0000_00_0000101_1000110_0000000 (.iabs ⟨false, 5, 70⟩) = true ∧
    reads 32 0b11101_0001_10_0000101_1000110_0000000 (.clz ⟨true, 5, 70⟩) = true ∧
    reads 32 0b11101_0010_00_0000101_1000110_0000000 (.popc ⟨false, 5, 70⟩) = true ∧
    reads 32 0b11101_0011_10_0000101_1000110_0000000 (.brev ⟨true, 5, 70⟩) = true ∧
    reads 32 0b11101_0010_01_0000101_0000_110_0000000 (.popcP 5 6) = true ∧
    reads 32 0b11101_0100_01_0000101_1000110_1111111 (.bfx ⟨true, 5, 70, 127⟩) = true ∧
    reads 32 0b11101_0101_00_0000101_1000110_1111111 (.lea ⟨5, 70, 127⟩) = true ∧
    reads 32 0b11101_0110_10_0000101_1000110_0000000 (.mov ⟨true, 5, 70⟩) = true ∧
    reads 32 0b11111_0000_00_0000101_1000110_1111111 (.fdot2E4m3 ⟨5, 70, 127⟩) = true := by
  decide

/-! ## Small machines

Every obligation with hypotheses is applied below to a concrete state that meets all of them: each hypothesis is closed
by computation, clause by clause, so none of them is empty. -/

/-- The step is one of the machine's: it answers a next state. -/
def Runs (i : Instr) (s : State) : Prop := ∃ s', exec i s = .next s'

/-- Sixteen bytes in memory. -/
def sixteen (m : List Host.Cell) (a n : Nat) : List Host.Cell := writeCells m a (toBytes 16 n)

/-- A warp at the issue port, its threads in `lanes` shaped by `t`; the first 64 KiB of addresses map to themselves, with both
permissions and no tag words. -/
def at_ (lanes : List Nat) (ws : List Word) (t : Nat → Thread → Thread) (c : Crew) (l : Launch) (x : Context) : State :=
  let s := State.reset.portWith l c (lanes.map fun i => (i + 1, t i (threadOne i))) ws
  ({ s with cur := some 0, mem := sixteen (sixteen [] 0 0x2001) 0x2000 0x97, ctxs := SMap.put s.ctxs 1 x } : State)

/-- Register v`v` of the thread in lane `l`. -/
def put (s : State) (l v x : Nat) (g : Nat := 0) : State :=
  { s with regs := SMap.setD s.regs Reg.zero (regKey 0 0 l v) ⟨BitVec.ofNat 32 x, BitVec.ofNat 24 g⟩ }

/-- A pair of registers. -/
def put2 (s : State) (l v x : Nat) : State := put (put s l v (x % 2 ^ 32)) l (v + 1) (x / 2 ^ 32)

/-- The setting of the warp at the port. -/
def env (s : State) : Env :=
  s.env?.getD ⟨0, ⟨[], 0, 0, [], 0, [], false, 0, 0, 0⟩, 0, crewOne, launchOne false 0 false, contextOne, 0, false⟩

/-- Three lanes of a two-slot clause. -/
def three : State :=
  [0, 3, 31].foldl (fun s l => put (put (put (put s l 5 (l + 7)) l 127 3 0x800001) l 6 (l + 7)) l 70 0x3F800000)
    (at_ [0, 3, 31] [0, 0] (fun _ t => t) crewOne (launchOne false 0 false) contextOne)

/-- The same under a module whose manifest, at clause 1, names the opcode space of major 31 (R290). -/
def admitted : State :=
  { three with
    mem := writeCells three.mem 0x40 (toBytes 4 0xB1000001 ++ toBytes 4 0xF8000000)
    ctxs := SMap.put three.ctxs 1 ({ contextOne with modules := [⟨0, 0x1000, 1, 0, 0, 4, 0x9000⟩] } : Context) }

/-- One lane of a two-slot clause, shaped by `t`, its crew by `c`, its launch by `l`, its context by `x`. -/
def one (t : Thread → Thread := id) (c : Crew → Crew := id) (l : Launch → Launch := id) (x : Context → Context := id) : State :=
  at_ [0] [0, 0, 0] (fun _ => t) (c crewOne) (l (launchOne false 0 false)) (x contextOne)

/-! ## Values the specification works out -/

/-- The small machine with memory for anomaly records: the first 64 KiB of addresses map to themselves. -/
def room (s : State) : State :=
  { s with mem := sixteen (sixteen s.mem 0 0x2001) 0x2000 0x97, ctxs := SMap.mod s.ctxs 1 fun c => { c with anomBase := 0x4000 } }

/-- One step of the small machine on an instruction word, with some registers set: register `d` and its eartag afterwards. -/
def ran (w : Nat) (rs : List (Nat × Nat)) (d : Nat) : Option (Nat × Nat) :=
  match step (rs.foldl (fun s r => put s 0 r.1 r.2) (room (State.reset.withFetchWord 32 w))) with
  | .next s => (s.thread? 1).map fun t => ((s.rd t d).val.toNat, (s.rd t d).tag.toNat)
  | _ => none

/-- The value alone. -/
def val (w : Nat) (rs : List (Nat × Nat)) (d : Nat) : Option Nat := (ran w rs d).map (·.1)

/-- R378: `isub.i32 v2, v3, v4` is 0x0880_8184, and wraps. -/
theorem test_isub_wraps : val 0x08808184 [(3, 0x80000000), (4, 1)] 2 = some 0x7FFFFFFF := by decide +kernel

/-- R378: the division examples, `idiv.i32 v2, v3, v4` being 0x0A00_8184 and `irem.i32` 0x0A80_8184. -/
theorem test_idiv_irem :
    val 0x0A008184 [(3, 0xFFFFFFF9), (4, 2)] 2 = some 0xFFFFFFFD ∧ val 0x0A808184 [(3, 0xFFFFFFF9), (4, 2)] 2 = some 0xFFFFFFFF ∧
    val 0x0A008184 [(3, 7), (4, 0xFFFFFFFE)] 2 = some 0xFFFFFFFD ∧ val 0x0A808184 [(3, 7), (4, 0xFFFFFFFE)] 2 = some 1 ∧
    val 0x0A008184 [(3, 0x80000000), (4, 0xFFFFFFFF)] 2 = some 0x80000000 ∧ val 0x0A808184 [(3, 0x80000000), (4, 0xFFFFFFFF)] 2 = some 0 ∧
    val 0x0A008184 [(3, 5), (4, 0)] 2 = some 0xFFFFFFFF ∧ val 0x0A808184 [(3, 5), (4, 0)] 2 = some 5 := by decide +kernel

/-- IMUL, IMULH: with vA = vB = 0x8000_0000, and with 0xFFFF_FFFF and 2, signed and unsigned. -/
theorem test_imul_imulh :
    val 0b00001_0010_00_0000010_0000011_0000100 [(3, 0x80000000), (4, 0x80000000)] 2 = some 0 ∧
    val 0b00001_0011_00_0000010_0000011_0000100 [(3, 0x80000000), (4, 0x80000000)] 2 = some 0x40000000 ∧
    val 0b00001_0011_01_0000010_0000011_0000100 [(3, 0xFFFFFFFF), (4, 2)] 2 = some 1 ∧
    val 0b00001_0011_00_0000010_0000011_0000100 [(3, 0xFFFFFFFF), (4, 2)] 2 = some 0xFFFFFFFF := by decide +kernel

/-- IMAX: with 0xFFFF_FFFF and 1, .i32 gives 1 and .n32 the other. -/
theorem test_imax :
    val 0b00001_0111_00_0000010_0000011_0000100 [(3, 0xFFFFFFFF), (4, 1)] 2 = some 1 ∧
    val 0b00001_0111_01_0000010_0000011_0000100 [(3, 0xFFFFFFFF), (4, 1)] 2 = some 0xFFFFFFFF := by decide +kernel

/-- R423: a handler's two shifts, and SAR beside SHR. -/
theorem test_shifts :
    val 0b00001_1011_00_0000010_0000011_0000100 [(3, 0x800001), (4, 12)] 2 = some 0x1000 ∧
    val 0b00001_1100_00_0000010_0000011_0000100 [(3, 0x1000), (4, 6)] 2 = some 0x40 ∧
    val 0b00001_1101_00_0000010_0000011_0000100 [(3, 0x80000010), (4, 4)] 2 = some 0xF8000001 ∧
    val 0b00001_1100_00_0000010_0000011_0000100 [(3, 0x80000010), (4, 4)] 2 = some 0x08000001 := by decide +kernel

/-- R339, R340: `bfi v2, v3, v4, v5` is 0x3820_6105 and `bfx.i32 v2, v3, v4` 0xEA20_8184. -/
theorem test_bfi_bfx :
    val 0x38206105 [(3, 0xFF), (4, 0x12345678), (5, 0x0808)] 2 = some 0x1234FF78 ∧
    val 0xEA208184 [(3, 0xABCD1234), (4, 0x0804)] 2 = some 0x23 ∧ val 0xEA008184 [(3, 0xABCD1234), (4, 0x080C)] 2 = some 0xD1 ∧
    val 0xEA208184 [(3, 0xABCD1234), (4, 0x080C)] 2 = some 0xFFFFFFD1 := by decide +kernel

/-- R349 and POPC: `clz.i32 v2, v3` is 0xE880_8180. -/
theorem test_clz_popc :
    val 0xE8808180 [(3, 0x1000)] 2 = some 19 ∧ val 0b11101_0010_00_0000010_0000011_0000000 [(3, 0xF0F1)] 2 = some 9 := by decide +kernel

/-- R402: `movhi v3, 0x418` is 0x7030_0418; `movi v122, 0xc0001` loads 0xFFFC_0001. -/
theorem test_movi_movhi :
    val 0x70300418 [(3, 0x937)] 3 = some 0x00418937 ∧ val 0b01101_1111010_11000000000000000001 [] 122 = some 0xFFFC0001 := by decide +kernel

/-- FADD2.bf16: element 0 is 2.0; element 1 overflows, and the record's eartag stands on the result. -/
theorem test_fadd2 : ran 0b00011_0000_00_0000010_0000011_0000100 [(3, 0x7F7F3F80), (4, 0x7F7F3F80)] 2 = some (0x7F804000, 0x800000) := by decide +kernel

/-- `fclass.f32 v2, v3` is 0x1500_8180. -/
theorem test_fclass :
    val 0x15008180 [(3, 0x7FC00000)] 2 = some 0x200 ∧ val 0x15008180 [(3, 1)] 2 = some 0x20 := by decide +kernel

/-- `fdot2.bf16 v2, v3, v4` is 0x1A00_8184: 1 × 2 + 2 × 3 + 0.5 = 8.5, rounded once. -/
theorem test_fdot2 : val 0x1A008184 [(2, 0x3F000000), (3, 0x40003F80), (4, 0x40404000)] 2 = some 0x41080000 := by decide +kernel

/-- `flog2.f32 v2, v3` is 0x1380_8180: exact powers of two give exact integers. -/
theorem test_flog2 : val 0x13808180 [(3, 0x41000000)] 2 = some 0x40400000 := by decide +kernel

/-- R114: `quant.e2m1 v40, v0, v44` is 0x1C4A_002C; the block with x0 = 3.0, x1 = 1.25. -/
theorem test_quant :
    val 0x1C4A002C [(0, 0x40400000), (1, 0x3FA00000)] 40 = some 0x47 ∧ val 0x1C4A002C [(0, 0x40400000), (1, 0x3FA00000)] 41 = some 0 ∧
    val 0x1C4A002C [(0, 0x40400000), (1, 0x3FA00000)] 44 = some 0x3F01 := by decide +kernel

/-- INJECT: bit 20 of 160.0, under the new record's eartag. -/
theorem test_inject : ran 0b11100_0110_00_0000010_0000000_0000100 [(2, 0x43200000), (4, 20)] 2 = some (0x43300000, 0x800000) := by decide +kernel

/-- LEA: a sum with bit 48 set, under a record's eartag. -/
theorem test_lea :
    ran 0b11101_0101_00_0000010_0000100_0000110 [(4, 0xFFFFFFF0), (5, 0x0000FFFF), (6, 0x20)] 2 = some (0x10, 0x800000) ∧
    val 0b11101_0101_00_0000010_0000100_0000110 [(4, 0xFFFFFFF0), (5, 0x0000FFFF), (6, 0x20)] 3 = some 0x10000 := by decide +kernel

/-- R370, R371: 16,777,217 converted with `fcvt.f32.i32`, to nearest even and upward; 70,000.0 to .f16 in two modes. -/
theorem test_fcvt :
    val 0b00011_011_0_00_0000010_0000011_0000_110 [(3, 0x01000001)] 2 = some 0x4B800000 ∧
    val 0b00011_011_0_11_0000010_0000011_0000_110 [(3, 0x01000001)] 2 = some 0x4B800001 ∧
    val 0b00011_011_0_00_0000010_0000011_0001_000 [(3, 0x4788B800)] 2 = some 0x7C00 ∧
    val 0b00011_011_0_01_0000010_0000011_0001_000 [(3, 0x4788B800)] 2 = some 0x7BFF := by decide +kernel

/-- `frsq.f32 v2, v3` is 0x1280_8180: of −0 it gives −∞, under a record's eartag. -/
theorem test_frsq : ran 0x12808180 [(3, 0x80000000)] 2 = some (0xFF800000, 0x800000) := by decide +kernel

/-- Lanes 0 to 23, with p1 true on the even ones, and four lanes of values to add. -/
def voters : State := at_ (List.range 24) [0, 0] (fun l t => { t with preds := if l % 2 = 0 then 2 else 0 }) crewOne (launchOne false 0 false) contextOne
def adders : State :=
  [(0, 0x3F800000), (1, 0x4B800000), (2, 0x3F800000), (3, 0xCB800000)].foldl (fun s x => put s x.1 3 x.2)
    (at_ [0, 1, 2, 3] [0, 0] (fun _ t => t) crewOne (launchOne false 0 false) contextOne)

/-- Register `d` of the thread `u` after an instruction. -/
def gives (i : Instr) (s : State) (u d : Nat) : Option Nat :=
  match exec i s with
  | .next s => (s.thread? u).map fun t => (s.rd t d).val.toNat
  | _ => none

/-- R436: the mask, and the first lane with and without p1. -/
theorem test_vote :
    gives (.vote ⟨2, 3, false, 1⟩) voters 5 3 = some 0x555555 ∧ gives (.vote ⟨3, 3, false, 1⟩) voters 24 3 = some 0 ∧
    gives (.vote ⟨3, 3, true, 1⟩) voters 24 3 = some 1 := by decide +kernel

/-- R415: 1.0, 2^24, 1.0 and −2^24 added in lane order, whole and as a scan. -/
theorem test_redux :
    gives (.redux ⟨2, 3, false, 2, 0⟩) adders 1 2 = some 0 ∧ gives (.redux ⟨2, 3, true, 2, 0⟩) adders 1 2 = some 0x3F800000 ∧
    gives (.redux ⟨2, 3, true, 2, 0⟩) adders 2 2 = some 0x4B800000 ∧ gives (.redux ⟨2, 3, true, 2, 0⟩) adders 3 2 = some 0x4B800000 ∧
    gives (.redux ⟨2, 3, true, 2, 0⟩) adders 4 2 = some 0 := by decide +kernel

/-- The thread `u` as the slot begins. -/
def began (s : State) (u : Nat) : Thread := ((s.begin (env s)).thread? u).getD (threadOne 0)

/-- The thread `u`. -/
def thr (s : State) (u : Nat) : Thread := (s.thread? u).getD (threadOne 0)

/-! The forms of statement, applied to a state; their hypotheses on it are computed. -/

theorem go_writes {i d uses ok val} (h : writes i d uses ok val) (s : State) (p : s.port (env s) = true := by decide)
    (q : s.lanesAll (env s) (fun t => (env s).names t uses && ok s (env s) t) = true := by decide) : Runs i s :=
  (h s (env s) p q).imp fun _ x => x.1

theorem go_sets {i uses ok g} (h : sets i uses ok g) (s : State) (p : s.port (env s) = true := by decide)
    (q : s.lanesAll (env s) (fun t => (env s).names t uses && ok s (env s) t) = true := by decide) : Runs i s :=
  (h s (env s) p q).imp fun _ x => x.1

theorem go_moves {i uses ok w tgt} (h : moves i uses ok w tgt) (s : State) (p : s.port (env s) = true := by decide)
    (q : s.lanesAll (env s) (fun t => (env s).names t uses && ok s (env s) t) = true := by decide) : Runs i s :=
  (h s (env s) p q).imp fun _ x => x.1

theorem go_effects {i n uses ok f} (h : effects i n uses ok f) (s : State) (p : s.port (env s) = true := by decide)
    (q : (laneRun (env s) uses ok f (s.begin (env s)) (s.active (env s))).isSome = true := by decide) : Runs i s :=
  (h s (env s) _ p (Option.some_get q).symm).imp fun _ x => x.1

theorem go_effectsOp {i fb uses ok f} (h : effectsOp i fb uses ok f) (s : State) (p : s.port (env s) = true := by decide)
    (q : (laneRun (env s) uses ok (f s.nextOp) (s.openOp (env s) fb) (s.active (env s))).isSome = true := by decide) : Runs i s :=
  (h s (env s) _ p (Option.some_get q).symm).imp fun _ x => x.1

theorem go_departs {i n uses ok f place} (h : departs i n uses ok f place) (s : State) (u : Nat := 1)
    (p : s.port (env s) = true := by decide) (q : s.active (env s) = [u] := by decide)
    (r : (s.begin (env s)).thread? u = some (began s u) := by decide) (w : (env s).names (began s u) uses = true := by decide)
    (x : ok (s.begin (env s)) (env s) u (began s u) = true := by decide) : Runs i s :=
  (h s (env s) u _ p q r w x).imp fun _ x => x.1

theorem go_once {i n uses lane first f} (h : onceEffects i n uses lane first f) (s : State) (u : Nat := 1) (us : List Nat := [])
    (p : s.port (env s) = true := by decide) (q : s.active (env s) = u :: us := by decide)
    (r : (s.begin (env s)).thread? u = some (began s u) := by decide)
    (w : s.lanesAll (env s) (fun t => (env s).names t uses && lane s (env s) t) = true := by decide)
    (x : first (s.begin (env s)) (env s) u (began s u) = true := by decide) : Runs i s :=
  (h s (env s) u us _ p q r w x).imp fun _ x => x.1

/-! ## The statements applied -/

theorem applies_IntegerArithmetic (h : Obligations.IntegerArithmetic) :
    Runs (.iadd ⟨0, 127, 5, 127⟩) three ∧ Runs (.iadd ⟨3, 126, 4, 126⟩) three ∧ Runs (.isub ⟨1, 0, 5, 127⟩) three ∧
    Runs (.imul ⟨0, 5, 5, 5⟩) three ∧ Runs (.imulh ⟨2, 0, 4, 126⟩) three ∧ Runs (.idiv ⟨0, 1, 5, 9⟩) three ∧
    Runs (.irem ⟨3, 2, 4, 8⟩) three := by
  obtain ⟨h1, h2, h3, h4, h5, h6⟩ := h
  exact ⟨go_writes ((h1 _).1 rfl) three, go_writes ((h1 _).2 rfl) three, go_writes ((h2 _).1 rfl) three, go_writes ((h3 _).1 rfl) three,
    go_writes ((h4 _).2 rfl) three, go_writes ((h5 _).1 rfl) three, go_writes ((h6 _).2 rfl) three⟩

theorem applies_MinMaxLogicShift (h : Obligations.MinMaxLogicShift) :
    Runs (.imin ⟨0, 127, 5, 6⟩) three ∧ Runs (.imax ⟨2, 126, 4, 6⟩) three ∧ Runs (.and ⟨1, 0, 5, 127⟩) three ∧
    Runs (.or ⟨2, 0, 4, 6⟩) three ∧ Runs (.xor ⟨3, 0, 4, 6⟩) three ∧ Runs (.andi ⟨127, 5, 0x1FFF⟩) three ∧ Runs (.ori ⟨0, 5, 0⟩) three ∧
    Runs (.xori ⟨0, 127, 1⟩) three ∧ Runs (.shl ⟨0, 0, 5, 70⟩) three ∧ Runs (.shr ⟨2, 126, 4, 127⟩) three ∧
    Runs (.sar ⟨1, 1, 5, 127⟩) three := by
  obtain ⟨h1, h2, h3, h4, h5, h6, h7, h8, h9, h10, h11⟩ := h
  exact ⟨go_writes ((h1 _).1 rfl) three, go_writes ((h2 _).2 rfl) three, go_writes ((h3 _).1 rfl) three, go_writes ((h4 _).2 rfl) three,
    go_writes ((h5 _).2 rfl) three, go_writes (h6 _) three, go_writes (h7 _) three, go_writes (h8 _) three,
    go_writes ((h9 _).1 rfl) three, go_writes ((h10 _).2 rfl) three, go_writes ((h11 _).1 rfl) three⟩

theorem applies_MultiplyAddAddressFields (h : Obligations.MultiplyAddAddressFields) :
    Runs (.iaddi ⟨127, 127, 0x1FFF⟩) three ∧ Runs (.imad ⟨0, 127, 5, 63⟩) three ∧ Runs (.lea ⟨126, 4, 127⟩) three ∧
    Runs (.bfi ⟨0, 5, 6, 31⟩) three ∧ Runs (.bfx ⟨true, 127, 5, 127⟩) three := by
  obtain ⟨h1, h2, h3, h4, h5⟩ := h
  exact ⟨go_writes (h1 _) three, go_writes (h2 _) three, go_writes (h3 _) three, go_writes (h4 _) three, go_writes (h5 _) three⟩

theorem applies_SelectMoveOneSource (h : Obligations.SelectMoveOneSource) :
    Runs (.sel ⟨127, 5, 6, true, 7⟩) three ∧ Runs (.mov ⟨true, 126, 4⟩) three ∧ Runs (.movi ⟨127, 0x80000⟩) three ∧
    Runs (.movhi ⟨0, 0xFFFFF⟩) three ∧ Runs (.iabs ⟨false, 0, 5⟩) three ∧ Runs (.clz ⟨true, 127, 126⟩) three ∧
    Runs (.popc ⟨false, 0, 127⟩) three ∧ Runs (.brev ⟨true, 2, 126⟩) three := by
  obtain ⟨h1, h2, h3, h4, h5, h6, h7, h8⟩ := h
  exact ⟨go_writes (h1 _) three, go_writes ((h2 _).2 rfl) three, go_writes (h3 _) three, go_writes (h4 _) three,
    go_writes ((h5 _).1 rfl) three, go_writes ((h6 _).2 rfl) three, go_writes ((h7 _).1 rfl) three, go_writes ((h8 _).2 rfl) three⟩

theorem applies_ComparesAndPredicates (h : Obligations.ComparesAndPredicates) :
    Runs (.icmp ⟨false, 9, 7, 5, 127⟩) three ∧ Runs (.icmp ⟨true, 0, 0, 4, 126⟩) three ∧ Runs (.icmpi ⟨9, 6, 127, 0x1000⟩) three ∧
    Runs (.fcmp ⟨5, 0, 70, 5⟩) three ∧ Runs (.pand ⟨7, true, 7, false, 0⟩) three ∧ Runs (.por ⟨0, false, 7, true, 6⟩) three ∧
    Runs (.pxor ⟨6, true, 0, true, 0⟩) three ∧ Runs (.pnot ⟨1, false, 7⟩) three := by
  obtain ⟨h1, h2, h3, h4, h5, h6, h7, h8⟩ := h
  exact ⟨go_sets (h1 _ (by decide) rfl) three, go_sets (h2 _ (by decide) rfl) three, go_sets (h3 _ (by decide)) three,
    go_sets (h4 _ (by decide)) three, go_sets (h5 _) three, go_sets (h6 _) three, go_sets (h7 _) three, go_sets (h8 _) three⟩

theorem applies_FloatArithmetic (h : Obligations.FloatArithmetic) :
    Runs (.fadd ⟨127, 70, 70⟩) three ∧ Runs (.fmul ⟨0, 70, 5⟩) three ∧ Runs (.ffma ⟨0, 70, 70, 63⟩) three := by
  obtain ⟨h1, h2, h3⟩ := h
  exact ⟨go_writes (h1 _) three, go_writes (h2 _) three, go_writes (h3 _) three⟩

theorem applies_FloatSelectClassApproximate (h : Obligations.FloatSelectClassApproximate) :
    Runs (.fmin ⟨127, 70, 5⟩) three ∧ Runs (.fmax ⟨0, 70, 127⟩) three ∧ Runs (.fclass ⟨0, 70⟩) three ∧ Runs (.fexp2 ⟨0, 9⟩) three := by
  obtain ⟨h1, h2, h3, h4⟩ := h
  exact ⟨go_writes (h1 _) three, go_writes (h2 _) three, go_writes (h3 _) three, go_writes (h4 ⟨0, 9⟩ _ 6 (by simp)) three⟩

theorem applies_PackedArithmetic (h : Obligations.PackedArithmetic) :
    Runs (.fadd2 ⟨true, 127, 70, 5⟩) three ∧ Runs (.fmul2 ⟨false, 0, 70, 70⟩) three ∧ Runs (.fma2 ⟨0, 70, 70, true, 31⟩) three ∧
    Runs (.fdot2 ⟨true, 70, 70, 70⟩) three ∧ Runs (.fdot2E4m3 ⟨70, 5, 6⟩) admitted := by
  obtain ⟨h1, h2, h3, h4, h5⟩ := h
  exact ⟨go_writes (h1 _) three, go_writes (h2 _) three, go_writes (h3 _) three, go_writes (h4 _) three, go_writes (h5 _) admitted⟩

theorem applies_ConvertAndQuantise (h : Obligations.ConvertAndQuantise) :
    Runs (.fcvt ⟨true, 0, 127, 70, 4, 0⟩) three ∧ Runs (.quant ⟨0, 120, 88, 87⟩) three := by
  obtain ⟨h1, h2⟩ := h
  exact ⟨go_writes (h1 _ (by decide)) three, (h2 ⟨0, 120, 88, 87⟩ (by decide) three (env three) (by decide) (by decide +kernel)).imp fun _ x => x.1⟩

theorem applies_SpecialRegisters (h : Obligations.SpecialRegisters) :
    Runs (.mfs 127 21) three ∧ Runs (.mfs 126 20) three ∧ Runs (.mts 14 5) three ∧ Runs (.mts 20 126) three ∧ Runs (.tagrd ⟨127, 127⟩) three ∧
    Runs (.tagwr ⟨127, 5⟩) three ∧ Runs (.wbase 3) three := by
  obtain ⟨h1, h2, h3, h4, h5, h6, h7⟩ := h
  exact ⟨go_writes (h1 _ 21 (fun _ _ t => (t.watch.getD 1 Watch.zero).ctl) (by simp)) three,
    go_writes (h2 _ 20 (fun _ _ t => (t.watch.getD 1 Watch.zero).hi) (by simp)) three, go_sets (h3 _ _ rfl rfl) three, go_sets (h4 _ _ rfl rfl) three,
    go_writes (h5 _) three, go_writes (h6 _) three, go_sets (h7 _) three⟩

theorem applies_ShuffleAndMatch (h : Obligations.ShuffleAndMatch) :
    Runs (.shfl ⟨3, 127, 5, 127⟩) three ∧ Runs (.rot ⟨0, 5, 127⟩) three ∧ Runs (.popcP 127 7) three ∧ Runs (.matchLane ⟨0, 0, 5⟩) three ∧
    Runs (.matchLane64 ⟨3, 127, 126⟩) three := by
  obtain ⟨h1, h2, h3, h4⟩ := h
  exact ⟨go_writes (h1 _) three, go_writes (h2 _) three, go_writes (h3 _ _) three, go_writes (h4 .matchLane false (by simp) _) three,
    go_writes (h4 .matchLane64 true (by simp) _) three⟩

theorem applies_VoteAndReduce (h : Obligations.VoteAndReduce) :
    Runs (.vote ⟨0, 7, true, 0⟩) three ∧ Runs (.vote ⟨1, 0, false, 7⟩) three ∧ Runs (.vote ⟨2, 127, false, 7⟩) three ∧
    Runs (.vote ⟨3, 8, true, 7⟩) three ∧ Runs (.redux ⟨127, 5, true, 0, 0⟩) three := by
  obtain ⟨h1, h2, h3, h4, h5⟩ := h
  exact ⟨go_sets (h1 _ rfl rfl) three, go_sets (h2 _ rfl rfl) three, go_writes (h3 _ rfl) three, go_writes (h4 _ rfl) three,
    (h5 ⟨127, 5, true, 0, 0⟩ (by decide) three (env three) (by decide) (by decide) (by decide)).elim fun s' x => ⟨s', x.1⟩⟩

/-- The lanes of `three` with IOVF 1 and the greatest sum's operands, in a context with room for records. -/
def ovf : State :=
  put (put (put (one (fun t => { t with anom := 4 }) (x := fun c => { c with anomBase := 0x4000, faultBase := 0x6000 })) 0 5 (2 ^ 31)) 0 6 0xFFFFFFFF) 0 7 1

/-- One lane with IOVF 1 (or another %anom), operands whose sums leave the float and the pointer range, and room for records. -/
def bearing (anom : BitVec 32 := 4) : State :=
  put2 (put2 (put (put (put (put (one (fun t => { t with anom := anom.toNat }) (x := fun c => { c with anomBase := 0x4000, faultBase := 0x6000 }))
    0 5 0x7F7FFFFF 0x800005) 0 6 0x7F7FFFFF) 0 7 0x80000000) 0 12 0x20) 0 10 0x0000FFFFFFFFFFF0) 0 14 0x7FFFFFFFFFFFFFFF

/-- A lane whose window stands above 64 of its registers. -/
def high : State := one (fun t => { t with wbase := 64 }) (x := fun c => { c with anomBase := 0x4000, faultBase := 0x6000 })

/-- Three lanes with IOVF 1, of which the middle one has the operands of an overflow. -/
def mixed : State :=
  put (put (put (at_ [0, 3, 31] [0, 0] (fun _ t => { t with anom := 4 }) crewOne (launchOne false 0 false)
    { contextOne with anomBase := 0x4000, faultBase := 0x6000 }) 3 5 (2 ^ 31)) 3 6 0xFFFFFFFF) 31 5 7 0x800003

/-- Three lanes of which the first two sum to an infinity, the second of them in an open region. -/
def summing : State :=
  put (put (put (at_ [0, 3, 31] [0, 0] (fun l t => if l = 3 then { t with region := some ⟨⟨[], 0, [], 0, none, 0, 0⟩, 0, 0, ⟨[], []⟩⟩ } else t)
    crewOne (launchOne false 0 false) { contextOne with anomBase := 0x4000, faultBase := 0x6000 }) 0 5 0x7F7FFFFF) 3 5 0x7F7FFFFF) 31 5 0xFF800000 0x800003

theorem applies_BirthsAndRules (h : Obligations.BirthsAndRules) :
    Runs (.iadd ⟨0, 127, 5, 6⟩) mixed ∧ Runs (.isub ⟨0, 0, 5, 7⟩) ovf ∧ Runs (.imul ⟨0, 0, 5, 6⟩) ovf ∧ Runs (.idiv ⟨0, 0, 5, 6⟩) ovf ∧
    Runs (.irem ⟨0, 0, 5, 8⟩) ovf ∧ Runs (.iadd ⟨2, 14, 14, 14⟩) bearing ∧ Runs (.idiv ⟨2, 126, 14, 100⟩) bearing ∧ Runs (.iaddi ⟨7, 7, 0x1FFF⟩) bearing ∧
    Runs (.imad ⟨3, 5, 6, 9⟩) bearing ∧ Runs (.iabs ⟨false, 3, 7⟩) bearing ∧ Runs (.iabs ⟨true, 126, 14⟩) bearing ∧ Runs (.lea ⟨20, 10, 12⟩) bearing ∧
    Runs (.fadd ⟨127, 5, 6⟩) bearing ∧ Runs (.fmul ⟨127, 5, 6⟩) bearing ∧ Runs (.ffma ⟨3, 5, 6, 9⟩) bearing ∧ Runs (.fadd2 ⟨false, 127, 5, 6⟩) bearing ∧
    Runs (.fmul2 ⟨false, 0, 5, 6⟩) bearing ∧ Runs (.fma2 ⟨3, 5, 6, false, 9⟩) bearing ∧ Runs (.fdot2 ⟨false, 9, 5, 6⟩) bearing ∧
    Runs (.fdot2E4m3 ⟨70, 5, 6⟩) admitted ∧ Runs (.frsq ⟨3, 7⟩) bearing ∧ Runs (.fcvt ⟨false, 0, 3, 5, 1, 0⟩) bearing ∧ Runs (.quant ⟨0, 32, 0, 40⟩) (put bearing 0 8 0x7F800000) ∧
    Runs (.redux ⟨127, 5, true, 2, 0⟩) summing ∧ Runs (.fadd ⟨127, 5, 5⟩) summing ∧ Runs (.fadd ⟨127, 5, 6⟩) (bearing 1) ∧
    ruleTag 0 7 [⟨1, 5⟩] 5 none 1 = 7 ∧ ruleTag 0 7 [⟨1, 5⟩, ⟨2, 0x800001⟩] 5 none 1 = 0x800001 ∧
    ruleTag 2 7 [⟨1, 5⟩, ⟨2, 6⟩] 5 none 2 = 6 ∧ ruleTag 2 7 [⟨1, 5⟩] 5 none 2 = 5 := by
  obtain ⟨h1, h2, h3, h4, h5, i2, i3, i4, j0, i5, i6, i7, i8, j1, j2, j3, j4, j5, i9, i10, j6, j7, i11, h6⟩ := h
  exact ⟨go_effects ((h1 _).1 rfl) mixed, go_effects ((h2 _).1 rfl) ovf, go_effects ((h3 _).1 rfl) ovf, go_effects ((h4 _).1 rfl) ovf,
    go_effects ((h5 _).1 rfl) ovf, go_effects ((h1 _).2 rfl) bearing, go_effects ((h4 _).2 rfl) bearing, go_effects (i2 _) bearing,
    go_effects (i3 _) bearing, go_effects (i4 _ rfl) bearing, go_effects (j0 _ rfl) bearing, go_effects (i5 _) bearing,
    go_effects (i6 _) bearing, go_effects (i7 _) bearing (q := by decide +kernel), go_effects (i8 _) bearing (q := by decide +kernel),
    go_effects (j1 _) bearing (q := by decide +kernel), go_effects (j2 _) bearing (q := by decide +kernel), go_effects (j3 _) bearing (q := by decide +kernel),
    go_effects (j4 _) bearing (q := by decide +kernel), go_effects (j5 _) admitted (q := by decide +kernel),
    go_effects (i9 ⟨3, 7⟩ (.frsq ⟨3, 7⟩) 5 (by simp)) bearing (q := by decide +kernel),
    go_effects (i10 _ (by decide)) bearing, go_effects (j6 _ (by decide)) (put bearing 0 8 0x7F800000) (q := by decide +kernel),
    go_once (j7 _ (by decide)) summing 1 [4, 32] (x := by decide +kernel), go_effects (i6 _) summing (q := by decide +kernel), go_departs (i11 _) (bearing 1),
    (h6 7 5 _ none 1).1 (by decide), (h6 7 5 _ none 1).2.1 [⟨1, 5⟩] ⟨2, 0x800001⟩ [] rfl (by decide) (by decide),
    (h6 7 5 _ none 2).2.2.2.2.1 [⟨1, 5⟩] ⟨2, 6⟩ [] rfl (by decide) rfl, (h6 7 5 _ none 2).2.2.2.2.2.1 (by decide)⟩

/-- A context that may not inject. -/
def barred : State := one (x := fun c => { c with finj := false, faultBase := 0x6000 })

theorem applies_LaneTraps (h : Obligations.LaneTraps) :
    Runs (.trap 0xFFFF) ovf ∧ Runs .brk ovf ∧ Runs (.iadd ⟨1, 127, 5, 6⟩) high ∧ Runs (.xor ⟨2, 4, 5, 6⟩) ovf ∧
    Runs (.icmp ⟨false, 0, 1, 5, 6⟩) (bearing 2) ∧ Runs (.tagwr ⟨3, 6⟩) ovf ∧ Runs (.wbase 4) ovf ∧ Runs (.inject ⟨5, 6⟩) barred ∧ Runs .eret ovf ∧
    Runs (.ld ⟨9, 3, false, 2, 0, 1⟩) ovf ∧ Runs (.ld ⟨9, 7, false, 0, 0, 0⟩) (bearing 4) := by
  obtain ⟨h1, h2, h3, h4, h5, h6, h7, h8, h9⟩ := h
  have a := h9 ⟨9, 3, false, 2, 0, 1⟩ (by decide) rfl ovf (env ovf) 1 (began ovf 1) (by decide) (by decide) (by decide) (by decide)
  obtain ⟨s1, x1, _⟩ := a (by decide) (by decide)
  have b := h9 ⟨9, 7, false, 0, 0, 0⟩ (by decide) rfl (bearing 4) (env (bearing 4)) 1 (began (bearing 4) 1) (by decide) (by decide) (by decide) (by decide)
  obtain ⟨s2, x2, _⟩ := b (by decide) (by decide)
  exact ⟨go_departs (h1 _) ovf, go_departs h2 ovf, go_departs ((h3 _ _ (by simp)).1 (by decide)) high, go_departs ((h3 _ .xor (by simp)).2 (by decide) (by decide)) ovf,
    go_departs (h4 _ rfl) (bearing 2), go_departs (h5 _) ovf, go_departs (h6 _) ovf, go_departs (h7 _) barred, go_departs h8 ovf, ⟨s1, x1⟩, ⟨s2, x2⟩⟩

/-- One lane whose link and v4:v5 name clause 1. -/
def linked (t : Thread → Thread := id) : State := put2 (put2 (put (one t) 0 2 9) 0 124 0x40) 0 4 0x40

/-- `linked` with v4:v5 and the link at `x`, before a clause 1 that is an unresolved stub. -/
def stubbed (x : Nat := 0x40) : State :=
  let s := put2 (put2 (one (x := fun c => { c with faultBase := 0x6000 })) 0 124 x) 0 4 x
  { s with mem := writeCells s.mem 0x40 (toBytes 4 0xF8000000) }

theorem applies_BranchesCallsReturns (h : Obligations.BranchesCallsReturns) :
    Runs (.bra ⟨7, true, 0x3FFFFF⟩) three ∧ Runs (.call 0x2000000) three ∧ Runs (.brx 4) linked ∧ Runs (.callx 4) linked ∧ Runs .ret linked ∧
    Runs .ret (linked fun t => { t with retSite := some (0x40, 3) }) ∧ Runs (.bra ⟨7, false, 1⟩) stubbed ∧ Runs (.call 1) stubbed ∧
    Runs (.brx 4) (stubbed 0x41) ∧ Runs (.callx 4) (stubbed 0xFFFFFFFFFFFFFFC0) ∧ Runs (.callxF 4) stubbed ∧ Runs .ret (stubbed 0x7F) ∧
    Runs .ret (stubbed 0xFFFFFFFFFFFFFFC0) ∧ Runs .ret stubbed := by
  obtain ⟨h1, h2, h3, h4, h5, h6, i1, i2, i3, i4, i5, i6⟩ := h
  exact ⟨go_moves (h1 _) three, go_moves (h2 _) three, go_moves (h3 _) linked, go_moves (h4 _) linked, go_departs h5 linked,
    go_departs (h6 3) (linked fun t => { t with retSite := some (0x40, 3) }), go_departs (i1 _) stubbed, go_departs (i2 _) stubbed,
    go_departs (i3 (.brx 4) 4 [⟨4, 2, 2⟩] (by simp)).1 (stubbed 0x41), go_departs (i3 (.callx 4) 4 [⟨4, 2, 2⟩, ⟨124, 2, 1⟩] (by simp)).2.1 (stubbed 0xFFFFFFFFFFFFFFC0),
    go_departs (i3 (.callxF 4) 4 [⟨4, 2, 2⟩, ⟨124, 2, 1⟩] (by simp)).2.2 stubbed, go_departs i4 (stubbed 0x7F), go_departs i5 (stubbed 0xFFFFFFFFFFFFFFC0),
    go_departs i6 stubbed⟩

/-- What the return predictor holds for the call at clause 0, slot 0. -/
def known : Pred := ⟨0, 1, 0x40, [5, 0, 0, 0], [0, 0, 0, 0], [false, false, false, false], [3, 0, 0, 0]⟩

/-- One lane that calls clause 1, whose return the predictor knows. -/
def forkable : State :=
  { linked with preds := [(predKey 0 2, known)] }

/-- A thread in a continuation. -/
def continued : State := one fun t => { t with inherited := 1 }

theorem applies_ForkableCalls (h : Obligations.ForkableCalls) :
    Runs (.vote ⟨2, 3, false, 1⟩) continued ∧ Runs (.mma ⟨true, 3, 4, 0⟩) continued ∧
    Runs (.callf 1) linked ∧ Runs (.callf 1) forkable ∧ Runs (.callxF 4) linked ∧ Runs (.callxF 4) forkable :=
  ⟨go_departs (h.1 _ rfl) continued, go_departs (h.1 _ rfl) continued,
    go_departs (h.2 (.callf 1) _ _ _ true (Or.inl ⟨1, rfl, rfl, rfl, rfl, rfl⟩)).1 linked,
    go_departs ((h.2 (.callf 1) _ _ _ true (Or.inl ⟨1, rfl, rfl, rfl, rfl, rfl⟩)).2 known 0 1 128) forkable,
    go_departs (h.2 (.callxF 4) _ _ _ false (Or.inr ⟨4, rfl, rfl, rfl, rfl, rfl⟩)).1 linked,
    go_departs ((h.2 (.callxF 4) _ _ _ false (Or.inr ⟨4, rfl, rfl, rfl, rfl, rfl⟩)).2 known 0 1 128) forkable⟩

/-- Two lanes of one crew, the second in no warp. -/
def two (t : Nat → Thread → Thread) (c : Crew → Crew := id) (x : Context → Context := id) (l : Launch → Launch := id) : State :=
  let s := at_ [0, 7] [0, 0, 0] t (c crewOne) (l (launchOne false 0 false)) (x contextOne)
  { s with warps := s.warps.map fun w => (w.1, { w.2 with members := [1] }) }

/-- The second of two lanes waits at a boundary. -/
def idle (u : Nat) (t : Thread) : Thread := if u = 0 then t else { t with status := .boundary, pc := 0x40 }

theorem applies_ThreadExit (h : Obligations.ThreadExit) : Runs .exit (two idle) := by
  have h := h (two idle) (env (two idle)) 1 (began (two idle) 1) 8 (began (two idle) 8)
  repeat specialize h (by decide)
  exact h.imp fun _ x => x.1

/-- A lane in a handler; its save block of zeros but for RPC, in the middle of clause 1. -/
def handling : State :=
  let s := one (fun t => { t with handler := some 0, block := 0x4000 }) (x := fun c => { c with tsave := 0x4000 })
  { s with mem := writeCells (writeCells s.mem 0x4400 (toBytes 8 0x4C ++ toBytes 4 3)) 0x40 (toBytes 4 (2 * 2 ^ 22)) }

theorem applies_HandlerReturn (h : Obligations.HandlerReturn) : Runs .eret handling :=
  go_departs (h (List.replicate 128 Reg.zero) 0x4C 3 0) handling (x := by decide +kernel)

/-- A checkpoint that holds nothing. -/
def empty : Check := ⟨[], 0, [], 0, none, 0, 0⟩

/-- One lane with an open region that holds nothing. -/
def inRegion (t : Thread) : Thread := { t with region := some ⟨empty, 0, 0, ⟨[], []⟩⟩ }

theorem applies_YieldRegionsPrefetchCount (h : Obligations.YieldRegionsPrefetchCount) :
    Runs .yield three ∧ Runs .yield (one (c := fun c => { c with req := true })) ∧ Runs .regb three ∧ Runs .rege (one inRegion) ∧
    Runs (.ipref 0x400000) three ∧ Runs (.bbc 3) admitted ∧ Runs (.bbc 4) admitted := by
  obtain ⟨h1, h2, h3, h4, h5, h6⟩ := h
  exact ⟨go_effects h1 three, go_departs h2 _, go_effects h3 three, go_effects h4 _,
    (h5 0x400000 three (env three) (by decide) (by decide)).imp fun _ x => x.1,
    (h6 3 admitted (env admitted) _ (by decide) (by decide) (by decide) rfl).imp fun _ x => x.1,
    (h6 4 admitted (env admitted) _ (by decide) (by decide) (by decide) rfl).imp fun _ x => x.1⟩

/-- A home thread that waits for its fork to start, the callee's slot reserved. -/
def forking : State :=
  two fun l t => if l = 0 then { t with status := .forking 8 0x40 2 (List.replicate 4 Reg.zero) 9 } else
    { t with status := .reserved, callee := some 1, rbase := 1920 }

theorem applies_ForkStarts (h : Obligations.ForkStarts) : Runs (.forkStart 1) forking := by
  have h := h forking 1 8 0x40 2 (List.replicate 4 Reg.zero) 9 (thr forking 1) (thr forking 8)
  repeat specialize h (by decide)
  obtain ⟨s', _, _, x, _⟩ := h
  exact ⟨s', x⟩

/-- A callee that returns to the fork token, its home thread at a boundary. -/
def returning (conf : Bool) (pred : List Reg) : State :=
  put2 (two fun l t => if l = 0 then { t with callee := some 8 } else
    { t with status := .boundary, levels := [⟨1, empty, 0x40, pred, [], [], conf, ⟨[], []⟩, []⟩], rbase := 1920 }) 0 124 0xFFFFFFFFFFFFFFC0

theorem applies_ForkResolution (h : Obligations.ForkResolution) :
    Runs .ret (returning false (List.replicate 4 Reg.zero)) ∧ Runs .ret (returning true (List.replicate 4 Reg.zero)) := by
  have key : ∀ c : Bool, _ := fun c => h (returning c (List.replicate 4 Reg.zero)) (env (returning c (List.replicate 4 Reg.zero))) 1
    (began (returning c (List.replicate 4 Reg.zero)) 1) 8 (began (returning c (List.replicate 4 Reg.zero)) 8)
    ⟨1, empty, 0x40, List.replicate 4 Reg.zero, [], [], c, ⟨[], []⟩, []⟩
  have a := key false
  have b := key true
  repeat specialize a (by decide)
  repeat specialize b (by decide)
  obtain ⟨s', _, x, _⟩ := a.1 (by decide) (by decide)
  obtain ⟨s2', _, x2, _⟩ := b.2 (by decide) (by decide)
  exact ⟨⟨s', x⟩, ⟨s2', x2⟩⟩

/-- Two lanes whose v2:v3 names memory, and two whose v2:v3 names the scratchpad. -/
def global : State := put2 (put2 (at_ [0, 31] [0, 0] (fun _ t => t) crewOne (launchOne false 0 false) contextOne) 0 2 0x8000) 31 2 0xFFC0
def local_ : State := put2 (put2 global 0 2 0) 31 2 0x380

theorem applies_LoadsIssue (h : Obligations.LoadsIssue) :
    Runs (.ld ⟨124, 1, true, 4, 0, 1⟩) global ∧ Runs (.ld ⟨127, 1, false, 0, 1, 511⟩) (put2 local_ 31 2 0x200) ∧
    Runs (.ldStrong ⟨127, 1, false, 2, 4, 15⟩) global ∧ Runs (.ldg ⟨126, 1, 4, 3, 0, true⟩) global := by
  obtain ⟨h1, h2, h3⟩ := h
  exact ⟨go_effectsOp (h1 _ (by decide)) global, go_effectsOp (h1 _ (by decide)) _, go_effectsOp (h2 _ (by decide)) global,
    go_effectsOp (h3 _ (by decide)) global⟩

/-- A load between its issue and its read step. -/
def loading : State :=
  let s := one
  { s with loads := [(5, { op := 3, uid := 1, dst := 124, regs := 4, width := 16, loc := .hbm 0x8000, va := 0x8000, tagAddr := none, ptag := 0, gather := false, scope := 0, wide := false, iss := (env s).issuer 1 (thr s 1) })] }

theorem applies_LoadsReturn (h : Obligations.LoadsReturn) : Runs (.loadReturn 5) loading :=
  (h loading 5 _ (thr loading 1) rfl (by decide) (by decide) (by decide) (by intro c o h; cases h)).imp fun _ x => x.1

theorem applies_StoresIssue (h : Obligations.StoresIssue) :
    Runs (.st ⟨124, 1, true, 4, 0, 1⟩) global ∧ Runs (.st ⟨127, 1, true, 0, 0, 1⟩) (put2 (one inRegion) 0 2 0x8000) ∧
    Runs (.stStrong ⟨127, 1, false, 2, 4, 15⟩) global ∧ Runs (.stx ⟨126, 1, 4, 3, 0, true⟩) global := by
  obtain ⟨h1, h2⟩ := h
  exact ⟨go_effects (h1 _ _ _ (Or.inl ⟨⟨124, 1, true, 4, 0, 1⟩, by decide, rfl, rfl, rfl⟩)).1 global,
    go_effects (h1 _ _ _ (Or.inl ⟨⟨127, 1, true, 0, 0, 1⟩, by decide, rfl, rfl, rfl⟩)).2 _,
    go_effects (h1 _ _ _ (Or.inr ⟨⟨127, 1, false, 2, 4, 15⟩, by decide, rfl, rfl, rfl⟩)).1 global, go_effectsOp (h2 _ (by decide)) global⟩

/-- A store of one granule from lane 0, at a place, and a state that holds it under number 5, with `f` the buffer. -/
def storeAt (l : Loc) (ta : Option Nat) : Store :=
  { uid := 1, crew := 1, ctx := 1, core := 0, loc := l, va := 0x8000, data := (List.replicate 16 7).map some, tag := 9, tagAddr := ta, page := 0x10000
    scope := 0, color := none, op := 0, seq := 1, iss := (env one).issuer 1 (thr one 1), half := false, pailed := false }
def storing (l : Loc) (f : State → State) : State := f { one with stores := [(5, storeAt l none), (6, storeAt l none)] }

/-- Lanes 0 and 7 with one STX's stores to one granule in their FIFOs. -/
def twoStores : State :=
  { two fun l t => { t with fifo := if l = 0 then [6] else [5] } with
    stores := [(5, { storeAt (.hbm 0x8000) none with uid := 8 }), (6, storeAt (.hbm 0x8000) none)] }

theorem applies_CorePointOrder (h : Obligations.CorePointOrder) :
    exec (.storeFifoDrain 1) twoStores = .refused (.cannotOccur "STORE_FIFO_DRAIN") ∧
    Runs (.storeFifoDrain 1) (storing (.hbm 0x8000) fun s => s.modThread 1 fun t => { t with fifo := [5] }) ∧
    Runs (.storeFifoDrain 1) (storing (.scr 0 0x3F0) fun s => s.modThread 1 fun t => { t with fifo := [5] }) ∧
    exec (.corePointDrain 0 1) (storing (.hbm 0x8000) fun s => { s with corePoint := [(0, [5, 6])] }) = .refused (.cannotOccur "CORE_POINT_DRAIN") ∧
    Runs (.corePointDrain 0 0) (storing (.hbm 0x8000) fun s => { s with corePoint := [(0, [5, 6])] }) ∧
    Runs (.remoteStorePerform 0 0) (storing (.scr 1 0) fun s => { s with corePoint := [(0, [5, 6])] }) := by
  obtain ⟨h1, h2⟩ := h
  let a := storing (.hbm 0x8000) fun s => s.modThread 1 fun t => { t with fifo := [5] }
  let b := storing (.scr 0 0x3F0) fun s => s.modThread 1 fun t => { t with fifo := [5] }
  let c := storing (.hbm 0x8000) fun s => { s with corePoint := [(0, [5, 6])] }
  let d := storing (.scr 1 0) fun s => { s with corePoint := [(0, [5, 6])] }
  obtain ⟨s1, _, x1, _⟩ := (h1 a 1 5 [] (thr a 1) (storeAt (.hbm 0x8000) none) rfl rfl (by decide) rfl).2.1 (by intro b h; cases h) (by decide) rfl
  obtain ⟨s2, x2, _⟩ := (h1 b 1 5 [] (thr b 1) (storeAt (.scr 0 0x3F0) none) rfl rfl (by decide) rfl).2.2 0x3F0 rfl (by decide) rfl (by decide)
  obtain ⟨s4, x4, _⟩ := (h2 c 0 0 5 (storeAt (.hbm 0x8000) none) [] (by decide)).2.1 rfl rfl
  obtain ⟨s5, x5, _⟩ := (h2 d 0 0 5 (storeAt (.scr 1 0) none) [] (by decide)).2.2 rfl rfl rfl (by decide)
  exact ⟨(h1 twoStores 1 6 [] (thr twoStores 1) (storeAt (.hbm 0x8000) none) rfl rfl (by decide) rfl).1 (by decide), ⟨s1, x1⟩, ⟨s2, x2⟩,
    (h2 c 0 1 6 (storeAt (.hbm 0x8000) none) [storeAt (.hbm 0x8000) none] (by decide)).1 rfl, ⟨s4, x4⟩, ⟨s5, x5⟩⟩

theorem applies_DevicePointOrder (h : Obligations.DevicePointOrder) :
    exec (.diePointDrain 0 1) (storing (.hbm 0x8000) fun s => { s with diePoint := [(0, [5, 6])] }) = .refused (.cannotOccur "DIE_POINT_DRAIN") ∧
    Runs (.diePointDrain 0 0) (storing (.host 0x8000) fun s => { s with diePoint := [(0, [5, 6])] }) ∧
    Runs (.diePointDrain 0 0) (storing (.hbm 0x8000) fun s => { s with diePoint := [(0, [5, 6])] }) ∧
    Runs (.fabricPointPerform 0) (storing (.host 0x8000) fun s => { s with fabric := [5, 6] }) ∧
    Runs (.gatherWritePerform 0 0) (storing (.hbm 0x8000) fun s => { s with gatherQ := [(0, [5, 6])] }) ∧
    Runs (.copyGlobalPerform 0 0) (storing (.hbm 0x8000) fun s => { s with landing := [(0, [5, 6])] }) := by
  obtain ⟨h1, h2, h3, h4⟩ := h
  let a := storing (.hbm 0x8000) fun s => { s with diePoint := [(0, [5, 6])] }
  let b := storing (.host 0x8000) fun s => { s with diePoint := [(0, [5, 6])] }
  obtain ⟨s2, x2, _⟩ := (h1 b 0 0 5 (storeAt (.host 0x8000) none) [] (by decide)).2.1 (by decide) (by decide)
  obtain ⟨s3, x3, _⟩ := (h1 a 0 0 5 (storeAt (.hbm 0x8000) none) [] (by decide)).2.2 (by decide) (by decide) (by decide)
  obtain ⟨s4, x4, _⟩ := h2 (storing (.host 0x8000) fun s => { s with fabric := [5, 6] }) 0 5 (storeAt (.host 0x8000) none) [] (by decide) (by decide) (by decide)
  obtain ⟨s5, x5, _⟩ := h3 (storing (.hbm 0x8000) fun s => { s with gatherQ := [(0, [5, 6])] }) 0 0 5 (storeAt (.hbm 0x8000) none) [] (by decide) (by decide) (by decide) (by decide)
  obtain ⟨s6, x6, _⟩ := h4 (storing (.hbm 0x8000) fun s => { s with landing := [(0, [5, 6])] }) 0 0 5 (storeAt (.hbm 0x8000) none) [] (by decide) (by decide) (by decide) (by decide)
  exact ⟨(h1 a 0 1 6 (storeAt (.hbm 0x8000) none) [storeAt (.hbm 0x8000) none] (by decide)).1 (by decide), ⟨s2, x2⟩, ⟨s3, x3⟩, ⟨s4, x4⟩, ⟨s5, x5⟩, ⟨s6, x6⟩⟩

/-- Granules with a tag word, on an exempt page, and in the scratchpad: the statement gives what a byte reads as. -/
theorem applies_StorePerformed (h : Obligations.StorePerformed) :
    SMap.getD (one.performStore (storeAt (.hbm 0x8000) (some 0x9000))).mem 0 0x800F = 7 ∧
    SMap.getD (one.performStore (storeAt (.hbm 0x8000) none)).mem 0 0x8000 = 7 ∧
    SMap.getD (one.performStore (storeAt (.scr 0 0x3F0) none)).scr 0 (scrKey 0 0x3FF) = 7 := by
  have q := fun l ta => h one (storeAt l ta) (List.replicate 16 7) rfl rfl rfl (by decide) (by decide)
  refine ⟨?_, ?_, ?_⟩
  · exact ((q _ _).1 0x8000 0x9000 rfl rfl (by decide)).1 15 (by decide)
  · rw [(q _ _).2.1 0x8000 rfl rfl]; decide
  · rw [((q _ _).2.2 0 0x3F0 rfl (by decide)).1]; decide

/-- One lane with v2:v3 at 0x8000, v4:v5 at granule 3 of the scratchpad, v8 and v10 small. -/
def ptr : State := put (put (put (put2 (put2 one 0 2 0x8000) 0 4 48) 0 8 5) 0 9 3) 0 10 0

theorem applies_Atomics (h : Obligations.Atomics) :
    Runs (.atom ⟨2, 1, 4, true, 1, 8, 63⟩) ptr ∧ Runs (.red ⟨0, 0, 4, false, 1, 8⟩) ptr ∧
    (atomStep 7 1 (5 : Word).toNat (9 : Word).toNat (5 : Word).toNat).1 = (9 : Word).toNat ∧
    (atomStep 6 2 (5 : DWord).toNat (9 : DWord).toNat (5 : DWord).toNat).1 = (9 : DWord).toNat := by
  obtain ⟨h1, h2, h3⟩ := h
  have go : ∀ i m, ((∃ f : FAtom, wellFormed (.atom f) = true ∧ i = .atom f ∧ m = atomArgs f) ∨ (∃ f : FRed, wellFormed (.red f) = true ∧ i = .red f ∧ m = redArgs f)) →
      (env ptr).names (began ptr 1) m.chk.uses = true → (q : (atomApplies m (ptr.begin (env ptr)) (env ptr) 1 (began ptr 1)).isSome = true) → Runs i ptr :=
    fun i m hi hn q => (h1 i m hi ptr (env ptr) 1 (began ptr 1) _ _ (by decide) (by decide) (by decide) hn (Option.some_get q).symm).imp fun _ x => x.1
  refine ⟨go _ _ (Or.inl ⟨⟨2, 1, 4, true, 1, 8, 63⟩, by decide, rfl, rfl⟩) (by decide) (by decide +kernel),
    go _ _ (Or.inr ⟨⟨0, 0, 4, false, 1, 8⟩, by decide, rfl, rfl⟩) (by decide) (by decide +kernel), ?_, ?_⟩
  · obtain ⟨-, -, -, -, -, -, -, x⟩ := h2 5 9 5 1 (Or.inr rfl)
    rw [x, if_pos rfl]
  · obtain ⟨-, -, -, x, -⟩ := h3 5 9 5 2 (Or.inl rfl)
    exact x

/-- The same on a page with tag words at 0x20000000. -/
def tagged : State := { ptr with mem := sixteen ptr.mem 0x2000 (0x17 + 2 ^ 62 * (0x20000000 / 2 ^ 14)) }

theorem applies_FencesAndLines (h : Obligations.FencesAndLines) :
    Runs (.fence 0) three ∧ Runs (.fence 5) three ∧ Runs (.fencex 4 0) three ∧ Runs (.fencex 0 4) three ∧ Runs .cctl three ∧ Runs (.pref 2) ptr ∧
    Runs (.color ⟨true, true, 8, 2, 9⟩) tagged := by
  obtain ⟨h1, h2, h3, h4, h5⟩ := h
  exact ⟨go_effects (h1 0) three, go_effects (h1 5) three, go_effects (h2 4 0) three, go_effects (h2 0 4) three,
    (h3 three (env three) (by decide) (by decide)).imp fun _ x => x.1, go_effects (h4 2) ptr, go_effectsOp (h5 _) tagged⟩

/-- A lane with an armed monitor, its time running out. -/
def watching (w : Option Wait) : State := ptr.modThread 1 fun t => { t with monitor := some (.hbm 0x8000, false), wait := w, timer := some 0 }

theorem applies_Monitors (h : Obligations.Monitors) :
    Runs (.monitor ⟨1, 127, false⟩) ptr ∧ Runs (.monitor ⟨2, 0, true⟩) ptr ∧ Runs (.mwait 8) ptr ∧ Runs (.mwait 8) (watching none) ∧
    Runs (.mwaitTimeout 1) (watching (some .monitor)) := by
  obtain ⟨h1, h2, h3, h4⟩ := h
  exact ⟨go_effects (h1 _) ptr, go_effects (h1 _) ptr, go_effects (h2 _) ptr, go_departs (h3 _) (watching none),
    ⟨_, h4 (watching (some .monitor)) 1 (thr (watching (some .monitor)) 1) (.hbm 0x8000) (by decide) (by decide) (by decide) (by decide) (by decide)⟩⟩

/-- A barrier object at byte 48 of the crew's scratchpad. -/
def barrier (s : State) (x : Bar) : State := s.putBar 0 48 x

theorem applies_BarrierObjectRules (h : Obligations.BarrierObjectRules) :
    (ptr.putBar 0 48 ⟨2 ^ 32 - 1, 2 ^ 16 - 1, 0, -2 ^ 31, 2 ^ 32 - 1⟩).barAt 0 48 = ⟨2 ^ 32 - 1, 2 ^ 16 - 1, 0, -2 ^ 31, 2 ^ 32 - 1⟩ ∧
    (⟨2 ^ 32 - 1, 3, 0, 0, 9⟩ : Bar).test.phase = 0 ∧ (⟨0, 3, 1, -1, 1⟩ : Bar).test = ⟨0, 3, 1, -1, 3⟩ ∧ (⟨0, 3, 1, 0, 1⟩ : Bar).test = ⟨0, 3, 1, 0, 1⟩ ∧
    phasePassed 0 (2 ^ 32 - 1) = true := by
  obtain ⟨h1, h2, h3, h4, h5, h6, h7⟩ := h
  exact ⟨h1 ptr 0 48 ⟨2 ^ 32 - 1, 2 ^ 16 - 1, 0, -2 ^ 31, 2 ^ 32 - 1⟩ (by decide) (by decide) (by decide) (by decide) (by decide) (by decide),
    ((h3 ⟨2 ^ 32 - 1, 3, 0, 0, 9⟩ (by decide) (by decide) (by decide) (by decide) (by decide) (by decide)).1).trans (by decide),
    h4 ⟨0, 3, 1, -1, 1⟩ (by decide) (by decide), h5 ⟨0, 3, 1, 0, 1⟩ (by decide), (h6 0 0xFFFFFFFF).trans (by decide)⟩

/-- A machine whose context has room for fault records. -/
def logged (s : State) : State := { s with ctxs := SMap.mod s.ctxs 1 fun c => { c with faultBase := 0x6000 } }

theorem applies_BarrierOperations (h : Obligations.BarrierOperations) :
    Runs (.barinit ⟨2, 0, true, 1⟩) ptr ∧ Runs (.barinitLong ⟨2, 0, false, 0⟩) ptr ∧ Runs (.barexp ⟨2, 0, 8⟩) ptr ∧
    Runs (.bararv ⟨2, 0, false⟩) (barrier ptr ⟨7, 3, 3, 0, 9⟩) ∧ Runs (.bararv ⟨2, 0, false⟩) (barrier (logged ptr) ⟨7, 3, 0, 0, 9⟩) := by
  obtain ⟨h1, h2, h3, h4, h5⟩ := h
  exact ⟨go_once (h1 _) ptr, go_once (h2 _) ptr, go_once (h3 _) ptr, go_effects (h4 _) (barrier ptr ⟨7, 3, 3, 0, 9⟩),
    go_departs (h5 _) (barrier (logged ptr) ⟨7, 3, 0, 0, 9⟩)⟩

theorem applies_PhaseWaits (h : Obligations.PhaseWaits) :
    Runs (.waitp ⟨2, 0, 255⟩) (barrier ptr ⟨256, 3, 3, 0, 9⟩) ∧ Runs (.waitp ⟨2, 0, 255⟩) (barrier ptr ⟨255, 3, 3, 0, 9⟩) ∧
    Runs (.waitpReg ⟨2, 0, 8⟩) (barrier ptr ⟨6, 3, 3, 0, 9⟩) ∧ Runs (.waitpLong ⟨2, 0, 0xFFF⟩) (barrier ptr ⟨0xFFF, 3, 3, 0, 9⟩) ∧
    Runs (.trywait ⟨2, 0, 7, 10, .imm 3⟩) (barrier ptr ⟨3, 3, 3, 0, 9⟩) ∧ Runs (.trywait ⟨2, 0, 7, 9, .reg 8⟩) (barrier ptr ⟨5, 3, 3, 0, 9⟩) ∧
    Runs (.waitp ⟨2, 0, 7⟩) (barrier (logged ptr) ⟨7, 3, 0, 0, 11⟩) ∧ Runs (.trywait ⟨2, 0, 7, 10, .imm 3⟩) (barrier (logged ptr) ⟨3, 3, 3, 0, 13⟩) ∧
    Runs (.trywaitTimeout 1) (watching (some (.phase (.scr 0 48) 3))) := by
  obtain ⟨h1, h2, h3, h4, h5⟩ := h
  exact ⟨go_effects (h1 _).1 (barrier ptr ⟨256, 3, 3, 0, 9⟩), go_departs ((h1 _).2.1 0 48) (barrier ptr ⟨255, 3, 3, 0, 9⟩),
    go_effects (h2 _).1 (barrier ptr ⟨6, 3, 3, 0, 9⟩), go_departs ((h3 _).2.1 0 48) (barrier ptr ⟨0xFFF, 3, 3, 0, 9⟩),
    go_effects (h4 _).1 (barrier ptr ⟨3, 3, 3, 0, 9⟩), go_departs ((h4 _).2.1 0 48) (barrier ptr ⟨5, 3, 3, 0, 9⟩),
    go_departs ((h1 _).2.2 0 48) (barrier (logged ptr) ⟨7, 3, 0, 0, 11⟩), go_departs ((h4 _).2.2 0 48) (barrier (logged ptr) ⟨3, 3, 3, 0, 13⟩),
    ⟨_, h5 (watching (some (.phase (.scr 0 48) 3))) 1 (thr (watching (some (.phase (.scr 0 48) 3))) 1) (.scr 0 48) 3 (by decide) (by decide) (by decide) (by decide)⟩⟩

/-- A crew in gang 0 of its launch, whose barrier counts crews. -/
def ganged (t : Thread → Thread := id) (s : State := one) : State :=
  { s.modThread 1 t with
    crews := SMap.put s.crews 1 ({ crewOne with gangs := [⟨0, 0, false, 0⟩] } : Crew)
    launches := SMap.put s.launches 1 ({ launchOne false 0 false with gangs := [⟨true, 64, [0]⟩] } : Launch) }

/-- The gang's arrival on its way, the crew's thread waiting on it. -/
def arriving : State :=
  let s := ganged fun t => { t with status := .boundary, wait := some (.gang 0 0) }
  { s with
    crews := SMap.mod s.crews 1 fun c => { c with gangWait := some (0, 0) }
    arrivals := [(2, ⟨1, 0, 1, .scr 0 1024⟩)]
    warps := [] }.putBar 0 1024 ⟨0, 1, 1, 0, 9⟩

theorem applies_CrewAndGangBarriers (h : Obligations.CrewAndGangBarriers) :
    Runs .crewbar one ∧ Runs .crewbar (two idle) ∧ Runs .crewbar (one fun t => { t with wait := some .woken }) ∧ Runs (.gbar 8) (ganged id (two idle)) ∧
    Runs (.gbar 8) ganged ∧ Runs (.gbar 8) (ganged fun t => { t with wait := some .woken }) ∧ Runs (.gangArrival 2) arriving := by
  obtain ⟨h1, h2, h3, h4⟩ := h
  exact ⟨go_departs h1 one, go_departs h1 (two idle), go_effects h2 _, go_departs (h3 8).1 (ganged id (two idle)),
    go_departs ((h3 8).2.1 0 1024) ganged, go_effects (h3 8).2.2 _,
    (h4 arriving 2 ⟨1, 0, 1, .scr 0 1024⟩ ((SMap.get? arriving.crews 1).getD crewOne) 0 1024 rfl rfl (by decide) rfl (by decide) (by decide)).imp fun _ x => x.1⟩

/-- A lane whose meet register 3 is armed on token 77, with the lanes `us`. -/
def met (us : List Nat) (s : State) (w : Option Wait := none) : State :=
  { s.modThread 1 fun t => { t with meets := [none, none, none, some 77], wait := w } with
    crews := SMap.put s.crews 1 ({ crewOne with meets := [⟨77, us, us.filter (· != 1), 0⟩] } : Crew) }

theorem applies_Meets (h : Obligations.Meets) :
    Runs (.meetarm 0xFFFF 3) three ∧ Runs (.meet 0) three ∧ Runs (.meet 3) (met [1] one (some .woken)) ∧ Runs (.meet 3) (met [1, 8] (two idle)) ∧
    Runs (.meet 3) (met [1] one) := by
  obtain ⟨h1, h2, h3, h4⟩ := h
  exact ⟨go_effects (h1 _ _) three, go_effects (h2 _) three, go_effects (h3 3) (met [1] one (some .woken)),
    go_departs (h4 3 77) (met [1, 8] (two idle)), go_departs (h4 3 77) (met [1] one)⟩

theorem applies_TriggerCounters (h : Obligations.TriggerCounters) : Runs (.trig 10 8) ptr ∧ Runs (.trigrst 9 8) ptr :=
  ⟨go_once (h _ 10 8 false (by simp)) ptr, go_once (h _ 9 8 true (by simp)) ptr⟩

/-- A lane whose v6:v7 is 0x100, v2:v3 0x8000, v4 = `n`, v10 a RING control word for gang 0 and the barrier at 0x200, in a crew
of a gang of two; a tensor descriptor at 0x8000 and at 0x8040. -/
def copier (n : Nat) : State :=
  let s := put (put (put2 (put2 (ganged fun _ => threadOne 0) 0 2 0x8000) 0 6 0x100) 0 4 n) 0 10 (0x100 + 0x20 * 512)
  let s := put s 0 5 2
  let d := toBytes 8 0x100 ++ toBytes 8 0x9000 ++ toBytes 4 0x200 ++ toBytes 4 (2 + 256 + 16384) ++ toBytes 4 0 ++ toBytes 4 (2 ^ 31 + 5) ++
    toBytes 8 (3 + 65536) ++ toBytes 12 64 ++ toBytes 12 32
  { s with
    mem := writeCells (writeCells s.mem 0x8000 d) 0x8040 d
    launches := SMap.mod s.launches 1 fun l => { l with gangs := [⟨true, 64, [0, 1]⟩] } }

theorem applies_CopiesIssue (h : Obligations.CopiesIssue) :
    Runs (.cpy ⟨true, 0, 3, 1, 4, 31⟩) (copier 64) ∧ Runs (.cpy ⟨true, 0, 3, 1, 4, 31⟩) (copier 0) ∧
    Runs (.cpyLong ⟨true, 1, 0, 4, 3, 1, true, 0, 0, 16, 32⟩) (copier 64) ∧ Runs (.cpycv ⟨true, 1, 0, 4, 3, 1, false, 3, 16, 16, 0, 1, false, 32⟩) (copier 1) ∧
    Runs (.cpyt ⟨true, 1, 1⟩) (copier 0) ∧ Runs (.cpya ⟨true, 1, 5, 4⟩) (copier 0) ∧ Runs (.cpyaLong ⟨true, 1, 5, 4, 1⟩) (copier 7) ∧
    Runs (.ring ⟨true, 3, 4, 10⟩) (copier 16) ∧ Runs (.ringLong ⟨true, 3, 4, 10, 1⟩) (copier 64) := by
  obtain ⟨h1, h2, h3, h4, h5, h6, h7, h8⟩ := h
  dsimp only [ringIssues] at h7 h8
  exact ⟨go_once (h1 _).1 (copier 64), go_once (h1 _).2 (copier 0), go_once (h2 _).1 (copier 64), go_once (h3 _).1 (copier 1) (x := by decide +kernel),
    go_once (h4 _) (copier 0) (x := by decide +kernel), go_once (h5 _) (copier 0) (x := by decide +kernel),
    go_once (h6 _) (copier 7) (x := by decide +kernel), go_once (h7 _) (copier 16), go_once (h8 _) (copier 64)⟩

/-- A plain copy of two granules in copy engine 0, with a barrier and a counter, and `f` of it. -/
def copying (f : Copy → Copy) : State :=
  let s := one
  let c : Copy := ⟨(env one).issuer 1 (thr one 1), 9, .plain 32, 1, 1, 256, 32, some 512, some 3, 0, [], [(0, 2)], none, 0, 0⟩
  let s := s.putBar 0 512 ⟨3, 1, 1, 32, 1⟩
  { s with copies := [(5, f c)], nextCopy := 6, pend := SMap.setD s.pend 0 (lineKey 0 256) 1, ops := [(9, ⟨[1], some 2, 1⟩)] }

/-- The copy of a state. -/
def copyOf (s : State) : Copy := (SMap.getD s.copies (copyOf0 s) 5)
  where copyOf0 (s : State) : Copy := ⟨(env s).issuer 1 (thr s 1), 0, .plain 0, 0, 0, 0, 0, none, none, 0, [], [], none, 0, 0⟩

/-- The unit of a copy, as what it lands. -/
def unitOf (s : State) (k : Nat) : Option Landing :=
  match (s.copyUnit (copyOf s) k).2 with
  | .land x => some x
  | _ => none

theorem copyUnit_of_unitOf {s : State} {k : Nat} (h : (unitOf s k).isSome = true) :
    s.copyUnit (copyOf s) k = ((s.copyUnit (copyOf s) k).1, .land ((unitOf s k).get h)) := by
  obtain ⟨x, hx⟩ := Option.isSome_iff_exists.mp h
  have : (unitOf s k).get h = x := by simp [hx]
  rw [this]
  unfold unitOf at hx
  split at hx
  · cases hx; apply Prod.ext <;> simp_all
  · cases hx

/-- Whether a unit of a copy waits for a page. -/
def absentAt (s : State) (k : Nat) : Bool :=
  match (s.copyUnit (copyOf s) k).2 with
  | .absent => true
  | _ => false

theorem copyUnit_of_absentAt {s : State} {k : Nat} (h : absentAt s k = true) : s.copyUnit (copyOf s) k = ((s.copyUnit (copyOf s) k).1, .absent) := by
  unfold absentAt at h
  split at h
  · apply Prod.ext <;> simp_all
  · cases h

/-- A tile on its way to the crew, which waits for it. -/
def tiled : State :=
  let s := ganged
  { s with
    tiles := [(2, ⟨1, 0, 1, 0, 0, 128, [(List.replicate 16 7, 5), (List.replicate 16 9, 6)], none, 3, (env one).issuer 1 (thr one 1), false⟩)]
    ringWaits := [⟨1, 0, 0, 0, 4, [(0, 1)]⟩], ops := [(4, ⟨[1], some 2, 1⟩)] }

theorem applies_CopiesLand (h : Obligations.CopiesLand) :
    Runs (.copyLanding 5 0) (copying id) ∧ Runs (.copyLanding 5 1) (copying fun c => { c with dsp := 0, dst := 0x8000 }) ∧
    Runs (.copyLanding 5 0) (copying fun c => { c with dsp := 0, dst := 0x50000000 }) ∧
    Runs (.copyPageResume 5) (copying fun c => { c with dsp := 0, dst := 0x8000, held := some 1 }) ∧
    Runs (.copyComplete 5) (copying fun c => { c with landed := [1, 0] }) ∧ Runs (.ringLanding 2) tiled := by
  obtain ⟨h1, h2, h3, h4, h5, h6⟩ := h
  let b := copying fun c => { c with dsp := 0, dst := 0x8000 }
  let c := copying fun c => { c with dsp := 0, dst := 0x50000000 }
  let d := copying fun c => { c with dsp := 0, dst := 0x8000, held := some 1 }
  let e := copying fun c => { c with landed := [1, 0] }
  have h1 := h1 (copying id) 5 0 32 (copyOf (copying id)) crewOne (launchOne false 0 false) contextOne
  repeat specialize h1 (by decide)
  obtain ⟨s1, _, x1, _⟩ := h1
  have h2 := h2 b (b.copyUnit (copyOf b) 1).1 5 1 (copyOf b) _ rfl (by decide) (copyUnit_of_unitOf (by decide))
  repeat specialize h2 (by decide)
  obtain ⟨s2, _, _, x2, _⟩ := h2
  obtain ⟨s5, x5, _⟩ := h5 e 5 (copyOf e) rfl (by decide) (by decide) (by decide)
  have h6 := h6 tiled 2 1 _ ((SMap.get? tiled.crews 1).getD crewOne) ⟨1, 0, 0, 0, 4, [(0, 1)]⟩ rfl
  repeat specialize h6 (by decide)
  obtain ⟨s6, x6, _⟩ := h6
  exact ⟨⟨s1, x1⟩, ⟨s2, x2⟩, ⟨_, h3 c (c.copyUnit (copyOf c) 0).1 5 0 (copyOf c) rfl (by decide)
      (copyUnit_of_absentAt (by decide)) (by intro j hj; omega)⟩,
    ⟨_, h4 d (d.copyUnit (copyOf d) 1).1 5 1 (copyOf d) _ rfl rfl (copyUnit_of_unitOf (by decide)) (by decide)⟩, ⟨s5, x5⟩, ⟨s6, x6⟩⟩

/-- A lane of the matrix class with v2:v3 at 0x100, v4 a format word, v8 5 and v9 3. -/
def engined : State := put (put (put (put2 one 0 2 0x100) 0 4 0x11000) 0 8 5) 0 9 3

theorem applies_MatrixIssue (h : Obligations.MatrixIssue) :
    Runs (.mma ⟨true, 4, 1, 4⟩) engined ∧ Runs (.acchk ⟨false, 127, 1, 1023⟩) engined ∧ Runs (.accld ⟨true, 255, 1, 255⟩) engined ∧
    Runs (.accst ⟨true, false, 0, 63, 0⟩) engined ∧ Runs (.accz ⟨false, 255, 255⟩) engined ∧ Runs (.injectAcc ⟨true, 255, 8, 9⟩) engined := by
  obtain ⟨h1, h3, h4, h5, h6⟩ := h
  exact ⟨go_once (h1 _).1 engined, go_once (h1 _).2 engined, go_once (h3 _) engined, go_once (h4 _) engined, go_once (h5 _) engined, go_once (h6 _) engined⟩

/-- The words of a parameter block of 16 x 16 x 16 in BF16, A and B at 0x100, with checksums or without; then zeros. -/
def block (chk : Bool) : List Byte :=
  [if chk then 0x800 else 0, 0x100010, 16, 0, 0x100, 32, 0, 0x100, 32, 0, 0, 0, 0, 0x200].flatMap fun x => toBytes 4 x

/-- A matrix operation at the head of the queue of core 0, with the block `b` at 0 once it is checked. -/
def headOf (k : MatKind) (addr : Nat) (b : Option (List Byte)) : MatOp := ⟨k, addr, 9, (env engined).issuer 1 (thr engined 1), b, [], [], 0⟩
def queued (k : MatKind) (addr : Nat) (chk : Bool) (b : Option (List Byte)) : State :=
  { engined with
    matQ := [(0, [headOf k addr b])], ops := [(9, ⟨[1], none, 1⟩)]
    ctxs := SMap.put engined.ctxs 1 ({ contextOne with anomBase := 0x4000, faultBase := 0x6000 } : Context)
    scr := writeCells [] 0 (block chk) }

theorem applies_MatrixHead (h : Obligations.MatrixHead) :
    Runs (.matrixOpHead 0) (queued (.mma 0) 0 false none) ∧ Runs (.matrixOpHead 0) (queued (.mma 0x100000) 8 false none) ∧
    Runs (.matrixOpHead 0) (queued (.acchk []) 0 true none) ∧ Runs (.matrixOpHead 0) (queued (.acchk []) 0 false none) ∧
    Runs (.matrixOpHead 0) (queued (.accld 255) 0 false none) ∧ Runs (.matrixOpHead 0) (queued (.accld 255) 16 false none) ∧
    Runs (.matrixOpHead 0) (queued (.accst true 255) 512 false none) ∧ Runs (.matrixOpHead 0) (queued (.accst false 0) 528 false none) ∧
    Runs (.matrixOpHead 0) (queued (.accz 255 1) 0 false none) ∧ Runs (.matrixOpHead 0) (queued (.accz 255 2) 0 false none) ∧
    Runs (.matrixOpHead 0) (queued (.inject 255 255 31 (0, 0)) 0 false none) ∧ Runs (.matrixOpHead 0) (queued (.inject 0 256 0 (0, 0)) 0 false none) := by
  have q := fun k a c => h (queued k a c none) 0 (headOf k a none) [] crewOne ⟨rfl, rfl⟩ rfl
  refine ⟨⟨_, ((q _ _ _).1 0 rfl).1 (by decide) (by decide) (by decide) (by decide)⟩, ?_, ⟨_, ((q _ _ _).2.1 [] rfl).1 (by decide) (by decide) (by decide)⟩, ?_,
    ⟨_, ((q _ _ _).2.2.1 255 rfl).1 (by decide)⟩, ?_, ⟨_, ((q _ _ _).2.2.2.1 true 255 rfl).1 (by decide)⟩, ?_,
    ⟨_, ((q _ _ _).2.2.2.2.1 255 1 rfl).1 (by decide)⟩, ?_, ⟨_, ((q _ _ _).2.2.2.2.2 255 255 31 _ rfl).1 (by decide) (by decide)⟩, ?_⟩
  · exact (((q _ _ _).1 0x100000 rfl).2.2 (by decide) (by decide) (by decide) (by decide)).imp fun _ x => x.1
  · exact (((q _ _ _).2.1 [] rfl).2.1 (by decide) (by decide) 8 (by decide) (by decide) (by decide) (by decide)).imp fun _ x => x.1
  · exact (((q _ _ _).2.2.1 255 rfl).2 (by decide) (by decide) (by decide) (by decide)).imp fun _ x => x.1
  · exact (((q _ _ _).2.2.2.1 false 0 rfl).2 (by decide) (by decide) (by decide) (by decide)).imp fun _ x => x.1
  · exact (((q _ _ _).2.2.2.2.1 255 2 rfl).2 (by decide) (by decide) (by decide) (by decide)).imp fun _ x => x.1
  · exact (((q _ _ _).2.2.2.2.2 0 256 0 _ rfl).2 (by decide) (by decide) (by decide) (by decide)).imp fun _ x => x.1

theorem applies_MatrixComplete (h : Obligations.MatrixComplete) :
    Runs (.matrixOpComplete 0) (queued (.mma 0) 0 false (some (block false))) ∧ Runs (.matrixOpComplete 0) (queued (.accld 255) 0 false (some [])) ∧
    Runs (.matrixOpComplete 0) (queued (.accz 255 1) 0 false (some [])) ∧ Runs (.matrixOpComplete 0) (queued (.accst false 0) 0 false (some [])) ∧
    Runs (.matrixOpComplete 0) (queued (.acchk [(1, 127)]) 0 true (some (block true))) ∧
    Runs (.matrixOpComplete 0) (queued (.inject 255 255 31 (0, 0)) 0 false (some [])) := by
  have q := fun k a c b hb hc he => h (queued k a c (some b)) 0 (headOf k a (some b)) [] crewOne b ⟨rfl, rfl⟩ rfl hb hc he
  have z : ∀ i, i < 16 → ∀ j, j < 16 →
      let s := queued (.mma 0) 0 false (some (block false))
      let m := headOf (.mma 0) 0 (some (block false))
      fF32.birthKind ((m.env 0 crewOne (block false)).value (s.atHead m) i j) (((m.env 0 crewOne (block false)).parts (s.atHead m) i j).map (·.1)) = 0 := by
    decide +kernel
  refine ⟨?_, ?_, ?_, ?_, ?_, ?_⟩
  · exact ((q (.mma 0) 0 false (block false) (by decide) (by decide) (by decide)).1 0 rfl (by decide) (fun i j hi hj => z i hi j hj)).imp fun _ x => x.1
  · exact ((q _ _ _ _ (by decide) (by decide) (by decide)).2.1 255 rfl).imp fun _ x => x.1
  · exact ((q _ _ _ _ (by decide) (by decide) (by decide)).2.2.1 255 1 rfl).imp fun _ x => x.1
  · exact ((q _ _ _ _ (by decide) (by decide) (by decide)).2.2.2.1 0 rfl (by decide) (by decide)).imp fun _ x => x.1
  · exact ((q _ _ _ _ (by decide) (by decide) (by decide)).2.2.2.2.1 [(1, 127)] rfl (by decide +kernel) (by decide +kernel)).imp fun _ x => x.1
  · exact ((q _ _ _ _ (by decide) (by decide) (by decide)).2.2.2.2.2 255 255 31 (0, 0) rfl (by decide +kernel)).imp fun _ x => x.1

/-- A lane whose v2:v3 names a collective descriptor of CID `cid` over the communicator `ms`, v5 = 7 and v6 = 1. -/
def poster (cid : Nat) (ms : List Nat) : State :=
  let s := put (put (put2 (one (x := fun c => { c with comms := [(1, ⟨ms, [⟨false, [0]⟩], [4]⟩)] })) 0 2 0x8000) 0 5 7) 0 6 1
  { s with mem := writeCells (writeCells s.mem 0x8000 (toBytes 4 cid ++ toBytes 4 (65536 + 2) ++ toBytes 8 0x9000 ++ toBytes 8 0xA000 ++ toBytes 8 0xB000 ++
      toBytes 4 10 ++ toBytes 4 2 ++ toBytes 24 0)) 0x9000 (toBytes 16 0x4000000030000000200000001) }

/-- A posted collective of CID 7: all-reduce of ten elements in two chunks. -/
def post (ms : List Nat) (rank : Nat) : Posted :=
  (⟨7, 1, 0, 0, 2, 0x9000, 0xA000, 0xB000, 10, 2, false, 0, false⟩ : ColDesc).entry 1 ⟨ms, [⟨false, [0]⟩], [4]⟩ rank ((env one).issuer 1 (thr one 1)) false

/-- The device `dev`, powered, with the collective `p` in its table and the coordinator's state `c`. -/
def parlour (dev : Nat) (p : Posted) (c : List (Nat × Coord) := []) : State :=
  let s := poster 7 [0, 1, 2]
  { s with posted := [(1, p)], coords := c, chip := { s.chip with dev := dev, powered := true, width := List.replicate 48 4 } }

theorem applies_CollectivesIssue (h : Obligations.CollectivesIssue) :
    Runs (.colpost ⟨true, 127, 2⟩) (poster 7 [1, 2]) ∧ Runs (.colpost ⟨false, 127, 2⟩) (poster 7 [0, 1]) ∧
    Runs (.colpost ⟨true, 127, 2⟩) (put2 (poster 7 [0, 1]) 0 2 0x8020) ∧
    Runs (.colfire ⟨true, 5, 6⟩) (parlour 0 (post [0, 1] 0)) ∧ Runs (.colfire ⟨true, 5, 6⟩) (parlour 0 { post [0, 1] 0 with fired := [1] }) := by
  obtain ⟨h1, h2, h3, h4⟩ := h
  exact ⟨go_once (h1 _ 4) (poster 7 [1, 2]) (x := by decide +kernel), go_once (h2 _) (poster 7 [0, 1]) (x := by decide +kernel),
    go_once (h3 _) (put2 (poster 7 [0, 1]) 0 2 0x8020),
    go_once (h4 _) (parlour 0 (post [0, 1] 0)), go_once (h4 _) (parlour 0 { post [0, 1] 0 with fired := [1] })⟩

/-- What the coordinator of CID 7 has heard. -/
def heardOf (posts : List (Nat × List Nat)) (ticket : Option Nat) (readys : List Nat) : List (Nat × Coord) := [(3, ⟨1, 7, [0, 1, 2], posts, ticket, readys⟩)]

theorem applies_ParlourSteps (h : Obligations.ParlourSteps) :
    Runs (.parlourPost 9 1 7 2 [1, 0, 0, 2, 10, 2, 0]) (parlour 0 (post [0, 1, 2] 0)) ∧
    Runs (.ticket 1 0x50001 9) (parlour 0 (post [1, 0] 1)) ∧ Runs (.collectiveStart 1) (parlour 0 { post [1, 0] 1 with state := .held, ticket := some 1 }) ∧
    Runs (.ready 1 7 2 9) (parlour 0 (post [0, 1, 2] 0) (heardOf [] (some 4) [0])) ∧
    Runs (.ready 1 7 1 9) (parlour 0 { post [0, 1, 2] 0 with state := .started } (heardOf [] (some 4) [0, 2])) ∧
    Runs (.go 1 9) (parlour 0 { post [1, 0] 1 with state := .withdrawing }) ∧
    Runs (.withdraw 1 7 2 9) (parlour 0 (post [0, 1, 2] 0) (heardOf [] (some 4) [2])) ∧ Runs (.withdraw 1 7 2 9) (parlour 0 (post [0, 1, 2] 0)) ∧
    Runs (.withdrawAck 1 9) (parlour 0 { post [1, 0] 1 with state := .withdrawing }) ∧ Runs (.commCreate 1 63 [0] [] true) (parlour 0 (post [0, 1] 0)) := by
  obtain ⟨h1, h2, h3, h4, h5, h6, h7, h8, h9⟩ := h
  have h1 := h1 (parlour 0 (post [0, 1, 2] 0)) 9 1 7 2 [1, 0, 0, 2, 10, 2, 0] _ ⟨[0, 1, 2], [⟨false, [0]⟩], [4]⟩ rfl
  repeat specialize h1 (by decide)
  obtain ⟨s1, _, _, x1, _⟩ := h1 (by intro k c hc; cases hc) (by decide) (by decide)
  have h2 := h2 (parlour 0 (post [1, 0] 1)) 1 0x50001 9 (post [1, 0] 1)
  repeat specialize h2 (by decide)
  have h3 := h3 (parlour 0 { post [1, 0] 1 with state := .held, ticket := some 1 }) 1 { post [1, 0] 1 with state := .held, ticket := some 1 }
  repeat specialize h3 (by decide +kernel)
  have a := h4 (parlour 0 (post [0, 1, 2] 0) (heardOf [] (some 4) [0])) 1 7 2 9 3 ⟨1, 7, [0, 1, 2], [], some 4, [0]⟩
  repeat specialize a (by decide)
  obtain ⟨s4, _, _, x4, _⟩ := a.1 (by decide)
  have b := h4 (parlour 0 { post [0, 1, 2] 0 with state := .started } (heardOf [] (some 4) [0, 2])) 1 7 1 9 3 ⟨1, 7, [0, 1, 2], [], some 4, [0, 2]⟩
  repeat specialize b (by decide)
  have b := b.2 1 { post [0, 1, 2] 0 with state := .started }
  repeat specialize b (by decide)
  obtain ⟨s5, _, x5, _⟩ := b
  have h5 := h5 (parlour 0 { post [1, 0] 1 with state := .withdrawing }) 1 9 { post [1, 0] 1 with state := .withdrawing }
  repeat specialize h5 (by decide)
  obtain ⟨s6, _, x6, _⟩ := h5
  have h6 := h6 (parlour 0 (post [0, 1, 2] 0) (heardOf [] (some 4) [2])) 1 7 2 9 3 ⟨1, 7, [0, 1, 2], [], some 4, [2]⟩
  repeat specialize h6 (by decide)
  obtain ⟨s7, _, _, x7, _⟩ := h6
  have h8 := h8 (parlour 0 { post [1, 0] 1 with state := .withdrawing }) 1 9 { post [1, 0] 1 with state := .withdrawing }
  repeat specialize h8 (by decide)
  have h9 := h9 (parlour 0 (post [0, 1] 0)) 1 63 0 [0] [] true _ partOne (by decide) rfl
  repeat specialize h9 (by decide)
  exact ⟨⟨s1, x1⟩, h2.imp fun _ x => x.1, h3.imp fun _ x => x.1, ⟨s4, x4⟩, ⟨s5, x5⟩, ⟨s6, x6⟩, ⟨s7, x7⟩,
    ⟨_, h7 (parlour 0 (post [0, 1, 2] 0)) 1 7 2 9 (by decide)⟩, h8.imp fun _ x => x.1, ⟨_, h9⟩⟩

/-- The page that holds an address of a context. -/
def hitOf (s : State) (c : Context) (va : Nat) : Option Hit :=
  match s.transDev c va with
  | .hit h => some h
  | _ => none

theorem transDev_of_hitOf {s : State} {c : Context} {va : Nat} (h : (hitOf s c va).isSome = true) : s.transDev c va = .hit ((hitOf s c va).get h) := by
  obtain ⟨x, hx⟩ := Option.isSome_iff_exists.mp h
  have : (hitOf s c va).get h = x := by simp [hx]
  rw [this]
  unfold hitOf at hx
  split at hx
  · cases hx; assumption
  · cases hx

/-- The collective in progress. -/
def going : Posted := { post [0, 1] 0 with state := .running }

/-- Everything of chunk `c` is combined, and the chunks `w` are written. -/
def combined (c : Nat) (w : List Nat) : Posted :=
  { going with fired := [0, 1], srcRead := [0, 1], written := w, terms := (List.range 5).map fun e => (5 * c + e, 3), status := w.map fun k => (k, 1)
               dsts := [(1, 127)] }

/-- A command of element 9, whose term of member 1 is 100. -/
def command9 : Command := ⟨1, 1, 0xA024, 0, 1, 0, 2, 1, 0, 9, 2, [100], []⟩

theorem applies_CollectiveData (h : Obligations.CollectiveData) :
    Runs (.receiveReduceArrive 1 1 9 2 [100] []) (parlour 0 going) ∧
    exec (.receiveReduceArrive 1 1 9 2 [100] []) { parlour 0 going with commands := [(0, List.replicate 8 command9)] } =
      .refused (.cannotOccur "RECEIVE_REDUCE_ARRIVE") ∧
    Runs (.receiveReduceArrive 1 1 9 3 [100] []) (parlour 0 going) ∧
    Runs (.baseDieReduce 0) { parlour 0 going with commands := [(0, [command9])] } ∧
    (({ post [0, 1] 0 with rop := 1 } : Posted).combine 5 (2 ^ 32 - 1)).1 = 2 ^ 32 - 1 ∧
    Runs (.collectiveLanding 4) { parlour 0 going with colQ := [(4, ⟨1, 1, 0xA010, (List.replicate 16 7).map some, 9⟩)] } ∧
    Runs (.chunkComplete 1 0 1) (parlour 0 (combined 0 [])) ∧ Runs (.chunkComplete 1 1 1) (parlour 0 (combined 1 [0])) ∧
    Runs (.flitReceive 0 true) (parlour 0 going) ∧ Runs (.flitReceive 47 false) (parlour 0 going) ∧
    Runs (.flitReceive 46 false) { parlour 0 going with chip := { (parlour 0 going).chip with retries := [(46, 8)] } } ∧
    Runs (.linkTrain 47 2) (parlour 0 going) := by
  obtain ⟨h1, h2, h3, h4, h5, h6, h7, h8⟩ := h
  let c := (SMap.get? (parlour 0 going).ctxs 1).getD contextOne
  let land : State := { parlour 0 going with colQ := [(4, ⟨1, 1, 0xA010, (List.replicate 16 7).map some, 9⟩)] }
  let full : State := { parlour 0 going with commands := [(0, List.replicate 8 command9)] }
  let dead : State := { parlour 0 going with chip := { (parlour 0 going).chip with retries := [(46, 8)] } }
  have run := fun (s : State) (ranks : Nat) (hs : _) (hc : _) (hr : _) =>
    h1 s 1 1 9 ranks [100] [] going c hs hc (by decide) (by decide) (by decide) hr
  have one_ := ((run (parlour 0 going) 2 rfl rfl (by decide)).1 (by decide) (by decide)).1 (by decide +kernel) (by decide +kernel) _ 0xA024
    (transDev_of_hitOf (by decide +kernel)) (by decide +kernel)
  have full_ := ((run full 2 rfl rfl (by decide)).1 (by decide) (by decide)).2 (Or.inl (by decide +kernel))
  have whole := (run (parlour 0 going) 3 rfl rfl (by decide)).2 (by decide) (by decide)
  have h2 := h2 { parlour 0 going with commands := [(0, [command9])] } 0 100 command9 [] going c _ rfl rfl rfl rfl rfl rfl rfl
    (transDev_of_hitOf (by decide +kernel)) (by decide +kernel) (by decide +kernel) (by decide +kernel)
  obtain ⟨s2, _, x2, _⟩ := h2
  have done := fun (k : Nat) (w : List Nat) => h6 (parlour 0 (combined k w)) 1 k (combined k w)
  have d0 := done 0 [] rfl (by decide) rfl (by decide) rfl rfl (by decide) (by decide) (by decide)
    (fun e n he => (by decide : ∀ x ∈ (combined 0 []).needs 0, SMap.getD (combined 0 []).terms 0 x.1 &&& x.2 = x.2) (e, n) he)
    (by decide) (by decide +kernel) (by decide)
  obtain ⟨s5, x5, _⟩ := d0.1 (by decide)
  have d1 := done 1 [0] rfl (by decide) rfl (by decide) rfl rfl (by decide) (by decide) (by decide)
    (fun e n he => (by decide : ∀ x ∈ (combined 1 [0]).needs 1, SMap.getD (combined 1 [0]).terms 0 x.1 &&& x.2 = x.2) (e, n) he)
    (by decide) (by decide +kernel) (by decide)
  obtain ⟨s6, x6, _⟩ := d1.2 (by decide) (by decide) (by decide)
  obtain ⟨s7, x7, _⟩ := (h7 (parlour 0 going) 0 (by decide) (by decide)).1
  obtain ⟨s8, x8, _⟩ := (h7 (parlour 0 going) 47 (by decide) (by decide)).2.1 (by decide)
  obtain ⟨s9, x9, _⟩ := (h7 dead 46 (by decide) (by decide)).2.2 rfl
  obtain ⟨s10, x10, _⟩ := h8 (parlour 0 going) 47 2 (by decide) (by decide) (by decide)
  exact ⟨⟨_, one_⟩, full_, whole.imp fun _ x => x.1, ⟨s2, x2⟩, (h4 { post [0, 1] 0 with rop := 1 } 5 0xFFFFFFFF rfl).trans (by decide),
    ⟨_, h5 land 4 ⟨1, 1, 0xA010, (List.replicate 16 7).map some, 9⟩ c _ rfl rfl (transDev_of_hitOf (by decide +kernel)) (by decide +kernel) (by decide +kernel) (by decide +kernel)⟩,
    ⟨s5, x5⟩, ⟨s6, x6⟩, ⟨s7, x7⟩, ⟨s8, x8⟩, ⟨s9, x9⟩, ⟨s10, x10⟩⟩

/-- A lane with a watchpoint descriptor at v2:v3, a spawn entry at v12:v13, in a launch that graph node 0 fired; node 0's successor
is node 1, whose queue takes records when `coal` is not 0. -/
def emitting (coal : Nat) : State :=
  let s := put (put (put2 (put2 (one (c := fun c => { c with watch := List.replicate 4 Watch.zero }) (l := fun l => { l with origin := .graph 0, sptimer := 9 })
    (x := fun c => { c with anomBase := 0x4000, faultBase := 0x6000, graph := 0xA000, nnode := 3 })) 0 2 0x8000) 0 12 0x40) 0 4 3) 0 6 31
  let node := fun (succ coal base cap : Nat) => toBytes 8 (coal * 2 ^ 32) ++ toBytes 8 0 ++ toBytes 8 base ++ toBytes 8 cap ++ toBytes 8 0 ++ toBytes 8 succ ++ toBytes 16 0
  let m := writeCells s.mem 0x8000 (toBytes 8 0x7000 ++ toBytes 8 0x9000 ++ toBytes 4 0x80000003 ++ toBytes 12 0)
  { s with mem := writeCells m 0xA000 (node 1 0 0 0 ++ node 0xFFFF coal 0xC000 4) }

theorem applies_WatchInjectEmit (h : Obligations.WatchInjectEmit) :
    Runs (.watch ⟨false, 2, 4⟩) (emitting 2) ∧ Runs (.watch ⟨true, 2, 4⟩) (emitting 2) ∧ Runs (.inject ⟨127, 6⟩) (emitting 2) ∧
    Runs (.emit 8 0) (emitting 2) ∧ Runs (.emit 124 0) (emitting 0) := by
  obtain ⟨h1, h2, h3⟩ := h
  exact ⟨go_once (h1 _) (emitting 2) (x := by decide +kernel), go_once (h1 _) (emitting 2) (x := by decide +kernel), go_effects (h2 _) (emitting 2) (q := by decide +kernel), go_effects (h3 8 0).1 (emitting 2) (q := by decide +kernel),
    go_effects (h3 124 0).2 (emitting 0) (q := by decide +kernel)⟩

/-- A spawn record of one thread, and a bin of `n` of them whose timer has run out or which launches. -/
def spawnRec (seq : Nat) : SpawnRec := ⟨(env one).issuer 1 (thr one 1), seq, 128, 0, [⟨5, 3⟩, ⟨6, 0⟩, ⟨7, 0⟩, ⟨8, 0⟩]⟩
def spawnBin (n : Nat) (launching : Bool) : SpawnBin := ⟨0x40, 1, List.replicate n (spawnRec 0), 0, launching⟩
def spawning (n : Nat) (launching : Bool) : State := { emitting 0 with bins := [(0, spawnBin n launching)] }

/-- Every bin of quadrant 0 is taken; the one at 3 holds the oldest record. -/
def crowded : State :=
  { emitting 0 with bins := (List.range 16).map fun i => (i, ⟨0x80 + 64 * i, 1, [spawnRec (if i = 3 then 0 else i + 1)], 5, false⟩) }

theorem applies_Spawning (h : Obligations.Spawning) :
    Runs (.spawn ⟨12, 124⟩) (emitting 0) ∧
    (spawning 31 false).placeRec (env (emitting 0)) 0x40 (spawnRec 9) =
      .placed { spawning 31 false with
        bins := SMap.put (spawning 31 false).bins 0 { spawnBin 31 false with recs := List.replicate 31 (spawnRec 0) ++ [spawnRec 9] }, spawned := 1 } ∧
    (spawning 31 false).placeRec (env (emitting 0)) 0x80 (spawnRec 9) =
      .placed { spawning 31 false with
        bins := SMap.put (spawning 31 false).bins (binKey 0 0 1) ⟨0x80, 1, [spawnRec 9], (env (emitting 0)).launch.sptimer, false⟩, spawned := 1 } ∧
    (∃ s1, crowded.placeRec (env (emitting 0)) 0x40 (spawnRec 99) = .placed s1) ∧
    Runs (.spawnBinTimer 0 0 0) (spawning 2 false) ∧ Runs (.spawnBinLaunch 0 0 0) (spawning 2 true) ∧ Runs (.spawnBinLaunch 0 0 0) (spawning 1 true) := by
  obtain ⟨h1, h2, h3, h4, -, h6⟩ := h
  have old := (h3 crowded (env (emitting 0)) 0x40 (spawnRec 99) (by decide)).2 3 ⟨0x140, 1, [spawnRec 0], 5, false⟩ _ (by decide) (by decide) (by decide)
    (Option.some_get (by decide +kernel)).symm (by decide +kernel)
  exact ⟨go_effects (h1 _) (emitting 0), h2 (spawning 31 false) (env (emitting 0)) 0x40 0 (spawnRec 9) (spawnBin 31 false) rfl (by decide),
    (h3 (spawning 31 false) (env (emitting 0)) 0x80 (spawnRec 9) (by decide)).1 1 (by decide) (by decide) (by decide), ⟨_, old⟩,
    ⟨_, h4 (spawning 2 false) 0 0 0 (spawnBin 2 false) rfl rfl rfl⟩,
    (h6 (spawning 2 true) 0 0 0 (spawnBin 2 true) _ (by decide) (by decide) rfl (Or.inl rfl) rfl (by decide) (Option.some_get (by decide)).symm).imp fun _ x => x.1,
    (h6 (spawning 1 true) 0 0 0 (spawnBin 1 true) _ (by decide) (by decide) rfl (Or.inl rfl) rfl (by decide) (Option.some_get (by decide)).symm).imp fun _ x => x.1⟩

/-- Three ready threads at clause 0, which is in the instruction cache or in memory. -/
def ready (cached : Bool) : State :=
  let s := at_ [0, 7, 31] [0] (fun l t => { t with status := .boundary, late := l = 0 }) crewOne (launchOne false 0 false) ({ contextOne with cspace := 0x8000 } : Context)
  { s with warps := [], icache := if cached then [(icKey 0 1 0, clauseOf [0])] else [], mem := writeCells s.mem 0x8000 (toBytes 4 (2 ^ 22)) }

theorem applies_FetchAndFormation (h : Obligations.FetchAndFormation) :
    Runs (.icacheFill 0 1 0) (ready false) ∧ Runs (.warpFormation 0 0) (ready true) := by
  obtain ⟨h1, h2⟩ := h
  let c : Context := { contextOne with cspace := 0x8000 }
  have h1 := h1 (ready false) 0 1 0 0x8000 c ((hitOf (ready false) c 0x8000).get (by decide)) rfl
  repeat specialize h1 (by decide)
  obtain ⟨s1, _, x1, _⟩ := h1
  obtain ⟨s2, _, _, _, _, _, _, x2, _⟩ := h2 (ready true) 0 0 (by decide) (by decide)
    (by intro e he; refine ⟨by revert e; decide, fun _ cr ws hc hw => ?_⟩
        have hm := (by decide : ∀ x ∈ ((ready true).stampQuad 0 0).readyIn 0 0, x.2.crew = 1 ∧ x.2.pc = 0) e he
        rw [hm.1] at hc
        rw [hm.2] at hw
        have : cr.ctx = 1 := by cases hc; rfl
        rw [this] at hw
        cases hw
        decide)
    ⟨3, by decide, by decide⟩
  exact ⟨⟨s1, x1⟩, ⟨s2, x2⟩⟩

/-- A launch record at 0x8000 (R51): two crews of one role of one warp of 32 registers, entry 5, CODE 0x40, ANOM 2 and IOVF, 8 lines, ARGS. -/
def record : List Host.Cell :=
  [(0x8000, 64), (0x8008, 12), (0x800C, 9), (0x8010, 2), (0x8012, 1), (0x8014, 1), (0x8016, 8), (0x8018, 137), (0x8019, 103), (0x801A, 69), (0x801B, 35), (0x801C, 1), (0x8040, 5), (0x8043, 64)]
/-- Node 1 of a graph at 0xB000 (R62): two completions fire it, its launch record at 0x8000, its condition at 0xC000, its successors 2
and 1; the condition's word. -/
def node (kind cond : Nat) : List Host.Cell :=
  [(0xB040, BitVec.ofNat 8 kind), (0xB042, 2), (0xB049, 0x80), (0xB061, 0xC0), (0xB068, 2), (0xB06A, 1), (0xB06C, 0xFF), (0xB06D, 0xFF), (0xB06E, 0xFF), (0xB06F, 0xFF),
    (0xC000, BitVec.ofNat 8 cond)]

/-- A queue pair that is enabled, its entry at 0x7000, its completion ring in host memory. -/
def pair : QueuePair := { QueuePair.zero with sqbase := 0x7000, ctx := 1, cqbase := 0x4000, cqlog := 4, sqlog := 4, sqtail := 1, en := true }
/-- The context of the queue pair, with a graph of four nodes at 0xB000. -/
def queueContext : Context := { contextOne with graph := 0xB000, nnode := 4 }
/-- A device with one core and one queue pair, whose entry has the operation `op` and the argument `arg`; node 1 of the graph is `nd`. -/
def device (op arg : Nat) (nd : List Host.Cell := []) (f : QueuePair → QueuePair := id) (count : Nat := 0) (c : Context → Context := id) : State :=
  let s := State.reset
  { s with
    chip := { s.chip with powered := true, released := [0], sst := [1, 1] }, mem := [(0, 1), (1, 0x20), (0x2000, 0x97), (0x7000, BitVec.ofNat 8 op), (0x7004, 77), (0x7008, BitVec.ofNat 8 arg), (0x7009, BitVec.ofNat 8 (arg / 256)),
      (0x700A, BitVec.ofNat 8 (arg / 65536))] ++ record ++ nd
    parts := [(0, partOne)], vdevs := [(0, vdevOne)], ctxs := [(1, c { queueContext with nodes := [(1, ⟨count, 0, 0, false⟩)] })], queues := [(0, f pair)] }

def ctxOf (s : State) : Context := (SMap.get? s.ctxs 1).getD contextOne
/-- What the test of a launch record gives. -/
def accepted (s : State) (a : Nat) : Option (LaunchRec × List Gang) :=
  match s.launchTest (ctxOf s) a false with
  | .accept r gs => some (r, gs)
  | _ => none
def rejected (s : State) (a : Nat) : Option Nat :=
  match s.launchTest (ctxOf s) a false with
  | .reject n => some n
  | _ => none

theorem test_of_accepted {s : State} {a : Nat} (h : (accepted s a).isSome = true) :
    s.launchTest (ctxOf s) a false = .accept ((accepted s a).get h).1 ((accepted s a).get h).2 := by
  obtain ⟨x, hx⟩ := Option.isSome_iff_exists.mp h
  have : (accepted s a).get h = x := by simp [hx]
  rw [this]
  unfold accepted at hx
  split at hx
  · cases hx; assumption
  · cases hx

theorem test_of_rejected {s : State} {a n : Nat} (h : rejected s a = some n) : s.launchTest (ctxOf s) a false = .reject n := by
  unfold rejected at h
  split at h
  · cases h; assumption
  · cases h

theorem applies_QueuePairs (h : Obligations.QueuePairs) :
    Runs (.sqtail 0 0 (2 ^ 32)) (device 1 0) ∧ Runs (.cqhead 0 0 5) (device 1 0) ∧ Runs (.queueEnable 0 0) (device 1 0 [] fun p => { p with en := false }) ∧
    Runs (.registerWrite 0 0xFFF 1) (device 1 0) ∧ Runs (.queueBarrier 0 0) (device 3 0) ∧
    exec (.queueBarrier 0 0) (device 3 0 [] fun p => { p with outstanding := [9] }) = .refused (.cannotOccur "QUEUE_BARRIER") ∧
    Runs (.invalidEntry 0 0) (device 4 0) ∧ Runs (.completionEntryWrite 0 0 1) (device 1 0 [] fun p => { p with held := [[77, 2, 0, 5]], cqtail := 15, cqhead := 3 }) := by
  obtain ⟨h1, h2, h3, h4⟩ := h
  have q := fun s p x (hs : s.nextEntry 0 0 = some (p, ctxOf s, x)) => h3 s 0 0 p (ctxOf s) x hs
  obtain ⟨s1, x1, _⟩ := (h1 (device 1 0) 0 0 (2 ^ 32) pair (by decide +kernel)).1
  obtain ⟨s2, x2, _⟩ := (h1 (device 1 0) 0 0 5 pair (by decide +kernel)).2.1
  obtain ⟨s3, x3, _⟩ := (h1 (device 1 0 [] fun p => { p with en := false }) 0 0 0 { pair with en := false } (by decide +kernel)).2.2
  have w4 := h2 (device 1 0) 0 0 0xFFF 1 pair
  repeat specialize w4 (by decide +kernel)
  obtain ⟨s4, _, x4, _⟩ := w4
  have w5 := (q (device 3 0) pair ⟨3, 77, 0, false⟩ (by decide +kernel) rfl).1
  repeat specialize w5 (by decide +kernel)
  obtain ⟨s5, x5, _⟩ := w5
  have x6 := (q (device 3 0 [] fun p => { p with outstanding := [9] }) { pair with outstanding := [9] } ⟨3, 77, 0, false⟩ (by decide +kernel) rfl).2.1
  repeat specialize x6 (by decide +kernel)
  obtain ⟨s7, x7, _⟩ := (q (device 4 0) pair ⟨4, 77, 0, true⟩ (by decide +kernel) rfl).2.2 (by decide +kernel)
  have w8 := h4 (device 1 0 [] fun p => { p with held := [[77, 2, 0, 5]], cqtail := 15, cqhead := 3 }) 0 0 77 2 0 5 []
    { pair with held := [[77, 2, 0, 5]], cqtail := 15, cqhead := 3 }
  repeat specialize w8 (by decide +kernel)
  obtain ⟨s8, _, x8, _⟩ := w8
  exact ⟨⟨s1, x1⟩, ⟨s2, x2⟩, ⟨s3, x3⟩, ⟨s4, x4⟩, ⟨s5, x5⟩, x6, ⟨s7, x7⟩, ⟨s8, x8⟩⟩

/-- A launch of two crews in progress, none of them placed. -/
def launching : State :=
  { device 1 0 with
    launches := [(5, { launchOne false 2 true with gx := 2, roles := [⟨0, 1, 32, 5⟩], code := 0x40, args := 0x123456789, placed := [], origin := .queue 0 0 77 })] }

/-- A module file of no clauses and one block counter. -/
def moduleFile : List Byte := toBytes 4 0x314D584A ++ toBytes 4 1 ++ toBytes 8 64 ++ toBytes 16 0 ++ toBytes 4 1 ++ List.replicate 28 0

/-- A good context descriptor for virtual device 0. -/
def descriptor : List DWord := (List.range 16).map fun i => if i = 11 then 2 else 0

theorem applies_Launching (h : Obligations.Launching) :
    Runs (.launch 0 0 5) (device 1 0x8001) ∧ Runs (.launch 0 0 5) (device 1 0x9000) ∧ Runs (.launch 0 0 5) (device 1 0x8000) ∧
    Runs (.crewPlace 5 [⟨1, 0, [3]⟩]) launching ∧
    Runs (.launchComplete 5) { launching with launches := SMap.mod launching.launches 5 fun l => { l with done := [0, 1] } } ∧
    Runs (.moduleLoad 1 0 0 []) (device 1 0) ∧ Runs (.moduleLoad 1 0x9000 0xA000 moduleFile) (device 1 0) ∧
    Runs (.contextCreate (List.replicate 16 0) false) (device 1 0) ∧ Runs (.contextCreate descriptor false) (device 1 0) := by
  obtain ⟨h1, h2, h3, h4, h5⟩ := h
  let done : State := { launching with launches := SMap.mod launching.launches 5 fun l => { l with done := [0, 1] } }
  have w1 := h1 (device 1 0x8001) 0 0 5 pair (ctxOf (device 1 0x8001)) ⟨1, 77, 0x8001, false⟩
  repeat specialize w1 (by decide +kernel)
  obtain ⟨s1, x1, _⟩ := w1.1 (by decide +kernel)
  have w2 := h1 (device 1 0x9000) 0 0 5 pair (ctxOf (device 1 0x9000)) ⟨1, 77, 0x9000, false⟩
  repeat specialize w2 (by decide +kernel)
  obtain ⟨s2, x2, _⟩ := w2.2.1 ((rejected (device 1 0x9000) 0x9000).getD 99) (test_of_rejected (by decide +kernel))
  have w3 := h1 (device 1 0x8000) 0 0 5 pair (ctxOf (device 1 0x8000)) ⟨1, 77, 0x8000, false⟩
  repeat specialize w3 (by decide +kernel)
  have w3 := w3.2.2 _ _ (test_of_accepted (by decide +kernel))
  repeat specialize w3 (by decide +kernel)
  obtain ⟨s3, _, x3, _⟩ := w3
  have w4 := h2 launching ((launching.inTurn 0).getD launching) 5 0 ((SMap.get? launching.launches 5).getD (launchOne false 0 false)) (ctxOf launching) partOne ⟨1, 0, [3]⟩
  repeat specialize w4 (by decide +kernel)
  obtain ⟨s4, _, x4, _⟩ := w4
  have w5 := h3 done 5 0 0 77 ((SMap.get? done.launches 5).getD (launchOne false 0 false)) (ctxOf done) ((SMap.get? done.queues 0).getD pair)
  repeat specialize w5 (by decide +kernel)
  obtain ⟨s5, x5, _⟩ := w5
  have w6 := h4 (device 1 0) 1 0 0 [] (ctxOf (device 1 0))
  repeat specialize w6 (by decide +kernel)
  have x6 := w6.1 (by decide +kernel)
  have w7 := h4 (device 1 0) 1 0x9000 0xA000 moduleFile (ctxOf (device 1 0))
  repeat specialize w7 (by decide +kernel)
  obtain ⟨s7, _, x7, _⟩ := w7.2 (device 1 0) _ (by decide +kernel) (by rfl)
    (Option.some_get (by decide +kernel : ((device 1 0).osWrite 1 (ctxOf (device 1 0)) 0xA000 _).isSome = true)).symm
  have w8 := h5 (device 1 0) (List.replicate 16 0) false vdevOne partOne
  repeat specialize w8 (by decide +kernel)
  have x8 := w8.1 (.inl (by decide +kernel))
  have w9 := h5 (device 1 0) descriptor false vdevOne partOne
  repeat specialize w9 (by decide +kernel)
  have w9 := w9.2
  repeat specialize w9 (by decide +kernel)
  obtain ⟨_, x9, _⟩ := w9
  exact ⟨⟨s1, x1⟩, ⟨s2, x2⟩, ⟨s3, x3⟩, ⟨s4, x4⟩, ⟨s5, x5⟩, ⟨_, x6⟩, ⟨s7, x7⟩, ⟨_, x8⟩, ⟨_, x9⟩⟩

/-- A graph of one node of a kind, started and fired; the word at 0xC000 is its condition. -/
def noded (kind cond : Nat) : State :=
  device 2 (1 + 3 * 65536) (node kind cond) id 2

/-- The node of that graph. -/
def nodeAs (kind : Nat) : Node := ⟨0, 2, kind, 0x8000, 0, 0, 0xC000, [2, 1, 0xFFFF, 0xFFFF]⟩

theorem applies_GraphSteps (h : Obligations.GraphSteps) :
    Runs (.graphStart 0 0) (device 2 4) ∧ Runs (.graphStart 0 0) (noded 3 0) ∧ Runs (.graphStart 0 0) (noded 1 0) ∧ Runs (.graphKernelFire 1 1 9) (noded 0 0) ∧
    Runs (.graphConditionalFire 1 1) (noded 1 5) ∧ Runs (.graphWhileFire 1 1) (noded 2 0) ∧ Runs (.graphInstall 1 0x8000 65535) (noded 0 0) ∧
    exec (.graphInstall 1 0 0) three = .refused (.cannotOccur "GRAPH_INSTALL") := by
  obtain ⟨h1, h2, h3, h4⟩ := h
  have w1 := h1 (device 2 4) 0 0 pair (ctxOf (device 2 4)) ⟨2, 77, 4, false⟩
  repeat specialize w1 (by decide +kernel)
  obtain ⟨s1, x1, _⟩ := w1.1 (by decide +kernel)
  have started : ∀ kind : Fin 4, ∀ x, x = (⟨2, 77, 1 + 3 * 65536, false⟩ : SqEntry) → (noded kind 0).nextEntry 0 0 = some (pair, ctxOf (noded kind 0), x) := by
    rintro k x rfl
    revert k
    decide +kernel
  have w2 := h1 (noded 3 0) 0 0 pair (ctxOf (noded 3 0)) _ (started 3 _ rfl)
  repeat specialize w2 (by decide +kernel)
  have w2 := w2.2 (nodeAs 3)
  repeat specialize w2 (by decide +kernel)
  obtain ⟨s2, x2, _⟩ := w2.1 (by decide +kernel)
  have w3 := h1 (noded 1 0) 0 0 pair (ctxOf (noded 1 0)) _ (started 1 _ rfl)
  repeat specialize w3 (by decide +kernel)
  have w3 := w3.2 (nodeAs 1)
  repeat specialize w3 (by decide +kernel)
  have w3 := w3.2
  repeat specialize w3 (by decide +kernel)
  obtain ⟨s3, _, x3, _⟩ := w3
  have w4 := fun r gs => h2 (noded 0 0) 1 1 9 (ctxOf (noded 0 0)) (nodeAs 0) r gs
  repeat replace w4 := fun r gs => w4 r gs (by decide +kernel)
  have w4 := w4 _ _ (test_of_accepted (by decide +kernel))
  repeat specialize w4 (by decide +kernel)
  obtain ⟨s4, _, _, x4, _⟩ := w4
  have w5 := h3 .graphConditionalFire 1 (by simp) (noded 1 5) 1 1 (ctxOf (noded 1 5)) (nodeAs 1) (toBytes 4 5)
  repeat specialize w5 (by decide +kernel)
  obtain ⟨s5, _, x5, _⟩ := w5
  have w6 := h3 .graphWhileFire 2 (by simp) (noded 2 0) 1 1 (ctxOf (noded 2 0)) (nodeAs 2) (toBytes 4 0)
  repeat specialize w6 (by decide +kernel)
  obtain ⟨s6, _, x6, _⟩ := w6
  have w7 := h4 (noded 0 0) 1 0x8000 65535 (ctxOf (noded 0 0))
  repeat specialize w7 (by decide +kernel)
  have x7 := w7.1 (by decide +kernel)
  have w8 := h4 three 1 0 0 (ctxOf three)
  repeat specialize w8 (by decide +kernel)
  have x8 := w8.2 (by decide +kernel)
  exact ⟨⟨s1, x1⟩, ⟨s2, x2⟩, ⟨s3, x3⟩, ⟨s4, x4⟩, ⟨s5, x5⟩, ⟨s6, x6⟩, ⟨_, x7⟩, x8⟩

/-- Two lanes at a boundary, no warp, in a context with places for records and saves, on a powered device. -/
def standing (t : Nat → Thread → Thread := fun _ t => t) (c : Crew → Crew := id) (x : Context → Context := id) : State :=
  let s := two (fun l u => t l { u with status := .boundary, allot := 32 }) c (fun y => x { y with faultBase := 0x6000, tsave := 0xC000, ta := 0, tentry := 3 })
  { s with warps := [], cur := none, chip := { s.chip with powered := true, released := [0, 1] } }

def crewOf (s : State) : Crew := (SMap.get? s.crews 1).getD crewOne
def launchOf (s : State) : Launch := (SMap.get? s.launches 1).getD (launchOne false 0 false)

/-- The state after a thread's save block is written. -/
def saved (s : State) (t : Thread) : Option State :=
  match s.writeSave (ctxOf s) 1 t 5 with
  | .ok s1 => some s1
  | _ => none

theorem write_of_saved {s : State} {t : Thread} (h : (saved s t).isSome = true) : s.writeSave (ctxOf s) 1 t 5 = .ok ((saved s t).get h) := by
  obtain ⟨x, hx⟩ := Option.isSome_iff_exists.mp h
  have : (saved s t).get h = x := by simp [hx]
  rw [this]
  unfold saved at hx
  split at hx
  · cases hx; assumption
  · cases hx

/-- A fault record that waits for its page, of thread 1. -/
def recordAt (va : Nat) : PendRec := ⟨1, 0, false, 1, va, 5, [[1]], false⟩

/-- The state after a waiting record is written. -/
def recorded (s : State) (r : PendRec) : Option State :=
  match s.recWrite r.ctx r.va r.data with
  | .ok s1 => some s1
  | _ => none

theorem recWrite_of_recorded {s : State} {r : PendRec} (h : (recorded s r).isSome = true) : s.recWrite r.ctx r.va r.data = .ok ((recorded s r).get h) := by
  obtain ⟨x, hx⟩ := Option.isSome_iff_exists.mp h
  have : (recorded s r).get h = x := by simp [hx]
  rw [this]
  unfold recorded at hx
  split at hx
  · cases hx; assumption
  · cases hx

theorem applies_TrapsAndPages (h : Obligations.TrapsAndPages) :
    Runs (.trapDelivery 1) (standing fun l t => if l = 0 then { t with status := .parked 5 { num := 35, cause := 9 }, at_ := 2 } else t) ∧
    Runs (.trapDelivery 1) (standing fun l t => if l = 0 then { t with bndTraps := [(5, { num := 35 }), (6, { num := 35 })] } else t) ∧
    Runs (.watchdogExpiry 1) (standing (fun l t => if l = 0 then { t with wdog := 50 } else t) id fun c => { c with wdog := 50 }) ∧
    Runs (.watchdogExpiry 1) (standing (fun l t => if l = 0 then { t with wdog := 51, wdogHit := true } else t) id fun c => { c with wdog := 50 }) ∧
    Runs (.pageFaultResolve 1) (standing fun l t => if l = 0 then { t with status := .osServed { num := 8, addr := 0xFFF0, os := true } 1 } else t) ∧
    Runs (.pageUnmappable 0 1) (standing fun l t => if l = 0 then { t with status := .osServed { num := 8, addr := 2 ^ 40, os := true } 1 } else t) ∧
    Runs (.pageFaultResolve 1) { standing with records := [recordAt 0x6000] } ∧ Runs (.pageUnmappable 0 1) { standing with records := [recordAt (2 ^ 40)] } ∧
    Runs (.watchdogExpiry 1) (standing (fun l t => if l = 0 then { t with wdog := 50, handler := some 5 } else t) id fun c => { c with wdog := 50 }) := by
  obtain ⟨h1, h2, h3, h4⟩ := h
  let a := standing fun l t => if l = 0 then { t with status := .parked 5 { num := 35, cause := 9 }, at_ := 2 } else t
  let b := standing fun l t => if l = 0 then { t with bndTraps := [(5, { num := 35 }), (6, { num := 35 })] } else t
  let c := standing (fun l t => if l = 0 then { t with wdog := 50 } else t) id fun c => { c with wdog := 50 }
  let d := standing (fun l t => if l = 0 then { t with wdog := 51, wdogHit := true } else t) id fun c => { c with wdog := 50 }
  let e := standing fun l t => if l = 0 then { t with status := .osServed { num := 8, addr := 0xFFF0, os := true } 1 } else t
  let f := standing fun l t => if l = 0 then { t with status := .osServed { num := 8, addr := 2 ^ 40, os := true } 1 } else t
  let g := standing (fun l t => if l = 0 then { t with wdog := 50, handler := some 5 } else t) id fun c => { c with wdog := 50 }
  have w1 := h1 a 1 5 { num := 35, cause := 9 } (thr a 1) (crewOf a) (ctxOf a) (launchOf a)
  repeat specialize w1 (by decide)
  have w1 := w1.1 _ (by decide) (by decide) (write_of_saved (by decide +kernel))
  obtain ⟨s1, x1, _⟩ := w1
  have w2 := h1 b 1 5 { num := 35 } (thr b 1) (crewOf b) (ctxOf b) (launchOf b)
  repeat specialize w2 (by decide)
  obtain ⟨s2, x2, _⟩ := w2.2 _ [(6, { num := 35 })] (by decide) (by decide) (by decide) (by decide) (by decide) (by decide)
    (write_of_saved (s := b.modThread 1 fun x => { x with bndTraps := [(6, { num := 35 })] }) (by decide +kernel))
  have w3 := h2 c 1 (thr c 1) (crewOf c) (ctxOf c)
  repeat specialize w3 (by decide)
  have w3 := w3.1
  repeat specialize w3 (by decide)
  obtain ⟨s3, _, x3, _⟩ := w3
  have w4 := h2 d 1 (thr d 1) (crewOf d) (ctxOf d)
  repeat specialize w4 (by decide)
  obtain ⟨s4, x4, _⟩ := w4.2 (by decide)
  have w9 := h2 g 1 (thr g 1) (crewOf g) (ctxOf g)
  repeat specialize w9 (by decide)
  obtain ⟨s9, x9, _⟩ := w9.2 (.inr (by decide))
  have w5 := h3 e 1 1 (thr e 1) (crewOf e) { num := 8, addr := 0xFFF0, os := true }
  repeat specialize w5 (by decide)
  have x5 := w5.1 (by decide)
  have w6 := h3 f 1 1 (thr f 1) (crewOf f) { num := 8, addr := 2 ^ 40, os := true }
  repeat specialize w6 (by decide)
  obtain ⟨s6, _, x6, _⟩ := w6.2 (by decide) (ctxOf f) (by decide) (by decide)
  have w7 := h4 { standing with records := [recordAt 0x6000] } 1 (recordAt 0x6000)
  repeat specialize w7 (by decide)
  have x7 := w7.1 _ (by decide) (recWrite_of_recorded (by decide +kernel))
  have w8 := h4 { standing with records := [recordAt (2 ^ 40)] } 1 (recordAt (2 ^ 40))
  repeat specialize w8 (by decide)
  obtain ⟨s8, _, x8, _⟩ := w8.2 (ctxOf standing) (by decide) (by decide)
  exact ⟨⟨s1, x1⟩, ⟨s2, x2⟩, ⟨s3, x3⟩, ⟨s4, x4⟩, ⟨_, x5⟩, ⟨s6, x6⟩, ⟨_, x7⟩, ⟨s8, x8⟩, ⟨s9, x9⟩⟩

/-- A crew that has yielded to a request, and one whose time is up. -/
def yielding : State := standing (fun _ t => { t with wait := some .yield }) fun c => { c with preempt := .requested, req := true, left := 9 }
def forcing : State := standing (fun _ t => t) fun c => { c with preempt := .forcing, req := true, left := 0 }

/-- A crew whose two threads are saved, with register 5 of the first. -/
def removedCrew : State :=
  let v : Saved := { light := false, scr := [], scrTag := [], acc := [], triggers := [], armed := [], bins := [], posts := [], threads := [
    { uid := 1, status := .boundary, regs := [(5, ⟨77, 0⟩)] }, { uid := 8, status := .boundary, regs := [(6, ⟨9, 0⟩)] }] }
  let s := standing (fun _ t => { t with status := .removed }) fun c => { c with placed := false, preempt := .removed, saved := some v }
  { s with vdevs := [(0, { vdevOne with turn := true })], parts := [(0, { partOne with map := [3, 0, 0, 0] })] }

theorem standing_of {s : State} {crew : Nat} (h : ((s.crewThreads crew).all fun e => decide (e.2.status = .boundary) && e.2.inherited == 0 &&
    decide (e.2.levels = []) && decide (e.2.region = none) && decide (e.2.wait = none) && s.warps.all fun w => !(w.2.members.contains e.1)) = true) :
    s.standing crew := by
  intro e he
  have := List.all_eq_true.mp h e he
  simp only [Bool.and_eq_true, decide_eq_true_eq, beq_iff_eq] at this
  obtain ⟨⟨⟨⟨⟨a, b⟩, c⟩, d⟩, w⟩, m⟩ := this
  exact ⟨a, b, c, d, by simp [w], by simp [w], m⟩

/-- What a removed crew's save holds. -/
def savedIn (s : State) : Saved := ((crewOf s).saved).getD ⟨false, [], [], [], [], [], [], [], []⟩

theorem applies_Preemption (h : Obligations.Preemption) :
    Runs (.preemptRequest 1) standing ∧ Runs (.preemptCancel 1) yielding ∧ Runs (.lightSave 1) yielding ∧ Runs (.forcedSave 1) forcing ∧
    Runs (.crewRestore [⟨1, 1, [2, 0, 0, 0]⟩]) removedCrew ∧
    Runs (.debugHalt 1) standing ∧ Runs (.debugContinue 1) (standing (fun _ t => t) fun c => { c with halted := true }) := by
  obtain ⟨h1, h2, h3, h4, h5, h6⟩ := h
  have w1 := h1 standing 1 (crewOf standing)
  repeat specialize w1 (by decide)
  obtain ⟨s1, x1, _⟩ := w1
  obtain ⟨s2, x2, _⟩ := h2 yielding 1 (by decide) (by decide)
  have w3 := h3 yielding 1 (crewOf yielding)
  repeat specialize w3 (by decide)
  obtain ⟨s3, _, _, x3, _⟩ := w3
  have w4 := h4 forcing 1 (crewOf forcing)
  repeat specialize w4 (by decide)
  have w4 := w4 (standing_of (by decide))
  repeat specialize w4 (by decide)
  obtain ⟨s4, _, _, x4, _⟩ := w4
  have w5 := fun s1 => h5 removedCrew s1 ⟨1, 1, [2, 0, 0, 0]⟩ (crewOf removedCrew) (savedIn removedCrew) (ctxOf removedCrew) 0
    ((removedCrew.partOf (ctxOf removedCrew)).get (by decide +kernel)).2
  repeat replace w5 := fun s1 => w5 s1 (by decide +kernel)
  have w5 := w5 _ (Option.some_get (by decide +kernel : (removedCrew.inTurn 0).isSome)).symm
  repeat specialize w5 (by decide +kernel)
  obtain ⟨s5, _, x5, _⟩ := w5
  let b := standing (fun _ t => t) fun c => { c with halted := true }
  have x6 := (h6 standing 1 (crewOf standing) (by decide) (by decide)).1 (by decide)
  have x7 := (h6 b 1 (crewOf b) (by decide) (by decide)).2 (by decide)
  exact ⟨⟨s1, x1⟩, ⟨s2, x2⟩, ⟨s3, x3⟩, ⟨s4, x4⟩, ⟨s5, x5⟩, ⟨_, x6⟩, ⟨_, x7⟩⟩

/-- A device in power whose crew's virtual device has the turn, at the end of it. -/
def turnOver : State :=
  { standing with timebase := 1000, vdevs := [(0, { vdevOne with turn := true, eq_ := 1 })], parts := [(0, { partOne with nvf := 3 })] }

theorem keys_of {α : Type} {m : SMap α} {P : Nat → α → Prop} (h : ∀ e ∈ m, P e.1 e.2) : ∀ k v, SMap.get? m k = some v → P k v := by
  induction m with
  | nil => intro k v hv; simp [SMap.get?] at hv
  | cons e m ih =>
    intro k v hv
    rw [SMap.get?] at hv
    split at hv
    · rename_i hk
      cases hv
      exact hk ▸ h e (List.mem_cons_self ..)
    · exact ih (fun e he => h e (List.mem_cons_of_mem _ he)) k v hv

/-- A thread parked on a phase of a barrier object in the crew's own scratchpad: only the crew can signal it. -/
def stuck : State :=
  standing (fun l t => { t with wait := some (.phase (.scr 0 (16 * (l % 2))) 0) }) (fun c => { c with objs := [0, 16] }) (fun c => { c with ended := false })

/-- The same device once the turn's crews are out. -/
def turnEnded : State := { turnOver with crews := [], threads := [], vdevs := [(0, { vdevOne with turn := true, eq_ := 1, ending := true })] }

theorem applies_TurnsWalksCounters (h : Obligations.TurnsWalksCounters) :
    Runs (.vdTurnEnd 0) turnOver ∧ Runs (.vdTurnEnd 0) turnEnded ∧
    Runs (.vdConfig 0x4000 0 1 0) turnOver ∧ Runs (.vdConfig 0x100 3 0 0) turnOver ∧ Runs (.vdConfig 0x100 3 1 0) turnOver ∧ Runs (.vdConfig 0 3 1 0) turnOver ∧
    Runs (.waitForWalk 1) { stuck with timebase := 2 ^ 24 } ∧ Runs (.walkRequest 1) stuck ∧
    Runs (.counterTrigger 10000) standing ∧ exec (.counterTrigger 9999) standing = .refused (.cannotOccur "COUNTER_TRIGGER") ∧
    Runs .counterLatch { standing with triggerAt := some 0 } ∧ Runs .counterAutoTrigger { standing with timebase := 2 ^ 30 } := by
  obtain ⟨h1, h2, h3, h4, h5, h6⟩ := h
  have w1 := h1 turnOver 0 { vdevOne with turn := true, eq_ := 1 }
  repeat specialize w1 (by decide)
  obtain ⟨s1, x1, _⟩ := w1.1 (by decide) (by decide) (.inl (by decide))
    (keys_of (m := turnOver.crews) (P := fun u (c : Crew) => turnOver.unit u = [u] ∧ c.preempt = .running) (by decide))
  have w12 := h1 turnEnded 0 { vdevOne with turn := true, eq_ := 1, ending := true }
  repeat specialize w12 (by decide)
  obtain ⟨s12, x12, _⟩ := w12.2 (by decide) (.inl rfl)
  have a := h2 turnOver
  have x2 := (a 0x4000 0 1 0 { partOne with nvf := 3 } (by decide) (by decide)).1 (by decide)
  have x3 := ((a 0x100 3 0 0 { partOne with nvf := 3 } (by decide) (by decide)).2.1 (by decide) (by decide) (by decide)).1 rfl
  have x4 := ((a 0x100 3 1 0 { partOne with nvf := 3 } (by decide) (by decide)).2.1 (by decide) (by decide) (by decide)).2 (by decide)
  have x5 := (a 0 3 1 0 { partOne with nvf := 3 } (by decide) (by decide)).2.2 { vdevOne with turn := true, eq_ := 1 } (by decide) (by decide) (by decide) (by decide)
  obtain ⟨s6, c6, x6, _, _, _, _, _, _, _, y6⟩ := h3 .waitForWalk (by simp) { stuck with timebase := 2 ^ 24 } 1 (ctxOf stuck) (by decide) (by decide) (fun _ => by decide)
  have z6 := y6 (({ stuck with timebase := 2 ^ 24 } : State).waitedOn 1) (by decide)
  obtain ⟨s7, c7, x7, _⟩ := h3 .walkRequest (by simp) stuck 1 (ctxOf stuck) (by decide) (by decide) (fun h => nomatch congrFun h 0)
  have x8 := (h5 standing 10000 (by decide) (by decide) (by decide)).1 (by decide)
  have x9 := (h5 standing 9999 (by decide) (by decide) (by decide)).2 (by decide)
  obtain ⟨s10, x10, _⟩ := h6 .counterLatch { standing with triggerAt := some 0 } (.inl ⟨rfl, rfl⟩) (by decide)
  obtain ⟨s11, x11, _⟩ := h6 .counterAutoTrigger { standing with timebase := 2 ^ 30 } (.inr ⟨rfl, by decide, by decide, by decide, nofun⟩) (by decide)
  exact ⟨⟨s1, x1⟩, ⟨s12, x12⟩, ⟨_, x2⟩, ⟨_, x3⟩, ⟨_, x4⟩, ⟨_, x5⟩, ⟨s6, x6⟩, ⟨s7, x7⟩, ⟨_, x8⟩, x9, ⟨s10, x10⟩, ⟨s11, x11⟩⟩

theorem applies_Device (h : Obligations.Device) :
    Runs .powerOn State.reset ∧ Runs .powerOff standing ∧ Runs .thermalTrip standing ∧ Runs (.flashCommand [1]) standing ∧ Runs (.eccCorrected .device) standing ∧
    Runs (.governorStep true) standing ∧ Runs (.governorStep false) { standing with chip := { standing.chip with mhz := 3500 } } ∧
    exec (.governorStep false) standing = .refused (.cannotOccur "GOVERNOR_STEP") ∧
    Runs (.coreBatchRelease [2] [3]) standing ∧ Runs (.stackJoin 1) standing ∧ Runs (.stackTrained 1 false) { standing with chip := { standing.chip with sst := [0, 1, 0, 0, 0, 0, 0, 0] } } ∧
    Runs (.uncorrectableError (.thread 1)) standing := by
  obtain ⟨h1, h2, h3, h4, h5⟩ := h
  obtain ⟨s1, _, x1, _⟩ := h1 State.reset (by decide)
  obtain ⟨⟨s2, x2, _⟩, ⟨s3, x3, _⟩, b4, b5, b6, b7, b8⟩ := h2 standing (by decide)
  let d : State := { standing with chip := { standing.chip with mhz := 3500 } }
  have x4 := b4 [1] (by decide)
  have x7 := (h2 d (by decide)).2.2.2.2.2.1 (by decide)
  obtain ⟨s9, x9, _⟩ := h3 standing [2] [3] (by decide) (by decide) (by decide) (by decide) (by decide)
  obtain ⟨s10, x10, _⟩ := (h4 standing 1 (by decide) (by decide) (by decide)).1 (by decide)
  let e : State := { standing with chip := { standing.chip with sst := [0, 1, 0, 0, 0, 0, 0, 0] } }
  obtain ⟨s11, x11, _⟩ := (h4 e 1 (by decide) (by decide) (by decide)).2 false (by decide)
  obtain ⟨s12, x12, _⟩ := h5 standing (.thread 1) 1 (by decide) (by decide) (by decide)
  exact ⟨⟨s1, x1⟩, ⟨s2, x2⟩, ⟨s3, x3⟩, ⟨_, x4⟩, ⟨_, b5 .device⟩, ⟨_, b6 (by decide)⟩, ⟨_, x7⟩, b8 (by decide), ⟨s9, x9⟩, ⟨s10, x10⟩, ⟨s11, x11⟩, ⟨s12, x12⟩⟩

theorem applies_DecodeEncode (h : Obligations.DecodeEncode) : decode (encode (.fence 0) ++ [7]) = .ok (.fence 0, [7]) :=
  h (.fence 0) [7] (by decide) (by decide)

/-- The small machine with an integer add at its fetch. -/
def adding : State := State.reset.withFetchWord 32 0b00001_0000_01_0000101_1000110_1111111

theorem applies_StepRunsDecoded (h : Obligations.StepRunsDecoded) :
    step adding = switched (exec (.iadd ⟨1, 5, 70, 127⟩) { adding with agenda := [], cur := some 0 }) ∧
    step { adding with agenda := [.act .powerOff] } = switched (exec .powerOff { adding with agenda := [], cur := none, stalled := [] }) ∧
    ∃ w, SMap.get? adding.warps 0 = some w ∧ ∀ k v, SMap.get? adding.warps k = some v → k / 4 = 0 → adding.stalled.contains k = false →
      adding.warpAge 0 w ≤ adding.warpAge k v := by
  obtain ⟨h1, h4, h2, h3⟩ := h
  obtain ⟨w, hw, -, -, ho⟩ := h4 adding 0 0 (by decide) (by decide)
  have := h3 32 0b00001_0000_01_0000101_1000110_1111111 (.iadd ⟨1, 5, 70, 127⟩) (by decide)
  have := h1 adding 0 0 [] (.iadd ⟨1, 5, 70, 127⟩) [0, 0] (env { adding with cur := some 0 }) (by decide) (by decide) (by decide) (by decide) rfl (by decide)
  exact ⟨this, h2 _ _ _ rfl, w, hw, ho⟩
/-- The machine's one partition, without a context. -/
def bare : State := { standing with ctxs := [], vdevs := [], crews := [], threads := [] }

/-- The translation of an address. -/
def hitAt (s : State) (va : Nat) : Hit :=
  match s.transDev (ctxOf s) va with
  | .hit h => h
  | _ => ⟨.hbm 0, false, false, false, 0, 0, none, 0, 0, false⟩


/-- A virtual function whose window is the first 64 KiB. -/
def windowed : State := { standing with vdevs := [(0, { vdevOne with window := (0x40, 0x100) })] }

/-- The first place where the context maps the byte at 0x40. -/
def firstMap : Nat × Leaf := (standing.mapsOf (ctxOf standing) 0x40).headD (0, ⟨0, 0⟩)

theorem applies_HostMemory_writes (h : Obligations.HostMemory) :
    Runs (.hostWrite 0 0x40 [1, 2] none) bare ∧ Runs (.hostWrite 0 0x40 [1, 2] none) standing ∧
    exec (.hostWrite 0 8 [1, 2] (some 0)) windowed = exec (.hostWrite 0 0x48 [1, 2] none) windowed ∧
    exec (.hostWrite 0 0xFF [1, 2] (some 0)) windowed = .refused (.cannotOccur "HOST_WRITE") := by
  have a := h.1 bare 0 0x40 0x40 [1, 2] partOne true
  repeat specialize a (by decide)
  obtain ⟨s1, x1, _⟩ := a.1 (by decide)
  have b := h.1 standing 0 0x40 0x40 [1, 2] partOne true
  repeat specialize b (by decide)
  have x2 := b.2 1 (ctxOf standing) [] [] firstMap.1 firstMap.2 ((standing.mapsOf (ctxOf standing) 0x40).drop 1) (hitAt standing firstMap.1)
  repeat specialize x2 (by decide +kernel)
  have c := h.2.1 windowed 0 0 8 [1, 2] partOne { vdevOne with window := (0x40, 0x100) }
  repeat specialize c (by decide)
  have d := h.2.1 windowed 0 0 0xFF [1, 2] partOne { vdevOne with window := (0x40, 0x100) }
  repeat specialize d (by decide)
  exact ⟨⟨s1, x1⟩, ⟨_, x2⟩, c.1 (by decide) (by decide), d.2 (by decide)⟩

theorem applies_HostMemory_pages (h : Obligations.HostMemory) :
    Runs (.invalidate 1 0 65536) standing ∧ Runs (.snapshot 1) (standing (fun _ t => t) id fun c => { c with dirty := 0x8000 }) ∧
    Runs (.peerApertureGrant 0 2 0x8000000000000001) standing := by
  obtain ⟨-, -, h2, h3, h4, -⟩ := h
  obtain ⟨s3, x3, _⟩ := h2 standing 1 0 65536 (by decide)
  let d := standing (fun _ t => t) id fun c => { c with dirty := 0x8000 }
  obtain ⟨s4, _, x4, _⟩ := h3 d 1 (ctxOf d) (by decide) (by decide) (by decide) (by decide) (by decide)
  obtain ⟨s5, _, x5, _⟩ := h4 standing 0 2 0x8000000000000001 partOne (by decide) (by decide) (by decide)
  exact ⟨⟨s3, x3⟩, ⟨s4, x4⟩, ⟨s5, x5⟩⟩

/-- Every word 0, two map words with no frame, and a core and a frame. -/
def noPart : List DWord := [0, 0, 0, 0, 0, 0, 0, 0]
def badPart : List DWord := [0, 1, 0, 0, 0, 0, 0, 0]
def goodPart : List DWord := [2, 0, 0, 0, 0, 0, 0x200000001, 0]

theorem applies_HostMemory_partitions (h : Obligations.HostMemory) :
    Runs (.partitionConfig 0 noPart 0) standing ∧ Runs (.partitionConfig 0 noPart 0) bare ∧
    Runs (.partitionConfig 1 badPart 0) bare ∧ Runs (.partitionConfig 1 goodPart 0) bare := by
  obtain ⟨-, -, -, -, -, h5⟩ := h
  have x6 := (h5 standing 0 0 noPart (by decide) (by decide) rfl (by decide)).1 (by decide)
  obtain ⟨s7, x7, _⟩ := (h5 bare 0 0 noPart (by decide) (by decide) rfl (by decide)).2.1 (by decide) (by simp [noPart])
  have x8 := ((h5 bare 1 0 badPart (by decide) (by decide) rfl (by decide)).2.2 (by decide) ⟨1, by simp [badPart], by decide⟩).1 (by decide +kernel)
  obtain ⟨s9, _, x9, _⟩ := ((h5 bare 1 0 goodPart (by decide) (by decide) rfl (by decide)).2.2 (by decide) ⟨2, by simp [goodPart], by decide⟩).2 (by decide +kernel)
  exact ⟨⟨_, x6⟩, ⟨s7, x7⟩, ⟨_, x8⟩, ⟨s9, x9⟩⟩

/-- A word that encodes no instruction is refused by the decoder. -/
theorem test_no_instruction : decodeTableWord 32 0xFFFFFFFF = none := by decide

/-- Whether an outcome is a next state. -/
def goesOn (o : Host.Outcome State Fault Refusal) : Bool :=
  match o with
  | .next _ => true
  | _ => false

theorem next_of_goesOn (o : Host.Outcome State Fault Refusal) (h : goesOn o = true) : ∃ s', o = .next s' := by
  cases o <;> simp_all [goesOn]

theorem applies_StepKeepsCanonical (h : Obligations.StepKeepsCanonical) : ∃ s', step adding = .next s' ∧ s'.wf = true := by
  obtain ⟨s', hs⟩ := next_of_goesOn (step adding) (by decide +kernel)
  exact ⟨s', hs, h adding s' (by decide +kernel) hs⟩

end Sys2Proof.Tests
end

section
/-! SUPPORT. Queue pairs (R9, R271, R272): what each step of the host's and the device's side does to one pair, and what
reset leaves (R277). -/

namespace Sys2Proof.Machine

/-! ## Little-endian numbers (R6) -/

@[simp] theorem length_toBytes : ∀ n x : Nat, (toBytes n x).length = n
  | 0, _ => rfl
  | n + 1, x => congrArg (· + 1) (length_toBytes n (x / 256))

/-- The bytes of a number hold it, cut to their width. -/
theorem ofBytes_toBytes : ∀ n x : Nat, ofBytes (toBytes n x) = x % 2 ^ (8 * n)
  | 0, x => (Nat.mod_one x).symm
  | n + 1, x => by
    have hpow : 2 ^ (8 * (n + 1)) = 2 ^ 8 * 2 ^ (8 * n) := by rw [Nat.mul_succ, Nat.pow_add, Nat.mul_comm]
    rw [toBytes, ofBytes, ofBytes_toBytes n, BitVec.toNat_ofNat, hpow, Nat.mod_mul]
    rfl

theorem writeCells_append : ∀ (bs cs : List Byte) (m : List Host.Cell) (a : Nat),
    writeCells m a (bs ++ cs) = writeCells (writeCells m a bs) (a + bs.length) cs
  | [], _, _, _ => rfl
  | b :: bs, cs, m, a => by
    rw [List.cons_append, writeCells, writeCells, writeCells_append bs, List.length_cons, Nat.add_right_comm, Nat.add_assoc]

/-! ## Replacing a pair -/

/-- A pair that exists is one of 16 of a virtual function that exists (R271). -/
theorem State.of_pair? {s : State} {vd q : Nat} {p : QueuePair} (h : s.pair? vd q = some p) :
    q < 16 ∧ (∃ v, SMap.get? s.vdevs vd = some v) ∧ SMap.getD s.queues QueuePair.zero (queueKey vd q) = p := by
  rw [State.pair?, Option.ite_none_right_eq_some, Bool.and_eq_true, decide_eq_true_eq, Option.isSome_iff_exists,
    Option.some.injEq] at h
  obtain ⟨⟨hq, hv⟩, hp⟩ := h
  exact ⟨hq, hv, hp⟩

theorem State.queueSet_setPair (s : State) (vd q : Nat) (p : QueuePair) : s.queueSet (s.setPair vd q p) vd q p :=
  ⟨s.setPair_get vd q p, fun _ hk => SMap.get?_put_ne s.queues p hk, rfl⟩

/-! ## Doorbells and enable (R271, R272) -/

theorem exec_sqtail {s : State} {vd q : Nat} {p : QueuePair} (v : Nat) (h : s.pair? vd q = some p) :
    exec (.sqtail vd q v) s = .next (s.setPair vd q { p with sqtail := v % 2 ^ 32 }) := by
  change execSqtail vd q v s = _
  rw [execSqtail, h]

theorem exec_cqhead {s : State} {vd q : Nat} {p : QueuePair} (v : Nat) (h : s.pair? vd q = some p) :
    exec (.cqhead vd q v) s = .next (s.setPair vd q { p with cqhead := v % 2 ^ 32 }) := by
  change execCqhead vd q v s = _
  rw [execCqhead, h]

theorem exec_queueEnable {s : State} {vd q : Nat} {p : QueuePair} (h : s.pair? vd q = some p) :
    exec (.queueEnable vd q) s = .next (s.setPair vd q (s.enable vd p)) := by
  change execQueueEnable vd q s = _
  rw [execQueueEnable, h]

/-- The setup is in order when CTX is a live context of the function, both bases are aligned and both rings hold at
least 16 entries (R271). -/
theorem State.not_setupBad (s : State) (vd : Nat) (p : QueuePair) :
    (!s.setupBad vd p) = (((SMap.get? s.ctxs p.ctx).any fun c => c.vd == vd && !c.ended) && p.sqbase % 64 == 0 &&
      p.cqbase % 64 == 0 && decide (4 ≤ p.sqlog) && decide (4 ≤ p.cqlog)) := by
  have hctx : (((SMap.get? s.ctxs p.ctx).map fun c => c.vd == vd && !c.ended) != some true) =
      !((SMap.get? s.ctxs p.ctx).any fun c => c.vd == vd && !c.ended) := by
    cases SMap.get? s.ctxs p.ctx with
    | none => rfl
    | some c => simp [bne]
  have hlog : ∀ n : Nat, decide (n < 4) = !decide (4 ≤ n) := fun n => by
    rw [← decide_not]
    exact decide_eq_decide.mpr Nat.not_le.symm
  rw [State.setupBad, hctx, hlog, hlog]
  simp [bne]

/-- A write of EN = 1 enables a pair that is off and in order, and marks one that is not (R271). -/
theorem State.enable_eq (s : State) (vd : Nat) (p : QueuePair) :
    s.enable vd p = if p.en then p else if !s.setupBad vd p then { p with en := true } else { p with err := true } := by
  rw [State.enable]
  cases s.setupBad vd p <;> rfl

/-! ## Registers (R9, R271) -/

/-- REGISTER_WRITE within a pair's 0x1000 bytes of BAR0. -/
theorem exec_registerWrite {s : State} {vd q : Nat} {p : QueuePair} {off : Nat} (v : Nat) (h : s.pair? vd q = some p)
    (hoff : off < 0x1000) :
    exec (.registerWrite vd (q * 0x1000 + off) v) s = .next (s.setPair vd q (s.writePair vd p off v)) := by
  obtain ⟨hq, ⟨d, hd⟩, hp⟩ := State.of_pair? h
  have hpair : (q * 0x1000 + off) / 0x1000 = q := by omega
  have hreg : (q * 0x1000 + off) % 0x1000 = off := by omega
  change execRegisterWrite vd (q * 0x1000 + off) v s = _
  simp only [execRegisterWrite, hd, if_neg (show ¬ 0x10000 ≤ q * 0x1000 + off by omega), hpair, hreg, hp]

/-- Read-only registers and unlisted offsets ignore writes. -/
theorem State.writePair_readOnly (s : State) (vd : Nat) (p : QueuePair) {off : Nat} (v : Nat)
    (h : off ∉ [0, 0x0C, 0x10, 0x18, 0x1C, 0x20, 0x28, 0x30]) : s.writePair vd p off v = p := by
  unfold State.writePair
  split
  case h_9 => rfl
  all_goals exact absurd (by decide) h

section
variable (s : State) (vd v : Nat) {p : QueuePair}

/-- While EN = 1 only the doorbells and EN with ERR answer a write. -/
theorem State.writePair_enabled {off : Nat} (hen : p.en = true) (hsq : off ≠ 0x20) (hcq : off ≠ 0x28) (hctl : off ≠ 0x30) :
    s.writePair vd p off v = p := by
  by_cases h : off ∈ [0, 0x0C, 0x10, 0x18, 0x1C]
  · simp only [List.mem_cons, List.not_mem_nil, or_false] at h
    obtain rfl | rfl | rfl | rfl | rfl := h <;> exact if_pos hen
  · exact s.writePair_readOnly vd p v (by simp_all)

theorem State.writePair_sqbase (hen : p.en = false) : s.writePair vd p 0 v = { p with sqbase := v % 2 ^ 64 } :=
  if_neg (by simp [hen])

theorem State.writePair_ctx (hen : p.en = false) : s.writePair vd p 0x0C v = { p with ctx := v % 4096 } :=
  if_neg (by simp [hen])

theorem State.writePair_cqbase (hen : p.en = false) : s.writePair vd p 0x10 v = { p with cqbase := v % 2 ^ 64 } :=
  if_neg (by simp [hen])

theorem State.writePair_logs (hen : p.en = false) :
    s.writePair vd p 0x18 v = { p with cqlog := v / 16 % 16, sqlog := v % 16 } := by
  change (if p.en then p else { p with cqlog := v / 2 ^ 4 % 2 ^ 4, sqlog := v / 2 ^ 0 % 2 ^ 4 }) = _
  simp [hen]

theorem State.writePair_vec (hen : p.en = false) : s.writePair vd p 0x1C v = { p with vec := v % 2048 } :=
  if_neg (by simp [hen])

/-- A write of EN = 0 disables the pair; ERR is cleared by a 1. -/
theorem State.writePair_disable (hv : v.testBit 0 = false) :
    s.writePair vd p 0x30 v = { p with err := p.err && !v.testBit 1, en := false } := by
  unfold State.writePair
  cases v.testBit 1 <;> simp [hv]

end

/-! ## Entries that complete at SQHEAD (R272) -/

/-- Taking an entry and completing it at once changes its pair alone, and leaves its tag not outstanding. -/
theorem State.queueSet_finishEntry (s : State) (vd q : Nat) (p : QueuePair) (htag kind status : Nat) :
    s.queueSet (s.finishEntry vd q p htag kind status) vd q (p.finished htag kind status) := by
  unfold State.finishEntry State.complete
  refine ⟨?_, fun k hk => ?_, rfl⟩
  · rw [SMap.get?_mod_same, State.setPair_get]
    simp [QueuePair.take, QueuePair.finished]
  · rw [SMap.get?_mod_ne _ _ hk]
    exact SMap.get?_put_ne s.queues _ hk

section
variable {s : State} {vd q : Nat} {p : QueuePair} {c : Context} {x : SqEntry}

theorem exec_queueBarrier (h : s.nextEntry vd q = some (p, c, x)) (hop : x.op = 3) (hx : x.invalid = false)
    (hout : p.outstanding = []) : exec (.queueBarrier vd q) s = .next (s.finishEntry vd q p x.htag 0 0) := by
  change execQueueBarrier vd q s = _
  simp [execQueueBarrier, h, hop, hx, hout]

theorem exec_queueBarrier_waits (h : s.nextEntry vd q = some (p, c, x)) (hout : p.outstanding ≠ []) :
    exec (.queueBarrier vd q) s = .refused (.cannotOccur "QUEUE_BARRIER") := by
  change execQueueBarrier vd q s = _
  simp [execQueueBarrier, h, hout]

theorem exec_invalidEntry (h : s.nextEntry vd q = some (p, c, x)) (hx : x.invalid = true) :
    exec (.invalidEntry vd q) s = .next (s.finishEntry vd q p x.htag 1 11) := by
  change execInvalidEntry vd q s = _
  simp [execInvalidEntry, h, hx]

end

/-! ## Completion entries (R272) -/

/-- The 16 bytes of a completion entry: HTAG, then the phase, KIND and STATUS, then the launch. -/
def completionEntry (phase : Bool) (htag kind status launch : Nat) : List Byte :=
  toBytes 4 htag ++ toBytes 4 ((if phase then 2 ^ 31 else 0) + kind * 256 + status) ++ toBytes 8 launch

/-- A pair whose oldest held completion has been written at CQTAIL, the interrupt raised. -/
def QueuePair.wrote (p : QueuePair) (rest : List (List Nat)) : QueuePair :=
  let t := (p.cqtail + 1) % 2 ^ p.cqlog
  { p with held := rest, cqtail := t, phase := if t = 0 then !p.phase else p.phase, raised := p.raised + 1 }

/-- What a completion entry written at `a` holds, word by word. -/
theorem readCells_completionEntry (m : List Host.Cell) (a : Nat) (phase : Bool) (htag kind status launch : Nat) :
    let m' := writeCells m a (completionEntry phase htag kind status launch)
    ofBytes (readCells m' a 4) = htag % 2 ^ 32 ∧
      ofBytes (readCells m' (a + 4) 4) = ((if phase then 2 ^ 31 else 0) + kind * 256 + status) % 2 ^ 32 ∧
      ofBytes (readCells m' (a + 8) 8) = launch % 2 ^ 64 := by
  have back := fun (n x b : Nat) (m : List Host.Cell) => readCells_writeCells (toBytes n x) m b
  simp only [length_toBytes] at back
  simp only [completionEntry, writeCells_append, List.length_append, length_toBytes]
  refine ⟨?_, ?_, ?_⟩
  · rw [readCells_writeCells_apart _ _ (.inl (by omega)), readCells_writeCells_apart _ _ (.inl (by omega)), back,
      ofBytes_toBytes]
  · rw [readCells_writeCells_apart _ _ (.inl (by omega)), back, ofBytes_toBytes]
  · rw [back, ofBytes_toBytes]

/-- One held completion is written when the ring has room and its release is over. -/
theorem exec_completionEntryWrite {s : State} {vd q htag kind status launch : Nat} {rest : List (List Nat)} {p : QueuePair}
    (hp : SMap.get? s.queues (queueKey vd q) = some p) (hheld : p.held = [htag, kind, status, launch] :: rest)
    (hroom : (p.cqtail + 1) % 2 ^ p.cqlog ≠ p.cqhead % 2 ^ p.cqlog) (hdone : s.fabricBusy p.ctx kind launch = false) :
    ∃ s', exec (.completionEntryWrite vd q 1) s = .next s' ∧ SMap.get? s'.queues (queueKey vd q) = some (p.wrote rest) ∧
      s'.hostMem = writeCells s.hostMem (p.cqbase + 16 * p.cqtail) (completionEntry p.phase htag kind status launch) ∧
      s'.mem = s.mem := by
  change ∃ s', execCompletionEntryWrite vd q 1 s = .next s' ∧ _
  simp only [execCompletionEntryWrite, State.writeEntries, hp, hheld, hdone, beq_false_of_ne hroom, Bool.or_self,
    Bool.false_eq_true, if_false, one_ne_zero]
  exact ⟨_, rfl, by rw [SMap.get?_mod_same, SMap.get?_put_same]; rfl, rfl, rfl⟩

/-! ## The obligations -/

/-- Settles O48: each step replaces one pair (`queueSet_setPair`, `queueSet_finishEntry`), and a completion entry is the
16 bytes `readCells_completionEntry` reads back. -/
theorem queuePairs : Obligations.QueuePairs := by
  unfold Obligations.QueuePairs
  refine ⟨fun s vd q v p hp => ?doorbells, fun s vd q off v p hp hoff => ?registers,
    fun s vd q p c x hnext _ => ?entries, fun s vd q htag kind status launch rest p hp hheld hroom hdone => ?completions⟩
  case doorbells =>
    refine ⟨⟨_, exec_sqtail v hp, s.queueSet_setPair vd q _⟩, ⟨_, exec_cqhead v hp, s.queueSet_setPair vd q _⟩,
      _, exec_queueEnable hp, ?_⟩
    rw [← s.not_setupBad, ← s.enable_eq]
    exact s.queueSet_setPair vd q _
  case registers =>
    refine ⟨_, _, exec_registerWrite v hp hoff, s.queueSet_setPair vd q _, s.writePair_readOnly vd p v,
      s.writePair_enabled vd v, ?_, ?_, ?_, ?_, ?_, ?_, ?_, ?_⟩
    · rintro hen rfl; exact s.writePair_sqbase vd v hen
    · rintro hen rfl; exact s.writePair_ctx vd v hen
    · rintro hen rfl; exact s.writePair_cqbase vd v hen
    · rintro hen rfl; exact s.writePair_logs vd v hen
    · rintro hen rfl; exact s.writePair_vec vd v hen
    · rintro rfl; rfl
    · rintro rfl; rfl
    · rintro rfl hv; exact s.writePair_disable vd v hv
  case entries =>
    exact ⟨fun hop hx hout => ⟨_, exec_queueBarrier hnext hop hx hout, s.queueSet_finishEntry vd q p x.htag 0 0⟩,
      fun _ hout => exec_queueBarrier_waits hnext hout,
      fun hx => ⟨_, exec_invalidEntry hnext hx, s.queueSet_finishEntry vd q p x.htag 1 11⟩⟩
  case completions =>
    obtain ⟨s', hs, hq, hhost, hmem⟩ := exec_completionEntryWrite hp hheld hroom hdone
    refine ⟨s', _, hs, hq, rfl, rfl, rfl, rfl, ?_, hmem⟩
    obtain ⟨hw0, hw1, hw2⟩ := readCells_completionEntry s.hostMem (p.cqbase + 16 * p.cqtail) p.phase htag kind status launch
    rw [hhost]
    refine ⟨hw0, hw1, hw2, fun k hk => ?_⟩
    rw [getD_writeCells, if_neg]
    simp only [completionEntry, List.length_append, length_toBytes]
    omega

/-- Settles O60: every clause but the port widths, which hold at every index, is a field of the state as written. -/
theorem resetState : Obligations.ResetState := by
  have hwidth : ∀ k, State.reset.chip.width.getD k 0 = 0 := fun k => by
    change (List.replicate 48 0).getD k 0 = 0
    rw [List.getD_eq_getElem?_getD, List.getElem?_replicate]
    split <;> rfl
  exact ⟨State.reset_wf, rfl, rfl, rfl, rfl, rfl, rfl, rfl, rfl, rfl, fun _ => rfl, hwidth⟩

end Sys2Proof.Machine
end

section
/-! SUPPORT. The canonical form of the memories and physical arrays (R24, R25; log entries 1 and 2, DESIGN CHOICE): every function
of the model that answers a state keeps it.

One lemma for each such function, in the order of the model, named after it. A function that writes none of the nine
parts keeps the form by definition; one that calls others keeps it by their lemmas, which its proof names; one that
writes a part itself does so by `SMap.setD`, a choice of entries or `writeCells`, and its proof names that rule. -/

namespace Sys2Proof.Machine

/-! ## What answers carry a state -/

/-- The next state of an answer, where it gives one, is in canonical form. -/
def outcomeWf : Host.Outcome State Fault Refusal → Bool
  | .next s => s.wf
  | _ => true

/-- The state a lane leaves is in canonical form. -/
def LaneRes.wf : LaneRes → Bool
  | .done s => s.wf
  | .stall s _ => s.wf
  | .park s _ => s.wf
  | .trap s _ => s.wf
  | .gone s => s.wf

/-- The state an instruction of the group leaves is in canonical form. -/
def GroupRes.wf : GroupRes → Bool
  | .stall s => s.wf
  | .done s _ => s.wf
  | .part s _ _ => s.wf

/-- The state a slot that does not run leaves is in canonical form. -/
def Issue.wf : Issue → Bool
  | .hold s => s.wf
  | .illegal s => s.wf
  | _ => true

/-- The state a written record leaves is in canonical form. -/
def RecOut.wf : RecOut → Bool
  | .ok s => s.wf
  | _ => true

/-- The state a store to the pail leaves is in canonical form. -/
def PailRes.wf : PailRes → Bool
  | .ok s => s.wf
  | _ => true

/-- The state a spawn leaves is in canonical form. -/
def SpawnRes.wf : SpawnRes → Bool
  | .placed s => s.wf
  | .full => true
  | .wait s => s.wf

/-- The state a queued record leaves is in canonical form. -/
def QueueRes.wf : QueueRes → Bool
  | .ok s => s.wf
  | _ => true

/-! ## The nine parts, and what folds keep -/

/-- The canonical form as a property of the nine parts alone: an update of other fields keeps them, and so the form. -/
def canonical (mem hostMem peerMem : List Host.Cell) (regs : SMap Reg) (scr : SMap Byte) (scrTag : SMap Tag) (acc : SMap Reg)
    (pend counters : SMap Nat) : Bool :=
  Memory.wf mem && Memory.wf hostMem && Memory.wf peerMem && SMap.wf Reg.zero regs && SMap.wf (0 : Byte) scr &&
  SMap.wf (0 : Tag) scrTag && SMap.wf Reg.zero acc && SMap.wf (0 : Nat) pend && SMap.wf (0 : Nat) counters

theorem State.wf_eq (s : State) : s.wf = canonical s.mem s.hostMem s.peerMem s.regs s.scr s.scrTag s.acc s.pend s.counters := rfl

theorem canonical_iff {mem hostMem peerMem : List Host.Cell} {regs : SMap Reg} {scr : SMap Byte} {scrTag : SMap Tag} {acc : SMap Reg}
    {pend counters : SMap Nat} : canonical mem hostMem peerMem regs scr scrTag acc pend counters = true ↔
      Memory.wf mem = true ∧ Memory.wf hostMem = true ∧ Memory.wf peerMem = true ∧ SMap.wf Reg.zero regs = true ∧
      SMap.wf (0 : Byte) scr = true ∧ SMap.wf (0 : Tag) scrTag = true ∧ SMap.wf Reg.zero acc = true ∧ SMap.wf (0 : Nat) pend = true ∧
      SMap.wf (0 : Nat) counters = true := by
  simp only [canonical, Bool.and_eq_true, and_assoc]

theorem foldl_fst_wf {α β : Type} (f : State × β → α → State × β) (h : ∀ p a, p.1.wf = true → (f p a).1.wf = true)
    (l : List α) {p : State × β} (hp : p.1.wf = true) : (l.foldl f p).1.wf = true :=
  List.foldlRecOn (motive := fun p : State × β => p.1.wf = true) l f hp fun p hp a _ => h p a hp

theorem SMap.wf_foldl_setD {α β : Type} [DecidableEq α] {d : α} (k : β → Nat) (v : SMap α → β → α) (l : List β) {m : SMap α}
    (hm : SMap.wf d m = true) : SMap.wf d (l.foldl (fun m e => SMap.setD m d (k e) (v m e)) m) = true :=
  List.foldlRecOn (motive := fun m => SMap.wf d m = true) l _ hm fun _ hm _ _ => SMap.wf_setD _ _ hm

theorem Memory.wf_foldl_writeCells {β : Type} (a : β → Nat) (bs : β → List Byte) (l : List β) {m : List Host.Cell}
    (hm : Memory.wf m = true) : Memory.wf (l.foldl (fun m e => writeCells m (a e) (bs e)) m) = true :=
  List.foldlRecOn (motive := fun m => Memory.wf m = true) l _ hm fun _ hm _ _ => writeCells_wf _ _ hm

section
variable {s s' : State} (hw : s.wf = true)
include hw

/-! ## Translation, L1 and lines (R137 to R162) -/

theorem State.modThread_wf {uid : Nat} {f : Thread → Thread} : (s.modThread uid f).wf = true := hw

theorem State.translate_wf {core cid : Nat} {c : Context} {va : Nat} : (s.translate core cid c va).1.wf = true := by
  unfold State.translate
  grind only [State.wf_eq, State.count_wf]

theorem State.putLine_wf {core quad a : Nat} {x : L1Line} : (s.putLine core quad a x).wf = true := hw

theorem State.dropL1_wf {core quad : Nat} : (s.dropL1 core quad).wf = true := hw

theorem State.dropLine_wf {core : Nat} {l : Loc} : (s.dropLine core l).wf = true := by
  unfold State.dropLine
  split <;> exact hw

theorem State.dropCopy_wf {core quad : Nat} {l : Loc} : (s.dropCopy core quad l).wf = true := by
  unfold State.dropCopy
  split <;> exact hw

/-! ## Nodes of a graph -/

theorem State.modNode_wf {cid n : Nat} {f : NodeState → NodeState} : (s.modNode cid n f).wf = true := hw

/-! ## Leaving work behind, records and the end of a context (R71, R232, R237, R251, R252) -/

theorem State.blockUpdate_wf {f : Partition → Bool} : (s.blockUpdate f).wf = true := hw

theorem State.logItem_wf {cid : Nat} {x : LogItem} : (s.logItem cid x).wf = true := hw

theorem State.log_wf {cid type status cause id where_ : Nat} : (s.log cid type status cause id where_).wf = true := State.logItem_wf hw

theorem State.opDone_wf {op : Nat} : (s.opDone op).wf = true := by
  unfold State.opDone
  split
  · exact hw
  · split <;> exact hw

theorem State.lanes_wf {qk cid pc cls n : Nat} : (s.lanes qk cid pc cls n).wf = true := by
  unfold State.lanes
  split
  · exact hw
  · exact State.count_wf hw _ _

theorem State.squashPend_wf {core quad cid : Nat} {p : Pending} : (s.squashPend core quad cid p).wf = true :=
  foldl_wf _ (fun _ _ h => State.lanes_wf h) _ hw

theorem State.squashAll_wf {uid : Nat} : (s.squashAll uid).wf = true := by
  unfold State.squashAll
  split
  · exact hw
  · exact foldl_wf _ (fun _ _ h => State.squashPend_wf h) _ hw

theorem State.discardThread_wf {uid : Nat} : (s.discardThread uid).wf = true := State.squashAll_wf hw

theorem State.freeFinished_wf : s.freeFinished.wf = true := hw

theorem State.accountCrew_wf {cid crew cause : Nat} : (s.accountCrew cid crew cause).wf = true := by
  unfold State.accountCrew
  grind only [State.wf_eq, foldl_wf, State.log_wf, State.lowerLines_wf]

theorem State.dropCrew_wf {crew : Nat} : (s.dropCrew crew).wf = true := foldl_wf _ (fun _ _ h => State.discardThread_wf h) _ hw

theorem State.tick_wf : s.tick.wf = true := hw

theorem State.hear_wf {clock : Nat} : (s.hear clock).wf = true := hw

theorem State.send_wf {dest kind cid : Nat} {fields : List Nat} : (s.send dest kind cid fields).wf = true := State.tick_wf hw

theorem State.sendOthers_wf {members : List Nat} {kind cid : Nat} {fields : List Nat} :
    (s.sendOthers members kind cid fields).wf = true := foldl_wf _ (fun _ _ h => State.send_wf h) _ hw

theorem State.sendFail_wf {p : Posted} {c code : Nat} : (s.sendFail p c code).wf = true := State.sendOthers_wf hw

theorem State.recWrite_wf {cid va : Nat} {gs : List (List Byte)} : (s.recWrite cid va gs).wf = true := by
  induction gs generalizing s va with
  | nil => exact hw
  | cons g gs ih =>
    unfold State.recWrite
    grind only [RecOut.wf, State.performWrite_wf]

theorem State.recTry_wf {cid va : Nat} {data : List (List Byte)} : (s.recTry cid va data).wf = true := by
  unfold State.recTry
  grind only [RecOut.wf, State.recWrite_wf]

theorem State.endPosted_wf {cause : Nat} {p0 : Posted} : (s.endPosted cause p0).wf = true := by
  unfold State.endPosted
  grind only [foldl_wf, State.log_wf, State.sendFail_wf, State.recTry_wf]

theorem State.killCrew_wf {crew : Nat} : (s.killCrew crew).wf = true := by
  unfold State.killCrew
  split
  · exact hw
  · extract_lets ts no s1 s2 s3 s4
    have h1 : s1.wf = true := foldl_wf _ (fun s e h => State.log_wf h) ts hw
    have h2 : s2.wf = true := State.dropCrew_wf (State.accountCrew_wf h1)
    have h3 : s3.wf = true := by
      clear_value s2
      grind only [State.wf_eq, foldl_wf, State.log_wf, State.sendFail_wf]
    have h4 : s4.wf = true := by
      clear_value s3
      grind only [State.log_wf]
    clear_value s4
    grind only [State.wf_eq, State.freeFinished_wf]

theorem State.reportFailed_wf {l : Launch} {id : Nat} : (s.reportFailed l id).wf = true := by
  unfold State.reportFailed
  split <;> exact hw

theorem State.endContext_wf {cid cause : Nat} : (s.endContext cid cause).wf = true := by
  unfold State.endContext
  grind only [State.wf_eq, foldl_wf, State.dropCrew_wf, State.accountCrew_wf, State.log_wf, State.endPosted_wf, State.reportFailed_wf]

theorem State.putRecord_wf {uid core : Nat} {engine : Bool} {held : Bool} {cid va seq : Nat}
    {data : List (List Byte)} :
    (s.putRecord uid core engine held cid va seq data).wf = true := by
  unfold State.putRecord
  grind only [State.wf_eq, RecOut.wf, State.recWrite_wf, State.log_wf, State.endContext_wf]

theorem State.faultRecord_wf {i : Issuer} {t : Trap} {subw : Nat} {held engine : Bool} :
    (s.faultRecord i t subw held engine).1.wf = true := by
  unfold State.faultRecord
  grind only [State.wf_eq, State.putRecord_wf]

theorem State.birth_wf {i : Issuer} {kind : Nat} {o : BirthOps} {engine early : Bool} :
    (s.birth i kind o engine early).1.wf = true := by
  unfold State.birth
  grind only [State.wf_eq, State.putRecord_wf]

theorem State.awaitPages_wf {s' : State} : (s.awaitPages s').wf = true := hw

theorem State.engineStep_wf {s' : State} (hw' : s'.wf = true) : (s.engineStep s').wf = true := by
  unfold State.engineStep
  grind only [State.awaitPages_wf]

/-! ## The operations every meaning shares (R230 to R233, R329) -/

theorem State.setReg_wf {t : Thread} {v : Nat} {r : Reg} : (s.setReg t v r).wf = true := State.wr_wf hw _ _ _

theorem State.setRegs_wf {t : Thread} {v : Nat} {rs : List Reg} : (s.setRegs t v rs).wf = true := State.wrs_wf _ _ _ hw

theorem State.leaveWarp_wf {wk uid : Nat} : (s.leaveWarp wk uid).wf = true := by
  unfold State.leaveWarp
  grind only [State.wf_eq]

theorem State.arrive_wf {wk uid : Nat} : (s.arrive wk uid).wf = true := hw

theorem State.park_wf {e : Env} {uid : Nat} {wt : Wait} : (s.park e uid wt).wf = true := State.leaveWarp_wf (State.modThread_wf hw)

theorem State.transfer_wf {e : Env} {uid target : Nat} : (s.transfer e uid target).wf = true := State.leaveWarp_wf (State.modThread_wf hw)

theorem State.standNext_wf {e : Env} {uid size : Nat} : (s.standNext e uid size).wf = true := State.leaveWarp_wf (State.modThread_wf hw)

theorem State.closeSlot_wf {wk size : Nat} : (s.closeSlot wk size).wf = true := by
  unfold State.closeSlot
  split
  · exact hw
  · split
    · split
      · exact hw
      · exact foldl_wf _ (fun _ _ h => State.modThread_wf h) _ hw
    · exact hw

theorem State.requestCrew_wf {crew left : Nat} : (s.requestCrew crew left).wf = true := hw

theorem State.pshare_wf {cid : Nat} : (s.pshare cid).wf = true := by
  unfold State.pshare
  grind only [foldl_wf, State.requestCrew_wf]

theorem State.pshareAll_wf : s.pshareAll.wf = true := foldl_wf _ (fun _ _ h => State.pshare_wf h) _ hw

theorem State.takeTrap_wf {e : Env} {size subw uid : Nat} {tr : Trap} : (s.takeTrap e size subw uid tr).wf = true := by
  unfold State.takeTrap
  grind only [State.faultRecord_wf, State.killCrew_wf, State.leaveWarp_wf, State.modThread_wf]

theorem State.takeTraps_wf {e : Env} {size : Nat} {l : List (Nat × Trap)} : (s.takeTraps e size l).wf = true :=
  foldl_wf _ (fun _ _ h => State.takeTrap_wf h) _ hw

theorem State.holdTrap_wf {e : Env} {uid : Nat} {t : Thread} {tr : Trap} : (s.holdTrap e uid t tr).wf = true :=
  State.park_wf (State.modThread_wf hw)

theorem LaneRes.await_wf {r : LaneRes} (hr : r.wf = true) : (LaneRes.await s r).wf = true := by
  unfold LaneRes.await
  grind only [LaneRes.wf, State.awaitPages_wf]

omit hw in
theorem State.applyRes_wf {e : Env} {uid : Nat} {acc : State × List (Nat × Trap)} (_ : acc.1.wf = true) {r : LaneRes}
    (hr : r.wf = true) :
    (State.applyRes e uid acc r).1.wf = true := by
  unfold State.applyRes
  grind only [LaneRes.wf, State.arrive_wf, State.modThread_wf, State.park_wf, State.holdTrap_wf]

omit hw in
theorem runLane_wf {e : Env} {k : Chk} {f : State → Nat → Thread → LaneRes}
    (hf : ∀ s u t, s.wf = true → (f s u t).wf = true) {acc : State × List (Nat × Trap)} (hw : acc.1.wf = true) {uid : Nat} :
    (runLane e k f acc uid).1.wf = true := by
  unfold runLane
  grind only [LaneRes.wf, State.applyRes_wf, LaneRes.await_wf]

theorem State.passInactive_wf {e : Env} : (s.passInactive e).wf = true := by
  unfold State.passInactive
  grind only [State.wf_eq, foldl_wf]

omit hw in
theorem State.finish_wf {e : Env} {size : Nat} {r : State × List (Nat × Trap)} (hw : r.1.wf = true) :
    (State.finish e size r).wf = true := State.closeSlot_wf (State.takeTraps_wf hw)

theorem State.modLevel_wf {at_ : Nat × Nat} {f : Level → Level} : (s.modLevel at_ f).wf = true := State.modThread_wf hw

theorem State.pendActive_wf {uid pc n : Nat} : (s.pendActive uid pc n).wf = true := by
  unfold State.pendActive
  split <;> exact hw

theorem State.icDrop_wf {k : Nat} : (s.icDrop k).wf = true := hw

theorem State.putBar_wf {core b : Nat} {x : Bar} : (s.putBar core b x).wf = true := by
  unfold State.putBar
  grind only [State.wf_eq, State.wakeMonitors_wf, State.scrWrite_wf]

theorem State.stepBar_wf {core b : Nat} {f : Bar → Bar} : (s.stepBar core b f).wf = true := State.putBar_wf hw

theorem State.countSlot_wf {e : Env} : (s.countSlot e).wf = true := by
  unfold State.countSlot
  grind only [State.wf_eq, foldl_wf, State.count_wf, State.lanes_wf, State.pendActive_wf]

theorem State.begin_wf {e : Env} : (s.begin e).wf = true := by
  unfold State.begin
  split
  · exact State.passInactive_wf hw
  · exact State.passInactive_wf (State.countSlot_wf hw)

theorem State.runSlot_wf {e : Env} {size : Nat} {k : Chk} {f : State → Nat → Thread → LaneRes}
    (hf : ∀ s u t, s.wf = true → (f s u t).wf = true) : (s.runSlot e size k f).wf = true := by
  unfold State.runSlot
  exact State.finish_wf (foldl_fst_wf _ (fun _ _ hp => runLane_wf hf hp) _ (State.begin_wf hw))

theorem State.perLane_wf {size : Nat} {k : Env → Chk} {f : Env → State → Nat → Thread → LaneRes}
    (hf : ∀ e s u t, s.wf = true → (f e s u t).wf = true) : outcomeWf (s.perLane size k f) = true := by
  unfold State.perLane
  grind only [outcomeWf, State.runSlot_wf]

theorem checkLanes_wf {e : Env} {k : Chk} {us : List Nat} : (checkLanes e k s us).1.wf = true := by
  induction us generalizing s with
  | nil => exact hw
  | cons u us ih =>
    unfold checkLanes
    grind only [State.park_wf, State.holdTrap_wf]

theorem GroupRes.await_wf {r : GroupRes} (hr : r.wf = true) : (GroupRes.await s r).wf = true := by
  unfold GroupRes.await
  grind only [GroupRes.wf, State.awaitPages_wf]

theorem State.arriveAll_wf {wk : Nat} {us trapped : List Nat} : (s.arriveAll wk us trapped).wf = true :=
  foldl_wf _ (fun _ _ h => State.arrive_wf h) _ hw

theorem State.perGroup_wf {size : Nat} {k : Env → Chk} {f : Env → State → List (Nat × Thread) → GroupRes}
    (hf : ∀ e s l, s.wf = true → (f e s l).wf = true) : outcomeWf (s.perGroup size k f) = true := by
  unfold State.perGroup
  grind only [outcomeWf, GroupRes.wf, checkLanes_wf, State.begin_wf, GroupRes.await_wf, State.finish_wf, State.arriveAll_wf]

theorem State.newOp_wf {lanes : List Nat} {flag : Option Nat} {left : Nat} : (s.newOp lanes flag left).1.wf = true := hw

theorem State.watched_wf {s0 : State} (hw0 : s0.wf = true) {e : Env} {uid : Nat} {t : Thread} {as : List Access} :
    (s0.watched s e uid t as).wf = true := by
  unfold State.watched
  grind only [LaneRes.wf, State.modLevel_wf]

theorem State.setPail_wf {t : Thread} {l : List PailEntry} : (s.setPail t l).wf = true := hw

theorem State.restoreCheck_wf {uid : Nat} {c : Check} : (s.restoreCheck uid c).wf = true := by
  unfold State.restoreCheck
  split
  · exact hw
  · exact foldl_wf _ (fun _ _ h => State.wr_wf h _ _ _) _ hw

theorem State.landRegs_wf {uid number dst : Nat} {rs : List Reg} : (s.landRegs uid number dst rs).wf = true := by
  unfold State.landRegs
  split
  · exact hw
  · exact State.wrs_wf _ _ _ hw

theorem State.pushStore_wf {uid : Nat} {x : Store} : (s.pushStore uid x).wf = true := hw

theorem State.pailWatch_wf {x : Store} : (s.pailWatch x).wf = true := by
  unfold State.pailWatch
  split
  · exact hw
  · split <;> exact State.faultRecord_wf hw

theorem State.releasePail_wf {uid level : Nat} : (s.releasePail uid level).wf = true := by
  unfold State.releasePail
  split
  · exact hw
  · exact foldl_wf _ (fun _ _ h => State.pushStore_wf h) _ hw

omit hw in
theorem State.bbcWrite_wf {cid addr delta : Nat} (he : s.bbcWrite cid addr delta = some s') (hw : s.wf = true) : s'.wf = true := by
  unfold State.bbcWrite at he
  grind only [State.performWrite_wf]

omit hw in
theorem State.bbcEvict_wf {l : List BlockCount} {x : BlockCount × State} (he : s.bbcEvict l = some x) (hw : s.wf = true) : x.2.wf = true := by
  unfold State.bbcEvict at he
  obtain ⟨v, -, hv⟩ := List.exists_of_findSome?_eq_some he
  obtain ⟨s', hs', rfl⟩ := Option.map_eq_some_iff.mp hv
  exact State.bbcWrite_wf hs' hw

theorem State.bbcAdd_wf {core cid addr n : Nat} : (s.bbcAdd core cid addr n).wf = true := by
  unfold State.bbcAdd
  grind only [State.wf_eq, → State.bbcWrite_wf, → State.bbcEvict_wf]

theorem State.commitPend_wf {core quad cid : Nat} {p : Pending} : (s.commitPend core quad cid p).wf = true := by
  unfold State.commitPend
  grind only [foldl_wf, State.lanes_wf, State.bbcAdd_wf]

theorem State.commitRegion_wf {uid : Nat} : (s.commitRegion uid).wf = true := by
  unfold State.commitRegion
  split
  · exact hw
  · split
    · exact hw
    · exact State.commitPend_wf (State.releasePail_wf hw)

theorem State.laneBirth_wf {e : Env} {uid : Nat} {t : Thread} {kind : Nat} {o : BirthOps} :
    (s.laneBirth e uid t kind o).1.wf = true := by
  unfold State.laneBirth
  split
  · exact State.birth_wf (State.commitRegion_wf hw)
  · exact State.birth_wf hw

theorem State.bornResult_wf {e : Env} {uid : Nat} {t : Thread} {kind : Nat} {o : BirthOps} {put : State → Tag → State}
    (hput : ∀ s g, s.wf = true → (put s g).wf = true) : (s.bornResult e uid t kind o put).wf = true := by
  unfold State.bornResult
  grind only [LaneRes.wf, State.laneBirth_wf]

theorem State.dropMarker_wf {core seq : Nat} : (s.dropMarker core seq).wf = true := hw

theorem State.releaseTry_wf {uid scope : Nat} : (s.releaseTry uid scope).1.wf = true := by
  unfold State.releaseTry
  grind only [State.wf_eq, State.commitRegion_wf, State.dropMarker_wf]

theorem State.conflictUp_wf {fuel uid : Nat} : (s.conflictUp fuel uid).wf = true := by
  induction fuel generalizing s uid with
  | zero => exact hw
  | succ fuel ih =>
    unfold State.conflictUp
    grind only [State.modThread_wf]

theorem State.acquire_wf {uid : Nat} : (s.acquire uid).wf = true := by
  unfold State.acquire
  split
  · exact hw
  · exact State.conflictUp_wf (State.dropL1_wf hw)

theorem State.writeSave_wf {c : Context} {cid : Nat} {t : Thread} {seq : Nat} : (s.writeSave c cid t seq).wf = true := by
  unfold State.writeSave
  grind only [RecOut.wf, State.recWrite_wf]

theorem State.setTaken_wf {cid : Nat} {c : Context} {seq : Nat} : (s.setTaken cid c seq).wf = true := by
  unfold State.setTaken
  split
  · exact State.performWrite_wf hw _ _ _ _ _ _
  · exact hw

theorem State.startHandler_wf {c : Context} {uid : Nat} {t : Thread} {code seq : Nat} {tr : Trap} :
    (s.startHandler c uid t code seq tr).wf = true := State.wrs_wf _ _ _ hw

omit hw in
theorem State.deliver_wf {uid seq : Nat} {tr : Trap} (he : s.deliver uid seq tr = some s') (hw : s.wf = true) : s'.wf = true := by
  unfold State.deliver at he
  split at he
  · cases he
  · split at he
    · cases he
    · grind only [RecOut.wf, State.commitRegion_wf, State.writeSave_wf, State.endContext_wf, State.log_wf, State.setTaken_wf,
      State.startHandler_wf]

omit hw in
theorem State.returnFrom_wf {e : Env} {uid : Nat} {t : Thread} (he : s.returnFrom e uid t = some s')
    (hw : s.wf = true) : s'.wf = true := by
  unfold State.returnFrom at he
  grind only [State.killCrew_wf, State.wrs_wf, State.leaveWarp_wf, State.modThread_wf]

/-! ## Results and places -/

theorem State.putResult_wf {e : Env} {uid : Nat} {t : Thread} {r : Result} : (s.putResult e uid t r).wf = true := by
  unfold State.putResult
  grind only [LaneRes.wf, State.setRegs_wf, State.bornResult_wf]

theorem State.place_wf {e : Env} {sp width need a : Nat} : (s.place e sp width need a).1.wf = true := by
  unfold State.place
  grind only [State.translate_wf]

/-! ## Integer instructions -/

theorem arith_wf {op : Nat} {f : FVdab} : outcomeWf (arith op f s) = true := State.perLane_wf hw fun _ _ _ _ hs => State.putResult_wf hs

@[simp] theorem execIadd_wf {f : FVdab} : outcomeWf (execIadd f s) = true := arith_wf hw

@[simp] theorem execIsub_wf {f : FVdab} : outcomeWf (execIsub f s) = true := arith_wf hw

@[simp] theorem execImul_wf {f : FVdab} : outcomeWf (execImul f s) = true := arith_wf hw

@[simp] theorem execImulh_wf {f : FVdab} : outcomeWf (execImulh f s) = true := arith_wf hw

@[simp] theorem execIdiv_wf {f : FVdab} : outcomeWf (execIdiv f s) = true := arith_wf hw

@[simp] theorem execIrem_wf {f : FVdab} : outcomeWf (execIrem f s) = true := arith_wf hw

@[simp] theorem execImin_wf {f : FVdab} : outcomeWf (execImin f s) = true := arith_wf hw

@[simp] theorem execImax_wf {f : FVdab} : outcomeWf (execImax f s) = true := arith_wf hw

theorem logic_wf {op : Nat} {f : FVdab} : outcomeWf (logic op f s) = true := State.perLane_wf hw fun _ _ _ _ hs => State.putResult_wf hs

@[simp] theorem execAnd_wf {f : FVdab} : outcomeWf (execAnd f s) = true := logic_wf hw

@[simp] theorem execOr_wf {f : FVdab} : outcomeWf (execOr f s) = true := logic_wf hw

@[simp] theorem execXor_wf {f : FVdab} : outcomeWf (execXor f s) = true := logic_wf hw

theorem shift_wf {op : Nat} {f : FVdab} : outcomeWf (shift op f s) = true := State.perLane_wf hw fun _ _ _ _ hs => State.putResult_wf hs

@[simp] theorem execShl_wf {f : FVdab} : outcomeWf (execShl f s) = true := shift_wf hw

@[simp] theorem execShr_wf {f : FVdab} : outcomeWf (execShr f s) = true := shift_wf hw

@[simp] theorem execSar_wf {f : FVdab} : outcomeWf (execSar f s) = true := shift_wf hw

@[simp] theorem execImad_wf {f : FR4} : outcomeWf (execImad f s) = true := State.perLane_wf hw fun _ _ _ _ hs => State.putResult_wf hs

@[simp] theorem execSel_wf {f : FSel} : outcomeWf (execSel f s) = true := State.perLane_wf hw fun _ _ _ _ hs => State.putResult_wf hs

@[simp] theorem execBfi_wf {f : FBfi} : outcomeWf (execBfi f s) = true := State.perLane_wf hw fun _ _ _ _ hs => State.putResult_wf hs

@[simp] theorem execBfx_wf {f : FBfx} : outcomeWf (execBfx f s) = true := State.perLane_wf hw fun _ _ _ _ hs => State.putResult_wf hs

@[simp] theorem execIaddi_wf {f : FImm} : outcomeWf (execIaddi f s) = true := State.perLane_wf hw fun _ _ _ _ hs => State.putResult_wf hs

theorem logicImm_wf {op : Nat} {f : FImm} : outcomeWf (logicImm op f s) = true :=
  State.perLane_wf hw fun _ _ _ _ hs => State.putResult_wf hs

@[simp] theorem execAndi_wf {f : FImm} : outcomeWf (execAndi f s) = true := logicImm_wf hw

@[simp] theorem execOri_wf {f : FImm} : outcomeWf (execOri f s) = true := logicImm_wf hw

@[simp] theorem execXori_wf {f : FImm} : outcomeWf (execXori f s) = true := logicImm_wf hw

theorem State.setPred_wf {uid : Nat} {p : PReg} {b : Bool} : (s.setPred uid p b).wf = true := State.modThread_wf hw

@[simp] theorem execIcmpi_wf {f : FCmpI} : outcomeWf (execIcmpi f s) = true := State.perLane_wf hw fun _ _ _ _ hs => State.setPred_wf hs

theorem State.putOwn_wf {e : Env} {t : Thread} {d : Nat} {v : Word} : (s.putOwn e t d v).wf = true := State.setReg_wf hw

@[simp] theorem execMovi_wf {f : FMov} : outcomeWf (execMovi f s) = true := State.perLane_wf hw fun _ _ _ _ hs => State.putOwn_wf hs

@[simp] theorem execMovhi_wf {f : FMov} : outcomeWf (execMovhi f s) = true := State.perLane_wf hw fun _ _ _ _ hs => State.putOwn_wf hs

@[simp] theorem execIcmp_wf {f : FICmp} : outcomeWf (execIcmp f s) = true := State.perLane_wf hw fun _ _ _ _ hs => State.setPred_wf hs

theorem predLogic_wf {op : Nat} {f : FPred} : outcomeWf (predLogic op f s) = true :=
  State.perLane_wf hw fun _ _ _ _ hs => State.setPred_wf hs

@[simp] theorem execPand_wf {f : FPred} : outcomeWf (execPand f s) = true := predLogic_wf hw

@[simp] theorem execPor_wf {f : FPred} : outcomeWf (execPor f s) = true := predLogic_wf hw

@[simp] theorem execPxor_wf {f : FPred} : outcomeWf (execPxor f s) = true := predLogic_wf hw

@[simp] theorem execPnot_wf {f : FPnot} : outcomeWf (execPnot f s) = true := State.perLane_wf hw fun _ _ _ _ hs => State.setPred_wf hs

theorem unary_wf {wd : Bool} {f : FWda} {g : Nat → Nat → Nat} {kind : Thread → Nat → Nat → Nat} :
    outcomeWf (unary wd f g kind s) = true := State.perLane_wf hw fun _ _ _ _ hs => State.putResult_wf hs

@[simp] theorem execIabs_wf {f : FWda} : outcomeWf (execIabs f s) = true := unary_wf hw

@[simp] theorem execClz_wf {f : FWda} : outcomeWf (execClz f s) = true := unary_wf hw

@[simp] theorem execPopc_wf {f : FWda} : outcomeWf (execPopc f s) = true := unary_wf hw

@[simp] theorem execBrev_wf {f : FWda} : outcomeWf (execBrev f s) = true := unary_wf hw

@[simp] theorem execMov_wf {f : FWda} : outcomeWf (execMov f s) = true := unary_wf hw

@[simp] theorem execLea_wf {f : Fdab} : outcomeWf (execLea f s) = true := State.perLane_wf hw fun _ _ _ _ hs => State.putResult_wf hs

/-! ## Floating-point instructions -/

theorem floatArith_wf {op : Nat} {f : Fdab} : outcomeWf (floatArith op f s) = true :=
  State.perLane_wf hw fun _ _ _ _ hs => State.putResult_wf hs

@[simp] theorem execFadd_wf {f : Fdab} : outcomeWf (execFadd f s) = true := floatArith_wf hw

@[simp] theorem execFmul_wf {f : Fdab} : outcomeWf (execFmul f s) = true := floatArith_wf hw

@[simp] theorem execFmin_wf {f : Fdab} : outcomeWf (execFmin f s) = true := State.perLane_wf hw fun _ _ _ _ hs => State.putResult_wf hs

@[simp] theorem execFmax_wf {f : Fdab} : outcomeWf (execFmax f s) = true := State.perLane_wf hw fun _ _ _ _ hs => State.putResult_wf hs

theorem approxSlot_wf {op : Nat} {f : Fda} : outcomeWf (approxSlot op f s) = true :=
  State.perLane_wf hw fun _ _ _ _ hs => State.putResult_wf hs

@[simp] theorem execFrcp_wf {f : Fda} : outcomeWf (execFrcp f s) = true := approxSlot_wf hw

@[simp] theorem execFrsq_wf {f : Fda} : outcomeWf (execFrsq f s) = true := approxSlot_wf hw

@[simp] theorem execFexp2_wf {f : Fda} : outcomeWf (execFexp2 f s) = true := approxSlot_wf hw

@[simp] theorem execFlog2_wf {f : Fda} : outcomeWf (execFlog2 f s) = true := approxSlot_wf hw

@[simp] theorem execFsin_wf {f : Fda} : outcomeWf (execFsin f s) = true := approxSlot_wf hw

@[simp] theorem execFcos_wf {f : Fda} : outcomeWf (execFcos f s) = true := approxSlot_wf hw

@[simp] theorem execFclass_wf {f : Fda} : outcomeWf (execFclass f s) = true := State.perLane_wf hw fun _ _ _ _ hs => State.putResult_wf hs

@[simp] theorem execFcmp_wf {f : FFCmp} : outcomeWf (execFcmp f s) = true := State.perLane_wf hw fun _ _ _ _ hs => State.setPred_wf hs

theorem packedSlot_wf {op : Nat} {f : FHdab} : outcomeWf (packedSlot op f s) = true :=
  State.perLane_wf hw fun _ _ _ _ hs => State.putResult_wf hs

@[simp] theorem execFadd2_wf {f : FHdab} : outcomeWf (execFadd2 f s) = true := packedSlot_wf hw

@[simp] theorem execFmul2_wf {f : FHdab} : outcomeWf (execFmul2 f s) = true := packedSlot_wf hw

@[simp] theorem execFfma_wf {f : FR4} : outcomeWf (execFfma f s) = true := State.perLane_wf hw fun _ _ _ _ hs => State.putResult_wf hs

@[simp] theorem execFma2_wf {f : FFma2} : outcomeWf (execFma2 f s) = true := State.perLane_wf hw fun _ _ _ _ hs => State.putResult_wf hs

@[simp] theorem execFdot2_wf {f : FHdab} : outcomeWf (execFdot2 f s) = true := State.perLane_wf hw fun _ _ _ _ hs => State.putResult_wf hs

@[simp] theorem execFdot2E4m3_wf {f : Fdab} : outcomeWf (execFdot2E4m3 f s) = true := by
  unfold execFdot2E4m3
  grind only [LaneRes.wf, State.perLane_wf, State.putResult_wf]

@[simp] theorem execFcvt_wf {f : FCvt} : outcomeWf (execFcvt f s) = true := State.perLane_wf hw fun _ _ _ _ hs => State.putResult_wf hs

omit hw in
theorem quantReg_wf {e : Env} {uid d w : Nat} {plain : Tag} {acc : State × Option Tag} (hw : acc.1.wf = true) {i : Nat}
    {els : List (Narrowed × Src)} :
    (quantReg e uid d w plain acc i els).1.wf = true := by
  unfold quantReg
  split
  · exact hw
  · split
    · exact State.setReg_wf hw
    · exact State.setReg_wf (State.laneBirth_wf hw)

@[simp] theorem execQuant_wf {f : FQuant} : outcomeWf (execQuant f s) = true := by
  unfold execQuant
  refine State.perLane_wf hw fun e s u t hs => ?_
  extract_lets srcs q births plain gs r s1
  have hr : r.1.wf = true := by
    refine foldl_fst_wf _ (fun p x hp => ?_) _ hs
    exact quantReg_wf hp
  clear_value r
  grind only [LaneRes.wf, State.setReg_wf]

/-! ## Cross-lane instructions -/

theorem shuffle_wf {c : Chk} {d a : VReg} {src : Env → State → Member → Option Nat} : outcomeWf (shuffle c d a src s) = true := by
  unfold shuffle
  grind only [foldl_wf, GroupRes.wf, State.perGroup_wf, State.setReg_wf]

@[simp] theorem execShfl_wf {f : FVdab} : outcomeWf (execShfl f s) = true := shuffle_wf hw

@[simp] theorem execRot_wf {f : Fdab} : outcomeWf (execRot f s) = true := shuffle_wf hw

@[simp] theorem execVote_wf {f : FVote} : outcomeWf (execVote f s) = true := by
  unfold execVote
  grind only [foldl_wf, GroupRes.wf, State.perGroup_wf, State.setPred_wf, State.putOwn_wf]

@[simp] theorem execPopcP_wf {d : VReg} {p : PReg} : outcomeWf (execPopcP d p s) = true := by
  unfold execPopcP
  grind only [foldl_wf, GroupRes.wf, State.perGroup_wf, State.putOwn_wf]

theorem matchSlot_wf {wide : Bool} {f : FVda} : outcomeWf (matchSlot wide f s) = true := by
  unfold matchSlot
  grind only [foldl_wf, GroupRes.wf, State.perGroup_wf, State.putOwn_wf]

@[simp] theorem execMatchLane_wf {f : FVda} : outcomeWf (execMatchLane f s) = true := matchSlot_wf hw

@[simp] theorem execMatchLane64_wf {f : FVda} : outcomeWf (execMatchLane64 f s) = true := matchSlot_wf hw

theorem reduxRun_wf {e : Env} {f : FRedux} {s0 : State} {r : Option Running} {ms : List Member} :
    (reduxRun e f s0 s r ms).1.wf = true := by
  induction ms generalizing s r with
  | nil => cases r <;> exact hw
  | cons m ms ih =>
    cases r with
    | none => exact ih hw
    | some r =>
      unfold reduxRun
      grind only [State.laneBirth_wf]

theorem reduxWrite_wf {e : Env} {f : FRedux} {rs : List (Member × Running)} : (reduxWrite e f s rs).wf = true :=
  foldl_wf _ (fun _ _ h => State.setReg_wf h) _ hw

@[simp] theorem execRedux_wf {f : FRedux} : outcomeWf (execRedux f s) = true := by
  unfold execRedux
  refine State.perGroup_wf hw fun e s0 l hs => ?_
  extract_lets g halves r
  have hr : r.1.wf = true := by
    refine foldl_fst_wf _ (fun p h hp => ?_) halves hs
    dsimp only
    exact reduxWrite_wf (reduxRun_wf hp)
  exact hr

/-! ## Fills, formation, issue and the passing of time -/

theorem State.trapStanding_wf {uid ws pc : Nat} {insn : Word} {subw : Nat} {tr : Trap} :
    (s.trapStanding uid ws pc insn subw tr).wf = true := by
  unfold State.trapStanding
  split
  · exact hw
  · split
    · exact hw
    · split
      · exact State.killCrew_wf hw
      · split
        · exact hw
        · exact State.faultRecord_wf hw

theorem State.fetchClause_wf {core cid : Nat} {c : Context} {pc : Nat} : (s.fetchClause core cid c pc).1.wf = true := by
  unfold State.fetchClause
  grind only [State.translate_wf]

theorem State.icPut_wf {core cid pc : Nat} {ws : List Word} : (s.icPut core cid pc ws).wf = true := by
  unfold State.icPut
  grind only [State.wf_eq, State.icDrop_wf]

@[simp] theorem execIcacheFill_wf {core ctx addr : Nat} : outcomeWf (execIcacheFill core ctx addr s) = true := by
  unfold execIcacheFill
  grind only [foldl_wf, outcomeWf, State.count_wf, State.fetchClause_wf, State.icPut_wf, State.trapStanding_wf]

theorem State.stampQuad_wf {core quad : Nat} : (s.stampQuad core quad).wf = true := hw

@[simp] theorem execWarpFormation_wf {core quad : Nat} : outcomeWf (execWarpFormation core quad s) = true := by
  unfold execWarpFormation
  grind only [State.wf_eq, foldl_wf, outcomeWf, State.stampQuad_wf, State.trapStanding_wf, State.modThread_wf]

theorem State.issue_wf : s.issue.wf = true := by
  unfold State.issue
  grind only [State.wf_eq, LaneRes.wf, Issue.wf, State.runSlot_wf]

theorem State.latch_wf {tick : Nat} : (s.latch tick).wf = true := by
  unfold State.latch
  extract_lets n s1 bins
  have hs1 : s1.wf = true := by
    refine foldl_wf _ (fun s k h => ?_) trafficKeys hw
    exact State.count_wf h k _
  clear_value s1
  obtain ⟨h1, hrest⟩ := s1.wf_iff.mp hs1
  exact (State.wf_iff _).mpr ⟨Memory.wf_foldl_writeCells _ _ bins h1, hrest⟩

theorem State.latchDue_wf {ticks : Nat} : (s.latchDue ticks).wf = true := by
  unfold State.latchDue
  split
  · split
    · exact State.latch_wf hw
    · exact hw
  · exact hw

theorem State.passTime_wf {cycles ticks : Nat} : (s.passTime cycles ticks).wf = true := by
  unfold State.passTime
  grind only [State.wf_eq, foldl_wf, State.latchDue_wf, State.count_wf]

/-! ## Collectives between devices -/

theorem State.queueLanding_wf {i : Nat} {p : Posted} {g : Nat} : (s.queueLanding i p g).wf = true := by
  unfold State.queueLanding
  grind only [State.wf_eq]

theorem State.clearFires_wf {i c : Nat} : (s.clearFires i c).wf = true := by
  unfold State.clearFires
  split
  · exact hw
  · exact foldl_wf _ (fun _ _ h => State.opDone_wf h) _ hw

theorem State.failChunk_wf {i c code : Nat} : (s.failChunk i c code).wf = true := by
  unfold State.failChunk
  grind only [State.wf_eq, State.clearFires_wf]

theorem State.failHere_wf {i c code : Nat} : (s.failHere i c code).wf = true := by
  unfold State.failHere
  split
  · exact hw
  · split
    · exact hw
    · exact State.sendFail_wf (State.failChunk_wf hw)

theorem State.failAllChunks_wf {i code : Nat} : (s.failAllChunks i code).wf = true := by
  unfold State.failAllChunks
  split
  · exact hw
  · exact foldl_wf _ (fun _ _ h => State.failChunk_wf h) _ hw

theorem State.unbind_wf {p : Posted} : (s.unbind p).wf = true := hw

theorem State.failEntry_wf {i code : Nat} : (s.failEntry i code).wf = true := by
  unfold State.failEntry
  grind only [State.wf_eq, State.failAllChunks_wf, State.unbind_wf]

theorem State.performResult_wf {cid va : Nat} {h : Hit} {data : List (Option Byte)} {g : Tag} :
    (s.performResult cid va h data g).wf = true := by
  unfold State.performResult
  split
  · exact State.setTagWord_wf (State.performMasked_wf hw _ _ _ _ _ _) _ _
  · exact State.performMasked_wf hw _ _ _ _ _ _

omit hw in
theorem State.reduceGran_wf {i mask : Nat} {terms : List (Nat × Nat)} {g : Nat}
    (he : s.reduceGran i mask terms g = some s') (hw : s.wf = true) : s'.wf = true := by
  unfold State.reduceGran at he
  grind only [State.wf_eq, State.performResult_wf]

omit hw in
theorem State.reduceRun_wf {i mask : Nat} {terms : List (Nat × Nat)} {gs : List Nat}
    (he : s.reduceRun i mask terms gs = some s') (hw : s.wf = true) : s'.wf = true := by
  induction gs generalizing s with
  | nil => simp_all [State.reduceRun]
  | cons g gs ih =>
    unfold State.reduceRun at he
    grind only [→ State.reduceGran_wf, = Option.bind_eq_some_iff]

theorem State.sendChunk_wf {i c : Nat} : (s.sendChunk i c).wf = true := by
  unfold State.sendChunk
  split
  · exact hw
  · split
    · exact hw
    · split
      · grind only [State.wf_eq, foldl_wf, State.failHere_wf, → State.reduceRun_wf, State.clearFires_wf, State.queueLanding_wf]
      · exact hw

theorem State.sendFired_wf {i : Nat} : (s.sendFired i).wf = true := by
  unfold State.sendFired
  split
  · exact hw
  · exact foldl_wf _ (fun _ _ h => State.sendChunk_wf h) _ hw

theorem State.fireChunk_wf {i c : Nat} {op : Option Nat} : (s.fireChunk i c op).wf = true := by
  unfold State.fireChunk
  grind only [State.wf_eq, State.opDone_wf, State.sendChunk_wf]

theorem State.modCoord_wf {ctx cid : Nat} {f : Coord → Coord} : (s.modCoord ctx cid f).wf = true := by
  unfold State.modCoord
  split <;> exact hw

theorem State.endCoord_wf {ctx cid : Nat} : (s.endCoord ctx cid).wf = true := by
  unfold State.endCoord
  split <;> exact hw

theorem State.recvAck_wf {i : Nat} : (s.recvAck i).wf = true := hw

theorem State.recvWithdraw_wf {ctx cid rank : Nat} : (s.recvWithdraw ctx cid rank).wf = true := by
  unfold State.recvWithdraw
  grind only [State.modCoord_wf, State.recvAck_wf, State.send_wf]

theorem State.withdrawEntry_wf {i : Nat} {p : Posted} : (s.withdrawEntry i p).wf = true := by
  unfold State.withdrawEntry
  grind only [State.wf_eq, State.recvWithdraw_wf, State.send_wf]

theorem State.yieldHigher_wf : s.yieldHigher.wf = true := by
  unfold State.yieldHigher
  grind only [foldl_wf, State.withdrawEntry_wf]

theorem State.recvTicket_wf {i v : Nat} : (s.recvTicket i v).wf = true := State.yieldHigher_wf hw

theorem State.recvGo_wf {i : Nat} : (s.recvGo i).wf = true := by
  unfold State.recvGo
  grind only [State.wf_eq, foldl_wf, State.failHere_wf, State.sendFired_wf]

theorem State.recvReady_wf {ctx cid rank : Nat} : (s.recvReady ctx cid rank).wf = true := by
  unfold State.recvReady
  grind only [State.modCoord_wf, State.sendOthers_wf, State.endCoord_wf, State.recvGo_wf]

theorem State.startEntry_wf {i : Nat} {p : Posted} : (s.startEntry i p).wf = true := by
  unfold State.startEntry
  grind only [State.wf_eq, State.recvReady_wf, State.send_wf]

theorem State.allPosted_wf {ctx cid : Nat} {c : Coord} : (s.allPosted ctx cid c).wf = true := by
  unfold State.allPosted
  grind only [State.sendOthers_wf, State.endCoord_wf, State.failEntry_wf, State.tick_wf, State.count_wf, State.modCoord_wf, State.recvTicket_wf]

theorem State.recvPost_wf {ctx cid rank : Nat} {members fields : List Nat} : (s.recvPost ctx cid rank members fields).wf = true := by
  unfold State.recvPost
  grind only [State.wf_eq, State.modCoord_wf, State.allPosted_wf]

theorem State.postEntry_wf {p : Posted} {fireall : Bool} : (s.postEntry p fireall).wf = true := by
  unfold State.postEntry
  grind only [State.wf_eq, foldl_wf, State.fireChunk_wf, State.recvPost_wf, State.send_wf]

/-! ## Barriers of a crew and the end of threads -/

theorem State.startRegs_wf {t : Thread} {rs : List Reg} : (s.startRegs t rs).wf = true := State.wrs_wf _ _ _ hw

theorem State.addThread_wf {t : Thread} : (s.addThread t).1.wf = true := hw

theorem State.meetTest_wf {crew token : Nat} : (s.meetTest crew token).wf = true := by
  unfold State.meetTest
  split
  · exact hw
  · split
    · exact hw
    · split
      · exact hw
      · split <;> exact hw

theorem State.modMeet_wf {crew token : Nat} {f : MeetObj → MeetObj} : (s.modMeet crew token f).wf = true := hw

theorem State.meetLeave_wf {crew uid token : Nat} : (s.meetLeave crew uid token).wf = true := State.meetTest_wf (State.modMeet_wf hw)

omit hw in
theorem State.meetArm_wf {uid m token : Nat} (he : s.meetArm uid m token = some s') (hw : s.wf = true) : s'.wf = true := by
  unfold State.meetArm at he
  grind only [State.wf_eq, State.meetLeave_wf, State.modThread_wf, State.modMeet_wf]

theorem State.crewBarTest_wf {crew : Nat} : (s.crewBarTest crew).wf = true := by
  unfold State.crewBarTest
  grind only [State.wf_eq]

theorem State.crewBarLeave_wf {crew uid : Nat} : (s.crewBarLeave crew uid).wf = true := by
  unfold State.crewBarLeave
  grind only [State.wf_eq, State.crewBarTest_wf]

theorem State.logMisfire_wf {c : Crew} {status cid chunk : Nat} : (s.logMisfire c status cid chunk).wf = true := State.log_wf hw

theorem State.crewFire_wf {c : Crew} {l : Launch} : (s.crewFire c l).wf = true := by
  unfold State.crewFire
  grind only [State.wf_eq, State.logMisfire_wf, State.fireChunk_wf]

theorem State.finishCrew_wf {crew : Nat} {c : Crew} : (s.finishCrew crew c).wf = true := by
  unfold State.finishCrew
  grind only [State.wf_eq, foldl_wf, State.crewFire_wf, State.log_wf, State.freeFinished_wf]

theorem State.settleCrew_wf {crew : Nat} : (s.settleCrew crew).wf = true := by
  unfold State.settleCrew
  grind only [State.wf_eq, State.finishCrew_wf, State.dropMarker_wf]

theorem State.settleCore_wf {core : Nat} : (s.settleCore core).wf = true := foldl_wf _ (fun _ _ h => State.settleCrew_wf h) _ hw

theorem State.dropLoads_wf {uid mark : Nat} : (s.dropLoads uid mark).wf = true := foldl_wf _ (fun _ _ h => State.opDone_wf h) _ hw

theorem State.unwarp_wf {uid : Nat} : (s.unwarp uid).wf = true := hw

theorem State.endThread_wf {uid : Nat} : (s.endThread uid).wf = true := by
  unfold State.endThread
  grind only [State.wf_eq, foldl_wf, State.unwarp_wf, State.dropLoads_wf, State.meetLeave_wf, State.modThread_wf, State.crewBarLeave_wf,
    State.settleCrew_wf]

/-! ## Forkable calls -/

omit hw in
theorem State.noteLoad_wf {uid : Nat} {gs : List Loc} (he : s.noteLoad uid gs = some s') (hw : s.wf = true) : s'.wf = true := by
  unfold State.noteLoad at he
  grind only [foldl_wf, State.modLevel_wf]

theorem State.noteWrite_wf {gs : List Loc} {fuel uid : Nat} : (s.noteWrite gs fuel uid).wf = true := by
  induction fuel generalizing s uid with
  | zero => exact hw
  | succ fuel ih =>
    unfold State.noteWrite
    grind only [State.modThread_wf]

theorem State.train_wf {core cid site target : Nat} {rs : List Reg} : (s.train core cid site target rs).wf = true := hw

theorem State.goto_wf {e : Env} {uid target : Nat} {g : Tag} : (s.goto_ e uid target g).wf = true := by
  unfold State.goto_
  split
  · exact hw
  · exact State.transfer_wf hw

theorem State.callTo_wf {e : Env} {uid : Nat} {t : Thread} {target : Nat} {g : Tag} : (s.callTo e uid t target g).wf = true := by
  unfold State.callTo
  split
  · exact hw
  · exact State.transfer_wf (State.setRegs_wf hw)

theorem State.forkTo_wf {e : Env} {uid : Nat} {t : Thread} {target : Nat} {plain : Bool} {g : Tag} :
    (s.forkTo e uid t target plain g).wf = true := by
  unfold State.forkTo
  grind only [LaneRes.wf, State.count_wf, State.modThread_wf, State.callTo_wf, State.addThread_wf, State.leaveWarp_wf]

@[simp] theorem execCallf_wf {off : BitVec 26} : outcomeWf (execCallf off s) = true :=
  State.perLane_wf hw fun _ _ _ _ hs => State.forkTo_wf hs

theorem State.indirect_wf {t : Thread} {a : VReg} {dest : Nat → Tag → LaneRes}
    (hdest : ∀ n g, (dest n g).wf = true) : (s.indirect t a dest).wf = true := by
  unfold State.indirect
  grind only [LaneRes.wf]

@[simp] theorem execCallxF_wf {a : VReg} : outcomeWf (execCallxF a s) = true := by
  unfold execCallxF
  grind only [State.perLane_wf, State.indirect_wf, State.forkTo_wf]

@[simp] theorem execForkStart_wf {uid : Nat} : outcomeWf (execForkStart uid s) = true := by
  unfold execForkStart
  grind only [outcomeWf, State.count_wf, State.startRegs_wf, State.modThread_wf, State.setRegs_wf, State.dropL1_wf]

theorem State.takeHeld_wf {uid : Nat} {t : Thread} {h : Held} : (s.takeHeld uid t h).wf = true := by
  unfold State.takeHeld
  split
  · exact State.killCrew_wf (State.modThread_wf hw)
  · split
    · exact hw
    · exact State.faultRecord_wf (State.modThread_wf hw)

theorem State.wakeResolved_wf {uid : Nat} : (s.wakeResolved uid).wf = true := by
  unfold State.wakeResolved
  split
  · exact hw
  · split
    · exact hw
    · split
      · exact hw
      · split
        · exact hw
        · split
          · exact hw
          · exact State.takeHeld_wf hw

theorem State.commitFork_wf {home : Nat} {h : Thread} {l : Level} : (s.commitFork home h l).wf = true := by
  unfold State.commitFork
  grind only [State.wf_eq, foldl_wf, State.releasePail_wf, State.modThread_wf, State.commitPend_wf, State.faultRecord_wf, State.count_wf,
    State.wakeResolved_wf]

theorem State.squashFork_wf {home : Nat} {h : Thread} {l : Level} : (s.squashFork home h l).wf = true := by
  unfold State.squashFork
  grind only [State.wf_eq, foldl_wf, State.squashPend_wf, State.discardThread_wf, State.dropLoads_wf, State.restoreCheck_wf, State.unwarp_wf,
    State.modThread_wf, State.count_wf]

theorem State.deliverRets_wf {home : Nat} {rs : List Reg} : (s.deliverRets home rs).wf = true := by
  unfold State.deliverRets
  split
  · exact hw
  · exact State.setRegs_wf hw

theorem State.resolve_wf {uid : Nat} {t : Thread} {home : Nat} : (s.resolve uid t home).wf = true := by
  unfold State.resolve
  grind only [State.train_wf, State.endThread_wf, State.commitFork_wf, State.deliverRets_wf, State.squashFork_wf, State.modThread_wf]

theorem State.exitChain_wf {fuel uid : Nat} : (s.exitChain fuel uid).wf = true := by
  induction fuel generalizing s uid with
  | zero => exact hw
  | succ fuel ih =>
    unfold State.exitChain
    split
    · exact hw
    · split
      · exact State.endThread_wf hw
      · refine ih (State.endThread_wf ?_)
        grind only [State.squashFork_wf]

theorem State.retLane_wf {e : Env} {uid : Nat} {t : Thread} : (s.retLane e uid t).wf = true := by
  unfold State.retLane
  grind only [LaneRes.wf, State.commitRegion_wf, State.resolve_wf, State.train_wf, State.transfer_wf, State.modThread_wf]

@[simp] theorem execRet_wf : outcomeWf (execRet s) = true := State.perLane_wf hw fun _ _ _ _ hs => State.retLane_wf hs

/-! ## Control transfer and regions -/

@[simp] theorem execBra_wf {f : FBra} : outcomeWf (execBra f s) = true := by
  unfold execBra
  grind only [LaneRes.wf, State.perLane_wf, State.goto_wf]

@[simp] theorem execCall_wf {off : BitVec 26} : outcomeWf (execCall off s) = true :=
  State.perLane_wf hw fun _ _ _ _ hs => State.callTo_wf hs

@[simp] theorem execBrx_wf {a : VReg} : outcomeWf (execBrx a s) = true := by
  unfold execBrx
  grind only [State.perLane_wf, State.indirect_wf, State.goto_wf]

@[simp] theorem execCallx_wf {a : VReg} : outcomeWf (execCallx a s) = true := by
  unfold execCallx
  grind only [State.perLane_wf, State.indirect_wf, State.callTo_wf]

theorem State.exitLane_wf {uid : Nat} {t : Thread} : (s.exitLane uid t).wf = true := by
  unfold State.exitLane
  grind only [LaneRes.wf, State.commitRegion_wf, State.exitChain_wf]

@[simp] theorem execExit_wf : outcomeWf (execExit s) = true := State.perLane_wf hw fun _ _ _ _ hs => State.exitLane_wf hs

@[simp] theorem execEret_wf : outcomeWf (execEret s) = true := by
  unfold execEret
  grind only [LaneRes.wf, State.perLane_wf, → State.returnFrom_wf]

theorem State.yieldLane_wf {e : Env} {uid : Nat} {t : Thread} : (s.yieldLane e uid t).wf = true := by
  unfold State.yieldLane
  grind only [LaneRes.wf, State.modThread_wf, State.commitRegion_wf, State.releaseTry_wf, State.standNext_wf]

@[simp] theorem execYield_wf : outcomeWf (execYield s) = true := State.perLane_wf hw fun _ _ _ _ hs => State.yieldLane_wf hs

@[simp] theorem execTrap_wf {code : BitVec 16} : outcomeWf (execTrap code s) = true := State.perLane_wf hw fun _ _ _ _ hs => hs

@[simp] theorem execBrk_wf : outcomeWf (execBrk s) = true := State.perLane_wf hw fun _ _ _ _ hs => hs

theorem State.openRegion_wf {e : Env} {uid : Nat} : (s.openRegion e uid).wf = true := by
  unfold State.openRegion
  grind only [State.commitRegion_wf, State.modThread_wf]

@[simp] theorem execRegb_wf : outcomeWf (execRegb s) = true := State.perLane_wf hw fun _ _ _ _ hs => State.openRegion_wf hs

@[simp] theorem execRege_wf : outcomeWf (execRege s) = true := State.perLane_wf hw fun _ _ _ _ hs => State.commitRegion_wf hs

theorem State.prefetch_wf {e : Env} {pc : Nat} : (s.prefetch e pc).wf = true := by
  unfold State.prefetch
  grind only [State.fetchClause_wf, State.icPut_wf]

@[simp] theorem execIpref_wf {off : BitVec 23} : outcomeWf (execIpref off s) = true := by
  unfold execIpref
  grind only [GroupRes.wf, State.perGroup_wf, State.prefetch_wf]

theorem State.bbc_wf {e : Env} {l : List (Nat × Thread)} {addr : Nat} : (s.bbc e l addr).wf = true := by
  unfold State.bbc
  grind only [foldl_wf, State.bbcAdd_wf, State.modLevel_wf, State.modThread_wf]

@[simp] theorem execBbc_wf {n : BitVec 23} : outcomeWf (execBbc n s) = true := by
  unfold execBbc
  grind only [GroupRes.wf, State.perGroup_wf, State.bbc_wf, State.count_wf]

@[simp] theorem execWbase_wf {k : BitVec 4} : outcomeWf (execWbase k s) = true := by
  unfold execWbase
  grind only [LaneRes.wf, State.perLane_wf, State.modThread_wf]

/-! ## Loads and stores -/

theorem State.perLaneOp_wf {size : Nat} {k : Env → Chk} {fb : Bool} {f : Env → Nat → State → Nat → Thread → LaneRes}
    (hf : ∀ e op s u t, s.wf = true → (f e op s u t).wf = true) : outcomeWf (s.perLaneOp size k fb f) = true := by
  unfold State.perLaneOp
  grind only [State.wf_eq, outcomeWf, State.opDone_wf, State.runSlot_wf]

theorem State.joinOp_wf {op uid n : Nat} : (s.joinOp op uid n).wf = true := hw

theorem State.noteRemote_wf {crew sp a : Nat} : (s.noteRemote crew sp a).wf = true := by
  unfold State.noteRemote
  split <;> exact hw

theorem State.startLoad_wf {e : Env} {op uid : Nat} {t : Thread} {m : MemArgs} {p : Place} :
    (s.startLoad e op uid t m p).wf = true := hw

theorem State.readStep_wf {t : Thread} {i : Nat} {x : Load} : (s.readStep t i x).wf = true := by
  unfold State.readStep
  grind only [State.wf_eq, State.putLine_wf, State.dropCopy_wf, State.landRegs_wf, State.opDone_wf]

theorem State.wokenAcquire_wf {uid : Nat} {t : Thread} : (s.wokenAcquire uid t).wf = true := by
  unfold State.wokenAcquire
  split
  · exact State.acquire_wf hw
  · exact hw

theorem loadLane_wf {m : MemArgs} {e : Env} {op : Nat} {uid : Nat} {t : Thread} : (loadLane m e op s uid t).wf = true := by
  unfold loadLane
  extract_lets a n
  split
  · grind only [LaneRes.wf, State.place_wf]
  · next s1 p h =>
    have h1 : s1.wf = true := by grind only [State.place_wf]
    split
    · exact h1
    · split
      · exact h1
      · split
        · exact h1
        · split
          · exact h1
          · next s2 h2 =>
            have h2 : s2.wf = true := by grind only [→ State.noteLoad_wf]
            extract_lets s3 s4 as
            have h3 : s3.wf = true := State.noteRemote_wf (State.wokenAcquire_wf h2)
            have h4 : s4.wf = true := State.startLoad_wf h3
            clear_value s3 s4
            grind only [LaneRes.wf, State.watched_wf, State.readStep_wf]

@[simp] theorem execLd_wf {f : FMem} : outcomeWf (execLd f s) = true := State.perLaneOp_wf hw fun _ _ _ _ _ hs => loadLane_wf hs

@[simp] theorem execLdStrong_wf {f : FStrong} : outcomeWf (execLdStrong f s) = true :=
  State.perLaneOp_wf hw fun _ _ _ _ _ hs => loadLane_wf hs

@[simp] theorem execLdg_wf {f : FGather} : outcomeWf (execLdg f s) = true := State.perLaneOp_wf hw fun _ _ _ _ _ hs => loadLane_wf hs

@[simp] theorem execLoadReturn_wf {i : Nat} : outcomeWf (execLoadReturn i s) = true := by
  unfold execLoadReturn
  split
  · rfl
  · split
    · rfl
    · split
      · rfl
      · exact State.readStep_wf hw

theorem State.pailStore_wf {e : Env} {uid : Nat} {t : Thread} {level : Nat} {p : Place} {bs : List Byte}
    {g : Tag} {scope : Nat} :
    (s.pailStore e uid t level p bs g scope).wf = true := by
  unfold State.pailStore
  grind only [PailRes.wf, State.setPail_wf]

theorem State.putStore_wf {s0 : State} (hw0 : s0.wf = true) {e : Env} {uid : Nat} {t : Thread} {p : Place} {bs : List Byte}
    {g : Tag} {scope : Nat} {acc : List Access} {flag : Option Nat} : (s0.putStore s e uid t p bs g scope acc flag).wf = true := by
  unfold State.putStore
  grind only [LaneRes.wf, PailRes.wf, State.noteWrite_wf, State.newOp_wf, State.pushStore_wf, State.pailStore_wf, State.laneBirth_wf,
    State.watched_wf, State.faultRecord_wf]

theorem storeLane_wf {m : MemArgs} {fb : Bool} {e : Env} {uid : Nat} {t : Thread} : (storeLane m fb e s uid t).wf = true := by
  unfold storeLane
  grind only [LaneRes.wf, State.place_wf, State.putStore_wf, State.noteRemote_wf]

@[simp] theorem execSt_wf {f : FMem} : outcomeWf (execSt f s) = true := State.perLane_wf hw fun _ _ _ _ hs => storeLane_wf hs

@[simp] theorem execStStrong_wf {f : FStrong} : outcomeWf (execStStrong f s) = true := State.perLane_wf hw fun _ _ _ _ hs => storeLane_wf hs

theorem scatterLane_wf {m : MemArgs} {e : Env} {op : Nat} {uid : Nat} {t : Thread} : (scatterLane m e op s uid t).wf = true := by
  unfold scatterLane
  grind only [State.wf_eq, LaneRes.wf, State.place_wf, State.joinOp_wf, State.noteWrite_wf, State.noteRemote_wf, State.commitRegion_wf,
    State.watched_wf, State.pushStore_wf]

@[simp] theorem execStx_wf {f : FGather} : outcomeWf (execStx f s) = true := State.perLaneOp_wf hw fun _ _ _ _ _ hs => scatterLane_wf hs

theorem State.colourRange_wf {e : Env} {op uid : Nat} {t : Thread} {colour : Nat} {mark : Bool}
    {tag : Tag} {n a : Nat} :
    (s.colourRange e op uid t colour mark tag n a).wf = true := by
  induction n generalizing s a with
  | zero => exact hw
  | succ n ih =>
    unfold State.colourRange
    grind only [LaneRes.wf, State.translate_wf, State.commitRegion_wf, State.noteWrite_wf, State.joinOp_wf, State.pushStore_wf]

theorem colourLane_wf {f : FColor} {e : Env} {op : Nat} {uid : Nat} {t : Thread} : (colourLane f e op s uid t).wf = true := by
  unfold colourLane
  grind only [LaneRes.wf, State.colourRange_wf]

@[simp] theorem execColor_wf {f : FColor} : outcomeWf (execColor f s) = true := State.perLaneOp_wf hw fun _ _ _ _ _ hs => colourLane_wf hs

theorem State.prefLane_wf {e : Env} {t : Thread} {a : Nat} : (s.prefLane e t a).wf = true := by
  unfold State.prefLane
  grind only [State.translate_wf, State.putLine_wf]

@[simp] theorem execPref_wf {a : VReg} : outcomeWf (execPref a s) = true := State.perLane_wf hw fun _ _ _ _ hs => State.prefLane_wf hs

@[simp] theorem execCctl_wf : outcomeWf (execCctl s) = true := by
  unfold execCctl
  grind only [GroupRes.wf, State.perGroup_wf, State.dropL1_wf]

/-! ## Drains of the ordering machine -/

theorem State.barRetest_wf {l : Loc} : (s.barRetest l).wf = true := by
  unfold State.barRetest
  split
  · split
    · split
      · exact State.stepBar_wf hw
      · exact hw
    · exact hw
  · exact hw

theorem State.dropStore_wf {n : Nat} {x : Store} : (s.dropStore n x).wf = true := by
  unfold State.dropStore
  grind only [State.wf_eq, State.settleCore_wf, State.settleCrew_wf, State.opDone_wf]

theorem State.performColor_wf {x : Store} {c : Nat × Bool} : (s.performColor x c).wf = true := by
  unfold State.performColor
  grind only [State.setTagWord_wf, State.markDirty_wf]

theorem State.performStore_wf {x : Store} : (s.performStore x).wf = true := by
  unfold State.performStore
  split
  · exact State.performColor_wf hw
  · exact State.barRetest_wf (State.performMasked_wf hw _ _ _ _ _ _)

theorem State.reachDevice_wf {n : Nat} {x : Store} : (s.reachDevice n x).wf = true := by
  unfold State.reachDevice
  split
  · exact hw
  · exact State.dropStore_wf (State.performStore_wf hw)

theorem State.freeDrained_wf {uid : Nat} : (s.freeDrained uid).wf = true := by
  unfold State.freeDrained
  grind only [State.wf_eq, State.settleCrew_wf]

@[simp] theorem execStoreFifoDrain_wf {uid : Nat} : outcomeWf (execStoreFifoDrain uid s) = true := by
  unfold execStoreFifoDrain
  grind only [State.wf_eq, outcomeWf, State.modThread_wf, State.freeDrained_wf, State.pailWatch_wf, State.dropStore_wf, State.performStore_wf,
    State.dropLine_wf]

theorem State.dieFlag_wf {n : Nat} {x : Store} : (s.dieFlag n x).wf = true := by
  unfold State.dieFlag
  grind only [State.wf_eq, State.opDone_wf]

@[simp] theorem execCorePointDrain_wf {core i : Nat} : outcomeWf (execCorePointDrain core i s) = true := by
  unfold execCorePointDrain
  grind only [State.wf_eq, outcomeWf, State.dieFlag_wf]

@[simp] theorem execDiePointDrain_wf {die i : Nat} : outcomeWf (execDiePointDrain die i s) = true := by
  unfold execDiePointDrain
  grind only [State.wf_eq, outcomeWf, State.reachDevice_wf, State.dropCopy_wf]

@[simp] theorem execFabricPointPerform_wf {i : Nat} : outcomeWf (execFabricPointPerform i s) = true := by
  unfold execFabricPointPerform
  grind only [State.wf_eq, outcomeWf, State.dropStore_wf, State.performStore_wf]

@[simp] theorem execGatherWritePerform_wf {core i : Nat} : outcomeWf (execGatherWritePerform core i s) = true := by
  unfold execGatherWritePerform
  grind only [State.wf_eq, outcomeWf, State.reachDevice_wf]

@[simp] theorem execCopyGlobalPerform_wf {core i : Nat} : outcomeWf (execCopyGlobalPerform core i s) = true := by
  unfold execCopyGlobalPerform
  grind only [State.wf_eq, outcomeWf, State.reachDevice_wf]

@[simp] theorem execRemoteStorePerform_wf {core i : Nat} : outcomeWf (execRemoteStorePerform core i s) = true := by
  unfold execRemoteStorePerform
  grind only [State.wf_eq, outcomeWf, State.dropStore_wf, State.performStore_wf]

/-! ## Atomic operations -/

theorem atomFilter_wf {m : AtomArgs} {e : Env} {t : Thread} : (atomFilter m e s t).1.wf = true := by
  unfold atomFilter
  grind only [State.place_wf]

theorem atomFilterAll_wf {m : AtomArgs} {e : Env} {l : List (Nat × Thread)} : (atomFilterAll m e s l).1.wf = true := by
  induction l generalizing s with
  | nil => exact hw
  | cons x rest ih =>
    unfold atomFilterAll
    grind only [atomFilter_wf]

omit hw in
theorem Request.lane_wf {m : AtomArgs} {e : Env} {s0 : State} {r : Request} {x : Applied} (hr : r.s.wf = true) :
    (Request.lane m e s0 r x).s.wf = true := by
  unfold Request.lane
  grind only [State.birth_wf]

omit hw in
theorem Request.foldl_lane_wf {m : AtomArgs} {e : Env} {s0 : State} {l : List Applied} {r : Request} (hr : r.s.wf = true) :
    (l.foldl (Request.lane m e s0) r).s.wf = true :=
  List.foldlRecOn (motive := fun r : Request => r.s.wf = true) l _ hr fun _ hb _ _ => Request.lane_wf hb

omit hw in
theorem atomRequest_wf {m : AtomArgs} {e : Env} {s0 : State} {acc : State × List (Nat × Trap)} (hw : acc.1.wf = true) {l : List Applied} :
    (atomRequest m e s0 acc l).1.wf = true := by
  unfold atomRequest
  split
  · exact hw
  · grind only [foldl_wf, Request.foldl_lane_wf, State.performWrite_wf, State.barRetest_wf, State.dropLine_wf, State.setRegs_wf,
    State.noteWrite_wf]

theorem atomHeld_wf {m : AtomArgs} {e : Env} {l : List (Nat × Thread)} : (atomHeld m e s l).1.wf = true := by
  induction l generalizing s with
  | nil => exact hw
  | cons x rest ih =>
    unfold atomHeld
    grind only [State.place_wf]

theorem atomFirst_wf {m : AtomArgs} {e : Env} {ts : List (Nat × Trap)} {gone : List Nat}
    {l : List Applied} :
    (atomFirst m e s ts gone l).wf = true := by
  unfold atomFirst
  grind only [foldl_wf, GroupRes.wf, atomRequest_wf, State.modThread_wf]

theorem atomic_wf {m : AtomArgs} : outcomeWf (atomic m s) = true := by
  unfold atomic
  grind only [foldl_wf, GroupRes.wf, State.perGroup_wf, atomHeld_wf, atomFirst_wf, State.commitRegion_wf, atomFilterAll_wf,
    State.wokenAcquire_wf, State.park_wf]

@[simp] theorem execAtom_wf {f : FAtom} : outcomeWf (execAtom f s) = true := atomic_wf hw

@[simp] theorem execRed_wf {f : FRed} : outcomeWf (execRed f s) = true := atomic_wf hw

/-! ## Barrier objects, meets and waits -/

theorem State.once_wf {size : Nat} {k : Env → Chk} {f : Env → State → Nat → Thread → List Nat → LaneRes}
    (hf : ∀ e s u t group, s.wf = true → (f e s u t group).wf = true) : outcomeWf (s.once size k f) = true := by
  unfold State.once
  grind only [LaneRes.wf, GroupRes.wf, State.perGroup_wf, State.modThread_wf, State.park_wf]

theorem State.scrDrained_wf {uid : Nat} {t : Thread} : (s.scrDrained uid t).1.wf = true := by
  unfold State.scrDrained
  split
  · exact State.commitRegion_wf hw
  · exact hw

theorem State.initBar_wf {e : Env} {core b : Nat} {arv : Bool} {n : Nat} : (s.initBar e core b arv n).wf = true := by
  unfold State.initBar
  grind only [State.wf_eq, canonical_iff, State.stepBar_wf, SMap.wf_setD]

theorem barInit_wf {m : ObjArgs} {size : Nat} {arv : Bool} {n : Nat} : outcomeWf (barInit m size arv n s) = true := by
  unfold barInit
  grind only [LaneRes.wf, State.once_wf, State.scrDrained_wf, State.initBar_wf]

@[simp] theorem execBarinit_wf {f : FBarInit} : outcomeWf (execBarinit f s) = true := barInit_wf hw

@[simp] theorem execBarinitLong_wf {f : FBarInitL} : outcomeWf (execBarinitLong f s) = true := barInit_wf hw

@[simp] theorem execBarexp_wf {f : FObjReg} : outcomeWf (execBarexp f s) = true := by
  unfold execBarexp
  grind only [LaneRes.wf, State.once_wf, State.scrDrained_wf, State.stepBar_wf]

theorem State.remoteArrival_wf {launch g core b : Nat} : (s.remoteArrival launch g core b).wf = true := by
  unfold State.remoteArrival
  split <;> exact hw

theorem State.noteCame_wf {crew core b uid : Nat} : (s.noteCame crew core b uid).wf = true := by
  unfold State.noteCame
  split
  · exact hw
  · split <;> exact hw

theorem releaseAll_wf {scope : Nat} {us : List Nat} : (releaseAll scope s us).1.wf = true := by
  induction us generalizing s with
  | nil => exact hw
  | cons u us ih =>
    unfold releaseAll
    grind only [State.releaseTry_wf, State.modThread_wf]

theorem arriveLane_wf {m : ObjArgs} {e : Env} {uid : Nat} {t : Thread} {c b : Nat} : (arriveLane m e s uid t c b).1.wf = true := by
  unfold arriveLane
  grind only [State.remoteArrival_wf, State.noteRemote_wf, State.stepBar_wf, State.noteCame_wf]

theorem arriveLanes_wf {m : ObjArgs} {e : Env} {l : List (Nat × Thread)} : (arriveLanes m e s l).1.wf = true := by
  unfold arriveLanes
  refine foldl_fst_wf _ (fun p x hp => ?_) l hw
  grind only [arriveLane_wf]

@[simp] theorem execBararv_wf {f : FBarArv} : outcomeWf (execBararv f s) = true := by
  unfold execBararv
  grind only [GroupRes.wf, State.perGroup_wf, releaseAll_wf, arriveLanes_wf]

theorem waitLane_wf {m : ObjArgs} {n : Nat} {e : Env} {uid : Nat} {t : Thread} : (waitLane m n e s uid t).wf = true := by
  unfold waitLane
  split
  · exact hw
  · split
    · exact State.acquire_wf hw
    · exact hw
    · exact hw

@[simp] theorem execWaitp_wf {f : FWait} : outcomeWf (execWaitp f s) = true := State.perLane_wf hw fun _ _ _ _ hs => waitLane_wf hs

@[simp] theorem execWaitpReg_wf {f : FObjReg} : outcomeWf (execWaitpReg f s) = true := State.perLane_wf hw fun _ _ _ _ hs => waitLane_wf hs

@[simp] theorem execWaitpLong_wf {f : FWaitL} : outcomeWf (execWaitpLong f s) = true := State.perLane_wf hw fun _ _ _ _ hs => waitLane_wf hs

theorem State.parkTimed_wf {e : Env} {uid : Nat} {t : Thread} {w : Wait} {cycles : Nat} :
    (s.parkTimed e uid t w cycles).wf = true := State.park_wf hw

theorem tryLane_wf {m : ObjArgs} {pd : PReg} {n : Nat} {hint : Nat} {e : Env} {uid : Nat} {t : Thread} :
    (tryLane m pd n hint e s uid t).wf = true := by
  unfold tryLane
  split
  · exact hw
  · split
    · exact State.acquire_wf hw
    · exact hw
    · split
      · exact hw
      · exact State.parkTimed_wf hw

@[simp] theorem execTrywait_wf {f : FTry} : outcomeWf (execTrywait f s) = true := State.perLane_wf hw fun _ _ _ _ hs => tryLane_wf hs

theorem State.goOn_wf {uid : Nat} : (s.goOn uid).wf = true := State.acquire_wf hw

theorem State.arriveCrew_wf {e : Env} {uid : Nat} {kind : Option Nat} {tag : Tag} : (s.arriveCrew e uid kind tag).wf = true := by
  unfold State.arriveCrew
  grind only [State.wf_eq, LaneRes.wf, State.crewBarTest_wf, State.park_wf]

theorem barrierLane_wf {e : Env} {scope : Nat} {kind : Option Nat} {tag : Tag} {uid : Nat} {t : Thread} :
    (barrierLane e scope kind tag s uid t).wf = true := by
  unfold barrierLane
  grind only [LaneRes.wf, State.goOn_wf, State.releaseTry_wf, State.arriveCrew_wf]

@[simp] theorem execCrewbar_wf : outcomeWf (execCrewbar s) = true := State.perLane_wf hw fun _ _ _ _ hs => barrierLane_wf hs

@[simp] theorem execGbar_wf {g : VReg} : outcomeWf (execGbar g s) = true := by
  unfold execGbar
  grind only [LaneRes.wf, State.perLane_wf, barrierLane_wf]

@[simp] theorem execGangArrival_wf {i : Nat} : outcomeWf (execGangArrival i s) = true := by
  unfold execGangArrival
  grind only [State.wf_eq, outcomeWf, State.settleCrew_wf, State.stepBar_wf, State.remoteArrival_wf]

@[simp] theorem execMeetarm_wf {token : BitVec 16} {m : BitVec 2} : outcomeWf (execMeetarm token m s) = true := by
  unfold execMeetarm
  grind only [LaneRes.wf, State.perLane_wf, → State.meetArm_wf]

theorem State.meetArrive_wf {e : Env} {uid token : Nat} : (s.meetArrive e uid token).wf = true := by
  unfold State.meetArrive
  grind only [State.park_wf, State.meetTest_wf, State.modMeet_wf]

theorem meetLane_wf {m : Nat} {e : Env} {uid : Nat} {t : Thread} : (meetLane m e s uid t).wf = true := by
  unfold meetLane
  grind only [LaneRes.wf, State.goOn_wf, State.releaseTry_wf, State.meetArrive_wf]

@[simp] theorem execMeet_wf {m : BitVec 2} : outcomeWf (execMeet m s) = true := State.perLane_wf hw fun _ _ _ _ hs => meetLane_wf hs

theorem monitorLane_wf {m : ObjArgs} {e : Env} {uid : Nat} {t : Thread} : (monitorLane m e s uid t).wf = true := by
  unfold monitorLane
  grind only [LaneRes.wf, State.place_wf, State.modThread_wf]

@[simp] theorem execMonitor_wf {f : FMonitor} : outcomeWf (execMonitor f s) = true :=
  State.perLane_wf hw fun _ _ _ _ hs => monitorLane_wf hs

theorem mwaitLane_wf {cycles : Nat} {tag : Tag} {e : Env} {uid : Nat} {t : Thread} : (mwaitLane cycles tag e s uid t).wf = true := by
  unfold mwaitLane
  split
  · exact hw
  · exact State.acquire_wf (State.modThread_wf hw)
  · split
    · exact hw
    · exact State.parkTimed_wf hw

@[simp] theorem execMwait_wf {v : VReg} : outcomeWf (execMwait v s) = true := State.perLane_wf hw fun _ _ _ _ hs => mwaitLane_wf hs

@[simp] theorem execMwaitTimeout_wf {uid : Nat} : outcomeWf (execMwaitTimeout uid s) = true := by
  unfold execMwaitTimeout
  split
  · rfl
  · split
    · split
      · exact hw
      · rfl
    · split
      · exact hw
      · rfl

@[simp] theorem execTrywaitTimeout_wf {uid : Nat} : outcomeWf (execTrywaitTimeout uid s) = true := by
  unfold execTrywaitTimeout
  split
  · rfl
  · split
    · split
      · exact hw
      · rfl
    · rfl

theorem fenceLane_wf {scope : Nat} {uid : Nat} : (fenceLane scope s uid).wf = true := by
  unfold fenceLane
  grind only [LaneRes.wf, State.releaseTry_wf, State.acquire_wf]

@[simp] theorem execFence_wf {scope : BitVec 3} : outcomeWf (execFence scope s) = true :=
  State.perLane_wf hw fun _ _ _ _ hs => fenceLane_wf hs

theorem fencexLane_wf {x y : Nat} {t : Thread} : (fencexLane x y s t).wf = true := by
  unfold fencexLane
  grind only [LaneRes.wf, State.dropL1_wf]

@[simp] theorem execFencex_wf {x y : BitVec 3} : outcomeWf (execFencex x y s) = true :=
  State.perLane_wf hw fun _ _ _ _ hs => fencexLane_wf hs

/-! ## Copies and rings -/

theorem State.copyPlace_wf {i : Issuer} {sp need a : Nat} : (s.copyPlace i sp need a).1.wf = true := by
  unfold State.copyPlace
  grind only [State.translate_wf]

theorem State.copySrc_wf {i : Issuer} {sp fuel a n : Nat} : (s.copySrc i sp fuel a n).1.wf = true := by
  induction fuel generalizing s a n with
  | zero => exact hw
  | succ fuel ih =>
    unfold State.copySrc
    grind only [State.copyPlace_wf]

theorem State.copyUnit_wf {c : Copy} {k : Nat} : (s.copyUnit c k).1.wf = true := by
  unfold State.copyUnit
  grind only [State.copySrc_wf, State.copyPlace_wf]

theorem State.credit_wf {crew : Nat} {bar : Option Nat} {n : Nat} : (s.credit crew bar n).wf = true := by
  unfold State.credit
  split
  · exact State.stepBar_wf hw
  · exact hw

theorem State.barError_wf {crew : Nat} {bar : Option Nat} : (s.barError crew bar).wf = true := by
  unfold State.barError
  split
  · exact State.stepBar_wf hw
  · exact hw

theorem State.startCopy_wf {c : Copy} : (s.startCopy c).wf = true := State.raiseLines_wf hw _

theorem State.startFired_wf {core : Nat} {l : List Armed} : (s.startFired core l).wf = true := by
  induction l generalizing s with
  | nil => exact hw
  | cons a l ih =>
    unfold State.startFired
    grind only [State.wf_eq, State.startCopy_wf]

theorem State.startDue_wf {core : Nat} : (s.startDue core).wf = true := State.startFired_wf hw

theorem State.endCopy_wf {i : Nat} {c : Copy} : (s.endCopy i c).wf = true := by
  unfold State.endCopy
  grind only [State.wf_eq, State.settleCrew_wf, State.startDue_wf, State.opDone_wf]

theorem State.copyStop_wf {i : Nat} {c : Copy} {t : Trap} : (s.copyStop i c t).wf = true := by
  unfold State.copyStop
  grind only [State.faultRecord_wf, State.endCopy_wf, State.barError_wf, State.lowerLines_wf]

theorem State.copyWatch_wf {i : Issuer} {seen : Nat} {as : List Access} : (s.copyWatch i seen as).1.wf = true := by
  unfold State.copyWatch
  split
  · exact hw
  · split <;> exact State.faultRecord_wf hw

theorem State.winRetag_wf {l : Loc} {btags : List Tag} : (s.winRetag l btags).wf = true := by
  unfold State.winRetag
  grind only [State.wf_eq, canonical_iff, foldl_wf, SMap.wf_setD]

theorem State.land_wf {i : Nat} {c : Copy} {k : Nat} {x : Landing} : (s.land i c k x).wf = true := by
  unfold State.land
  grind only [State.wf_eq, State.birth_wf, State.winRetag_wf, State.performStore_wf, State.count_wf, State.lowerLines_wf, State.credit_wf,
    State.copyWatch_wf, State.startDue_wf]

@[simp] theorem execCopyLanding_wf {i k : Nat} : outcomeWf (execCopyLanding i k s) = true := by
  unfold execCopyLanding
  grind only [State.wf_eq, outcomeWf, State.copyUnit_wf, State.engineStep_wf, State.land_wf, State.copyStop_wf]

@[simp] theorem execCopyPageResume_wf {i : Nat} : outcomeWf (execCopyPageResume i s) = true := by
  unfold execCopyPageResume
  split
  · rfl
  · split
    · rfl
    · split
      · rfl
      · split
        · rfl
        · exact hw

theorem State.nameTrigger_wf {ctx core c : Nat} : (s.nameTrigger ctx core c).wf = true := hw

theorem State.setTrigger_wf {core c ctx val : Nat} : (s.setTrigger core c ctx val).1.wf = true := by
  unfold State.setTrigger
  grind only [State.wf_eq, State.startDue_wf]

@[simp] theorem execCopyComplete_wf {i : Nat} : outcomeWf (execCopyComplete i s) = true := by
  unfold execCopyComplete
  split
  · rfl
  · split
    · rfl
    · split
      · exact State.endCopy_wf hw
      · exact State.endCopy_wf (State.setTrigger_wf hw)

theorem trigSlot_wf {reset : Bool} {c v : VReg} : outcomeWf (trigSlot reset c v s) = true := by
  unfold trigSlot
  grind only [LaneRes.wf, State.once_wf, State.releaseTry_wf, State.setTrigger_wf, State.log_wf]

@[simp] theorem execTrig_wf {c v : VReg} : outcomeWf (execTrig c v s) = true := trigSlot_wf hw

@[simp] theorem execTrigrst_wf {c v : VReg} : outcomeWf (execTrigrst c v s) = true := trigSlot_wf hw

theorem State.copyRemote_wf {crew : Nat} {c : Copy} : (s.copyRemote crew c).wf = true := by
  unfold State.copyRemote
  split
  · exact State.noteRemote_wf hw
  · exact State.noteRemote_wf (State.noteRemote_wf hw)

theorem State.issueCopy_wf {e : Env} {uid : Nat} {t : Thread} {group : List Nat} {flag : Option Nat}
    {c : Copy} :
    (s.issueCopy e uid t group flag c).wf = true := by
  unfold State.issueCopy
  grind only [LaneRes.wf, State.newOp_wf, State.startCopy_wf, State.noteWrite_wf, State.copyRemote_wf]

theorem copyLane_wf {m : CpyArgs} {e : Env} {uid : Nat} {t : Thread} {group : List Nat} :
    (copyLane m e s uid t group).wf = true := by
  unfold copyLane
  grind only [LaneRes.wf, State.issueCopy_wf]

@[simp] theorem execCpy_wf {f : FCpy} : outcomeWf (execCpy f s) = true := State.once_wf hw fun _ _ _ _ _ hs => copyLane_wf hs

@[simp] theorem execCpyLong_wf {f : FCpyL} : outcomeWf (execCpyLong f s) = true := State.once_wf hw fun _ _ _ _ _ hs => copyLane_wf hs

@[simp] theorem execCpycv_wf {f : FCpyCv} : outcomeWf (execCpycv f s) = true := State.once_wf hw fun _ _ _ _ _ hs => copyLane_wf hs

theorem State.fillFor_wf {t : Thread} {p : Place} {miss : Bool} : (s.fillFor t p miss).wf = true := by
  unfold State.fillFor
  split <;> exact hw

theorem State.readBlock_wf {e : Env} {uid : Nat} {t : Thread} {v n a : Nat} : (s.readBlock e uid t v n a).1.wf = true := by
  induction n generalizing s a with
  | zero => exact hw
  | succ n ih =>
    unfold State.readBlock
    grind only [State.place_wf, State.fillFor_wf]

theorem State.abortCopy_wf {e : Env} {uid : Nat} {t : Thread} {da : Nat} {tag : Tag} {bar : Option Nat} :
    (s.abortCopy e uid t da tag bar).wf = true := State.faultRecord_wf (State.barError_wf hw)

theorem tensorLane_wf {pv off : Nat} {arm : Option (Nat × Nat)} {fb : Bool} {e : Env} {uid : Nat}
    {t : Thread} {group : List Nat} :
    (tensorLane pv off arm fb e s uid t group).wf = true := by
  unfold tensorLane
  extract_lets da tag
  split
  · exact hw
  · split
    · grind only [LaneRes.wf, State.readBlock_wf]
    · grind only [LaneRes.wf, State.readBlock_wf]
    · next s0 bs tags h =>
      have h0 : s0.wf = true := by grind only [State.readBlock_wf]
      extract_lets s1 d src c names seen named all s2
      have h1 : s1.wf = true := State.wokenAcquire_wf h0
      split
      · exact h1
      · have hnamed : named.wf = true := foldl_wf _ (fun s n h => State.nameTrigger_wf h) _ h1
        have hseen (s2 : State) (h : s2.wf = true) : (seen s2).wf = true := State.watched_wf h h1
        have hs2 : s2.wf = true := State.noteWrite_wf (State.copyRemote_wf hnamed)
        clear_value s1 d src c names seen named all s2
        grind only [State.wf_eq, LaneRes.wf, State.abortCopy_wf, State.issueCopy_wf, State.copyRemote_wf, State.noteWrite_wf, State.setTrigger_wf]

@[simp] theorem execCpyt_wf {f : FCpyT} : outcomeWf (execCpyt f s) = true := State.once_wf hw fun _ _ _ _ _ hs => tensorLane_wf hs

theorem copyArm_wf {size pv off c : Nat} {h : Nat} {fb : Bool} : outcomeWf (copyArm size pv off c h fb s) = true :=
  State.once_wf hw fun _ _ _ _ _ hs => tensorLane_wf hs

@[simp] theorem execCpya_wf {f : FPairTwo} : outcomeWf (execCpya f s) = true := copyArm_wf hw

@[simp] theorem execCpyaLong_wf {f : FPairTwoL} : outcomeWf (execCpyaLong f s) = true := copyArm_wf hw

theorem State.sendTile_wf {e : Env} {uid : Nat} {t : Thread} {group : List Nat} {flag : Option Nat}
    {k : CrewGang} {x : Gang} {off n : Nat} {bar : Option Nat} :
    (s.sendTile e uid t group flag k x off n bar).wf = true := State.raiseLines_wf hw _

theorem ringLane_wf {pv off vn vg : Nat} {fb : Bool} {e : Env} {uid : Nat} {t : Thread}
    {group : List Nat} :
    (ringLane pv off vn vg fb e s uid t group).wf = true := by
  unfold ringLane
  grind only [LaneRes.wf, State.copyWatch_wf, State.sendTile_wf]

theorem ringSlot_wf {size pv off vn vg : Nat} {fb : Bool} : outcomeWf (ringSlot size pv off vn vg fb s) = true :=
  State.once_wf hw fun _ _ _ _ _ hs => ringLane_wf hs

@[simp] theorem execRing_wf {f : FPairTwo} : outcomeWf (execRing f s) = true := ringSlot_wf hw

@[simp] theorem execRingLong_wf {f : FPairTwoL} : outcomeWf (execRingLong f s) = true := ringSlot_wf hw

theorem State.landTile_wf {i : Nat} {x : Tile} {crew : Nat} {c : Crew} {w : RingWait} : (s.landTile i x crew c w).wf = true := by
  unfold State.landTile
  grind only [State.wf_eq, foldl_wf, State.performStore_wf, State.lowerLines_wf, State.credit_wf, State.opDone_wf, State.settleCrew_wf,
    State.startDue_wf]

@[simp] theorem execRingLanding_wf {i : Nat} : outcomeWf (execRingLanding i s) = true := by
  unfold execRingLanding
  grind only [State.wf_eq, outcomeWf, State.landTile_wf, State.settleCrew_wf, State.log_wf]

/-! ## Posted collectives -/

theorem State.refusePost_wf {e : Env} {d reason : Nat} {group : List Nat} : (s.refusePost e d reason group).wf = true := by
  unfold State.refusePost
  grind only [foldl_wf, State.setReg_wf]

theorem State.acceptPost_wf {p : Posted} {fireall : Bool} {d : Nat} {flag : Option Nat}
    {group : List Nat} :
    (s.acceptPost p fireall d flag group).wf = true := by
  unfold State.acceptPost
  grind only [State.wf_eq, State.newOp_wf, State.postEntry_wf]

theorem colpostLane_wf {f : FCol} {e : Env} {uid : Nat} {t : Thread} {group : List Nat} :
    (colpostLane f e s uid t group).wf = true := by
  unfold colpostLane
  grind only [LaneRes.wf, State.releaseTry_wf, State.refusePost_wf, State.readBlock_wf, State.wokenAcquire_wf, State.acceptPost_wf,
    State.watched_wf]

@[simp] theorem execColpost_wf {f : FCol} : outcomeWf (execColpost f s) = true := State.once_wf hw fun _ _ _ _ _ hs => colpostLane_wf hs

theorem colfireLane_wf {f : FCol} {e : Env} {uid : Nat} {t : Thread} {group : List Nat} :
    (colfireLane f e s uid t group).wf = true := by
  unfold colfireLane
  grind only [LaneRes.wf, State.releaseTry_wf, State.log_wf, State.newOp_wf, State.fireChunk_wf]

@[simp] theorem execColfire_wf {f : FCol} : outcomeWf (execColfire f s) = true := State.once_wf hw fun _ _ _ _ _ hs => colfireLane_wf hs

@[simp] theorem execParlourPost_wf {clock ctx cid rank : Nat} {fields : List Nat} :
    outcomeWf (execParlourPost clock ctx cid rank fields s) = true := by
  unfold execParlourPost
  grind only [outcomeWf, State.recvPost_wf, State.hear_wf]

@[simp] theorem execTicket_wf {i value clock : Nat} : outcomeWf (execTicket i value clock s) = true := by
  unfold execTicket
  split
  · rfl
  · split
    · exact State.recvTicket_wf (State.hear_wf hw)
    · rfl

@[simp] theorem execCollectiveStart_wf {i : Nat} : outcomeWf (execCollectiveStart i s) = true := by
  unfold execCollectiveStart
  grind only [outcomeWf, State.yieldHigher_wf, State.startEntry_wf]

@[simp] theorem execReady_wf {ctx cid rank clock : Nat} : outcomeWf (execReady ctx cid rank clock s) = true := by
  unfold execReady
  split
  · rfl
  · split
    · exact State.recvReady_wf (State.hear_wf hw)
    · rfl

@[simp] theorem execGo_wf {i clock : Nat} : outcomeWf (execGo i clock s) = true := by
  unfold execGo
  split
  · rfl
  · split
    · exact State.recvGo_wf (State.hear_wf hw)
    · rfl

@[simp] theorem execWithdraw_wf {ctx cid rank clock : Nat} : outcomeWf (execWithdraw ctx cid rank clock s) = true := by
  unfold execWithdraw
  split
  · exact hw
  · split
    · exact State.recvWithdraw_wf (State.hear_wf hw)
    · rfl

@[simp] theorem execWithdrawAck_wf {i clock : Nat} : outcomeWf (execWithdrawAck i clock s) = true := by
  unfold execWithdrawAck
  split
  · rfl
  · split
    · exact State.yieldHigher_wf hw
    · rfl

@[simp] theorem execReceiveReduceArrive_wf {i chunk elt ranks : Nat} {data : List Nat} {marks : List (Nat × Nat × Tag)} :
    outcomeWf (execReceiveReduceArrive i chunk elt ranks data marks s) = true := by
  unfold execReceiveReduceArrive
  grind only [State.wf_eq, foldl_wf, outcomeWf, State.queueLanding_wf]

@[simp] theorem execBaseDieReduce_wf {stack : Nat} : outcomeWf (execBaseDieReduce stack s) = true := by
  unfold execBaseDieReduce
  split
  · rfl
  · extract_lets s1 s2
    have h2 : s2.wf = true := State.count_wf (by exact hw) _ _
    clear_value s2
    grind only [State.wf_eq, outcomeWf, → State.reduceRun_wf]

@[simp] theorem execCollectiveLanding_wf {i : Nat} : outcomeWf (execCollectiveLanding i s) = true := by
  unfold execCollectiveLanding
  grind only [State.wf_eq, outcomeWf, State.performResult_wf]

theorem State.writePost_wf {p : Posted} {x : Nat × Nat} : (s.writePost p x).wf = true := by
  unfold State.writePost
  split
  · split
    · exact hw
    · split
      · exact hw
      · exact State.landRegs_wf hw
  · split
    · exact hw
    · split
      · exact hw
      · exact State.landRegs_wf hw

theorem State.finishCollective_wf {i : Nat} {p : Posted} : (s.finishCollective i p).wf = true := by
  unfold State.finishCollective
  grind only [State.wf_eq, foldl_wf, State.writePost_wf, State.unbind_wf, State.opDone_wf, State.putRecord_wf, State.yieldHigher_wf,
    State.settleCrew_wf, State.endCoord_wf]

@[simp] theorem execChunkComplete_wf {i chunk status : Nat} : outcomeWf (execChunkComplete i chunk status s) = true := by
  unfold execChunkComplete
  grind only [State.wf_eq, outcomeWf, State.sendFired_wf, State.failChunk_wf, State.hear_wf, State.putRecord_wf, State.finishCollective_wf]

theorem State.failLink_wf {port : Nat} : (s.failLink port).wf = true := by
  unfold State.failLink
  grind only [State.wf_eq, foldl_wf, State.failHere_wf]

@[simp] theorem execFlitReceive_wf {port : Nat} {good : Bool} : outcomeWf (execFlitReceive port good s) = true := by
  unfold execFlitReceive
  grind only [State.wf_eq, outcomeWf, State.count_wf, State.failLink_wf]

@[simp] theorem execLinkTrain_wf {port width : Nat} : outcomeWf (execLinkTrain port width s) = true := by
  unfold execLinkTrain
  split
  · rfl
  · exact hw

/-! ## Launches and the placement of crews -/

theorem State.bindTo_wf {id i cid shape : Nat} : (s.bindTo id i cid shape).wf = true := by
  unfold State.bindTo
  grind only [State.wf_eq, State.sendOthers_wf, State.failEntry_wf]

omit hw in
theorem State.bindLaunch_wf {c : Context} {cid id : Nat} {r : LaunchRec} {unmap : Bool}
    (he : s.bindLaunch c cid id r unmap = some s') (hw : s.wf = true) : s'.wf = true := by
  unfold State.bindLaunch at he
  grind only [State.log_wf, State.bindTo_wf, State.postEntry_wf]

omit hw in
theorem State.acceptLaunch_wf {c : Context} {cid id : Nat} {r : LaunchRec} {l : Launch} {unmap : Bool}
    (he : s.acceptLaunch c cid id r l unmap = some s') (hw : s.wf = true) : s'.wf = true := by
  unfold State.acceptLaunch at he
  exact State.bindLaunch_wf he hw

theorem State.beginTurn_wf {vd : Nat} : (s.beginTurn vd).wf = true := hw

omit hw in
theorem State.inTurn_wf {vd : Nat} (he : s.inTurn vd = some s') (hw : s.wf = true) : s'.wf = true := by
  unfold State.inTurn at he
  grind only [State.beginTurn_wf]

omit hw in
theorem State.placeWarp_wf {l : Launch} {crew core quad w : Nat} {x : Nat × Nat × Nat} {lanes : List Nat}
    (he : s.placeWarp l crew core quad w x lanes = some s') (hw : s.wf = true) : s'.wf = true := by
  induction lanes generalizing s with
  | nil => simp_all [State.placeWarp]
  | cons lane ls ih =>
    unfold State.placeWarp at he
    grind only [State.startRegs_wf, State.addThread_wf]

omit hw in
theorem State.placeWarps_wf {l : Launch} {crew core w : Nat} {ws : List ((Nat × Nat × Nat) × Nat)}
    (he : s.placeWarps l crew core w ws = some s') (hw : s.wf = true) : s'.wf = true := by
  induction ws generalizing s w with
  | nil => simp_all [State.placeWarps]
  | cons x xs ih =>
    unfold State.placeWarps at he
    grind only [→ State.placeWarp_wf]

omit hw in
theorem State.placeCrew_wf {id : Nat} {l : Launch} {usable : List Nat} {p : Placement}
    (he : s.placeCrew id l usable p = some s') (hw : s.wf = true) : s'.wf = true := by
  unfold State.placeCrew at he
  dsimp only at he
  split at he
  · cases he
  · split at he
    · obtain ⟨s2, h2, rfl⟩ := Option.map_eq_some_iff.mp he
      refine foldl_wf _ (fun s q h => State.dropL1_wf h) _ (State.placeWarps_wf h2 ?_)
      grind only [State.wf_eq, canonical_iff, SMap.wf_filter]
    · cases he

omit hw in
theorem State.placeCrews_wf {id : Nat} {usable : List Nat} {ps : List Placement}
    (he : s.placeCrews id usable ps = some s') (hw : s.wf = true) : s'.wf = true := by
  induction ps generalizing s with
  | nil => simp_all [State.placeCrews]
  | cons p ps ih =>
    unfold State.placeCrews at he
    grind only [→ State.placeCrew_wf]

theorem State.initGang_wf {id g n off ord : Nat} : (s.initGang id g n off ord).wf = true := by
  unfold State.initGang
  grind only [State.wf_eq, canonical_iff, State.stepBar_wf, SMap.wf_setD]

/-! ## The graph engine -/

theorem State.complete_wf {k : Nat} {htag kind status launch : Nat} : (s.complete k htag kind status launch).wf = true := hw

theorem State.giveTo_wf {cid from_ succ : Nat} : (s.giveTo cid from_ succ).wf = true := by
  unfold State.giveTo
  split
  · exact hw
  · split
    · exact hw
    · split <;> exact hw

theorem State.settleGraph_wf {cid : Nat} : (s.settleGraph cid).wf = true := by
  unfold State.settleGraph
  grind only [State.wf_eq, foldl_wf, State.log_wf, State.modNode_wf, State.complete_wf]

theorem State.flushAfter_wf {cid : Nat} {succ : List Nat} : (s.flushAfter cid succ).wf = true := by
  unfold State.flushAfter
  grind only [foldl_wf, State.modNode_wf]

omit hw in
theorem State.moveRecords_wf {cid : Nat} {c : Context} {x : Node} {dst n i : Nat}
    (he : s.moveRecords cid c x dst n i = some s') (hw : s.wf = true) : s'.wf = true := by
  induction n generalizing s dst i with
  | zero => simp_all [State.moveRecords]
  | succ n ih =>
    unfold State.moveRecords at he
    grind only [State.performWrite_wf]

omit hw in
theorem State.nodeLaunch_wf {cid node id : Nat} {c : Context} {x : Node} {batch count : Nat} {unmap : Bool}
    (he : s.nodeLaunch cid node id c x batch count unmap = some s') (hw : s.wf = true) : s'.wf = true := by
  unfold State.nodeLaunch at he
  split at he
  · cases he
  · cases he
    exact State.log_wf hw
  · obtain ⟨s1, h1, rfl⟩ := Option.map_eq_some_iff.mp he
    exact State.count_wf (State.acceptLaunch_wf h1 hw) _ _

omit hw in
theorem State.fireKernel_wf {cid node id : Nat} {unmap : Bool} (he : s.fireKernel cid node id unmap = some s')
    (hw : s.wf = true) : s'.wf = true := by
  unfold State.fireKernel at he
  split at he
  · cases he
  · dsimp only at he
    split at he
    · cases he
    · split at he
      · cases he
      · grind only [State.wf_eq, State.modNode_wf, → State.nodeLaunch_wf, State.settleGraph_wf, → State.moveRecords_wf, = Option.map_eq_some_iff]

omit hw in
theorem State.fireChoice_wf {kind cid node : Nat} (he : s.fireChoice kind cid node = some s') (hw : s.wf = true) : s'.wf = true := by
  unfold State.fireChoice at he
  grind only [State.modNode_wf, State.settleGraph_wf, State.giveTo_wf]

@[simp] theorem execGraphKernelFire_wf {ctx node id : Nat} : outcomeWf (execGraphKernelFire ctx node id s) = true := by
  unfold execGraphKernelFire
  grind only [outcomeWf, → State.fireKernel_wf]

@[simp] theorem execGraphConditionalFire_wf {ctx node : Nat} : outcomeWf (execGraphConditionalFire ctx node s) = true := by
  unfold execGraphConditionalFire
  grind only [outcomeWf, → State.fireChoice_wf]

@[simp] theorem execGraphWhileFire_wf {ctx node : Nat} : outcomeWf (execGraphWhileFire ctx node s) = true := by
  unfold execGraphWhileFire
  grind only [outcomeWf, → State.fireChoice_wf]

@[simp] theorem execGraphInstall_wf {ctx graph nnode : Nat} : outcomeWf (execGraphInstall ctx graph nnode s) = true := by
  unfold execGraphInstall
  split
  · rfl
  · split
    · rfl
    · exact hw

/-! ## Queue pairs and launches -/

theorem State.setPair_wf {vd q : Nat} {p : QueuePair} : (s.setPair vd q p).wf = true := hw

@[simp] theorem execSqtail_wf {vd q value : Nat} : outcomeWf (execSqtail vd q value s) = true := by
  unfold execSqtail
  split
  · rfl
  · exact hw

@[simp] theorem execCqhead_wf {vd q value : Nat} : outcomeWf (execCqhead vd q value s) = true := by
  unfold execCqhead
  split
  · rfl
  · exact hw

@[simp] theorem execQueueEnable_wf {vd q : Nat} : outcomeWf (execQueueEnable vd q s) = true := by
  unfold execQueueEnable
  split
  · rfl
  · exact hw

@[simp] theorem execRegisterWrite_wf {vd off value : Nat} : outcomeWf (execRegisterWrite vd off value s) = true := by
  unfold execRegisterWrite
  split
  · rfl
  · split <;> exact hw

theorem State.takeEntry_wf {vd q : Nat} {p : QueuePair} {htag : Nat} : (s.takeEntry vd q p htag).wf = true := State.setPair_wf hw

theorem State.finishEntry_wf {vd q : Nat} {p : QueuePair} {htag kind status : Nat} :
    (s.finishEntry vd q p htag kind status).wf = true := hw

omit hw in
theorem State.launchEntry_wf {vd q id : Nat} {unmap : Bool} (he : s.launchEntry vd q id unmap = some s')
    (hw : s.wf = true) : s'.wf = true := by
  unfold State.launchEntry at he
  grind only [State.finishEntry_wf, → State.acceptLaunch_wf, State.takeEntry_wf]

@[simp] theorem execLaunch_wf {vd q id : Nat} : outcomeWf (execLaunch vd q id s) = true := by
  unfold execLaunch
  grind only [outcomeWf, → State.launchEntry_wf]

@[simp] theorem execGraphStart_wf {vd q : Nat} : outcomeWf (execGraphStart vd q s) = true := by
  unfold execGraphStart
  grind only [State.wf_eq, outcomeWf, State.finishEntry_wf, State.modNode_wf, State.takeEntry_wf, State.settleGraph_wf]

@[simp] theorem execQueueBarrier_wf {vd q : Nat} : outcomeWf (execQueueBarrier vd q s) = true := by
  unfold execQueueBarrier
  split
  · rfl
  · split
    · rfl
    · exact State.finishEntry_wf hw

@[simp] theorem execInvalidEntry_wf {vd q : Nat} : outcomeWf (execInvalidEntry vd q s) = true := by
  unfold execInvalidEntry
  split
  · rfl
  · split
    · exact State.finishEntry_wf hw
    · rfl

omit hw in
theorem State.writeEntries_wf {k n : Nat} (he : s.writeEntries k n = some s') (hw : s.wf = true) : s'.wf = true := by
  induction n generalizing s with
  | zero => simp_all [State.writeEntries]
  | succ n ih =>
    unfold State.writeEntries at he
    grind only [State.wf_eq, canonical_iff, writeCells_wf]

@[simp] theorem execCompletionEntryWrite_wf {vd q i : Nat} : outcomeWf (execCompletionEntryWrite vd q i s) = true := by
  unfold execCompletionEntryWrite
  grind only [State.wf_eq, outcomeWf, → State.writeEntries_wf]

@[simp] theorem execCrewPlace_wf {launch : Nat} {places : List Placement} : outcomeWf (execCrewPlace launch places s) = true := by
  unfold execCrewPlace
  split
  · rfl
  · split
    · rfl
    · grind only [outcomeWf, foldl_wf, → State.inTurn_wf, → State.placeCrews_wf, State.initGang_wf, = Option.map_eq_some_iff,
      = Option.bind_eq_some_iff]

theorem State.flushCounts_wf {l : Launch} : (s.flushCounts l).wf = true := by
  unfold State.flushCounts
  refine foldl_wf _ (fun s k hs => foldl_wf _ (fun s b hs => ?_) _ hs) _ hw
  grind only [State.wf_eq, → State.bbcWrite_wf]

theorem State.graphDone_wf {l : Launch} {node : Nat} : (s.graphDone l node).wf = true := by
  unfold State.graphDone
  grind only [foldl_wf, State.giveTo_wf, State.settleGraph_wf, State.flushAfter_wf]

@[simp] theorem execLaunchComplete_wf {launch : Nat} : outcomeWf (execLaunchComplete launch s) = true := by
  unfold execLaunchComplete
  grind only [State.wf_eq, outcomeWf, State.flushCounts_wf, State.complete_wf, State.graphDone_wf]

/-! ## Traps delivered, pre-emption and restores -/

@[simp] theorem execTrapDelivery_wf {uid : Nat} : outcomeWf (execTrapDelivery uid s) = true := by
  unfold execTrapDelivery
  grind only [outcomeWf, → State.deliver_wf, State.modThread_wf]

theorem State.standOut_wf {uid : Nat} : (s.standOut uid).wf = true := by
  unfold State.standOut
  split
  · exact hw
  · exact State.leaveWarp_wf (State.modThread_wf hw)

@[simp] theorem execWatchdogExpiry_wf {uid : Nat} : outcomeWf (execWatchdogExpiry uid s) = true := by
  unfold execWatchdogExpiry
  grind only [outcomeWf, State.killCrew_wf, State.standOut_wf, State.modThread_wf, State.trapStanding_wf]

theorem State.retryRecord_wf {r : PendRec} : (s.retryRecord r).wf = true := by
  unfold State.retryRecord
  grind only [State.wf_eq, State.putRecord_wf]

@[simp] theorem execPageFaultResolve_wf {uid : Nat} : outcomeWf (execPageFaultResolve uid s) = true := by
  unfold execPageFaultResolve
  split
  · exact State.retryRecord_wf hw
  · split
    · rfl
    · split
      · split
        · exact hw
        · rfl
      · rfl

omit hw in
theorem State.saveUnmappable_wf {uid : Nat} {t : Thread} (he : s.saveUnmappable uid t = some s')
    (hw : s.wf = true) : s'.wf = true := by
  unfold State.saveUnmappable at he
  split at he
  · cases he
  · next cr hcr =>
    have hend (a b : Nat) : ((s.endContext cr.ctx 0).log cr.ctx 11 2 a b 0).wf = true := State.log_wf (State.endContext_wf hw)
    have hkill : (s.killCrew t.crew).wf = true := State.killCrew_wf hw
    split at he
    · cases he
    · extract_lets a lost at he
      clear_value a lost
      grind only

@[simp] theorem execPageUnmappable_wf {kind i : Nat} : outcomeWf (execPageUnmappable kind i s) = true := by
  unfold execPageUnmappable
  grind only [outcomeWf, State.endContext_wf, State.log_wf, State.faultRecord_wf, State.modThread_wf, → State.saveUnmappable_wf, State.engineStep_wf,
    State.copyStop_wf, → State.launchEntry_wf, → State.fireKernel_wf]

theorem State.requestUnit_wf {crew left : Nat} : (s.requestUnit crew left).wf = true :=
  foldl_wf _ (fun _ _ h => State.requestCrew_wf h) _ hw

@[simp] theorem execPreemptRequest_wf {crew : Nat} : outcomeWf (execPreemptRequest crew s) = true := by
  unfold execPreemptRequest
  split
  · rfl
  · split
    · exact State.requestUnit_wf hw
    · rfl

theorem State.cancelCrew_wf {crew : Nat} : (s.cancelCrew crew).wf = true := hw

@[simp] theorem execPreemptCancel_wf {crew : Nat} : outcomeWf (execPreemptCancel crew s) = true := by
  unfold execPreemptCancel
  grind only [foldl_wf, outcomeWf, State.cancelCrew_wf]

theorem State.removeCrew_wf {crew : Nat} {c : Crew} {v : Saved} : (s.removeCrew crew c v).wf = true := State.lowerLines_wf hw _

theorem State.clearFlags_wf {crew : Nat} : (s.clearFlags crew).wf = true := hw

theorem State.lightCrew_wf {crew : Nat} : (s.lightCrew crew).wf = true := by
  unfold State.lightCrew
  grind only [State.wf_eq, State.removeCrew_wf, State.clearFlags_wf]

@[simp] theorem execLightSave_wf {crew : Nat} : outcomeWf (execLightSave crew s) = true := by
  unfold execLightSave
  grind only [foldl_wf, outcomeWf, State.lightCrew_wf]

theorem State.squashCrew_wf {crew : Nat} : (s.squashCrew crew).wf = true := by
  unfold State.squashCrew
  grind only [foldl_wf, State.modThread_wf, State.squashFork_wf, State.discardThread_wf]

theorem State.rollback_wf {uid : Nat} : (s.rollback uid).wf = true := by
  unfold State.rollback
  grind only [State.setPail_wf, State.squashPend_wf, State.modThread_wf, State.restoreCheck_wf, State.standOut_wf]

theorem State.forceCrew_wf {crew : Nat} : (s.forceCrew crew).wf = true := by
  unfold State.forceCrew
  grind only [foldl_wf, State.squashCrew_wf, State.standOut_wf, State.rollback_wf, State.modThread_wf]

theorem State.saveCrew_wf {crew : Nat} : (s.saveCrew crew).wf = true := by
  unfold State.saveCrew
  grind only [foldl_wf, State.lowerLines_wf, State.removeCrew_wf]

@[simp] theorem execForcedSave_wf {crew : Nat} : outcomeWf (execForcedSave crew s) = true := by
  unfold execForcedSave
  grind only [foldl_wf, outcomeWf, State.forceCrew_wf, State.saveCrew_wf]

omit hw in
theorem State.restoreThread_wf {c : Crew} {core base : Nat} {quads : List Nat} {v : SavedThread}
    (he : s.restoreThread c core base quads v = some s') (hw : s.wf = true) : s'.wf = true := by
  unfold State.restoreThread at he
  grind only [State.wf_eq, foldl_wf, State.startRegs_wf, State.wr_wf]

omit hw in
theorem State.restoreThreads_wf {c : Crew} {core base : Nat} {quads : List Nat} {vs : List SavedThread}
    (he : s.restoreThreads c core base quads vs = some s') (hw : s.wf = true) : s'.wf = true := by
  induction vs generalizing s with
  | nil => simp_all [State.restoreThreads]
  | cons v vs ih =>
    unfold State.restoreThreads at he
    grind only [→ State.restoreThread_wf]

theorem State.restoreScr_wf {core base lines : Nat} {v : Saved} : (s.restoreScr core base lines v).wf = true := by
  unfold State.restoreScr
  obtain ⟨h1, h2, h3, h4, h5, h6, h7, h8, h9⟩ := s.wf_iff.mp hw
  exact (State.wf_iff _).mpr ⟨h1, h2, h3, h4, SMap.wf_foldl_setD _ _ _ (SMap.wf_filter _ h5), SMap.wf_foldl_setD _ _ _ (SMap.wf_filter _ h6), h7, h8, h9⟩

omit hw in
theorem State.restoreBins_wf {core sptimer : Nat} {quads : List Nat} {bs : List (Nat × SpawnBin)}
    (he : s.restoreBins core sptimer quads bs = some s') (hw : s.wf = true) : s'.wf = true := by
  induction bs generalizing s with
  | nil => simp_all [State.restoreBins]
  | cons v vs ih =>
    unfold State.restoreBins at he
    grind only [State.wf_eq]

theorem State.restoreRings_wf {crew : Nat} {c : Crew} {core base : Nat} : (s.restoreRings crew c core base).wf = true :=
  State.raiseLines_wf hw _

omit hw in
theorem State.restoreCrew_wf {usable : List Nat} {p : Placement} (he : s.restoreCrew usable p = some s')
    (hw : s.wf = true) : s'.wf = true := by
  unfold State.restoreCrew at he
  split at he
  · cases he
  · split at he
    · extract_lets names at he
      split at he
      · cases he
      · split at he
        · split at he
          · cases he
          · next hb =>
            obtain ⟨s1, h1, h2⟩ := Option.bind_eq_some_iff.mp hb
            have hs1 := State.restoreBins_wf h2 (State.restoreThreads_wf h1 hw)
            extract_lets s2 s3 here s4 s5 s6 s7 s8 s9 at he
            have hs2 : s2.wf = true := State.restoreScr_wf hs1
            have hs3 : s3.wf = true := by
              obtain ⟨h1, h2, h3, h4, h5, h6, h7, h8, h9⟩ := s2.wf_iff.mp hs2
              unfold s3
              split
              · exact (State.wf_iff _).mpr ⟨h1, h2, h3, h4, h5, h6, SMap.wf_foldl_setD _ _ _ (SMap.wf_filter _ h7), h8, h9⟩
              · exact hs2
            have hs5 : s5.wf = true := foldl_wf _ (fun s e h => State.raiseLines_wf h _) _ (by exact hs3)
            have hs6 : s6.wf = true := State.restoreRings_wf hs5
            have hs8 : s8.wf = true := foldl_wf _ (fun s x h => State.setTrigger_wf h) _ (by exact hs6)
            have hs9 : s9.wf = true := foldl_wf _ (fun s x h => by grind only [State.wr_wf]) _ hs8
            cases he
            exact foldl_wf _ (fun s q h => State.dropL1_wf h) _ hs9
        · cases he
    · cases he

omit hw in
theorem State.restoreCrews_wf {usable : List Nat} {ps : List Placement}
    (he : s.restoreCrews usable ps = some s') (hw : s.wf = true) : s'.wf = true := by
  induction ps generalizing s with
  | nil => simp_all [State.restoreCrews]
  | cons p ps ih =>
    unfold State.restoreCrews at he
    grind only [→ State.restoreCrew_wf]

@[simp] theorem execCrewRestore_wf {places : List Placement} : outcomeWf (execCrewRestore places s) = true := by
  unfold execCrewRestore
  grind only [outcomeWf, foldl_wf, → State.inTurn_wf, → State.restoreCrews_wf, State.settleCrew_wf, = Option.map_eq_some_iff,
    = Option.bind_eq_some_iff]

@[simp] theorem execDebugHalt_wf {crew : Nat} : outcomeWf (execDebugHalt crew s) = true := by
  unfold execDebugHalt
  split
  · rfl
  · split
    · exact hw
    · rfl

@[simp] theorem execDebugContinue_wf {crew : Nat} : outcomeWf (execDebugContinue crew s) = true := by
  unfold execDebugContinue
  split
  · rfl
  · split
    · exact hw
    · rfl

@[simp] theorem execVdTurnEnd_wf {vd : Nat} : outcomeWf (execVdTurnEnd vd s) = true := by
  unfold execVdTurnEnd
  grind only [State.wf_eq, foldl_wf, outcomeWf, State.beginTurn_wf, State.requestUnit_wf]

@[simp] theorem execVdConfig_wf {w0 w1 w2 w3 : Word} : outcomeWf (execVdConfig w0 w1 w2 w3 s) = true := by
  unfold execVdConfig
  grind only [State.wf_eq, outcomeWf]

/-! ## The wait-for walk -/

theorem State.walkTable_wf {cid : Nat} {c : Context} : (s.walkTable cid c).wf = true := by
  unfold State.walkTable
  grind only [State.wf_eq, foldl_wf, State.logItem_wf, State.log_wf]

@[simp] theorem execWaitForWalk_wf {ctx : Nat} : outcomeWf (execWaitForWalk ctx s) = true := by
  unfold execWaitForWalk
  grind only [State.wf_eq, outcomeWf, State.walkTable_wf]

@[simp] theorem execWalkRequest_wf {ctx : Nat} : outcomeWf (execWalkRequest ctx s) = true := by
  unfold execWalkRequest
  split
  · rfl
  · split
    · rfl
    · exact State.walkTable_wf hw

/-! ## The host, the operating system and the device -/

@[simp] theorem execPowerOn_wf : outcomeWf (execPowerOn s) = true := by
  unfold execPowerOn
  split
  · rfl
  · exact hw

theorem State.powerLost_wf {trips : Nat} : (s.powerLost trips).wf = true := by
  have hreset := State.reset_wf
  unfold State.powerLost
  grind only [State.wf_eq, canonical_iff]

@[simp] theorem execPowerOff_wf : outcomeWf (execPowerOff s) = true := by
  unfold execPowerOff
  split
  · exact State.powerLost_wf hw
  · rfl

@[simp] theorem execThermalTrip_wf : outcomeWf (execThermalTrip s) = true := by
  unfold execThermalTrip
  split
  · exact State.powerLost_wf hw
  · rfl

@[simp] theorem execFlashCommand_wf {image : List Byte} : outcomeWf (execFlashCommand image s) = true := by
  unfold execFlashCommand
  split
  · exact hw
  · rfl

@[simp] theorem execGovernorStep_wf {down : Bool} : outcomeWf (execGovernorStep down s) = true := by
  unfold execGovernorStep
  split
  · split
    · rfl
    · exact hw
  · split
    · rfl
    · exact hw

@[simp] theorem execCoreBatchRelease_wf {good bad : List Nat} : outcomeWf (execCoreBatchRelease good bad s) = true := by
  unfold execCoreBatchRelease
  grind only [State.wf_eq, outcomeWf, State.blockUpdate_wf]

theorem State.setStack_wf {k v : Nat} : (s.setStack k v).wf = true := hw

@[simp] theorem execStackJoin_wf {stack : Nat} : outcomeWf (execStackJoin stack s) = true := by
  unfold execStackJoin
  split
  · exact hw
  · rfl

@[simp] theorem execStackTrained_wf {stack : Nat} {good : Bool} : outcomeWf (execStackTrained stack good s) = true := by
  unfold execStackTrained
  split
  · exact hw
  · rfl

@[simp] theorem execPartitionConfig_wf {i : Nat} {map : List DWord} {wsave : Nat} :
    outcomeWf (execPartitionConfig i map wsave s) = true := by
  unfold execPartitionConfig
  dsimp only
  split
  · rfl
  · split
    · exact hw
    · split
      · exact hw
      · split
        · exact hw
        · exact hw

@[simp] theorem execPeerApertureGrant_wf {part entry : Nat} {value : DWord} :
    outcomeWf (execPeerApertureGrant part entry value s) = true := by
  unfold execPeerApertureGrant
  split
  · split
    · rfl
    · exact hw
  · rfl

@[simp] theorem execContextCreate_wf {desc : List DWord} {byOs : Bool} : outcomeWf (execContextCreate desc byOs s) = true := by
  unfold execContextCreate
  grind only [State.wf_eq, outcomeWf]

@[simp] theorem execCommCreate_wf {ctx i : Nat} {members : List Nat} {routes : List Route} {accepted : Bool} :
    outcomeWf (execCommCreate ctx i members routes accepted s) = true := by
  unfold execCommCreate
  split
  · split
    · rfl
    · split
      · rfl
      · split <;> exact hw
  · rfl

@[simp] theorem execInvalidate_wf {ctx lo : Nat} {hi : Nat} : outcomeWf (execInvalidate ctx lo hi s) = true := by
  unfold execInvalidate
  split
  · rfl
  · exact hw

omit hw in
theorem State.osWrite_wf {cid : Nat} {c : Context} {va : Nat} {gs : List (List Byte)}
    (he : s.osWrite cid c va gs = some s') (hw : s.wf = true) : s'.wf = true := by
  induction gs generalizing s va with
  | nil => simp_all [State.osWrite]
  | cons g gs ih =>
    unfold State.osWrite at he
    grind only [State.performWrite_wf]

@[simp] theorem execModuleLoad_wf {ctx code bcbase : Nat} {file : List Byte} : outcomeWf (execModuleLoad ctx code bcbase file s) = true := by
  unfold execModuleLoad
  grind only [State.wf_eq, outcomeWf, → State.osWrite_wf]

theorem State.physWrite_wf {pa : Nat} {bs : List Byte} : (s.physWrite pa bs).wf = true := by
  unfold State.physWrite
  grind only [State.wf_eq, canonical_iff, State.performWrite_wf, State.wakeMonitors_wf, writeCells_wf]

omit hw in
theorem State.hostBytes_wf {p : Partition} {n a : Nat} {bs : List Byte} (he : s.hostBytes p n a bs = some s')
    (hw : s.wf = true) : s'.wf = true := by
  induction n generalizing s a bs with
  | zero => cases bs <;> simp_all [State.hostBytes]
  | succ n ih =>
    unfold State.hostBytes at he
    grind only [State.physWrite_wf]

@[simp] theorem execHostWrite_wf {part addr : Nat} {data : List Byte} {via : Option Nat} :
    outcomeWf (execHostWrite part addr data via s) = true := by
  unfold execHostWrite
  grind only [outcomeWf, → State.hostBytes_wf]

@[simp] theorem execSnapshot_wf {ctx : Nat} : outcomeWf (execSnapshot ctx s) = true := by
  unfold execSnapshot
  obtain ⟨hmem, -⟩ := s.wf_iff.mp hw
  have hunits : ∀ bs : List (Nat × Nat × Byte), Memory.wf (bs.foldl (fun m x => SMap.setD m 0 x.2.1 0) s.mem) = true := fun bs =>
    SMap.wf_foldl_setD (fun x : Nat × Nat × Byte => x.2.1) (fun _ _ => 0) bs hmem
  grind only [State.wf_eq, canonical_iff, outcomeWf]

@[simp] theorem execCounterTrigger_wf {tick : Nat} : outcomeWf (execCounterTrigger tick s) = true := by
  unfold execCounterTrigger
  split
  · exact hw
  · rfl

@[simp] theorem execCounterLatch_wf : outcomeWf (execCounterLatch s) = true := by
  unfold execCounterLatch
  split
  · exact State.passTime_wf (State.latch_wf hw)
  · rfl

@[simp] theorem execCounterAutoTrigger_wf : outcomeWf (execCounterAutoTrigger s) = true := by
  unfold execCounterAutoTrigger
  grind only [State.wf_eq, outcomeWf, State.passTime_wf, State.latch_wf]

@[simp] theorem execEccCorrected_wf {pen : Pen} : outcomeWf (execEccCorrected pen s) = true := by
  unfold execEccCorrected
  split
  · exact hw
  · rfl

theorem State.voidStore_wf {n : Nat} : (s.voidStore n).wf = true := by
  unfold State.voidStore
  grind only [State.wf_eq, State.opDone_wf]

theorem State.refillLine_wf {a : Nat} : (s.refillLine a).wf = true := by
  unfold State.refillLine
  grind only [State.wf_eq, canonical_iff, writeCells_wf]

theorem State.poisonPen_wf {pen : Pen} : (s.poisonPen pen).wf = true := by
  have hvoid : ∀ o : Option Nat, ((o.map s.voidStore).getD s).wf = true
    | none => hw
    | some _ => State.voidStore_wf hw
  unfold State.poisonPen
  grind only [State.wf_eq, State.icDrop_wf, State.refillLine_wf, State.setTagWord_wf]

@[simp] theorem execUncorrectableError_wf {pen : Pen} : outcomeWf (execUncorrectableError pen s) = true := by
  unfold execUncorrectableError
  grind only [foldl_wf, outcomeWf, State.endContext_wf, State.poisonPen_wf]

/-! ## The matrix engine -/

theorem State.matWrite_wf {x : MatEnv} {off : Nat} {bs : List Byte} {g : Tag} : (s.matWrite x off bs g).wf = true := by
  unfold State.matWrite
  grind only [State.barRetest_wf, State.wakeMonitors_wf, State.writeLoc_wf]

theorem State.writeChecksums_wf {x : MatEnv} {own : Tag} {as bs : List MatRow} : (s.writeChecksums x own as bs).wf = true :=
  foldl_wf _ (fun _ _ h => State.matWrite_wf h) _ hw

theorem State.matPut_wf {x : MatEnv} {off : Nat} {bs : List Byte} {g : Tag} : (s.matPut x off bs g).wf = true := by
  unfold State.matPut
  grind only [State.matWrite_wf]

theorem State.matRetag_wf {x : MatEnv} {off n : Nat} {g : Tag} : (s.matRetag x off n g).wf = true := by
  unfold State.matRetag
  grind only [State.wf_eq, canonical_iff, foldl_wf, SMap.wf_setD]

theorem State.writeTop_wf {x : MatEnv} {own : Tag} : (s.writeTop x own).wf = true := by
  unfold State.writeTop
  grind only [foldl_wf, State.matRetag_wf, State.matPut_wf]

theorem State.writeResults_wf {x : MatEnv} {m : MatOp} {rs : List MatRes} : (s.writeResults x m rs).wf = true := by
  unfold State.writeResults
  grind only [State.wf_eq, canonical_iff, foldl_wf, SMap.wf_setD, State.birth_wf]

theorem State.atHead_wf {m : MatOp} : (s.atHead m).wf = true := by
  unfold State.atHead
  obtain ⟨h1, h2, h3, h4, h5, h6, h7, h8, h9⟩ := s.wf_iff.mp hw
  exact (State.wf_iff _).mpr ⟨h1, h2, h3, h4, SMap.wf_foldl_setD _ _ _ h5, SMap.wf_foldl_setD _ _ _ h6, h7, h8, h9⟩

theorem State.runMma_wf {x : MatEnv} {m : MatOp} : (s.runMma x m).wf = true := by
  unfold State.runMma
  grind only [State.writeResults_wf, State.writeChecksums_wf, State.writeTop_wf]

theorem State.ckRecords_wf {m : MatOp} {rows cols : List Nat} : (s.ckRecords m rows cols).wf = true := by
  unfold State.ckRecords
  extract_lets trs r
  have hr : r.1.wf = true := by
    refine foldl_fst_wf _ (fun p t hp => ?_) trs hw
    dsimp only
    exact State.faultRecord_wf hp
  exact State.modThread_wf hr

theorem State.ckWrite_wf {m : MatOp} {d : List (Nat × Nat)} {w : Word} : (s.ckWrite m d w).wf = true := by
  unfold State.ckWrite
  grind only [foldl_wf, State.landRegs_wf]

theorem State.runAcchk_wf {x : MatEnv} {m : MatOp} {d : List (Nat × Nat)} : (s.runAcchk x m d).wf = true := by
  unfold State.runAcchk
  grind only [State.wf_eq, canonical_iff, SMap.wf_setD, State.ckWrite_wf, State.ckRecords_wf, State.faultRecord_wf]

theorem State.runAccld_wf {x : MatEnv} {m : MatOp} {tile : Nat} : (s.runAccld x m tile).wf = true := by
  unfold State.runAccld
  grind only [State.wf_eq, canonical_iff, foldl_wf, SMap.wf_setD]

theorem State.accstGran_wf {x : MatEnv} {m : MatOp} {bf : Bool} {tile i n : Nat} : (s.accstGran x m bf tile i n).wf = true := by
  unfold State.accstGran
  grind only [State.birth_wf, State.matWrite_wf]

theorem State.runAccst_wf {x : MatEnv} {m : MatOp} {bf : Bool} {tile : Nat} : (s.runAccst x m bf tile).wf = true :=
  foldl_wf _ (fun _ _ h => State.accstGran_wf h) _ hw

theorem State.runAccz_wf {core : Nat} {m : MatOp} {tile n : Nat} : (s.runAccz core m tile n).wf = true := by
  unfold State.runAccz
  grind only [State.wf_eq, canonical_iff, foldl_wf, SMap.wf_setD]

theorem State.runInject_wf {core : Nat} {m : MatOp} {tile elt bitv : Nat} {tb : Tag} :
    (s.runInject core m tile elt bitv tb).wf = true := by
  unfold State.runInject
  grind only [State.wf_eq, canonical_iff, SMap.wf_setD, State.birth_wf]

theorem State.matPop_wf {core : Nat} {m : MatOp} {rest : List MatOp} : (s.matPop core m rest).wf = true := by
  unfold State.matPop
  grind only [State.wf_eq, State.settleCrew_wf, State.opDone_wf]

theorem State.matAbort_wf {core : Nat} {m : MatOp} {rest : List MatOp} {cause : Nat} : (s.matAbort core m rest cause).wf = true := by
  unfold State.matAbort
  grind only [State.faultRecord_wf, State.matPop_wf, State.modThread_wf]

@[simp] theorem execMatrixOpHead_wf {core : Nat} : outcomeWf (execMatrixOpHead core s) = true := by
  unfold execMatrixOpHead
  grind only [State.wf_eq, outcomeWf, State.engineStep_wf, State.matAbort_wf]

theorem State.runMat_wf {core : Nat} {c : Crew} {m : MatOp} {b : List Byte} : (s.runMat core c m b).wf = true := by
  unfold State.runMat
  split
  · exact State.runMma_wf hw
  · exact State.runAcchk_wf hw
  · exact State.runAccld_wf hw
  · exact State.runAccst_wf hw
  · exact State.runAccz_wf hw
  · exact State.runInject_wf hw

@[simp] theorem execMatrixOpComplete_wf {core : Nat} : outcomeWf (execMatrixOpComplete core s) = true := by
  unfold execMatrixOpComplete
  grind only [State.wf_eq, outcomeWf, State.runMat_wf, State.engineStep_wf, State.count_wf, State.settleCrew_wf, State.opDone_wf]

theorem State.joinMatrix_wf {e : Env} {uid : Nat} {t : Thread} {group : List Nat} {flag : Option Nat}
    {kind : MatKind} {addr : Nat} :
    (s.joinMatrix e uid t group flag kind addr).wf = true := by
  unfold State.joinMatrix
  grind only [State.wf_eq, LaneRes.wf, State.newOp_wf]

@[simp] theorem execMma_wf {f : FMma} : outcomeWf (execMma f s) = true := by
  unfold execMma
  grind only [LaneRes.wf, GroupRes.wf, State.perGroup_wf, State.laneBirth_wf, State.joinMatrix_wf, State.modThread_wf]

@[simp] theorem execAcchk_wf {f : FMma} : outcomeWf (execAcchk f s) = true := by
  unfold execAcchk
  grind only [State.once_wf, State.joinMatrix_wf]

@[simp] theorem execAccld_wf {f : FAccLd} : outcomeWf (execAccld f s) = true := by
  unfold execAccld
  grind only [State.once_wf, State.joinMatrix_wf]

@[simp] theorem execAccst_wf {f : FAccSt} : outcomeWf (execAccst f s) = true := by
  unfold execAccst
  grind only [State.once_wf, State.joinMatrix_wf]

@[simp] theorem execAccz_wf {f : FAccZ} : outcomeWf (execAccz f s) = true := State.once_wf hw fun _ _ _ _ _ hs => State.joinMatrix_wf hs

@[simp] theorem execInjectAcc_wf {f : FInjAcc} : outcomeWf (execInjectAcc f s) = true := by
  unfold execInjectAcc
  grind only [LaneRes.wf, GroupRes.wf, State.perGroup_wf, State.joinMatrix_wf, State.modThread_wf]

/-! ## System instructions and spawning -/

@[simp] theorem execMfs_wf {d : VReg} {n : BitVec 7} : outcomeWf (execMfs d n s) = true :=
  State.perLane_wf hw fun _ _ _ _ hs => State.setRegs_wf hs

@[simp] theorem execMts_wf {n : BitVec 7} {a : VReg} : outcomeWf (execMts n a s) = true :=
  State.perLane_wf hw fun _ _ _ _ hs => State.modThread_wf hs

@[simp] theorem execTagrd_wf {f : Fda} : outcomeWf (execTagrd f s) = true := State.perLane_wf hw fun _ _ _ _ hs => State.setReg_wf hs

@[simp] theorem execTagwr_wf {f : Fda} : outcomeWf (execTagwr f s) = true := by
  unfold execTagwr
  grind only [LaneRes.wf, State.perLane_wf, State.setReg_wf]

theorem State.setWatch_wf {e : Env} {ctx : Bool} {i : Nat} {w : Watch} : (s.setWatch e ctx i w).wf = true := by
  unfold State.setWatch
  split <;> exact hw

theorem watchLane_wf {f : FWatch} {e : Env} {uid : Nat} {t : Thread} : (watchLane f e s uid t).wf = true := by
  unfold watchLane
  grind only [LaneRes.wf, State.readBlock_wf, State.wokenAcquire_wf, State.watched_wf, State.setWatch_wf]

@[simp] theorem execWatch_wf {f : FWatch} : outcomeWf (execWatch f s) = true := State.once_wf hw fun _ _ _ _ _ hs => watchLane_wf hs

theorem injectLane_wf {f : FTwo} {e : Env} {uid : Nat} {t : Thread} : (injectLane f e s uid t).wf = true := by
  unfold injectLane
  grind only [LaneRes.wf, State.bornResult_wf, State.setReg_wf]

@[simp] theorem execInject_wf {f : FTwo} : outcomeWf (execInject f s) = true := State.perLane_wf hw fun _ _ _ _ hs => injectLane_wf hs

theorem State.startSpawned_wf {core quad entry : Nat} {l : List (SpawnRec × Nat × Nat × Nat)} :
    (s.startSpawned core quad entry l).wf = true := by
  unfold State.startSpawned
  grind only [foldl_wf, State.dropL1_wf, State.addThread_wf, State.startRegs_wf]

omit hw in
theorem State.launchBin_wf {k : Nat} {b : SpawnBin} {all : Bool} (he : s.launchBin k b all = some s')
    (hw : s.wf = true) : s'.wf = true := by
  unfold State.launchBin at he
  grind only [State.wf_eq, State.startSpawned_wf]

theorem State.newBin_wf {e : Env} {k entry : Nat} {r : SpawnRec} : (s.newBin e k entry r).wf = true := hw

theorem State.placeRec_wf {e : Env} {entry : Nat} {r : SpawnRec} : (s.placeRec e entry r).wf = true := by
  unfold State.placeRec
  dsimp only
  split
  · grind only [State.wf_eq, SpawnRes.wf]
  · split
    · exact State.newBin_wf hw
    · split
      · exact hw
      · grind only [State.wf_eq, SpawnRes.wf, State.newBin_wf, → State.launchBin_wf]

theorem spawnLane_wf {f : FTwo} {e : Env} {uid : Nat} {t : Thread} : (spawnLane f e s uid t).wf = true := by
  unfold spawnLane
  grind only [LaneRes.wf, SpawnRes.wf, State.releaseTry_wf, State.placeRec_wf]

@[simp] theorem execSpawn_wf {f : FTwo} : outcomeWf (execSpawn f s) = true := State.perLane_wf hw fun _ _ _ _ hs => spawnLane_wf hs

@[simp] theorem execSpawnBinTimer_wf {core quad bin : Nat} : outcomeWf (execSpawnBinTimer core quad bin s) = true := by
  unfold execSpawnBinTimer
  grind only [State.wf_eq, outcomeWf]

@[simp] theorem execSpawnBinLaunch_wf {core quad bin : Nat} : outcomeWf (execSpawnBinLaunch core quad bin s) = true := by
  unfold execSpawnBinLaunch
  grind only [outcomeWf, → State.launchBin_wf]

theorem State.queueRecord_wf {cid : Nat} {c : Context} {from_ n where_ : Nat} {rs : List Reg} :
    (s.queueRecord cid c from_ n where_ rs).wf = true := by
  unfold State.queueRecord
  grind only [QueueRes.wf, State.log_wf, State.modNode_wf, State.performWrite_wf]

theorem emitLane_wf {a : VReg} {j : Nat} {e : Env} {uid : Nat} {t : Thread} : (emitLane a j e s uid t).wf = true := by
  unfold emitLane
  split
  · exact hw
  · split
    · exact hw
    · split
      · exact hw
      · grind only [LaneRes.wf, QueueRes.wf, State.releaseTry_wf, State.queueRecord_wf]

@[simp] theorem execEmit_wf {a : VReg} {j : BitVec 2} : outcomeWf (execEmit a j s) = true :=
  State.perLane_wf hw fun _ _ _ _ hs => emitLane_wf hs

/-! ## Every instruction and step -/

theorem exec_wf {i : Instr} : outcomeWf (exec i s) = true := by
  cases i <;> simp [exec, hw]

/-! ## The step -/

theorem stepIssue_wf : outcomeWf (stepIssue s) = true := by
  unfold stepIssue
  grind only [outcomeWf, Issue.wf, State.issue_wf, exec_wf]

theorem stepAct_wf {i : Instr} : outcomeWf (stepAct i s) = true := by
  unfold stepAct
  grind only [State.wf_eq, exec_wf]

omit hw in
theorem firstOf_wf {is : List Instr} (he : firstOf s is = some s') (hw : s.wf = true) : s'.wf = true := by
  induction is with
  | nil => simp [firstOf] at he
  | cons i is ih =>
    unfold firstOf at he
    grind only [outcomeWf, stepAct_wf]

theorem stepQuad_wf {qk : Nat} : outcomeWf (stepQuad qk s) = true := by
  unfold stepQuad
  split
  · exact stepIssue_wf hw
  · exact hw

theorem stepAlone_wf : outcomeWf (stepAlone s) = true := by
  unfold stepAlone
  grind only [State.wf_eq, outcomeWf, stepQuad_wf, → firstOf_wf, State.passTime_wf]

theorem State.applySetting_wf {x : Setting} : (s.applySetting x).wf = true := by
  unfold State.applySetting
  grind only [State.wf_eq, foldl_wf, State.requestUnit_wf]

theorem stepAgenda_wf : outcomeWf (stepAgenda s) = true := by
  unfold stepAgenda
  grind only [State.wf_eq, outcomeWf, stepQuad_wf, stepAct_wf, State.passTime_wf, State.applySetting_wf, stepAlone_wf]

theorem step_wf : outcomeWf (step s) = true := by
  unfold step
  grind only [outcomeWf, stepAgenda_wf, State.pshareAll_wf]

end

/-! ## The obligation -/

/-- Settles O59: `step_wf`, which `exec_wf` gives for what the agenda names and for what happens of itself. -/
theorem stepKeepsCanonical : Obligations.StepKeepsCanonical := by
  intro s s' hw hs
  have h := step_wf hw
  rwa [hs] at h

end Sys2Proof.Machine
end

section

namespace Sys2Proof.Machine

/-! ## Power, cores and stacks (R258, R261, R275 to R277, R279) -/

theorem foldl_add_two_pow (l : List Nat) (m : Nat) : l.foldl (fun m c => m + 2 ^ c) m = m + (l.map (2 ^ ·)).sum := by
  induction l generalizing m with
  | nil => simp
  | cons c l ih => rw [List.foldl_cons, ih, List.map_cons, List.sum_cons, Nat.add_assoc]

/-- Four 64-bit fields are the number they cut (R258). -/
theorem nfld_words {n : Nat} (h : n < 2 ^ 256) :
    nfld n 0 64 + nfld n 64 64 * 2 ^ 64 + nfld n 128 64 * 2 ^ 128 + nfld n 192 64 * 2 ^ 192 = n := by
  simp only [nfld]
  omega

theorem testBit_foldl_add_two_pow {l : List Nat} (hl : l.SortedLT) (k : Nat) :
    (l.foldl (fun m c => m + 2 ^ c) 0).testBit k = true ↔ k ∈ l := by
  rw [foldl_add_two_pow, Nat.zero_add, ← Nat.mem_bitIndices, Nat.bitIndices_sum_map_two_pow hl]

/-- The cores a COREMAP list grants are those it was made of (R258). -/
theorem testBit_coreBits {p : Partition} {l : List Nat} (hp : p.map = coreMap l) (hl : l.SortedLT) (h : ∀ c ∈ l, c < 256) (k : Nat) :
    p.coreBits.testBit k = true ↔ k ∈ l := by
  have hlt : l.foldl (fun m c => m + 2 ^ c) 0 < 2 ^ 256 := Nat.lt_pow_two_of_testBit _ fun i hi =>
    Bool.eq_false_iff.mpr fun hb => absurd (h i ((testBit_foldl_add_two_pow hl i).mp hb)) (by omega)
  have hbits : p.coreBits = l.foldl (fun m c => m + 2 ^ c) 0 := by
    rw [Partition.coreBits, hp]
    exact nfld_words hlt
  rw [hbits, testBit_foldl_add_two_pow hl]

theorem mem_bootPartition_cores (c : Chip) {k : Nat} (hk : k < 200) :
    k ∈ c.bootPartition.cores ↔ c.fusedOff.contains k = false := by
  have hsorted : ((List.range 200).filter fun k => !c.fusedOff.contains k).SortedLT :=
    (List.pairwise_lt_range.filter _).sortedLT
  have hbit := testBit_coreBits (p := c.bootPartition) rfl hsorted (fun c hc => by
    have := List.mem_range.mp (List.mem_of_mem_filter hc); omega) k
  rw [Partition.cores, List.mem_filter, hbit]
  simp [hk]

theorem exec_powerOn {s : State} (h : s.chip.powered = false) : exec .powerOn s = .next { s with
    chip := ({ s.chip with powered := true, boot := true, recovery := !s.chip.bootOk } : Chip).startMcs
    parts := [(0, s.chip.bootPartition)] } := by
  change execPowerOn s = _
  rw [execPowerOn, h]
  rfl

theorem Chip.startMcs_powered (c : Chip) : c.startMcs.powered = c.powered := by unfold Chip.startMcs; split <;> rfl
theorem Chip.startMcs_boot (c : Chip) : c.startMcs.boot = c.boot := by unfold Chip.startMcs; split <;> rfl
theorem Chip.startMcs_recovery (c : Chip) : c.startMcs.recovery = c.recovery := by unfold Chip.startMcs; split <;> rfl
theorem Chip.startMcs_mcMode (c : Chip) : c.startMcs.mcMode =
    if c.recovery then (List.replicate Config.mcs none).set 0 (some 3) else List.replicate Config.mcs (some 1) := by
  unfold Chip.startMcs; split <;> rfl

theorem exec_powerOff {s : State} (h : s.chip.powered = true) : exec .powerOff s = .next (s.powerLost s.chip.trips) := by
  change execPowerOff s = _
  rw [execPowerOff, if_pos h]

theorem exec_thermalTrip {s : State} (h : s.chip.powered = true) : exec .thermalTrip s = .next (s.powerLost (s.chip.trips + 1)) := by
  change execThermalTrip s = _
  rw [execThermalTrip, if_pos h]

theorem State.blockUpdate_get? (s : State) (f : Partition → Bool) (k : Nat) :
    SMap.get? (s.blockUpdate f).parts k = (SMap.get? s.parts k).map fun p =>
      if f p then { p with seq := (p.seq + 2) % 2 ^ 32, raised := p.raised + 1 } else p := by
  rw [← SMap.get?_map s.parts fun _ p => if f p then { p with seq := (p.seq + 2) % 2 ^ 32, raised := p.raised + 1 } else p, State.blockUpdate]
  congr 1
  exact List.map_congr_left fun e _ => by split <;> rfl

theorem State.blockUpdate_get?_of_some {s : State} {f : Partition → Bool} {k : Nat} {p : Partition} (hp : SMap.get? s.parts k = some p) :
    SMap.get? (s.blockUpdate f).parts k = some (if f p then { p with seq := (p.seq + 2) % 2 ^ 32, raised := p.raised + 1 } else p) := by
  rw [State.blockUpdate_get?, hp]
  rfl

theorem eraseDups_of_nodup {α : Type} [BEq α] [LawfulBEq α] : ∀ {l : List α}, l.Nodup → l.eraseDups = l
  | [], _ => rfl
  | a :: l, h => by
    obtain ⟨ha, hl⟩ := List.nodup_cons.mp h
    have hf : l.filter (fun b => !b == a) = l := List.filter_eq_self.mpr fun b hb => by
      simpa using fun hab : b = a => ha (hab ▸ hb)
    rw [List.eraseDups_cons, hf, eraseDups_of_nodup hl]

theorem exec_coreBatchRelease {s : State} {good bad : List Nat} (hs : s.serves = true) (hne : good ++ bad ≠ []) (hlen : (good ++ bad).length ≤ 16)
    (hnd : (good ++ bad).Nodup) (hfree : ∀ c ∈ good ++ bad, c < 200 ∧ s.chip.fusedOff.contains c = false ∧ s.chip.released.contains c = false ∧
      s.chip.failed.contains c = false) :
    exec (.coreBatchRelease good bad) s = .next (({ s with chip := { s.chip with
      released := s.chip.released ++ good, failed := s.chip.failed ++ bad } } : State).blockUpdate fun p => p.cores.any (good ++ bad).contains) := by
  change execCoreBatchRelease good bad s = _
  have hcond : (!s.serves || (good ++ bad).isEmpty || decide (16 < (good ++ bad).length) ||
      (good ++ bad).eraseDups.length != (good ++ bad).length ||
      (good ++ bad).any (fun c => decide (200 ≤ c) || s.chip.fusedOff.contains c || s.chip.released.contains c || s.chip.failed.contains c)) = false := by
    have hany : (good ++ bad).any (fun c => decide (200 ≤ c) || s.chip.fusedOff.contains c || s.chip.released.contains c ||
        s.chip.failed.contains c) = false := by
      rw [List.any_eq_false]
      intro c hc
      obtain ⟨h1, h2, h3, h4⟩ := hfree c hc
      rw [h2, h3, h4, decide_eq_false (by omega)]
      decide
    have hempty : (good ++ bad).isEmpty = false := by rw [List.isEmpty_eq_false_iff]; exact hne
    rw [hs, hempty, hany, eraseDups_of_nodup hnd, decide_eq_false (by omega), bne_self_eq_false]
    rfl
  rw [execCoreBatchRelease]
  simp only [hcond]
  rfl

theorem exec_stackJoin {s : State} {k : Nat} (hs : s.serves = true) (hk : k < 8) (h : s.chip.sst.getD k 0 = 0) :
    exec (.stackJoin k) s = .next (s.setStack k 1) := by
  change execStackJoin k s = _
  rw [execStackJoin, hs, decide_eq_true hk, h]
  rfl

theorem exec_stackTrained {s : State} {k : Nat} {good : Bool} (hs : s.serves = true) (hk : k < 8) (h : s.chip.sst.getD k 0 = 1) :
    exec (.stackTrained k good) s = .next (s.setStack k (if good then 2 else 3)) := by
  change execStackTrained k good s = _
  rw [execStackTrained, hs, decide_eq_true hk, h]
  rfl

/-! ## What the end of a context leaves (R251, R252) -/

/-- The crews of a state, and which of its contexts have ended: what the end of a context is to settle, and its bookkeeping is to leave alone. -/
def State.census (s : State) : SMap Crew × (Nat → Option Bool) := (s.crews, fun k => (SMap.get? s.ctxs k).map (·.ended))

theorem State.census_snd (s : State) (k : Nat) : s.census.2 k = (SMap.get? s.ctxs k).map (·.ended) := rfl

theorem foldl_census {β : Type} (f : State → β → State) (h : ∀ s x, (f s x).census = s.census) (l : List β) (s : State) :
    (l.foldl f s).census = s.census := by
  induction l generalizing s with
  | nil => rfl
  | cons x l ih => rw [List.foldl_cons, ih, h]

theorem State.census_modCtx {s : State} {cid : Nat} {f : Context → Context} (h : ∀ c, (f c).ended = c.ended) :
    ({ s with ctxs := SMap.mod s.ctxs cid f } : State).census = s.census :=
  congrArg (s.crews, ·) (funext fun k => by
    rw [SMap.get?_mod]
    split
    · rw [Option.map_map]
      exact congrArg (Option.map · _) (funext h)
    · rfl)

theorem State.census_putCtx {s : State} {cid : Nat} {c c' : Context} (hc : SMap.get? s.ctxs cid = some c) (h : c'.ended = c.ended) :
    ({ s with ctxs := SMap.put s.ctxs cid c' } : State).census = s.census :=
  congrArg (s.crews, ·) (funext fun k => by
    rw [SMap.get?_put]
    split
    · next hk => rw [hk, hc]; exact congrArg some h
    · rfl)

section
variable {s : State}

theorem State.log_census {cid type status cause id where_ : Nat} : (s.log cid type status cause id where_).census = s.census :=
  State.census_modCtx fun _ => rfl

theorem State.lanes_census {qk cid pc cls n : Nat} : (s.lanes qk cid pc cls n).census = s.census := by
  unfold State.lanes
  split
  · rfl
  · exact State.census_modCtx (s := s.count (cntQuad qk (3 + cls)) n) fun _ => Context.bin_ended ..

theorem State.opDone_census {op : Nat} : (s.opDone op).census = s.census := by
  unfold State.opDone
  split
  · rfl
  · split <;> rfl

theorem State.squashPend_census {core quad cid : Nat} {p : Pending} : (s.squashPend core quad cid p).census = s.census :=
  foldl_census _ (fun _ _ => State.lanes_census) _ _

theorem State.squashAll_census {uid : Nat} : (s.squashAll uid).census = s.census := by
  unfold State.squashAll
  split
  · rfl
  · exact foldl_census _ (fun _ _ => State.squashPend_census) _ _

theorem State.discardThread_census {uid : Nat} : (s.discardThread uid).census = s.census := State.squashAll_census

theorem State.accountCrew_census {cid crew cause : Nat} : (s.accountCrew cid crew cause).census = s.census := by
  unfold State.accountCrew
  extract_lets copies s1 tiles s2 arm s3 s4 rounds s5
  have h1 : s1.census = s.census := foldl_census _ (fun s (e : Nat × Copy) => State.log_census (s := s.lowerLines e.2.lines)) _ _
  have h2 : s2.census = s1.census := foldl_census _ (fun _ _ => State.log_census) _ _
  have h3 : s3.census = s2.census := foldl_census _ (fun _ _ => State.log_census) _ _
  have h4 : s4.census = s3.census := foldl_census _ (fun _ _ => State.log_census) _ _
  have h5 : s5.census = s4.census := rfl
  clear_value s5 s4 s3 s2 s1
  exact (((h5.trans h4).trans h3).trans h2).trans h1

/-- Leaving with a crew, its threads take no context and no other crew along. -/
theorem State.dropCrew_census {crew : Nat} : (s.dropCrew crew).census = (SMap.del s.census.1 crew, s.census.2) := by
  have h : ((s.crewThreads crew).foldl (fun s e => s.discardThread e.1) s).census = s.census :=
    foldl_census _ (fun _ _ => State.discardThread_census) _ _
  exact congrArg (fun c : SMap Crew × (Nat → Option Bool) => (SMap.del c.1 crew, c.2)) h

theorem State.sendFail_census {p : Posted} {c code : Nat} : (s.sendFail p c code).census = s.census :=
  foldl_census (fun (s : State) d => s.send d 6 p.cid [code, c]) (fun _ _ => rfl) _ _

/-! ## Writes -/

theorem State.scrWrite_census {core b : Nat} {data : List Byte} : (s.scrWrite core b data).census = s.census := by
  induction data generalizing s b with
  | nil => rfl
  | cons x xs ih => exact ih

theorem State.winWrite1_census {core o : Nat} {data : List Byte} {tag : Tag} : (s.winWrite1 core o data tag).census = s.census := by
  unfold State.winWrite1
  dsimp only
  split
  · rfl
  · rfl
  · exact State.scrWrite_census
  · rfl

theorem State.winWrite_census {core o : Nat} {data : List Byte} {tag : Tag} : (s.winWrite core o data tag).census = s.census := by
  unfold State.winWrite
  extract_lets s1
  have h : s1.census = s.census := foldl_census _ (fun _ _ => State.winWrite1_census) _ _
  split
  · split <;> exact h
  · exact h

theorem State.writeLoc_census {l : Loc} {data : List Byte} {tag : Tag} {tagAddr : Option Nat} {whole : Bool} :
    (s.writeLoc l data tag tagAddr whole).census = s.census := by
  cases l with
  | hbm a => cases tagAddr <;> rfl
  | win c o => exact State.winWrite_census
  | scr c b => exact State.scrWrite_census
  | _ => rfl

theorem State.snapUnit_census {cid u : Nat} {l : Loc} : (s.snapUnit cid u l).census = s.census := by
  unfold State.snapUnit
  split
  · next hc =>
    split
    · rfl
    · split
      · exact State.census_putCtx hc rfl
      · rfl
  · rfl

theorem State.markUnit_census {cid u : Nat} {l : Loc} : (s.markUnit cid u l).census = s.census := by
  unfold State.markUnit
  grind only [State.census, State.snapUnit_census]

theorem State.markDirty_census {cid va : Nat} {l : Loc} : (s.markDirty cid va l).census = s.census := by
  unfold State.markDirty
  dsimp only
  split
  · exact (foldl_census _ (fun _ _ => foldl_census _ (fun _ _ => State.markUnit_census) _ _) _ _).trans State.markUnit_census
  · exact State.markUnit_census

theorem State.performWrite_census {cid va : Nat} {l : Loc} {data : List Byte} {tag : Tag} {tagAddr : Option Nat} :
    (s.performWrite cid va l data tag tagAddr).census = s.census := by
  unfold State.performWrite
  extract_lets s1
  have h : s1.census = s.census := by
    unfold s1
    split
    · rfl
    · exact State.markDirty_census
  exact Eq.trans State.writeLoc_census h

theorem State.recWrite_census {s' : State} {cid va : Nat} {data : List (List Byte)} (h : s.recWrite cid va data = .ok s') :
    s'.census = s.census := by
  induction data generalizing s va with
  | nil => cases h; rfl
  | cons g gs ih =>
    unfold State.recWrite at h
    grind only [State.performWrite_census]

theorem State.recTry_census {cid va : Nat} {data : List (List Byte)} : (s.recTry cid va data).census = s.census := by
  unfold State.recTry
  split
  · next h => exact State.recWrite_census h
  · rfl

/-! ## The end of a context -/

theorem State.endPosted_census {cause : Nat} {p : Posted} : (s.endPosted cause p).census = s.census := by
  unfold State.endPosted
  extract_lets p' code s1 s2 s3
  calc (s3.recTry p'.ctx p'.res (grans 2 (p'.record s3.timebase))).census
    _ = s3.census := State.recTry_census
    _ = s2.census := foldl_census _ (fun _ _ => State.recTry_census) _ _
    _ = s1.census := foldl_census _ (fun _ _ => State.sendFail_census) _ _
    _ = s.census := foldl_census _ (fun _ _ => State.log_census) _ _

theorem State.reportFailed_census {l : Launch} {id : Nat} : (s.reportFailed l id).census = s.census := by
  unfold State.reportFailed
  split <;> rfl

theorem foldl_leave_census {cid cause : Nat} (l : List (Nat × Crew)) (s : State) :
    (l.foldl (fun s e => (s.accountCrew cid e.1 cause).dropCrew e.1) s).census =
      (s.census.1.filter fun e => !(l.map (·.1)).contains e.1, s.census.2) := by
  induction l generalizing s with
  | nil => simp
  | cons x l ih =>
    rw [List.foldl_cons, ih, State.dropCrew_census, State.accountCrew_census, SMap.del, List.filter_filter]
    simp [bne, Bool.and_comm]

/-- The log entries of the graph nodes of a context that ends (R252). -/
theorem foldl_nodes_census {cid cause : Nat} {c : Context} {l : List (Nat × NodeState)} :
    (l.foldl (fun (s : State) n =>
        let x := s.node c n.1
        let s := (List.range (n.2.tail - n.2.head)).foldl (fun (s : State) k =>
          s.log cid 4 2 cause ((x.map fun y => y.recAddr (n.2.head + k)).getD (c.nodeAddr n.1)) 0) s
        match x with
        | some y => if !y.takes && y.kind == 0 && s.met cid n.1 y n.2 then s.log cid 4 2 cause (c.nodeAddr n.1) 0 else s
        | none => s) s).census = s.census := by
  refine foldl_census _ (fun s n => ?_) _ _
  extract_lets x s1
  have h1 : s1.census = s.census := foldl_census _ (fun _ _ => State.log_census) _ _
  clear_value x s1
  cases x with
  | none => exact h1
  | some y =>
    dsimp only
    split
    · exact State.log_census.trans h1
    · exact h1

/-- A context that ends takes its crews along and no other context (R252). -/
theorem State.endContext_census {cid cause : Nat} : (s.endContext cid cause).census =
    (s.crews.filter fun e => !((s.crews.filter fun e => e.2.ctx == cid).map (·.1)).contains e.1, fun k => (s.census.2 k).map (· || k == cid)) := by
  unfold State.endContext
  extract_lets crews s1 s2 s3 gone s4
  have h1 : s1.census = (s.crews.filter fun e => !(crews.map (·.1)).contains e.1, s.census.2) := foldl_leave_census crews s
  have h2 : s2.census = s1.census := by
    unfold s2
    split
    · rfl
    · exact foldl_nodes_census
  have h3 : s3.census = s2.census := foldl_census _ (fun _ _ => State.endPosted_census) _ _
  have h4 : s4.census = s3.census := foldl_census _ (fun _ _ => State.reportFailed_census.trans State.log_census) _ _
  have hall : s4.census = (s.crews.filter fun e => !(crews.map (·.1)).contains e.1, s.census.2) := ((h4.trans h3).trans h2).trans h1
  clear_value s4
  rw [State.census, Prod.mk.injEq] at hall ⊢
  obtain ⟨hcrews, hended⟩ := hall
  refine ⟨hcrews, funext fun k => ?_⟩
  rw [← hended, SMap.get?_mod]
  split
  · next hk =>
    simp only [hk, beq_self_eq_true, Bool.or_true, Option.map_map]
    rfl
  · next hk =>
    simp only [beq_eq_false_iff_ne.mpr hk, Bool.or_false, Option.map_id']

theorem State.mem_endContext_crews {cid cause : Nat} {e : Nat × Crew} (h : e ∈ (s.endContext cid cause).crews) :
    e ∈ s.crews ∧ e.2.ctx ≠ cid := by
  have hcrews : (s.endContext cid cause).crews = _ := congrArg Prod.fst State.endContext_census
  rw [hcrews, List.mem_filter] at h
  obtain ⟨hmem, hkey⟩ := h
  refine ⟨hmem, fun hctx => ?_⟩
  have hgone : e.1 ∈ (s.crews.filter fun e => e.2.ctx == cid).map (·.1) :=
    List.mem_map_of_mem (List.mem_filter.mpr ⟨hmem, beq_iff_eq.mpr hctx⟩)
  rw [List.contains_iff_mem.mpr hgone] at hkey
  exact absurd hkey (by decide)

theorem mem_foldl_endContext_crews {cause : Nat} {e : Nat × Crew} {dead : List Nat} {s : State}
    (h : e ∈ (dead.foldl (fun s c => s.endContext c cause) s).crews) : e ∈ s.crews ∧ e.2.ctx ∉ dead := by
  induction dead generalizing s with
  | nil => exact ⟨h, List.not_mem_nil⟩
  | cons c dead ih =>
    obtain ⟨hmem, hdead⟩ := ih h
    obtain ⟨hmem, hc⟩ := State.mem_endContext_crews hmem
    exact ⟨hmem, List.not_mem_cons_of_ne_of_not_mem hc hdead⟩

theorem foldl_endContext_ended {cause : Nat} {dead : List Nat} {s : State} {k : Nat} :
    (dead.foldl (fun s c => s.endContext c cause) s).census.2 k = (s.census.2 k).map (· || dead.contains k) := by
  induction dead generalizing s with
  | nil => simp
  | cons c dead ih =>
    rw [List.foldl_cons, ih, State.endContext_census, Option.map_map]
    simp [Function.comp_def, Bool.or_assoc, beq_eq_decide]

/-! ## An uncorrectable error (R251) -/

theorem State.voidStore_census {n : Nat} : (s.voidStore n).census = s.census := by
  unfold State.voidStore
  split
  · rfl
  · exact State.opDone_census

theorem State.poisonPen_census {pen : Pen} : (s.poisonPen pen).census = s.census := by
  have hvoid (o : Option Nat) : ((o.map s.voidStore).getD s).census = s.census := by
    cases o with
    | none => rfl
    | some n => exact State.voidStore_census
  cases pen with
  | storeEntry u i => exact hvoid _
  | pathEntry core path i => exact hvoid _
  | l1Line core quad ctx va =>
    rw [State.poisonPen]
    split <;> rfl
  | l2Line ctx va =>
    rw [State.poisonPen]
    split <;> rfl
  | memGranule ctx va =>
    rw [State.poisonPen]
    split <;> rfl
  | _ => rfl

theorem SMap.le_of_mem_risingFrom {α : Type} {m : SMap α} {lo : Nat} (h : SMap.risingFrom lo m = true) {e : Nat × α} (he : e ∈ m) :
    lo ≤ e.1 := by
  induction m generalizing lo with
  | nil => cases he
  | cons x m ih =>
    rw [SMap.risingFrom, Bool.and_eq_true, decide_eq_true_eq] at h
    obtain ⟨hx, hm⟩ := h
    cases he with
    | head => exact hx
    | tail _ he => exact (hx.trans (Nat.le_succ _)).trans (ih hm he)

theorem SMap.mem_iff_get?_of_risingFrom {α : Type} {m : SMap α} {lo : Nat} (h : SMap.risingFrom lo m = true) {k : Nat} {v : α} :
    (k, v) ∈ m ↔ SMap.get? m k = some v := by
  induction m generalizing lo with
  | nil => simp
  | cons x m ih =>
    rw [SMap.risingFrom, Bool.and_eq_true] at h
    rw [SMap.get?_cons, List.mem_cons, ih h.2]
    have hlt := fun he => SMap.le_of_mem_risingFrom h.2 (e := (k, v)) ((ih h.2).mpr he)
    grind

/-- The contexts an uncorrectable error ends: those of its owner, or all of them at mark 0 (R251). -/
def State.toEnd (s : State) (o : Nat) : List Nat := (s.ctxs.filter fun c => !c.2.ended && (o == 0 || c.1 == o)).map (·.1)

theorem State.mem_toEnd {o k : Nat} (hr : SMap.rising s.ctxs = true) : k ∈ s.toEnd o ↔ s.live k = true ∧ (o == 0 || k == o) = true := by
  have hmem (c : Context) : (k, c) ∈ s.ctxs ↔ SMap.get? s.ctxs k = some c := SMap.mem_iff_get?_of_risingFrom hr
  simp only [State.toEnd, List.mem_map, List.mem_filter, Prod.exists, exists_and_right, exists_eq_right, hmem, State.live, Bool.and_eq_true]
  cases SMap.get? s.ctxs k <;> simp

theorem exec_uncorrectableError {pen : Pen} {o : Nat} (hp : s.chip.powered = true) (ho : s.penOwner pen = some o) :
    exec (.uncorrectableError pen) s = .next ((s.toEnd o).foldl (fun (x : State) c => x.endContext c (s.penCause pen)) (s.poisonPen pen)) := by
  change execUncorrectableError pen s = _
  rw [execUncorrectableError, hp, ho]
  rfl

/-- What an uncorrectable error leaves of a context: it stands, and it has ended when it had or when it owns the pen. -/
theorem foldl_toEnd_get? {pen : Pen} {o k cause : Nat} {c : Context} (hr : SMap.rising s.ctxs = true) (hc : SMap.get? s.ctxs k = some c) :
    ∃ c', SMap.get? ((s.toEnd o).foldl (fun x c => x.endContext c cause) (s.poisonPen pen)).ctxs k = some c' ∧
      c'.ended = (c.ended || o == 0 || k == o) := by
  have hended : ((s.toEnd o).foldl (fun x c => x.endContext c cause) (s.poisonPen pen)).census.2 k =
      some (c.ended || (s.toEnd o).contains k) := by
    rw [foldl_endContext_ended, State.poisonPen_census, State.census_snd, hc]
    rfl
  obtain ⟨c', hc', he⟩ := Option.map_eq_some_iff.mp hended
  have hdead : (s.toEnd o).contains k = (!c.ended && (o == 0 || k == o)) := by
    rw [Bool.eq_iff_iff, List.contains_iff_mem, State.mem_toEnd hr, State.live, hc, Bool.and_eq_true]
    rfl
  refine ⟨c', hc', ?_⟩
  rw [he, hdead]
  cases c.ended <;> simp

/-- What an uncorrectable error leaves of the crews: none of a live context that owns the pen. -/
theorem foldl_toEnd_crews {pen : Pen} {o cause : Nat} (hr : SMap.rising s.ctxs = true) {e : Nat × Crew}
    (he : e ∈ ((s.toEnd o).foldl (fun x c => x.endContext c cause) (s.poisonPen pen)).crews) :
    (o != 0 && e.2.ctx != o || !(s.live e.2.ctx)) = true := by
  have hdead : e.2.ctx ∉ s.toEnd o := (mem_foldl_endContext_crews he).2
  rw [State.mem_toEnd hr] at hdead
  simp only [bne, ← Bool.not_or, ← Bool.not_and, Bool.not_eq_true', Bool.eq_false_iff, ne_eq, Bool.and_eq_true]
  exact fun h => hdead h.symm

end

/-! ## The device (O55) -/

theorem exec_flashCommand {s : State} {image : List Byte} (h : s.chip.powered = true) (hi : image.length ≤ 2 ^ 29) :
    exec (.flashCommand image) s = .next { s with chip := { s.chip with flash := image } } := by
  change execFlashCommand image s = _
  rw [execFlashCommand, h, decide_eq_true hi]
  rfl

theorem exec_eccCorrected {s : State} {pen : Pen} (h : s.chip.powered = true) :
    exec (.eccCorrected pen) s = .next { s with chip := { s.chip with ecc := s.chip.ecc + 1 } } := by
  change execEccCorrected pen s = _
  rw [execEccCorrected, if_pos h]

theorem exec_governorStep_slower {s : State} (h : s.chip.powered = true) (hm : 100 < s.chip.mhz) :
    exec (.governorStep true) s = .next { s with chip := { s.chip with mhz := s.chip.mhz - 100 } } := by
  change execGovernorStep true s = _
  simp [execGovernorStep, h, hm]

theorem exec_governorStep_faster {s : State} (h : s.chip.powered = true) (hm : s.chip.mhz < 3600) :
    exec (.governorStep false) s = .next { s with chip := { s.chip with mhz := s.chip.mhz + 100 } } := by
  change execGovernorStep false s = _
  simp [execGovernorStep, h, hm]

theorem exec_governorStep_full {s : State} (h : s.chip.powered = true) (hm : 3600 ≤ s.chip.mhz) :
    exec (.governorStep false) s = .refused (.cannotOccur "GOVERNOR_STEP") := by
  change execGovernorStep false s = _
  simp [execGovernorStep, h, hm]

/-- Settles O55, from an equation per event, from which partitions a capability block update touches, and from the census of crews and ended
contexts, which everything but the end of a context keeps. -/
theorem device : Obligations.Device := by
  unfold Obligations.Device
  refine ⟨fun s hoff => ?power, fun s hon => ?running, fun s good bad hs hne hlen hnd hfree => ?cores, fun s k hs hk _ => ?joins,
    fun s pen o hon howner hr => ?error⟩
  case power =>
    have hmode : (({ s.chip with powered := true, boot := true, recovery := !s.chip.bootOk } : Chip).startMcs).mcMode =
        if s.chip.bootOk then List.replicate 16 (some 1) else (List.replicate 16 none).set 0 (some 3) := by
      rw [Chip.startMcs_mcMode]
      cases s.chip.bootOk <;> rfl
    exact ⟨_, s.chip.bootPartition, exec_powerOn hoff, Chip.startMcs_powered _, Chip.startMcs_boot _, Chip.startMcs_recovery _, hmode,
      rfl, rfl, rfl, by rw [Chip.bootPartition], fun k hk => mem_bootPartition_cores s.chip hk⟩
  case running =>
    exact ⟨⟨_, exec_powerOff hon, rfl, rfl, rfl, rfl, rfl, rfl, rfl, rfl, rfl, rfl, rfl, rfl, rfl⟩,
      ⟨_, exec_thermalTrip hon, rfl, rfl, rfl, rfl, rfl⟩, fun _ => exec_flashCommand hon, fun _ => exec_eccCorrected hon,
      exec_governorStep_slower hon, exec_governorStep_faster hon, exec_governorStep_full hon⟩
  case cores =>
    exact ⟨_, exec_coreBatchRelease hs hne hlen hnd hfree, rfl, rfl, rfl, fun k p hp => State.blockUpdate_get?_of_some hp⟩
  case joins =>
    exact ⟨fun h => ⟨_, exec_stackJoin hs hk h, rfl⟩,
      fun _ h => ⟨_, exec_stackTrained hs hk h, rfl, fun _ _ hp => State.blockUpdate_get?_of_some hp⟩⟩
  case error =>
    exact ⟨_, exec_uncorrectableError hon howner, fun _ _ hc => foldl_toEnd_get? hr hc, List.all_eq_true.mpr fun _ he => foldl_toEnd_crews hr he⟩

end Sys2Proof.Machine

end

section
/-! SUPPORT. The step (R38, R248, R312): which warp a quadrant issues from, what its slot runs, and the small machine whose fetch holds nothing
back (log entry 17, DESIGN CHOICE). -/

namespace Sys2Proof.Machine

/-! ## The warp a quadrant issues from (R38) -/

theorem State.oldestWarp_congr {s s1 : State} (hw : s1.warps = s.warps) (hf : s1.formation = s.formation) (l : List (Nat × Warp)) :
    s1.oldestWarp l = s.oldestWarp l := by
  have hage : s1.warpAge = s.warpAge := by
    funext k w
    rw [State.warpAge, State.warpAge, hf]
  induction l with
  | nil => rfl
  | cons x l ih =>
    rw [State.oldestWarp, State.oldestWarp, ih, hage, hw]

theorem State.pickWarp_agenda (s : State) (todo : List Move) (qk : Nat) : ({ s with agenda := todo } : State).pickWarp qk = s.pickWarp qk :=
  State.oldestWarp_congr (s := s) (s1 := { s with agenda := todo }) rfl rfl _

/-- The oldest warp of a list of formed warps is one of them, and none of them is older. -/
theorem State.oldestWarp_least {s : State} {l : List (Nat × Warp)} (hl : ∀ e ∈ l, SMap.get? s.warps e.1 = some e.2) {wk : Nat}
    (h : s.oldestWarp l = some wk) : ∃ w, (wk, w) ∈ l ∧ ∀ e ∈ l, s.warpAge wk w ≤ s.warpAge e.1 e.2 := by
  induction l generalizing wk with
  | nil => cases h
  | cons x l ih =>
    have hl' : ∀ e ∈ l, SMap.get? s.warps e.1 = some e.2 := fun e he => hl e (List.mem_cons_of_mem x he)
    rw [State.oldestWarp] at h
    cases hr : s.oldestWarp l with
    | none =>
      rw [hr, Option.some.injEq] at h
      subst h
      cases l with
      | nil => exact ⟨x.2, List.mem_cons_self, by simp⟩
      | cons y l =>
        rw [State.oldestWarp] at hr
        grind
    | some k =>
      obtain ⟨w, hk, hmin⟩ := ih hl' hr
      rw [hr] at h
      simp only [hl' _ hk, Option.getD_some] at h
      by_cases hle : s.warpAge x.1 x.2 ≤ s.warpAge k w
      · rw [if_pos hle, Option.some.injEq] at h
        subst h
        refine ⟨x.2, List.mem_cons_self, fun e he => ?_⟩
        obtain rfl | he := List.mem_cons.mp he
        · exact Nat.le_refl _
        · exact hle.trans (hmin e he)
      · rw [if_neg hle, Option.some.injEq] at h
        subst h
        refine ⟨w, List.mem_cons_of_mem x hk, fun e he => ?_⟩
        obtain rfl | he := List.mem_cons.mp he
        · exact Nat.le_of_not_le hle
        · exact hmin e he

/-- The warp picked is a formed warp of the quadrant that does not wait, and none of those is older (R38). -/
theorem State.pickWarp_oldest {s : State} {qk wk : Nat} (h : s.pickWarp qk = some wk) (hr : SMap.rising s.warps = true) :
    ∃ w, SMap.get? s.warps wk = some w ∧ wk / 4 = qk ∧ s.stalled.contains wk = false ∧
      ∀ k v, SMap.get? s.warps k = some v → k / 4 = qk → s.stalled.contains k = false → s.warpAge wk w ≤ s.warpAge k v := by
  have hmem : ∀ k v, (k, v) ∈ s.warps.filter (fun e => e.1 / 4 == qk && !s.stalled.contains e.1) ↔
      SMap.get? s.warps k = some v ∧ k / 4 = qk ∧ s.stalled.contains k = false := fun k v => by
    rw [List.mem_filter, SMap.mem_iff_get?_of_risingFrom hr, Bool.and_eq_true, beq_iff_eq, Bool.not_eq_true']
  obtain ⟨w, hw, hmin⟩ := State.oldestWarp_least (fun e he => ((hmem e.1 e.2).mp he).1) h
  obtain ⟨hget, hq, hst⟩ := (hmem wk w).mp hw
  exact ⟨w, hget, hq, hst, fun k v hv hk hs => hmin (k, v) ((hmem k v).mpr ⟨hv, hk, hs⟩)⟩

/-! ## A step of the agenda (R38, R248) -/

theorem step_eq (s : State) : step s = switched (stepAgenda s) := by
  unfold step
  cases stepAgenda s <;> rfl

theorem stepIssue_run {s : State} {e : Env} {i : Instr} {ws : List Word} (he : s.env? = some e) (hrun : e.crew.runs = true)
    (hd : decode e.w.slotWords = .ok (i, ws)) (hh : s.hazard e i = false) : stepIssue s = exec i s := by
  simp [stepIssue, State.issue, he, hrun, hd, hh]

theorem step_issue {s : State} {qk wk : Nat} {todo : List Move} (ha : s.agenda = .issue qk :: todo) (hp : s.pickWarp qk = some wk) :
    step s = switched (stepIssue { s with agenda := todo, cur := some wk }) := by
  rw [step_eq, stepAgenda, ha]
  simp only [stepQuad, State.pickWarp_agenda, hp]

theorem step_act {s : State} {i : Instr} {todo : List Move} (ha : s.agenda = .act i :: todo) :
    step s = switched (exec i { s with agenda := todo, cur := none, stalled := [] }) := by
  rw [step_eq, stepAgenda, ha]
  rfl

/-! ## The small machine at the issue port -/

/-- A machine with no record, no load, and no result owed holds no instruction back (R163, R237, R329). -/
theorem State.hazard_of_idle {s : State} (hr : s.records = []) (hl : s.loads = []) (hd : ∀ u hit, s.writesDue u hit = false) (e : Env) (i : Instr) :
    s.hazard e i = false := by
  rw [State.hazard, List.any_eq_false]
  intro u _
  simp only [hr, hl, hd]
  cases s.thread? u <;> simp

/-- The small machine issues from its one warp (log entry 17, DESIGN CHOICE). -/
theorem State.pickWarp_placeWords (ws : List Word) : (State.reset.placeWords ws).pickWarp 0 = some 0 := by
  have hwarps : (State.reset.placeWords ws).warps = [(0, ⟨[1], 0, 0, clauseOf ws, 1, [], false, 0, 0, 0⟩)] := rfl
  have hstalled : (State.reset.placeWords ws).stalled = [] := rfl
  simp [State.pickWarp, hwarps, hstalled, State.oldestWarp]

/-- The first slot of a clause of three words holds those words (R312). -/
theorem slotWords_placed (a b c : Word) : (⟨[1], 0, 0, clauseOf [a, b, c], 1, [], false, 0, 0, 0⟩ : Warp).slotWords = [a, b, c] := by
  have hcount : (⟨[1], 0, 0, clauseOf [a, b, c], 1, [], false, 0, 0, 0⟩ : Warp).count = 3 := by
    change (fld (BitVec.ofNat 32 (3 * 2 ^ 22)) 22 4).toNat = 3
    rfl
  rw [Warp.slotWords, hcount]
  rfl

theorem decode_of_tableWord {nbits w : Nat} {i : Instr} (h : decodeTableWord nbits w = some i) :
    ∃ rest, decode (tableWords (w % 2 ^ nbits)) = .ok (i, rest) := by
  unfold decodeTableWord at h
  split at h
  · next j rest hd =>
    cases h
    exact ⟨rest, hd⟩
  · cases h

/-- Settles O58: `pickWarp_oldest` says which warp issues, `stepIssue_run` that its slot runs what it decodes to, and the small
machine at the fetch holds nothing back (`hazard_of_idle`). -/
theorem stepRunsDecoded : Obligations.StepRunsDecoded := by
  unfold Obligations.StepRunsDecoded
  refine ⟨fun s qk wk todo i ws e ha hp => ?issues, fun s qk wk h hr => State.pickWarp_oldest h hr, fun s i todo => step_act,
    fun nbits w i h => ?fetched⟩
  case issues =>
    intro s0 he hrun hd hh
    rw [step_issue ha hp, stepIssue_run he hrun hd hh]
  case fetched =>
    obtain ⟨rest, hd⟩ := decode_of_tableWord h
    let e : Env := ⟨0, ⟨[1], 0, 0, clauseOf (tableWords (w % 2 ^ nbits)), 1, [], false, 0, 0, 0⟩, 1, crewOne, launchOne false 0 false,
      contextOne, 0, false⟩
    have hwords : e.w.slotWords = tableWords (w % 2 ^ nbits) := slotWords_placed _ _ _
    rw [step_issue (s := State.reset.withFetchWord nbits w) (qk := 0) (wk := 0) rfl
        (State.pickWarp_placeWords _),
      stepIssue_run (e := e) rfl rfl (hwords ▸ hd) (State.hazard_of_idle rfl rfl (fun _ _ => rfl) e i)]

end Sys2Proof.Machine
end

section
/-! SUPPORT. What the device reads (R51, R61, R154): reads of memory, tables and descriptors, and the test of a launch record, depend neither
on queues, launches, contexts, counters and caches of the machine, nor on what a context's graph has done so far. -/

namespace Sys2Proof.Machine

/-- The machine as a read of the device sees it: without the queues, launches, contexts, counters and translation caches. -/
def State.seen (s : State) : State :=
  { s with queues := [], launches := [], accepted := 0, ctxs := [], counters := [], tlb1 := [], lltlb := [] }

/-- A context without its graph's progress and its log. -/
def Context.plan (c : Context) : Context := { c with nodes := [], starts := [], log := [] }

section
variable (s : State)

theorem State.scrRead_seen (core b n : Nat) : s.seen.scrRead core b n = s.scrRead core b n := by
  induction n generalizing b with
  | zero => rfl
  | succ n ih => rw [State.scrRead, State.scrRead, ih]; rfl

theorem State.winRead_seen (core o n : Nat) : s.seen.winRead core o n = s.winRead core o n := by
  induction n generalizing o with
  | zero => rfl
  | succ n ih => rw [State.winRead, State.winRead, ih]; rfl

theorem State.readLoc_seen (l : Loc) (n : Nat) : s.seen.readLoc l n = s.readLoc l n := by
  cases l with
  | win c o => exact s.winRead_seen c o n
  | scr c b => exact s.scrRead_seen c b n
  | _ => rfl

theorem State.twAt_seen (l : Loc) (ta : Option Nat) (g : Tag) : s.seen.twAt l ta g = s.twAt l ta g := by
  cases l <;> rfl

theorem State.walkFrom_seen (p : Partition) (priv : Bool) (va fuel level table : Nat) :
    s.seen.walkFrom p priv va fuel level table = s.walkFrom p priv va fuel level table := by
  induction fuel generalizing level table with
  | zero => rfl
  | succ fuel ih =>
    have hentry : s.seen.tableEntry p table (levelIndex level va) = s.tableEntry p table (levelIndex level va) := by
      simp only [State.tableEntry, State.readLoc_seen]
    simp only [State.walkFrom, hentry, ih]

theorem State.transDev_seen (c : Context) (va : Nat) : s.seen.transDev c va = s.transDev c va := by
  have hpart : s.seen.partOf c = s.partOf c := rfl
  simp only [State.transDev, State.walk, hpart, State.walkFrom_seen]

theorem State.devGrans_seen (c : Context) (n a : Nat) : s.seen.devGrans c n a = s.devGrans c n a := by
  induction n generalizing a with
  | zero => rfl
  | succ n ih => simp only [State.devGrans, ih, State.transDev_seen, State.twAt_seen, State.readLoc_seen]

theorem State.devRead_seen (c : Context) (a n : Nat) : s.seen.devRead c a n = s.devRead c a n := by
  simp only [State.devRead, State.devGrans_seen]

theorem State.node_seen (c : Context) (n : Nat) : s.seen.node c n = s.node c n := by
  simp only [State.node, State.devRead_seen]

theorem State.readGangs_seen (c : Context) (unmap : Bool) (n a : Nat) : s.seen.readGangs c unmap n a = s.readGangs c unmap n a := by
  induction n generalizing a with
  | zero => rfl
  | succ n ih => simp only [State.readGangs, ih, State.devRead_seen]

theorem State.manifestTest_seen (c : Context) (unmap : Bool) (off : Nat) : s.seen.manifestTest c unmap off = s.manifestTest c unmap off := by
  have hchip : s.seen.chip = s.chip := rfl
  simp only [State.manifestTest, State.devRead_seen, hchip]

theorem State.launchTest_seen (c : Context) (a : Nat) (unmap : Bool) : s.seen.launchTest c a unmap = s.launchTest c a unmap := by
  have hpart : s.seen.partOf c = s.partOf c := rfl
  have huse : s.seen.usable = s.usable := rfl
  have hstate : s.seen.partState = s.partState := rfl
  simp only [State.launchTest, State.devRead_seen, State.readGangs_seen, State.manifestTest_seen, hpart, huse, hstate]

theorem State.devGrans_plan (c : Context) (n a : Nat) : s.devGrans c.plan n a = s.devGrans c n a := by
  have htrans : ∀ va, s.transDev c.plan va = s.transDev c va := fun _ => rfl
  induction n generalizing a with
  | zero => rfl
  | succ n ih => simp only [State.devGrans, ih, htrans]

theorem State.node_plan (c : Context) (n : Nat) : s.node c.plan n = s.node c n := by
  have haddr : c.plan.nodeAddr n = c.nodeAddr n := rfl
  simp only [State.node, State.devRead, State.devGrans_plan, haddr]

end

section
variable {s s1 : State}

theorem State.launchTest_of_seen (h : s1.seen = s.seen) (c : Context) (a : Nat) (unmap : Bool) : s1.launchTest c a unmap = s.launchTest c a unmap := by
  rw [← s1.launchTest_seen, h, s.launchTest_seen]

/-- A node's descriptor reads the same while memory and the graph's place stay. -/
theorem State.node_of_seen (h : s1.seen = s.seen) {c c1 : Context} (hc : c1.plan = c.plan) (n : Nat) : s1.node c1 n = s.node c n := by
  rw [← s1.node_plan, hc, s1.node_plan, ← s1.node_seen, h, s.node_seen]

end

end Sys2Proof.Machine
end

section
/-! SUPPORT. Graph starts, the firing of nodes and the idle moment of a graph (R61 to R66, R272). -/

namespace Sys2Proof.Machine

/-! ## What settling a graph keeps (R66) -/

theorem Context.nodeState_put (c : Context) (m n : Nat) (q : NodeState) :
    ({ c with nodes := SMap.put c.nodes m q } : Context).nodeState n = if n = m then q else c.nodeState n :=
  SMap.getD_put c.nodes ⟨0, 0, 0, false⟩ m n q

theorem State.modNode_ctx {s : State} {cid : Nat} {c : Context} (hc : SMap.get? s.ctxs cid = some c) (m : Nat) (f : NodeState → NodeState) :
    SMap.get? (s.modNode cid m f).ctxs cid = some { c with nodes := SMap.put c.nodes m (f (c.nodeState m)) } := by
  rw [State.modNode, SMap.get?_mod_same, hc]
  rfl

/-- What the idle moment of a context's graph keeps: memory, registers, launches, and the nodes' completion counts. -/
structure KeepsCounts (cid : Nat) (s s1 : State) : Prop where
  mem : s1.mem = s.mem
  regs : s1.regs = s.regs
  launches : s1.launches = s.launches
  counts : ∀ c, SMap.get? s.ctxs cid = some c → ∃ c', SMap.get? s1.ctxs cid = some c' ∧ ∀ n, (c'.nodeState n).count = (c.nodeState n).count

namespace KeepsCounts
variable {cid : Nat} {s s1 s2 : State}

theorem refl (cid : Nat) (s : State) : KeepsCounts cid s s := ⟨rfl, rfl, rfl, fun c hc => ⟨c, hc, fun _ => rfl⟩⟩

theorem trans (h : KeepsCounts cid s s1) (h' : KeepsCounts cid s1 s2) : KeepsCounts cid s s2 where
  mem := h'.mem.trans h.mem
  regs := h'.regs.trans h.regs
  launches := h'.launches.trans h.launches
  counts c hc := by
    obtain ⟨c1, hc1, h1⟩ := h.counts c hc
    obtain ⟨c2, hc2, h2⟩ := h'.counts c1 hc1
    exact ⟨c2, hc2, fun n => (h2 n).trans (h1 n)⟩

theorem foldl {α : Type} {f : State → α → State} (h : ∀ s a, KeepsCounts cid s (f s a)) (l : List α) (s : State) :
    KeepsCounts cid s (l.foldl f s) := by
  induction l generalizing s with
  | nil => exact refl cid s
  | cons a l ih => exact (h s a).trans (ih _)

/-- A change of the context that leaves its nodes alone. -/
theorem modCtx (s : State) {f : Context → Context} (h : ∀ c, (f c).nodes = c.nodes) : KeepsCounts cid s { s with ctxs := SMap.mod s.ctxs cid f } where
  mem := rfl
  regs := rfl
  launches := rfl
  counts c hc := ⟨f c, by rw [SMap.get?_mod_same, hc]; rfl, fun n => by rw [Context.nodeState, h]; rfl⟩

theorem modNode (s : State) (m : Nat) {f : NodeState → NodeState} (h : ∀ q, (f q).count = q.count) : KeepsCounts cid s (s.modNode cid m f) where
  mem := rfl
  regs := rfl
  launches := rfl
  counts c hc := ⟨_, State.modNode_ctx hc m f, fun n => by
    rw [Context.nodeState_put]
    split
    · next hn => rw [h, hn]
    · rfl⟩

end KeepsCounts

theorem KeepsCounts.log (s : State) (cid type sev a b w : Nat) : KeepsCounts cid s (s.log cid type sev a b w) :=
  KeepsCounts.modCtx s fun _ => rfl

theorem KeepsCounts.complete (s : State) (cid k htag kind status launch : Nat) : KeepsCounts cid s (s.complete k htag kind status launch) :=
  ⟨rfl, rfl, rfl, fun c hc => ⟨c, hc, fun _ => rfl⟩⟩

theorem State.settleGraph_keeps (s : State) (cid : Nat) : KeepsCounts cid s (s.settleGraph cid) := by
  unfold State.settleGraph
  split
  · exact KeepsCounts.refl cid s
  · next c hc =>
    split
    · exact KeepsCounts.refl cid s
    · refine KeepsCounts.trans (KeepsCounts.foldl (fun s n => ?_) c.nodes s)
        (KeepsCounts.trans (KeepsCounts.foldl (fun s g => KeepsCounts.complete s cid _ g.htag 0 0 0) c.starts _)
          (KeepsCounts.modCtx _ (f := fun c => { c with starts := [] }) fun _ => rfl))
      split
      · exact KeepsCounts.refl cid s
      · next x _ =>
        split
        · exact (KeepsCounts.foldl (fun s k => KeepsCounts.log s cid 4 2 0 (x.recAddr (n.2.head + k)) 0) _ s).trans
            (KeepsCounts.modNode _ n.1 (f := fun q => { q with head := q.tail }) fun _ => rfl)
        · exact KeepsCounts.refl cid s

/-- A graph with a node that can fire is not idle, and is not settled (R66). -/
theorem State.settleGraph_busy {s : State} {cid n : Nat} {c : Context} {q : NodeState} {x : Node} (hc : SMap.get? s.ctxs cid = some c)
    (hq : (n, q) ∈ c.nodes) (hx : s.node c n = some x) (hbig : x.tooBig c = false) (hmet : s.met cid n x q = true) : s.settleGraph cid = s := by
  have hidle : s.graphIdle cid c = false := by
    rw [State.graphIdle, Bool.and_eq_false_iff]
    refine .inr (List.all_eq_false.mpr ⟨_, hq, ?_⟩)
    simp [hx, hbig, hmet]
  simp [State.settleGraph, hc, hidle]

/-! ## Firing conditions (R62) -/

theorem Node.takes_of_kind {x : Node} (h : x.kind ≠ 0) : x.takes = false := by
  simp [Node.takes, h]

theorem Node.tooBig_of_takes {x : Node} (h : x.takes = false) (c : Context) : x.tooBig c = false := by
  simp [Node.tooBig, h]

/-- A node that takes no records fires once it has its completions. -/
theorem State.met_of_count {s : State} {cid n : Nat} {x : Node} {q : NodeState} (hk : x.kind ≠ 3) (ht : x.takes = false)
    (hq : max 1 x.pred ≤ q.count) : s.met cid n x q = true := by
  simp only [State.met, hk, ht, if_false, Bool.false_eq_true, decide_eq_true hq]

theorem SMap.put_mem {α : Type} (m : SMap α) (x : Nat) (a : α) : (x, a) ∈ SMap.put m x a := by
  induction m with
  | nil => exact List.mem_singleton.mpr rfl
  | cons e m ih =>
    obtain ⟨k, v⟩ := e
    by_cases h : x = k
    · simp [SMap.put, h]
    · by_cases h' : x < k <;> simp [SMap.put, h, h', ih]

/-! ## Graph starts (R65, R272) -/

section
variable {s : State} {vd q : Nat} {p : QueuePair} {c : Context} {x : SqEntry}

/-- The pair of the entry at SQHEAD names the context the device reads it in. -/
theorem State.nextEntry_ctx (h : s.nextEntry vd q = some (p, c, x)) : SMap.get? s.ctxs p.ctx = some c := by
  unfold State.nextEntry at h
  split at h
  · cases h
  · split at h
    · cases h
    · next hc =>
      split at h
      · cases h
      · split at h
        · cases h
          exact hc
        · cases h

theorem exec_graphStart_noNode (h : s.nextEntry vd q = some (p, c, x)) (hop : x.op = 2) (hx : x.invalid = false)
    (hn : c.graph = 0 ∨ c.nnode ≤ x.arg % 65536) : exec (.graphStart vd q) s = .next (s.finishEntry vd q p x.htag 1 9) := by
  change execGraphStart vd q s = _
  simp [execGraphStart, h, hop, hx, hn]

theorem exec_graphStart_kind3 (h : s.nextEntry vd q = some (p, c, x)) (hop : x.op = 2) (hx : x.invalid = false) (hg : c.graph ≠ 0)
    (hn : x.arg % 65536 < c.nnode) {y : Node} (hy : s.node c (x.arg % 65536) = some y) (hk : y.kind = 3) :
    exec (.graphStart vd q) s = .next (s.finishEntry vd q p x.htag 1 9) := by
  have hn' : ¬ c.nnode ≤ x.arg % 65536 := Nat.not_le.mpr hn
  change execGraphStart vd q s = _
  simp only [execGraphStart, h, hop, hx, hg, hn', hy, hk, bne_self_eq_false, decide_false, Bool.or_false, Bool.false_eq_true, if_false, if_true]

/-- The machine once a graph start of its queue has been taken, its node given the completions. -/
def State.started (s : State) (vd q : Nat) (p : QueuePair) (x : SqEntry) : State :=
  let s1 := (s.takeEntry vd q p x.htag).modNode p.ctx (x.arg % 65536) fun k => { k with count := k.count + nfld x.arg 16 8 }
  { s1 with ctxs := SMap.mod s1.ctxs p.ctx fun c => { c with starts := c.starts ++ [⟨vd, q, x.htag⟩] } }

/-- The context of that machine. -/
def Context.started (c : Context) (vd q : Nat) (x : SqEntry) : Context :=
  { c with
    nodes := SMap.put c.nodes (x.arg % 65536) { c.nodeState (x.arg % 65536) with count := (c.nodeState (x.arg % 65536)).count + nfld x.arg 16 8 }
    starts := c.starts ++ [⟨vd, q, x.htag⟩] }

theorem State.started_ctx (vd q : Nat) (x : SqEntry) (hc : SMap.get? s.ctxs p.ctx = some c) :
    SMap.get? (s.started vd q p x).ctxs p.ctx = some (c.started vd q x) := by
  have h1 := State.modNode_ctx (s := s.takeEntry vd q p x.htag) hc (x.arg % 65536) fun k => { k with count := k.count + nfld x.arg 16 8 }
  rw [State.started, SMap.get?_mod_same, h1]
  rfl

theorem State.started_queues (s : State) (vd q : Nat) (p : QueuePair) (x : SqEntry) : SMap.get? (s.started vd q p x).queues (queueKey vd q) =
    some { p with sqhead := (p.sqhead + 1) % 2 ^ p.sqlog, outstanding := p.outstanding ++ [x.htag] } :=
  SMap.get?_put_same s.queues _ _

theorem State.modNode_seen (s : State) (cid n : Nat) (f : NodeState → NodeState) : (s.modNode cid n f).seen = s.seen := rfl

theorem State.takeEntry_seen (s : State) (vd q : Nat) (p : QueuePair) (htag : Nat) : (s.takeEntry vd q p htag).seen = s.seen := rfl

theorem State.withCtxs_seen (s : State) (m : SMap Context) : ({ s with ctxs := m } : State).seen = s.seen := rfl

theorem State.started_seen (s : State) (vd q : Nat) (p : QueuePair) (x : SqEntry) : (s.started vd q p x).seen = s.seen := by
  rw [State.started, State.withCtxs_seen, State.modNode_seen, State.takeEntry_seen]

theorem Context.started_plan (c : Context) (vd q : Nat) (x : SqEntry) : (c.started vd q x).plan = c.plan := rfl

theorem exec_graphStart (h : s.nextEntry vd q = some (p, c, x)) (hop : x.op = 2) (hx : x.invalid = false) (hg : c.graph ≠ 0)
    (hn : x.arg % 65536 < c.nnode) {y : Node} (hy : s.node c (x.arg % 65536) = some y) (hk : y.kind ≠ 3) (ht : y.takes = false)
    (hcount : max 1 y.pred ≤ (c.nodeState (x.arg % 65536)).count + nfld x.arg 16 8) :
    exec (.graphStart vd q) s = .next (s.started vd q p x) := by
  have hn' : ¬ c.nnode ≤ x.arg % 65536 := Nat.not_le.mpr hn
  have hexec : execGraphStart vd q s = .next ((s.started vd q p x).settleGraph p.ctx) := by
    simp only [execGraphStart, h, hop, hx, hg, hn', hy, hk, bne_self_eq_false, decide_false, Bool.or_false, Bool.false_eq_true, if_false, State.started]
  have hnode : (s.started vd q p x).node (c.started vd q x) (x.arg % 65536) = some y := by
    rw [State.node_of_seen (s.started_seen vd q p x) (c.started_plan vd q x), hy]
  have hbusy : (s.started vd q p x).settleGraph p.ctx = s.started vd q p x :=
    State.settleGraph_busy (State.started_ctx vd q x (State.nextEntry_ctx h)) (SMap.put_mem _ _ _) hnode (Node.tooBig_of_takes ht _)
      (State.met_of_count hk ht hcount)
  change execGraphStart vd q s = _
  rw [hexec, hbusy]

end

/-! ## Kernel nodes (R62) -/

section
variable {s : State} {ctx node id : Nat} {c : Context} {x : Node}

/-- The machine once a kernel node has given up its completions and its record's launch is accepted. -/
def State.nodeFired (s : State) (ctx node id : Nat) (x : Node) (l : Launch) : State :=
  let s1 := s.modNode ctx node fun q => { q with count := q.count - max 1 x.pred }
  ({ s1 with launches := SMap.put s1.launches id l, accepted := s1.accepted + 1 } : State).count (cntIod 1) 1

theorem exec_graphKernelFire {r : LaunchRec} {gs : List Gang} (hc : SMap.get? s.ctxs ctx = some c) (he : c.ended = false) (hn : node < c.nnode)
    (hid : s.freeLaunchId id = true) (hx : s.node c node = some x) (hk : x.kind = 0) (hcoal : x.coal = 0)
    (hq : max 1 x.pred ≤ (c.nodeState node).count) (hl : s.launchTest c x.launch false = .accept r gs) (hcol : r.colid = 0) :
    exec (.graphKernelFire ctx node id) s =
      .next ((s.nodeFired ctx node id x (r.launch ctx gs s.accepted (.graph node) 0 0 0)).settleGraph ctx) := by
  have ht : x.takes = false := by simp [Node.takes, hcoal]
  have hmet : s.met ctx node x (c.nodeState node) = true := State.met_of_count (by omega) ht hq
  have hn' : ¬ c.nnode ≤ node := Nat.not_le.mpr hn
  have htest : (s.modNode ctx node fun q => { q with count := q.count - max 1 x.pred }).launchTest c x.launch false = .accept r gs :=
    (State.launchTest_of_seen (s := s) (s1 := s.modNode ctx node fun q => { q with count := q.count - max 1 x.pred }) rfl c x.launch false).trans hl
  change execGraphKernelFire ctx node id s = _
  simp only [execGraphKernelFire, State.fireKernel, hc, he, hn', hid, hx, hk, hmet, Node.tooBig_of_takes ht, ht, State.nodeLaunch, htest,
    State.acceptLaunch, State.bindLaunch, hcol]
  rfl

theorem State.nodeFired_ctx (hc : SMap.get? s.ctxs ctx = some c) (l : Launch) : SMap.get? (s.nodeFired ctx node id x l).ctxs ctx =
    some { c with nodes := SMap.put c.nodes node { c.nodeState node with count := (c.nodeState node).count - max 1 x.pred } } :=
  State.modNode_ctx hc node fun q => { q with count := q.count - max 1 x.pred }

theorem State.nodeFired_launch (l : Launch) : SMap.get? (s.nodeFired ctx node id x l).launches id = some l :=
  SMap.get?_put_same s.launches id l

/-! ## Conditional and while nodes (R62, R63) -/

/-- The machine once such a node has given up its completions and its condition word has chosen the successor `d`. -/
def State.chosen (s : State) (ctx node d : Nat) (x : Node) : State :=
  (s.modNode ctx node fun q => { q with count := q.count - max 1 x.pred }).giveTo ctx node d

theorem State.fireChoice_eq {kind : Nat} {bs : List Byte} (hc : SMap.get? s.ctxs ctx = some c) (he : c.ended = false) (hn : node < c.nnode)
    (hx : s.node c node = some x) (hk : x.kind = kind) (h0 : kind ≠ 0) (h3 : kind ≠ 3) (hq : max 1 x.pred ≤ (c.nodeState node).count)
    (hbs : s.devRead c x.cond 4 = .ok bs) : s.fireChoice kind ctx node =
      some ((s.chosen ctx node (x.succ.getD (if ofBytes bs = 0 then 1 else 0) 0xFFFF) x).settleGraph ctx) := by
  subst hk
  have hmet : s.met ctx node x (c.nodeState node) = true := State.met_of_count h3 (Node.takes_of_kind h0) hq
  have hn' : ¬ c.nnode ≤ node := Nat.not_le.mpr hn
  simp only [State.fireChoice, hc, he, hn', hx, hmet, hbs, State.chosen, bne_self_eq_false, Bool.not_true, Bool.or_self, decide_false,
    Bool.false_eq_true, if_false]

/-- The successor's count goes up by one; the name 0xFFFF is no node. -/
theorem State.giveTo_counts {d : Nat} (hc : SMap.get? s.ctxs ctx = some c) (hd : d = 0xFFFF ∨ d < c.nnode) (node : Nat) :
    (s.giveTo ctx node d).mem = s.mem ∧ (s.giveTo ctx node d).regs = s.regs ∧ ∃ c', SMap.get? (s.giveTo ctx node d).ctxs ctx = some c' ∧
      ∀ n, (c'.nodeState n).count = (c.nodeState n).count + if n = d ∧ d ≠ 0xFFFF then 1 else 0 := by
  by_cases h : d = 0xFFFF
  · have hgive : s.giveTo ctx node d = s := by simp [State.giveTo, hc, h]
    rw [hgive]
    exact ⟨rfl, rfl, c, hc, fun n => by simp [h]⟩
  · have hd' : ¬ c.nnode ≤ d := by omega
    have hgive : s.giveTo ctx node d = s.modNode ctx d fun q => { q with count := q.count + 1 } := by
      simp [State.giveTo, hc, h, hd']
    rw [hgive]
    refine ⟨rfl, rfl, _, State.modNode_ctx hc d _, fun n => ?_⟩
    rw [Context.nodeState_put]
    by_cases hn : n = d
    · subst hn
      simp [h]
    · simp [hn]

theorem State.chosen_counts {d : Nat} (hc : SMap.get? s.ctxs ctx = some c) (hd : d = 0xFFFF ∨ d < c.nnode) :
    (s.chosen ctx node d x).mem = s.mem ∧ (s.chosen ctx node d x).regs = s.regs ∧
      ∃ c', SMap.get? (s.chosen ctx node d x).ctxs ctx = some c' ∧ ∀ n, (c'.nodeState n).count =
        (c.nodeState n).count - (if n = node then max 1 x.pred else 0) + (if n = d ∧ d ≠ 0xFFFF then 1 else 0) := by
  have hc1 := State.modNode_ctx hc node fun q => { q with count := q.count - max 1 x.pred }
  obtain ⟨hmem, hregs, c', hc', hcount⟩ := State.giveTo_counts hc1 hd node
  refine ⟨hmem, hregs, c', hc', fun n => ?_⟩
  rw [hcount, Context.nodeState_put]
  by_cases hn : n = node
  · simp [hn]
  · simp [hn]

/-- What one firing of a node of either kind does. -/
theorem State.fireChoice_counts {kind : Nat} {bs : List Byte} (hc : SMap.get? s.ctxs ctx = some c) (he : c.ended = false) (hn : node < c.nnode)
    (hx : s.node c node = some x) (hk : x.kind = kind) (h0 : kind ≠ 0) (h3 : kind ≠ 3) (hq : max 1 x.pred ≤ (c.nodeState node).count)
    (hbs : s.devRead c x.cond 4 = .ok bs) {d : Nat} (hd : d = x.succ.getD (if ofBytes bs = 0 then 1 else 0) 0xFFFF) (hd' : d = 0xFFFF ∨ d < c.nnode) :
    ∃ s' c', s.fireChoice kind ctx node = some s' ∧ SMap.get? s'.ctxs ctx = some c' ∧ s'.mem = s.mem ∧ s'.regs = s.regs ∧
      ∀ n, (c'.nodeState n).count = (c.nodeState n).count - (if n = node then max 1 x.pred else 0) + (if n = d ∧ d ≠ 0xFFFF then 1 else 0) := by
  obtain ⟨hmem, hregs, c1, hc1, hcount⟩ := State.chosen_counts (node := node) (x := x) hc hd'
  have hkeep := State.settleGraph_keeps (s.chosen ctx node d x) ctx
  obtain ⟨c2, hc2, hsame⟩ := hkeep.counts c1 hc1
  exact ⟨_, c2, hd ▸ State.fireChoice_eq hc he hn hx hk h0 h3 hq hbs, hc2, hkeep.mem.trans hmem, hkeep.regs.trans hregs,
    fun n => (hsame n).trans (hcount n)⟩

end

/-! ## Installation (R65) -/

section
variable {s : State} {ctx graph nnode : Nat} {c : Context}

theorem exec_graphInstall (hc : SMap.get? s.ctxs ctx = some c) (he : c.ended = false) (hn : nnode < 65536) (hg : graph < 2 ^ 64)
    (h : graph = 0 ∨ nnode ≠ 0) (hres : (s.crews.any fun e => e.2.ctx == ctx && e.2.placed) = false) : exec (.graphInstall ctx graph nnode) s =
      .next { s with ctxs := SMap.put s.ctxs ctx { c with graph := graph, nnode := if graph = 0 then 0 else nnode, nodes := [] } } := by
  have hn' : ¬ 65535 < nnode := by omega
  have hg' : ¬ 2 ^ 64 ≤ graph := Nat.not_le.mpr hg
  have hnone : (graph != 0 && nnode == 0) = false := by
    rcases h with h | h <;> simp [h]
  change execGraphInstall ctx graph nnode s = _
  simp only [execGraphInstall, hc, he, hres, hn', hg', hnone, decide_false, Bool.or_false, Bool.false_eq_true, if_false]

theorem exec_graphInstall_resident (hc : SMap.get? s.ctxs ctx = some c) (hres : (s.crews.any fun e => e.2.ctx == ctx && e.2.placed) = true) :
    exec (.graphInstall ctx graph nnode) s = .refused (.cannotOccur "GRAPH_INSTALL") := by
  change execGraphInstall ctx graph nnode s = _
  simp only [execGraphInstall, hc, hres, Bool.or_true, Bool.true_or, if_true]

end

/-- Settles O50: a start's node can fire, so its graph is not idle (`State.settleGraph_busy`); what a firing does to the counts is done before
the idle moment, which keeps them (`State.settleGraph_keeps`). -/
theorem graphSteps : Obligations.GraphSteps := by
  refine ⟨fun s vd q p c x h _ hop hx => ⟨fun hn => ?noNode, fun y hg hn hy => ⟨fun hk => ?record, fun hk ht hcount => ?start⟩⟩,
    fun s ctx node id c x r gs hc he hn hid hx hk hcoal hq hl hcol => ?kernel, fun i kind hi s ctx node c x bs hc he hn hx hk hq hbs => ?choice,
    fun s ctx graph nnode c hc he hn hg h => ⟨exec_graphInstall hc he hn hg h, exec_graphInstall_resident hc⟩⟩
  case noNode => exact ⟨_, exec_graphStart_noNode h hop hx hn, s.queueSet_finishEntry vd q p x.htag 1 9⟩
  case record => exact ⟨_, exec_graphStart_kind3 h hop hx hg hn hy hk, s.queueSet_finishEntry vd q p x.htag 1 9⟩
  case start =>
    refine ⟨_, c.started vd q x, exec_graphStart h hop hx hg hn hy hk ht hcount, State.started_ctx vd q x (State.nextEntry_ctx h), rfl,
      ?_, fun n hne => ?_, s.started_queues vd q p x, rfl⟩
    · exact (Context.nodeState_put c _ _ _).trans (if_pos rfl)
    · exact (Context.nodeState_put c _ n _).trans (if_neg hne)
  case kernel =>
    have hkeep := State.settleGraph_keeps (s.nodeFired ctx node id x (r.launch ctx gs s.accepted (.graph node) 0 0 0)) ctx
    obtain ⟨c', hc', hsame⟩ := hkeep.counts _ (State.nodeFired_ctx hc _)
    have hlaunch := (congrArg (fun m => SMap.get? m id) hkeep.launches).trans (State.nodeFired_launch _)
    have hcount : (c'.nodeState node).count = (c.nodeState node).count - max 1 x.pred := by
      rw [hsame, Context.nodeState_put, if_pos rfl]
    exact ⟨_, c', _, exec_graphKernelFire hc he hn hid hx hk hcoal hq hl hcol, hc', hcount, hlaunch, rfl, rfl, rfl, rfl, rfl, rfl, rfl, rfl,
      hkeep.mem, hkeep.regs⟩
  case choice =>
    intro d hd
    obtain ⟨rfl, rfl⟩ | ⟨rfl, rfl⟩ : (i = Instr.graphConditionalFire ∧ kind = 1) ∨ (i = Instr.graphWhileFire ∧ kind = 2) := by simpa using hi
    · obtain ⟨s', c', hs', h⟩ := State.fireChoice_counts hc he hn hx hk (by decide) (by decide) hq hbs rfl hd
      refine ⟨s', c', ?_, h⟩
      change execGraphConditionalFire ctx node s = _
      rw [execGraphConditionalFire, hs']
    · obtain ⟨s', c', hs', h⟩ := State.fireChoice_counts hc he hn hx hk (by decide) (by decide) hq hbs rfl hd
      refine ⟨s', c', ?_, h⟩
      change execGraphWhileFire ctx node s = _
      rw [execGraphWhileFire, hs']

end Sys2Proof.Machine
end

section
/-! SUPPORT. MEETARM in a machine whose map of crews holds a key twice (R43, R394). The obligation asks of the machine only that a warp
stands at the issue port, so such a state is among those it speaks of; a map in canonical form holds no key twice. -/

namespace Sys2Proof.Machine

/-- A crew with a meet object of token 7 that nothing is armed on. -/
def crewMeet : Crew := { crewOne with meets := [⟨7, [], [], 0⟩] }

/-- One lane at the issue port, of a crew that the map of crews holds twice. -/
def crewTwice : State := { State.reset.placeWords [] with cur := some 0, crews := [(1, crewMeet), (1, crewMeet)] }

/-- The warp at that port. -/
def crewTwiceEnv : Env :=
  ⟨0, ⟨[1], 0, 0, clauseOf [], 1, [], false, 0, 0, 0⟩, 1, crewMeet, launchOne false 0 false, contextOne, 0, false⟩

/-- The lanes armed on each meet object of each crew in a map. -/
def armedLanes (m : SMap Crew) : List (List (List Nat)) := m.map fun e => e.2.meets.map (·.armed)

/-- MEETARM as the model runs it arms the lane in both entries: `State.modMeet` changes every entry of the key. -/
theorem exec_meetarm_crewTwice : ∃ s', exec (.meetarm 7 0) crewTwice = .next s' ∧ armedLanes s'.crews = [[[1]], [[1]]] :=
  ⟨match exec (.meetarm 7 0) crewTwice with | .next s' => s' | _ => crewTwice, rfl, by decide⟩

/-- The crews' armed lanes after an instruction are those its stated effects give. -/
theorem effects.armedLanes_eq {i : Instr} {n : Nat} {uses : List Use} {ok : State → Env → Nat → Thread → Bool}
    {f : State → Env → Nat → Thread → State} (h : effects i n uses ok f) {s : State} {e : Env} (hport : s.port e = true)
    (hrun : (laneRun e uses ok f (s.begin e) (s.active e)).isSome = true) :
    ∃ s', exec i s = .next s' ∧ armedLanes s'.crews = armedLanes ((laneRun e uses ok f (s.begin e) (s.active e)).get hrun).crews := by
  obtain ⟨s', hexec, hstill, -⟩ := h s e _ hport (Option.some_get hrun).symm
  have hcrews := congrArg State.crews hstill
  exact ⟨s', hexec, congrArg armedLanes hcrews⟩

/-- Refutes O35: in `crewTwice` MEETARM arms its lane in both entries of the lane's crew (`exec_meetarm_crewTwice`), where the stated
effect, a `SMap.put`, changes the first entry only. -/
theorem not_meets : ¬ Obligations.Meets := by
  rintro ⟨harm, -⟩
  obtain ⟨s', hexec, hstated⟩ := (harm 7 0).armedLanes_eq (s := crewTwice) (e := crewTwiceEnv) (by decide) (by decide)
  obtain ⟨s'', hexec', hrun⟩ := exec_meetarm_crewTwice
  obtain rfl : s'' = s' := Host.Outcome.next.inj (hexec'.symm.trans hexec)
  rw [hrun] at hstated
  exact absurd hstated (by decide)

end Sys2Proof.Machine
end

section
/-! SUPPORT. Starting threads (R22, R34): the registers a started thread holds, the room it takes in its lane, and what starting
several threads one after another leaves of each. -/

namespace Sys2Proof.Machine

/-! ## The room of a thread (R22, R138) -/

theorem SMap.mem_of_get? {α : Type} {m : SMap α} {k : Nat} {v : α} (h : SMap.get? m k = some v) : (k, v) ∈ m := by
  induction m with
  | nil => cases h
  | cons e m ih =>
    obtain ⟨k', v'⟩ := e
    rw [SMap.get?_cons] at h
    split at h
    · next hk =>
      subst hk
      cases h
      exact List.mem_cons_self ..
    · exact List.mem_cons_of_mem _ (ih h)

/-- A thread stands in a lane of a quadrant, its registers within the lane's. -/
structure Thread.Housed (t : Thread) : Prop where
  quad : t.quad < 4
  lane : t.lane < 32
  regs : t.rbase + t.allot ≤ 2048
  resident : t.resident = true

/-- Two threads have no register in common. -/
def Thread.Apart (t t' : Thread) : Prop := ∀ i, i < t.allot → ∀ j, j < t'.allot → t.key i ≠ t'.key j

/-- Registers in different lanes are different. -/
theorem Thread.Housed.apart_of_lane {t t' : Thread} (h : t.Housed) (h' : t'.Housed) (hne : t.core ≠ t'.core ∨ t.quad ≠ t'.quad ∨ t.lane ≠ t'.lane) :
    t.Apart t' := by
  intro i hi j hj
  have := h.quad; have := h.lane; have := h.regs; have := h'.quad; have := h'.lane; have := h'.regs
  simp only [Thread.key, regKey, quadKey]
  omega

/-- Registers of one lane in disjoint ranges are different. -/
theorem Thread.apart_of_regs {t t' : Thread} (hc : t.core = t'.core) (hq : t.quad = t'.quad) (hl : t.lane = t'.lane)
    (h : t'.rbase + t'.allot ≤ t.rbase ∨ t.rbase + t.allot ≤ t'.rbase) : t.Apart t' := by
  intro i hi j hj
  simp only [Thread.key, regKey, hc, hq, hl]
  omega

/-- The room found for an allotment lies within the lane, beside the registers of every thread there (R22). -/
theorem State.roomIn_free {s : State} {core quad lane n slot r : Nat} (h : s.roomIn core quad lane n = some (slot, r)) :
    r + n ≤ 2048 ∧ ∀ t ∈ s.laneThreads core quad lane, r + n ≤ t.rbase ∨ t.rbase + t.allot ≤ r := by
  simp only [State.roomIn] at h
  split at h
  · next hr =>
    obtain ⟨-, rfl⟩ := Prod.mk.inj (Option.some.inj h)
    have hfree := List.find?_some hr
    simpa [regsFree] using hfree
  · cases h

theorem State.mem_laneThreads {s : State} {u : Nat} {t : Thread} (h : s.thread? u = some t) (hr : t.resident = true) :
    t ∈ s.laneThreads t.core t.quad t.lane := by
  have hmem := SMap.mem_of_get? h
  exact List.mem_map.mpr ⟨(u, t), List.mem_filter.mpr ⟨hmem, by simp [hr]⟩, rfl⟩

/-- A thread given the room found has no register of a thread that stands there. -/
theorem State.roomIn_apart {s : State} {u : Nat} {t t' : Thread} (h : s.thread? u = some t) (ht : t.Housed) (ht' : t'.Housed) {slot : Nat}
    (hroom : s.roomIn t'.core t'.quad t'.lane t'.allot = some (slot, t'.rbase)) : t.Apart t' := by
  by_cases hsame : t.core = t'.core ∧ t.quad = t'.quad ∧ t.lane = t'.lane
  · obtain ⟨hc, hq, hl⟩ := hsame
    have hmem := State.mem_laneThreads h ht.resident
    rw [hc, hq, hl] at hmem
    exact Thread.apart_of_regs hc hq hl ((State.roomIn_free hroom).2 t hmem)
  · exact ht.apart_of_lane ht' (by omega)

/-! ## One thread started -/

/-- The machine with the thread `t` added, its first registers `rs`, the others 0 (R34). -/
def State.startWith (s : State) (t : Thread) (rs : List Reg) : State := ((s.startRegs t rs).addThread t).1

/-- Thread `u` of the machine is `t`, and it holds the start registers `rs`, the others 0. -/
structure State.Started (s : State) (u : Nat) (t : Thread) (rs : List Reg) : Prop where
  thread : s.thread? u = some t
  regs : ∀ i, i < t.allot → s.rd t i = rs.getD i Reg.zero

section
variable (s : State) (t : Thread) (rs : List Reg)

theorem State.startRegs_getD_own {i : Nat} (hi : i < t.allot) : SMap.getD (s.startRegs t rs).regs Reg.zero (t.key i) = rs.getD i Reg.zero := by
  have hlen : (rs.take t.allot ++ List.replicate (t.allot - rs.length) Reg.zero).length = t.allot := by simp; omega
  have hkey : t.key i - t.key 0 = i := by simp only [Thread.key, regKey]; omega
  rw [State.startRegs, getD_wrs, if_pos ⟨i, by omega, by rw [Nat.zero_add]⟩, hkey, List.getD_eq_getElem?_getD]
  by_cases h : i < rs.length
  · rw [List.getElem?_append_left (by simp; omega), List.getElem?_take_of_lt hi]
  · rw [List.getElem?_append_right (by simp; omega), List.getElem?_replicate, List.getElem?_eq_none (by omega)]
    split <;> rfl

theorem State.startRegs_getD_ne {k : Nat} (hk : ∀ i, i < t.allot → k ≠ t.key i) :
    SMap.getD (s.startRegs t rs).regs Reg.zero k = SMap.getD s.regs Reg.zero k := by
  have hlen : (rs.take t.allot ++ List.replicate (t.allot - rs.length) Reg.zero).length = t.allot := by simp; omega
  rw [State.startRegs, getD_wrs, if_neg]
  rintro ⟨i, hi, hki⟩
  exact hk i (by omega) (by rwa [Nat.zero_add] at hki)

/-- Starting a thread changes registers, threads and the next number. -/
theorem State.startWith_frame : s.startWith t rs =
    { s with regs := (s.startRegs t rs).regs, threads := SMap.put s.threads s.nextUid t, nextUid := s.nextUid + 1 } := by
  rw [State.startWith, State.addThread, State.startRegs, wrs_frame]

theorem State.startWith_thread_ne {u : Nat} (hu : u ≠ s.nextUid) : (s.startWith t rs).thread? u = s.thread? u := by
  rw [State.startWith_frame]
  exact SMap.get?_put_ne s.threads t hu

theorem State.startWith_started : (s.startWith t rs).Started s.nextUid t rs where
  thread := by
    rw [State.startWith_frame]
    exact SMap.get?_put_same s.threads _ _
  regs i hi := by
    rw [State.startWith_frame]
    exact s.startRegs_getD_own t rs hi

/-- A thread with no register of the started one stays as it was. -/
theorem State.Started.startWith {s : State} {u : Nat} {t' : Thread} {rs' : List Reg} (h : s.Started u t' rs') (hu : u ≠ s.nextUid)
    (hapart : t'.Apart t) : (s.startWith t rs).Started u t' rs' where
  thread := by rw [s.startWith_thread_ne t rs hu, h.thread]
  regs i hi := by
    rw [← h.regs i hi, State.startWith_frame]
    exact s.startRegs_getD_ne t rs fun j hj => hapart i hi j hj

end

/-! ## Several threads started -/

/-- The threads `ts` with their start registers have been started one after another. -/
structure Starts (s s' : State) (ts : List (Thread × List Reg)) : Prop where
  nextUid : s'.nextUid = s.nextUid + ts.length
  thread : ∀ u, u < s.nextUid → s'.thread? u = s.thread? u
  keeps : ∀ u t rs, u < s.nextUid → (∀ p ∈ ts, t.Apart p.1) → s.Started u t rs → s'.Started u t rs
  made : ∀ i t rs, ts[i]? = some (t, rs) → s'.Started (s.nextUid + i) t rs
  frame : ({ s' with regs := s.regs, threads := s.threads, nextUid := s.nextUid } : State) = s

namespace Starts
variable {s s1 s2 : State} {ts ts' : List (Thread × List Reg)}

theorem nil (s : State) : Starts s s [] where
  nextUid := rfl
  thread _ _ := rfl
  keeps _ _ _ _ _ h := h
  made _ _ _ h := by simp at h
  frame := rfl

theorem startWith (s : State) (t : Thread) (rs : List Reg) : Starts s (s.startWith t rs) [(t, rs)] where
  nextUid := by rw [State.startWith_frame]; rfl
  thread u hu := s.startWith_thread_ne t rs (Nat.ne_of_lt hu)
  keeps u t' rs' hu hapart h := h.startWith t rs (Nat.ne_of_lt hu) (hapart (t, rs) (List.mem_singleton.mpr rfl))
  made i t' rs' h := by
    cases i with
    | zero =>
      cases h
      exact s.startWith_started t rs
    | succ i => cases h
  frame := by rw [State.startWith_frame]

theorem append (h : Starts s s1 ts) (h' : Starts s1 s2 ts') (hapart : ∀ p ∈ ts, ∀ q ∈ ts', p.1.Apart q.1) : Starts s s2 (ts ++ ts') where
  nextUid := by rw [h'.nextUid, h.nextUid, List.length_append, Nat.add_assoc]
  thread u hu := by
    have := h.nextUid
    rw [h'.thread u (by omega), h.thread u hu]
  keeps u t rs hu hts hst := by
    have := h.nextUid
    refine h'.keeps u t rs (by omega) (fun p hp => hts p (List.mem_append_right _ hp)) ?_
    exact h.keeps u t rs hu (fun p hp => hts p (List.mem_append_left _ hp)) hst
  made i t rs hi := by
    have hnext := h.nextUid
    by_cases hlt : i < ts.length
    · rw [List.getElem?_append_left hlt] at hi
      exact h'.keeps _ t rs (by omega) (fun q hq => hapart _ (List.mem_of_getElem? hi) q hq) (h.made i t rs hi)
    · rw [List.getElem?_append_right (by omega)] at hi
      have hmade := h'.made _ t rs hi
      rwa [hnext, show s.nextUid + ts.length + (i - ts.length) = s.nextUid + i by omega] at hmade
  frame := by
    have h1 := congrArg (fun x : State => { x with regs := s.regs, threads := s.threads, nextUid := s.nextUid }) h'.frame
    exact h1.trans h.frame

/-- Starting threads one after another changes registers, threads and the next number only. -/
theorem foldl_frame (s : State) (ts : List (Thread × List Reg)) : ({ ts.foldl (fun s p => s.startWith p.1 p.2) s with
    regs := s.regs, threads := s.threads, nextUid := s.nextUid } : State) = s := by
  induction ts generalizing s with
  | nil => rfl
  | cons p ts ih =>
    have hhead := (startWith s p.1 p.2).frame
    have htail := congrArg (fun x : State => { x with regs := s.regs, threads := s.threads, nextUid := s.nextUid }) (ih (s.startWith p.1 p.2))
    exact htail.trans hhead

/-- Threads with no register in common are all started by starting one after another. -/
theorem foldl (s : State) (hp : ts.Pairwise fun p q => p.1.Apart q.1) : Starts s (ts.foldl (fun s p => s.startWith p.1 p.2) s) ts := by
  induction ts generalizing s with
  | nil => exact nil s
  | cons p ts ih =>
    obtain ⟨hhead, htail⟩ := List.pairwise_cons.mp hp
    exact (startWith s p.1 p.2).append (ih _ htail) fun a ha q hq => by
      obtain rfl := List.mem_singleton.mp ha
      exact hhead q hq

end Starts

end Sys2Proof.Machine
end

section
/-! SUPPORT. SPAWN, the bins' timers and the launch of a bin (R58, R59, R426). -/

namespace Sys2Proof.Machine

/-! ## Placing a record (R58) -/

theorem State.releaseTry_of_released {s : State} {u : Nat} {t : Thread} (ht : s.thread? u = some t) (h : s.released u t 0 = true) :
    s.releaseTry u 0 = (s, none) := by
  simp only [State.released, Nat.zero_le, decide_true, Bool.true_or, Bool.and_true, Bool.and_eq_true, Option.isNone_iff_eq_none] at h
  obtain ⟨hregion, hfifo⟩ := h
  have hcommit : s.commitRegion u = s := by simp only [State.commitRegion, ht, hregion]
  simp only [State.releaseTry, hcommit, ht, hfifo, Bool.not_true, Bool.false_eq_true, if_false, Nat.zero_le, if_true]

/-- The threads a launched bin starts, each with its arguments. -/
def spawnStarts (core quad entry : Nat) (l : List (SpawnRec × Nat × Nat × Nat)) : List (Thread × List Reg) :=
  l.map fun x => (x.1.thread core quad entry x.2.1 x.2.2.1 x.2.2.2, x.1.args)

theorem State.startSpawned_eq (s : State) (core quad entry : Nat) (l : List (SpawnRec × Nat × Nat × Nat)) : s.startSpawned core quad entry l =
    ((spawnStarts core quad entry l).foldl (fun s p => s.startWith p.1 p.2) s).dropL1 core quad := by
  rw [State.startSpawned, spawnStarts, List.foldl_map]
  rfl

/-- Starting threads keeps the threads there are. -/
theorem keepsThreads_startAll (ts : List (Thread × List Reg)) (s : State) : keepsThreads s (ts.foldl (fun s p => s.startWith p.1 p.2) s) := by
  induction ts generalizing s with
  | nil => exact keepsThreads_refl s
  | cons p ts ih =>
    intro v t hv
    by_cases hnew : v = s.nextUid
    · exact ih (s.startWith p.1 p.2) v p.1 (hnew ▸ (s.startWith_started p.1 p.2).thread)
    · exact ih (s.startWith p.1 p.2) v t ((s.startWith_thread_ne p.1 p.2 hnew).trans hv)

theorem State.startSpawned_keeps (s : State) (core quad entry : Nat) (l : List (SpawnRec × Nat × Nat × Nat)) :
    keepsThreads s (s.startSpawned core quad entry l) := by
  rw [State.startSpawned_eq]
  exact keepsThreads_startAll _ s

/-- The launch of a bin's records changes registers, threads and the quadrant's L1 only. -/
theorem State.startSpawned_frame (s : State) (core quad entry : Nat) (l : List (SpawnRec × Nat × Nat × Nat)) :
    ({ s.startSpawned core quad entry l with regs := s.regs, threads := s.threads, nextUid := s.nextUid, l1 := s.l1 } : State) = s := by
  rw [State.startSpawned_eq]
  exact congrArg (fun x : State => { x with l1 := s.l1 }) (Starts.foldl_frame s (spawnStarts core quad entry l))

theorem State.launchBin_eq {s s1 : State} {k : Nat} {b : SpawnBin} {all : Bool} (h : s.launchBin k b all = some s1) :
    ∃ bins l, s1 = ({ s with bins := bins } : State).startSpawned (k / 64) (k / 16 % 4) b.entry l := by
  simp only [State.launchBin] at h
  split at h
  · cases h
    exact ⟨_, _, rfl⟩
  · cases h

/-- A launched bin keeps every thread, the warps and the records. -/
theorem State.launchBin_keeps {s s1 : State} {k : Nat} {b : SpawnBin} {all : Bool} (h : s.launchBin k b all = some s1) :
    keepsThreads s s1 ∧ s1.warps = s.warps ∧ s1.records = s.records := by
  obtain ⟨bins, l, rfl⟩ := State.launchBin_eq h
  have hframe := State.startSpawned_frame { s with bins := bins } (k / 64) (k / 16 % 4) b.entry l
  have hwarps := congrArg State.warps hframe
  have hrecs := congrArg State.records hframe
  exact ⟨State.startSpawned_keeps { s with bins := bins } _ _ _ l, hwarps, hrecs⟩

theorem State.placeRec_keeps {s s1 : State} {e : Env} {entry : Nat} {r : SpawnRec} (h : s.placeRec e entry r = .placed s1) :
    keepsThreads s s1 ∧ s1.warps = s.warps ∧ s1.records = s.records := by
  simp only [State.placeRec] at h
  split at h
  · split at h
    · cases h
    · cases h
      exact ⟨keepsThreads_refl s, rfl, rfl⟩
  · split at h
    · cases h
      exact ⟨keepsThreads_refl s, rfl, rfl⟩
    · split at h
      · cases h
      · split at h
        · cases h
        · next hlaunch =>
          split at h
          · cases h
            have hkeeps := State.launchBin_keeps hlaunch
            exact hkeeps
          · cases h

/-- A lane whose record finds its bin is done with it. -/
theorem spawnLane_placed {f : FTwo} {e : Env} {s s1 : State} {u : Nat} {t : Thread} (ht : s.thread? u = some t)
    (halign : (s.w64 t f.r).toNat % 64 = 0) (hrel : s.released u t 0 = true)
    (hplace : s.placeRec e (s.w64 t f.r).toNat ⟨e.issuer u t, s.spawned, t.allot, e.launch.startAnom, (List.range 4).map fun i => s.reg t (f.q.toNat + i)⟩ =
      .placed s1) : spawnLane f e s u t = .done s1 := by
  rw [State.w64] at halign hplace
  simp only [spawnLane, halign, bne_self_eq_false, Bool.false_eq_true, if_false, State.releaseTry_of_released ht hrel, hplace]

/-! ## Bins (R58) -/

section
variable {s : State} {e : Env} {entry : Nat} {r : SpawnRec}

theorem State.placeRec_found {k : Nat} {b : SpawnBin}
    (h : ((s.binsOf e.core e.quad).find? fun b => b.2.entry == entry && b.2.ctx == e.crew.ctx) = some (k, b)) (hlen : b.recs.length < 32) :
    s.placeRec e entry r = .placed { s with bins := SMap.put s.bins k { b with recs := b.recs ++ [r] }, spawned := s.spawned + 1 } := by
  simp only [State.placeRec, h, Nat.not_le.mpr hlen, if_false]

/-- A record whose key no bin has takes the lowest free bin. -/
theorem State.placeRec_free (hnone : ((s.binsOf e.core e.quad).find? fun b => b.2.entry == entry && b.2.ctx == e.crew.ctx) = none) {i : Nat}
    (h : ((List.range 16).find? fun i => !((s.binsOf e.core e.quad).any fun b => b.1 == binKey e.core e.quad i)) = some i) :
    s.placeRec e entry r = .placed (s.newBin e (binKey e.core e.quad i) entry r) := by
  simp only [State.placeRec, hnone, h]

/-- With every bin taken, it takes the bin freed by launching the oldest at once. -/
theorem State.placeRec_freed (hnone : ((s.binsOf e.core e.quad).find? fun b => b.2.entry == entry && b.2.ctx == e.crew.ctx) = none)
    (hfull : ((List.range 16).find? fun i => !((s.binsOf e.core e.quad).any fun b => b.1 == binKey e.core e.quad i)) = none) {k : Nat} {b : SpawnBin}
    {s1 : State} (hold : oldestBin (s.binsOf e.core e.quad) = some (k, b))
    (hl : ({ s with bins := SMap.put s.bins k { b with launching := true } } : State).launchBin k b true = some s1) (hfree : SMap.get? s1.bins k = none) :
    s.placeRec e entry r = .placed (s1.newBin e k entry r) := by
  simp only [State.placeRec, hnone, hfull, hold, hl, hfree, Option.isNone_none, if_true]

end

/-- The bin found oldest so far, and the bins still to be looked at, hold one that is older than all others: it is found. -/
theorem oldestBin_foldl {x : Nat × SpawnBin} : ∀ (bs : List (Nat × SpawnBin)) (o : Option (Nat × SpawnBin)), x ∈ bs ∨ o = some x →
    (∀ y ∈ bs, y = x ∨ x.2.age < y.2.age) → (∀ y, o = some y → y = x ∨ x.2.age < y.2.age) →
    bs.foldl (fun (o : Option (Nat × SpawnBin)) b => match o with
      | none => some b
      | some x => if b.2.age < x.2.age then some b else some x) o = some x
  | [], o, hx, _, _ => by simpa using hx
  | b :: bs, o, hx, hbs, ho => by
    obtain ⟨hb, hbs⟩ := List.forall_mem_cons.mp hbs
    rw [List.foldl_cons]
    refine oldestBin_foldl bs _ ?_ hbs ?_
    · by_cases hmem : x ∈ bs
      · exact .inl hmem
      · right
        obtain rfl | hb' := hb
        · cases o with
          | none => rfl
          | some y =>
            obtain rfl | hy := ho y rfl
            · exact if_neg (Nat.lt_irrefl _)
            · exact if_pos hy
        · have hox : o = some x := hx.resolve_left fun h => by
            obtain rfl | h := List.mem_cons.mp h
            · exact absurd hb' (Nat.lt_irrefl _)
            · exact hmem h
          rw [hox]
          exact if_neg (by omega)
    · intro y hy
      cases o with
      | none =>
        cases hy
        exact hb
      | some z =>
        dsimp only at hy
        split at hy
        · cases hy
          exact hb
        · exact ho y hy

theorem oldestBin_of_older {bs : List (Nat × SpawnBin)} {x : Nat × SpawnBin} (hx : x ∈ bs) (h : ∀ y ∈ bs, y = x ∨ x.2.age < y.2.age) :
    oldestBin bs = some x :=
  oldestBin_foldl bs none (.inl hx) h fun _ hy => by cases hy

/-! ## The launch of a bin (R59) -/

/-- Records go to ascending lanes, each with room for its allotment. -/
theorem State.spawnLanes_spec {s : State} {core quad : Nat} : ∀ {lanes : List Nat} {rs : List SpawnRec} {l : List (SpawnRec × Nat × Nat × Nat)},
    s.spawnLanes core quad lanes rs = some l → l.map (·.1) = rs ∧ (l.map (·.2.1)).Sublist lanes ∧
      ∀ x ∈ l, s.roomIn core quad x.2.1 x.1.allot = some (x.2.2.1, x.2.2.2)
  | lanes, [], l, h => by
    cases lanes <;> (cases h; simp)
  | [], _ :: _, l, h => by cases h
  | lane :: lanes, r :: rs, l, h => by
    rw [State.spawnLanes] at h
    cases hroom : s.roomIn core quad lane r.allot with
    | none =>
      simp only [hroom] at h
      obtain ⟨hrecs, hlanes, hrooms⟩ := State.spawnLanes_spec h
      exact ⟨hrecs, hlanes.cons lane, hrooms⟩
    | some p =>
      simp only [hroom, Option.map_eq_some_iff] at h
      obtain ⟨l', hl', rfl⟩ := h
      obtain ⟨hrecs, hlanes, hrooms⟩ := State.spawnLanes_spec hl'
      exact ⟨by simp [hrecs], by simpa using hlanes, by simpa [hroom] using hrooms⟩

theorem State.spawnLanes_range {s : State} {core quad : Nat} {rs : List SpawnRec} {l : List (SpawnRec × Nat × Nat × Nat)}
    (h : s.spawnLanes core quad (List.range 32) rs = some l) : l.map (·.1) = rs ∧ (l.map (·.2.1)).Pairwise (· < ·) ∧
      ∀ x ∈ l, x.2.1 < 32 ∧ s.roomIn core quad x.2.1 x.1.allot = some (x.2.2.1, x.2.2.2) := by
  obtain ⟨hrecs, hlanes, hrooms⟩ := State.spawnLanes_spec h
  refine ⟨hrecs, List.pairwise_lt_range.sublist hlanes, fun x hx => ⟨?_, hrooms x hx⟩⟩
  exact List.mem_range.mp (hlanes.subset (List.mem_map_of_mem hx))

theorem binKey_core {core quad bin : Nat} (hq : quad < 4) (hb : bin < 16) : binKey core quad bin / 64 = core := by
  simp only [binKey, quadKey]
  omega

theorem binKey_quad {core quad bin : Nat} (hq : quad < 4) (hb : bin < 16) : binKey core quad bin / 16 % 4 = quad := by
  simp only [binKey, quadKey]
  omega

section
variable {s : State} {core quad bin : Nat} {b : SpawnBin} {l : List (SpawnRec × Nat × Nat × Nat)}

theorem exec_spawnBinTimer (h : SMap.get? s.bins (binKey core quad bin) = some b) (ht : b.timer = 0) (hl : b.launching = false) :
    exec (.spawnBinTimer core quad bin) s = .next { s with bins := SMap.put s.bins (binKey core quad bin) { b with launching := true } } := by
  change execSpawnBinTimer core quad bin s = _
  simp [execSpawnBinTimer, h, ht, hl]

/-- A bin all of whose records launch is free, and their threads start. -/
theorem exec_spawnBinLaunch (hq : quad < 4) (hb : bin < 16) (h : SMap.get? s.bins (binKey core quad bin) = some b)
    (hl : b.launching = true ∨ b.recs.length = 32) (hbatch : s.binBatch b false = b.recs) (hne : b.recs ≠ [])
    (hlanes : s.spawnLanes core quad (List.range 32) b.recs = some l) : exec (.spawnBinLaunch core quad bin) s =
      .next (({ s with bins := SMap.del s.bins (binKey core quad bin) } : State).startSpawned core quad b.entry l) := by
  have hgo : (b.launching || b.recs.length == 32) = true := by simpa using hl
  have hrest : (b.recs.filter fun r => !b.recs.contains r) = [] := by
    rw [List.filter_eq_nil_iff]
    intro r hr
    simpa using hr
  obtain ⟨r, rs, hrecs⟩ := List.exists_cons_of_ne_nil hne
  have hlaunch : s.launchBin (binKey core quad bin) b false =
      some (({ s with bins := SMap.del s.bins (binKey core quad bin) } : State).startSpawned core quad b.entry l) := by
    rw [State.launchBin, binKey_core hq hb, binKey_quad hq hb, hbatch, hrest]
    simp only [hrecs] at hlanes ⊢
    simp only [hlanes, List.isEmpty_nil, if_true]
  change execSpawnBinLaunch core quad bin s = _
  simp only [execSpawnBinLaunch, h, hgo, hlaunch, if_true]

/-- The threads of a launched bin share no register: each stands in a lane of its own. -/
theorem spawnStarts_apart (hq : quad < 4) (entry : Nat) {rs : List SpawnRec} (hlanes : s.spawnLanes core quad (List.range 32) rs = some l) :
    (spawnStarts core quad entry l).Pairwise fun p q => p.1.Apart q.1 := by
  obtain ⟨-, hrise, hroom⟩ := State.spawnLanes_range hlanes
  have hhoused : ∀ x ∈ l, (x.1.thread core quad entry x.2.1 x.2.2.1 x.2.2.2).Housed := fun x hx =>
    ⟨hq, (hroom x hx).1, (State.roomIn_free (hroom x hx).2).1, rfl⟩
  rw [spawnStarts, List.pairwise_map]
  refine (List.pairwise_map.mp hrise).imp_of_mem fun {x y} hx hy hlt => ?_
  exact (hhoused x hx).apart_of_lane (hhoused y hy) (.inr (.inr (Nat.ne_of_lt hlt)))

/-- Each record of a launched bin starts its thread, with its arguments in the first registers. -/
theorem State.startSpawned_starts (hq : quad < 4) (entry : Nat) {rs : List SpawnRec} {s0 : State}
    (hlanes : s0.spawnLanes core quad (List.range 32) rs = some l) {i : Nat} {x : SpawnRec × Nat × Nat × Nat} (hx : l[i]? = some x) :
    (s.startSpawned core quad entry l).Started (s.nextUid + i) (x.1.thread core quad entry x.2.1 x.2.2.1 x.2.2.2) x.1.args := by
  have hmade := (Starts.foldl s (spawnStarts_apart hq entry hlanes)).made i _ _ (by rw [spawnStarts, List.getElem?_map, hx]; rfl)
  rw [State.startSpawned_eq]
  exact ⟨hmade.thread, hmade.regs⟩

end

/-- Settles O46: a lane is done with the record it placed (`spawnLane_placed`), and a launched bin's threads stand in lanes of their own
(`spawnStarts_apart`). -/
theorem spawning : Obligations.Spawning := by
  refine ⟨fun f => ?spawn, fun s e entry k r b h hlen => State.placeRec_found h hlen, fun s e entry r hnone => ?newKey,
    fun s core quad bin b h ht hl => exec_spawnBinTimer h ht hl, fun s core quad rs l h => State.spawnLanes_range h,
    fun s core quad bin b l hq hb h hl hbatch hne hlanes => ?launch⟩
  case spawn =>
    intro rec_
    refine effects_of_lane (i := .spawn f) (fun _ => rfl) ?_
    intro e s u t ht hn hok
    simp only [Bool.and_eq_true, Bool.not_eq_true', beq_iff_eq] at hok
    obtain ⟨⟨⟨hspec, halign⟩, hrel⟩, hplaced⟩ := hok
    cases hplace : s.placeRec e (s.w64 t f.r).toNat (rec_ s e u t) with
    | placed s1 =>
      obtain ⟨hkeep, hwarps, hrecs⟩ := State.placeRec_keeps hplace
      refine ⟨by simp [hspec], check_none rfl hn (.inr fun v hv => nomatch hv), spawnLane_placed ht halign hrel hplace, ?_, hwarps, hkeep⟩
      simpa [State.pagesFor, hrecs] using fun a (ha : a ∈ s.records) _ => ha
    | full => simp [hplace] at hplaced
    | wait s1 => simp [hplace] at hplaced
  case newKey =>
    intro taken into
    have hkey : ((s.binsOf e.core e.quad).find? fun b => b.2.entry == entry && b.2.ctx == e.crew.ctx) = none := by
      rw [List.find?_eq_none]
      exact List.any_eq_false.mp hnone
    refine ⟨fun i hi hbelow hfree => State.placeRec_free hkey (List.find?_range_eq_some.mpr ⟨?_, ?_, ?_⟩),
      fun k b s1 hfull hmem hold hl hgone => State.placeRec_freed hkey ?_ (oldestBin_of_older hmem hold) hl hgone⟩
    · simpa [taken] using hfree
    · exact List.mem_range.mpr hi
    · intro j hj
      simpa [taken] using hbelow j hj
    · rw [List.find?_eq_none]
      intro i hi
      simpa [taken] using hfull i (List.mem_range.mp hi)
  case launch =>
    have hframe := State.startSpawned_frame { s with bins := SMap.del s.bins (binKey core quad bin) } core quad b.entry l
    have hmem := congrArg State.mem hframe
    have hbins := congrArg (fun x : State => SMap.get? x.bins (binKey core quad bin)) hframe
    refine ⟨_, exec_spawnBinLaunch hq hb h hl hbatch hne hlanes, ?_, hmem, fun i r lane slot base hi => ?_⟩
    · exact hbins.trans (by rw [SMap.get?_del, if_pos rfl])
    · have hstart := State.startSpawned_starts (s := { s with bins := SMap.del s.bins (binKey core quad bin) }) hq b.entry hlanes hi
      refine ⟨_, hstart.thread, rfl, rfl, rfl, rfl, rfl, rfl, rfl, rfl, rfl, rfl, rfl, rfl, rfl, fun j x hx hj => ?_⟩
      rw [hstart.regs j hj, List.getD_eq_getElem?_getD, hx]
      rfl

end Sys2Proof.Machine
end

section
/-! SUPPORT. Launches, the placement of a crew, the completion of a launch, modules and contexts (R22, R34, R35, R46, R51, R63, R265,
R272, R286 to R289). -/

namespace Sys2Proof.Machine

/-! ## Launch entries (R51, R272) -/

section
variable {s : State} {vd q id : Nat} {p : QueuePair} {c : Context} {x : SqEntry}

theorem exec_launch_reject (h : s.nextEntry vd q = some (p, c, x)) (hop : x.op = 1) (hx : x.invalid = false) (hid : s.freeLaunchId id = true) {n : Nat}
    (ht : s.launchTest c x.arg false = .reject n) : exec (.launch vd q id) s = .next (s.finishEntry vd q p x.htag 1 n) := by
  change execLaunch vd q id s = _
  simp [execLaunch, State.launchEntry, h, hop, hx, hid, ht]

theorem State.launchTest_misaligned {a : Nat} (ha : a % 128 ≠ 0) (unmap : Bool) : s.launchTest c a unmap = .reject 12 := by
  simp [State.launchTest, ha]

/-- The machine with a launch accepted from an entry of a queue. -/
def State.launched (s : State) (vd q id : Nat) (p : QueuePair) (x : SqEntry) (l : Launch) : State :=
  let s1 := s.takeEntry vd q p x.htag
  { s1 with launches := SMap.put s1.launches id l, accepted := s1.accepted + 1 }

theorem exec_launch_accept (h : s.nextEntry vd q = some (p, c, x)) (hop : x.op = 1) (hx : x.invalid = false) (hid : s.freeLaunchId id = true)
    {r : LaunchRec} {gs : List Gang} (ht : s.launchTest c x.arg false = .accept r gs) (hcol : r.colid = 0) : exec (.launch vd q id) s =
      .next (s.launched vd q id p x (r.launch p.ctx gs s.accepted (.queue vd q x.htag) 0 0 0)) := by
  change execLaunch vd q id s = _
  simp [execLaunch, State.launchEntry, h, hop, hx, hid, ht, State.acceptLaunch, State.bindLaunch, hcol, State.launched]

end

/-! ## The threads of a crew (R34, R35) -/

/-- The threads `ts` are started one after another, each in room of its own: it shares no register with a thread that stood there. -/
structure Houses (s s' : State) (ts : List (Thread × List Reg)) : Prop where
  starts : Starts s s' ts
  housed : ∀ p ∈ ts, p.1.Housed
  fits : ∀ u t, u < s.nextUid → s.thread? u = some t → t.Housed → ∀ p ∈ ts, t.Apart p.1

namespace Houses
variable {s s1 s2 : State} {ts ts' : List (Thread × List Reg)}

theorem nil (s : State) : Houses s s [] := ⟨Starts.nil s, fun _ h => (List.not_mem_nil h).elim, fun _ _ _ _ _ _ h => (List.not_mem_nil h).elim⟩

theorem append (h : Houses s s1 ts) (h' : Houses s1 s2 ts') : Houses s s2 (ts ++ ts') where
  starts := by
    refine h.starts.append h'.starts fun p hp r hr => ?_
    obtain ⟨i, hi⟩ := List.mem_iff_getElem?.mp hp
    have hlt : i < ts.length := (List.getElem?_eq_some_iff.mp hi).1
    have hnext := h.starts.nextUid
    exact h'.fits (s.nextUid + i) p.1 (by omega) (h.starts.made i p.1 p.2 hi).thread (h.housed p hp) r hr
  housed p hp := (List.mem_append.mp hp).elim (h.housed p) (h'.housed p)
  fits u t hu ht hh p hp := by
    have hnext := h.starts.nextUid
    rcases List.mem_append.mp hp with hp | hp
    · exact h.fits u t hu ht hh p hp
    · exact h'.fits u t (by omega) ((h.starts.thread u hu).trans ht) hh p hp

/-- One thread started in the room found for it. -/
theorem one {t : Thread} (rs : List Reg) {slot : Nat} (hq : t.quad < 4) (hl : t.lane < 32) (hr : t.resident = true)
    (hroom : s.roomIn t.core t.quad t.lane t.allot = some (slot, t.rbase)) : Houses s (s.startWith t rs) [(t, rs)] := by
  have hhoused : t.Housed := ⟨hq, hl, (State.roomIn_free hroom).1, hr⟩
  refine ⟨Starts.startWith s t rs, fun p hp => ?_, fun u t' _ ht' hh p hp => ?_⟩
  · obtain rfl := List.mem_singleton.mp hp
    exact hhoused
  · obtain rfl := List.mem_singleton.mp hp
    exact State.roomIn_apart ht' hh hhoused hroom

end Houses

section
variable {l : Launch} {crew core : Nat}

/-- The thread of lane `lane` in warp `w` of a crew, in a slot with registers from `r` on. -/
def Launch.threadAt (l : Launch) (crew core w : Nat) (x : Nat × Nat × Nat) (quad lane slot r : Nat) : Thread :=
  freshThread crew x.1 (32 * w + lane) core quad lane slot r x.2.1 l.startAnom (l.code + 64 * x.2.2)

/-- A placed warp has one thread in each of its lanes, in order. -/
theorem State.placeWarp_houses {quad w : Nat} {x : Nat × Nat × Nat} (hq : quad < 4) : ∀ {lanes : List Nat} {s s' : State},
    (∀ lane ∈ lanes, lane < 32) → s.placeWarp l crew core quad w x lanes = some s' → ∃ ts, Houses s s' ts ∧ ts.length = lanes.length ∧
      ∀ i lane : Nat, lanes[i]? = some lane → ∃ slot r, ts[i]? = some (l.threadAt crew core w x quad lane slot r, l.startRegs)
  | [], s, s', _, h => by
    cases h
    exact ⟨[], Houses.nil s, rfl, fun i lane hi => by simp at hi⟩
  | lane :: lanes, s, s', hl, h => by
    rw [State.placeWarp] at h
    split at h
    · cases h
    · next slot r hroom =>
      obtain ⟨hlane, hlanes⟩ := List.forall_mem_cons.mp hl
      have hone : Houses s (s.startWith (l.threadAt crew core w x quad lane slot r) l.startRegs) [(l.threadAt crew core w x quad lane slot r, l.startRegs)] :=
        Houses.one l.startRegs hq hlane rfl hroom
      obtain ⟨ts, hts, hlen, hmade⟩ := State.placeWarp_houses hq hlanes h
      refine ⟨_, hone.append hts, by simp [hlen], fun i lane' hi => ?_⟩
      cases i with
      | zero =>
        cases hi
        exact ⟨slot, r, rfl⟩
      | succ i => exact hmade i lane' hi

/-- Placed warps have 32 threads each, in order. -/
theorem State.placeWarps_houses : ∀ {xs : List ((Nat × Nat × Nat) × Nat)} {w : Nat} {s s' : State}, (∀ x ∈ xs, x.2 < 4) →
    s.placeWarps l crew core w xs = some s' → ∃ ts, Houses s s' ts ∧
      ∀ (j : Nat) x (lane : Nat), xs[j]? = some x → lane < 32 →
        ∃ slot r, ts[32 * j + lane]? = some (l.threadAt crew core (w + j) x.1 x.2 lane slot r, l.startRegs)
  | [], w, s, s', _, h => by
    cases h
    exact ⟨[], Houses.nil s, fun j x lane hj => by simp at hj⟩
  | x :: xs, w, s, s', hq, h => by
    rw [State.placeWarps] at h
    split at h
    · cases h
    · next s1 hwarp =>
      obtain ⟨hx, hxs⟩ := List.forall_mem_cons.mp hq
      obtain ⟨ts, hts, hlen, hmade⟩ := State.placeWarp_houses hx (fun lane hl => List.mem_range.mp hl) hwarp
      obtain ⟨ts', hts', hmade'⟩ := State.placeWarps_houses hxs h
      rw [List.length_range] at hlen
      refine ⟨ts ++ ts', hts.append hts', fun j y lane hj hl => ?_⟩
      cases j with
      | zero =>
        cases hj
        rw [Nat.mul_zero, Nat.zero_add, List.getElem?_append_left (by omega)]
        exact hmade lane lane (List.getElem?_range hl)
      | succ j =>
        rw [List.getElem?_append_right (by omega), show 32 * (j + 1) + lane - ts.length = 32 * j + lane by omega, show w + (j + 1) = w + 1 + j by omega]
        exact hmade' j y lane hj hl

end

/-! ## The placement of a crew (R22) -/

/-- The least base of those that are free is free. -/
theorem State.linesFree_foldl {s : State} {core n x : Nat} : ∀ (bs : List Nat) (o : Option Nat), (∀ y, o = some y → s.linesFree core y n = true) →
    bs.foldl (fun o b => if s.linesFree core b n then (match o with
      | some x => some (min x b)
      | none => some b) else o) o = some x → s.linesFree core x n = true
  | [], _, ho, h => ho x h
  | b :: bs, o, ho, h => by
    refine State.linesFree_foldl bs _ (fun y hy => ?_) h
    dsimp only at hy
    split at hy
    · next hfree =>
      cases o with
      | none =>
        cases hy
        exact hfree
      | some z =>
        obtain rfl := Option.some.inj hy
        rcases Nat.le_total z b with hle | hle
        · rw [Nat.min_eq_left hle]
          exact ho z rfl
        · rwa [Nat.min_eq_right hle]
    · exact ho y hy

theorem State.linesFree_of_lineBase {s : State} {core n b : Nat} (h : s.lineBase core n = some b) : s.linesFree core b n = true :=
  State.linesFree_foldl _ none (fun _ h => by cases h) h

/-- Taking a turn changes virtual devices only. -/
theorem State.inTurn_frame {s s1 : State} {vd : Nat} (h : s.inTurn vd = some s1) : ({ s1 with vdevs := s.vdevs } : State) = s := by
  unfold State.inTurn at h
  split at h
  · cases h
  · split at h
    · split at h
      · cases h
      · cases h
        rfl
    · split at h
      · cases h
      · split at h
        · cases h
          rfl
        · cases h

/-- The machine with a crew's entry made, its lines cleared of pending marks, before its threads stand. -/
def State.crewEntered (s : State) (id : Nat) (l : Launch) (p : Placement) (b ix : Nat) : State :=
  { s with
    crews := SMap.put s.crews s.nextCrew (freshCrew l id p.crew p.core b ix)
    pend := s.pend.filter fun e => !(e.1 / 4096 == p.core && decide (b ≤ e.1 % 4096) && decide (e.1 % 4096 < b + l.scrlines))
    nextCrew := s.nextCrew + 1
    launches := SMap.mod s.launches id fun l => { l with
      placed := p.crew :: l.placed
      cores := if l.cores.contains p.core then l.cores else l.cores ++ [p.core] } }

/-- A crew that can be placed is placed on free lines, its warps in quadrants of its core, each L1 dropped. -/
theorem State.placeCrew_eq {s s2 : State} {id : Nat} {l : Launch} {usable : List Nat} {p : Placement} (h : s.placeCrew id l usable p = some s2) :
    ∃ b ix s1, s.linesFree p.core b l.scrlines = true ∧ (∀ q ∈ p.quads, q < 4) ∧
      (s.crewEntered id l p b ix).placeWarps l s.nextCrew p.core 0 ((warpsOf l.roles).zip p.quads) = some s1 ∧
      s2 = (List.range 4).foldl (fun (s : State) q => s.dropL1 p.core q) s1 := by
  simp only [State.placeCrew] at h
  split at h
  · cases h
  · next hguard =>
    have hquads : ∀ q ∈ p.quads, q < 4 := by
      simp only [Bool.or_eq_true, not_or, Bool.not_eq_true, List.any_eq_false, decide_eq_true_eq] at hguard
      exact fun q hq => Nat.lt_of_not_le (hguard.1.2 q hq)
    split at h
    · next b ix hb _ =>
      obtain ⟨s1, hs1, rfl⟩ := Option.map_eq_some_iff.mp h
      exact ⟨b, ix, s1, State.linesFree_of_lineBase hb, hquads, hs1, rfl⟩
    · cases h

/-- Dropping the L1s of a core leaves crews, memory, threads and registers. -/
theorem State.dropL1s_keep (core : Nat) (qs : List Nat) (s : State) :
    (qs.foldl (fun (s : State) q => s.dropL1 core q) s).crews = s.crews ∧ (qs.foldl (fun (s : State) q => s.dropL1 core q) s).mem = s.mem ∧
      (qs.foldl (fun (s : State) q => s.dropL1 core q) s).threads = s.threads ∧ (qs.foldl (fun (s : State) q => s.dropL1 core q) s).regs = s.regs :=
  ⟨foldl_keep State.crews (fun (s : State) q => s.dropL1 core q) (fun _ _ => rfl) qs s,
    foldl_keep State.mem (fun (s : State) q => s.dropL1 core q) (fun _ _ => rfl) qs s,
    foldl_keep State.threads (fun (s : State) q => s.dropL1 core q) (fun _ _ => rfl) qs s,
    foldl_keep State.regs (fun (s : State) q => s.dropL1 core q) (fun _ _ => rfl) qs s⟩

theorem State.Started.congr {s s1 : State} {u : Nat} {t : Thread} {rs : List Reg} (h : s.Started u t rs) (ht : s1.threads = s.threads)
    (hr : s1.regs = s.regs) : s1.Started u t rs where
  thread := by rw [State.thread?, ht, ← State.thread?, h.thread]
  regs i hi := by rw [State.rd, hr, ← State.rd, h.regs i hi]

/-- What a placed crew has: its entry, and each of its threads with its start registers (R22, R34, R35). -/
theorem State.placeCrew_places {s s2 : State} {id : Nat} {l : Launch} {usable : List Nat} {p : Placement} (h : s.placeCrew id l usable p = some s2) :
    (∃ b ix, s.linesFree p.core b l.scrlines = true ∧ SMap.get? s2.crews s.nextCrew = some (freshCrew l id p.crew p.core b ix)) ∧ s2.mem = s.mem ∧
      ∀ w lane x quad, (warpsOf l.roles)[w]? = some x → p.quads[w]? = some quad → lane < 32 →
        ∃ slot r, s2.Started (s.nextUid + (32 * w + lane)) (l.threadAt s.nextCrew p.core w x quad lane slot r) l.startRegs := by
  obtain ⟨b, ix, s1, hfree, hquads, hwarps, hs2⟩ := State.placeCrew_eq h
  obtain ⟨ts, hts, hmade⟩ := State.placeWarps_houses (fun x hx => hquads x.2 (List.of_mem_zip hx).2) hwarps
  obtain ⟨hcrews, hmem, hthreads, hregs⟩ := State.dropL1s_keep p.core (List.range 4) s1
  rw [← hs2] at hcrews hmem hthreads hregs
  have hcrews1 : s1.crews = (s.crewEntered id l p b ix).crews := (congrArg State.crews hts.starts.frame :)
  have hmem1 : s1.mem = s.mem := (congrArg State.mem hts.starts.frame :)
  refine ⟨⟨b, ix, hfree, ?_⟩, hmem.trans hmem1, fun w lane x quad hw hq hl => ?_⟩
  · rw [hcrews, hcrews1]
    exact SMap.get?_put_same s.crews _ _
  · obtain ⟨slot, r, hi⟩ := hmade w (x, quad) lane (List.getElem?_zip_eq_some.mpr ⟨hw, hq⟩) hl
    rw [Nat.zero_add] at hi
    exact ⟨slot, r, (hts.starts.made _ _ _ hi).congr hthreads hregs⟩

theorem wholeGangs_one {gs : List Gang} (h : (gs.all fun g => !g.cores) = true) (ord : Nat) : wholeGangs gs [ord] = true := by
  have hco : gs.filter (·.cores) = [] := List.filter_eq_nil_iff.mpr fun g hg => by simpa using List.all_eq_true.mp h g hg
  simp [wholeGangs, hco, List.eraseDups_cons]

theorem foldl_same {β : Type} {f : State → β → State} {l : List β} (h : ∀ s, ∀ x ∈ l, f s x = s) (s : State) : l.foldl f s = s := by
  induction l with
  | nil => rfl
  | cons x l ih =>
    obtain ⟨hx, hl⟩ := List.forall_mem_cons.mp (h s)
    rw [List.foldl_cons, hx]
    exact ih fun s y hy => h s y (List.mem_cons_of_mem x hy)

theorem State.placeCrews_one {s s2 : State} {id : Nat} {l : Launch} {usable : List Nat} {p : Placement} (hl : SMap.get? s.launches id = some l)
    (h : s.placeCrew id l usable p = some s2) : s.placeCrews id usable [p] = some s2 := by
  simp only [State.placeCrews, hl, h]

theorem exec_crewPlace {s s1 s2 : State} {launch part : Nat} {l : Launch} {c : Context} {p : Partition} {pl : Placement}
    (hl : SMap.get? s.launches launch = some l) (hc : SMap.get? s.ctxs l.ctx = some c) (hp : s.partOf c = some (part, p))
    (ht : s.inTurn c.vd = some s1) (ho : s.placeOrder l = true) (hg : (l.gangs.all fun g => !g.cores) = true)
    (hs2 : s1.placeCrew launch l (s.usable p) pl = some s2) : exec (.crewPlace launch [pl]) s = .next s2 := by
  have hlaunches : s1.launches = s.launches := (congrArg State.launches (State.inTurn_frame ht) :)
  have hl1 : SMap.get? s1.launches launch = some l := hlaunches ▸ hl
  have hcores : ∀ x ∈ l.gangs.zipIdx, x.1.cores = false := fun x hx => by
    simpa using List.all_eq_true.mp hg x.1 (List.fst_mem_of_mem_zipIdx hx)
  have hplaces : s1.placeCrews launch (s.usable p) [pl] = some s2 := State.placeCrews_one hl1 hs2
  change execCrewPlace launch [pl] s = _
  simp only [execCrewPlace, hl, hc, hp, ht, Option.bind_some, Option.map_some, List.map_cons, List.map_nil, wholeGangs_one hg, ho, hplaces,
    Bool.not_true, Bool.or_self, Bool.false_eq_true, if_false]
  refine congrArg Host.Outcome.next (foldl_same (fun s x hx => ?_) s2)
  split
  · rfl
  · rw [hcores x hx, Bool.false_and, if_neg Bool.false_ne_true]

/-! ## The completion of a launch (R46, R63) -/

/-- With no block count held for a launch there is none to write back (R287). -/
theorem State.flushCounts_none {s : State} {l : Launch} (h : s.heldCounts l = []) : s.flushCounts l = s := by
  have hcore : ∀ k ∈ l.cores, ((SMap.getD s.blocks [] k).filter fun b => b.ctx == l.ctx) = [] := List.flatMap_eq_nil_iff.mp h
  unfold State.flushCounts
  generalize l.cores = ks at hcore
  induction ks with
  | nil => rfl
  | cons k ks ih =>
    obtain ⟨hk, hks⟩ := List.forall_mem_cons.mp hcore
    rw [List.foldl_cons, hk]
    exact ih hks

/-- The machine with a launch of a queue completed. -/
def State.launchDone (s : State) (launch vd q htag : Nat) (l : Launch) : State :=
  ({ s with launches := SMap.del s.launches launch, ringWaits := s.ringWaits.filter fun r => r.launch != launch } : State).complete (queueKey vd q) htag
    (if l.failed then 2 else 0) 0 launch

theorem exec_launchComplete {s : State} {launch vd q htag : Nat} {l : Launch} {c : Context} (hl : SMap.get? s.launches launch = some l)
    (hc : SMap.get? s.ctxs l.ctx = some c) (hdone : l.done.length = l.gx * l.gy * l.gz) (ho : l.origin = .queue vd q htag) (hb : s.heldCounts l = []) :
    exec (.launchComplete launch) s = .next (s.launchDone launch vd q htag l) := by
  have hover : l.over = true := by simp [Launch.over, hdone]
  change execLaunchComplete launch s = _
  simp only [execLaunchComplete, hl, hc, hover, ho, hb, List.all_nil, Bool.not_true, Bool.or_self, Bool.false_eq_true, if_false,
    State.flushCounts_none hb, State.launchDone]

theorem State.launchDone_queue {s : State} {launch vd q htag : Nat} {l : Launch} {p : QueuePair} (h : SMap.get? s.queues (queueKey vd q) = some p) :
    SMap.get? (s.launchDone launch vd q htag l).queues (queueKey vd q) = some { p with
      outstanding := p.outstanding.erase htag
      held := p.held ++ [[htag, if l.failed then 2 else 0, 0, launch]] } := by
  rw [State.launchDone, State.complete, SMap.get?_mod_same, h]
  rfl

/-! ## Modules (R286, R288, R289) -/

/-- The modules of each context. -/
def State.catalog (s : State) (k : Nat) : Option (List Module) := (SMap.get? s.ctxs k).map (·.modules)

theorem foldl_catalog {β : Type} (f : State → β → State) (h : ∀ s x, (f s x).catalog = s.catalog) (l : List β) (s : State) :
    (l.foldl f s).catalog = s.catalog := by
  induction l generalizing s with
  | nil => rfl
  | cons x l ih => rw [List.foldl_cons, ih, h]

section
variable {s : State}

theorem State.scrWrite_catalog {core b : Nat} {data : List Byte} : (s.scrWrite core b data).catalog = s.catalog := by
  induction data generalizing s b with
  | nil => rfl
  | cons x xs ih => exact ih

theorem State.winWrite1_catalog {core o : Nat} {data : List Byte} {tag : Tag} : (s.winWrite1 core o data tag).catalog = s.catalog := by
  unfold State.winWrite1
  dsimp only
  split
  · rfl
  · rfl
  · exact State.scrWrite_catalog
  · rfl

theorem State.winWrite_catalog {core o : Nat} {data : List Byte} {tag : Tag} : (s.winWrite core o data tag).catalog = s.catalog := by
  have hfold := foldl_catalog (fun s (e : Nat × List Byte) => s.winWrite1 core e.1 e.2 tag) (fun _ _ => State.winWrite1_catalog) (chunks4 5 o data) s
  unfold State.winWrite
  dsimp only
  split
  · split <;> exact hfold
  · exact hfold

theorem State.writeLoc_catalog {l : Loc} {data : List Byte} {tag : Tag} {tagAddr : Option Nat} {whole : Bool} :
    (s.writeLoc l data tag tagAddr whole).catalog = s.catalog := by
  cases l with
  | hbm a => cases tagAddr <;> rfl
  | win c o => exact State.winWrite_catalog
  | scr c b => exact State.scrWrite_catalog
  | _ => rfl

/-- A snapshot's copy changes the context's snapshot only. -/
theorem State.snapUnit_catalog {cid u : Nat} {l : Loc} : (s.snapUnit cid u l).catalog = s.catalog := by
  unfold State.snapUnit
  split
  · next c a hc =>
    split
    · rfl
    · split
      · funext k
        simp only [State.catalog, SMap.get?_put]
        split
        · next hk => rw [hk, hc]; rfl
        · rfl
      · rfl
  · rfl

theorem State.markUnit_catalog {cid u : Nat} {l : Loc} : (s.markUnit cid u l).catalog = s.catalog := by
  unfold State.markUnit
  split
  · rfl
  · split
    · rfl
    · split
      · dsimp only
        split <;> exact State.snapUnit_catalog
      · exact State.snapUnit_catalog

theorem State.markDirty_catalog {cid va : Nat} {l : Loc} : (s.markDirty cid va l).catalog = s.catalog := by
  unfold State.markDirty
  dsimp only
  split
  · exact (foldl_catalog _ (fun _ _ => foldl_catalog _ (fun _ _ => State.markUnit_catalog) _ _) _ _).trans State.markUnit_catalog
  · exact State.markUnit_catalog

theorem State.performWrite_catalog {cid va : Nat} {l : Loc} {data : List Byte} {tag : Tag} {tagAddr : Option Nat} :
    (s.performWrite cid va l data tag tagAddr).catalog = s.catalog := by
  unfold State.performWrite
  extract_lets s1
  have hmark : s1.catalog = s.catalog := by
    unfold s1
    split
    · rfl
    · exact State.markDirty_catalog
  exact Eq.trans State.writeLoc_catalog hmark

/-- What the operating system writes for a context changes no context's modules. -/
theorem State.osWrite_catalog {cid : Nat} {c : Context} : ∀ {gs : List (List Byte)} {va : Nat} {s s1 : State}, s.osWrite cid c va gs = some s1 →
    s1.catalog = s.catalog
  | [], _, s, s1, h => by
    cases h
    rfl
  | g :: gs, va, s, s1, h => by
    rw [State.osWrite] at h
    split at h
    · exact (State.osWrite_catalog h).trans State.performWrite_catalog
    · cases h

end

section
variable {s s1 s2 : State} {ctx code bcbase : Nat} {file : List Byte} {c : Context}

theorem exec_moduleLoad_bad (hserves : s.serves = true) (hc : SMap.get? s.ctxs ctx = some c) (he : c.ended = false) (hcode : code % 64 = 0)
    (hbc : bcbase % 16 = 0) (hbad : moduleBad s.chip.step file (parseJxm file) = true) :
    exec (.moduleLoad ctx code bcbase file) s = .next { s with answer := [1] } := by
  change execModuleLoad ctx code bcbase file s = _
  simp [execModuleLoad, hserves, hc, he, hcode, hbc, hbad]

theorem exec_moduleLoad (hserves : s.serves = true) (hc : SMap.get? s.ctxs ctx = some c) (he : c.ended = false) (hcode : code % 64 = 0)
    (hbc : bcbase % 16 = 0) (hok : moduleBad s.chip.step file (parseJxm file) = false)
    (hs1 : s.osWrite ctx c ((c.cspace + code) % 2 ^ 64) (grans ((file.drop (parseJxm file).codeoff).take (parseJxm file).codelen).length
      ((file.drop (parseJxm file).codeoff).take (parseJxm file).codelen)) = some s1)
    (hs2 : s1.osWrite ctx c bcbase (grans (parseJxm file).nblock (List.replicate (8 * (parseJxm file).nblock) 0)) = some s2) :
    exec (.moduleLoad ctx code bcbase file) s = .next { s2 with
      ctxs := SMap.mod s2.ctxs ctx fun c => { c with modules := c.modules ++ [⟨code, (parseJxm file).codelen, (parseJxm file).manoff,
        (parseJxm file).impoff, (parseJxm file).nimp, (parseJxm file).nblock, bcbase⟩] }
      answer := [0] } := by
  change execModuleLoad ctx code bcbase file s = _
  simp only [execModuleLoad, hserves, hc, he, hcode, hbc, hok, hs1, hs2, bne_self_eq_false, Bool.or_self, Bool.false_eq_true, if_false]

/-- A context whose modules a write left alone gains one. -/
theorem State.catalog_mod {m : Module} (hc : SMap.get? s.ctxs ctx = some c) (h : s1.catalog = s.catalog) : ∃ c',
    SMap.get? (SMap.mod s1.ctxs ctx fun c => { c with modules := c.modules ++ [m] }) ctx = some c' ∧ c'.modules = c.modules ++ [m] := by
  have hcat : s1.catalog ctx = some c.modules := by rw [h, State.catalog, hc]; rfl
  obtain ⟨c1, hc1, hmods⟩ := Option.map_eq_some_iff.mp hcat
  exact ⟨{ c1 with modules := c1.modules ++ [m] }, by rw [SMap.get?_mod_same, hc1]; rfl, by rw [hmods]⟩

end

/-! ## Contexts (R265) -/

theorem nfld_zero (x n : Nat) : nfld x 0 n = x % 2 ^ n := by rw [nfld, Nat.pow_zero, Nat.div_one]

section
variable (desc : List DWord)

theorem descWord (i : Nat) : (desc.map (·.toNat)).getD i 0 = (desc.getD i 0).toNat := by
  rw [List.getD_eq_getElem?_getD, List.getD_eq_getElem?_getD, List.getElem?_map]
  cases desc[i]? <;> rfl

theorem descCtx_eq : descCtx (desc.map (·.toNat)) = (desc.getD 11 0).toNat % 4096 := by
  simp only [descCtx, descWord, nfld_zero, Nat.reducePow]

variable {desc} {s : State} {byOs : Bool} {v : VDev} {p : Partition}

/-- What a request the operating system can serve comes to, for a context that does not exist. -/
theorem exec_contextCreate (hserves : s.serves = true) (hboot : s.chip.boot = false) (hlen : desc.length = 16)
    (hv : SMap.get? s.vdevs ((desc.getD 10 0).toNat / 2 ^ 50 % 64) = some v) (hp : SMap.get? s.parts v.part = some p)
    (hformed : SMap.get? s.parts 0 ≠ none ∨ s.ctxs ≠ [])
    (hres : (s.crews.any fun e => e.2.ctx == (desc.getD 11 0).toNat % 4096 && e.2.placed) = false) :
    (descBad (desc.map (·.toNat)) byOs = true ∨ s.rootJoined (desc.map (·.toNat)) = false →
      exec (.contextCreate desc byOs) s = .next { s with answer := [1] }) ∧
    (descBad (desc.map (·.toNat)) byOs = false → s.rootJoined (desc.map (·.toNat)) = true → SMap.get? s.ctxs ((desc.getD 11 0).toNat % 4096) = none →
      exec (.contextCreate desc byOs) s = .next { s with
        ctxs := SMap.put s.ctxs ((desc.getD 11 0).toNat % 4096) (contextOf (desc.map (·.toNat)) none s.timebase), answer := [0] }) := by
  have hvd : SMap.get? s.vdevs (nfld (desc.getD 10 0).toNat 50 6) = some v := hv
  have hform : ((SMap.get? s.parts 0).isSome || !s.ctxs.isEmpty) = true := by
    rcases hformed with h | h
    · simp [Option.isSome_iff_ne_none.mpr h]
    · simp [h]
  have hlen' : ((desc.map (·.toNat)).length != 16) = false := by simp [hlen]
  have hexec : exec (.contextCreate desc byOs) s = execContextCreate desc byOs s := rfl
  constructor
  · intro hbad
    have hbad' : (descBad (desc.map (·.toNat)) byOs || !s.rootJoined (desc.map (·.toNat))) = true := by simpa using hbad
    rw [hexec]
    simp only [execContextCreate, descWord, hvd, hp, hserves, hboot, hform, hlen', descCtx_eq, hres, Option.isSome_some, Bool.not_true, Bool.or_self,
      Bool.or_false, Bool.false_eq_true, if_false, hbad', if_true]
  · intro hgood hjoined hnew
    rw [hexec]
    simp only [execContextCreate, descWord, hvd, hp, hserves, hboot, hform, hlen', descCtx_eq, hres, Option.isSome_some, Bool.not_true, Bool.or_self,
      Bool.false_eq_true, if_false, hgood, hjoined, hnew]

end

/-- Settles O49: a placed crew's threads are started one after another in room of their own (`State.placeWarps_houses`), so each keeps its start
registers; the other clauses are one case of the step each. -/
theorem launching : Obligations.Launching := by
  refine ⟨fun s vd q id p c x h _ hop hx hid => ⟨fun ha => ?misaligned, fun n ht => ?reject, fun r gs ht hcol => ?accept⟩,
    fun s s1 launch part l c p pl hl hc hp ht ho hg hs2 => ?place, fun s launch vd q htag l c p hl hc hdone ho hb hp => ?complete,
    fun s ctx code bcbase file c hserves hc he hcode hbc => ?module, fun s desc byOs v p hserves hboot hlen => ?context⟩
  case misaligned =>
    exact ⟨_, exec_launch_reject h hop hx hid (State.launchTest_misaligned ha false), s.queueSet_finishEntry vd q p x.htag 1 12⟩
  case reject => exact ⟨_, exec_launch_reject h hop hx hid ht, s.queueSet_finishEntry vd q p x.htag 1 n⟩
  case accept =>
    exact ⟨_, _, exec_launch_accept h hop hx hid ht hcol, SMap.get?_put_same s.launches _ _, rfl, rfl, rfl, rfl, rfl, rfl, rfl, rfl, rfl, rfl, rfl, rfl,
      SMap.get?_put_same s.queues _ _, rfl, rfl⟩
  case place =>
    obtain ⟨s2, hs2⟩ := Option.isSome_iff_exists.mp hs2
    have hframe := State.inTurn_frame ht
    have hcrews : s1.crews = s.crews := (congrArg State.crews hframe :)
    have hmem : s1.mem = s.mem := (congrArg State.mem hframe :)
    have hcrew : s1.nextCrew = s.nextCrew := (congrArg State.nextCrew hframe :)
    have huid : s1.nextUid = s.nextUid := (congrArg State.nextUid hframe :)
    obtain ⟨⟨b, ix, hfree, hcr⟩, hmem2, hthreads⟩ := State.placeCrew_places hs2
    rw [hcrew] at hcr hthreads
    rw [huid] at hthreads
    refine ⟨s2, _, exec_crewPlace hl hc hp ht ho hg hs2, hcr, rfl, rfl, rfl, rfl, rfl, ?_, rfl, rfl, hmem2.trans hmem, fun w lane x quad hw hq hlane => ?_⟩
    · rw [← hfree, State.linesFree, State.linesFree, hcrews]
      rfl
    · obtain ⟨slot, r, hthread, hregs⟩ := hthreads w lane x quad hw hq hlane
      rw [← Nat.add_assoc] at hthread
      exact ⟨_, hthread, rfl, rfl, rfl, rfl, rfl, rfl, rfl, rfl, rfl, rfl, rfl, rfl, rfl, hregs⟩
  case complete =>
    refine ⟨_, exec_launchComplete hl hc hdone ho hb, ?_, State.launchDone_queue hp, rfl, rfl, rfl⟩
    exact (SMap.get?_del s.launches launch launch).trans (if_pos rfl)
  case module =>
    refine ⟨exec_moduleLoad_bad hserves hc he hcode hbc, fun s1 s2 hok hs1 hs2 => ?_⟩
    obtain ⟨c', hc', hmods⟩ := State.catalog_mod hc ((State.osWrite_catalog hs2).trans (State.osWrite_catalog hs1))
    exact ⟨_, c', exec_moduleLoad hserves hc he hcode hbc hok hs1 hs2, rfl, rfl, hc', hmods⟩
  case context =>
    intro w k hv hp hformed hres
    obtain ⟨hrefused, hcreated⟩ := exec_contextCreate hserves hboot hlen hv hp hformed hres
    refine ⟨hrefused, fun hgood hjoined hnew => ⟨_, hcreated hgood hjoined hnew, ?_⟩⟩
    simp only [contextOf, descWord, nfld, Nat.pow_zero, Nat.div_one, BitVec.toNat_mod_cancel, Option.map_none, Option.getD_none, w]
    simp only [Nat.reducePow, and_self]

end Sys2Proof.Machine
end

section
/-! SUPPORT. Instruction-cache fills (R42, R291, R313). -/

namespace Sys2Proof.Machine

/-! ## What counting and translating change (R157, R280) -/

/-- The machine without its counters. -/
def State.uncounted (s : State) : State := { s with counters := [] }

/-- The machine without its counters and translation caches. -/
def State.quiet (s : State) : State := { s with counters := [], tlb1 := [], lltlb := [] }

theorem State.count_uncounted (s : State) (k n : Nat) : (s.count k n).uncounted = s.uncounted := rfl

theorem State.uncounted_quiet (s : State) : s.uncounted.quiet = s.quiet := rfl

theorem State.count_quiet (s : State) (k n : Nat) : (s.count k n).quiet = s.quiet := rfl

theorem State.withTlb1_quiet (s : State) (t1 : SMap (List TlbEntry)) : ({ s with tlb1 := t1 } : State).quiet = s.quiet := rfl

theorem State.withTlbs_quiet (s : State) (t1 ll : SMap (List TlbEntry)) : ({ s with tlb1 := t1, lltlb := ll } : State).quiet = s.quiet := rfl

section
variable (s : State) (core cid : Nat) (c : Context) (va : Nat)

theorem State.walk_count (k n : Nat) (p : Partition) : (s.count k n).walk c p va = s.walk c p va := by
  have hseen : (s.count k n).seen = s.seen := rfl
  rw [State.walk, State.walk, ← State.walkFrom_seen, hseen, State.walkFrom_seen]

theorem State.walk_uncounted (p : Partition) : s.uncounted.walk c p va = s.walk c p va := by
  have hseen : s.uncounted.seen = s.seen := rfl
  rw [State.walk, State.walk, ← State.walkFrom_seen, hseen, State.walkFrom_seen]

theorem State.translate_quiet : (s.translate core cid c va).1.quiet = s.quiet := by
  unfold State.translate
  split
  · rfl
  · dsimp only
    split
    · rfl
    · split
      · rw [State.withTlb1_quiet, State.count_quiet]
      · split
        · rw [State.count_quiet, State.count_quiet, State.count_quiet]
        · rw [State.count_quiet, State.count_quiet, State.count_quiet]
        · rw [State.count_quiet, State.count_quiet, State.count_quiet]
        · rw [State.withTlbs_quiet, State.count_quiet, State.count_quiet, State.count_quiet]

/-- What a translation gives: from the core's TLB, the die's, or the tables. -/
def State.transCore : Trans :=
  match s.partOf c with
  | none => .absent
  | some (_, p) =>
    match tlbFind (SMap.getD s.tlb1 [] core) cid va with
    | some e => e.hit p va
    | none =>
      match tlbFind (SMap.getD s.lltlb [] (dieOf core)) cid va with
      | some e => e.hit p va
      | none =>
        match s.walk c p va with
        | .leaf l => (leafEntry p cid va l).hit p va
        | .absent => .absent
        | .format => .format
        | .badPhys => .badPhys

theorem State.translate_snd : (s.translate core cid c va).2 = s.transCore core cid c va := by
  have hlltlb : (s.count (cntCore core 8) 1).lltlb = s.lltlb := rfl
  unfold State.translate State.transCore
  dsimp only
  simp only [hlltlb, State.walk_count]
  cases s.partOf c with
  | none => rfl
  | some x =>
    cases tlbFind (SMap.getD s.tlb1 [] core) cid va with
    | some e => rfl
    | none =>
      cases tlbFind (SMap.getD s.lltlb [] (dieOf core)) cid va with
      | some e => rfl
      | none =>
        dsimp only
        cases s.walk c x.2 va <;> rfl

theorem State.transCore_uncounted : s.uncounted.transCore core cid c va = s.transCore core cid c va := by
  have hpart : s.uncounted.partOf c = s.partOf c := rfl
  have htlb1 : s.uncounted.tlb1 = s.tlb1 := rfl
  have hlltlb : s.uncounted.lltlb = s.lltlb := rfl
  simp only [State.transCore, hpart, htlb1, hlltlb, State.walk_uncounted]

/-- A translation reads no counter. -/
theorem State.translate_of_uncounted {s s1 : State} (h : s1.uncounted = s.uncounted) :
    (s1.translate core cid c va).2 = (s.translate core cid c va).2 := by
  rw [State.translate_snd, State.translate_snd, ← s1.transCore_uncounted, h, s.transCore_uncounted]

end

/-! ## The words of a fill (R313) -/

theorem readCells_length (m : List Host.Cell) : ∀ (n a : Nat), (readCells m a n).length = n
  | 0, _ => rfl
  | n + 1, a => by rw [readCells, List.length_cons, readCells_length m n]

/-- Bytes within a run of bytes. -/
theorem readCells_drop_take (m : List Host.Cell) {n j k : Nat} (h : j + k ≤ n) : ∀ a, ((readCells m a n).drop j).take k = readCells m (a + j) k := by
  induction j generalizing n with
  | zero =>
    intro a
    rw [List.drop_zero, Nat.add_zero]
    induction k generalizing n a with
    | zero => rw [List.take_zero, readCells]
    | succ k ih =>
      obtain ⟨n, rfl⟩ : ∃ n', n = n' + 1 := ⟨n - 1, by omega⟩
      rw [readCells, readCells, List.take_succ_cons, ih (by omega)]
  | succ j ih =>
    intro a
    obtain ⟨n, rfl⟩ : ∃ n', n = n' + 1 := ⟨n - 1, by omega⟩
    rw [readCells, List.drop_succ_cons, ih (by omega), Nat.add_right_comm, Nat.add_assoc]

/-- The bytes of a granule view with stores applied do not depend on its tag word. -/
theorem applyStores_bytes (l : Loc) (es : List (Nat × Store)) : ∀ {g g' : Gran}, g.bytes = g'.bytes →
    (es.foldl (fun g e => Gran.apply g l e.2) g).bytes = (es.foldl (fun g e => Gran.apply g l e.2) g').bytes := by
  induction es with
  | nil => exact fun h => h
  | cons e es ih =>
    intro g g' h
    refine ih ?_
    dsimp only [Gran.apply]
    split
    · exact h
    · exact congrArg (fun bs => overwrite bs e.2.loc.inGran e.2.data) h

section
variable (s : State) (a : Nat) (ta : Option Nat) (ptag : Tag)

/-- The words of the clause at an HBM address as a fill takes them. -/
def State.fillWords : List Word :=
  ((List.range 4).map fun i => s.granDev (.hbm (a + 16 * i)) (ta.map (· + 4 * i)) ptag).zipIdx.flatMap fun x => s.fillGran (.hbm (a + 16 * x.2)) x.2 x.1

/-- Word `i` of such a fill. -/
def State.fillWord (i : Nat) : Word :=
  (s.fillGran (.hbm (a + 16 * (i / 4))) (i / 4) (s.granDev (.hbm (a + 16 * (i / 4))) (ta.map (· + 4 * (i / 4))) ptag)).getD (i % 4) 0

theorem State.fillWords_eq : s.fillWords a ta ptag = (List.range 16).map (s.fillWord a ta ptag) := rfl

theorem State.fillWords_getD {i : Nat} (hi : i < 16) : (s.fillWords a ta ptag).getD i 0 = s.fillWord a ta ptag i := by
  rw [State.fillWords_eq, List.getD_eq_getElem?_getD, List.getElem?_map, List.getElem?_range hi]
  rfl

theorem State.clauseAt_getD {i : Nat} (hi : i < 16) : (s.clauseAt a).getD i 0 = BitVec.ofNat 32 (ofBytes (readCells s.mem (a + 4 * i) 4)) := by
  rw [State.clauseAt, List.getD_eq_getElem?_getD, List.getElem?_map, List.getElem?_range hi]
  rfl

/-- The word of a granule's bytes that a clause's word `i` is. -/
def wordOf (bs : List Byte) (i : Nat) : Word := BitVec.ofNat 32 (ofBytes ((bs.drop (4 * (i % 4))).take 4))

theorem wordOf_old {i : Nat} (hi : i < 16) : wordOf (readCells s.mem (a + 16 * (i / 4)) 16) i = (s.clauseAt a).getD i 0 := by
  rw [s.clauseAt_getD a hi, wordOf, readCells_drop_take s.mem (by omega), show a + 16 * (i / 4) + 4 * (i % 4) = a + 4 * i by omega]

/-- The granule of word `i` with the stores under way applied. -/
def State.soonBytes (i : Nat) : List Byte :=
  (s.stores.foldl (fun (g : Gran) e => Gran.apply g (Loc.hbm (a + 16 * (i / 4))).gran e.2) ⟨s.readLoc (.hbm (a + 16 * (i / 4))) 16, 0⟩).bytes

theorem wordOf_soon {i : Nat} (hi : i < 16) : wordOf (s.soonBytes a i) i = (s.clauseSoon a).getD i 0 := by
  rw [State.clauseSoon, List.getD_eq_getElem?_getD, List.getElem?_map, List.getElem?_range hi]
  rfl

/-- Each word is the old one, or the one the stores under way will leave; it is the old one where they are the same. -/
theorem State.fillWord_eq {i : Nat} (hi : i < 16) : s.fillWord a ta ptag i =
    if (s.clauseAt a).getD i 0 == (s.clauseSoon a).getD i 0 then (s.clauseAt a).getD i 0
    else if Config.fillTakesNew s.nextStore (4 * (i / 4) + i % 4) then (s.clauseSoon a).getD i 0 else (s.clauseAt a).getD i 0 := by
  have hsoon : (s.stores.foldl (fun g e => Gran.apply g (Loc.hbm (a + 16 * (i / 4))).gran e.2)
      (s.granDev (.hbm (a + 16 * (i / 4))) (ta.map (· + 4 * (i / 4))) ptag)).bytes = s.soonBytes a i := applyStores_bytes _ s.stores rfl
  rw [← wordOf_old s a hi, ← wordOf_soon s a hi, ← hsoon, State.fillWord, State.fillGran, List.getD_eq_getElem?_getD, List.getElem?_map,
    List.getElem?_range (Nat.mod_lt i (by decide))]
  rfl

theorem State.fillWord_or {i : Nat} (hi : i < 16) :
    s.fillWord a ta ptag i = (s.clauseAt a).getD i 0 ∨ s.fillWord a ta ptag i = (s.clauseSoon a).getD i 0 := by
  rw [s.fillWord_eq a ta ptag hi]
  split
  · exact .inl rfl
  · split
    · exact .inr rfl
    · exact .inl rfl

/-- With no store under way a fill takes the clause as memory holds it. -/
theorem State.fillWords_noStores (h : s.stores = []) : s.fillWords a ta ptag = s.clauseAt a := by
  rw [State.fillWords_eq, State.clauseAt]
  refine List.map_congr_left fun i hi => ?_
  have hi := List.mem_range.mp hi
  have hsame : (s.clauseSoon a).getD i 0 = (s.clauseAt a).getD i 0 := by
    rw [← wordOf_soon s a hi, ← wordOf_old s a hi, State.soonBytes, h]
    rfl
  rw [s.fillWord_eq a ta ptag hi, hsame, beq_self_eq_true, if_pos rfl, s.clauseAt_getD a hi]
  rfl

end

theorem State.fillWords_of_quiet {s s1 : State} (h : s1.quiet = s.quiet) (a : Nat) (ta : Option Nat) (ptag : Tag) :
    s1.fillWords a ta ptag = s.fillWords a ta ptag := by
  have hquiet : ∀ s : State, s.quiet.fillWords a ta ptag = s.fillWords a ta ptag := fun _ => rfl
  rw [← hquiet s1, h, hquiet]

theorem State.twAt_of_quiet {s s1 : State} (h : s1.quiet = s.quiet) (l : Loc) (ta : Option Nat) (g : Tag) : s1.twAt l ta g = s.twAt l ta g := by
  have hquiet : ∀ s : State, s.quiet.twAt l ta g = s.twAt l ta g := fun _ => by cases l <;> rfl
  rw [← hquiet s1, h, hquiet]

/-! ## The fill (R42) -/

section
variable {s : State} {core ctx addr a : Nat} {c : Context} {h : Hit}

/-- A fetch that hits gives the words that a fill takes, in a machine that has counted and filled translation caches only. -/
theorem State.fetchClause_words (ht : (s.translate core ctx c ((c.cspace + addr) % 2 ^ 64 % 2 ^ 48)).2 = .hit h)
    (hptr : ptrOk ((c.cspace + addr) % 2 ^ 64) = true) (hr : h.r = true) (hloc : h.loc = .hbm a)
    (hpoison : ∀ i, i < 4 → twPoison (s.twAt (.hbm (a + 16 * i)) (h.tagAddr.map (· + 4 * i)) h.ptag) = false) :
    (s.fetchClause core ctx c addr).1.quiet = s.quiet ∧ (s.fetchClause core ctx c addr).2 = .words (s.fillWords a h.tagAddr h.ptag) := by
  have hquiet := s.translate_quiet core ctx c ((c.cspace + addr) % 2 ^ 64 % 2 ^ 48)
  have hwords := State.fillWords_of_quiet hquiet a h.tagAddr h.ptag
  have hclean : (((List.range 4).map fun i => (s.translate core ctx c ((c.cspace + addr) % 2 ^ 64 % 2 ^ 48)).1.granDev (.hbm (a + 16 * i))
      (h.tagAddr.map (· + 4 * i)) h.ptag).any fun g => twPoison g.tw) = false := by
    rw [List.any_map, List.any_eq_false]
    intro i hi
    simp only [State.granDev, Function.comp, State.twAt_of_quiet hquiet, hpoison i (List.mem_range.mp hi), Bool.false_eq_true, not_false_iff]
  simp only [State.fetchClause, ht, hptr, hr, hloc, Loc.add, hclean, Bool.not_true, Bool.false_eq_true, if_false]
  exact ⟨hquiet, congrArg FetchRes.words hwords⟩

/-- A miss is counted for the core and for each quadrant that waits. -/
theorem foldl_uncounted (p : Nat → Bool) (key : Nat → Nat) (qs : List Nat) (s : State) :
    (qs.foldl (fun (s : State) q => if p q then s.count (key q) 1 else s) s).uncounted = s.uncounted :=
  foldl_keep State.uncounted (fun (s : State) q => if p q then s.count (key q) 1 else s)
    (fun s q => by
      split
      · exact s.count_uncounted (key q) 1
      · rfl) qs s

/-- A fill that lands puts the words into the instruction cache of a machine that has counted and filled translation caches only. -/
theorem exec_icacheFill (hc : SMap.get? s.ctxs ctx = some c) (hts : s.standingAt core ctx addr ≠ []) (ha : addr % 64 = 0)
    (hmiss : SMap.get? s.icache (icKey core ctx addr) = none) (hstub : s.isStub core ctx c addr = false) (hptr : ptrOk ((c.cspace + addr) % 2 ^ 64) = true)
    (ht : (s.translate core ctx c ((c.cspace + addr) % 2 ^ 64 % 2 ^ 48)).2 = .hit h) (hr : h.r = true) (hloc : h.loc = .hbm a)
    (hpoison : ∀ i, i < 4 → twPoison (s.twAt (.hbm (a + 16 * i)) (h.tagAddr.map (· + 4 * i)) h.ptag) = false) : ∃ s1 : State, s1.quiet = s.quiet ∧
      exec (.icacheFill core ctx addr) s = .next (s1.icPut core ctx addr (s.fillWords a h.tagAddr h.ptag)) := by
  have hstanding : (s.standingAt core ctx addr).isEmpty = false := by simpa using hts
  have hcounted := foldl_uncounted (fun q => (s.standingAt core ctx addr).any fun e => e.2.quad == q) (fun q => cntQuad (quadKey core q) 2) (List.range 4)
    (s.count (cntCore core 0) 1)
  generalize hs2 : ((List.range 4).foldl (fun (s2 : State) q => if (s.standingAt core ctx addr).any (fun e => e.2.quad == q) then
    s2.count (cntQuad (quadKey core q) 2) 1 else s2) (s.count (cntCore core 0) 1)) = s2 at hcounted
  rw [State.count_uncounted] at hcounted
  have hquiet : s2.quiet = s.quiet := by rw [← State.uncounted_quiet, hcounted, State.uncounted_quiet]
  have hpoison2 : ∀ i, i < 4 → twPoison (s2.twAt (.hbm (a + 16 * i)) (h.tagAddr.map (· + 4 * i)) h.ptag) = false := fun i hi => by
    rw [State.twAt_of_quiet hquiet, hpoison i hi]
  obtain ⟨hfetch1, hfetch2⟩ := State.fetchClause_words ((State.translate_of_uncounted core ctx c _ hcounted).trans ht) hptr hr hloc hpoison2
  refine ⟨_, hfetch1.trans hquiet, ?_⟩
  change execIcacheFill core ctx addr s = _
  simp only [execIcacheFill, hc, hmiss, ha, hstanding, hstub, Option.isSome_none, bne_self_eq_false, Bool.or_self, Bool.false_eq_true, if_false, hs2,
    hfetch2, State.fillWords_of_quiet hquiet]

theorem State.icPut_eq {ws : List Word} (hws : ws.getD 0 0 ≠ stubMark) : SMap.get? (s.icPut core ctx addr ws).icache (icKey core ctx addr) = some ws ∧
    (s.icPut core ctx addr ws).mem = s.mem ∧ (s.icPut core ctx addr ws).regs = s.regs ∧
    ((s.icOf core).length < 2048 → (s.icPut core ctx addr ws).threads = s.threads) := by
  rw [State.icPut, if_neg (by simpa using hws)]
  dsimp only
  refine ⟨SMap.get?_put_same _ _ _, ?_⟩
  split
  · exact ⟨rfl, rfl, fun _ => rfl⟩
  · next hfull =>
    split
    · exact ⟨rfl, rfl, fun _ => rfl⟩
    · exact ⟨rfl, rfl, fun hlt => absurd hlt hfull⟩

end

end Sys2Proof.Machine
end

section
/-! SUPPORT. Warp formation (R36 to R40, R87). -/

namespace Sys2Proof.Machine

/-! ## The oldest of a list of threads (R36, R39) -/

section
variable {ctr : Nat} {l : List (Nat × Thread)} {x : Nat × Thread}

theorem firstAge_spec : ∀ {l : List (Nat × Thread)} {x : Nat × Thread},
    firstAge ctr l = some x → x ∈ l ∧ ∀ y ∈ l, ageKey ctr x.2 ≤ ageKey ctr y.2
  | [], _, h => by cases h
  | a :: l, x, h => by
    rw [firstAge] at h
    split at h
    · next hnone =>
      cases h
      cases l with
      | nil => simp
      | cons b l =>
        rw [firstAge] at hnone
        split at hnone
        · cases hnone
        · split at hnone <;> cases hnone
    · next y hy =>
      obtain ⟨hmem, hle⟩ := firstAge_spec hy
      split at h
      · next hay =>
        cases h
        exact ⟨List.mem_cons_self .., List.forall_mem_cons.mpr ⟨Nat.le_refl _, fun z hz => Nat.le_trans hay (hle z hz)⟩⟩
      · next hay =>
        cases h
        exact ⟨List.mem_cons_of_mem _ hmem, List.forall_mem_cons.mpr ⟨by omega, hle⟩⟩

theorem firstAge_exists (h : l ≠ []) : ∃ x, firstAge ctr l = some x := by
  obtain ⟨a, l, rfl⟩ := List.exists_cons_of_ne_nil h
  rw [firstAge]
  split
  · exact ⟨_, rfl⟩
  · split <;> exact ⟨_, rfl⟩

/-- Of a list of threads, one that finished no clause with YIELD set comes after none; with none such no thread comes after another. -/
theorem exists_notBefore (h : l ≠ []) : (l.filter fun x => !(l.any fun y => stampedBefore x.2 y.2)) ≠ [] := by
  by_cases hlate : ∀ y ∈ l, y.2.late = true
  · obtain ⟨a, ha⟩ := List.exists_mem_of_ne_nil l h
    refine List.ne_nil_of_mem (a := a) (List.mem_filter.mpr ⟨ha, ?_⟩)
    rw [Bool.not_eq_true', List.any_eq_false]
    intro y hy
    simp [stampedBefore, hlate y hy]
  · push Not at hlate
    obtain ⟨a, hmem, hnot⟩ := hlate
    refine List.ne_nil_of_mem (a := a) (List.mem_filter.mpr ⟨hmem, ?_⟩)
    rw [Bool.not_eq_true', List.any_eq_false]
    intro y _
    simp [stampedBefore, hnot]

theorem oldest_exists (h : l ≠ []) : ∃ x, oldest ctr l = some x := firstAge_exists (exists_notBefore h)

theorem mem_notBefore {y : Nat × Thread} :
    (y ∈ l.filter fun x => !(l.any fun y => stampedBefore x.2 y.2)) ↔ y ∈ l ∧ ∀ z ∈ l, stampedBefore y.2 z.2 = false := by
  rw [List.mem_filter, Bool.not_eq_true', List.any_eq_false]
  simp only [Bool.not_eq_true]

theorem oldest_spec (h : oldest ctr l = some x) : x ∈ l ∧ (∀ y ∈ l, stampedBefore x.2 y.2 = false) ∧
    ∀ y ∈ l, (∀ z ∈ l, stampedBefore y.2 z.2 = false) → ageKey ctr x.2 ≤ ageKey ctr y.2 := by
  obtain ⟨hmem, hle⟩ := firstAge_spec h
  obtain ⟨hx, hbefore⟩ := mem_notBefore.mp hmem
  exact ⟨hx, hbefore, fun y hy hy' => hle y (mem_notBefore.mpr ⟨hy, hy'⟩)⟩

end

/-! ## The members of a warp (R37) -/

section
variable {ctr lane : Nat} {t x : Nat × Thread} {l : List (Nat × Thread)}

/-- The member of the warp of `t` in a lane. -/
def formLane (ctr : Nat) (t : Nat × Thread) (l : List (Nat × Thread)) (lane : Nat) : Option (Nat × Thread) :=
  if lane = t.2.lane then some t else oldest ctr (l.filter fun x => x.2.lane == lane && joins t.2 x.2)

theorem formMembers_eq (ctr : Nat) (t : Nat × Thread) (l : List (Nat × Thread)) : formMembers ctr t l = (List.range 32).filterMap (formLane ctr t l) := rfl

theorem mem_candidates {y : Nat × Thread} :
    (y ∈ l.filter fun x => x.2.lane == lane && joins t.2 x.2) ↔ y ∈ l ∧ y.2.lane = lane ∧ joins t.2 y.2 = true := by
  simp only [List.mem_filter, Bool.and_eq_true, beq_iff_eq]

theorem joins_self (t : Thread) : joins t t = true := by simp [joins]

theorem formLane_spec (ht : t ∈ l) (h : formLane ctr t l lane = some x) : x ∈ l ∧ x.2.lane = lane ∧ joins t.2 x.2 = true := by
  rw [formLane] at h
  split at h
  · next hlane =>
    cases h
    exact ⟨ht, hlane.symm, joins_self _⟩
  · exact mem_candidates.mp (oldest_spec h).1

theorem mem_formMembers (h : lane < 32) (hx : formLane ctr t l lane = some x) : x ∈ formMembers ctr t l :=
  List.mem_filterMap.mpr ⟨lane, List.mem_range.mpr h, hx⟩

theorem formMembers_spec (ht : t ∈ l) (h : x ∈ formMembers ctr t l) : x ∈ l ∧ joins t.2 x.2 = true := by
  obtain ⟨lane, -, hx⟩ := List.mem_filterMap.mp h
  obtain ⟨hmem, -, hjoins⟩ := formLane_spec ht hx
  exact ⟨hmem, hjoins⟩

/-- The members stand in ascending lanes. -/
theorem formMembers_lanes (ht : t ∈ l) : ((formMembers ctr t l).map (·.2.lane)).Pairwise (· < ·) := by
  rw [List.pairwise_map, formMembers_eq, List.pairwise_filterMap]
  refine List.pairwise_lt_range.imp fun {a b} hlt x hx y hy => ?_
  rw [(formLane_spec ht hx).2.1, (formLane_spec ht hy).2.1]
  exact hlt

/-- In each other lane that holds a thread to join, the oldest such thread is a member. -/
theorem formMembers_oldest {y : Nat × Thread} (hy : y ∈ l) (hj : joins t.2 y.2 = true) (hne : y.2.lane ≠ t.2.lane) (hlane : y.2.lane < 32) :
    ∃ x ∈ formMembers ctr t l, x ∈ l ∧ x.2.lane = y.2.lane ∧
      (∀ z ∈ l, joins t.2 z.2 = true → z.2.lane = y.2.lane → stampedBefore x.2 z.2 = false) ∧
      ((∀ z ∈ l, joins t.2 z.2 = true → z.2.lane = y.2.lane → stampedBefore y.2 z.2 = false) → ageKey ctr x.2 ≤ ageKey ctr y.2) := by
  have hcand := mem_candidates.mpr ⟨hy, rfl, hj⟩
  obtain ⟨x, hx⟩ := oldest_exists (ctr := ctr) (List.ne_nil_of_mem hcand)
  obtain ⟨hmem, hbefore, hleast⟩ := oldest_spec hx
  obtain ⟨hxl, hxlane, -⟩ := mem_candidates.mp hmem
  refine ⟨x, mem_formMembers hlane (by rw [formLane, if_neg hne, hx]), hxl, hxlane, fun z hz hzj hzl => hbefore z (mem_candidates.mpr ⟨hz, hzl, hzj⟩),
    fun h => hleast y hcand fun z hz => ?_⟩
  obtain ⟨hzl, hzlane, hzj⟩ := mem_candidates.mp hz
  exact h z hzl hzj hzlane

end

/-! ## Stamps (R36) -/

section
variable (s : State) (core quad : Nat)

theorem State.stampOf_still (u : Nat) (t : Thread) : (s.stampOf u t).still = t.still := by
  unfold State.stampOf
  split
  · rfl
  · split
    · split <;> rfl
    · rfl

/-- A thread of the quadrant as the stamping leaves it. -/
def State.stampIn (u : Nat) (t : Thread) : Thread := if t.core == core && t.quad == quad then s.stampOf u t else t

theorem State.stampQuad_threads : (s.stampQuad core quad).threads = s.threads.map fun e => (e.1, s.stampIn core quad e.1 e.2) := by
  refine List.map_congr_left fun e _ => ?_
  dsimp only [State.stampIn]
  split <;> rfl

theorem State.stampQuad_still (v : Nat) : ((s.stampQuad core quad).thread? v).map Thread.still = (s.thread? v).map Thread.still := by
  rw [State.thread?, State.stampQuad_threads, SMap.get?_map, Option.map_map, State.thread?]
  refine congrArg (Option.map · (SMap.get? s.threads v)) (funext fun t => ?_)
  dsimp only [Function.comp, State.stampIn]
  split
  · exact s.stampOf_still v t
  · rfl

theorem SMap.risingFrom_mapValues {α β : Type} (f : Nat → α → β) : ∀ (m : SMap α) (lo : Nat), SMap.risingFrom lo m = true →
    SMap.risingFrom lo (m.map fun e => (e.1, f e.1 e.2)) = true
  | [], _, _ => rfl
  | (k, v) :: m, lo, h => by
    simp only [SMap.risingFrom, List.map_cons, Bool.and_eq_true] at h ⊢
    exact ⟨h.1, SMap.risingFrom_mapValues f m (k + 1) h.2⟩

theorem State.stampQuad_rising (h : SMap.rising s.threads = true) : SMap.rising (s.stampQuad core quad).threads = true := by
  rw [State.stampQuad_threads]
  exact SMap.risingFrom_mapValues (s.stampIn core quad) s.threads 0 h

end

/-! ## The warp formed (R37, R87) -/

section
variable {s : State} {core quad : Nat}

theorem State.mem_readyIn {e : Nat × Thread} :
    e ∈ s.readyIn core quad ↔ e ∈ s.threads ∧ e.2.core = core ∧ e.2.quad = quad ∧ s.ready e.1 e.2 = true := by
  simp only [State.readyIn, List.mem_filter, Bool.and_eq_true, beq_iff_eq, and_assoc]

/-- A ready thread has its clause at hand. -/
theorem State.ready_clause {u : Nat} {t : Thread} (h : s.ready u t = true) :
    ∃ cr ws, SMap.get? s.crews t.crew = some cr ∧ s.clauseFor t.core cr.ctx t.pc = some ws := by
  simp only [State.ready, Bool.and_eq_true] at h
  obtain ⟨-, h⟩ := h
  split at h
  · cases h
  · next cr hcr =>
    simp only [Bool.and_eq_true] at h
    obtain ⟨-, h⟩ := h
    split at h
    · cases h
    · next ws hws => exact ⟨cr, ws, hcr, hws⟩

/-- A member as the formation leaves it. -/
def Thread.formed (t : Thread) : Thread := { (if t.at_ = 0 then t.startClause else t) with status := .inWarp, fellThrough := false }

theorem Thread.formed_anom (t : Thread) : t.formed.anom = if t.at_ = 0 then t.anomNext.getD t.anom else t.anom := by
  unfold Thread.formed
  split <;> rfl

/-- The machine with the warp of `t` formed of `ms` in slot `ws`. -/
def State.formed (s : State) (core quad ws : Nat) (t : Nat × Thread) (ms : List (Nat × Thread)) (words : List Word) (cid : Nat) : State :=
  let ctr := SMap.getD s.formation 0 (quadKey core quad)
  let s2 : State := { s with formation := SMap.setD s.formation 0 (quadKey core quad) ((ctr + 1) % 65536) }
  let s3 := ms.foldl (fun (s : State) e => s.modThread e.1 Thread.formed) s2
  let w : Warp := ⟨ms.map (·.1), t.2.pc, t.2.at_, words, cid, [], false, t.2.stamp.getD ctr, t.2.lane, t.2.slot⟩
  { s3 with warps := SMap.put s3.warps (quadKey core quad * 4 + ws) w }

theorem exec_warpFormation {s0 : State} {ws : Nat} {t : Nat × Thread} {cr : Crew} {words : List Word} (hs : s = s0.stampQuad core quad)
    (hws : ((List.range 4).find? fun i => !(s.warpSlots core quad).contains i) = some ws)
    (ht : oldest (SMap.getD s.formation 0 (quadKey core quad)) (s.readyIn core quad) = some t) (hcr : SMap.get? s.crews t.2.crew = some cr)
    (hwords : s.clauseFor core cr.ctx t.2.pc = some words) (hcheck : (if t.2.at_ = 0 then clauseCheck words else none) = none) :
    exec (.warpFormation core quad) s0 = .next (s.formed core quad ws t
      (formMembers (SMap.getD s.formation 0 (quadKey core quad)) t (s.readyIn core quad)) words cr.ctx) := by
  have hform : s0.formation = s.formation := by rw [hs]; rfl
  have hslots : s0.warpSlots core quad = s.warpSlots core quad := by rw [hs]; rfl
  change execWarpFormation core quad s0 = _
  simp only [execWarpFormation, ← hs, hform, hslots, hws, ht, hcr, Option.map_some, Option.getD_some, hwords, hcheck]
  rfl

theorem foldl_modThread_notMem (f : Thread → Thread) (ms : List (Nat × Thread)) (s : State) {v : Nat} (hv : v ∉ ms.map (·.1)) :
    (ms.foldl (fun (s : State) e => s.modThread e.1 f) s).thread? v = s.thread? v := by
  induction ms generalizing s with
  | nil => rfl
  | cons e ms ih =>
    rw [List.map_cons, List.mem_cons, not_or] at hv
    rw [List.foldl_cons, ih _ hv.2, State.modThread_thread, if_neg hv.1]

theorem foldl_modThread_mem (f : Thread → Thread) {ms : List (Nat × Thread)} (hnodup : (ms.map (·.1)).Nodup) (s : State) {v : Nat}
    (hv : v ∈ ms.map (·.1)) : (ms.foldl (fun (s : State) e => s.modThread e.1 f) s).thread? v = (s.thread? v).map f := by
  induction ms generalizing s with
  | nil => cases hv
  | cons e ms ih =>
    rw [List.map_cons, List.nodup_cons] at hnodup
    rw [List.foldl_cons]
    by_cases he : v = e.1
    · rw [foldl_modThread_notMem f ms _ (he ▸ hnodup.1), State.modThread_thread, if_pos he]
    · rw [List.map_cons, List.mem_cons] at hv
      rw [ih hnodup.2 _ (hv.resolve_left he), State.modThread_thread, if_neg he]

/-- A list of ready threads in ascending lanes names each thread once. -/
theorem nodup_of_lanes {ms : List (Nat × Thread)} (hmem : ∀ e ∈ ms, s.thread? e.1 = some e.2) (hlanes : (ms.map (·.2.lane)).Pairwise (· < ·)) :
    (ms.map (·.1)).Nodup := by
  rw [List.Nodup, List.pairwise_map]
  refine (List.pairwise_map.mp hlanes).imp_of_mem fun {a b} ha hb hlt heq => ?_
  have hsame : a.2 = b.2 := Option.some.inj ((hmem a ha).symm.trans ((congrArg s.thread? heq).trans (hmem b hb)))
  exact absurd hlt (hsame ▸ Nat.lt_irrefl _)

section
variable (s core quad) (ws : Nat) (t : Nat × Thread) (ms : List (Nat × Thread)) (words : List Word) (cid : Nat)

theorem State.formed_warp : SMap.get? (s.formed core quad ws t ms words cid).warps (quadKey core quad * 4 + ws) = some ⟨ms.map (·.1), t.2.pc, t.2.at_,
    words, cid, [], false, t.2.stamp.getD (SMap.getD s.formation 0 (quadKey core quad)), t.2.lane, t.2.slot⟩ :=
  SMap.get?_put_same _ _ _

/-- Forming a warp counts the quadrant's formations, and leaves registers and memory. -/
theorem State.formed_frame : SMap.getD (s.formed core quad ws t ms words cid).formation 0 (quadKey core quad) =
      (SMap.getD s.formation 0 (quadKey core quad) + 1) % 65536 ∧
    (s.formed core quad ws t ms words cid).regs = s.regs ∧ (s.formed core quad ws t ms words cid).mem = s.mem := by
  dsimp only [State.formed]
  refine ⟨?_, foldl_keep State.regs (fun (s : State) e => s.modThread e.1 Thread.formed) (fun _ _ => rfl) ms _,
    foldl_keep State.mem (fun (s : State) e => s.modThread e.1 Thread.formed) (fun _ _ => rfl) ms _⟩
  rw [foldl_keep State.formation (fun (s : State) (e : Nat × Thread) => s.modThread e.1 Thread.formed) (fun _ _ => rfl) ms, SMap.getD_setD_same]

end

end

end Sys2Proof.Machine
end

section
/-! SUPPORT. Fetching and forming, as the machine's claim has them (R36 to R42, R87, R313). -/

namespace Sys2Proof.Machine

/-- What a fill that lands leaves: the clause's words in the cache, each the old one or the one a store under way will leave. -/
theorem icacheFill_fills {s : State} {core ctx addr a : Nat} {c : Context} {h : Hit} (hc : SMap.get? s.ctxs ctx = some c)
    (hts : s.standingAt core ctx addr ≠ []) (ha : addr % 64 = 0) (hmiss : SMap.get? s.icache (icKey core ctx addr) = none)
    (hstub : s.isStub core ctx c addr = false) (hptr : ptrOk ((c.cspace + addr) % 2 ^ 64) = true)
    (ht : (s.translate core ctx c ((c.cspace + addr) % 2 ^ 64 % 2 ^ 48)).2 = .hit h) (hr : h.r = true) (hloc : h.loc = .hbm a)
    (hpoison : ∀ i, i < 4 → twPoison (s.twAt (.hbm (a + 16 * i)) (h.tagAddr.map (· + 4 * i)) h.ptag) = false)
    (hold : (s.clauseAt a).getD 0 0 ≠ stubMark) (hsoon : (s.clauseSoon a).getD 0 0 ≠ stubMark) :
    ∃ s' ws, exec (.icacheFill core ctx addr) s = .next s' ∧ SMap.get? s'.icache (icKey core ctx addr) = some ws ∧ ws.length = 16 ∧
      (∀ i, i < 16 → ws.getD i 0 = (s.clauseAt a).getD i 0 ∨ ws.getD i 0 = (s.clauseSoon a).getD i 0) ∧
      (s.stores = [] → ws = s.clauseAt a) ∧ s'.mem = s.mem ∧ s'.regs = s.regs ∧ ((s.icOf core).length < 2048 → s'.threads = s.threads) := by
  obtain ⟨s1, hquiet, hexec⟩ := exec_icacheFill hc hts ha hmiss hstub hptr ht hr hloc hpoison
  have hmem : s1.mem = s.mem := (congrArg State.mem hquiet :)
  have hregs : s1.regs = s.regs := (congrArg State.regs hquiet :)
  have hthreads : s1.threads = s.threads := (congrArg State.threads hquiet :)
  have hicache : s1.icache = s.icache := (congrArg State.icache hquiet :)
  have hwords : ∀ i, i < 16 → (s.fillWords a h.tagAddr h.ptag).getD i 0 = (s.clauseAt a).getD i 0 ∨
      (s.fillWords a h.tagAddr h.ptag).getD i 0 = (s.clauseSoon a).getD i 0 := fun i hi => by
    rw [s.fillWords_getD a h.tagAddr h.ptag hi]
    exact s.fillWord_or a h.tagAddr h.ptag hi
  have hmark : (s.fillWords a h.tagAddr h.ptag).getD 0 0 ≠ stubMark := by
    rcases hwords 0 (by decide) with hw | hw
    · rwa [hw]
    · rwa [hw]
  obtain ⟨hput, hmem2, hregs2, hthreads2⟩ := State.icPut_eq (s := s1) (core := core) (ctx := ctx) (addr := addr) hmark
  refine ⟨_, _, hexec, hput, ?_, hwords, s.fillWords_noStores a h.tagAddr h.ptag, hmem2.trans hmem, hregs2.trans hregs, fun hlen => ?_⟩
  · rw [State.fillWords_eq, List.length_map, List.length_range]
  · refine (hthreads2 ?_).trans hthreads
    rwa [State.icOf, hicache]

/-- Settles O47: a fill's words are old or new ones (`State.fillWord_or`); a warp's members are the oldest candidates of their lanes
(`formMembers_oldest`), each a thread of its own (`nodup_of_lanes`). -/
theorem fetchAndFormation : Obligations.FetchAndFormation := by
  refine ⟨fun s core ctx addr a c h hc hts ha hmiss hstub hptr ht hr hloc _ hpoison hold hsoon =>
    icacheFill_fills hc hts ha hmiss hstub hptr ht hr hloc hpoison hold hsoon, fun s0 core quad hrise => ?formation⟩
  case formation =>
    intro s l age hne hform hslot
    have hrise' : SMap.rising s.threads = true := s0.stampQuad_rising core quad hrise
    have hthread : ∀ e ∈ l, s.thread? e.1 = some e.2 := fun e he =>
      (SMap.mem_iff_get?_of_risingFrom hrise').mp (State.mem_readyIn.mp he).1
    obtain ⟨t, ht⟩ := oldest_exists (ctr := SMap.getD s.formation 0 (quadKey core quad)) hne
    obtain ⟨htl, hbefore, hleast⟩ := oldest_spec ht
    obtain ⟨-, hcore, hquad, hready⟩ := State.mem_readyIn.mp htl
    obtain ⟨cr, words, hcr, hwords⟩ := State.ready_clause hready
    rw [hcore] at hwords
    have hcheck : (if t.2.at_ = 0 then clauseCheck words else none) = none := by
      split
      · next hat => exact (hform t htl).2 hat cr words hcr hwords
      · rfl
    have hfound : ((List.range 4).find? fun i => !(s.warpSlots core quad).contains i).isSome = true := by
      obtain ⟨i, hi, hfree⟩ := hslot
      rw [List.find?_isSome]
      exact ⟨i, List.mem_range.mpr hi, by rw [hfree]; rfl⟩
    obtain ⟨ws, hws⟩ := Option.isSome_iff_exists.mp hfound
    have hws4 : ws < 4 := List.mem_range.mp (List.mem_of_find?_eq_some hws)
    have hwsfree : (s.warpSlots core quad).contains ws = false := by simpa using List.find?_some hws
    have hexec := exec_warpFormation rfl hws ht hcr hwords hcheck
    generalize hms : formMembers (SMap.getD s.formation 0 (quadKey core quad)) t (s.readyIn core quad) = ms at hexec
    have hmem : ∀ x ∈ ms, x ∈ l ∧ joins t.2 x.2 = true := fun x hx => formMembers_spec htl (hms ▸ hx)
    have hlanes : (ms.map (·.2.lane)).Pairwise (· < ·) := hms ▸ formMembers_lanes htl
    have hnodup : (ms.map (·.1)).Nodup := nodup_of_lanes (fun e he => hthread e (hmem e he).1) hlanes
    have htm : t ∈ ms := hms ▸ mem_formMembers (hform t htl).1 (if_pos rfl)
    obtain ⟨hcount, hregs, hmemory⟩ := s.formed_frame core quad ws t ms words cr.ctx
    refine ⟨_, t.1, t.2, ws, words, cr, _, hexec, htl, hbefore, fun x hx hx' => hleast x hx hx', hws4, hwsfree, hcr, hwords,
      s.formed_warp core quad ws t ms words cr.ctx, rfl, rfl, rfl, rfl, rfl, rfl, rfl, rfl, List.mem_map_of_mem htm, ?lanes, ?members, ?oldest, hcount,
      hregs, hmemory, ?others⟩
    case lanes =>
      have hlane : (ms.map (·.1)).map s.laneOf = ms.map (·.2.lane) := by
        rw [List.map_map]
        refine List.map_congr_left fun e he => ?_
        rw [Function.comp, State.laneOf, hthread e (hmem e he).1]
        rfl
      rw [hlane]
      exact hlanes
    case members =>
      intro v hv
      obtain ⟨x, hx, rfl⟩ := List.mem_map.mp hv
      obtain ⟨hxl, hxj⟩ := hmem x hx
      have hat : x.2.at_ = t.2.at_ := by
        simp only [joins, Bool.and_eq_true, beq_iff_eq] at hxj
        exact hxj.1.2
      refine ⟨x.2, x.2.formed, hxl, hxj, ?_, rfl, by rw [Thread.formed_anom, hat]⟩
      exact (foldl_modThread_mem Thread.formed hnodup _ hv).trans (congrArg (Option.map Thread.formed) (hthread x hxl))
    case oldest =>
      intro y hy hyj hyl
      obtain ⟨x, hx, hxl, hxlane, hxbefore, hxleast⟩ := formMembers_oldest hy hyj hyl (hform y hy).1
      exact ⟨x, ⟨List.mem_map_of_mem (hms ▸ hx), hxl⟩, hxlane, hxbefore, hxleast⟩
    case others =>
      intro v hv
      rw [← s0.stampQuad_still core quad v]
      exact congrArg (Option.map Thread.still) (foldl_modThread_notMem Thread.formed ms _ hv)

end Sys2Proof.Machine
end

section
/-! SUPPORT. A store that is performed (R81, R82, R428): its bytes, and the tag word or the eartag of its granule, in HBM and in a
scratchpad. -/

namespace Sys2Proof.Machine

/-! ## Scratchpad bytes (R137) -/

/-- Writing scratchpad bytes changes the scratchpad only. -/
theorem State.scrWrite_frame (c : Nat) : ∀ (bs : List Byte) (s : State) (b : Nat), s.scrWrite c b bs = { s with scr := (s.scrWrite c b bs).scr }
  | [], _, _ => rfl
  | x :: xs, s, b => State.scrWrite_frame c xs { s with scr := SMap.setD s.scr 0 (scrKey c b) x } (b + 1)

theorem scrKey_succ (c b : Nat) : scrKey c (b + 1) = scrKey c b + 1 := by
  rw [scrKey, scrKey, Nat.add_assoc]

theorem State.getD_scrWrite (c : Nat) : ∀ (bs : List Byte) (s : State) (b k : Nat), SMap.getD (s.scrWrite c b bs).scr 0 k =
    if scrKey c b ≤ k ∧ k < scrKey c b + bs.length then bs.getD (k - scrKey c b) 0 else SMap.getD s.scr 0 k
  | [], s, b, k => by rw [if_neg (by simp only [List.length_nil]; omega)]; rfl
  | x :: xs, s, b, k => by
    rw [State.scrWrite, State.getD_scrWrite c xs, SMap.getD_setD, List.length_cons, scrKey_succ]
    by_cases h : k = scrKey c b
    · subst h
      rw [if_neg (by omega), if_pos rfl, if_pos (by omega), Nat.sub_self, List.getD_cons_zero]
    · by_cases h2 : scrKey c b + 1 ≤ k ∧ k < scrKey c b + 1 + xs.length
      · rw [if_pos h2, if_pos (by omega), show k - scrKey c b = (k - (scrKey c b + 1)) + 1 by omega, List.getD_cons_succ]
      · rw [if_neg h2, if_neg h, if_neg (by omega)]

/-! ## Tag words (R78, R82) -/

/-- A tag word after a store: the eartag below the rest. -/
theorem getLsbD_storedTw (whole : Bool) (st : Tag) (old : Word) (i : Nat) : (storedTw whole st old).getLsbD i =
    if i < 24 then (storedTag whole st (twTag old)).getLsbD i
    else (b1 (!whole && twPoison old) ++ 0#1 ++ fld old 28 2 ++ fld old 24 4).getLsbD (i - 24) :=
  BitVec.getLsbD_append

theorem twTag_storedTw (whole : Bool) (st : Tag) (old : Word) : twTag (storedTw whole st old) = storedTag whole st (twTag old) := by
  refine BitVec.eq_of_getLsbD_eq fun i hi => ?_
  rw [twTag, fld, BitVec.getLsbD_extractLsb', Nat.zero_add, getLsbD_storedTw, if_pos hi, decide_eq_true hi, Bool.true_and]

theorem twColour_storedTw (whole : Bool) (st : Tag) (old : Word) : twColour (storedTw whole st old) = twColour old := by
  have h : fld (storedTw whole st old) 24 4 = fld old 24 4 := BitVec.eq_of_getLsbD_eq fun i hi => by
    rw [fld, BitVec.getLsbD_extractLsb', getLsbD_storedTw, if_neg (by omega), Nat.add_sub_cancel_left, BitVec.getLsbD_append, if_pos hi,
      decide_eq_true hi, Bool.true_and]
  rw [twColour, h, twColour]

theorem twPoison_storedTw (whole : Bool) (st : Tag) (old : Word) : twPoison (storedTw whole st old) = (twPoison old && !whole) := by
  rw [twPoison, bit, getLsbD_storedTw, if_neg (by omega), Bool.and_comm]
  simp only [BitVec.getLsbD_append]
  cases twPoison old && !whole <;> rfl

/-! ## Stores without a mask -/

theorem maskRuns_map_some : ∀ (bs : List Byte) (i : Nat), bs ≠ [] → maskRuns i (bs.map some) = [(i, bs)]
  | [], _, h => absurd rfl h
  | [b], _, _ => rfl
  | b :: c :: bs, i, _ => by
    have ih := maskRuns_map_some (c :: bs) (i + 1) (List.cons_ne_nil _ _)
    rw [List.map_cons, maskRuns, ih]
    simp

theorem wholeGran_map_some (bs : List Byte) : wholeGran (bs.map some) = (bs.length == 16) := by
  simp [wholeGran]

theorem Loc.add_zero (l : Loc) : l.add 0 = l := by
  cases l <;> rfl

/-- With no dirty bitmap in use a write marks nothing (R274). -/
theorem State.markUnit_clean {s : State} (h : ∀ e ∈ s.ctxs, e.2.dirty = 0) (cid u : Nat) (l : Loc) : s.markUnit cid u l = s := by
  unfold State.markUnit
  split
  · rfl
  · next c hc => rw [if_pos (h _ (SMap.mem_of_get? hc))]

theorem State.markDirty_clean {s : State} (h : ∀ e ∈ s.ctxs, e.2.dirty = 0) (cid va : Nat) (l : Loc) : s.markDirty cid va l = s := by
  have hnone : (s.ctxs.filter fun e => e.1 != cid && e.2.dirty != 0 && !e.2.ended) = [] := by
    rw [List.filter_eq_nil_iff]
    intro e he
    simp [h e he]
  unfold State.markDirty
  rw [State.markUnit_clean h]
  cases l with
  | hbm a => simp only [hnone, List.foldl_nil]
  | _ => rfl

theorem State.performMasked_whole {s : State} {bs : List Byte} (h : ∀ e ∈ s.ctxs, e.2.dirty = 0) (hbs : bs ≠ []) (cid va : Nat) (l : Loc) (g : Tag)
    (ta : Option Nat) : s.performMasked cid va l (bs.map some) g ta = (s.writeLoc l bs g ta (bs.length == 16)).wakeMonitors l := by
  unfold State.performMasked
  simp only [State.markDirty_clean h, ite_self, maskRuns_map_some bs 0 hbs, wholeGran_map_some, List.foldl_cons, List.foldl_nil, Loc.add_zero]

theorem storedTag_eq (n : Nat) (st old : Tag) :
    storedTag (n == 16) st old = if n ≠ 16 ∧ st.getLsbD 23 = false ∧ old.getLsbD 23 = true then old else st := by
  simp [storedTag, isA, bit, and_assoc]

/-! ## A store at its point -/

/-- A store in HBM has no barrier object to test. -/
theorem State.performStore_hbm {s : State} {x : Store} {bs : List Byte} {a : Nat} (hcol : x.color = none) (hhalf : x.half = false)
    (hdata : x.data = bs.map some) (hbs : bs ≠ []) (h : ∀ e ∈ s.ctxs, e.2.dirty = 0) (hloc : x.loc = .hbm a) :
    (s.performStore x).mem = (s.writeLoc (.hbm a) bs x.tag x.tagAddr (bs.length == 16)).mem := by
  simp only [State.performStore, hcol, hhalf, hdata, hloc, Bool.false_eq_true, if_false, State.performMasked_whole h hbs]
  rfl

/-- A store in a scratchpad, on no barrier object in use, is the write of its bytes and its granule's eartag. -/
theorem State.performStore_scr {s : State} {x : Store} {bs : List Byte} {c b : Nat} (hcol : x.color = none) (hhalf : x.half = false)
    (hdata : x.data = bs.map some) (hbs : bs ≠ []) (h : ∀ e ∈ s.ctxs, e.2.dirty = 0) (hloc : x.loc = .scr c b)
    (hobj : ((s.crewAt c (b / 16 * 16)).any fun e => e.2.objs.contains (b / 16 * 16 - 128 * e.2.base)) = false) :
    s.performStore x = (s.writeLoc (.scr c b) bs x.tag x.tagAddr (bs.length == 16)).wakeMonitors (.scr c b) := by
  have hcrew : ((s.writeLoc (.scr c b) bs x.tag x.tagAddr (bs.length == 16)).wakeMonitors (.scr c b)).crewAt c (b / 16 * 16) =
      s.crewAt c (b / 16 * 16) := by
    rw [State.crewAt, State.wakeMonitors_crews, State.writeLoc, State.scrWrite_frame]
    rfl
  simp only [State.performStore, hcol, hhalf, hdata, hloc, Bool.false_eq_true, if_false, State.performMasked_whole h hbs, State.barRetest,
    Loc.canon, Loc.gran, hcrew]
  cases hc : s.crewAt c (b / 16 * 16) with
  | none => rfl
  | some e =>
    rw [hc] at hobj
    exact if_neg (Bool.eq_false_iff.mp hobj)

theorem State.tagWord_setTagWord (s : State) (a : Nat) (w : Word) : (s.setTagWord a w).tagWord a = w := by
  have hread := readCells_writeCells (toBytes 4 w.toNat) s.mem a
  rw [length_toBytes] at hread
  rw [State.tagWord, State.setTagWord, hread, ofBytes_toBytes]
  exact BitVec.eq_of_toNat_eq (by rw [BitVec.toNat_ofNat]; omega)

/-- Settles O27: the one run of an unmasked store is written at its location (`performMasked_whole`), and the tag word there is `storedTw` of
the old one. -/
theorem storePerformed : Obligations.StorePerformed := by
  intro s x bs hcol hhalf hdata hbs hclean keeps
  refine ⟨fun a ta hloc hta hapart => ?tagged, fun a hloc hta k => ?exempt, fun c b hloc hobj => ?scratchpad⟩
  case tagged =>
    have hmem := State.performStore_hbm hcol hhalf hdata hbs hclean hloc
    rw [hta] at hmem
    have hold : ({ s with mem := writeCells s.mem a bs } : State).tagWord ta = s.tagWord ta := by
      rw [State.tagWord, readCells_writeCells_apart bs s.mem hapart, State.tagWord]
    simp only [State.writeLoc, hold] at hmem
    have hword : (s.performStore x).tagWord ta = storedTw (bs.length == 16) x.tag (s.tagWord ta) := by
      rw [State.tagWord, hmem]
      exact State.tagWord_setTagWord _ ta _
    have hbyte (k : Nat) (hk : k < ta ∨ ta + 4 ≤ k) : SMap.getD (s.performStore x).mem 0 k =
        if a ≤ k ∧ k < a + bs.length then bs.getD (k - a) 0 else SMap.getD s.mem 0 k := by
      rw [hmem, State.setTagWord, getD_writeCells, length_toBytes, if_neg (by omega), getD_writeCells]
    refine ⟨fun i hi => ?_, ?_, ?_, ?_, fun k hk hk' => ?_⟩
    · rw [hbyte _ (by omega), if_pos (by omega), Nat.add_sub_cancel_left]
    · rw [hword, twTag_storedTw, storedTag_eq]
    · rw [hword, twColour_storedTw]
    · rw [hword, twPoison_storedTw]
      rfl
    · rw [hbyte k hk', if_neg (by omega)]
  case exempt =>
    rw [State.performStore_hbm hcol hhalf hdata hbs hclean hloc, hta]
    exact getD_writeCells bs s.mem a k
  case scratchpad =>
    have hstore := State.performStore_scr hcol hhalf hdata hbs hclean hloc hobj
    refine ⟨fun k => ?_, fun k => ?_⟩
    · rw [hstore]
      exact State.getD_scrWrite c bs s b k
    · have htag : (s.performStore x).scrTag = SMap.setD s.scrTag 0 (granKey c b) (storedTag (bs.length == 16) x.tag (SMap.getD s.scrTag 0 (granKey c b))) := by
        rw [hstore, State.wakeMonitors_scrTag, State.writeLoc, State.scrWrite_frame]
      rw [htag, SMap.getD_setD, storedTag_eq]
      split
      · next hk => rw [hk]
      · rfl

end Sys2Proof.Machine
end

section
/-! SUPPORT. Births of results (R71 to R75, R86, R88): what each instruction's lanes write, with the record of a result that is a birth. -/

namespace Sys2Proof.Machine

/-! ## Results of one, two and three registers (R72, R74) -/

section
variable {i : Instr} {d a b c : VReg} {kind : State → Env → Thread → Nat} {x : State → Env → Thread → Word}

theorem bears_of_unResult {bits : Env → State → Thread → Nat}
    (hi : ∀ s, exec i s = s.perLane 1 (fun _ => chk2 false false d a) fun e s u t =>
      s.putResult e u t (unResult d 32 (s.src32 t a.toNat) (bits e s t) (kind s e t)))
    (hx : ∀ e s t, bits e s t = (x s e t).toNat) :
    bears i d [⟨d.toNat, 1, 1⟩, ⟨a.toNat, 1, 1⟩] kind (fun s _ t => s.ops1 t a) (fun s t => s.rule32 t [a]) x := by
  refine bears_of_result (G := fun e s t => unResult d 32 (s.src32 t a.toNat) (bits e s t) (kind s e t)) hi rfl rfl rfl rfl fun e s t => ?_
  refine ⟨rfl, rfl, fun _ => ?_, rfl, hx e s t, rfl, rfl, rfl⟩
  simp [unResult, bops1, State.ops1, State.w32, State.opd32, State.src32, Src.rec32]

theorem bears_of_binResult {bits : Env → State → Thread → Nat}
    (hi : ∀ s, exec i s = s.perLane 1 (fun _ => chk3 false false false d a b) fun e s u t =>
      s.putResult e u t (binResult d 32 (s.src32 t a.toNat) (s.src32 t b.toNat) (bits e s t) (kind s e t) none))
    (hx : ∀ e s t, bits e s t = (x s e t).toNat) :
    bears i d [⟨d.toNat, 1, 1⟩, ⟨a.toNat, 1, 1⟩, ⟨b.toNat, 1, 1⟩] kind (fun s _ t => s.ops2 t a b) (fun s t => s.rule32 t [a, b]) x := by
  refine bears_of_result (G := fun e s t => binResult d 32 (s.src32 t a.toNat) (s.src32 t b.toNat) (bits e s t) (kind s e t) none) hi rfl rfl rfl rfl
    fun e s t => ?_
  refine ⟨rfl, rfl, fun _ => ?_, rfl, hx e s t, rfl, rfl, rfl⟩
  simp [binResult, bops2, State.ops2, State.w32, State.opd32, State.src32, Src.rec32]

/-- The result of an instruction of three source registers. -/
def triResult (d : VReg) (a b c : Src) (bits kind : Nat) : Result :=
  { d := d.toNat, w := 32, bits := bits, opds := [a, b, c], a := a, kind := kind, bops := bops3 a b c }

theorem bears_of_triResult {k : Chk} {bits : Env → State → Thread → Nat}
    (hi : ∀ s, exec i s = s.perLane 1 (fun _ => k) fun e s u t =>
      s.putResult e u t (triResult d (s.src32 t a.toNat) (s.src32 t b.toNat) (s.src32 t c.toNat) (bits e s t) (kind s e t)))
    (hc : k.cls = 0) (ha : k.anom = []) (hst : k.stall = false) (hx : ∀ e s t, bits e s t = (x s e t).toNat) :
    bears i d k.uses kind (fun s _ t => s.ops3 t a b c) (fun s t => s.rule32 t [a, b, c]) x := by
  refine bears_of_result
    (G := fun e s t => triResult d (s.src32 t a.toNat) (s.src32 t b.toNat) (s.src32 t c.toNat) (bits e s t) (kind s e t)) hi rfl hc ha hst
    fun e s t => ?_
  refine ⟨rfl, rfl, fun _ => ?_, rfl, hx e s t, rfl, rfl, rfl⟩
  simp [triResult, bops3, State.ops3, State.w32, State.opd32, State.src32, Src.rec32]

end

/-! ## Integers (R105) -/

theorem ovfKind_signed (t : Thread) (b : Bool) : ovfKind t true b = if t.iovf && b then 4 else 0 := by
  rw [ovfKind, Bool.true_and, Bool.and_comm]

theorem wrapRes_bits (w : Nat) (x : Int) : (wrapRes w x).bits = (BitVec.ofInt w x).toNat := wrapInt_eq w x

theorem wrapRes_ovf (w : Nat) (x : Int) : (wrapRes w x).ovf = (decide (x < -2 ^ (w - 1)) || decide (2 ^ (w - 1) ≤ x)) := signedOverflow_iff x

theorem iaddi_bears (f : FImm) : bears (.iaddi f) f.d [⟨f.d.toNat, 1, 1⟩, ⟨f.a.toNat, 1, 1⟩]
    (fun s _ t => if t.iovf && (s.w32 t f.a).saddOverflow (f.imm.signExtend 32) then 4 else 0) (fun s _ t => s.ops1 t f.a)
    (fun s t => s.rule32 t [f.a]) (fun s _ t => s.w32 t f.a + f.imm.signExtend 32) := by
  have hsum (s : State) (t : Thread) : wrapRes 32 (sext 32 (s.src32 t f.a.toNat).bits + (simm13 f.imm).toInt) =
      intOp 0 32 true (s.w32 t f.a).toNat (f.imm.signExtend 32 : Word).toNat := by
    simp only [intOp, if_true, sext_toNat]
    rw [State.src32, sext_toNat]
    rfl
  refine bears_of_unResult (bits := fun _ s t => (iaddiResult f s t).bits) (fun s => ?_) fun e s t => ?_
  · have hkind (s : State) (t : Thread) : ovfKind t true (wrapRes 32 (sext 32 (s.src32 t f.a.toNat).bits + (simm13 f.imm).toInt)).ovf =
        if t.iovf && (s.w32 t f.a).saddOverflow (f.imm.signExtend 32) then 4 else 0 := by
      rw [ovfKind_signed, hsum, intOp_add_ovf]
    simp only [← hkind]
    rfl
  · exact (congrArg IRes.bits (hsum s t)).trans (intOp_add true _ _)

theorem toNat_creg (c : BitVec 6) : (c.zeroExtend 7 : VReg).toNat = c.toNat := by
  rw [BitVec.toNat_setWidth_of_le (by decide)]

theorem imad_bears (f : FR4) : bears (.imad f) f.d [⟨f.d.toNat, 1, 1⟩, ⟨f.a.toNat, 1, 1⟩, ⟨f.b.toNat, 1, 1⟩, ⟨f.c.toNat, 1, 1⟩]
    (fun s _ t =>
      let x := (s.w32 t f.a).toInt * (s.w32 t f.b).toInt + (s.w32 t (f.c.zeroExtend 7)).toInt
      if t.iovf && (decide (x < -2 ^ 31) || decide (2 ^ 31 ≤ x)) then 4 else 0)
    (fun s _ t => s.ops3 t f.a f.b (f.c.zeroExtend 7)) (fun s t => s.rule32 t [f.a, f.b, f.c.zeroExtend 7])
    (fun s _ t => s.w32 t f.a * s.w32 t f.b + s.w32 t (f.c.zeroExtend 7)) := by
  have hint (s : State) (t : Thread) (v : VReg) : sext 32 (s.src32 t v.toNat).bits = (s.w32 t v).toInt := sext_toNat (s.w32 t v)
  refine bears_of_triResult (k := chkR4 f) (bits := fun _ s t => (imadResult f s t).bits) (fun s => ?_) rfl rfl rfl fun e s t => ?_
  · simp only [← hint, ← wrapRes_ovf 32, ← ovfKind_signed, toNat_creg]
    rfl
  · simp only [imadResult, ← toNat_creg, hint, wrapRes_bits, BitVec.ofInt_add, BitVec.ofInt_mul, BitVec.ofInt_toInt]

/-! ### IABS and LEA -/

theorem iabsBits_toNat {w : Nat} (x : BitVec w) : iabsBits w x.toNat = (if x.msb then -x else x).toNat := by
  have hlt := x.isLt
  rw [iabsBits, sext_toNat, BitVec.toInt_eq_msb_cond]
  split
  · rw [BitVec.toNat_neg, show ((x.toNat : Int) - ((2 ^ w : Nat) : Int)).natAbs = 2 ^ w - x.toNat by omega]
  · rw [Int.natAbs_natCast, toNat_mod]

theorem iabs_kind {w : Nat} (hw : 0 < w) (t : Thread) (x : BitVec w) :
    ovfKind t true (x.toNat % 2 ^ w == 2 ^ (w - 1)) = if t.iovf && x == BitVec.intMin w then 4 else 0 := by
  have hmin : (BitVec.intMin w).toNat = 2 ^ (w - 1) := by
    rw [BitVec.toNat_intMin, Nat.mod_eq_of_lt (Nat.pow_lt_pow_right (by decide) (by omega))]
  have heq : (x.toNat == 2 ^ (w - 1)) = (x == BitVec.intMin w) := by
    rw [← hmin, Bool.eq_iff_iff, beq_iff_eq, beq_iff_eq, BitVec.toNat_inj]
  rw [ovfKind_signed, toNat_mod, heq]

theorem iabs_bears (f : FWda) (h : f.wide = false) : bears (.iabs f) f.d [⟨f.d.toNat, 1, 1⟩, ⟨f.a.toNat, 1, 1⟩]
    (fun s _ t => if t.iovf && s.w32 t f.a == BitVec.intMin 32 then 4 else 0) (fun s _ t => s.ops1 t f.a)
    (fun s t => s.rule32 t [f.a]) (fun s _ t => if (s.w32 t f.a).msb then -(s.w32 t f.a) else s.w32 t f.a) := by
  refine bears_of_unResult (bits := fun _ s t => iabsBits 32 (s.w32 t f.a).toNat) (fun s => ?_) fun e s t => iabsBits_toNat _
  simp only [← iabs_kind (w := 32) (by decide)]
  change execIabs f s = _
  simp only [execIabs, unary, h, Bool.and_false, State.src]
  rfl

theorem iabs_wide_bears (f : FWda) (h : f.wide = true) : bears (.iabs f) f.d [⟨f.d.toNat, 2, 2⟩, ⟨f.a.toNat, 2, 2⟩]
    (fun s _ t => if t.iovf && s.w64 t f.a == BitVec.intMin 64 then 4 else 0)
    (fun s _ t => ⟨(s.w64 t f.a).extractLsb' 0 32, 0, 0, (s.opd64 t f.a).tag, 0, 0⟩)
    (fun s t => ⟨[s.opd64 t f.a], (s.opd64 t f.a).tag⟩) (fun s _ t => if (s.w64 t f.a).msb then -(s.w64 t f.a) else s.w64 t f.a) := by
  refine bears_of_result (k := chk2 true true f.d f.a)
    (G := fun _ s t => unResult f.d 64 (s.src64 t f.a.toNat) (iabsBits 64 (s.w64 t f.a).toNat) (ovfKind t true ((s.w64 t f.a).toNat % 2 ^ 64 == 2 ^ 63)))
    (fun s => ?_) rfl rfl rfl rfl fun e s t => ?_
  · change execIabs f s = _
    simp only [execIabs, unary, h, Bool.and_true, State.src, if_true]
    rfl
  · refine ⟨rfl, iabs_kind (by decide) t _, fun _ => ?_, rfl, iabsBits_toNat _, rfl, rfl, rfl⟩
    rfl

theorem ptrOk_toNat (x : DWord) : ptrOk x.toNat = (x.extractLsb' 60 4 == 0#4 && x.extractLsb' 48 8 == 0#8) := by
  have hfld (lo n : Nat) : (nfld x.toNat lo n == 0) = (x.extractLsb' lo n == 0#n) := by
    rw [Bool.eq_iff_iff, beq_iff_eq, beq_iff_eq, ← BitVec.toNat_inj, BitVec.extractLsb'_toNat, Nat.shiftRight_eq_div_pow]
    simp [nfld]
  rw [ptrOk, hfld, hfld]

theorem lea_bears (f : Fdab) : bears (.lea f) f.d [⟨f.d.toNat, 2, 2⟩, ⟨f.a.toNat, 2, 2⟩, ⟨f.b.toNat, 1, 1⟩]
    (fun s _ t =>
      let x := s.w64 t f.a + (s.w32 t f.b).zeroExtend 64
      if x.extractLsb' 60 4 == 0#4 && x.extractLsb' 48 8 == 0#8 then 0 else 5)
    (fun s _ t => ⟨(s.w64 t f.a).extractLsb' 0 32, s.w32 t f.b, 0, (s.opd64 t f.a).tag, (s.opd32 t f.b).tag, 0⟩)
    (fun s t => ⟨[s.opd64 t f.a, (s.opd32 t f.b).narrow], (s.opd64 t f.a).tag⟩)
    (fun s _ t => s.w64 t f.a + (s.w32 t f.b).zeroExtend 64) := by
  have hsum (s : State) (t : Thread) : ((s.src64 t f.a.toNat).bits + (s.src32 t f.b.toNat).bits) % 2 ^ 64 =
      (s.w64 t f.a + (s.w32 t f.b).zeroExtend 64).toNat := by
    rw [BitVec.toNat_add, BitVec.toNat_setWidth_of_le (by decide)]
    rfl
  refine bears_of_result (k := chk3 true true false f.d f.a f.b) (G := fun _ s t => leaResult f s t) (fun _ => rfl) rfl rfl rfl rfl fun e s t => ?_
  refine ⟨rfl, ?_, fun _ => ?_, rfl, hsum s t, ?_, rfl, rfl⟩
  · simp only [leaResult, binResult, hsum, ptrOk_toNat]
  · simp [leaResult, binResult, bops2, Src.rec32, State.src32, State.w32, State.opd32]
    exact ⟨rfl, rfl⟩
  · simp [leaResult, binResult, Result.opdList, State.src32, State.src64, State.opd32, State.opd64, Opd.narrow]

/-! ## Floats (R104, R106, R107) -/

theorem toNat_f32 (ftz : Bool) (v : FVal) : fF32.flush ftz (fF32.round v) = (BitVec.ofNat 32 (fF32.flush ftz (fF32.round v)) : Word).toNat := by
  rw [BitVec.toNat_ofNat, Nat.mod_eq_of_lt (fF32_result_lt ftz v)]

theorem fadd_bears (f : Fdab) : roundsTo (.fadd f) f.d [⟨f.d.toNat, 1, 1⟩, ⟨f.a.toNat, 1, 1⟩, ⟨f.b.toNat, 1, 1⟩]
    (fun s e t => fsum [s.f32 e t f.a, s.f32 e t f.b]) (fun s e t => [s.f32 e t f.a, s.f32 e t f.b])
    (fun s _ t => s.ops2 t f.a f.b) (fun s t => s.rule32 t [f.a, f.b]) :=
  bears_of_binResult (bits := fun e s t => (faddResult 0 f e s t).bits) (fun _ => rfl) fun _ _ _ => toNat_f32 _ _

theorem fmul_bears (f : Fdab) : roundsTo (.fmul f) f.d [⟨f.d.toNat, 1, 1⟩, ⟨f.a.toNat, 1, 1⟩, ⟨f.b.toNat, 1, 1⟩]
    (fun s e t => (s.f32 e t f.a).mul (s.f32 e t f.b)) (fun s e t => [s.f32 e t f.a, s.f32 e t f.b])
    (fun s _ t => s.ops2 t f.a f.b) (fun s t => s.rule32 t [f.a, f.b]) :=
  bears_of_binResult (bits := fun e s t => (faddResult 1 f e s t).bits) (fun _ => rfl) fun _ _ _ => toNat_f32 _ _

theorem ffma_bears (f : FR4) :
    roundsTo (.ffma f) f.d [⟨f.d.toNat, 1, 1⟩, ⟨f.a.toNat, 1, 1⟩, ⟨f.b.toNat, 1, 1⟩, ⟨f.c.toNat, 1, 1⟩]
    (fun s e t => fsum [(s.f32 e t f.a).mul (s.f32 e t f.b), s.f32 e t (f.c.zeroExtend 7)])
    (fun s e t => [s.f32 e t f.a, s.f32 e t f.b, s.f32 e t (f.c.zeroExtend 7)])
    (fun s _ t => s.ops3 t f.a f.b (f.c.zeroExtend 7)) (fun s t => s.rule32 t [f.a, f.b, f.c.zeroExtend 7]) := by
  refine bears_of_triResult (k := chkR4 f) (bits := fun e s t => (ffmaResult f e s t).bits) (fun s => ?_) rfl rfl rfl fun e s t => ?_
  · simp only [State.f32, State.w32, toNat_creg]
    rfl
  · simp only [State.f32, State.w32, toNat_creg]
    exact toNat_f32 _ _

theorem approx_bears {f : Fda} {i : Instr} {op : Nat}
    (h : (i, op) ∈ [(Instr.frcp f, 4), (.frsq f, 5), (.fexp2 f, 6), (.flog2 f, 7), (.fsin f, 8), (.fcos f, 9)]) :
    bears i f.d [⟨f.d.toNat, 1, 1⟩, ⟨f.a.toNat, 1, 1⟩] (fun s e t => (approxOf op e.ftz (s.w32 t f.a).toNat).kind) (fun s _ t => s.ops1 t f.a)
      (fun s t => s.rule32 t [f.a]) (fun s e t => BitVec.ofNat 32 (approxOf op e.ftz (s.w32 t f.a).toNat).code) := by
  have hexec (s : State) : exec i s = approxSlot op f s := by
    simp only [List.mem_cons, Prod.mk.injEq, List.not_mem_nil, or_false] at h
    obtain ⟨rfl, rfl⟩ | ⟨rfl, rfl⟩ | ⟨rfl, rfl⟩ | ⟨rfl, rfl⟩ | ⟨rfl, rfl⟩ | ⟨rfl, rfl⟩ := h <;> rfl
  refine bears_of_unResult (bits := fun e s t => (approxResult op f e s t).bits) hexec fun e s t => ?_
  rw [BitVec.toNat_ofNat, Nat.mod_eq_of_lt (approxOf_lt _ _ _)]
  rfl

theorem fcvt_bears (f : FCvt) : bears (.fcvt f) f.d [⟨f.d.toNat, 1, 1⟩, ⟨f.a.toNat, 1, 1⟩]
    (fun s e t => (cvtElem f.tgt.toNat f.src.toNat f.rnd.toNat f.ovf e.ftz (s.w32 t f.a).toNat).kind) (fun s _ t => s.ops1 t f.a)
    (fun s t => s.rule32 t [f.a])
    (fun s e t => BitVec.ofNat 32 (cvtElem f.tgt.toNat f.src.toNat f.rnd.toNat f.ovf e.ftz (s.w32 t f.a).toNat).code) := by
  refine bears_of_unResult (bits := fun e s t => (fcvtResult f e s t).bits) (fun _ => rfl) fun e s t => ?_
  rw [BitVec.toNat_ofNat, Nat.mod_eq_of_lt (cvtElem_lt _ _ _ _ _ _)]
  rfl

/-! ## Packed floats (R106) -/

theorem elem16_toNat (x : Word) (i : Nat) : elem16 x.toNat i = (x.extractLsb' (16 * i) 16).toNat := by
  rw [elem16, nfld, BitVec.extractLsb'_toNat, Nat.shiftRight_eq_div_pow]

/-- A packed result, with the lower element that is a birth as its record's. -/
theorem pack2_eq (r0 r1 : Nat × Nat) : pack2 r0 r1 = (r0.1 + 2 ^ 16 * r1.1, if r0.2 ≠ 0 then 0 else 1, if r0.2 ≠ 0 then r0.2 else r1.2) := by
  by_cases h : r0.2 = 0 <;> simp [pack2, h]

theorem pack16_toNat (h ftz : Bool) (v : Nat → FVal) : (fmt16 h).flush ftz ((fmt16 h).round (v 0)) + 2 ^ 16 * (fmt16 h).flush ftz ((fmt16 h).round (v 1)) =
    (pack16 (fmt16 h) ftz v).toNat := by
  have h0 := fmt16_result_lt h ftz (v 0)
  have h1 := fmt16_result_lt h ftz (v 1)
  rw [pack16, BitVec.toNat_ofNat, Nat.mod_eq_of_lt (by omega)]

theorem elem_half (s : State) (t : Thread) (v : VReg) (i : Nat) : ((s.src32 t v.toNat).elem i).rec32 = s.half t v i := by
  rw [Src.rec32, Src.elem, State.half]
  apply BitVec.eq_of_toNat_eq
  rw [BitVec.toNat_ofNat, BitVec.toNat_setWidth, ← elem16_toNat]
  rfl

/-- The result of a packed instruction whose elements are `r0` and `r1`. -/
def packedOf (d : VReg) (opds : List Src) (a : Src) (b : Nat → BirthOps) (r0 r1 : Nat × Nat) : Result :=
  { d := d.toNat, w := 32, bits := (pack2 r0 r1).1, opds := opds, a := a, kind := (pack2 r0 r1).2.2, bops := b (pack2 r0 r1).2.1 }

/-- A packed instruction bears as `packedTo` says, when its elements `g` are rounded as said and its record holds the operands of one. -/
theorem packedTo_of_result {i : Instr} {h : Bool} {d a : VReg} {rs : List VReg} {v : State → Env → Thread → Nat → FVal}
    {l : State → Env → Thread → Nat → List FVal} {o : State → Thread → Nat → BirthOps} {k : Chk} {g : Env → State → Thread → Nat → Nat × Nat}
    {b : State → Thread → Nat → BirthOps}
    (hi : ∀ s, exec i s = s.perLane 1 (fun _ => k) fun e s u t =>
      s.putResult e u t (packedOf d ((a :: rs).map fun v => s.src32 t v.toNat) (s.src32 t a.toNat) (b s t) (g e s t 0) (g e s t 1)))
    (hu : k.uses = ⟨d.toNat, 1, 1⟩ :: (a :: rs).map fun x => ⟨x.toNat, 1, 1⟩) (hc : k.cls = 0) (ha : k.anom = []) (hst : k.stall = false)
    (hg : ∀ e s t n, g e s t n = floatBits (fmt16 h) e.ftz (v s e t n) (l s e t n)) (hb : ∀ s t n, b s t n = o s t n) :
    packedTo i h d (a :: rs) v l o := by
  refine bears_of_result (k := k) hi hu hc ha hst fun e s t => ?_
  have hlist : ((a :: rs).map fun v => s.src32 t v.toNat).map (fun o => if o.w = 32 then (⟨o.bits, o.tag⟩ : Opd) else ⟨2 ^ 64 + o.bits, o.tag⟩) =
      (a :: rs).map (s.opd32 t) := by
    rw [List.map_map]
    rfl
  simp only [packedOf, pack2_eq, hg, floatBits]
  exact ⟨trivial, trivial, fun _ => hb s t _, trivial, pack16_toNat h e.ftz (v s e t), hlist, rfl, trivial⟩

theorem fadd2_bears (f : FHdab) : packedTo (.fadd2 f) f.h f.d [f.a, f.b] (fun s e t i => fsum [s.f16 e t f.h f.a i, s.f16 e t f.h f.b i])
    (fun s e t i => [s.f16 e t f.h f.a i, s.f16 e t f.h f.b i])
    (fun s t i => ⟨s.half t f.a i, s.half t f.b i, 0, (s.opd32 t f.a).tag, (s.opd32 t f.b).tag, 0⟩) := by
  refine packedTo_of_result (k := chk3 false false false f.d f.a f.b)
    (b := fun s t i => bops2 ((s.src32 t f.a.toNat).elem i) ((s.src32 t f.b.toNat).elem i))
    (g := fun e s t i => floatBin (fmt16 f.h) 0 e.ftz (elem16 (s.src32 t f.a.toNat).bits i) (elem16 (s.src32 t f.b.toNat).bits i)) (fun _ => rfl) rfl rfl rfl rfl
    (fun e s t n => ?_) fun s t n => ?_
  · simp only [State.f16, ← elem16_toNat]
    rfl
  · simp only [bops2, elem_half]
    rfl

theorem fmul2_bears (f : FHdab) : packedTo (.fmul2 f) f.h f.d [f.a, f.b] (fun s e t i => (s.f16 e t f.h f.a i).mul (s.f16 e t f.h f.b i))
    (fun s e t i => [s.f16 e t f.h f.a i, s.f16 e t f.h f.b i])
    (fun s t i => ⟨s.half t f.a i, s.half t f.b i, 0, (s.opd32 t f.a).tag, (s.opd32 t f.b).tag, 0⟩) := by
  refine packedTo_of_result (k := chk3 false false false f.d f.a f.b)
    (b := fun s t i => bops2 ((s.src32 t f.a.toNat).elem i) ((s.src32 t f.b.toNat).elem i))
    (g := fun e s t i => floatBin (fmt16 f.h) 1 e.ftz (elem16 (s.src32 t f.a.toNat).bits i) (elem16 (s.src32 t f.b.toNat).bits i)) (fun _ => rfl) rfl rfl rfl rfl
    (fun e s t n => ?_) fun s t n => ?_
  · simp only [State.f16, ← elem16_toNat]
    rfl
  · simp only [bops2, elem_half]
    rfl

theorem fma2_bears (f : FFma2) : packedTo (.fma2 f) f.h f.d [f.a, f.b, f.c.zeroExtend 7]
    (fun s e t i => fsum [(s.f16 e t f.h f.a i).mul (s.f16 e t f.h f.b i), s.f16 e t f.h (f.c.zeroExtend 7) i])
    (fun s e t i => [s.f16 e t f.h f.a i, s.f16 e t f.h f.b i, s.f16 e t f.h (f.c.zeroExtend 7) i])
    (fun s t i => ⟨s.half t f.a i, s.half t f.b i, s.half t (f.c.zeroExtend 7) i, (s.opd32 t f.a).tag, (s.opd32 t f.b).tag,
      (s.opd32 t (f.c.zeroExtend 7)).tag⟩) := by
  refine packedTo_of_result (k := { uses := [⟨f.d.toNat, 1, 1⟩, ⟨f.a.toNat, 1, 1⟩, ⟨f.b.toNat, 1, 1⟩, ⟨f.c.toNat, 1, 1⟩], src := some f.a.toNat })
    (b := fun s t i => bops3 ((s.src32 t f.a.toNat).elem i) ((s.src32 t f.b.toNat).elem i) ((s.src32 t (f.c.zeroExtend 7 : VReg).toNat).elem i))
    (g := fun e s t i => fmaBits (fmt16 f.h) e.ftz (elem16 (s.src32 t f.a.toNat).bits i) (elem16 (s.src32 t f.b.toNat).bits i)
      (elem16 (s.src32 t (f.c.zeroExtend 7 : VReg).toNat).bits i)) (fun s => ?_) ?_ rfl rfl rfl (fun e s t n => ?_) fun s t n => ?_
  · simp only [List.map_cons, List.map_nil]
    rfl
  · simp only [List.map_cons, List.map_nil]
    rw [← BitVec.toNat_setWidth_of_le (b := f.c) (show 5 ≤ 7 by decide)]
  · simp only [State.f16, ← elem16_toNat]
    rfl
  · simp only [bops3, elem_half]
    rfl

/-! ## Dot products (R106, R290, R326) -/

theorem fdot2_bears (f : FHdab) : roundsTo (.fdot2 f) f.d [⟨f.d.toNat, 1, 1⟩, ⟨f.a.toNat, 1, 1⟩, ⟨f.b.toNat, 1, 1⟩]
    (fun s e t => fsum [(s.f16 e t f.h f.a 0).mul (s.f16 e t f.h f.b 0), (s.f16 e t f.h f.a 1).mul (s.f16 e t f.h f.b 1), s.f32 e t f.d])
    (fun s e t => [s.f16 e t f.h f.a 0, s.f16 e t f.h f.a 1, s.f16 e t f.h f.b 0, s.f16 e t f.h f.b 1, s.f32 e t f.d])
    (fun s _ t => s.ops3 t f.a f.b f.d)
    (fun s t => ⟨[s.opd32 t f.d, s.opd32 t f.a, s.opd32 t f.b], (s.opd32 t f.a).tag⟩) := by
  refine bears_of_result (k := chkDot f.d f.a f.b) (G := fun e s t => dotResult (fmt16 f.h) 2 16 e.ftz f.d f.a f.b s t) (fun _ => rfl) rfl rfl rfl rfl
    fun e s t => ⟨rfl, ?_, fun _ => ?_, rfl, ?_, rfl, rfl, rfl⟩
  · simp only [State.f16, ← elem16_toNat]
    rfl
  · simp [dotResult, bops3, State.ops3, State.w32, State.opd32, State.src32, Src.rec32]
  · simp only [State.f16, ← elem16_toNat]
    exact toNat_f32 _ _

theorem extract8_toNat (x : Word) (i : Nat) : (x.extractLsb' (8 * i) 8).toNat = nfld x.toNat (8 * i) 8 := by
  rw [BitVec.extractLsb'_toNat, nfld, Nat.shiftRight_eq_div_pow]

/-- FDOT2.E4M3 (R290, R326): where the chip admits it, the dot product of four FP8 elements, with its birth. -/
theorem fdot2E4m3_effects (f : Fdab) :
    let x := fun (s : State) t i => fE4M3.dec ((s.w32 t f.a).extractLsb' (8 * i) 8).toNat
    let y := fun (s : State) t i => fE4M3.dec ((s.w32 t f.b).extractLsb' (8 * i) 8).toNat
    let v := fun (s : State) e t => fsum [(x s t 0).mul (y s t 0), (x s t 1).mul (y s t 1), (x s t 2).mul (y s t 2), (x s t 3).mul (y s t 3), s.f32 e t f.d]
    let kind := fun (s : State) e t => fF32.birthKind (fF32.round (v s e t))
      [x s t 0, x s t 1, x s t 2, x s t 3, y s t 0, y s t 1, y s t 2, y s t 3, s.f32 e t f.d]
    let r := fun (s : State) e t => fF32.flush e.ftz (fF32.round (v s e t))
    effects (.fdot2E4m3 f) 1 [⟨f.d.toNat, 1, 1⟩, ⟨f.a.toNat, 1, 1⟩, ⟨f.b.toNat, 1, 1⟩]
      (fun s e u t => s.admits31 e && (kind s e t == 0 || s.mayBear e u t (kind s e t) (s.ops3 t f.a f.b f.d)))
      (fun s e u t => s.bornOr e u t (kind s e t) (s.ops3 t f.a f.b f.d) f.d.toNat
        (ruleTag e.rule e.ownTag [s.opd32 t f.d, s.opd32 t f.a, s.opd32 t f.b] (s.opd32 t f.a).tag none (BitVec.ofNat 32 (r s e t)).toNat)
        (resultRegs 32 (BitVec.ofNat 32 (r s e t)).toNat)) := by
  intro x y v kind r s e b hp hb
  have hkind (s1 : State) (t : Thread) : (dotE4m3 e.ftz f.d f.a f.b s1 t).kind = kind s1 e t := by
    simp only [kind, v, x, y, extract8_toNat]
    rfl
  have hbits (s1 : State) (t : Thread) : (dotE4m3 e.ftz f.d f.a f.b s1 t).bits = (BitVec.ofNat 32 (r s1 e t)).toNat := by
    simp only [r, v, x, y, extract8_toNat]
    exact toNat_f32 _ _
  have hbops (s1 : State) (t : Thread) : (dotE4m3 e.ftz f.d f.a f.b s1 t).bops = s1.ops3 t f.a f.b f.d := by
    simp [dotE4m3, bops3, State.ops3, State.w32, State.opd32, State.src32, Src.rec32]
  have htag (s1 : State) (t : Thread) : (dotE4m3 e.ftz f.d f.a f.b s1 t).tag e =
      ruleTag e.rule e.ownTag [s1.opd32 t f.d, s1.opd32 t f.a, s1.opd32 t f.b] (s1.opd32 t f.a).tag none (BitVec.ofNat 32 (r s1 e t)).toNat := by
    rw [Result.tag, hbits]
    rfl
  obtain ⟨h1, h2, _⟩ := laneRun_slot (n := 1) (k := if s.admits31 e then chkDot f.d f.a f.b else {})
    (F := fun s u t => if s.admits31 e then s.putResult e u t (dotE4m3 e.ftz f.d f.a f.b s t)
      else .trap s { num := 1, cause := 3, tag := s.srcTag t (chkDot f.d f.a f.b) }) hp (fun s1 u t _ hn hok => by
        rw [Bool.and_eq_true, Bool.or_eq_true, beq_iff_eq] at hok
        obtain ⟨hadm, hbirth⟩ := hok
        have hput := putResult_bornOr (s := s1) (e := e) (u := u) (t := t) (r := dotE4m3 e.ftz f.d f.a f.b s1 t)
          (by rw [hkind, hbops]; exact hbirth)
        rw [hkind, hbops, htag, hbits] at hput
        have hstall : ((if s.admits31 e then chkDot f.d f.a f.b else {}).stall && t.spec) = false := by
          split <;> rfl
        have hchk : s1.check e (if s.admits31 e then chkDot f.d f.a f.b else {}) t = none := by
          split
          · exact check_none rfl hn (Or.inr (by simp [chkDot, chk3]))
          · exact check_none rfl rfl (Or.inr (by simp))
        rw [if_pos hadm]
        exact ⟨hstall, hchk, hput⟩) hb
  exact ⟨_, perLane_next (State.port_env hp) 1 _ _, h1, h2⟩

/-! ## The eartag rules (R74) -/

theorem birthRule_of_none {own : Tag} {opds : List Opd} (h : ∀ o ∈ opds, isA o.tag = false) : birthRule own opds = own := by
  rw [birthRule, List.find?_eq_none.2 fun o ho => by simp [h o ho]]

theorem birthRule_of_first {own : Tag} {l r : List Opd} {o : Opd} (hl : ∀ x ∈ l, isA x.tag = false) (ho : isA o.tag = true) :
    birthRule own (l ++ o :: r) = o.tag := by
  rw [birthRule, List.find?_append, List.find?_eq_none.2 fun x hx => by simp [hl x hx], Option.none_or, List.find?_cons_of_pos (by exact ho)]

theorem selectRule_of_first {own a : Tag} {l r : List Opd} {o : Opd} {bits : Nat} (hl : ∀ x ∈ l, x.bits ≠ bits) (ho : o.bits = bits) :
    ruleTag 2 own (l ++ o :: r) a none bits = o.tag := by
  rw [ruleTag, List.find?_append, List.find?_eq_none.2 fun x hx => by simp [hl x hx], Option.none_or,
    List.find?_cons_of_pos (by simp [ho])]

theorem selectRule_of_none {own a : Tag} {opds : List Opd} {bits : Nat} (h : ∀ o ∈ opds, o.bits ≠ bits) :
    ruleTag 2 own opds a none bits = a := by
  rw [ruleTag, List.find?_eq_none.2 fun x hx => by simp [h x hx]]

/-- R74, case by case. -/
theorem ruleTag_cases (own a : Tag) (opds : List Opd) (sel : Option Tag) (bits : Nat) :
    ((∀ o ∈ opds, isA o.tag = false) → ruleTag 0 own opds a sel bits = own) ∧
    (∀ l o r, opds = l ++ o :: r → (∀ x ∈ l, isA x.tag = false) → isA o.tag = true → ruleTag 0 own opds a sel bits = o.tag) ∧
    ruleTag 1 own opds a sel bits = a ∧
    (∀ g, ruleTag 2 own opds a (some g) bits = g) ∧
    (∀ l o r, opds = l ++ o :: r → (∀ x ∈ l, x.bits ≠ bits) → o.bits = bits → ruleTag 2 own opds a none bits = o.tag) ∧
    ((∀ o ∈ opds, o.bits ≠ bits) → ruleTag 2 own opds a none bits = a) ∧
    ruleTag 3 own opds a sel bits = own := by
  refine ⟨birthRule_of_none, ?_, rfl, fun _ => rfl, ?_, selectRule_of_none, rfl⟩
  · rintro l o r rfl hl ho
    exact birthRule_of_first hl ho
  · rintro l o r rfl hl ho
    exact selectRule_of_first hl ho

end Sys2Proof.Machine
end

section
/-! SUPPORT. What a birth leaves of the threads (R71, R86): all but their monitors, and, where a region commits, the region and the
store FIFO. -/

namespace Sys2Proof.Machine

/-- A thread without its monitor, its region and its store FIFO. -/
def Thread.settled (t : Thread) : Thread := { t with monitor := none, region := none, fifo := [] }

/-- The threads without what the writes of a birth change of them. -/
def State.settled (s : State) : SMap Thread := s.threads.map fun e => (e.1, e.2.settled)

theorem State.settled_thread {s s1 : State} (h : s1.settled = s.settled) (u : Nat) :
    (s1.thread? u).map Thread.settled = (s.thread? u).map Thread.settled := by
  have := congrArg (fun m => SMap.get? m u) h
  simpa [State.settled, SMap.get?_map _ (fun _ t => Thread.settled t), State.thread?] using this

theorem State.settled_of_threads {s s1 : State} (h : s1.threads = s.threads) : s1.settled = s.settled := by rw [State.settled, h, ← State.settled]

theorem State.modThread_settled (s : State) (u : Nat) (f : Thread → Thread) (h : ∀ t, (f t).settled = t.settled) :
    (s.modThread u f).settled = s.settled := by
  simp [State.settled, State.modThread, SMap.map_mod _ _ _ Thread.settled h]

theorem State.wakeMonitors_settled (s : State) (l : Loc) : (s.wakeMonitors l).settled = s.settled := by
  unfold State.settled State.wakeMonitors
  dsimp only
  rw [List.map_map]
  apply List.map_congr_left
  intro e _
  dsimp only [Function.comp]
  cases h : e.2.monitor with
  | none => rfl
  | some x =>
    dsimp only
    split
    · rfl
    · rfl

/-- What a write leaves alone besides monitors: the threads, and the records that wait for a page. -/
def State.bound (s : State) : SMap Thread × List PendRec := (s.threads, s.records)

theorem State.settled_of_bound {s s1 : State} (h : s1.bound = s.bound) : s1.settled = s.settled := State.settled_of_threads (congrArg Prod.fst h)

theorem snapUnit_bound (s : State) (cid u : Nat) (l : Loc) : (s.snapUnit cid u l).bound = s.bound := by
  unfold State.snapUnit
  split
  · split
    · rfl
    · split <;> rfl
  · rfl

theorem markUnit_bound (s : State) (cid u : Nat) (l : Loc) : (s.markUnit cid u l).bound = s.bound := by
  unfold State.markUnit
  split
  · rfl
  · split
    · rfl
    · have h := snapUnit_bound s cid u l
      split
      · dsimp only
        split <;> exact h
      · exact h

theorem markDirty_bound (s : State) (cid va : Nat) (l : Loc) : (s.markDirty cid va l).bound = s.bound := by
  unfold State.markDirty
  dsimp only
  split
  · rw [foldl_keep State.bound _ (fun s a => foldl_keep State.bound _ (fun s b => markUnit_bound s _ _ _) _ s)]
    exact markUnit_bound s _ _ _
  · exact markUnit_bound s _ _ _

theorem scrWrite_bound : ∀ (bs : List Byte) (s : State) (c b : Nat), (s.scrWrite c b bs).bound = s.bound
  | [], _, _, _ => rfl
  | x :: xs, s, c, b => by
    rw [State.scrWrite, scrWrite_bound xs]
    rfl

theorem winWrite1_bound (s : State) (c o : Nat) (d : List Byte) (g : Tag) : (s.winWrite1 c o d g).bound = s.bound := by
  unfold State.winWrite1
  dsimp only
  split
  · rfl
  · rfl
  · exact scrWrite_bound d s c _
  · rfl

theorem writeLoc_bound (s : State) (l : Loc) (d : List Byte) (g : Tag) (ta : Option Nat) (w : Bool) :
    (s.writeLoc l d g ta w).bound = s.bound := by
  unfold State.writeLoc
  split
  · dsimp only
    split <;> rfl
  · rfl
  · rfl
  · have hf (c : Nat) (l : List (Nat × List Byte)) : (l.foldl (fun s x => s.winWrite1 c x.1 x.2 g) s).bound = s.bound :=
      foldl_keep State.bound _ (fun s _ => winWrite1_bound s _ _ _ _) _ _
    unfold State.winWrite
    dsimp only
    split
    · split <;> exact hf _ _
    · exact hf _ _
  · exact scrWrite_bound d s _ _

/-- What a write writes before it wakes monitors. -/
theorem performWrite_wakes (s : State) (cid va : Nat) (l : Loc) (d : List Byte) (g : Tag) (ta : Option Nat) :
    ∃ s1 : State, s.performWrite cid va l d g ta = s1.wakeMonitors l ∧ s1.bound = s.bound := by
  refine ⟨_, rfl, ?_⟩
  rw [writeLoc_bound]
  split
  · rfl
  · exact markDirty_bound s cid va l

theorem performWrite_records (s : State) (cid va : Nat) (l : Loc) (d : List Byte) (g : Tag) (ta : Option Nat) :
    (s.performWrite cid va l d g ta).records = s.records := by
  obtain ⟨s1, h, hb⟩ := performWrite_wakes s cid va l d g ta
  rw [h]
  exact (congrArg Prod.snd hb : s1.bound.2 = s.bound.2)

theorem performWrite_settled (s : State) (cid va : Nat) (l : Loc) (d : List Byte) (g : Tag) (ta : Option Nat) :
    (s.performWrite cid va l d g ta).settled = s.settled := by
  obtain ⟨s1, h, hb⟩ := performWrite_wakes s cid va l d g ta
  rw [h, State.wakeMonitors_settled, State.settled_of_bound hb]

theorem recWrite_settled : ∀ (gs : List (List Byte)) (s : State) (cid va : Nat) (s1 : State), s.recWrite cid va gs = .ok s1 →
    s1.settled = s.settled
  | [], s, _, _, s1, h => by
    simp only [State.recWrite, RecOut.ok.injEq] at h
    exact h ▸ rfl
  | g :: gs, s, cid, va, s1, h => by
    unfold State.recWrite at h
    split at h
    · cases h
    · split at h
      · cases h
      · cases h
      · cases h
      · split at h
        · cases h
        · exact (recWrite_settled gs _ _ _ _ h).trans (performWrite_settled s cid va _ _ _ _)

theorem putRecord_settled (s : State) (uid core : Nat) (engine held : Bool) (cid va seq : Nat) (data : List (List Byte))
    (h : (s.putRecord uid core engine held cid va seq data).live cid = true) :
    (s.putRecord uid core engine held cid va seq data).settled = s.settled := by
  unfold State.putRecord at h ⊢
  split
  · rename_i s1 h1
    exact recWrite_settled _ _ _ _ _ h1
  · rfl
  · rename_i h1
    rw [h1] at h
    simp only [log_live, endContext_dead] at h
    cases h

theorem birth_settled (s : State) (i : Issuer) (kind : Nat) (o : BirthOps) (engine early : Bool)
    (h : (s.birth i kind o engine early).1.live i.ctx = true) : (s.birth i kind o engine early).1.settled = s.settled := by
  unfold State.birth at h ⊢
  split
  · rfl
  · rename_i c hc
    rw [hc] at h
    exact putRecord_settled _ _ _ _ _ _ _ _ _ h

theorem bbcWrite_settled {s s1 : State} {cid addr delta : Nat} (h : s.bbcWrite cid addr delta = some s1) : s1.settled = s.settled := by
  unfold State.bbcWrite at h
  split at h
  · cases h; rfl
  · split at h
    · cases h; exact performWrite_settled s cid addr _ _ _ _
    · cases h

theorem bbcAdd_settled (s : State) (core cid addr n : Nat) : (s.bbcAdd core cid addr n).settled = s.settled := by
  unfold State.bbcAdd
  dsimp only
  split
  · split
    · rename_i s1 h
      split at h
      · exact (bbcWrite_settled h :)
      · cases h
    · rfl
  · split
    · rename_i v s1 h
      split at h
      · cases h
      · unfold State.bbcEvict at h
        obtain ⟨x, -, hx⟩ := List.exists_of_findSome?_eq_some h
        rw [Option.map_eq_some_iff] at hx
        obtain ⟨s2, h2, h3⟩ := hx
        cases h3
        exact (bbcWrite_settled h2 :)
    · rfl

theorem lanes_threads (s : State) (qk cid pc cls n : Nat) : (s.lanes qk cid pc cls n).threads = s.threads := by
  unfold State.lanes
  split <;> rfl

theorem pushStore_settled (s : State) (u : Nat) (x : Store) : (s.pushStore u x).settled = s.settled :=
  State.modThread_settled _ u (fun t => { t with fifo := t.fifo ++ [s.nextStore] }) fun _ => rfl

theorem releasePail_settled (s : State) (u level : Nat) : (s.releasePail u level).settled = s.settled := by
  unfold State.releasePail
  split
  · rfl
  · dsimp only
    exact foldl_keep State.settled _ (fun s (p : PailEntry) => pushStore_settled s u (p.toStore _)) _ _

theorem commitPend_settled (s : State) (core quad cid : Nat) (p : Pending) : (s.commitPend core quad cid p).settled = s.settled := by
  unfold State.commitPend
  dsimp only
  rw [foldl_keep State.settled _ (fun s x => bbcAdd_settled s _ _ _ _),
    foldl_keep State.settled _ (fun s x => State.settled_of_threads (lanes_threads s _ _ _ _ _))]

theorem commitRegion_settled (s : State) (u : Nat) : (s.commitRegion u).settled = s.settled := by
  unfold State.commitRegion
  split
  · rfl
  · split
    · rfl
    · dsimp only
      rw [State.modThread_settled _ u (fun t => { t with region := none }) fun _ => rfl, commitPend_settled, releasePail_settled]

theorem laneBirth_settled (s : State) (e : Env) (u : Nat) (t : Thread) (kind : Nat) (o : BirthOps)
    (h : (s.laneBirth e u t kind o).1.live e.crew.ctx = true) : (s.laneBirth e u t kind o).1.settled = s.settled := by
  unfold State.laneBirth at h ⊢
  dsimp only at h ⊢
  rw [birth_settled _ (e.issuer u t) kind o false t.region.isSome h]
  split
  · exact commitRegion_settled s u
  · rfl

end Sys2Proof.Machine
end

section
/-! SUPPORT. QUANT with its births (R114, R413). -/

namespace Sys2Proof.Machine

/-! ## Steps that keep the warps and the threads unless they end the context (R237) -/

/-- From `s` to `s1` the warps, the threads' places in the table and what is settled of them are kept, when the context is live at the
end. -/
def keptIfLive (cid : Nat) (s s1 : State) : Prop := s1.live cid = true → Kept s s1 ∧ s1.settled = s.settled

theorem keptIfLive.refl (cid : Nat) (s : State) : keptIfLive cid s s := fun _ => ⟨Kept.refl s, rfl⟩

theorem keptIfLive.trans {cid : Nat} {s s1 s2 : State} (h : keptIfLive cid s s1) (h' : keptIfLive cid s1 s2) : keptIfLive cid s s2 := fun hl => by
  obtain ⟨hk', ht'⟩ := h' hl
  obtain ⟨hk, ht⟩ := h ((hk'.live cid).symm.trans hl)
  exact ⟨hk.trans hk', ht'.trans ht⟩

theorem setRegs_keptIfLive (cid : Nat) (s : State) (t : Thread) (d : Nat) (rs : List Reg) : keptIfLive cid s (s.setRegs t d rs) := fun _ => by
  rw [(setRegs_wrote (s1 := s) (d := d) (rs := rs) (rfl : t.base = t.base)).1]
  exact ⟨Kept.of_eq rfl rfl rfl, rfl⟩

theorem laneBirth_keptIfLive (s : State) (e : Env) (u : Nat) (t : Thread) (kind : Nat) (o : BirthOps) :
    keptIfLive e.crew.ctx s (s.laneBirth e u t kind o).1 := fun hl => ⟨laneBirth_kept s e u t kind o hl, laneBirth_settled s e u t kind o hl⟩

theorem foldl_keptIfLive {α : Type} {cid : Nat} {f : State → α → State} (h : ∀ s a, keptIfLive cid s (f s a)) :
    ∀ (l : List α) (s : State), keptIfLive cid s (l.foldl f s)
  | [], s => keptIfLive.refl cid s
  | a :: l, s => (h s a).trans (foldl_keptIfLive h l _)

/-! ## QUANT (R413) -/

theorem quantRegs_keptIfLive (e : Env) (u : Nat) (g : Tag) : ∀ (gs : List (List (Narrowed × Opd))) (d : Nat) (s : State) (b : Option Tag),
    keptIfLive e.crew.ctx s (State.quantRegs e u g d gs s b).1
  | [], _, s, _ => keptIfLive.refl _ s
  | els :: gs, d, s, b => by
    rw [State.quantRegs]
    cases s.thread? u with
    | none => exact keptIfLive.refl _ s
    | some t =>
      dsimp only
      cases els.find? fun y => y.1.kind != 0 with
      | none => exact (setRegs_keptIfLive _ s t d _).trans (quantRegs_keptIfLive e u g gs (d + 1) _ b)
      | some y =>
        exact ((laneBirth_keptIfLive s e u t _ _).trans (setRegs_keptIfLive _ _ t d _)).trans (quantRegs_keptIfLive e u g gs (d + 1) _ _)

theorem quantRegs_none {e : Env} {u : Nat} {g : Tag} {s : State} {b : Option Tag} (hu : s.thread? u = none) {d : Nat} :
    ∀ {gs : List (List (Narrowed × Opd))}, State.quantRegs e u g d gs s b = (s, b)
  | [] => rfl
  | _ :: _ => by rw [State.quantRegs, hu]

/-- A source of an instruction as an operand of the clause's rule. -/
def Src.opd (x : Src) : Opd := ⟨x.bits, x.tag⟩

/-- The elements of a code register with their sources as operands. -/
def quantOpds (els : List (Narrowed × Src)) : List (Narrowed × Opd) := els.map fun y => (y.1, y.2.opd)

theorem quantFold {e : Env} {u d w : Nat} {g : Tag} : ∀ (gs : List (List (Narrowed × Src))) (k : Nat) (acc : State × Option Tag),
    (∀ els ∈ gs, 32 / els.length = w) →
    (gs.zipIdx k).foldl (fun acc x => quantReg e u d w g acc x.2 x.1) acc = State.quantRegs e u g (d + k) (gs.map quantOpds) acc.1 acc.2
  | [], _, _, _ => rfl
  | els :: gs, k, acc, hw => by
    have ih := fun acc => quantFold (e := e) (u := u) (d := d) (g := g) gs (k + 1) acc fun x hx => hw x (List.mem_cons_of_mem _ hx)
    have hcodes : (quantOpds els).map (fun y => y.1.code) = els.map fun x => x.1.code := by
      rw [quantOpds, List.map_map]
      rfl
    have hfind : (quantOpds els).find? (fun y => y.1.kind != 0) = (els.find? fun y => y.1.kind != 0).map fun y => (y.1, y.2.opd) := by
      rw [quantOpds, List.find?_map]
      rfl
    rw [List.zipIdx_cons, List.foldl_cons, ih, List.map_cons, State.quantRegs, hcodes, hfind, quantOpds, List.length_map,
      hw els (List.mem_cons_self ..), quantReg, ← Nat.add_assoc]
    cases hu : acc.1.thread? u with
    | none => exact quantRegs_none hu
    | some t =>
      dsimp only
      cases els.find? fun y => y.1.kind != 0 with
      | none => rfl
      | some y => rfl

theorem groupsOf_length {α : Type} {k : Nat} : ∀ (n : Nat) (l : List α), l.length = n * k → ∀ g ∈ groupsOf k n l, g.length = k
  | 0, _, _, g, hg => by simp [groupsOf] at hg
  | n + 1, l, hl, g, hg => by
    rw [Nat.succ_mul] at hl
    rw [groupsOf, List.mem_cons] at hg
    rcases hg with rfl | hg
    · rw [List.length_take]; omega
    · exact groupsOf_length n (l.drop k) (by rw [List.length_drop]; omega) g hg

theorem groupsOf_map {α β : Type} (f : α → β) (k : Nat) : ∀ (n : Nat) (l : List α), groupsOf k n (l.map f) = (groupsOf k n l).map (List.map f)
  | 0, _ => rfl
  | n + 1, l => by rw [groupsOf, groupsOf, List.map_cons, List.map_take, ← List.map_drop, groupsOf_map f k n]

theorem quantise_length (tgt : Nat) (codes : List Nat) : (quantise tgt codes).2.length = codes.length := by
  unfold quantise
  dsimp only
  split <;> simp

/-- QUANT of a lane whose births go on (R85, R88): the model's fold over the code registers is `quanted`. -/
theorem quant_lane (e : Env) (s : State) (u : Nat) (t : Thread) (f : FQuant) :
    let n := if f.tgt == 2 then 4 else 8
    let srcs := (List.range 32).map fun i => s.src32 t (f.a.toNat + i)
    let q := quantise f.tgt.toNat (srcs.map (·.bits))
    let plain := birthRule e.ownTag (srcs.map fun x => ⟨x.bits, x.tag⟩)
    let r := (groupsOf (32 / n) n (q.2.zip srcs)).zipIdx.foldl (fun acc x => quantReg e u f.d.toNat n plain acc x.2 x.1) (s, none)
    r.1.setReg t f.b.toNat ⟨BitVec.ofNat 32 q.1, r.2.getD plain⟩ = s.quanted e u t f := by
  intro n srcs q plain r
  have hn : n = 4 ∨ n = 8 := by
    simp only [n]
    split <;> simp
  have hlen : (q.2.zip srcs).length = 32 := by simp [q, srcs, quantise_length]
  have hw : ∀ els ∈ groupsOf (32 / n) n (q.2.zip srcs), 32 / els.length = n := fun els h => by
    rw [groupsOf_length n (q.2.zip srcs) (by rw [hlen]; rcases hn with h | h <;> rw [h]) els h]
    rcases hn with h | h <;> rw [h]
  have hops : srcs.map Src.opd = (List.range 32).map fun i => (⟨(s.reg t (f.a.toNat + i)).val.toNat, (s.reg t (f.a.toNat + i)).tag⟩ : Opd) := by
    rw [List.map_map]
    rfl
  have hbits : srcs.map (·.bits) = (srcs.map Src.opd).map (·.bits) := by
    rw [List.map_map]
    rfl
  have hzip (l : List Src) : (groupsOf (32 / n) n (q.2.zip l)).map quantOpds = groupsOf (32 / n) n (q.2.zip (l.map Src.opd)) := by
    rw [List.zip_map_right, groupsOf_map]
    rfl
  have hr : r = State.quantRegs e u plain f.d.toNat (groupsOf (32 / n) n (q.2.zip (srcs.map Src.opd))) s none := by
    rw [← hzip]
    exact quantFold _ 0 (s, none) hw
  have hn' : n = if f.tgt = 2 then 4 else 8 := by simp [n]
  rw [hr, State.quanted, ← hn', ← hops]
  simp only [q, hbits]
  rfl

theorem quant_effects (f : FQuant) :
    let n := if f.tgt = 2 then 4 else 8
    effects (.quant f) 1 [⟨f.a.toNat, 32, 1⟩, ⟨f.d.toNat, n, 1⟩, ⟨f.b.toNat, 1, 1⟩]
      (fun s e u t => !(decide (f.d.toNat ≤ f.b.toNat) && decide (f.b.toNat < f.d.toNat + n)) && !t.spec && t.policy != 1 &&
        s.recorded (s.quanted e u t f) e.crew.ctx)
      (fun s e u t => s.quanted e u t f) := by
  intro n
  refine effects_of_lane (hi := fun _ => rfl) fun e s u t _ hn hok => ?_
  simp only [Bool.and_eq_true, Bool.not_eq_true', bne_iff_ne, ne_eq, State.recorded, List.isEmpty_iff] at hok
  obtain ⟨⟨⟨hb, hsp⟩, hpol⟩, hlive, hpages⟩ := hok
  have hn' : n = if f.tgt == 2 then 4 else 8 := by simp [n]
  obtain ⟨hkept, _⟩ := ((quantRegs_keptIfLive e u _ _ _ s none).trans (setRegs_keptIfLive _ _ t _ _)) hlive
  refine ⟨rfl, check_none rfl ?_ (Or.inr (by simp)), ?_, hpages, hkept.warps, hkept.threads⟩
  · rw [← hn', if_neg (by simpa using hb), List.append_nil]
    exact hn
  · have hpol' : (t.policy == 1) = false := by simp [hpol]
    rw [← quant_lane]
    simp only [hsp, hpol', Bool.and_false, Bool.false_eq_true, if_false]
    split <;> rfl

end Sys2Proof.Machine
end

section
/-! SUPPORT. Instructions that issue once for the group, with what they do to the machine (R329). -/

namespace Sys2Proof.Machine

theorem active_of_base {s s1 : State} (h : s1.base = s.base) (e : Env) : s1.active e = s.active e := by
  have hg (u : Nat) := guard_of_base (e := e) (s := s) (s1 := s1) (by rw [h]) u
  simp only [State.active, hg]

theorem names_of_base {e : Env} {t t1 : Thread} (h : t1.base = t.base) (l : List Use) : e.names t1 l = e.names t l := by
  simp only [Env.names, wbase_of_base h, span_of_base h]

theorem thread_of_same_base {s s1 : State} (h : s1.base.threads = s.base.threads) {u : Nat} {t : Thread} (ht : s.thread? u = some t) :
    ∃ t1, s1.thread? u = some t1 ∧ t1.base = t.base := by
  have h1 := State.thread_of_base h u
  rw [ht] at h1
  cases h2 : s1.thread? u with
  | none => rw [h2] at h1; cases h1
  | some t1 => exact ⟨t1, rfl, by rw [h2] at h1; exact Option.some.inj h1⟩

/-- The active lanes of a slot with their threads, in ascending order. -/
def State.activeWith (s : State) (e : Env) : List (Nat × Thread) := (s.active e).filterMap fun u => (s.thread? u).map fun t => (u, t)

/-- A lane of the group as an instruction finds it when its slot has begun. -/
structure LaneReady (e : Env) (s : State) (uses : List Use) (lane : State → Env → Thread → Bool) (x : Nat × Thread) : Prop where
  thread : s.thread? x.1 = some x.2
  inWarp : x.2.status = .inWarp
  names : e.names x.2 uses = true
  lane : lane s e x.2 = true

theorem map_fst_filterMap_thread {s : State} : ∀ (us : List Nat), (∀ u ∈ us, ∃ t, s.thread? u = some t) →
    (us.filterMap fun u => (s.thread? u).map fun t => (u, t)).map Prod.fst = us
  | [], _ => rfl
  | u :: us, h => by
    obtain ⟨t, ht⟩ := h u (List.mem_cons_self ..)
    simp [ht, map_fst_filterMap_thread us fun v hv => h v (List.mem_cons_of_mem _ hv)]

/-- The lanes as the instruction finds them: each has passed the test it had passed before its slot began. -/
theorem activeWith_ready {s : State} {e : Env} {uses : List Use} {lane : State → Env → Thread → Bool}
    (hlane : ∀ s e t t1, t1.base = t.base → lane s e t = true → lane (s.begin e) e t1 = true) (hp : s.port e = true)
    (hl : s.lanesAll e (fun t => e.names t uses && lane s e t) = true) :
    (∀ x ∈ (s.begin e).activeWith e, LaneReady e (s.begin e) uses lane x) ∧ ((s.begin e).activeWith e).map Prod.fst = s.active e := by
  have hb : (s.begin e).base = s.base := State.begin_base s e
  have hthr : ∀ u ∈ s.active e, ∃ t1, (s.begin e).thread? u = some t1 ∧ t1.status = .inWarp ∧ e.names t1 uses = true ∧ lane (s.begin e) e t1 = true := by
    intro u hu
    obtain ⟨t, ht, hst, _⟩ := State.port_member hp (State.active_member hu)
    obtain ⟨t1, ht1, hbb⟩ := thread_of_same_base (s := s) (s1 := s.begin e) (by rw [hb]) ht
    obtain ⟨hn, hok⟩ := lane_ready hl hu ht
    exact ⟨t1, ht1, (status_of_base hbb).trans hst, (names_of_base hbb uses).trans hn, hlane s e t t1 hbb hok⟩
  rw [State.activeWith, active_of_base hb]
  refine ⟨fun x hx => ?_, map_fst_filterMap_thread _ fun u hu => ?_⟩
  · obtain ⟨u, hu, h⟩ := List.mem_filterMap.1 hx
    obtain ⟨t1, ht1, hst, hn, hok⟩ := hthr u hu
    rw [ht1, Option.map_some, Option.some.injEq] at h
    subst h
    exact ⟨ht1, hst, hn, hok⟩
  · obtain ⟨t1, ht1, _⟩ := hthr u hu
    exact ⟨t1, ht1⟩

/-- An instruction of the group has the effect `f` once, when `f` is what it answers for lanes that pass their checks, and leaves
the lanes in their warp. -/
theorem onceEffects_of_group {i : Instr} {n : Nat} {k : Env → Chk} {F : Env → State → List (Nat × Thread) → GroupRes} {uses : List Use}
    {lane : State → Env → Thread → Bool} {first : State → Env → Nat → Thread → Bool}
    {f : State → Env → Nat → Thread → List Nat → State} (hi : ∀ s, exec i s = s.perGroup n k F)
    (hlane : ∀ s e t t1, t1.base = t.base → lane s e t = true → lane (s.begin e) e t1 = true)
    (hchk : ∀ e s t, e.names t uses = true → lane s e t = true → ((k e).stall && t.spec) = false ∧ s.check e (k e) t = none)
    (hrun : ∀ e s u t l, s.activeWith e = (u, t) :: l → s.active e = u :: l.map Prod.fst → (∀ x ∈ (u, t) :: l, LaneReady e s uses lane x) → first s e u t = true →
      F e s ((u, t) :: l) = .done (f s e u t (u :: l.map Prod.fst)) [] ∧ s.pagesFor (f s e u t (u :: l.map Prod.fst)) = [] ∧
      (f s e u t (u :: l.map Prod.fst)).warps = s.warps ∧ keepsThreads s (f s e u t (u :: l.map Prod.fst)) ∧
      ∀ x ∈ (u, t) :: l, (f s e u t (u :: l.map Prod.fst)).isInWarp x.1 = true) : onceEffects i n uses lane first f := by
  intro s e u us t hp ha ht hl hfirst
  obtain ⟨hready, hfst⟩ := activeWith_ready hlane hp hl
  set s0 := s.begin e with hs0
  obtain ⟨l, hcons, rfl⟩ : ∃ l, s0.activeWith e = (u, t) :: l ∧ us = l.map Prod.fst := by
    cases hc : s0.activeWith e with
    | nil => rw [hc, ha] at hfst; cases hfst
    | cons x l =>
      rw [hc, ha, List.map_cons, List.cons.injEq] at hfst
      obtain ⟨hx1, hx2⟩ := hfst
      have hx := (hready x (by rw [hc]; exact List.mem_cons_self ..)).thread
      rw [hx1, ht, Option.some.injEq] at hx
      exact ⟨l, by rw [← hx1, hx], hx2.symm⟩
  have hck : checkLanes e (k e) s0 (s.active e) = (s0, (u, t) :: l, []) := by
    rw [checkLanes_all, ← hcons, State.activeWith, active_of_base (State.begin_base s e)]
    intro v hv
    rw [← hfst] at hv
    obtain ⟨x, hx, rfl⟩ := List.mem_map.1 hv
    have h := hready x hx
    exact ⟨x.2, h.thread, hchk e s0 x.2 h.names h.lane⟩
  obtain ⟨hF, hpages, hw, hk, hin⟩ := hrun e s0 u t l hcons ((active_of_base (State.begin_base s e) e).trans ha) (by rw [← hcons]; exact hready) hfirst
  rw [ha]
  set s2 := f s0 e u t (u :: l.map Prod.fst)
  have hall : s2.arriveAll e.wk (((u, t) :: l).map (·.1)) (leaving []) = ((u, t) :: l).foldl (fun (s : State) x => s.arrive e.wk x.1) s2 := by
    rw [State.arriveAll, List.filter_eq_self.2, List.foldl_map]
    intro v hv
    obtain ⟨x, hx, rfl⟩ := List.mem_map.1 hv
    simp [leaving, hin x hx]
  have hno : trapsOf e.w.members [] = [] := by
    rw [trapsOf, List.filterMap_eq_nil_iff]
    exact fun _ _ => rfl
  set s3 := ((u, t) :: l).foldl (fun (s : State) x => s.arrive e.wk x.1) s2 with hs3
  have hb3 : s3.base = s2.base := foldl_arrive_base _ _ _
  have hrun' : exec i s = .next (s3.closeSlot e.wk n) := by
    rw [hi]
    simp only [State.perGroup, State.port_env hp, ← hs0, hck, hF, GroupRes.await, hpages, List.isEmpty_nil, if_true, hall, List.append_nil, hno]
    simp [State.finish, State.takeTraps]
  have hW : WarpAt e s3 fun _ => True := by
    have h0 : WarpAt e s2 (fun v => v ∉ s.active e) := by
      obtain ⟨w1, a, b, c⟩ := State.begin_warp hp
      exact ⟨w1, by rw [hw]; exact a, b, c⟩
    obtain ⟨w1, a, b, c⟩ := foldl_arrive_warp ((u, t) :: l) h0
    exact ⟨w1, a, b, fun v hv _ => c v hv (by rw [← hcons, hfst]; tauto)⟩
  refine ⟨_, hrun', ?_, closeSlot_passed hW fun v hv => ?_⟩
  · rw [State.closeSlot_still]
    exact State.still_of_base hb3
  · obtain ⟨t0, h0⟩ := begin_members hp v hv
    obtain ⟨t2, h2⟩ := hk v t0 h0
    obtain ⟨t3, h3, _⟩ := thread_of_same_base (s := s2) (s1 := s3) (by rw [hb3]) h2
    exact ⟨t3, h3⟩

/-- An instruction that issues once has the effect `f`, when `f` is what its lowest lane comes to. -/
theorem onceEffects_of_once {i : Instr} {n : Nat} {k : Env → Chk} {G : Env → State → Nat → Thread → List Nat → LaneRes} {uses : List Use}
    {lane : State → Env → Thread → Bool} {first : State → Env → Nat → Thread → Bool}
    {f : State → Env → Nat → Thread → List Nat → State} (hi : ∀ s, exec i s = s.once n k G)
    (hlane : ∀ s e t t1, t1.base = t.base → lane s e t = true → lane (s.begin e) e t1 = true)
    (hchk : ∀ e s t, e.names t uses = true → lane s e t = true → ((k e).stall && t.spec) = false ∧ s.check e (k e) t = none)
    (hrun : ∀ e s u t us, s.thread? u = some t → lane s e t = true → first s e u t = true →
      G e s u t us = .done (f s e u t us) ∧ s.pagesFor (f s e u t us) = [] ∧ (f s e u t us).warps = s.warps ∧
      ∀ v t1, s.thread? v = some t1 → ∃ t2, (f s e u t us).thread? v = some t2 ∧ t2.status = t1.status) : onceEffects i n uses lane first f := by
  refine onceEffects_of_group (hi := hi) hlane hchk fun e s u t l _ _ hready hfirst => ?_
  have hfirstLane := hready (u, t) (List.mem_cons_self ..)
  obtain ⟨hG, hpages, hwarps, hthreads⟩ := hrun e s u t (u :: l.map Prod.fst) hfirstLane.thread hfirstLane.lane hfirst
  refine ⟨by simp only [List.map_cons]; rw [hG], hpages, hwarps, fun v t1 hv => ?_, fun x hx => ?_⟩
  · obtain ⟨t2, ht2, _⟩ := hthreads v t1 hv
    exact ⟨t2, ht2⟩
  · obtain ⟨t2, ht2, hst⟩ := hthreads x.1 x.2 (hready x hx).thread
    simp only [State.isInWarp, ht2, beq_iff_eq]
    exact hst.trans (hready x hx).inWarp

end Sys2Proof.Machine
end

section
/-! SUPPORT. REDUX with its births (R415, R416). -/

namespace Sys2Proof.Machine

/-! ## REDUX (R415, R416): the running value over a prefix of the group -/

theorem reduxValue_snoc (op ty : Nat) (ftz : Bool) (y : Nat) : ∀ (ys : List Nat) (r : Nat),
    reduxValue op ty ftz r (ys ++ [y]) = (reduxStep op ty ftz (reduxValue op ty ftz r ys) y).1
  | [], _ => rfl
  | x :: xs, r => reduxValue_snoc op ty ftz y xs (reduxStep op ty ftz r x).1

theorem reduxWinner_snoc (op ty : Nat) (ftz : Bool) (y : Nat × Tag) : ∀ (ys : List (Nat × Tag)) (r : Nat) (g : Tag),
    reduxWinner op ty ftz r g (ys ++ [y]) =
      if (reduxStep op ty ftz (reduxValue op ty ftz r (ys.map Prod.fst)) y.1).2.1 then y.2 else reduxWinner op ty ftz r g ys
  | [], _, _ => rfl
  | x :: xs, r, _ => reduxWinner_snoc op ty ftz y xs (reduxStep op ty ftz r x.1).1 _

/-- The running value over the lanes `l`. -/
def State.reduxBits (s : State) (e : Env) (f : FRedux) (l : List (Nat × Thread)) : Nat :=
  let x := s.reduxIn e f (l.map Prod.snd)
  reduxValue f.op.toNat f.ty.toNat e.ftz x.1 x.2

/-- The eartag of the lane that has won over the lanes `l`. -/
def State.reduxWin (s : State) (e : Env) (f : FRedux) (l : List (Nat × Thread)) : Tag :=
  match (l.map Prod.snd).map fun x => ((s.w32 x f.a).toNat, (s.opd32 x f.a).tag) with
  | [] => e.ownTag
  | x :: xs => reduxWinner f.op.toNat f.ty.toNat e.ftz (if f.ty = 2 then fF32.flush e.ftz x.1 else x.1) x.2 xs

/-- The first A-tagged eartag of the lanes `l`. -/
def State.reduxFirst (s : State) (f : FRedux) (l : List (Nat × Thread)) : Option Tag :=
  (l.map fun x => (s.opd32 x.2 f.a).tag).find? isA

/-- The running value over the lanes `l`, with the eartag of the record when a step was a birth. -/
def State.reduxRunning (s : State) (e : Env) (f : FRedux) (l : List (Nat × Thread)) (born : Option Tag) : Running :=
  ⟨s.reduxBits e f l, s.reduxWin e f l, s.reduxFirst f l, born⟩

theorem reduxBits_snoc {s : State} {e : Env} {f : FRedux} {l : List (Nat × Thread)} (hl : l ≠ []) (m : Nat × Thread) :
    s.reduxBits e f (l ++ [m]) = (reduxStep f.op.toNat f.ty.toNat e.ftz (s.reduxBits e f l) (s.w32 m.2 f.a).toNat).1 := by
  cases l with
  | nil => exact absurd rfl hl
  | cons x xs =>
    simp only [State.reduxBits, State.reduxIn, List.cons_append, List.map_cons, List.map_append, List.map_nil]
    exact reduxValue_snoc _ _ _ _ _ _

theorem reduxWin_snoc {s : State} {e : Env} {f : FRedux} {l : List (Nat × Thread)} (hl : l ≠ []) (m : Nat × Thread) :
    s.reduxWin e f (l ++ [m]) = if (reduxStep f.op.toNat f.ty.toNat e.ftz (s.reduxBits e f l) (s.w32 m.2 f.a).toNat).2.1
      then (s.opd32 m.2 f.a).tag else s.reduxWin e f l := by
  cases l with
  | nil => exact absurd rfl hl
  | cons x xs =>
    simp only [State.reduxWin, State.reduxBits, State.reduxIn, List.cons_append, List.map_cons, List.map_append, List.map_nil]
    rw [reduxWinner_snoc]
    simp only [List.map_map]
    rfl

theorem reduxFirst_snoc (s : State) (f : FRedux) (l : List (Nat × Thread)) (m : Nat × Thread) :
    s.reduxFirst f (l ++ [m]) = noteTag (s.reduxFirst f l) (s.opd32 m.2 f.a).tag := by
  simp only [State.reduxFirst, List.map_append, List.find?_append, List.map_cons, List.map_nil, List.find?_singleton]
  cases List.find? isA (l.map fun x => (s.opd32 x.2 f.a).tag) <;> rfl

/-- The eartag of a running value without a birth (R83, R416). -/
theorem reduxRunning_tag (s : State) (e : Env) (f : FRedux) (l : List (Nat × Thread)) (born : Option Tag) :
    (s.reduxRunning e f l born).tag e.ownTag (f.op == 1 || f.op == 2) = born.getD (s.reduxTag e f (l.map Prod.snd)) := by
  cases born with
  | some g => rfl
  | none =>
    simp only [Running.tag, State.reduxRunning, State.reduxTag, Option.getD_none]
    by_cases h : f.op = 1 ∨ f.op = 2
    · rw [if_pos h, if_pos (by simpa using h)]
      rfl
    · rw [if_neg h, if_neg (by simpa using h), State.reduxFirst, birthRule, List.map_map, List.find?_map, List.find?_map]
      simp only [Function.comp_def]
      cases l.find? _ <;> rfl

/-! ## The birth of a group -/

/-- The birth kind of step `k` of the group `ms`. -/
def State.reduxKind (s : State) (e : Env) (f : FRedux) (ms : List (Nat × Thread)) (k : Nat) : Nat :=
  match ms[k]? with
  | some m => (reduxStep f.op.toNat f.ty.toNat e.ftz (s.reduxBits e f (ms.take k)) (s.w32 m.2 f.a).toNat).2.2
  | none => 0

/-- The first step of the group that is a birth. -/
def State.reduxFirstBirth (s : State) (e : Env) (f : FRedux) (ms : List (Nat × Thread)) : Option Nat :=
  (List.range ms.length).find? fun k => k != 0 && s.reduxKind e f ms k != 0

/-- The record of the step after the lanes `l`, in lane `m`. -/
def State.reduxRecord (s0 s : State) (e : Env) (f : FRedux) (l : List (Nat × Thread)) (m : Nat × Thread) : State × Tag :=
  s.laneBirth e m.1 m.2 (reduxStep f.op.toNat f.ty.toNat e.ftz (s0.reduxBits e f l) (s0.w32 m.2 f.a).toNat).2.2
    ⟨BitVec.ofNat 32 (s0.reduxBits e f l), s0.w32 m.2 f.a, 0, s0.reduxTag e f (l.map Prod.snd), (s0.opd32 m.2 f.a).tag, 0⟩

/-- The state after the births of a group, with the step that is one and its record's eartag. -/
def State.reduxBorn (s0 s : State) (e : Env) (f : FRedux) (ms : List (Nat × Thread)) : State × Option (Nat × Tag) :=
  match (s0.reduxFirstBirth e f ms).bind fun k => ms[k]?.map fun m => (k, m) with
  | some (k, m) => ((s0.reduxRecord s e f (ms.take k) m).1, some (k, (s0.reduxRecord s e f (ms.take k) m).2))
  | none => (s, none)

/-- The record's eartag in a result over the first `n` lanes. -/
def bornBy (b : Option (Nat × Tag)) (n : Nat) : Option Tag := b.bind fun x => if x.1 < n then some x.2 else none

theorem bornBy_getD (b : Option (Nat × Tag)) (n : Nat) (g : Tag) :
    (bornBy b n).getD g = match b with
      | some x => if x.1 < n then x.2 else g
      | none => g := by
  cases b with
  | none => rfl
  | some x =>
    simp only [bornBy, Option.bind_some]
    split <;> rfl

theorem reduxKind_at {s : State} {e : Env} {f : FRedux} {ms : List (Nat × Thread)} {k : Nat} {m : Nat × Thread} (h : ms[k]? = some m) :
    s.reduxKind e f ms k = (reduxStep f.op.toNat f.ty.toNat e.ftz (s.reduxBits e f (ms.take k)) (s.w32 m.2 f.a).toNat).2.2 := by
  rw [State.reduxKind, h]

/-- REDUX of a group: its births, then its results. -/
theorem reduxGroup_eq (s0 s : State) (e : Env) (f : FRedux) (ms : List (Nat × Thread)) :
    s0.reduxGroup s e f ms = ms.zipIdx.foldl (fun (s' : State) m =>
      let l := if f.scan then ms.take (m.2 + 1) else ms
      s'.setRegs m.1.2 f.d.toNat [⟨BitVec.ofNat 32 (s0.reduxBits e f l),
        (bornBy (s0.reduxBorn s e f ms).2 l.length).getD (s0.reduxTag e f (l.map Prod.snd))⟩]) (s0.reduxBorn s e f ms).1 := by
  have hborn : s0.reduxBorn s e f ms = match (s0.reduxFirstBirth e f ms).bind fun k => ms[k]?.map fun m => (k, m) with
      | some (k, m) =>
        let z := s.laneBirth e m.1 m.2 (s0.reduxKind e f ms k)
          ⟨BitVec.ofNat 32 (s0.reduxBits e f (ms.take k)), s0.w32 m.2 f.a, 0, s0.reduxTag e f ((ms.take k).map Prod.snd), (s0.opd32 m.2 f.a).tag, 0⟩
        (z.1, some (k, z.2))
      | none => (s, none) := by
    rw [State.reduxBorn]
    cases hk : s0.reduxFirstBirth e f ms with
    | none => rfl
    | some k =>
      cases hm : ms[k]? with
      | none => simp [hm]
      | some m => simp [hm, reduxKind_at hm, State.reduxRecord]
  simp only [hborn, bornBy_getD]
  rfl

/-- The results of the lanes `l` of the group `ms`, that stand from place `n` on, as the model's run lists them. -/
def reduxOuts (s0 : State) (e : Env) (f : FRedux) (ms : List (Nat × Thread)) (b : Option (Nat × Tag)) (n : Nat) (l : List (Nat × Thread)) :
    List (Member × Running) :=
  (l.zipIdx n).map fun m => (⟨m.1.1, m.1.2, m.1.2.lane⟩, s0.reduxRunning e f (ms.take (m.2 + 1)) (bornBy b (m.2 + 1)))

theorem take_length_succ {α : Type} (pre : List α) (m : α) (l : List α) : (pre ++ m :: l).take (pre.length + 1) = pre ++ [m] := by
  rw [List.take_length_add_append]
  rfl

/-- One step of the model's run: the running value over the lanes before, then over the lane as well. -/
theorem reduxRunning_snoc {s0 : State} {e : Env} {f : FRedux} {pre : List (Nat × Thread)} (hpre : pre ≠ []) (m : Nat × Thread)
    (born born' : Option Tag) :
    let y := reduxStep f.op.toNat f.ty.toNat e.ftz (s0.reduxRunning e f pre born).bits (s0.reg m.2 f.a.toNat).val.toNat
    (⟨y.1, if y.2.1 then (s0.reg m.2 f.a.toNat).tag else (s0.reduxRunning e f pre born).win,
      noteTag (s0.reduxRunning e f pre born).first (s0.reg m.2 f.a.toNat).tag, born'⟩ : Running) =
      s0.reduxRunning e f (pre ++ [m]) born' := by
  rw [State.reduxRunning, State.reduxRunning, reduxBits_snoc hpre, reduxWin_snoc hpre, reduxFirst_snoc]
  rfl

/-- The birth of the step after the lanes `l`, if it is one, in lane `m`. -/
def State.reduxStepBorn (s0 s : State) (e : Env) (f : FRedux) (l : List (Nat × Thread)) (m : Nat × Thread) : State × Option Tag :=
  if (reduxStep f.op.toNat f.ty.toNat e.ftz (s0.reduxBits e f l) (s0.w32 m.2 f.a).toNat).2.2 != 0 then
    ((s0.reduxRecord s e f l m).1, some (s0.reduxRecord s e f l m).2)
  else (s, none)

/-- One step of the model's run before the group's birth, in a lane without trap on birth (R88). -/
theorem reduxRun_step {s0 s : State} {e : Env} {f : FRedux} {pre : List (Nat × Thread)} (hpre : pre ≠ []) {m : Nat × Thread}
    (hpol : m.2.policy ≠ 1) (l : List (Nat × Thread)) :
    reduxRun e f s0 s (some (s0.reduxRunning e f pre none)) (membersOf (m :: l)) =
      let b := s0.reduxStepBorn s e f pre m
      let q := reduxRun e f s0 b.1 (some (s0.reduxRunning e f (pre ++ [m]) b.2)) (membersOf l)
      (q.1, (⟨m.1, m.2, m.2.lane⟩, s0.reduxRunning e f (pre ++ [m]) b.2) :: q.2.1, q.2.2) := by
  have hpol' : (m.2.policy == 1) = false := by simpa using hpol
  have hsnoc := reduxRunning_snoc (s0 := s0) (e := e) (f := f) hpre m none (s0.reduxStepBorn s e f pre m).2
  rw [membersOf, List.map_cons, ← membersOf, reduxRun]
  simp only [show (s0.reduxRunning e f pre none).born = none from rfl, Option.isNone_none, Bool.and_true, hpol', Bool.and_false,
    Bool.false_eq_true, if_false, List.nil_append, reduxRunning_tag]
  rw [← hsnoc]
  rfl

/-- After the group's birth the run only reads registers. -/
theorem reduxRun_born (s0 s : State) (e : Env) (f : FRedux) (k : Nat) (g : Tag) : ∀ (l pre : List (Nat × Thread)), pre ≠ [] → k < pre.length →
    reduxRun e f s0 s (some (s0.reduxRunning e f pre (some g))) (membersOf l) =
      (s, reduxOuts s0 e f (pre ++ l) (some (k, g)) pre.length l, [])
  | [], _, _, _ => rfl
  | m :: l, pre, hpre, hk => by
    have hborn : bornBy (some (k, g)) (pre.length + 1) = some g := by
      rw [bornBy, Option.bind_some, if_pos (Nat.lt_succ_of_lt hk)]
    have ih := reduxRun_born s0 s e f k g l (pre ++ [m]) (by simp) (by simp; omega)
    rw [List.append_assoc, List.singleton_append, List.length_append, List.length_singleton] at ih
    have hstep := reduxRunning_snoc (s0 := s0) (e := e) (f := f) hpre m (some g) (some g)
    simp only at hstep
    rw [reduxOuts, List.zipIdx_cons, List.map_cons, take_length_succ, hborn, ← reduxOuts]
    rw [membersOf, List.map_cons, ← membersOf, reduxRun]
    simp only [show (s0.reduxRunning e f pre (some g)).born = some g from rfl, Option.isNone_some, Bool.and_false, Bool.false_and,
      Bool.false_eq_true, if_false, List.nil_append]
    rw [hstep, ih]

/-! ## The run before the group's birth -/

/-- No step of the group before place `n` is a birth. -/
def quietBefore (s0 : State) (e : Env) (f : FRedux) (ms : List (Nat × Thread)) (n : Nat) : Prop :=
  ∀ k < n, k ≠ 0 → s0.reduxKind e f ms k = 0

theorem quietBefore.bornBy {s0 : State} {e : Env} {f : FRedux} {ms : List (Nat × Thread)} {n : Nat} (h : quietBefore s0 e f ms n) (s : State) :
    bornBy (s0.reduxBorn s e f ms).2 n = none := by
  rw [State.reduxBorn]
  cases hk : s0.reduxFirstBirth e f ms with
  | none => rfl
  | some k =>
    have hb := List.find?_some hk
    rw [Bool.and_eq_true, bne_iff_ne, bne_iff_ne] at hb
    have hn : ¬ k < n := fun hlt => hb.2 (h k hlt hb.1)
    cases hm : ms[k]? with
    | none => simp [Machine.bornBy, hm]
    | some m => simp [Machine.bornBy, hm, hn]

theorem quietBefore.born_none {s0 : State} {e : Env} {f : FRedux} {ms : List (Nat × Thread)} (h : quietBefore s0 e f ms ms.length) (s : State) :
    s0.reduxBorn s e f ms = (s, none) := by
  have hnone : s0.reduxFirstBirth e f ms = none := by
    rw [State.reduxFirstBirth, List.find?_eq_none]
    intro k hk
    rw [List.mem_range] at hk
    by_cases h0 : k = 0
    · simp [h0]
    · simp [h k hk h0]
  rw [State.reduxBorn, hnone]
  rfl

theorem quietBefore.born_at {s0 : State} {e : Env} {f : FRedux} {ms : List (Nat × Thread)} {n : Nat} (h : quietBefore s0 e f ms n) (s : State)
    {m : Nat × Thread} (hn : n ≠ 0) (hm : ms[n]? = some m) (hk : s0.reduxKind e f ms n ≠ 0) :
    s0.reduxBorn s e f ms = ((s0.reduxRecord s e f (ms.take n) m).1, some (n, (s0.reduxRecord s e f (ms.take n) m).2)) := by
  have hsome : s0.reduxFirstBirth e f ms = some n := by
    rw [State.reduxFirstBirth, List.find?_range_eq_some]
    refine ⟨by simp [hn, hk], List.mem_range.2 (List.getElem?_eq_some_iff.1 hm).1, fun j hj => ?_⟩
    by_cases h0 : j = 0
    · simp [h0]
    · simp [h j hj h0]
  rw [State.reduxBorn, hsome, Option.bind_some, hm]
  rfl

/-- Until the group's birth each step of the run gives the running value, and the first step that is a birth writes its record. -/
theorem reduxRun_quiet (s0 s : State) (e : Env) (f : FRedux) : ∀ (l pre : List (Nat × Thread)), pre ≠ [] → (∀ m ∈ l, m.2.policy ≠ 1) →
    quietBefore s0 e f (pre ++ l) pre.length →
    reduxRun e f s0 s (some (s0.reduxRunning e f pre none)) (membersOf l) =
      ((s0.reduxBorn s e f (pre ++ l)).1, reduxOuts s0 e f (pre ++ l) (s0.reduxBorn s e f (pre ++ l)).2 pre.length l, [])
  | [], pre, _, _, hq => by
    rw [List.append_nil] at hq ⊢
    rw [hq.born_none]
    rfl
  | m :: l, pre, hpre, hpol, hq => by
    have hm : (pre ++ m :: l)[pre.length]? = some m := by simp
    have hlen : pre.length ≠ 0 := by simpa using hpre
    have hkind := reduxKind_at (s := s0) (e := e) (f := f) hm
    rw [List.take_left] at hkind
    have hassoc : pre ++ [m] ++ l = pre ++ m :: l := by simp
    have hlen1 : (pre ++ [m]).length = pre.length + 1 := by simp
    rw [reduxOuts, List.zipIdx_cons, List.map_cons, take_length_succ, ← reduxOuts, reduxRun_step hpre (hpol m (List.mem_cons_self ..)),
      State.reduxStepBorn, ← hkind]
    by_cases hk : s0.reduxKind e f (pre ++ m :: l) pre.length = 0
    · have hq1 : quietBefore s0 e f (pre ++ m :: l) (pre.length + 1) := fun k hlt h0 => by
        rcases Nat.lt_succ_iff_lt_or_eq.1 hlt with h | rfl
        · exact hq k h h0
        · exact hk
      have ih := reduxRun_quiet s0 s e f l (pre ++ [m]) (by simp) (fun x hx => hpol x (List.mem_cons_of_mem _ hx))
        (by rw [hassoc, hlen1]; exact hq1)
      rw [hassoc, hlen1] at ih
      rw [if_neg (by simp [hk]), hq1.bornBy]
      dsimp only
      rw [ih]
    · have hborn := hq.born_at s hlen hm hk
      rw [List.take_left] at hborn
      have hby : bornBy (some (pre.length, (s0.reduxRecord s e f pre m).2)) (pre.length + 1) = some (s0.reduxRecord s e f pre m).2 := by
        rw [bornBy, Option.bind_some, if_pos (Nat.lt_succ_self _)]
      have hrun := reduxRun_born s0 (s0.reduxRecord s e f pre m).1 e f pre.length (s0.reduxRecord s e f pre m).2 l (pre ++ [m]) (by simp) (by simp)
      rw [hassoc, hlen1] at hrun
      rw [if_pos (by simp [hk]), hborn, hby]
      dsimp only
      rw [hrun]

/-! ## REDUX of a group and of the slot -/

theorem reduxRun_group (s0 s : State) (e : Env) (f : FRedux) : ∀ (ms : List (Nat × Thread)), (∀ m ∈ ms, m.2.policy ≠ 1) →
    reduxRun e f s0 s none (membersOf ms) = ((s0.reduxBorn s e f ms).1, reduxOuts s0 e f ms (s0.reduxBorn s e f ms).2 0 ms, [])
  | [], _ => rfl
  | m :: l, hpol => by
    have hq : quietBefore s0 e f (m :: l) 1 := fun k hlt h0 => absurd (Nat.lt_one_iff.1 hlt) h0
    have h := reduxRun_quiet s0 s e f l [m] (by simp) (fun x hx => hpol x (List.mem_cons_of_mem _ hx)) hq
    rw [List.singleton_append, List.length_singleton] at h
    have hfirst : (⟨if f.ty == 2 then fF32.flush e.ftz (s0.reg m.2 f.a.toNat).val.toNat else (s0.reg m.2 f.a.toNat).val.toNat,
        (s0.reg m.2 f.a.toNat).tag, noteTag none (s0.reg m.2 f.a.toNat).tag, none⟩ : Running) = s0.reduxRunning e f [m] none := by
      have hf := reduxFirst_snoc s0 f [] m
      rw [List.nil_append] at hf
      rw [State.reduxRunning, hf]
      simp only [beq_iff_eq]
      rfl
    rw [membersOf, List.map_cons, ← membersOf, reduxRun]
    simp only [hfirst, h]
    conv_rhs => rw [reduxOuts, List.zipIdx_cons, List.map_cons, hq.bornBy]
    rfl

theorem reduxWrite_outs (s0 s : State) (e : Env) (f : FRedux) (b : Option (Nat × Tag)) (ms : List (Nat × Thread)) :
    reduxWrite e f s (reduxOuts s0 e f ms b 0 ms) = ms.zipIdx.foldl (fun (s' : State) m =>
      let l := if f.scan then ms.take (m.2 + 1) else ms
      s'.setRegs m.1.2 f.d.toNat [⟨BitVec.ofNat 32 (s0.reduxBits e f l), (bornBy b l.length).getD (s0.reduxTag e f (l.map Prod.snd))⟩]) s := by
  have hlast : ((reduxOuts s0 e f ms b 0 ms).getLast?).map (·.2) = if ms = [] then none else some (s0.reduxRunning e f ms (bornBy b ms.length)) := by
    rcases List.eq_nil_or_concat ms with rfl | ⟨l, m, rfl⟩
    · rfl
    · rw [if_neg (by simp), reduxOuts, List.concat_eq_append, List.zipIdx_append, List.map_append]
      simp [List.take_of_length_le]
  rw [reduxWrite, hlast, reduxOuts, List.foldl_map]
  refine List.foldl_ext _ _ _ fun s' m hm => ?_
  have hi : m.2 < ms.length := by
    have := List.snd_lt_of_mem_zipIdx hm
    simpa using this
  have hne : ms ≠ [] := fun h => by rw [h] at hi; exact absurd hi (Nat.not_lt_zero _)
  rw [if_neg hne, Option.getD_some]
  cases f.scan with
  | true =>
    simp only [if_true, reduxRunning_tag, List.length_take, Nat.min_eq_left (Nat.succ_le_of_lt hi)]
    rfl
  | false =>
    simp only [Bool.false_eq_true, if_false, reduxRunning_tag]
    rfl

theorem reduxGroup_run (s0 s : State) (e : Env) (f : FRedux) (ms : List (Nat × Thread)) (hpol : ∀ m ∈ ms, m.2.policy ≠ 1) :
    let q := reduxRun e f s0 s none (membersOf ms)
    (reduxWrite e f q.1 q.2.1, q.2.2) = (s0.reduxGroup s e f ms, []) := by
  intro q
  rw [show q = _ from reduxRun_group s0 s e f ms hpol, reduxWrite_outs, reduxGroup_eq]

theorem reduxGroup_keptIfLive (s0 s : State) (e : Env) (f : FRedux) (ms : List (Nat × Thread)) :
    keptIfLive e.crew.ctx s (s0.reduxGroup s e f ms) := by
  rw [reduxGroup_eq]
  refine keptIfLive.trans ?_ (foldl_keptIfLive (fun s' m => setRegs_keptIfLive _ s' _ _ _) _ _)
  rw [State.reduxBorn]
  cases (s0.reduxFirstBirth e f ms).bind fun k => ms[k]?.map fun m => (k, m) with
  | none => exact keptIfLive.refl _ s
  | some x => exact laneBirth_keptIfLive s e _ _ _ _

/-- The groups a REDUX runs over: the active lanes, or under C16 their two halves (R293). -/
def reduxGroups (e : Env) (ms : List (Nat × Thread)) : List (List (Nat × Thread)) :=
  if e.launch.c16 then [ms.filter fun m => decide (m.2.lane < 16), ms.filter fun m => !decide (m.2.lane < 16)] else [ms]

theorem reduxed_eq (s : State) (e : Env) (f : FRedux) :
    s.reduxed e f (s.active e) = (reduxGroups e (s.activeWith e)).foldl (fun s' g => s.reduxGroup s' e f g) s := rfl

theorem mem_reduxGroups {e : Env} {ms g : List (Nat × Thread)} (h : g ∈ reduxGroups e ms) {m : Nat × Thread} (hm : m ∈ g) : m ∈ ms := by
  rw [reduxGroups] at h
  split at h
  · simp only [List.mem_cons, List.not_mem_nil, or_false] at h
    rcases h with rfl | rfl
    · exact (List.mem_filter.1 hm).1
    · exact (List.mem_filter.1 hm).1
  · rw [List.mem_singleton] at h
    exact h ▸ hm

/-- The model's halves are the groups. -/
theorem membersOf_groups (e : Env) (ms : List (Nat × Thread)) :
    (if e.launch.c16 then [(membersOf ms).filter fun m => decide (m.lane < 16), (membersOf ms).filter fun m => decide (16 ≤ m.lane)]
      else [membersOf ms]) = (reduxGroups e ms).map membersOf := by
  rw [reduxGroups]
  cases e.launch.c16 with
  | false => rfl
  | true =>
    simp only [if_true, List.map_cons, List.map_nil, membersOf, List.filter_map, Function.comp_def, ← decide_not, Nat.not_lt]

theorem reduxFold (s0 : State) (e : Env) (f : FRedux) : ∀ (gs : List (List (Nat × Thread))) (s : State), (∀ g ∈ gs, ∀ m ∈ g, m.2.policy ≠ 1) →
    (gs.map membersOf).foldl (fun (acc : State × List (Nat × Trap)) h =>
      let q := reduxRun e f s0 acc.1 none h
      (reduxWrite e f q.1 q.2.1, acc.2 ++ q.2.2)) (s, []) = (gs.foldl (fun s' g => s0.reduxGroup s' e f g) s, [])
  | [], _, _ => rfl
  | g :: gs, s, hpol => by
    have h := reduxGroup_run s0 s e f g (hpol g (List.mem_cons_self ..))
    simp only [Prod.mk.injEq] at h
    obtain ⟨h1, h2⟩ := h
    rw [List.map_cons, List.foldl_cons, List.foldl_cons]
    simp only [h1, h2, List.append_nil]
    exact reduxFold s0 e f gs _ fun x hx => hpol x (List.mem_cons_of_mem _ hx)

theorem policy_of_base {t t1 : Thread} (h : t1.base = t.base) : t1.policy = t.policy := by
  rw [Thread.policy, anom_of_base h, ← Thread.policy]

theorem redux_once (f : FRedux) : onceEffects (.redux f) 1 [⟨f.d.toNat, 1, 1⟩, ⟨f.a.toNat, 1, 1⟩] (fun _ _ t => !t.spec && t.policy != 1)
    (fun s e _ _ => s.recorded (s.reduxed e f (s.active e)) e.crew.ctx) (fun s e _ _ l => s.reduxed e f l) := by
  have hi (s : State) : exec (.redux f) s = execRedux f s := rfl
  refine onceEffects_of_group (hi := hi) (fun s e t t1 hb h => ?_) (fun e s t hn hok => ?_) fun e s u t l hl hact hready hfirst => ?_
  · rw [spec_of_base hb, policy_of_base hb]
    exact h
  · simp only [Bool.and_eq_true, Bool.not_eq_true', bne_iff_ne, ne_eq] at hok
    exact ⟨by rw [hok.1, Bool.and_false], check_none rfl hn (Or.inr (by simp [chkCross]))⟩
  · rw [← hact]
    simp only [State.recorded, Bool.and_eq_true, List.isEmpty_iff] at hfirst
    obtain ⟨hlive, hpages⟩ := hfirst
    have hpol : ∀ g ∈ reduxGroups e (s.activeWith e), ∀ m ∈ g, m.2.policy ≠ 1 := fun g hg m hm => by
      have h := (hready m (hl ▸ mem_reduxGroups hg hm)).lane
      simp only [Bool.and_eq_true, bne_iff_ne, ne_eq] at h
      exact h.2
    obtain ⟨hkept, hset⟩ := foldl_keptIfLive (fun s' g => reduxGroup_keptIfLive s s' e f g) (reduxGroups e (s.activeWith e)) s
      (by rw [← reduxed_eq]; exact hlive)
    rw [← reduxed_eq] at hkept hset
    refine ⟨?_, hpages, hkept.warps, hkept.threads, fun x hx => ?_⟩
    · have hfold := reduxFold s e f _ s hpol
      simp only [← hl, membersOf_groups, hfold, ← reduxed_eq]
    · have hst := State.settled_thread hset x.1
      rw [(hready x hx).thread] at hst
      obtain ⟨t1, ht1, hs1⟩ := Option.map_eq_some_iff.1 hst
      have : t1.settled.status = x.2.settled.status := congrArg Thread.status hs1
      simp only [State.isInWarp, ht1, beq_iff_eq]
      exact this.trans (hready x hx).inWarp

end Sys2Proof.Machine
end

section
/-! SUPPORT. Births that trap (R88), and the obligation about births. -/

namespace Sys2Proof.Machine

/-! ## A trap after an effect (R88, R230) -/

theorem thread_of_settled {s s1 : State} (h : s1.settled = s.settled) {u : Nat} {t : Thread} (ht : s.thread? u = some t) :
    ∃ t1, s1.thread? u = some t1 ∧ t1.settled = t.settled := by
  have h1 := State.settled_thread h u
  rw [ht] at h1
  exact Option.map_eq_some_iff.1 h1

theorem issuer_of_settled {t t1 : Thread} (h : t1.settled = t.settled) (e : Env) (u : Nat) : e.issuer u t1 = e.issuer u t := by
  have hi (t : Thread) : e.issuer u t.settled = e.issuer u t := rfl
  rw [← hi, h, hi]

/-- A lane that has the effect `g`, which settles nothing else of the threads, and then takes the trap `tr`. -/
theorem departs_of_trapAfter {i : Instr} {n : Nat} {k : Env → Chk} {F : Env → State → Nat → Thread → LaneRes} {uses : List Use}
    {ok : State → Env → Nat → Thread → Bool} {g : State → Env → Nat → Thread → State} {tr : State → Env → Nat → Thread → Trap}
    (hi : ∀ s, exec i s = s.perLane n k F)
    (h : ∀ e s1 u t, s1.thread? u = some t → e.names t uses = true → ok s1 e u t = true →
      ((k e).stall && t.spec) = false ∧ (tr s1 e u t).os = false ∧ (tr s1 e u t).only = false ∧ trapResumesNext (tr s1 e u t).num = true ∧
        (g s1 e u t).mayTrap e u t (tr s1 e u t) = true ∧ s1.check e (k e) t = none ∧ F e s1 u t = .trap (g s1 e u t) (tr s1 e u t) ∧
        s1.pagesFor (g s1 e u t) = [] ∧ Kept s1 (g s1 e u t) ∧ (g s1 e u t).settled = s1.settled ∧
        Kept (g s1 e u t) ((g s1 e u t).faultRecord (e.issuer u t) (tr s1 e u t) (2 ^ t.lane) t.held.isSome false).1) :
    departs i n uses ok
      (fun s e u t => ((g s e u t).faultRecord (e.issuer u t) (tr s e u t) (2 ^ t.lane) t.held.isSome false).1)
      (fun s e u t => trapStand (g s e u t) e u t (tr s e u t) (e.nextAt n)) := by
  intro s e u t hp ha ht hn ho
  obtain ⟨hstall, hos, honly, hnext, hmay, hchk, hF, hpages, hkept, hset, hrec⟩ := h e (s.begin e) u t ht hn ho
  simp only [State.mayTrap, Bool.and_eq_true, Option.isNone_iff_eq_none, Bool.not_eq_true'] at hmay
  obtain ⟨⟨hh, hsp⟩, _⟩ := hmay
  have hst : t.status = .inWarp := by
    obtain ⟨t0, ht0, hst0, _⟩ := State.port_member hp (State.active_member (by rw [ha]; simp : u ∈ s.active e))
    obtain ⟨t1, ht1, hb⟩ := thread_of_same_base (s := s) (s1 := s.begin e) (by rw [State.begin_base]) ht0
    rw [ht, Option.some.injEq] at ht1
    exact (status_of_base (ht1 ▸ hb)).trans hst0
  generalize hb : g (s.begin e) e u t = b at *
  generalize htr : tr (s.begin e) e u t = x at *
  obtain ⟨t1, ht1, hset1⟩ := thread_of_settled hset ht
  have hh1 : t1.handler = none := (congrArg Thread.handler hset1 : t1.settled.handler = t.settled.handler).trans hh
  have hsp1 : t1.spec = false := (congrArg Thread.spec hset1 : t1.settled.spec = t.settled.spec).trans hsp
  have hlane1 : t1.lane = t.lane := (congrArg Thread.lane hset1 : t1.settled.lane = t.settled.lane)
  have hheld1 : t1.held = t.held := (congrArg Thread.held hset1 : t1.settled.held = t.settled.held)
  have hfold : (s.active e).foldl (runLane e (k e) (F e)) (s.begin e, []) = (b, [(u, x)]) := by
    simp [ha, runLane, ht, hst, hchk, hF, hstall, heldBefore_alone hp ha, LaneRes.await, hpages, State.applyRes, ht1, hsp1, honly]
  set r := b.faultRecord (e.issuer u t) x (2 ^ t.lane) t.held.isSome false with hr
  set q := e.nextAt n with hq
  set m : Thread → Thread := fun t => { t.standAt q.1 q.2 (q.2 == 0 && true) false with status := .parked r.2 { x with group := b.trapGroup e.crew.ctx }, wait := none, timer := none, timedOut := false, held := none } with hm
  have hrun : s.runSlot e n (k e) (F e) = ((r.1.modThread u m).leaveWarp e.wk u).closeSlot e.wk n := by
    rw [State.runSlot, hfold]
    simp only [State.finish, takeTraps_one ht1 hh1 hos honly, hnext, issuer_of_settled hset1, hlane1, hheld1]
    rfl
  obtain ⟨w1, hw1, hw2, hw3⟩ := State.begin_warp hp
  have hkr : Kept (s.begin e) r.1 := hkept.trans hrec
  have hk : keepsThreads (s.begin e) ((r.1.modThread u m).leaveWarp e.wk u) := fun v tv hv => by
    have := (hkr.trans (modThread_kept r.1 u m)).threads v tv hv
    simpa [State.thread?] using this
  obtain ⟨c1, c2, c3⟩ := departed (n := n) hp ha (s2 := (r.1.modThread u m).leaveWarp e.wk u)
    (by
      have hsw : SMap.get? (r.1.modThread u m).warps e.wk = some w1 := (congrArg (fun w => SMap.get? w e.wk) hkr.warps).trans hw1
      rw [leaveWarp_warps _ _ _ hsw, hw1]) hk
  refine ⟨_, (hi s).trans (perLane_next (State.port_env hp) n k F), ?_, ?_, ?_⟩
  · dsimp only
    rw [hrun, c1, leaveWarp_still, hb, htr, ← hr]
    exact State.modThread_still _ _ _ fun _ => rfl
  · dsimp only
    rw [hb, htr]
    obtain ⟨t2, ht2⟩ := hkr.threads u t ht
    refine ⟨m t2, ?_, rfl, rfl, ?_, rfl⟩
    · rw [hrun, c3]
      have := State.modThread_thread_same r.1 u m
      rw [ht2] at this
      simpa [State.thread?] using this
    · simp [trapStand, hm, ← hr]
  · rw [hrun]; exact c2

/-- FADD under trap on birth (R88): the record, the result under its eartag, then trap 12. -/
theorem fadd_departs (f : Fdab) : let born := fun (s : State) e u t => s.born e u t (s.addKind e t f) (s.ops2 t f.a f.b) f.d.toNat fun g =>
      [⟨BitVec.ofNat 32 (fF32.flush e.ftz (fF32.round (fsum [s.f32 e t f.a, s.f32 e t f.b]))), g⟩]
    let trap := fun (s : State) e u t => birthTrap s e u t (s.addKind e t f) (s.ops2 t f.a f.b)
    departs (.fadd f) 1 [⟨f.d.toNat, 1, 1⟩, ⟨f.a.toNat, 1, 1⟩, ⟨f.b.toNat, 1, 1⟩]
    (fun s e u t => s.addKind e t f != 0 && !t.spec && t.region.isNone && t.policy == 1 && s.recorded (born s e u t) e.crew.ctx &&
      (born s e u t).mayTrap e u t (trap s e u t))
    (fun s e u t => ((born s e u t).faultRecord (e.issuer u t) (trap s e u t) (2 ^ t.lane) t.held.isSome false).1)
    (fun s e u t => trapStand (born s e u t) e u t (trap s e u t) (e.nextAt 1)) := by
  intro born trap
  refine departs_of_trapAfter (hi := fun _ => rfl) fun e s u t _ hn hok => ?_
  simp only [Bool.and_eq_true, bne_iff_ne, ne_eq, Bool.not_eq_true', beq_iff_eq, State.recorded, List.isEmpty_iff] at hok
  obtain ⟨⟨⟨⟨⟨hkind, hsp⟩, _⟩, hpol⟩, hlive, hpages⟩, hmay⟩ := hok
  have hrlive := hmay
  simp only [State.mayTrap, Bool.and_eq_true] at hrlive
  obtain ⟨hkept, hset⟩ := (laneBirth_keptIfLive s e u t (s.addKind e t f) (s.ops2 t f.a f.b)).trans (setRegs_keptIfLive _ _ t _ _) hlive
  have hbops : (faddResult 0 f e s t).bops = s.ops2 t f.a f.b := by
    simp [faddResult, binResult, bops2, State.ops2, State.w32, State.opd32, State.src32, Src.rec32]
  refine ⟨rfl, rfl, rfl, rfl, hmay, check_none rfl hn (Or.inr (by simp [chk3])), ?_, hpages, hkept, hset, faultRecord_kept _ _ _ _ _ _ hrlive.2⟩
  have hk : (faddResult 0 f e s t).kind ≠ 0 := hkind
  rw [State.putResult, if_neg hk, State.bornResult, hsp, hbops, hpol]
  rfl

/-- Settles O13: each family of instructions by the lemma that compares its result, its birth and its rule's eartag with the model's;
QUANT and REDUX by following their runs through their births, FADD under trap on birth by the trap a lane takes after an effect. -/
theorem birthsAndRules : Obligations.BirthsAndRules := by
  unfold Obligations.BirthsAndRules
  refine ⟨?_, ?_, ?_, ?_, ?_, iaddi_bears, imad_bears, iabs_bears, iabs_wide_bears, lea_bears, fadd_bears, fmul_bears, ffma_bears, fadd2_bears,
    fmul2_bears, fma2_bears, fdot2_bears, fdot2E4m3_effects, fun _ _ _ h => approx_bears h, fun f _ => fcvt_bears f,
    fun f _ => quant_effects f, fun f _ => redux_once f, fadd_departs, ruleTag_cases⟩
  · exact birth2_of_arith (op := 0) (by norm_num) (fun _ _ => rfl) (fun _ => intOp_add true) fun _ x y _ => intOp_add_ovf x y
  · exact birth2_of_arith (op := 1) (by norm_num) (fun _ _ => rfl) (fun _ => intOp_sub true) fun _ x y _ => intOp_sub_ovf x y
  · exact birth2_of_arith (op := 2) (by norm_num) (fun _ _ => rfl) (fun _ => intOp_mul true) fun _ x y _ => intOp_mul_ovf x y
  · exact birth2_of_arith (op := 4) (by norm_num) (fun _ _ => rfl) (fun _ => intOp_div true) fun _ x y hw => intOp_div_ovf x y hw
  · exact birth2_of_arith (op := 5) (by norm_num) (fun _ _ => rfl) (fun _ => intOp_rem true) fun _ x y _ => intOp_rem_ovf x y

end Sys2Proof.Machine
end

section
/-! SUPPORT. WATCH, INJECT and EMIT (R93, R382, R437, R64, R65, R362), and the obligation about them. -/

namespace Sys2Proof.Machine

/-! ## INJECT (R382) -/

theorem inject_effects (f : FTwo) :
    let new := fun (s : State) (t : Thread) => s.w32 t f.r ^^^ BitVec.ofNat 32 (2 ^ (s.w32 t f.q).toNat)
    let o := fun (s : State) (t : Thread) => (⟨s.w32 t f.r, s.w32 t f.q, new s t, (s.opd32 t f.r).tag, (s.opd32 t f.q).tag, 0⟩ : BirthOps)
    effects (.inject f) 1 [⟨f.r.toNat, 1, 1⟩, ⟨f.q.toNat, 1, 1⟩]
      (fun s e u t => e.c.finj && decide ((s.w32 t f.q).toNat < 32) && s.mayBear e u t 7 (o s t))
      (fun s e u t => s.born e u t 7 (o s t) f.r.toNat fun g => [⟨new s t, g⟩]) := by
  intro new o
  refine effects_of_lane (hi := fun _ => rfl) fun e s u t _ hn hok => ?_
  simp only [Bool.and_eq_true, State.mayBear, State.recorded, Bool.not_eq_true', bne_iff_ne, ne_eq, decide_eq_true_eq, List.isEmpty_iff] at hok
  obtain ⟨⟨hfinj, hq⟩, ⟨hsp, hpol⟩, hlive, hpages⟩ := hok
  have hpol' : (t.policy == 1) = false := by simpa using hpol
  have hq' : ¬ 32 ≤ (s.reg t f.q.toNat).val.toNat := Nat.not_le_of_lt hq
  obtain ⟨hkept, _⟩ := (laneBirth_keptIfLive s e u t 7 (o s t)).trans (setRegs_keptIfLive _ _ t f.r.toNat [⟨new s t, (s.laneBirth e u t 7 (o s t)).2⟩])
    (by rw [State.live, (setRegs_wrote (rfl : t.base = t.base)).1]; exact hlive)
  refine ⟨by rw [hsp, Bool.and_false], check_none rfl hn (Or.inr (by simp)), ?_, ?_, hkept.warps, hkept.threads⟩
  · simp only [injectLane, hfinj, Bool.not_true, Bool.false_eq_true, if_false, hq', State.bornResult, hsp, hpol']
    rfl
  · rw [← hpages]
    simp only [State.pagesFor, State.born, (setRegs_same _ _ _ _).1]

/-! ## EMIT (R64, R65, R362) -/

/-- The waits of a release at a scope are over at its first try when `released` says so (R167, R169). -/
theorem State.releaseTry_released {s : State} {u scope : Nat} {t : Thread} (ht : s.thread? u = some t) (h : s.released u t scope = true) :
    s.releaseTry u scope = (s, none) := by
  simp only [State.released, Bool.and_eq_true, Option.isNone_iff_eq_none] at h
  obtain ⟨⟨hregion, hfifo⟩, hmark⟩ := h
  have hcommit : s.commitRegion u = s := by simp only [State.commitRegion, ht, hregion]
  simp only [State.releaseTry, hcommit, ht, hfifo, Bool.not_true, Bool.false_eq_true, if_false]
  by_cases hscope : scope ≤ 1
  · rw [if_pos hscope]
  · rw [if_neg hscope]
    rw [decide_eq_false hscope, Bool.false_or] at hmark
    split at hmark
    · cases hmark
    · rw [if_pos hmark]

/-- The eartag of a record: its first A-tagged register's, else its first register's (R362). -/
theorem recordTag_eq (rs : List Reg) : recordTag rs = ((rs.map (·.tag)).find? isA).getD (rs.getD 0 Reg.zero).tag := by
  rw [recordTag, List.find?_map]
  simp only [Function.comp_def]
  cases rs.find? fun r => isA r.tag <;> rfl

/-- The node that emits, its successor `j` and the context, where EMIT has one (R361, R362). -/
def State.emitSucc (j : Nat) (s : State) (e : Env) : Option (Nat × Nat × Context) :=
  match e.launch.origin with
  | .queue _ _ _ => none
  | .graph n => if e.c.graph = 0 then none else ((s.node e.c n).bind fun x => if x.succ.getD j 0xFFFF = 0xFFFF then none else
      (SMap.get? s.ctxs e.crew.ctx).map fun c => (n, x.succ.getD j 0xFFFF, c))

/-- The place at the tail of the successor's queue, where there is room (R65). -/
def State.emitPlace (j : Nat) (s : State) (e : Env) : Option (Nat × Nat × Hit) :=
  (s.emitSucc j e).bind fun (_, d, c) => if c.nnode ≤ d then none else (s.node c d).bind fun x =>
    if !x.takes || decide (x.qcap ≤ (c.nodeState d).tail - (c.nodeState d).head) then none
    else match s.transDev c (x.recAddr (c.nodeState d).tail) with
      | .hit h => if h.w && h.peerW && !h.loc.isTable then some (d, x.recAddr (c.nodeState d).tail % 2 ^ 48, h) else none
      | _ => none

/-- The record of a lane: four registers (R362). -/
def State.emitRegs (s : State) (t : Thread) (a : VReg) : List Reg := (List.range 4).map fun i => s.reg t (a.toNat + i)

/-- EMIT with a successor whose release is over comes to what queueing its record comes to. -/
theorem emitLane_queues {a : VReg} {j : Nat} {e : Env} {s : State} {u : Nat} {t : Thread} {n d : Nat} {c : Context}
    (ht : s.thread? u = some t) (hrel : s.released u t 4 = true) (hsucc : s.emitSucc j e = some (n, d, c)) :
    emitLane a j e s u t = match s.queueRecord e.crew.ctx c n d (s.whereOf (e.issuer u t)) (s.emitRegs t a) with
      | .ok s2 => .done s2
      | .full cap => .park s (.graphQueue d cap)
      | .wait => .stall s .drain := by
  unfold State.emitSucc at hsucc
  unfold emitLane
  cases horigin : e.launch.origin with
  | queue vd q htag => rw [horigin] at hsucc; cases hsucc
  | graph m =>
    rw [horigin] at hsucc
    dsimp only at hsucc ⊢
    split at hsucc
    · cases hsucc
    · next hgraph =>
      obtain ⟨x, hx, hsucc⟩ := Option.bind_eq_some_iff.1 hsucc
      split at hsucc
      · cases hsucc
      · next hd =>
        obtain ⟨c', hc, h⟩ := Option.map_eq_some_iff.1 hsucc
        cases h
        rw [if_neg hgraph, hx]
        dsimp only
        rw [if_neg hd, State.releaseTry_released ht hrel]
        dsimp only
        rw [hc]
        rfl

/-- With a place at the tail the record is written there under its eartag, and the tail advances (R65, R362). -/
theorem queueRecord_place {j : Nat} {e : Env} {s : State} {n d : Nat} {c : Context} (hsucc : s.emitSucc j e = some (n, d, c)) {d' va : Nat} {h : Hit}
    (hplace : s.emitPlace j e = some (d', va, h)) (cid w : Nat) (rs : List Reg) :
    s.queueRecord cid c n d w rs = .ok ((s.performWrite cid va h.loc (rs.flatMap fun r => toBytes 4 r.val.toNat) (recordTag rs) h.tagAddr).modNode cid d'
      fun y => { y with tail := y.tail + 1 }) := by
  unfold State.emitPlace at hplace
  rw [hsucc, Option.bind_some] at hplace
  dsimp only at hplace
  split at hplace
  · cases hplace
  · next hnode =>
    obtain ⟨x, hx, hplace⟩ := Option.bind_eq_some_iff.1 hplace
    split at hplace
    · cases hplace
    · next hroom =>
      simp only [Bool.or_eq_true, Bool.not_eq_true', decide_eq_true_eq, not_or, Bool.not_eq_false] at hroom
      obtain ⟨htakes, hroom⟩ := hroom
      unfold State.queueRecord
      rw [if_neg hnode, hx]
      dsimp only
      rw [if_neg (by simp [htakes]), if_neg hroom]
      split at hplace
      · next h' hhit =>
        rw [hhit]
        split at hplace
        · next hperm =>
          cases hplace
          simp only [Bool.and_eq_true, Bool.not_eq_true'] at hperm
          obtain ⟨⟨hw, hpeer⟩, htable⟩ := hperm
          simp only [hw, hpeer, htable, Bool.not_true, Bool.or_false, Bool.false_eq_true, if_false]
        · cases hplace
      · cases hplace

theorem emit_writes (a : VReg) (j : BitVec 2) :
    effects (.emit a j) 1 [⟨a.toNat, 4, 4⟩] (fun s e u t => !t.spec && s.released u t 4 && (s.emitPlace j.toNat e).isSome)
      (fun s e _ t => match s.emitPlace j.toNat e with
        | none => s
        | some (d, va, h) =>
          (s.performWrite e.crew.ctx va h.loc ((s.emitRegs t a).flatMap fun r => toBytes 4 r.val.toNat)
            ((((s.emitRegs t a).map (·.tag)).find? isA).getD (s.reg t a.toNat).tag) h.tagAddr).modNode e.crew.ctx d fun y => { y with tail := y.tail + 1 }) := by
  refine effects_of_lane (hi := fun _ => rfl) fun e s u t ht hn hok => ?_
  simp only [Bool.and_eq_true, Bool.not_eq_true'] at hok
  obtain ⟨⟨hsp, hrel⟩, hplace⟩ := hok
  obtain ⟨⟨d, va, h⟩, hplace⟩ := Option.isSome_iff_exists.1 hplace
  obtain ⟨⟨n, d', c⟩, hsucc, _⟩ := Option.bind_eq_some_iff.1 hplace
  have hrun := emitLane_queues (a := a) ht hrel hsucc
  rw [queueRecord_place hsucc hplace, recordTag_eq] at hrun
  rw [hplace]
  have hkept := performWrite_kept s e.crew.ctx va h.loc ((s.emitRegs t a).flatMap fun r => toBytes 4 r.val.toNat)
    ((((s.emitRegs t a).map (·.tag)).find? isA).getD (s.reg t a.toNat).tag) h.tagAddr
  refine ⟨by rw [hsp, Bool.and_false], check_none rfl hn (Or.inr (by simp)), hrun, State.pagesFor_same (performWrite_records ..), hkept.warps, hkept.threads⟩

/-- A successor that takes no records leaves an entry of type 4 (R65, R362). -/
theorem emit_discards (a : VReg) (j : BitVec 2) :
    effects (.emit a j) 1 [⟨a.toNat, 4, 4⟩]
      (fun s e u t => !t.spec && s.released u t 4 && (s.emitSucc j.toNat e).any fun (_, d, c) => decide (d < c.nnode) && (s.node c d).any fun x => !x.takes)
      (fun s e u t => match (s.emitSucc j.toNat e).bind fun (_, d, c) => (s.node c d).map fun x => x.recAddr (c.nodeState d).tail with
        | none => s
        | some q => s.log e.crew.ctx 4 2 0 q (s.whereOf (e.issuer u t))) := by
  refine effects_of_lane (hi := fun _ => rfl) fun e s u t ht hn hok => ?_
  simp only [Bool.and_eq_true, Bool.not_eq_true', Option.any_eq_true] at hok
  obtain ⟨⟨hsp, hrel⟩, ⟨n, d, c⟩, hsucc, hnode, x, hx, htakes⟩ := hok
  have hrun := emitLane_queues (a := a) ht hrel hsucc
  have hqueue : s.queueRecord e.crew.ctx c n d (s.whereOf (e.issuer u t)) (s.emitRegs t a) =
      .ok (s.log e.crew.ctx 4 2 0 (x.recAddr (c.nodeState d).tail) (s.whereOf (e.issuer u t))) := by
    unfold State.queueRecord
    rw [if_neg (by simpa using hnode), hx]
    dsimp only
    rw [if_pos (by simp [htakes])]
  rw [hqueue] at hrun
  rw [hsucc, Option.bind_some]
  dsimp only
  rw [hx, Option.map_some]
  exact ⟨by rw [hsp, Bool.and_false], check_none rfl hn (Or.inr (by simp)), hrun, State.pagesFor_same rfl, rfl, fun _ t' ht' => ⟨t', ht'⟩⟩

/-! ## What the reads of an instruction leave alone -/

/-- The machine without its counters, its translation caches and its L1 copies: what reading memory leaves alone. -/
def State.uncached (s : State) : State := { s.quiet with l1 := [] }

theorem State.uncached_of_quiet {s s1 : State} (h : s1.quiet = s.quiet) : s1.uncached = s.uncached := by rw [State.uncached, h, ← State.uncached]

theorem State.place_quiet (s : State) (e : Env) (sp width need a : Nat) : (s.place e sp width need a).1.quiet = s.quiet := by
  unfold State.place
  split
  · rfl
  · rfl
  · next va _ =>
    have h := s.translate_quiet e.core e.crew.ctx e.c va
    dsimp only
    split
    · split
      · split <;> exact h
      · exact h
    · exact h

theorem State.fillFor_uncached (s : State) (t : Thread) (p : Place) (miss : Bool) : (s.fillFor t p miss).uncached = s.uncached := by
  unfold State.fillFor
  split <;> rfl

theorem State.readBlock_uncached (e : Env) (u : Nat) (t : Thread) (v : Nat) : ∀ (n : Nat) (s : State) (a : Nat),
    (s.readBlock e u t v n a).1.uncached = s.uncached
  | 0, _, _ => rfl
  | n + 1, s, a => by
    have hplace := State.uncached_of_quiet (s.place_quiet e 0 16 1 a)
    unfold State.readBlock
    split
    · next h => rw [h] at hplace; exact hplace
    · next s1 p h =>
      rw [h] at hplace
      split
      · exact hplace
      · dsimp only
        split
        · exact hplace
        · split
          · exact hplace
          · have hread (miss : Bool) : ((s1.fillFor t p miss).readBlock e u t v n (a + 16)).1.uncached = s.uncached :=
              ((State.readBlock_uncached e u t v n _ (a + 16)).trans (State.fillFor_uncached s1 t p miss)).trans hplace
            split
            · next h' => exact (congrArg (fun r : State × BlockRes => r.1.uncached) h').symm.trans (hread _)
            · exact hread _

/-- A thread without its speculation levels. -/
def Thread.unleveled (t : Thread) : Thread := { t with levels := [] }

/-- The machine without its L1 copies and its threads' speculation levels: what an acquire leaves alone (R169, R201). -/
def State.unacquired (s : State) : State := { s with l1 := [], threads := s.threads.map fun e => (e.1, e.2.unleveled) }

theorem State.unacquired_thread {s s1 : State} (h : s1.unacquired = s.unacquired) (u : Nat) :
    (s1.thread? u).map Thread.unleveled = (s.thread? u).map Thread.unleveled := by
  have := congrArg (fun s => s.thread? u) h
  simpa [State.unacquired, SMap.get?_map _ (fun _ t => Thread.unleveled t), State.thread?] using this

theorem State.modThread_unacquired (s : State) (u : Nat) (f : Thread → Thread) (h : ∀ t, (f t).unleveled = t.unleveled) :
    (s.modThread u f).unacquired = s.unacquired := by
  simp [State.unacquired, State.modThread, SMap.map_mod _ _ _ Thread.unleveled h]

theorem State.conflictUp_unacquired : ∀ (n : Nat) (s : State) (u : Nat), (s.conflictUp n u).unacquired = s.unacquired
  | 0, _, _ => rfl
  | n + 1, s, u => by
    unfold State.conflictUp
    split
    · rfl
    · exact (State.conflictUp_unacquired n _ _).trans (State.modThread_unacquired s _ _ fun _ => rfl)

theorem State.wokenAcquire_unacquired (s : State) (u : Nat) (t : Thread) : (s.wokenAcquire u t).unacquired = s.unacquired := by
  unfold State.wokenAcquire
  split
  · unfold State.acquire
    split
    · rfl
    · exact State.conflictUp_unacquired 8 (s.dropL1 _ _) u
  · rfl

/-- An acquire leaves the watchpoints that cover a thread (R95). -/
theorem State.watchHit_of_unacquired {s s1 : State} (h : s1.unacquired = s.unacquired) (u crew ctx : Nat) (copies : Bool) (seen : Nat) (as : List Access) :
    s1.watchHit u crew ctx copies seen as = s.watchHit u crew ctx copies seen as := by
  have hthread : (s1.thread? u).map (·.watch) = (s.thread? u).map (·.watch) := by
    have := congrArg (Option.map Thread.watch) (State.unacquired_thread h u)
    rwa [Option.map_map, Option.map_map] at this
  have hcrews : s1.crews = s.crews := (congrArg State.crews h : s1.unacquired.crews = s.unacquired.crews)
  have hctxs : s1.ctxs = s.ctxs := (congrArg State.ctxs h : s1.unacquired.ctxs = s.unacquired.ctxs)
  simp only [State.watchHit, State.watchesOf, hthread, hcrews, hctxs]

/-! ## WATCH (R93, R437) -/

theorem watchLane_installs {f : FWatch} {e : Env} {s s1 : State} {u : Nat} {t : Thread} {bs : List Byte} {tags : List Tag}
    (hpriv : (!f.ctx || e.c.priv) = true) (hlimit : (s.w32 t f.b).toNat ≤ if f.ctx then 7 else 3) (halign : (s.w64 t f.a).toNat % 32 = 0)
    (hread : s.readBlock e u t f.a.toNat 2 (s.w64 t f.a).toNat = (s1, .ok bs tags)) (hparse : (parseWatch bs).2 = true)
    (hwatch : s1.unwatched e u t (blockAccess (s.w64 t f.a).toNat tags) = true) :
    watchLane f e s u t = .done ((s1.wokenAcquire u t).setWatch e f.ctx (s.w32 t f.b).toNat (parseWatch bs).1) := by
  simp only [State.unwatched, Bool.and_eq_true, Option.isNone_iff_eq_none] at hwatch
  obtain ⟨hhit, hheld⟩ := hwatch
  have hnone : (s1.wokenAcquire u t).watchHit u e.crewId e.crew.ctx false 0 (blockAccess (s.w64 t f.a).toNat tags) = none :=
    (State.watchHit_of_unacquired (State.wokenAcquire_unacquired s1 u t) u e.crewId e.crew.ctx false 0 _).trans hhit
  have hpriv' : (f.ctx && !e.c.priv) = false := by
    cases hc : f.ctx <;> simp_all
  unfold State.w64 at *
  unfold State.w32 at *
  unfold watchLane
  dsimp only
  rw [hpriv', if_neg (by simp), if_neg (Nat.not_lt.2 hlimit), halign, if_neg (by simp), hread]
  dsimp only
  rw [hparse, if_neg (by simp), State.watched, hnone, hheld]
  rfl

theorem State.setWatch_frame (s : State) (e : Env) (ctx : Bool) (i : Nat) (w : Watch) :
    (s.setWatch e ctx i w).threads = s.threads ∧ (s.setWatch e ctx i w).warps = s.warps ∧ (s.setWatch e ctx i w).records = s.records := by
  unfold State.setWatch
  split <;> exact ⟨rfl, rfl, rfl⟩

/-- What an installed watchpoint leaves alone: the warps, the records, and of each thread all but its levels. -/
theorem watch_keeps {f : FWatch} {e : Env} {s s1 : State} {u : Nat} {t : Thread} {a i : Nat} {w : Watch} {r : BlockRes}
    (hread : s.readBlock e u t f.a.toNat 2 a = (s1, r)) :
    ((s1.wokenAcquire u t).setWatch e f.ctx i w).records = s.records ∧ ((s1.wokenAcquire u t).setWatch e f.ctx i w).warps = s.warps ∧
      ∀ v tv, s.thread? v = some tv → ∃ t1, ((s1.wokenAcquire u t).setWatch e f.ctx i w).thread? v = some t1 ∧ t1.status = tv.status := by
  have hcache : s1.uncached = s.uncached := by
    have := State.readBlock_uncached e u t f.a.toNat 2 s a
    rwa [hread] at this
  have hacq := State.wokenAcquire_unacquired s1 u t
  obtain ⟨hsetThreads, hsetWarps, hsetRecords⟩ := State.setWatch_frame (s1.wokenAcquire u t) e f.ctx i w
  refine ⟨?_, ?_, fun v tv ht => ?_⟩
  · exact hsetRecords.trans ((congrArg State.records hacq :).trans (congrArg State.records hcache :))
  · exact hsetWarps.trans ((congrArg State.warps hacq :).trans (congrArg State.warps hcache :))
  · have hv := State.unacquired_thread hacq v
    have hs1 : s1.threads = s.threads := (congrArg State.threads hcache :)
    rw [State.thread?, State.thread?, hs1] at hv
    rw [State.thread?] at ht
    rw [ht] at hv
    obtain ⟨t1, ht1, hb⟩ := Option.map_eq_some_iff.1 hv
    exact ⟨t1, by rw [State.thread?, hsetThreads]; exact ht1, (congrArg Thread.status hb :)⟩

theorem watch_once (f : FWatch) :
    let at_ := fun (s : State) (t : Thread) => (s.w64 t f.a).toNat
    onceEffects (.watch f) 1 [⟨f.a.toNat, 2, 2⟩, ⟨f.b.toNat, 1, 1⟩] (fun _ _ t => !t.spec)
      (fun s e u t => (!f.ctx || e.c.priv) && decide ((s.w32 t f.b).toNat ≤ if f.ctx then 7 else 3) && at_ s t % 32 == 0 &&
        match s.readBlock e u t f.a.toNat 2 (at_ s t) with
        | (s1, .ok bs tags) => (parseWatch bs).2 && s1.unwatched e u t (blockAccess (at_ s t) tags)
        | _ => false)
      (fun s e u t _ => match s.readBlock e u t f.a.toNat 2 (at_ s t) with
        | (s1, .ok bs _) =>
          let s2 := s1.wokenAcquire u t
          if f.ctx then { s2 with ctxs := SMap.mod s2.ctxs e.crew.ctx fun c => { c with watch := c.watch.set (s.w32 t f.b).toNat (parseWatch bs).1 } }
          else { s2 with crews := SMap.mod s2.crews e.crewId fun c => { c with watch := c.watch.set (s.w32 t f.b).toNat (parseWatch bs).1 } }
        | _ => s) := by
  intro at_
  have hi (s : State) : exec (.watch f) s = execWatch f s := rfl
  refine onceEffects_of_once (hi := hi) (fun s e t t1 hb h => ?_) (fun e s t hn hok => ?_) fun e s u t us _ _ hfirst => ?_
  · rw [spec_of_base hb]
    exact h
  · simp only [Bool.not_eq_true'] at hok
    exact ⟨by rw [hok, Bool.and_false], check_none rfl hn (Or.inr (by simp))⟩
  · simp only [Bool.and_eq_true, decide_eq_true_eq, beq_iff_eq] at hfirst
    obtain ⟨⟨⟨hpriv, hlimit⟩, halign⟩, hblock⟩ := hfirst
    split at hblock
    · next s1 bs tags hread =>
      rw [Bool.and_eq_true] at hblock
      obtain ⟨hparse, hwatch⟩ := hblock
      have hrun := watchLane_installs hpriv hlimit halign hread hparse hwatch
      obtain ⟨hrecords, hwarps, hthreads⟩ := watch_keeps (f := f) (i := (s.w32 t f.b).toNat) (w := (parseWatch bs).1) hread
      exact ⟨hrun, State.pagesFor_same hrecords, hwarps, hthreads⟩
    · cases hblock

/-- Settles O45: WATCH by the watchpoint its lane installs, which leaves the group's threads in their warp; INJECT by its birth; EMIT by
what queueing its record comes to. -/
theorem watchInjectEmit : Obligations.WatchInjectEmit := by
  unfold Obligations.WatchInjectEmit
  exact ⟨watch_once, inject_effects, fun a j => ⟨emit_writes a j, emit_discards a j⟩⟩

end Sys2Proof.Machine
end

section
/-! SUPPORT. A record's write does not read the matrix queues (R71, R115). -/

namespace Sys2Proof.Machine

/-- The machine with other matrix queues. -/
def State.withMatQ (s : State) (q : SMap (List MatOp)) : State := { s with matQ := q }

section
variable (s : State) (q : SMap (List MatOp))

theorem State.scrRead_withMatQ (core n b : Nat) : (s.withMatQ q).scrRead core b n = s.scrRead core b n := by
  induction n generalizing b with
  | zero => rfl
  | succ n ih => rw [State.scrRead, State.scrRead, ih]; rfl

theorem State.winWord_withMatQ (core o : Nat) : (s.withMatQ q).winWord core o = s.winWord core o := by
  unfold State.winWord
  split <;> rfl

theorem State.winRead_withMatQ (core n o : Nat) : (s.withMatQ q).winRead core o n = s.winRead core o n := by
  induction n generalizing o with
  | zero => rfl
  | succ n ih => rw [State.winRead, State.winRead, ih, State.winWord_withMatQ]

theorem State.readLoc_withMatQ (l : Loc) (n : Nat) : (s.withMatQ q).readLoc l n = s.readLoc l n := by
  cases l with
  | win c o => exact s.winRead_withMatQ q c n o
  | scr c b => exact s.scrRead_withMatQ q c n b
  | _ => rfl

theorem State.tableEntry_withMatQ (p : Partition) (t i : Nat) : (s.withMatQ q).tableEntry p t i = s.tableEntry p t i := by
  simp only [State.tableEntry, State.readLoc_withMatQ]

theorem State.transDev_withMatQ (c : Context) (va : Nat) : (s.withMatQ q).transDev c va = s.transDev c va := by
  have hwalk (p : Partition) (priv : Bool) (va fuel level table : Nat) :
      (s.withMatQ q).walkFrom p priv va fuel level table = s.walkFrom p priv va fuel level table := by
    induction fuel generalizing level table with
    | zero => rfl
    | succ fuel ih => simp only [State.walkFrom, State.tableEntry_withMatQ, ih]
  have hpart : (s.withMatQ q).partOf c = s.partOf c := rfl
  simp only [State.transDev, State.walk, hpart, hwalk]

theorem State.mapsOf_withMatQ (c : Context) (pa : Nat) : (s.withMatQ q).mapsOf c pa = s.mapsOf c pa := by
  have hmaps (p : Partition) (priv : Bool) (pa fuel level table base : Nat) :
      (s.withMatQ q).mapsFrom p priv pa fuel level table base = s.mapsFrom p priv pa fuel level table base := by
    induction fuel generalizing level table base with
    | zero => rfl
    | succ fuel ih => simp only [State.mapsFrom, State.tableEntry_withMatQ, ih]
  have hpart : (s.withMatQ q).partOf c = s.partOf c := rfl
  simp only [State.mapsOf, hpart, hmaps]

theorem State.twAt_withMatQ (l : Loc) (ta : Option Nat) (g : Tag) : (s.withMatQ q).twAt l ta g = s.twAt l ta g := by
  cases l with
  | win c o => simp only [State.twAt, State.winWord_withMatQ]
  | _ => rfl

end

theorem foldl_withMatQ {α : Type} {f : State → α → State} {q : SMap (List MatOp)} (h : ∀ s a, f (s.withMatQ q) a = (f s a).withMatQ q) :
    ∀ (l : List α) (s : State), l.foldl f (s.withMatQ q) = (l.foldl f s).withMatQ q
  | [], _ => rfl
  | a :: l, s => by rw [List.foldl_cons, List.foldl_cons, h, foldl_withMatQ h l]

section
variable (s : State) (q : SMap (List MatOp))

theorem State.snapUnit_withMatQ (cid u : Nat) (l : Loc) : (s.withMatQ q).snapUnit cid u l = (s.snapUnit cid u l).withMatQ q := by
  have hctx : (s.withMatQ q).ctxs = s.ctxs := rfl
  have hmem : (s.withMatQ q).mem = s.mem := rfl
  unfold State.snapUnit
  simp only [State.transDev_withMatQ, hctx, hmem]
  split
  · split
    · rfl
    · split <;> rfl
  · rfl

theorem State.markUnit_withMatQ (cid u : Nat) (l : Loc) : (s.withMatQ q).markUnit cid u l = (s.markUnit cid u l).withMatQ q := by
  have hctx : (s.withMatQ q).ctxs = s.ctxs := rfl
  unfold State.markUnit
  simp only [State.transDev_withMatQ, hctx, State.snapUnit_withMatQ]
  split
  · rfl
  · split
    · rfl
    · split
      · split <;> rfl
      · rfl

theorem State.markDirty_withMatQ (cid va : Nat) (l : Loc) : (s.withMatQ q).markDirty cid va l = (s.markDirty cid va l).withMatQ q := by
  unfold State.markDirty
  dsimp only
  rw [State.markUnit_withMatQ]
  generalize s.markUnit cid (va % 2 ^ 48 / 65536) l = s1
  split
  · have hctx : (s1.withMatQ q).ctxs = s1.ctxs := rfl
    rw [hctx]
    refine foldl_withMatQ (fun s e => ?_) _ _
    rw [State.mapsOf_withMatQ]
    exact foldl_withMatQ (fun s v => s.markUnit_withMatQ q e.1 (v.1 / 65536) _) _ _
  · rfl

theorem State.scrWrite_withMatQ (core : Nat) : ∀ (bs : List Byte) (s : State) (b : Nat),
    (s.withMatQ q).scrWrite core b bs = (s.scrWrite core b bs).withMatQ q
  | [], _, _ => rfl
  | x :: xs, s, b => State.scrWrite_withMatQ core xs { s with scr := SMap.setD s.scr 0 (scrKey core b) x } (b + 1)

theorem State.winWrite1_withMatQ (core o : Nat) (d : List Byte) (g : Tag) : (s.withMatQ q).winWrite1 core o d g = (s.winWrite1 core o d g).withMatQ q := by
  unfold State.winWrite1
  simp only [State.winWord_withMatQ, State.scrWrite_withMatQ]
  split <;> rfl

theorem State.writeLoc_withMatQ (l : Loc) (d : List Byte) (g : Tag) (ta : Option Nat) (w : Bool) :
    (s.withMatQ q).writeLoc l d g ta w = (s.writeLoc l d g ta w).withMatQ q := by
  cases l with
  | hbm a => cases ta <;> rfl
  | win c o =>
    unfold State.writeLoc State.winWrite
    dsimp only
    rw [foldl_withMatQ fun s (e : Nat × List Byte) => s.winWrite1_withMatQ q c e.1 e.2 g]
    split
    · split <;> rfl
    · rfl
  | scr c b =>
    simp only [State.writeLoc, State.scrWrite_withMatQ]
    rfl
  | _ => rfl

theorem State.performWrite_withMatQ (cid va : Nat) (l : Loc) (d : List Byte) (g : Tag) (ta : Option Nat) :
    (s.withMatQ q).performWrite cid va l d g ta = (s.performWrite cid va l d g ta).withMatQ q := by
  unfold State.performWrite
  dsimp only
  cases l.isScr with
  | true =>
    simp only [if_true]
    rw [State.writeLoc_withMatQ]
    rfl
  | false =>
    simp only [Bool.false_eq_true, if_false]
    rw [State.markDirty_withMatQ, State.writeLoc_withMatQ]
    rfl

end

/-- A record's write with other matrix queues comes to the same. -/
theorem State.recWrite_withMatQ (q : SMap (List MatOp)) : ∀ (gs : List (List Byte)) (s : State) (cid va : Nat),
    (s.withMatQ q).recWrite cid va gs = match s.recWrite cid va gs with
      | .ok s1 => .ok (s1.withMatQ q)
      | .wait => .wait
      | .dead => .dead
  | [], _, _, _ => rfl
  | g :: gs, s, cid, va => by
    have hctx : (s.withMatQ q).ctxs = s.ctxs := rfl
    unfold State.recWrite
    simp only [hctx, State.transDev_withMatQ, State.twAt_withMatQ, State.performWrite_withMatQ]
    split
    · rfl
    · split
      · rfl
      · rfl
      · rfl
      · split
        · rfl
        · exact State.recWrite_withMatQ q gs _ _ _

theorem State.putRecord_withMatQ {s : State} {uid core : Nat} {engine held : Bool} {cid va seq : Nat} {data : List (List Byte)}
    (q : SMap (List MatOp)) (h : (s.putRecord uid core engine held cid va seq data).live cid = true) :
    (s.withMatQ q).putRecord uid core engine held cid va seq data = (s.putRecord uid core engine held cid va seq data).withMatQ q := by
  unfold State.putRecord at h ⊢
  rw [State.recWrite_withMatQ]
  cases hr : s.recWrite cid va data with
  | ok s1 => rfl
  | wait => rfl
  | dead =>
    rw [hr] at h
    simp only [log_live, endContext_dead] at h
    cases h

/-- A birth that does not end its context comes to the same with other matrix queues. -/
theorem State.birth_withMatQ {s : State} {i : Issuer} {kind : Nat} {o : BirthOps} {engine early : Bool} (q : SMap (List MatOp))
    (h : (s.birth i kind o engine early).1.live i.ctx = true) :
    (s.withMatQ q).birth i kind o engine early = ((s.birth i kind o engine early).1.withMatQ q, (s.birth i kind o engine early).2) := by
  have hctx : (s.withMatQ q).ctxs = s.ctxs := rfl
  unfold State.birth at h ⊢
  rw [hctx]
  cases hc : SMap.get? s.ctxs i.ctx with
  | none => rfl
  | some c =>
    rw [hc] at h
    exact congrArg (·, birthTag c.anomSeq) (State.putRecord_withMatQ q h)

end Sys2Proof.Machine
end

section
/-! SUPPORT. An operation of an engine completes (R15, R126): it leaves its queue, its flag clears, and its crew goes on while it has a
thread. -/

namespace Sys2Proof.Machine

/-! ## Crews with a thread do not complete (R217, R365) -/

/-- The numbers of the crews, and the crew of each thread. -/
def State.roll (s : State) : List Nat × List Nat := (s.crews.map (·.1), s.threads.map (·.2.crew))

theorem State.crewed_eq (s : State) : s.crewed = s.roll.1.all fun k => s.roll.2.contains k := by
  rw [Bool.eq_iff_iff, State.crewed, State.roll, List.all_map]
  simp [State.crewThreads, List.all_eq_true]

theorem State.crewed_of_roll {s s1 : State} (h : s1.roll = s.roll) : s1.crewed = s.crewed := by
  rw [State.crewed_eq, h, ← State.crewed_eq]

theorem State.crewDone_of_crewed {s : State} {k : Nat} {c : Crew} (h : s.crewed = true) (hc : SMap.get? s.crews k = some c) :
    s.crewDone k = false := by
  have hk := List.all_eq_true.mp h (k, c) (SMap.mem_of_get? hc)
  rw [State.crewDone, (Bool.not_eq_true' _).mp hk]
  rfl

theorem State.settleCrew_of_crewed {s : State} (h : s.crewed = true) (k : Nat) : s.settleCrew k = s := by
  unfold State.settleCrew
  cases hc : SMap.get? s.crews k with
  | none => rfl
  | some c => simp [State.crewDone_of_crewed h hc]

theorem State.roll_modThread (s : State) (u : Nat) (f : Thread → Thread) (h : ∀ t, (f t).crew = t.crew) : (s.modThread u f).roll = s.roll := by
  simp only [State.roll, State.modThread, SMap.mod, List.map_map]
  congr 2
  funext e
  dsimp only [Function.comp]
  split
  · exact h _
  · rfl

theorem State.roll_of_settled {s s1 : State} (hc : s1.crews = s.crews) (ht : s1.settled = s.settled) : s1.roll = s.roll := by
  have h (s : State) : s.threads.map (·.2.crew) = s.settled.map (·.2.crew) := by
    simp only [State.settled, List.map_map]
    rfl
  rw [State.roll, State.roll, hc, h, h, ht]

theorem State.opDone_eq (s : State) (op : Nat) : s.opDone op = { s with ops := (s.opDone op).ops } := by
  unfold State.opDone
  cases SMap.get? s.ops op with
  | none => rfl
  | some o => dsimp only; split <;> rfl

/-- The last piece of an operation clears its flag. -/
theorem State.opDone_last {s : State} {op : Nat} {o : Op} (h : SMap.get? s.ops op = some o) (hl : o.left ≤ 1) :
    SMap.get? (s.opDone op).ops op = none := by
  simp only [State.opDone, h, if_pos hl, SMap.get?_del, if_true]

/-! ## MATRIX_OP_COMPLETE (R126) -/

/-- What an operation of the matrix engine leaves to others: registers, operations, matrix queues, records that wait, crews and threads. -/
def State.bystanders (s : State) : SMap Reg × SMap Op × SMap (List MatOp) × List PendRec × (List Nat × List Nat) :=
  (s.regs, s.ops, s.matQ, s.records, s.roll)

/-- The machine once the head operation has left its queue. -/
def State.popped (s : State) (core : Nat) (rest : List MatOp) : State := s.withMatQ (SMap.setD s.matQ [] core rest)

section
variable {s : State} {core : Nat} {m : MatOp} {rest : List MatOp} {c : Crew} {b : List Byte}

/-- A checked head operation completes in one step, when its own effect leaves every crew its threads and waits for no page. -/
theorem exec_matrixOpComplete (hh : s.headIs core m rest c) (hb : m.block = some b) (hbusy : s.runsBusy core c (s.opRuns core c m b) = false)
    (hcr : s.crewed = true) (hw : s.engineWaits m.iss.uid = false) {s1 : State} (h1 : (s.popped core rest).runMat core c m b = s1)
    (hroll : s1.roll = s.roll) (hpages : s.pagesFor s1 = []) :
    exec (.matrixOpComplete core) s = .next ((s1.opDone m.op).count (cntCore core 1) 1) := by
  obtain ⟨hq, hc⟩ := hh
  have hsettle : (s1.opDone m.op).settleCrew m.iss.crew = s1.opDone m.op := by
    refine State.settleCrew_of_crewed ?_ _
    rw [State.crewed_of_roll (s := s), hcr]
    rw [State.opDone_eq]
    exact hroll
  have hrec : s.pagesFor ((s1.opDone m.op).count (cntCore core 1) 1) = [] := by
    rw [State.opDone_eq]
    exact hpages
  change execMatrixOpComplete core s = _
  simp only [execMatrixOpComplete, State.matHead, hq, hb, hc, hbusy, hw, Bool.or_self, Bool.false_eq_true, if_false]
  change Host.Outcome.next (s.engineStep (((((s.popped core rest).runMat core c m b).opDone m.op).settleCrew m.iss.crew).count (cntCore core 1) 1)) = _
  rw [h1, hsettle, State.engineStep, hrec]
  rfl

/-- A completion whose effect leaves the bystanders as they were. -/
theorem headLeaves_of_bystanders (hh : s.headIs core m rest c) (hb : m.block = some b)
    (hbusy : s.runsBusy core c (s.opRuns core c m b) = false) (hcr : s.crewed = true) (hw : s.engineWaits m.iss.uid = false) {s1 : State}
    (h1 : (s.popped core rest).runMat core c m b = s1) (hby : s1.bystanders = (s.popped core rest).bystanders) {q : State → Prop}
    (hq : ∀ s2 : State, s2.acc = s1.acc → s2.scr = s1.scr → s2.scrTag = s1.scrTag → q s2) :
    headLeaves (.matrixOpComplete core) s core m rest q := by
  obtain ⟨hregs, hops, hmat, hrec, hroll⟩ : s1.regs = s.regs ∧ s1.ops = s.ops ∧ s1.matQ = SMap.setD s.matQ [] core rest ∧
      s1.records = s.records ∧ s1.roll = s.roll := by
    simp only [State.bystanders, Prod.mk.injEq] at hby
    exact hby
  refine ⟨_, exec_matrixOpComplete hh hb hbusy hcr hw h1 hroll (State.pagesFor_same hrec), ?_, ?_, fun o ho hl => ?_, hq _ ?_ ?_ ?_⟩
  · rw [State.opDone_eq]
    change SMap.getD s1.matQ [] core = rest
    rw [hmat, SMap.getD_setD_same]
  · rw [State.opDone_eq]
    exact hregs
  · exact State.opDone_last (s := s1) (hops ▸ ho) hl
  all_goals rw [State.opDone_eq]; rfl

end

/-! ## Accumulator elements -/

/-- Accumulator elements written one after another. -/
def State.accFill (s : State) (l : List (Nat × Reg)) : State :=
  { s with acc := l.foldl (fun a e => SMap.setD a Reg.zero e.1 e.2) s.acc }

theorem foldl_accFill {β : Type} (k : β → Nat) (v : State → β → Reg) (hv : ∀ (s : State) (a : SMap Reg) (x : β), v { s with acc := a } x = v s x) :
    ∀ (l : List β) (s : State), l.foldl (fun (s : State) x => { s with acc := SMap.setD s.acc Reg.zero (k x) (v s x) }) s =
      s.accFill (l.map fun x => (k x, v s x))
  | [], _ => rfl
  | x :: l, s => by
    rw [List.foldl_cons, foldl_accFill k v hv l, List.map_cons]
    simp only [hv]
    rfl

/-- A key at which every write of a list agrees. -/
theorem getD_foldl_setD {α : Type} [DecidableEq α] {d v : α} {k : Nat} : ∀ (l : List (Nat × α)) (a : SMap α), (∀ e ∈ l, e.1 = k → e.2 = v) →
    SMap.getD (l.foldl (fun a e => SMap.setD a d e.1 e.2) a) d k = if k ∈ l.map (·.1) then v else SMap.getD a d k
  | [], _, _ => rfl
  | e :: l, a, h => by
    have hmem : k ∈ (e :: l).map (·.1) ↔ k = e.1 ∨ k ∈ l.map (·.1) := List.mem_cons
    rw [List.foldl_cons, getD_foldl_setD l _ fun e he => h e (List.mem_cons_of_mem _ he), SMap.getD_setD]
    simp only [hmem]
    by_cases hl : k ∈ l.map (·.1)
    · rw [if_pos hl, if_pos (Or.inr hl)]
    · by_cases he : k = e.1
      · rw [if_neg hl, if_pos he, if_pos (Or.inl he), h e List.mem_cons_self he.symm]
      · rw [if_neg hl, if_neg he, if_neg (not_or.mpr ⟨he, hl⟩)]

theorem State.getD_accFill {s : State} {l : List (Nat × Reg)} {k : Nat} {v : Reg} (h : ∀ e ∈ l, e.1 = k → e.2 = v) :
    SMap.getD (s.accFill l).acc Reg.zero k = if k ∈ l.map (·.1) then v else SMap.getD s.acc Reg.zero k := getD_foldl_setD l s.acc h

theorem accKey_inj {core a b : Nat} : accKey core a = accKey core b ↔ a = b := Nat.add_left_cancel_iff

theorem State.matNum_acc (s : State) (a : SMap Reg) (x : MatEnv) (off n : Nat) : ({ s with acc := a } : State).matNum x off n = s.matNum x off n := by
  have h (n b : Nat) : ({ s with acc := a } : State).scrRead x.core b n = s.scrRead x.core b n := by
    induction n generalizing b with
    | zero => rfl
    | succ n ih => rw [State.scrRead, State.scrRead, ih]
  rw [State.matNum, State.matNum, h]

/-! ## ACCLD and ACCZ (R128) -/

theorem State.runAccld_eq (s : State) (x : MatEnv) (m : MatOp) (tile : Nat) : s.runAccld x m tile =
    s.accFill ((List.range 256).map fun i => (accKey x.core (tile * 256 + i),
      ⟨BitVec.ofNat 32 (s.matNum x (m.addr + 4 * i) 4), SMap.getD s.scrTag 0 (granKey x.core (x.crew.phys (m.addr + 4 * i)))⟩)) :=
  foldl_accFill (fun i => accKey x.core (tile * 256 + i)) (fun s i =>
    ⟨BitVec.ofNat 32 (s.matNum x (m.addr + 4 * i) 4), SMap.getD s.scrTag 0 (granKey x.core (x.crew.phys (m.addr + 4 * i)))⟩)
    (fun s a i => by rw [State.matNum_acc]) _ s

theorem State.runAccz_eq (s : State) (core : Nat) (m : MatOp) (tile n : Nat) : s.runAccz core m tile n =
    s.accFill ((List.range (256 * n)).map fun i => (accKey core (tile * 256 + i), ⟨0, m.own⟩)) :=
  foldl_accFill (fun i => accKey core (tile * 256 + i)) (fun _ _ => ⟨0, m.own⟩) (fun _ _ _ => rfl) _ s

theorem State.getD_runAccld {s : State} {x : MatEnv} {m : MatOp} {tile i : Nat} (hi : i < 256) :
    SMap.getD (s.runAccld x m tile).acc Reg.zero (accKey x.core (tile * 256 + i)) =
      ⟨BitVec.ofNat 32 (s.matNum x (m.addr + 4 * i) 4), SMap.getD s.scrTag 0 (granKey x.core (x.crew.phys (m.addr + 4 * i)))⟩ := by
  rw [State.runAccld_eq, State.getD_accFill, if_pos]
  · simp only [List.map_map, List.mem_map, List.mem_range]
    exact ⟨i, hi, rfl⟩
  · simp only [List.mem_map, List.mem_range, forall_exists_index, and_imp]
    rintro e j _ rfl hj
    rw [accKey_inj, Nat.add_left_cancel_iff] at hj
    rw [hj]

theorem State.getD_runAccz {s : State} {core : Nat} {m : MatOp} {tile n k : Nat} : SMap.getD (s.runAccz core m tile n).acc Reg.zero k =
    if accKey core (tile * 256) ≤ k ∧ k < accKey core (tile * 256) + 256 * n then ⟨0, m.own⟩ else SMap.getD s.acc Reg.zero k := by
  rw [State.runAccz_eq, State.getD_accFill (v := ⟨0, m.own⟩)]
  · refine if_congr ?_ rfl rfl
    simp only [List.map_map, List.mem_map, List.mem_range, Function.comp_apply, accKey]
    exact ⟨fun ⟨i, hi, h⟩ => by omega, fun h => ⟨k - (core * 65536 + tile * 256), by omega, by omega⟩⟩
  · simp only [List.mem_map, forall_exists_index, and_imp]
    rintro e i _ rfl _
    rfl

/-! ## ACCHK with no failing line, and INJECT.acc (R130, R132) -/

section
variable {s : State} {core : Nat} {m : MatOp} {rest : List MatOp} {c : Crew} {b : List Byte}

theorem State.wrs_frame (t : Thread) : ∀ (rs : List Reg) (s : State) (a : Nat), s.wrs t a rs = { s with regs := (s.wrs t a rs).regs }
  | [], _, _ => rfl
  | r :: rs, s, a => State.wrs_frame t rs (s.wr t a r) (a + 1)

/-- From `s` to `s1` registers were written: checkpoints may have taken them, and nothing else has changed. -/
def State.landsTo (s s1 : State) : Prop := s1 = { s with regs := s1.regs, threads := s1.threads } ∧ s1.roll = s.roll

theorem State.landsTo_refl (s : State) : s.landsTo s := ⟨rfl, rfl⟩

theorem State.landsTo_trans {s s1 s2 : State} (h : s.landsTo s1) (h2 : s1.landsTo s2) : s.landsTo s2 :=
  ⟨h2.1.trans (by rw [h.1]), h2.2.trans h.2⟩

theorem State.landsTo_landRegs (s : State) (u n d : Nat) (rs : List Reg) : s.landsTo (s.landRegs u n d rs) := by
  unfold State.landRegs
  cases s.thread? u with
  | none => exact s.landsTo_refl
  | some t =>
    dsimp only
    rw [State.wrs_frame]
    exact ⟨rfl, State.roll_modThread _ u _ fun _ => rfl⟩

theorem State.landsTo_ckWrite (m : MatOp) (w : Word) : ∀ (d : List (Nat × Nat)) (s : State), s.landsTo (s.ckWrite m d w)
  | [], s => s.landsTo_refl
  | x :: d, s => by
    refine State.landsTo_trans (s1 := s.ckWrite m [x] w) ?_ (State.landsTo_ckWrite m w d _)
    rw [State.ckWrite, List.foldl_cons, List.foldl_nil]
    cases s.thread? x.1 with
    | none => exact s.landsTo_refl
    | some t =>
      dsimp only
      split
      · exact s.landsTo_refl
      · exact s.landsTo_landRegs x.1 m.number x.2 _

theorem State.rd_ckWrite {u r : Nat} {t : Thread} {w : Word} (ht : s.thread? u = some t) (hd : t.status ≠ .draining) :
    (s.ckWrite m [(u, r)] w).rd t r = ⟨w, m.own⟩ := by
  simp only [State.ckWrite, List.foldl_cons, List.foldl_nil, ht, beq_false_of_ne hd, Bool.false_eq_true, if_false, State.landRegs]
  exact SMap.getD_setD_same ..

/-- ACCHK of a block that agrees with its checksums. -/
theorem matrixOpComplete_acchk {d : List (Nat × Nat)} (hh : s.headIs core m rest c) (hb : m.block = some b)
    (hbusy : s.runsBusy core c (s.opRuns core c m b) = false) (hcr : s.crewed = true) (hw : s.engineWaits m.iss.uid = false)
    (hk : m.kind = .acchk d) (hrows : failing (s.ckLines (m.env core c b)).1 = []) (hcols : failing (s.ckLines (m.env core c b)).2 = []) :
    ∃ s', exec (.matrixOpComplete core) s = .next s' ∧ SMap.getD s'.matQ [] core = rest ∧ s'.mem = s.mem ∧ s'.acc = s.acc ∧ s'.scr = s.scr ∧
      ∀ u r t, d = [(u, r)] → s.thread? u = some t → t.status ≠ .draining → s'.rd t r = ⟨0, m.own⟩ := by
  have hlines : (s.popped core rest).ckLines (m.env core c b) = s.ckLines (m.env core c b) := by
    simp only [State.popped, State.ckLines, State.matNum, State.scrRead_withMatQ]
    rfl
  have hrun : (s.popped core rest).runMat core c m b = (s.popped core rest).ckWrite m d 0 := by
    simp only [State.runMat, hk, State.runAcchk, hlines, hrows, hcols]
    rfl
  obtain ⟨hframe, hroll⟩ := State.landsTo_ckWrite m 0 d (s.popped core rest)
  refine ⟨_, exec_matrixOpComplete hh hb hbusy hcr hw hrun hroll (State.pagesFor_same (by rw [hframe]; rfl)), ?_, ?_, ?_, ?_, fun u r t hd ht hdr => ?_⟩
  case refine_5 =>
    subst hd
    rw [State.opDone_eq]
    exact State.rd_ckWrite (s := s.popped core rest) ht hdr
  all_goals rw [State.opDone_eq, hframe]
  · exact SMap.getD_setD_same ..
  all_goals rfl

theorem putRecord_crews {uid core : Nat} {engine held : Bool} {cid va seq : Nat} {data : List (List Byte)}
    (h : (s.putRecord uid core engine held cid va seq data).live cid = true) : (s.putRecord uid core engine held cid va seq data).crews = s.crews := by
  unfold State.putRecord at h ⊢
  cases hr : s.recWrite cid va data with
  | ok s1 => exact congrArg Prod.fst (State.recWrite_census hr)
  | wait => rfl
  | dead =>
    simp only [hr, log_live, endContext_dead] at h
    cases h

/-- A birth that goes on leaves the crews as they are. -/
theorem birth_crews {i : Issuer} {kind : Nat} {o : BirthOps} {engine early : Bool} (h : (s.birth i kind o engine early).1.live i.ctx = true) :
    (s.birth i kind o engine early).1.crews = s.crews := by
  unfold State.birth at h ⊢
  cases hc : SMap.get? s.ctxs i.ctx with
  | none => rfl
  | some c =>
    rw [hc] at h
    exact putRecord_crews h

/-- INJECT.acc: the birth's record, then the element. -/
theorem matrixOpComplete_inject {t e v : Nat} {g : Tag × Tag} (hh : s.headIs core m rest c) (hb : m.block = some b)
    (hbusy : s.runsBusy core c (s.opRuns core c m b) = false) (hcr : s.crewed = true) (hw : s.engineWaits m.iss.uid = false)
    (hk : m.kind = .inject t e v g) :
    let old := SMap.getD s.acc Reg.zero (accKey core (t * 256 + e))
    let new : Word := old.val ^^^ BitVec.ofNat 32 (2 ^ v)
    let born := s.birth m.iss 7 { va := old.val, vb := BitVec.ofNat 32 v, vc := new, ta := old.tag, tb := g.2 } true false
    s.recorded born.1 m.iss.ctx = true →
    ∃ s', exec (.matrixOpComplete core) s = .next s' ∧ SMap.getD s'.matQ [] core = rest ∧ s'.mem = born.1.mem ∧ s'.regs = born.1.regs ∧
      ∀ k, SMap.getD s'.acc Reg.zero k = if k = accKey core (t * 256 + e) then ⟨new, born.2⟩ else SMap.getD born.1.acc Reg.zero k := by
  intro old new born hrec
  obtain ⟨hlive, hpages⟩ : born.1.live m.iss.ctx = true ∧ s.pagesFor born.1 = [] := by
    simpa [State.recorded] using hrec
  have hrun : (s.popped core rest).runMat core c m b =
      { born.1.withMatQ (SMap.setD s.matQ [] core rest) with acc := SMap.setD born.1.acc Reg.zero (accKey core (t * 256 + e)) ⟨new, born.2⟩ } := by
    simp only [State.runMat, hk]
    have := State.birth_withMatQ (SMap.setD s.matQ [] core rest) hlive
    unfold State.runInject
    dsimp only
    rw [State.popped]
    exact congrArg (fun b : State × Tag => ({ b.1 with acc := SMap.setD b.1.acc Reg.zero (accKey core (t * 256 + e)) ⟨new, b.2⟩ } : State)) this
  have hroll : born.1.roll = s.roll := State.roll_of_settled (birth_crews hlive) (birth_settled _ _ _ _ _ _ hlive)
  refine ⟨_, exec_matrixOpComplete hh hb hbusy hcr hw hrun hroll hpages, ?_, ?_, ?_, fun k => ?_⟩
  all_goals rw [State.opDone_eq]
  · exact SMap.getD_setD_same ..
  · rfl
  · rfl
  · exact SMap.getD_setD ..

end

end Sys2Proof.Machine
end

section
/-! SUPPORT. Scratchpad writes of the matrix engine (R82, R126, R178): what they write and what they leave to others. -/

namespace Sys2Proof.Machine

/-! ## Barrier objects and monitors (R178, R182) -/

theorem State.roll_of_map {s s1 : State} {f : Nat × Crew → Nat × Crew} {g : Nat × Thread → Nat × Thread} (hc : s1.crews = s.crews.map f)
    (ht : s1.threads = s.threads.map g) (hf : ∀ e, (f e).1 = e.1) (hg : ∀ e, (g e).2.crew = e.2.crew) : s1.roll = s.roll := by
  simp only [State.roll, hc, ht, List.map_map]
  congr 1
  · exact List.map_congr_left fun e _ => hf e
  · exact List.map_congr_left fun e _ => hg e

theorem State.wakeMonitors_roll (s : State) (l : Loc) : (s.wakeMonitors l).roll = s.roll := by
  refine State.roll_of_map (f := id) (List.map_id _).symm rfl (fun _ => rfl) fun e => ?_
  dsimp only
  split
  · split <;> rfl
  · rfl

/-- What an access of an engine to scratchpad leaves as it was: the accumulators and the bystanders. -/
def State.outside (s : State) : SMap Reg × (SMap Reg × SMap Op × SMap (List MatOp) × List PendRec × (List Nat × List Nat)) := (s.acc, s.bystanders)

theorem State.outside_of_roll {s s1 : State} (h : s1.roll = s.roll)
    (hf : (s1.acc, s1.regs, s1.ops, s1.matQ, s1.records) = (s.acc, s.regs, s.ops, s.matQ, s.records)) : s1.outside = s.outside := by
  simp only [Prod.mk.injEq] at hf
  obtain ⟨ha, hr, ho, hm, hp⟩ := hf
  rw [State.outside, State.bystanders, ha, hr, ho, hm, hp, h]
  rfl

theorem State.scrWrite_outside (s : State) (c b : Nat) (bs : List Byte) : (s.scrWrite c b bs).outside = s.outside := by
  rw [State.scrWrite_frame]
  rfl

theorem State.wakeMonitors_outside (s : State) (l : Loc) : (s.wakeMonitors l).outside = s.outside :=
  State.outside_of_roll (s.wakeMonitors_roll l) rfl

theorem State.putBar_roll (s : State) (core b : Nat) (x : Bar) :
    (s.putBar core b x).roll = ((s.scrWrite core b x.toBytes).wakeMonitors (.scr core b)).roll := by
  refine State.roll_of_map rfl rfl (fun e => ?_) fun e => ?_
  · split <;> rfl
  · dsimp only
    split
    · split <;> rfl
    · split <;> rfl
    · rfl

theorem State.putBar_outside (s : State) (core b : Nat) (x : Bar) : (s.putBar core b x).outside = s.outside :=
  calc (s.putBar core b x).outside = ((s.scrWrite core b x.toBytes).wakeMonitors (.scr core b)).outside :=
        State.outside_of_roll (s.putBar_roll core b x) rfl
    _ = s.outside := (State.wakeMonitors_outside _ _).trans (s.scrWrite_outside core b x.toBytes)

theorem State.barRetest_outside (s : State) (l : Loc) : (s.barRetest l).outside = s.outside := by
  unfold State.barRetest
  split
  · split
    · split
      · exact State.putBar_outside ..
      · rfl
    · rfl
  · rfl

/-- While no barrier object is in use no write is one to a barrier object. -/
theorem State.barRetest_unused {s : State} (h : (s.crews.all fun e => e.2.objs.isEmpty) = true) (l : Loc) : s.barRetest l = s := by
  unfold State.barRetest
  split
  · next core b _ =>
    cases hc : s.crewAt core b with
    | none => rfl
    | some e =>
      have he := List.all_eq_true.mp h e (List.mem_of_find?_eq_some hc)
      have : e.2.objs = [] := List.isEmpty_iff.mp he
      simp [this]
  · rfl

/-! ## Writes of the engine (R82, R126) -/

theorem State.matWrite_outside (s : State) (x : MatEnv) (off : Nat) (bs : List Byte) (g : Tag) : (s.matWrite x off bs g).outside = s.outside :=
  calc (s.matWrite x off bs g).outside = (s.scrWrite x.core (x.crew.phys off) bs).outside :=
        (State.barRetest_outside _ _).trans (State.wakeMonitors_outside _ _)
    _ = s.outside := s.scrWrite_outside ..

theorem State.matPut_outside (s : State) (x : MatEnv) (off : Nat) (bs : List Byte) (g : Tag) : (s.matPut x off bs g).outside = s.outside := by
  unfold State.matPut
  dsimp only
  split
  · exact s.matWrite_outside ..
  · exact (State.matWrite_outside ..).trans (s.matWrite_outside ..)

theorem State.matRetag_outside (s : State) (x : MatEnv) (off n : Nat) (g : Tag) : (s.matRetag x off n g).outside = s.outside :=
  foldl_keep State.outside (fun (s : State) i => { s with scrTag := SMap.setD s.scrTag 0 (granKey x.core (x.crew.phys (off + i))) g }) (fun _ _ => rfl)
    (List.range n) s

theorem State.writeChecksums_outside (s : State) (x : MatEnv) (own : Tag) (as bs : List MatRow) : (s.writeChecksums x own as bs).outside = s.outside :=
  foldl_keep State.outside _ (fun s _ => s.matWrite_outside ..) _ s

theorem State.writeTop_outside (s : State) (x : MatEnv) (own : Tag) : (s.writeTop x own).outside = s.outside := by
  unfold State.writeTop
  dsimp only
  split
  · rfl
  · refine foldl_keep State.outside _ (fun s i => ?_) _ s
    refine foldl_keep State.outside _ (fun s r => ?_) _ s
    split
    · exact (State.matPut_outside ..).trans ((State.matRetag_outside ..).trans (s.matPut_outside ..))
    · exact (State.matRetag_outside ..).trans (s.matPut_outside ..)

/-- A write to scratchpad that no barrier object is in. -/
theorem State.matWrite_unused {s : State} (h : (s.crews.all fun e => e.2.objs.isEmpty) = true) (x : MatEnv) (off : Nat) (bs : List Byte) (g : Tag) :
    s.matWrite x off bs g =
      (s.writeLoc (.scr x.core (x.crew.phys off)) bs g none (bs.length == 16)).wakeMonitors (Loc.scr x.core (x.crew.phys off)).gran := by
  unfold State.matWrite
  refine State.barRetest_unused (?_ : ((State.wakeMonitors _ _).crews.all fun e => e.2.objs.isEmpty) = true) _
  rw [State.wakeMonitors_crews, State.writeLoc, State.scrWrite_frame]
  exact h

end Sys2Proof.Machine
end

section
/-! SUPPORT. ACCST (R82, R128): the image of a tile, granule by granule. -/

namespace Sys2Proof.Machine

theorem State.scrRead_eq (s : State) (c n b : Nat) : s.scrRead c b n = (List.range n).map fun i => SMap.getD s.scr 0 (scrKey c b + i) := by
  induction n generalizing b with
  | zero => rfl
  | succ n ih =>
    rw [State.scrRead, ih, List.range_succ_eq_map, List.map_cons, List.map_map, scrKey_succ, Nat.add_zero (scrKey c b)]
    exact congrArg (SMap.getD s.scr 0 (scrKey c b) :: ·) (List.map_congr_left fun i _ => by
      rw [Function.comp, Nat.succ_eq_add_one, Nat.add_right_comm, Nat.add_assoc])

/-- What was written is read. -/
theorem State.scrRead_of_getD {s : State} {c b : Nat} {bs : List Byte} (h : ∀ i, i < bs.length → SMap.getD s.scr 0 (scrKey c b + i) = bs.getD i 0) :
    s.scrRead c b bs.length = bs := by
  rw [State.scrRead_eq]
  refine List.ext_getElem (by simp) fun i hi hj => ?_
  rw [List.getElem_map, List.getElem_range, h i hj, List.getD_eq_getElem _ _ hj]

theorem State.scrRead_congr {s s1 : State} {c b n : Nat} (h : ∀ i, i < n → SMap.getD s1.scr 0 (scrKey c b + i) = SMap.getD s.scr 0 (scrKey c b + i)) :
    s1.scrRead c b n = s.scrRead c b n := by
  rw [State.scrRead_eq, State.scrRead_eq]
  exact List.map_congr_left fun i hi => h i (List.mem_range.mp hi)

/-- A whole granule written, on no barrier object: its bytes, its eartag, and no other byte or eartag. -/
structure State.granuleWritten (s s1 : State) (c b : Nat) (bs : List Byte) (g : Tag) : Prop where
  scr : ∀ k, SMap.getD s1.scr 0 k = if scrKey c b ≤ k ∧ k < scrKey c b + 16 then bs.getD (k - scrKey c b) 0 else SMap.getD s.scr 0 k
  tag : ∀ k, SMap.getD s1.scrTag 0 k = if k = granKey c b then g else SMap.getD s.scrTag 0 k
  frame : s1 = { s with scr := s1.scr, scrTag := s1.scrTag, threads := s1.threads }
  roll : s1.roll = s.roll

theorem State.granuleWritten_writeLoc (s : State) (c b : Nat) {bs : List Byte} (hbs : bs.length = 16) (g : Tag) (ta : Option Nat) (l : Loc) :
    s.granuleWritten ((s.writeLoc (.scr c b) bs g ta (bs.length == 16)).wakeMonitors l) c b bs g where
  scr k := by
    rw [State.wakeMonitors_scr, ← hbs]
    exact State.getD_scrWrite c bs s b k
  tag k := by
    rw [State.wakeMonitors_scrTag, State.writeLoc, State.scrWrite_frame, hbs]
    exact SMap.getD_setD ..
  frame := by
    rw [State.writeLoc, State.scrWrite_frame]
    rfl
  roll := by
    rw [State.wakeMonitors_roll, State.writeLoc, State.scrWrite_frame]
    rfl

theorem State.granuleWritten.crews {s s1 : State} {c b : Nat} {bs : List Byte} {g : Tag} (h : s.granuleWritten s1 c b bs g) : s1.crews = s.crews := by
  rw [h.frame]

theorem State.granuleWritten.read {s s1 : State} {c b : Nat} {bs : List Byte} {g : Tag} (h : s.granuleWritten s1 c b bs g) (hbs : bs.length = 16) :
    s1.scrRead c b 16 = bs := by
  rw [← hbs]
  refine State.scrRead_of_getD fun i hi => ?_
  rw [h.scr, if_pos (by omega), Nat.add_sub_cancel_left]

theorem State.granuleWritten.read_apart {s s1 : State} {c b a : Nat} {bs : List Byte} {g : Tag} (h : s.granuleWritten s1 c b bs g)
    (ha : a + 16 ≤ b ∨ b + 16 ≤ a) : s1.scrRead c a 16 = s.scrRead c a 16 := by
  refine State.scrRead_congr fun i hi => ?_
  rw [h.scr, if_neg (by simp only [scrKey]; omega)]

theorem State.granuleWritten.tag_apart {s s1 : State} {c b a : Nat} {bs : List Byte} {g : Tag} (h : s.granuleWritten s1 c b bs g)
    (ha : a / 16 ≠ b / 16) : SMap.getD s1.scrTag 0 (granKey c a) = SMap.getD s.scrTag 0 (granKey c a) := by
  rw [h.tag, if_neg (by simp only [granKey]; omega)]

/-- The bytes of granule `g` of the image of a tile. -/
def State.imageBytes (s : State) (core tile g : Nat) : List Byte :=
  (List.range 4).flatMap fun j => toBytes 4 (SMap.getD s.acc Reg.zero (accKey core (tile * 256 + 4 * g + j))).val.toNat

/-- The eartag of granule `g` of the image of a tile. -/
def State.imageTag (s : State) (core tile g : Nat) : Tag :=
  let gs := (List.range 4).map fun j => (SMap.getD s.acc Reg.zero (accKey core (tile * 256 + 4 * g + j))).tag
  firstA (gs.headD 0) gs

theorem State.imageBytes_length (s : State) (core tile g : Nat) : (s.imageBytes core tile g).length = 16 := by
  simp [State.imageBytes, length_toBytes, List.range_succ]

/-- A granule of FP32 elements is stored as it stands: no element is narrowed, so none is a birth. -/
theorem State.accstGran_plain (s : State) (x : MatEnv) (m : MatOp) (tile g : Nat) : s.accstGran x m false tile (4 * g) 4 =
    s.matWrite x (m.addr + 16 * g) (s.imageBytes x.core tile g) (s.imageTag x.core tile g) := by
  have hi : m.addr + 4 * g * (16 / 4) = m.addr + 16 * g := by omega
  unfold State.accstGran
  rw [hi]
  rfl

theorem State.runAccst_plain (s : State) (x : MatEnv) (m : MatOp) (tile : Nat) : s.runAccst x m false tile =
    (List.range 64).foldl (fun (s : State) g => s.accstGran x m false tile (4 * g) 4) s := rfl

/-- The first `n` granules of the image of a tile. -/
theorem State.accst_granules {s : State} {x : MatEnv} {m : MatOp} {tile : Nat} (hal : m.addr % 16 = 0)
    (hobj : (s.crews.all fun e => e.2.objs.isEmpty) = true) (n : Nat) :
    let s1 := (List.range n).foldl (fun (s : State) g => s.accstGran x m false tile (4 * g) 4) s
    s1.crews = s.crews ∧ s1.outside = s.outside ∧ ∀ g, g < n →
      s1.scrRead x.core (x.crew.phys (m.addr + 16 * g)) 16 = s.imageBytes x.core tile g ∧
      SMap.getD s1.scrTag 0 (granKey x.core (x.crew.phys (m.addr + 16 * g))) = s.imageTag x.core tile g := by
  induction n with
  | zero => exact ⟨rfl, rfl, fun g hg => absurd hg (Nat.not_lt_zero g)⟩
  | succ n ih =>
    rw [List.range_succ, List.foldl_append, List.foldl_cons, List.foldl_nil]
    generalize (List.range n).foldl (fun (s : State) g => s.accstGran x m false tile (4 * g) 4) s = s1 at ih ⊢
    obtain ⟨hcrews, hout, hgran⟩ := ih
    have hacc : s1.acc = s.acc := congrArg Prod.fst hout
    have hbytes : s1.imageBytes x.core tile n = s.imageBytes x.core tile n := by rw [State.imageBytes, hacc]; rfl
    have htag : s1.imageTag x.core tile n = s.imageTag x.core tile n := by rw [State.imageTag, hacc]; rfl
    have hlen := s.imageBytes_length x.core tile n
    have hw := s1.granuleWritten_writeLoc x.core (x.crew.phys (m.addr + 16 * n)) hlen (s.imageTag x.core tile n) none
      (Loc.scr x.core (x.crew.phys (m.addr + 16 * n))).gran
    have hwrite := State.matWrite_unused (s := s1) (by rw [hcrews]; exact hobj) x (m.addr + 16 * n) (s.imageBytes x.core tile n) (s.imageTag x.core tile n)
    dsimp only
    rw [State.accstGran_plain, hbytes, htag]
    refine ⟨?_, (State.matWrite_outside ..).trans hout, fun g hg => ?_⟩
    · rw [hwrite]
      exact hw.crews.trans hcrews
    · rw [hwrite]
      rcases Nat.lt_succ_iff_lt_or_eq.mp hg with hlt | rfl
      · rw [hw.read_apart (by simp only [Crew.phys]; omega), hw.tag_apart (by simp only [Crew.phys]; omega)]
        exact hgran g hlt
      · exact ⟨hw.read hlen, (hw.tag _).trans (if_pos rfl)⟩

end Sys2Proof.Machine
end

section
/-! SUPPORT. The result elements of an MMA (R83, R110, R123), and the obligation about completed matrix operations. -/

namespace Sys2Proof.Machine

/-! ## What an MMA reads -/

section
variable (s : State) (q : SMap (List MatOp)) (x : MatEnv)

theorem State.matNum_withMatQ (off n : Nat) : (s.withMatQ q).matNum x off n = s.matNum x off n := by
  rw [State.matNum, State.scrRead_withMatQ, State.matNum]

theorem State.matRow_withMatQ (i : Nat) : (s.withMatQ q).matRow x i = s.matRow x i := by
  simp only [State.matRow, State.matNum_withMatQ]

theorem State.matElem_withMatQ (row bits i : Nat) (val : Nat → FVal) : (s.withMatQ q).matElem x row bits i val = s.matElem x row bits i val := by
  simp only [State.matElem, State.matNum_withMatQ]
  rfl

theorem State.aRow_withMatQ (i : Nat) : (s.withMatQ q).aRow x i = s.aRow x i := by
  simp only [State.aRow, State.aRowAt, State.matRow_withMatQ, State.matElem_withMatQ]

theorem State.bRow_withMatQ (j : Nat) : (s.withMatQ q).bRow x j = s.bRow x j := by
  simp only [State.bRow, State.keptAt, State.metaWord, State.matNum_withMatQ, State.matElem_withMatQ]

end

/-! ## One result element -/

theorem foldl_trace {α : Type} (f : Nat → α → Nat) : ∀ (l : List α) (r : Nat) (tr : List Nat), tr.getLastD 0 = r →
    (l.foldl (fun (r : Nat × List Nat) u => (f r.1 u, r.2 ++ [f r.1 u])) (r, tr)).2.getLastD 0 = l.foldl f r
  | [], _, _, h => h
  | u :: l, r, tr, _ => foldl_trace f l (f r u) (tr ++ [f r u]) (by simp)

/-- The accumulator after the last unit. -/
theorem accRun_last (f : MatFmt) (mode : Nat) (a b : MatRow) (start n : Nat) :
    (accRun f mode a b start n).getLastD 0 = (List.range n).foldl (fun acc u => addUnit acc (matUnit f mode a b u)) start :=
  foldl_trace (fun acc u => addUnit acc (matUnit f mode a b u)) _ start [start] rfl

section
variable (s : State) (x : MatEnv) (own : Tag) (i j : Nat)

theorem State.matResult_bits : (s.matResult x own (s.aRow x i) (s.bRow x j) i j).bits = x.value s i j := accRun_last ..

/-- The contributors of a result element, the starting accumulator last (R83). -/
def MatEnv.elems : List MatElem := contributors x.f x.b.k (s.aRow x i) (s.bRow x j) ++
  if x.b.acc then [⟨x.start s i j, (SMap.getD s.acc Reg.zero (x.elemKey i j)).tag, fF32.dec (x.start s i j)⟩] else []

theorem MatEnv.parts_eq : x.parts s i j = (x.elems s i j).map fun c => (c.v, c.tag) := by
  rw [MatEnv.parts, MatEnv.elems, List.map_append]
  split <;> rfl

theorem State.matResult_kind :
    (s.matResult x own (s.aRow x i) (s.bRow x j) i j).kind = fF32.birthKind (x.value s i j) ((x.parts s i j).map (·.1)) := by
  rw [MatEnv.parts_eq, List.map_map, ← s.matResult_bits x own i j]
  rfl

theorem State.matResult_tag : (s.matResult x own (s.aRow x i) (s.bRow x j) i j).tag = firstA own ((x.parts s i j).map (·.2)) := by
  rw [MatEnv.parts_eq, List.map_map, firstA, List.find?_map]
  change (((x.elems s i j).find? fun c => isA c.tag).map (·.tag)).getD own = _
  rfl

end

/-- Two result elements with one place in the accumulator are one (R123). -/
theorem MatEnv.elemKey_inj {x : MatEnv} {i j i' j' : Nat} (hn : x.b.n % 16 = 0) (hj : j < x.b.n) (hj' : j' < x.b.n)
    (h : x.elemKey i j = x.elemKey i' j') : i = i' ∧ j = j' := by
  rw [MatEnv.elemKey, MatEnv.elemKey, accKey_inj] at h
  have hlow : i % 16 = i' % 16 ∧ j % 16 = j' % 16 := by omega
  have htile : i / 16 * (x.b.n / 16) + j / 16 = i' / 16 * (x.b.n / 16) + j' / 16 := by omega
  have hq : j / 16 < x.b.n / 16 := by omega
  have hq' : j' / 16 < x.b.n / 16 := by omega
  have hrow : i / 16 = i' / 16 := by
    have h1 := congrArg (· / (x.b.n / 16)) htile
    simpa only [Nat.mul_comm _ (x.b.n / 16), Nat.mul_add_div (Nat.zero_lt_of_lt hq), Nat.div_eq_of_lt hq, Nat.div_eq_of_lt hq', Nat.add_zero] using h1
  have hcol : j / 16 = j' / 16 := by
    rw [hrow] at htile
    exact Nat.add_left_cancel htile
  omega

/-! ## All result elements -/

/-- The results of an MMA whose operands are read from `s`. -/
def State.mmaResults (s : State) (x : MatEnv) (own : Tag) : List MatRes :=
  (((List.range x.b.m).map (s.aRow x)).zipIdx).flatMap fun a =>
    (((List.range x.b.n).map (s.bRow x)).zipIdx).map fun b => s.matResult x own a.1 b.1 a.2 b.2

theorem mem_zipIdx_map_range {α : Type} {f : Nat → α} {n i : Nat} {a : α} : (a, i) ∈ ((List.range n).map f).zipIdx ↔ i < n ∧ a = f i := by
  rw [List.mem_zipIdx_iff_getElem?, List.getElem?_map, Option.map_eq_some_iff]
  constructor
  · rintro ⟨k, hk, rfl⟩
    obtain ⟨hlt, hik⟩ := List.getElem?_eq_some_iff.mp hk
    rw [List.length_range] at hlt
    rw [List.getElem_range] at hik
    exact ⟨hlt, congrArg f hik.symm⟩
  · rintro ⟨hi, rfl⟩
    exact ⟨i, List.getElem?_range hi, rfl⟩

theorem State.mem_mmaResults {s : State} {x : MatEnv} {own : Tag} {r : MatRes} : r ∈ s.mmaResults x own ↔
    ∃ i j, i < x.b.m ∧ j < x.b.n ∧ r = s.matResult x own (s.aRow x i) (s.bRow x j) i j := by
  simp only [State.mmaResults, List.mem_flatMap, List.mem_map, Prod.exists, mem_zipIdx_map_range]
  constructor
  · rintro ⟨_, i, ⟨hi, rfl⟩, _, j, ⟨hj, rfl⟩, rfl⟩
    exact ⟨i, j, hi, hj, rfl⟩
  · rintro ⟨i, j, hi, hj, rfl⟩
    exact ⟨_, i, ⟨hi, rfl⟩, _, j, ⟨hj, rfl⟩, rfl⟩

/-- Results without a birth are written as they are. -/
theorem State.writeResults_plain {s : State} {x : MatEnv} {m : MatOp} {rs : List MatRes} (h : ∀ r ∈ rs, r.kind = 0) :
    s.writeResults x m rs = s.accFill (rs.map fun r => (accKey x.core r.ix, ⟨BitVec.ofNat 32 r.bits, r.tag⟩)) := by
  have hnone : (rs.find? fun r => r.kind != 0) = none := List.find?_eq_none.mpr fun r hr => by simp [h r hr]
  unfold State.writeResults
  simp only [hnone]
  rw [foldl_accFill (fun r : MatRes => accKey x.core r.ix) (fun _ r => ⟨BitVec.ofNat 32 r.bits, if r.kind = 0 then r.tag else 0⟩) fun _ _ _ => rfl]
  exact congrArg s.accFill (List.map_congr_left fun r hr => by rw [if_pos (h r hr)])

section
variable {s : State} {x : MatEnv} {m : MatOp}

theorem State.mmaResults_popped (core : Nat) (rest : List MatOp) :
    ((s.popped core rest).atHead m).mmaResults x m.own = (s.atHead m).mmaResults x m.own := by
  have ha : ((s.popped core rest).atHead m).aRow x = (s.atHead m).aRow x := funext fun i => State.aRow_withMatQ (s.atHead m) _ x i
  have hb : ((s.popped core rest).atHead m).bRow x = (s.atHead m).bRow x := funext fun j => State.bRow_withMatQ (s.atHead m) _ x j
  rw [State.mmaResults, ha, hb]
  rfl

/-- What an MMA writes besides its elements lies in scratchpad. -/
theorem State.runMma_outside (s : State) (x : MatEnv) (m : MatOp) :
    (s.runMma x m).outside = (s.writeResults x m ((s.atHead m).mmaResults x m.own)).outside := by
  unfold State.runMma
  dsimp only
  rw [State.writeTop_outside]
  split
  · exact State.writeChecksums_outside ..
  · rfl

/-- Every element of an MMA without a birth (R83, R110, R123). -/
theorem State.getD_mmaResults {i j : Nat} (hn : x.b.n % 16 = 0) (hi : i < x.b.m) (hj : j < x.b.n) (s1 : State) :
    SMap.getD (s1.accFill ((s.mmaResults x m.own).map fun r => (accKey x.core r.ix, ⟨BitVec.ofNat 32 r.bits, r.tag⟩))).acc Reg.zero (x.elemKey i j) =
      ⟨BitVec.ofNat 32 (x.value s i j), firstA m.own ((x.parts s i j).map (·.2))⟩ := by
  rw [State.getD_accFill, if_pos]
  · rw [List.map_map, List.mem_map]
    exact ⟨_, State.mem_mmaResults.mpr ⟨i, j, hi, hj, rfl⟩, rfl⟩
  · rintro e he hkey
    obtain ⟨r, hr, rfl⟩ := List.mem_map.mp he
    obtain ⟨i', j', hi', hj', rfl⟩ := State.mem_mmaResults.mp hr
    obtain ⟨rfl, rfl⟩ := MatEnv.elemKey_inj (i := i') (j := j') hn hj' hj hkey
    rw [State.matResult_bits, State.matResult_tag]

end

/-- Settles O41: the completion steps the machine by the operation's own effect (`exec_matrixOpComplete`); each effect is computed apart, and
what it writes beside its results leaves the accumulators and the bystanders (`State.outside`). -/
theorem matrixComplete : Obligations.MatrixComplete := by
  intro s core m rest c b hh hb hbusy hcr hw x leaves s0
  refine ⟨fun w hk hn hkind => ?mma, fun t hk => ?accld, fun t n hk => ?accz, fun t hk hal hobj => ?accst,
    fun d hk hrows hcols => matrixOpComplete_acchk hh hb hbusy hcr hw hk hrows hcols, fun t e v g hk => matrixOpComplete_inject hh hb hbusy hcr hw hk⟩
  case mma =>
    have hplain : ∀ r ∈ (s.atHead m).mmaResults x m.own, r.kind = 0 := by
      intro r hr
      obtain ⟨i, j, hi, hj, rfl⟩ := State.mem_mmaResults.mp hr
      rw [State.matResult_kind]
      exact hkind i j hi hj
    have hrun : (s.popped core rest).runMat core c m b = (s.popped core rest).runMma x m := by
      simp only [State.runMat, hk]
      rfl
    have hout := State.runMma_outside (s.popped core rest) x m
    rw [State.mmaResults_popped, State.writeResults_plain hplain] at hout
    refine headLeaves_of_bystanders hh hb hbusy hcr hw hrun (congrArg Prod.snd hout) fun s2 hacc _ _ i j hi hj => ?_
    rw [hacc, show ((s.popped core rest).runMma x m).acc = _ from congrArg Prod.fst hout]
    exact State.getD_mmaResults hn hi hj _
  case accld =>
    have hrun : (s.popped core rest).runMat core c m b = (s.popped core rest).runAccld x m t := by
      simp only [State.runMat, hk]
      rfl
    rw [State.runAccld_eq] at hrun
    refine headLeaves_of_bystanders hh hb hbusy hcr hw hrun rfl fun s2 hacc hscr _ => ⟨hscr, fun i hi => ?_⟩
    rw [hacc, ← State.runAccld_eq]
    exact (State.getD_runAccld hi).trans (by rw [State.popped, State.matNum_withMatQ]; rfl)
  case accz =>
    have hrun : (s.popped core rest).runMat core c m b = (s.popped core rest).runAccz core m t n := by
      simp only [State.runMat, hk]
    rw [State.runAccz_eq] at hrun
    refine headLeaves_of_bystanders hh hb hbusy hcr hw hrun rfl fun s2 hacc hscr _ => ⟨hscr, fun k => ?_⟩
    rw [hacc, ← State.runAccz_eq]
    exact State.getD_runAccz
  case accst =>
    have hrun : (s.popped core rest).runMat core c m b = (s.popped core rest).runAccst x m false t := by
      simp only [State.runMat, hk]
      rfl
    rw [State.runAccst_plain] at hrun
    obtain ⟨_, hout, hgran⟩ := State.accst_granules (s := s.popped core rest) (x := x) (tile := t) hal hobj 64
    generalize (List.range 64).foldl (fun (s : State) g => s.accstGran x m false t (4 * g) 4) (s.popped core rest) = s1 at hrun hout hgran
    refine headLeaves_of_bystanders hh hb hbusy hcr hw hrun (congrArg Prod.snd hout) fun s2 hacc hscr htag =>
      ⟨hacc.trans (congrArg Prod.fst hout), fun g hg => ?_⟩
    obtain ⟨hbytes, htagg⟩ := hgran g hg
    exact ⟨(State.scrRead_congr fun i _ => by rw [hscr]).trans hbytes, (congrArg (SMap.getD · 0 _) htag).trans htagg⟩

end Sys2Proof.Machine
end

section
/-! SUPPORT. Barrier objects in scratchpad (R177 to R179): what is written to one is what is read of it. -/

namespace Sys2Proof.Machine

/-! ## The bytes of a barrier object (R177) -/

/-- The fields fit the object's 16 bytes. -/
structure Bar.fits (x : Bar) : Prop where
  phase : x.phase < 2 ^ 32
  arr : x.arr < 2 ^ 16
  exp : x.exp < 2 ^ 16
  low : -2 ^ 31 ≤ x.bytes
  high : x.bytes < 2 ^ 31
  rest : x.rest < 2 ^ 32

theorem ofBytes_append : ∀ (l r : List Byte), ofBytes (l ++ r) = ofBytes l + 256 ^ l.length * ofBytes r
  | [], r => by simp [ofBytes]
  | b :: l, r => by
    rw [List.cons_append, ofBytes, ofBytes, ofBytes_append l r, List.length_cons, Nat.pow_succ]
    ring

@[simp] theorem Bar.length_toBytes (x : Bar) : x.toBytes.length = 16 := by
  simp [Bar.toBytes, Machine.length_toBytes]

theorem Bar.ofBytes_toBytes (x : Bar) : ofBytes x.toBytes = x.phase % 2 ^ 32 + 2 ^ 32 * (x.arr % 2 ^ 16) + 2 ^ 48 * (x.exp % 2 ^ 16) +
    2 ^ 64 * (wrapInt 32 x.bytes % 2 ^ 32) + 2 ^ 96 * (x.rest % 2 ^ 32) := by
  simp only [Bar.toBytes, ofBytes_append, Machine.ofBytes_toBytes, List.length_append, Machine.length_toBytes]
  omega

theorem sext_wrapInt {x : Int} (hl : -2 ^ 31 ≤ x) (hh : x < 2 ^ 31) : sext 32 (wrapInt 32 x) = x := by
  rw [wrapInt_eq, sext_toNat, BitVec.toInt_ofInt]
  exact Int.bmod_eq_of_le (by omega) (by omega)

/-- The object that 16 bytes hold. -/
def barOf (n : Nat) : Bar := ⟨n % 2 ^ 32, nfld n 48 16, nfld n 32 16, sext 32 (nfld n 64 32), nfld n 96 32⟩

theorem State.barAt_eq (s : State) (core b : Nat) : s.barAt core b = barOf (ofBytes (s.scrRead core b 16)) := rfl

theorem barOf_toBytes {x : Bar} (h : x.fits) : barOf (ofBytes x.toBytes) = x := by
  obtain ⟨phase, exp, arr, bytes, rest⟩ := x
  obtain ⟨hp, ha, he, hl, hh, hr⟩ := h
  dsimp only at hp ha he hl hh hr
  have hw : wrapInt 32 bytes < 2 ^ 32 := by simp only [wrapInt]; omega
  rw [Bar.ofBytes_toBytes, barOf]
  simp only [nfld, Bar.mk.injEq]
  refine ⟨by omega, by omega, by omega, ?_, by omega⟩
  rw [show (phase % 2 ^ 32 + 2 ^ 32 * (arr % 2 ^ 16) + 2 ^ 48 * (exp % 2 ^ 16) + 2 ^ 64 * (wrapInt 32 bytes % 2 ^ 32) + 2 ^ 96 * (rest % 2 ^ 32)) /
    2 ^ 64 % 2 ^ 32 = wrapInt 32 bytes by omega]
  exact sext_wrapInt hl hh

theorem barOf_fits (n : Nat) : (barOf n).fits where
  phase := Nat.mod_lt _ (by decide)
  arr := Nat.mod_lt _ (by decide)
  exp := Nat.mod_lt _ (by decide)
  low := by simp only [barOf, sext]; split <;> omega
  high := by simp only [barOf, sext]; split <;> omega
  rest := Nat.mod_lt _ (by decide)

theorem Bar.setBit_fits {x : Bar} (h : x.fits) {i : Nat} (hi : i < 2) (b : Bool) : (x.setBit i b).fits where
  phase := h.phase
  arr := h.arr
  exp := h.exp
  low := h.low
  high := h.high
  rest := by
    have hr := h.rest
    have hclear : (if x.rest.testBit i then x.rest - 2 ^ i else x.rest) + 2 ^ i < 2 ^ 32 := by
      split
      · next hb =>
        have := Nat.ge_two_pow_of_testBit hb
        omega
      · next hb =>
        rw [Nat.testBit_eq_decide_div_mod_eq, decide_eq_true_eq] at hb
        interval_cases i <;> omega
    simp only [Bar.setBit]
    generalize (if x.rest.testBit i then x.rest - 2 ^ i else x.rest) = r at hclear ⊢
    split
    · exact hclear
    · exact Nat.lt_of_le_of_lt (Nat.le_add_right r _) hclear

theorem Bar.test_fits {x : Bar} (h : x.fits) : x.test.fits := by
  unfold Bar.test
  split
  · exact Bar.setBit_fits h (by decide) _
  · split
    · have hnext : ({ x with phase := (x.phase + 1) % 2 ^ 32, arr := x.exp } : Bar).fits :=
        ⟨Nat.mod_lt _ (by decide), h.exp, h.exp, h.low, h.high, h.rest⟩
      exact Bar.setBit_fits hnext (by decide) _
    · exact h

/-! ## Writing one (R178) -/

theorem State.getD_putBar (s : State) (core b : Nat) (x : Bar) (k : Nat) : SMap.getD (s.putBar core b x).scr 0 k =
    if scrKey core b ≤ k ∧ k < scrKey core b + 16 then x.toBytes.getD (k - scrKey core b) 0 else SMap.getD s.scr 0 k := by
  have h := State.getD_scrWrite core x.toBytes s b k
  rw [Bar.length_toBytes] at h
  exact h

theorem State.putBar_frame (s : State) (core b : Nat) (x : Bar) : s.putBar core b x =
    { s with scr := (s.putBar core b x).scr, crews := (s.putBar core b x).crews, threads := (s.putBar core b x).threads } := by
  unfold State.putBar
  rw [State.scrWrite_frame]
  rfl

theorem State.barAt_putBar {s : State} {core b : Nat} {x : Bar} (h : x.fits) : (s.putBar core b x).barAt core b = x := by
  have hread : (s.putBar core b x).scrRead core b 16 = x.toBytes := by
    rw [← x.length_toBytes]
    exact State.scrRead_of_getD fun i hi => by
      rw [State.getD_putBar, if_pos (by rw [Bar.length_toBytes] at hi; omega), Nat.add_sub_cancel_left]
  rw [State.barAt_eq, hread, barOf_toBytes h]

theorem State.scrRead_putBar_apart {s : State} {core b a : Nat} (x : Bar) (h : a + 16 ≤ b ∨ b + 16 ≤ a) :
    (s.putBar core b x).scrRead core a 16 = s.scrRead core a 16 :=
  State.scrRead_congr fun i hi => by rw [State.getD_putBar, if_neg (by simp only [scrKey]; omega)]

/-- A crew once an object reads `x`: it goes on where it waits on the object as a gang. -/
def State.barCrew (s : State) (core b : Nat) (x : Bar) (k : Nat) (c : Crew) : Crew :=
  if (((s.scrWrite core b x.toBytes).wakeMonitors (.scr core b)).gangDue core b x.phase).contains k then c.gangPassed else c

theorem State.putBar_crews (s : State) (core b : Nat) (x : Bar) :
    (s.putBar core b x).crews = s.crews.map fun e => (e.1, s.barCrew core b x e.1 e.2) := by
  have hcrews : (s.scrWrite core b x.toBytes).crews = s.crews := by rw [State.scrWrite_frame]
  rw [← hcrews]
  refine List.map_congr_left fun e _ => ?_
  unfold State.barCrew
  split <;> rfl

/-- A crew keeps whatever the end of a gang's wait does not touch. -/
theorem State.get?_putBar_crews {β : Type} {v : Crew → β} (hv : ∀ c : Crew, v c.gangPassed = v c) (s : State) (core b : Nat) (x : Bar) (k : Nat) :
    (SMap.get? (s.putBar core b x).crews k).map v = (SMap.get? s.crews k).map v := by
  have hstep (c : Crew) : v (s.barCrew core b x k c) = v c := by
    unfold State.barCrew
    split
    · exact hv c
    · rfl
  rw [State.putBar_crews, SMap.get?_map, Option.map_map]
  exact congrArg (Option.map · _) (funext hstep)

theorem Crew.gangPassed_watch (c : Crew) : c.gangPassed.watch = c.watch := by
  unfold Crew.gangPassed
  split <;> rfl

end Sys2Proof.Machine
end

section
/-! SUPPORT. The copies' engine (R141 to R151): what judging a unit, starting a fired copy and crediting a barrier change. -/

namespace Sys2Proof.Machine

/-! ## Judging a unit (R145, R149) -/

/-- Finding the place of a granule changes the translation caches and counters only. -/
theorem State.copyPlace_quiet (s : State) (i : Issuer) (sp need a : Nat) : (s.copyPlace i sp need a).1.quiet = s.quiet := by
  unfold State.copyPlace
  split
  · next cr l c _ _ _ =>
    have h := s.translate_quiet i.core i.ctx c (a % 2 ^ 48)
    split
    · rfl
    · split
      · split <;> rfl
      · split
        · rfl
        · dsimp only
          split
          · exact h
          · exact h
          · exact h
          · split
            · exact h
            · split <;> exact h
  · rfl

theorem State.copySrc_quiet (i : Issuer) (sp : Nat) : ∀ (fuel : Nat) (s : State) (a n : Nat), (s.copySrc i sp fuel a n).1.quiet = s.quiet
  | 0, _, _, _ => rfl
  | _ + 1, _, _, 0 => rfl
  | fuel + 1, s, a, n + 1 => by
    have hplace := s.copyPlace_quiet i sp 1 a
    unfold State.copySrc
    dsimp only
    split
    · next h => rw [h] at hplace; exact hplace
    · next h => rw [h] at hplace; exact hplace
    · next s1 p h =>
      rw [h] at hplace
      have hrest := (State.copySrc_quiet i sp fuel s1 (a + min (n + 1) (16 - a % 16)) (n + 1 - min (n + 1) (16 - a % 16))).trans hplace
      split
      · exact hplace
      · split
        · exact hplace
        · split
          · exact hplace
          · split
            · next h2 => rw [h2] at hrest; exact hrest
            · exact hrest

/-- Judging a unit changes the translation caches and counters only. -/
theorem State.copyUnit_quiet (s : State) (c : Copy) (k : Nat) : (s.copyUnit c k).1.quiet = s.quiet := by
  have hsrc := State.copySrc_quiet c.iss c.ssp 33 s (c.unit k).sa (c.unit k).sn
  unfold State.copyUnit
  dsimp only
  split
  · next h => rw [h] at hsrc; exact hsrc
  · next h => rw [h] at hsrc; exact hsrc
  · next h => rw [h] at hsrc; exact hsrc
  · next s1 bs tags btags h =>
    rw [h] at hsrc
    have hdst := (s1.copyPlace_quiet c.iss c.dsp 2 (c.unit k).da).trans hsrc
    split
    · next h2 => rw [h2] at hdst; exact hdst
    · next h2 => rw [h2] at hdst; exact hdst
    · next h2 =>
      rw [h2] at hdst
      split
      · exact hdst
      · exact hdst

/-! ## Starting fired copies (R141, R151) -/

/-- From `s` to `s1` copies that had fired were started: no copy that was there has changed, and nothing but the presence counts, the copies
and the armed copies. -/
structure State.starts (s s1 : State) : Prop where
  frame : s1 = { s with pend := s1.pend, copies := s1.copies, nextCopy := s1.nextCopy, armed := s1.armed }
  next : s.nextCopy ≤ s1.nextCopy
  old : ∀ i, i < s.nextCopy → SMap.get? s1.copies i = SMap.get? s.copies i

theorem State.starts_refl (s : State) : s.starts s := ⟨rfl, Nat.le_refl _, fun _ _ => rfl⟩

theorem State.starts.trans {s s1 s2 : State} (h : s.starts s1) (h2 : s1.starts s2) : s.starts s2 where
  frame := h2.frame.trans (by rw [h.frame])
  next := Nat.le_trans h.next h2.next
  old i hi := (h2.old i (Nat.lt_of_lt_of_le hi h.next)).trans (h.old i hi)

theorem State.starts_startCopy (s : State) (c : Copy) : s.starts (s.startCopy c) where
  frame := rfl
  next := Nat.le_succ _
  old _ hi := SMap.get?_put_ne _ _ (Nat.ne_of_lt hi)

theorem State.starts_startFired (core : Nat) : ∀ (l : List Armed) (s : State), s.starts (s.startFired core l)
  | [], s => s.starts_refl
  | a :: l, s => by
    unfold State.startFired
    split
    · exact State.starts_startFired core l s
    · split
      · exact s.starts_refl
      · have hdrop : s.starts { s with armed := SMap.setD s.armed [] core ((SMap.getD s.armed [] core).erase a) } := ⟨rfl, Nat.le_refl _, fun _ _ => rfl⟩
        exact (hdrop.trans (State.starts_startCopy _ _)).trans (State.starts_startFired core l _)

theorem State.starts_startDue (s : State) (core : Nat) : s.starts (s.startDue core) := State.starts_startFired core _ s

/-! ## Crediting a barrier (R179) -/

theorem State.credit_frame (s : State) (crew : Nat) (bar : Option Nat) (n : Nat) : s.credit crew bar n =
    { s with scr := (s.credit crew bar n).scr, crews := (s.credit crew bar n).crews, threads := (s.credit crew bar n).threads } := by
  unfold State.credit
  split
  · exact State.putBar_frame ..
  · rfl

/-- The watchpoints of copies stay (R95). -/
theorem State.credit_watches (s : State) (k crew : Nat) (bar : Option Nat) (n : Nat) :
    (SMap.get? (s.credit crew bar n).crews k).map (·.watch) = (SMap.get? s.crews k).map (·.watch) := by
  unfold State.credit
  split
  · exact State.get?_putBar_crews Crew.gangPassed_watch ..
  · rfl

/-- The watch hit of a copy's accesses reads the watchpoints of its crew and its context. -/
theorem State.watchHit_congr {s s1 : State} {crew ctx : Nat} (hc : (SMap.get? s1.crews crew).map (·.watch) = (SMap.get? s.crews crew).map (·.watch))
    (hx : s1.ctxs = s.ctxs) (uid seen : Nat) (as : List Access) : s1.watchHit uid crew ctx true seen as = s.watchHit uid crew ctx true seen as := by
  have h : s1.watchesOf uid crew ctx true = s.watchesOf uid crew ctx true := by
    simp only [State.watchesOf, hc, hx]
    rfl
  rw [State.watchHit, h, ← State.watchHit]

/-! ## COPY_LANDING (R145) -/

theorem exec_copyLanding {s s1 : State} {i k : Nat} {c : Copy} {x : Landing} (hc : SMap.get? s.copies i = some c) (hm : s.mayLand c k = true)
    (hu : s.copyUnit c k = (s1, .land x)) : exec (.copyLanding i k) s = .next (s.engineStep (s1.land i c k x)) := by
  simp only [State.mayLand, Bool.and_eq_true, Bool.not_eq_true', decide_eq_true_eq, Option.isNone_iff_eq_none] at hm
  obtain ⟨⟨⟨⟨⟨⟨hl, hk⟩, hh⟩, hw⟩, ho⟩, hb⟩, hp⟩ := hm
  change execCopyLanding i k s = _
  simp only [execCopyLanding, hc, hl, decide_eq_false (Nat.not_le.mpr hk), hh, hw, ho, hb, hu, hp, Option.isSome_none, Bool.or_self,
    Bool.false_eq_true, if_false, if_true]

theorem exec_copyLanding_absent {s s1 : State} {i k : Nat} {c : Copy} (hc : SMap.get? s.copies i = some c) (hm : s.mayLand c k = true)
    (hu : s.copyUnit c k = (s1, .absent)) (hall : ∀ j, j < k → c.landed.contains j = true) :
    exec (.copyLanding i k) s = .next { s1 with copies := SMap.put s1.copies i { c with held := some k } } := by
  simp only [State.mayLand, Bool.and_eq_true, Bool.not_eq_true', decide_eq_true_eq, Option.isNone_iff_eq_none] at hm
  obtain ⟨⟨⟨⟨⟨⟨hl, hk⟩, hh⟩, hw⟩, ho⟩, hb⟩, hp⟩ := hm
  have hnone : (List.range k).filter (fun j => !c.landed.contains j) = [] :=
    List.filter_eq_nil_iff.mpr fun j hj => by rw [hall j (List.mem_range.mp hj)]; decide
  change execCopyLanding i k s = _
  simp only [execCopyLanding, hc, hl, decide_eq_false (Nat.not_le.mpr hk), hh, hw, ho, hb, hu, hnone, Option.isSome_none, Bool.or_self,
    Bool.false_eq_true, if_false, if_true, List.isEmpty_nil]

/-! ## Landing a unit (R145, R172, R173) -/

/-- The store a unit without a birth lands as. -/
def Copy.landStore (c : Copy) (i : Nat) (x : Landing) : Store :=
  ⟨c.iss.uid, c.iss.crew, c.iss.ctx, c.iss.core, x.p.loc, x.p.va, x.data.map some, x.tag, x.p.tagAddr, x.p.page, 0, none, 0, i, c.iss, x.half, false⟩

/-- The data of a unit lands: at once on the chip, else in the landing stage. -/
def State.landData (s : State) (c : Copy) (i : Nat) (x : Landing) : State :=
  if x.p.loc.onChip then (s.performStore (c.landStore i x)).winRetag x.p.loc x.btags
  else { s with
    stores := SMap.put s.stores s.nextStore (c.landStore i x), nextStore := s.nextStore + 1
    landing := SMap.put s.landing c.iss.core (SMap.getD s.landing [] c.iss.core ++ [s.nextStore]) }

/-- A unit has landed, in `s` that credited its barrier: from there to `s'` the machine goes on with its counters, its presence counts and
its copies. -/
structure State.landed (s s' : State) (i k : Nat) (c : Copy) : Prop where
  frame : s' = { s with pend := s'.pend, copies := s'.copies, nextCopy := s'.nextCopy, armed := s'.armed, counters := s'.counters }
  copy : ∃ c', SMap.get? s'.copies i = some c' ∧ c'.landed = k :: c.landed

theorem State.landed_of_starts {s s1 s' : State} {i k : Nat} {c c' : Copy}
    (h : s1 = { s with pend := s1.pend, copies := s1.copies, counters := s1.counters }) (hs : s1.starts s') (hi : i < s1.nextCopy)
    (hc : SMap.get? s1.copies i = some c') (hl : c'.landed = k :: c.landed) : s.landed s' i k c where
  frame := by
    have hcount : s'.counters = s1.counters := by rw [hs.frame]
    rw [hcount]
    exact hs.frame.trans (by conv_lhs => rw [h])
  copy := ⟨c', (hs.old i hi).trans hc, hl⟩

/-- The raised lines whose last byte unit `k` was. -/
def State.linesOver (s : State) (c : Copy) (k : Nat) (x : Landing) : List (Nat × Nat) :=
  c.lines.filter fun l => (x.p.loc.line? == some l) && !((List.range c.units).any fun j => !(k :: c.landed).contains j && s.unitLine c j == some l)

/-- A copy once unit `k` has landed, whose raised lines `gone` are lowered. -/
def Copy.withLanded (c : Copy) (k : Nat) (gone : List (Nat × Nat)) (watched : Nat) : Copy :=
  { c with landed := k :: c.landed, lines := c.lines.filter fun l => !gone.contains l, watched := watched }

theorem State.copyWatch_none {s : State} {i : Issuer} {seen : Nat} {as : List Access} (h : s.watchHit i.uid i.crew i.ctx true seen as = none) :
    s.copyWatch i seen as = (s, seen) := by
  rw [State.copyWatch, h]

theorem State.land_eq (s : State) (i k : Nat) (c : Copy) {x : Landing} (hb : x.birth = none) : s.land i c k x =
    let s1 := s.landData c i x
    let s2 := ((s1.credit c.iss.crew c.bar (c.unit k).dn).lowerLines (s1.linesOver c k x)).count (cntCore c.iss.core 2) (c.unit k).dn
    let w := s2.copyWatch c.iss c.watched (c.accesses (c.unit k) x.stags)
    ({ w.1 with copies := SMap.put w.1.copies i (c.withLanded k (s1.linesOver c k x) w.2) } : State).startDue c.iss.core := by
  unfold State.land
  rw [hb]
  rfl

/-- A unit without a birth or a watch hit lands: its data, then its barrier's credit. -/
theorem State.land_quietly {s : State} {i k : Nat} {c : Copy} {x : Landing} (hb : x.birth = none) (hi : i < (s.landData c i x).nextCopy)
    (hw : (s.landData c i x).watchHit c.iss.uid c.iss.crew c.iss.ctx true c.watched (c.accesses (c.unit k) x.stags) = none) :
    ((s.landData c i x).credit c.iss.crew c.bar (c.unit k).dn).landed (s.land i c k x) i k c := by
  rw [State.land_eq s i k c hb]
  generalize s.landData c i x = s1 at hi hw
  dsimp only
  have hframe := s1.credit_frame c.iss.crew c.bar (c.unit k).dn
  have hwatch := s1.credit_watches c.iss.crew c.iss.crew c.bar (c.unit k).dn
  generalize s1.credit c.iss.crew c.bar (c.unit k).dn = s2 at hframe hwatch
  have hctxs : s2.ctxs = s1.ctxs := by rw [hframe]
  have hcopy : s2.nextCopy = s1.nextCopy := by rw [hframe]
  have hquiet := State.copyWatch_none (s := (s2.lowerLines (s1.linesOver c k x)).count (cntCore c.iss.core 2) (c.unit k).dn)
    ((State.watchHit_congr (s := s1) hwatch hctxs _ _ _).trans hw)
  rw [hquiet]
  refine State.landed_of_starts ?_ (State.starts_startDue _ _) ?_ (SMap.get?_put_same ..) rfl
  · rfl
  · rw [← hcopy] at hi
    exact hi

end Sys2Proof.Machine
end

section
/-! SUPPORT. A granule of a plain copy between scratchpads (R83, R145), and a unit for memory (R172). -/

namespace Sys2Proof.Machine

/-! ## Scratchpad granules -/

theorem granKey_gran (c b : Nat) : granKey c (b / 16 * 16) = granKey c b := by
  simp only [granKey]
  omega

theorem twTag_scr (g : Tag) : twTag ((0#8 : BitVec 8) ++ g) = g := by
  refine BitVec.eq_of_getLsbD_eq fun i hi => ?_
  rw [twTag, fld, BitVec.getLsbD_extractLsb', Nat.zero_add, BitVec.getLsbD_append, if_pos hi, decide_eq_true hi, Bool.true_and]

theorem twPoison_scr (g : Tag) : twPoison ((0#8 : BitVec 8) ++ g) = false := by
  rw [twPoison, bit, BitVec.getLsbD_append, if_neg (by omega), BitVec.getLsbD_zero]

/-- A whole granule of scratchpad stored, while no barrier object is in use. -/
theorem State.granuleWritten_performStore {s : State} {x : Store} {bs : List Byte} {c b : Nat}
    (hobj : (s.crews.all fun e => e.2.objs.isEmpty) = true) (hcol : x.color = none) (hhalf : x.half = false) (hdata : x.data = bs.map some)
    (hloc : x.loc = .scr c b) (hbs : bs.length = 16) : s.granuleWritten (s.performStore x) c b bs x.tag := by
  have hne : bs ≠ [] := fun h => by rw [h] at hbs; cases hbs
  have hmask : s.performMasked x.ctx x.va (.scr c b) (bs.map some) x.tag x.tagAddr =
      (s.writeLoc (.scr c b) bs x.tag x.tagAddr (bs.length == 16)).wakeMonitors (.scr c b) := by
    unfold State.performMasked
    simp only [Loc.isScr, if_true, maskRuns_map_some bs 0 hne, wholeGran_map_some, List.foldl_cons, List.foldl_nil, Loc.add_zero]
  have hw := s.granuleWritten_writeLoc c b hbs x.tag x.tagAddr (.scr c b)
  rw [← hmask] at hw
  have hstore : s.performStore x = s.performMasked x.ctx x.va (.scr c b) (bs.map some) x.tag x.tagAddr := by
    simp only [State.performStore, hcol, hhalf, hdata, hloc, Bool.false_eq_true, if_false]
    exact State.barRetest_unused (by rw [hw.crews]; exact hobj) _
  rw [hstore]
  exact hw

/-! ## A unit between scratchpads (R83, R145) -/

section
variable {s : State} {c : Copy} {cr : Crew} {l : Launch} {ctx : Context} {n k : Nat}

theorem State.copyPlace_scr (hcr : SMap.get? s.crews c.iss.crew = some cr) (hl : SMap.get? s.launches c.iss.launch = some l)
    (hctx : SMap.get? s.ctxs c.iss.ctx = some ctx) (need a : Nat) :
    s.copyPlace c.iss 1 need a = (s, .ok ⟨.scr cr.core (cr.phys a), a, none⟩) := by
  simp only [State.copyPlace, hcr, hl, hctx, if_true]

/-- A source granule of scratchpad, whose line has no copy in flight. -/
theorem State.copySrc_granule {i : Issuer} {a core b : Nat} (ha : a % 16 = 0) (hp : s.copyPlace i 1 1 a = (s, .ok ⟨.scr core b, a, none⟩))
    (hbusy : SMap.getD s.pend 0 (lineKey core b) = 0) : s.copySrc i 1 33 a 16 =
      (s, .ok (s.scrRead core b 16) [SMap.getD s.scrTag 0 (granKey core b)] (List.replicate 16 (SMap.getD s.scrTag 0 (granKey core b)))) := by
  have htag : s.granTag ⟨.scr core b, a, none⟩ = SMap.getD s.scrTag 0 (granKey core b) := by
    simp only [State.granTag, Loc.gran, State.twAt, twTag_scr, granKey_gran]
  have hline : s.busyLine (.scr core b) = none := if_pos hbusy
  have hcol : s.copyColour ⟨.scr core b, a, none⟩ a = none := rfl
  have hpoison : twPoison (s.twAt (Loc.scr core b).gran (Place.tagAddr ⟨.scr core b, a, none⟩) (Place.ptag ⟨.scr core b, a, none⟩)) = false := twPoison_scr _
  have hbytes : s.byteTags ⟨.scr core b, a, none⟩ 16 = List.replicate 16 (SMap.getD s.scrTag 0 (granKey core b)) := congrArg (List.replicate 16) htag
  unfold State.copySrc
  simp only [hp, hcol, hpoison, hline, ha, Nat.sub_zero, Nat.min_self, Option.isSome_none, Bool.false_eq_true, if_false]
  have hend : s.copySrc i 1 32 (a + 16) 0 = (s, .ok [] [] []) := rfl
  simp only [Nat.reduceAdd, Nat.sub_self, hend, List.append_nil, htag, hbytes]
  rfl

/-- What a unit of a plain copy between scratchpads lands. -/
def Copy.granLanding (c : Copy) (s : State) (cr : Crew) (k : Nat) : Landing :=
  let g := SMap.getD s.scrTag 0 (granKey cr.core (cr.phys (c.src + 16 * k)))
  ⟨⟨.scr cr.core (cr.phys (c.dst + 16 * k)), c.dst + 16 * k, none⟩, s.scrRead cr.core (cr.phys (c.src + 16 * k)) 16, g, none, false, [g], List.replicate 16 g⟩

theorem State.copyUnit_scr (hk : c.kind = .plain n) (hd : c.dsp = 1) (hs : c.ssp = 1) (ha : c.src % 16 = 0)
    (hcr : SMap.get? s.crews c.iss.crew = some cr) (hl : SMap.get? s.launches c.iss.launch = some l)
    (hctx : SMap.get? s.ctxs c.iss.ctx = some ctx) (hbusy : SMap.getD s.pend 0 (lineKey cr.core (cr.phys (c.src + 16 * k))) = 0) :
    s.copyUnit c k = (s, .land (c.granLanding s cr k)) := by
  have hunit : c.unit k = ⟨c.src + 16 * k, 16, c.dst + 16 * k, 16, 0, 0, false⟩ := by rw [Copy.unit, hk]
  have hsrc := State.copySrc_granule (i := c.iss) (a := c.src + 16 * k) (by omega) (State.copyPlace_scr hcr hl hctx 1 _) hbusy
  unfold State.copyUnit
  simp only [hunit, hs, hd, hsrc, State.copyPlace_scr hcr hl hctx]
  rw [Copy.landing, hk]
  rfl

end

/-! ## Barriers of landed bytes (R179) -/

theorem State.credit_none (s : State) (crew n : Nat) : s.credit crew none n = s := rfl

theorem State.credit_some {s : State} {crew o n : Nat} {cr : Crew} (h : SMap.get? s.crews crew = some cr) : s.credit crew (some o) n =
    s.putBar cr.core (cr.phys o) ({ s.barAt cr.core (cr.phys o) with bytes := (s.barAt cr.core (cr.phys o)).bytes - n } : Bar).test := by
  simp only [State.credit, h]
  rfl

/-! ## The landing of a granule -/

section
variable {s : State} {i k n : Nat} {c : Copy} {cr : Crew} {l : Launch} {ctx : Context}

/-- A granule of a plain copy between scratchpads lands (R83, R144, R145, R179). -/
theorem copyLanding_scr (hc : SMap.get? s.copies i = some c) (hm : s.mayLand c k = true) (hk : c.kind = .plain n) (hd : c.dsp = 1) (hs : c.ssp = 1)
    (hdst : c.dst % 16 = 0) (hsrc : c.src % 16 = 0) (hcr : SMap.get? s.crews c.iss.crew = some cr)
    (hl : SMap.get? s.launches c.iss.launch = some l) (hctx : SMap.get? s.ctxs c.iss.ctx = some ctx) :
    let a := cr.phys (c.src + 16 * k)
    let b := cr.phys (c.dst + 16 * k)
    SMap.getD s.pend 0 (lineKey cr.core a) = 0 → (s.crews.all fun e => e.2.objs.isEmpty) = true →
    (c.bar.all fun o => cr.phys o % 16 == 0 && cr.phys o != b) = true →
    (s.watchHit c.iss.uid c.iss.crew c.iss.ctx true c.watched (c.accesses (c.unit k) [SMap.getD s.scrTag 0 (granKey cr.core a)])).isNone = true →
    i < s.nextCopy →
    ∃ s' c', exec (.copyLanding i k) s = .next s' ∧ s'.scrRead cr.core b 16 = s.scrRead cr.core a 16 ∧
      SMap.getD s'.scrTag 0 (granKey cr.core b) = SMap.getD s.scrTag 0 (granKey cr.core a) ∧
      SMap.get? s'.copies i = some c' ∧ c'.landed = k :: c.landed ∧ s'.mem = s.mem ∧ s'.regs = s.regs ∧
      (c.bar = none → ∀ m, (m < scrKey cr.core b ∨ scrKey cr.core b + 16 ≤ m) → SMap.getD s'.scr 0 m = SMap.getD s.scr 0 m) ∧
      ∀ o, c.bar = some o → -2 ^ 31 + 16 ≤ (s.barAt cr.core (cr.phys o)).bytes →
        s'.barAt cr.core (cr.phys o) = ({ s.barAt cr.core (cr.phys o) with bytes := (s.barAt cr.core (cr.phys o)).bytes - 16 } : Bar).test := by
  intro a b hbusy hobj hbar hw hi
  have hunit : (c.unit k).dn = 16 := by rw [Copy.unit, hk]
  have hlen : (s.scrRead cr.core a 16).length = 16 := by rw [State.scrRead_eq, List.length_map, List.length_range]
  -- The granule is written, and then the barrier is credited.
  have hdata : s.granuleWritten (s.landData c i (c.granLanding s cr k)) cr.core b (s.scrRead cr.core a 16) (SMap.getD s.scrTag 0 (granKey cr.core a)) :=
    State.granuleWritten_performStore (x := c.landStore i (c.granLanding s cr k)) hobj rfl rfl rfl rfl hlen
  have hland := State.land_quietly (s := s) (i := i) (k := k) (c := c) (x := c.granLanding s cr k) rfl (by rw [hdata.frame]; exact hi)
    (by
      have hcrews := congrArg State.crews hdata.frame
      have hctxs := congrArg State.ctxs hdata.frame
      rw [State.watchHit_congr (s := s) (by rw [hcrews]) hctxs]
      exact Option.isNone_iff_eq_none.mp hw)
  have hexec := exec_copyLanding hc hm (State.copyUnit_scr hk hd hs hsrc hcr hl hctx hbusy)
  rw [hunit] at hland
  generalize s.landData c i (c.granLanding s cr k) = s1 at hdata hland
  have hcredit := s1.credit_frame c.iss.crew c.bar 16
  obtain ⟨c', hc', hlanded⟩ := hland.copy
  generalize s.land i c k (c.granLanding s cr k) = s' at hland hexec hc'
  -- What is left as it was.
  have hrec : s'.records = s.records := by rw [hland.frame, hcredit, hdata.frame]
  have hscr : s'.scr = (s1.credit c.iss.crew c.bar 16).scr := by rw [hland.frame]
  have htag : s'.scrTag = s1.scrTag := by rw [hland.frame, hcredit]
  have hread (p : Nat) : s'.scrRead cr.core p 16 = (s1.credit c.iss.crew c.bar 16).scrRead cr.core p 16 :=
    State.scrRead_congr fun _ _ => by rw [hscr]
  have hcr1 : SMap.get? s1.crews c.iss.crew = some cr := by rw [hdata.crews, hcr]
  have hbal : b % 16 = 0 := by simp only [b, Crew.phys]; omega
  refine ⟨s', c', hexec.trans (by rw [State.engineStep, State.pagesFor_same hrec]; rfl), ?_, ?_, hc', hlanded, ?_, ?_, fun hnb m hout => ?_,
    fun o ho hlow => ?_⟩
  · rw [hread]
    cases hb : c.bar with
    | none => exact hdata.read hlen
    | some o =>
      simp only [hb, Option.all_some, Bool.and_eq_true, beq_iff_eq, bne_iff_ne] at hbar
      rw [State.credit_some hcr1, State.scrRead_putBar_apart _ (by omega)]
      exact hdata.read hlen
  · rw [htag, hdata.tag, if_pos rfl]
  · rw [hland.frame, hcredit, hdata.frame]
  · rw [hland.frame, hcredit, hdata.frame]
  · rw [hscr, hnb, State.credit_none, hdata.scr, if_neg (by omega)]
  · simp only [ho, Option.all_some, Bool.and_eq_true, beq_iff_eq, bne_iff_ne] at hbar
    have hold : s1.barAt cr.core (cr.phys o) = s.barAt cr.core (cr.phys o) := by
      rw [State.barAt_eq, hdata.read_apart (by omega), ← State.barAt_eq]
    have hfits : (s.barAt cr.core (cr.phys o)).fits := barOf_fits _
    have hnew : ({ s.barAt cr.core (cr.phys o) with bytes := (s.barAt cr.core (cr.phys o)).bytes - 16 } : Bar).fits :=
      ⟨hfits.phase, hfits.arr, hfits.exp, by have := hfits.low; dsimp only; omega, by have := hfits.high; dsimp only; omega, hfits.rest⟩
    rw [State.barAt_eq, hread, ← State.barAt_eq, ho, State.credit_some hcr1, hold]
    exact State.barAt_putBar (Bar.test_fits hnew)

end

end Sys2Proof.Machine
end

section
/-! SUPPORT. Units for memory, held copies and completed ones (R144, R149, R151, R172); ring tiles (R152); and the obligation about copies. -/

namespace Sys2Proof.Machine

section
variable {s s1 : State} {i k : Nat} {c : Copy}

/-- A unit for memory joins its core's landing stage (R172, R173). -/
theorem copyLanding_memory {x : Landing} (hc : SMap.get? s.copies i = some c) (hm : s.mayLand c k = true) (hu : s.copyUnit c k = (s1, .land x))
    (hloc : x.p.loc.onChip = false) (hb : x.birth = none) (hi : i < s.nextCopy)
    (hw : (s.watchHit c.iss.uid c.iss.crew c.iss.ctx true c.watched (c.accesses (c.unit k) x.stags)).isNone = true) :
    ∃ s' c' st, exec (.copyLanding i k) s = .next s' ∧ SMap.get? s'.copies i = some c' ∧ c'.landed = k :: c.landed ∧
      SMap.getD s'.landing [] c.iss.core = SMap.getD s.landing [] c.iss.core ++ [s.nextStore] ∧ SMap.get? s'.stores s.nextStore = some st ∧
      st.loc = x.p.loc ∧ st.data = x.data.map some ∧ st.tag = x.tag ∧ st.tagAddr = x.p.tagAddr := by
  have hquiet : s1.quiet = s.quiet := by
    have h := s.copyUnit_quiet c k
    rw [hu] at h
    exact h
  have hnext : s1.nextStore = s.nextStore := congrArg (·.nextStore) hquiet
  have hlanding : s1.landing = s.landing := congrArg (·.landing) hquiet
  have hdata : s1.landData c i x = { s1 with
      stores := SMap.put s1.stores s1.nextStore (c.landStore i x), nextStore := s1.nextStore + 1
      landing := SMap.put s1.landing c.iss.core (SMap.getD s1.landing [] c.iss.core ++ [s1.nextStore]) } := by
    simp only [State.landData, hloc, Bool.false_eq_true, if_false]
  have hland := State.land_quietly (s := s1) (i := i) (k := k) hb (by rw [hdata]; exact (congrArg (·.nextCopy) hquiet : s1.nextCopy = _) ▸ hi) (by
    have hcrews : (s1.landData c i x).crews = s.crews := by rw [hdata]; exact congrArg (·.crews) hquiet
    have hctxs : (s1.landData c i x).ctxs = s.ctxs := by rw [hdata]; exact congrArg (·.ctxs) hquiet
    rw [State.watchHit_congr (s := s) (by rw [hcrews]) hctxs]
    exact Option.isNone_iff_eq_none.mp hw)
  have hexec := exec_copyLanding hc hm hu
  obtain ⟨c', hc', hlanded⟩ := hland.copy
  have hcredit := (s1.landData c i x).credit_frame c.iss.crew c.bar (c.unit k).dn
  have hrec : (s1.land i c k x).records = s.records := by
    rw [hland.frame, hcredit, hdata]
    exact congrArg (·.records) hquiet
  refine ⟨_, c', c.landStore i x, hexec.trans (by rw [State.engineStep, State.pagesFor_same hrec]; rfl), hc', hlanded, ?_, ?_, rfl, rfl, rfl, rfl⟩
  · rw [hland.frame, hcredit, hdata, hlanding, hnext]
    exact (SMap.getD_put ..).trans (if_pos rfl)
  · rw [hland.frame, hcredit, hdata, hnext]
    exact SMap.get?_put_same ..

/-- The page a copy holds at is mapped (R149). -/
theorem exec_copyPageResume {x : Landing} (hc : SMap.get? s.copies i = some c) (hh : c.held = some k) (hu : s.copyUnit c k = (s1, .land x))
    (hp : ((SMap.get? s.crews c.iss.crew).map (·.placed)) = some true) :
    exec (.copyPageResume i) s = .next { s with copies := SMap.put s.copies i { c with held := none } } := by
  change execCopyPageResume i s = _
  simp only [execCopyPageResume, hc, hh, hp, hu, bne_self_eq_false, Bool.false_eq_true, if_false]

/-! ## COPY_COMPLETE (R144, R151) -/

/-- The machine once a copy and its operation are gone. -/
def State.copyGone (s : State) (i : Nat) (c : Copy) : State := ({ s with copies := SMap.del s.copies i } : State).opDone c.op

theorem State.copyGone_frame (s : State) (i : Nat) (c : Copy) :
    s.copyGone i c = { s with copies := SMap.del s.copies i, ops := (s.copyGone i c).ops } := State.opDone_eq _ _

/-- A copy that is over, while every crew has a thread. -/
theorem State.endCopy_starts (hcr : s.crewed = true) : State.starts (s.copyGone i c) (s.endCopy i c) := by
  have hs := State.starts_startDue (s.copyGone i c) c.iss.core
  have hkeep : ((s.copyGone i c).startDue c.iss.core).crewed = true := by
    rw [hs.frame, State.copyGone_frame]
    exact hcr
  change State.starts _ (((s.copyGone i c).startDue c.iss.core).settleCrew c.iss.crew)
  rw [State.settleCrew_of_crewed hkeep]
  exact hs

/-- The machine once a complete copy has added to its trigger counter. -/
def State.tenAdded (s : State) (c : Copy) : State :=
  match c.ten with
  | none => s
  | some t => (s.setTrigger c.iss.core t c.iss.ctx ((s.trigVal c.iss.core t + 1) % 2 ^ 32)).1

/-- Setting a trigger counter starts the copies that fire. -/
theorem State.tenAdded_starts (s : State) (c : Copy) : ∃ tr ar, State.starts { s with triggers := tr, armed := ar } (s.tenAdded c) ∧
    (c.ten = none → tr = s.triggers) ∧
    ∀ t, c.ten = some t → tr = SMap.put s.triggers (trigKey c.iss.core t) ⟨(s.trigVal c.iss.core t + 1) % 2 ^ 32, c.iss.ctx⟩ := by
  unfold State.tenAdded
  cases ht : c.ten with
  | none => exact ⟨s.triggers, s.armed, s.starts_refl, fun _ => rfl, fun _ h => by cases h⟩
  | some t =>
    refine ⟨_, _, State.starts_startDue _ _, fun h => ?_, fun t' h => ?_⟩
    · cases h
    · cases h
      rfl

/-- A complete copy leaves, with its flag, and adds 1 to its counter. -/
theorem copyComplete_leaves (hc : SMap.get? s.copies i = some c) (hall : c.complete = true) (hcr : s.crewed = true) (hi : i < s.nextCopy) :
    ∃ s', exec (.copyComplete i) s = .next s' ∧ SMap.get? s'.copies i = none ∧ s'.mem = s.mem ∧ s'.scr = s.scr ∧ s'.regs = s.regs ∧
      (∀ o, SMap.get? s.ops c.op = some o → o.left ≤ 1 → SMap.get? s'.ops c.op = none) ∧ (c.ten = none → s'.triggers = s.triggers) ∧
      ∀ t, c.ten = some t → s'.trigVal c.iss.core t = (s.trigVal c.iss.core t + 1) % 2 ^ 32 := by
  have hexec : exec (.copyComplete i) s = .next ((s.tenAdded c).endCopy i c) := by
    change execCopyComplete i s = _
    simp only [execCopyComplete, hc, hall, Bool.not_true, Bool.false_eq_true, if_false]
    rfl
  obtain ⟨tr, ar, hten, hnone, hsome⟩ := s.tenAdded_starts c
  generalize s.tenAdded c = s1 at hten hexec
  have hend := State.endCopy_starts (s := s1) (i := i) (c := c) (by rw [hten.frame]; exact hcr)
  generalize s1.endCopy i c = s' at hend hexec
  have hops : s'.ops = (s1.copyGone i c).ops := by rw [hend.frame]
  have htr : s'.triggers = tr := by rw [hend.frame, State.copyGone_frame, hten.frame]
  refine ⟨s', hexec, ?_, ?_, ?_, ?_, fun o ho hl => ?_, fun h => htr.trans (hnone h), fun t ht => ?_⟩
  · rw [hend.old i (by rw [State.copyGone_frame]; exact Nat.lt_of_lt_of_le hi hten.next), State.copyGone_frame]
    exact (SMap.get?_del ..).trans (if_pos rfl)
  · rw [hend.frame, State.copyGone_frame, hten.frame]
  · rw [hend.frame, State.copyGone_frame, hten.frame]
  · rw [hend.frame, State.copyGone_frame, hten.frame]
  · rw [hops]
    refine State.opDone_last (o := o) ?_ hl
    rw [hten.frame]
    exact ho
  · rw [State.trigVal, htr, hsome t ht, SMap.get?_put_same]
    rfl

end

/-! ## RING_LANDING (R83, R152) -/

/-- Granule `j` of a tile as a store in its receiver's scratchpad. -/
def Tile.granStore (x : Tile) (c : Crew) (j : Nat) (g : List Byte × Tag) : Store :=
  ⟨x.iss.uid, x.iss.crew, x.iss.ctx, c.core, .scr c.core (c.phys (x.off + 16 * j)), x.off, g.1.map some, g.2, none, 0, 0, none, 0, 0, x.iss, false, false⟩

/-- The granules of a tile from `n` on, stored. -/
def State.putGrans (s : State) (x : Tile) (c : Crew) : Nat → List (List Byte × Tag) → State
  | _, [] => s
  | n, g :: gs => (s.performStore (x.granStore c n g)).putGrans x c (n + 1) gs

theorem State.foldl_putGrans (x : Tile) (c : Crew) : ∀ (gs : List (List Byte × Tag)) (n : Nat) (s : State),
    ((gs.zipIdx n).map fun g => (g.2, g.1)).foldl (fun s j => s.performStore (x.granStore c j.1 j.2)) s = s.putGrans x c n gs
  | [], _, _ => rfl
  | g :: gs, n, s => State.foldl_putGrans x c gs (n + 1) (s.performStore (x.granStore c n g))

/-- The granules of a tile from `n` on have been stored: each is as it came, those before are as they were. -/
structure State.gransPut (s s1 : State) (x : Tile) (c : Crew) (n : Nat) (gs : List (List Byte × Tag)) : Prop where
  frame : s1 = { s with scr := s1.scr, scrTag := s1.scrTag, threads := s1.threads }
  roll : s1.roll = s.roll
  gran : ∀ j g, gs[j]? = some g → s1.scrRead c.core (c.phys (x.off + 16 * (n + j))) 16 = g.1 ∧
    SMap.getD s1.scrTag 0 (granKey c.core (c.phys (x.off + 16 * (n + j)))) = g.2
  before : ∀ j, j < n → s1.scrRead c.core (c.phys (x.off + 16 * j)) 16 = s.scrRead c.core (c.phys (x.off + 16 * j)) 16 ∧
    SMap.getD s1.scrTag 0 (granKey c.core (c.phys (x.off + 16 * j))) = SMap.getD s.scrTag 0 (granKey c.core (c.phys (x.off + 16 * j)))

theorem State.gransPut_putGrans {x : Tile} {c : Crew} (hal : x.off % 16 = 0) : ∀ (gs : List (List Byte × Tag)) (n : Nat) (s : State),
    (s.crews.all fun e => e.2.objs.isEmpty) = true → (gs.all fun g => g.1.length == 16) = true → s.gransPut (s.putGrans x c n gs) x c n gs
  | [], _, s, _, _ => ⟨rfl, rfl, fun _ _ h => by simp at h, fun _ _ => ⟨rfl, rfl⟩⟩
  | g :: gs, n, s, hobj, hlen => by
    obtain ⟨hg, hgs⟩ : g.1.length = 16 ∧ (gs.all fun g => g.1.length == 16) = true := by simpa using hlen
    have hw : s.granuleWritten (s.performStore (x.granStore c n g)) c.core (c.phys (x.off + 16 * n)) g.1 g.2 :=
      State.granuleWritten_performStore (x := x.granStore c n g) hobj rfl rfl rfl rfl hg
    rw [State.putGrans]
    generalize s.performStore (x.granStore c n g) = s1 at hw
    have ih := State.gransPut_putGrans (c := c) hal gs (n + 1) s1 (by rw [hw.crews]; exact hobj) hgs
    refine ⟨ih.frame.trans (by rw [hw.frame]), ih.roll.trans hw.roll, fun j y hy => ?_, fun j hj => ?_⟩
    · cases j with
      | zero =>
        cases hy
        obtain ⟨hread, htag⟩ := ih.before n (Nat.lt_succ_self n)
        exact ⟨hread.trans (hw.read hg), htag.trans ((hw.tag _).trans (if_pos rfl))⟩
      | succ j =>
        have h := ih.gran j y hy
        rw [Nat.add_right_comm] at h
        exact h
    · obtain ⟨hread, htag⟩ := ih.before j (Nat.lt_succ_of_lt hj)
      have hal' : c.phys (x.off + 16 * j) + 16 ≤ c.phys (x.off + 16 * n) := by simp only [Crew.phys]; omega
      refine ⟨hread.trans (hw.read_apart (Or.inl hal')), htag.trans (hw.tag_apart ?_)⟩
      simp only [Crew.phys] at hal' ⊢
      omega

section
variable {s : State} {i crew : Nat} {x : Tile} {c : Crew} {w : RingWait}

/-- The machine once a tile and its receiver's wait are gone. -/
def State.ringDone (s : State) (i : Nat) (w : RingWait) : State :=
  ({ s.lowerLines w.lines with tiles := SMap.del s.tiles i, ringWaits := s.ringWaits.erase w } : State).opDone w.op

theorem State.ringDone_frame (s : State) (i : Nat) (w : RingWait) : s.ringDone i w =
    { s with tiles := SMap.del s.tiles i, ringWaits := s.ringWaits.erase w, pend := (s.ringDone i w).pend, ops := (s.ringDone i w).ops } := by
  rw [State.ringDone, State.opDone_eq]
  rfl

/-- The wait of a tile's receiver ends, with its flag and its presence counts, while every crew has a thread. -/
theorem State.landTile_starts {s1 : State} (hbar : x.bar = none) (hcr : s.crewed = true) (h1 : s.putGrans x c 0 x.grans = s1) (hroll : s1.roll = s.roll) :
    State.starts (s1.ringDone i w) (s.landTile i x crew c w) := by
  have hs := State.starts_startDue (s1.ringDone i w) c.core
  have hland : s.landTile i x crew c w = (((s1.ringDone i w).startDue c.core).settleCrew crew).settleCrew x.iss.crew := by
    rw [← h1, ← State.foldl_putGrans, State.landTile, hbar]
    rfl
  generalize (s1.ringDone i w).startDue c.core = s2 at hs hland
  have hkeep : s2.crewed = true := by
    rw [← hcr, ← State.crewed_of_roll hroll, hs.frame, State.ringDone_frame]
    rfl
  rw [hland, State.settleCrew_of_crewed hkeep, State.settleCrew_of_crewed hkeep]
  exact hs

/-- A tile lands in its receiver's scratchpad (R83, R152). -/
theorem ringLanding_lands (hx : SMap.get? s.tiles i = some x) (hm : s.ringMember x.launch x.gang x.toPos = some (crew, c)) (hp : c.placed = true)
    (hw : s.ringWaitFor x = some w) (hcr : s.crewed = true) (hbar : x.bar = none) (hobj : (s.crews.all fun e => e.2.objs.isEmpty) = true)
    (hal : x.off % 16 = 0) (hlen : (x.grans.all fun g => g.1.length == 16) = true) :
    ∃ s', exec (.ringLanding i) s = .next s' ∧ SMap.get? s'.tiles i = none ∧ s'.ringWaits = s.ringWaits.erase w ∧
      (∀ o, SMap.get? s.ops w.op = some o → o.left ≤ 1 → SMap.get? s'.ops w.op = none) ∧
      ∀ j g, x.grans[j]? = some g → s'.scrRead c.core (c.phys (x.off + 16 * j)) 16 = g.1 ∧
        SMap.getD s'.scrTag 0 (granKey c.core (c.phys (x.off + 16 * j))) = g.2 := by
  have hexec : exec (.ringLanding i) s = .next (s.landTile i x crew c w) := by
    change execRingLanding i s = _
    simp only [execRingLanding, hx, hm, hp, hw, if_true]
  have hput := State.gransPut_putGrans (c := c) hal x.grans 0 s hobj hlen
  have hs := State.landTile_starts (i := i) (crew := crew) (w := w) hbar hcr rfl hput.roll
  generalize s.putGrans x c 0 x.grans = s1 at hput hs
  generalize s.landTile i x crew c w = s' at hs hexec
  have hops : s'.ops = (s1.ringDone i w).ops := by rw [hs.frame]
  have hscr : s'.scr = s1.scr := by rw [hs.frame, State.ringDone_frame]
  have htag : s'.scrTag = s1.scrTag := by rw [hs.frame, State.ringDone_frame]
  refine ⟨s', hexec, ?_, ?_, fun o ho hl => ?_, fun j g hj => ?_⟩
  · rw [hs.frame, State.ringDone_frame]
    exact (SMap.get?_del ..).trans (if_pos rfl)
  · rw [hs.frame, State.ringDone_frame, hput.frame]
  · rw [hops]
    refine State.opDone_last (o := o) ?_ hl
    rw [hput.frame]
    exact ho
  · obtain ⟨hread, hgtag⟩ := hput.gran j g hj
    rw [Nat.zero_add] at hread hgtag
    exact ⟨(State.scrRead_congr fun _ _ => by rw [hscr]).trans hread, (congrArg (SMap.getD · 0 _) htag).trans hgtag⟩

end

/-- Settles O38: a unit lands as its data and then its barrier's credit (`State.land_quietly`), and what is started or settled after it touches
no byte. -/
theorem copiesLand : Obligations.CopiesLand :=
  ⟨fun _ _ _ _ _ _ _ _ hc hm hk hd hs hdst hsrc hcr hl hctx => copyLanding_scr hc hm hk hd hs hdst hsrc hcr hl hctx,
    fun _ _ _ _ _ _ hc hm hu hloc hb hi hw => copyLanding_memory hc hm hu hloc hb hi hw,
    fun _ _ _ _ _ hc hm hu hall => exec_copyLanding_absent hc hm hu hall,
    fun _ _ _ _ _ _ hc hh hu hp => exec_copyPageResume hc hh hu hp,
    fun _ _ _ hc hall hcr hi => copyComplete_leaves hc hall hcr hi,
    fun _ _ _ _ _ _ hx hm hp hw hcr hbar hobj hal hlen => ringLanding_lands hx hm hp hw hcr hbar hobj hal hlen⟩

end Sys2Proof.Machine
end

section
/-! SUPPORT. Instructions of the engines: their checks before the issue (R47, R89, R329); a matrix instruction joins its core's queue (R115,
R116), and the obligation about their issue. -/

namespace Sys2Proof.Machine

/-! ## Lanes of an engine instruction (R47, R89, R329) -/

section
variable {s : State} {e : Env} {t : Thread}

theorem State.noUse_of_base {s1 : State} {t1 : Thread} (hs : s1.base = s.base) (ht : t1.base = t.base) (l : List Nat) :
    s1.noUse t1 l = s.noUse t l := by
  have hreg (v : Nat) : s1.reg t1 v = s.reg t v := by
    rw [reg_of_base ht, State.reg, State.reg, State.rd, State.rd, State.regs_of_base hs]
  simp only [State.noUse, policy_of_base ht, hreg]

/-- The beginning of the slot leaves a lane that may issue an engine instruction one. -/
theorem engineLane_begin {cls : Nat} {anom : List Nat} {t1 : Thread} (hb : t1.base = t.base) (h : engineLane cls anom s e t = true) :
    engineLane cls anom (s.begin e) e t1 = true := by
  rw [engineLane, spec_of_base hb, State.noUse_of_base (State.begin_base s e) hb]
  exact h

/-- A lane of the group passes the checks of an engine instruction. -/
theorem check_of_engineLane {k : Chk} (hn : e.names t k.uses = true) (h : engineLane k.cls k.anom s e t = true) :
    (k.stall && t.spec) = false ∧ s.check e k t = none := by
  simp only [engineLane, State.noUse, Bool.and_eq_true, Bool.or_eq_true, Bool.not_eq_true', bne_iff_ne, List.all_eq_true] at h
  obtain ⟨⟨hspec, hcls⟩, huse⟩ := h
  exact ⟨by rw [hspec, Bool.and_false], check_none hcls hn huse⟩

end

/-! ## Joining the queue (R115) -/

/-- A queue with room takes the operation of a lane whose stores have left its store FIFO. -/
theorem State.joinMatrix_takes {s : State} {e : Env} {t : Thread} (h : s.matrixTakes e t = true) (u : Nat) (group : List Nat) (fb : Bool)
    (kind : MatKind) (addr : Nat) : s.joinMatrix e u t group (e.flag fb) kind addr = .done (s.matrixOut e u t group fb kind addr) := by
  simp only [State.matrixTakes, Bool.and_eq_true, decide_eq_true_eq] at h
  obtain ⟨hfifo, hroom⟩ := h
  have hwait : s.issueWait u t 1 = none := by simp [State.issueWait, hfifo]
  rw [State.joinMatrix, hwait]
  exact if_neg (Nat.not_le.mpr hroom)

/-- An instruction of the group issues as a matrix instruction when its operation joins the queue for lanes that pass their checks. -/
theorem matrixIssues_of_group {i : Instr} {fb : Bool} {k : Chk} {F : Env → State → List (Nat × Thread) → GroupRes}
    {first : State → Env → Nat → Thread → Bool} {kind : State → Env → Nat → Thread → List Nat → MatKind} {addr : State → Thread → Nat}
    (hi : ∀ s, exec i s = s.perGroup 1 (fun _ => k) F) (hk : k.cls = 2)
    (hF : ∀ e s u t l, s.activeWith e = (u, t) :: l → first s e u t = true → s.matrixTakes e t = true →
      F e s ((u, t) :: l) = .done (s.matrixOut e u t (u :: l.map Prod.fst) fb (kind s e u t (u :: l.map Prod.fst)) (addr s t)) []) :
    matrixIssues i fb k.uses k.anom first kind addr := by
  refine onceEffects_of_group (hi := hi) (fun _ _ _ _ hb h => engineLane_begin hb h) (fun e s t hn h => check_of_engineLane hn (hk ▸ h))
    fun e s u t l hl _ hready hfirst => ?_
  obtain ⟨htakes, hfirst⟩ := (Bool.and_eq_true _ _).mp hfirst
  refine ⟨hF e s u t l hl hfirst htakes, State.pagesFor_same rfl, rfl, keepsThreads_refl s, fun x hx => ?_⟩
  obtain ⟨hthread, hin, _, _⟩ := hready x hx
  change s.isInWarp x.1 = true
  simp only [State.isInWarp, hthread, hin, beq_self_eq_true]

/-- An instruction whose lowest lane puts its operation in the queue, with no condition of its own. -/
theorem matrixIssues_of_once {i : Instr} {fb : Bool} {k : Chk} {kind : State → Env → Nat → Thread → List Nat → MatKind} {addr : State → Thread → Nat}
    (hi : ∀ s, exec i s = s.once 1 (fun _ => k) fun e s u t g => s.joinMatrix e u t g (e.flag fb) (kind s e u t g) (addr s t)) (hk : k.cls = 2) :
    matrixIssues i fb k.uses k.anom anyLane kind addr :=
  matrixIssues_of_group (hi := hi) hk fun e s u t l _ _ htakes => by
    dsimp only
    rw [State.joinMatrix_takes htakes]
    rfl

/-! ## MMA and INJECT.acc (R116, R132) -/

/-- No lane loses the vote when the active lanes agree (R116). -/
theorem voteLoser_agreed {s : State} {e : Env} {r : VReg} {w : Word}
    (h : ((s.active e).all fun v => (s.thread? v).any fun x => s.w32 x r == w) = true) : voteLoser s r.toNat w (s.activeWith e) = none := by
  refine List.find?_eq_none.mpr fun x hx => ?_
  obtain ⟨v, hv, hthread⟩ := List.mem_filterMap.mp hx
  obtain ⟨t, ht, rfl⟩ := Option.map_eq_some_iff.mp hthread
  have hword := List.all_eq_true.mp h v hv
  rw [ht, Option.any_some, beq_iff_eq, State.w32] at hword
  simp [hword]

theorem mma_issues (f : FMma) : matrixIssues (.mma f) f.f [⟨2 * f.p.toNat, 2, 1⟩, ⟨f.r.toNat, 1, 1⟩] [2 * f.p.toNat, 2 * f.p.toNat + 1]
    (fun s e _ t => matFmtOk (s.w32 t f.r) && (s.active e).all fun v => (s.thread? v).any fun x => s.w32 x f.r == s.w32 t f.r)
    (fun s _ _ t _ => .mma (s.w32 t f.r)) (fun s t => s.matAddr t (2 * f.p.toNat) f.off.toNat) := by
  refine matrixIssues_of_group (k := matChk (2 * f.p.toNat) f.off.toNat [⟨f.r.toNat, 1, 1⟩]) (F := ?F) (fun s => ?hi) rfl ?hF
  case hi =>
    change execMma f s = _
    unfold execMma
    rfl
  intro e s u t l hl hfirst htakes
  obtain ⟨hfmt, hagree⟩ := (Bool.and_eq_true _ _).mp hfirst
  have hvote : voteLoser s f.r.toNat (s.reg t f.r.toNat).val ((u, t) :: l) = none := hl ▸ voteLoser_agreed hagree
  have hvalid : matFmtOk (s.reg t f.r.toNat).val = true := hfmt
  simp only [hvote, hvalid, State.joinMatrix_takes htakes, Bool.not_true, Bool.false_eq_true, if_false]
  rfl

theorem injectAcc_issues (f : FInjAcc) : matrixIssues (.injectAcc f) f.f [⟨f.a.toNat, 1, 1⟩, ⟨f.b.toNat, 1, 1⟩] [] (fun _ e _ _ => e.c.finj)
    (fun s _ _ t _ => .inject f.tile.toNat (s.w32 t f.a).toNat (s.w32 t f.b).toNat ((s.opd32 t f.a).tag, (s.opd32 t f.b).tag)) (fun _ _ => 0) := by
  refine matrixIssues_of_group (k := { uses := [⟨f.a.toNat, 1, 1⟩, ⟨f.b.toNat, 1, 1⟩], cls := 2, src := some f.a.toNat, stall := true })
    (F := ?F) (fun s => ?hi) rfl ?hF
  case hi =>
    change execInjectAcc f s = _
    unfold execInjectAcc
    rfl
  intro e s u t l _ hfinj htakes
  simp only [hfinj, State.joinMatrix_takes htakes, Bool.not_true, Bool.false_eq_true, if_false]
  rfl

/-- Settles O39: every matrix instruction is one of the group whose lowest lane joins the queue (`matrixIssues_of_group`); an MMA does so when no
lane loses the vote (`voteLoser_agreed`). -/
theorem matrixIssue : Obligations.MatrixIssue :=
  ⟨fun f => ⟨mma_issues f, matrixIssues_of_once (k := matChk (2 * f.p.toNat) f.off.toNat [⟨f.r.toNat, 1, 1⟩]) (fun _ => rfl) rfl⟩,
    fun f => matrixIssues_of_once (k := matChk (2 * f.p.toNat) f.off.toNat []) (fun _ => rfl) rfl,
    fun f => matrixIssues_of_once (k := matChk (2 * f.p.toNat) f.off.toNat []) (fun _ => rfl) rfl,
    fun _ => matrixIssues_of_once (k := { cls := 2, stall := true }) (fun _ => rfl) rfl, injectAcc_issues⟩

end Sys2Proof.Machine
end

section
/-! SUPPORT. The head of a matrix queue (R122): what its checks come to, how an operation that fails one leaves, and the obligation
about the head. -/

namespace Sys2Proof.Machine

/-! ## A fault record that goes on (R232, R237) -/

/-- A fault record that does not end its context leaves the crews and the threads' crews. -/
theorem faultRecord_roll {s : State} {i : Issuer} {x : Trap} {subw : Nat} {held engine : Bool}
    (h : (s.faultRecord i x subw held engine).1.live i.ctx = true) : (s.faultRecord i x subw held engine).1.roll = s.roll := by
  unfold State.faultRecord at h ⊢
  cases hc : SMap.get? s.ctxs i.ctx with
  | none => rfl
  | some c =>
    rw [hc] at h
    exact State.roll_of_settled (putRecord_crews h) (putRecord_settled _ _ _ _ _ _ _ _ _ h)

/-! ## The judgement of the head (R122, R330, R331) -/

section
variable {s : State} {core : Nat} {c : Crew} {m : MatOp}

theorem Crew.imageOk_iff (c : Crew) (a n : Nat) : c.imageOk a n = true ↔ a % 16 = 0 ∧ a < 2 ^ 19 ∧ a + n ≤ 128 * c.lines := by
  simp only [Crew.imageOk, Crew.inside, Bool.and_eq_true, beq_iff_eq, decide_eq_true_eq, and_assoc]

/-- What the checks of a block come to: the first that fails, or the block. -/
def HeadRes.ofChecks (b : List Byte) : Option Nat → HeadRes
  | some n => .abort n
  | none => .ready b

/-- A block operation whose block lies outside the crew's scratchpad, or is not aligned, reads nothing. -/
theorem State.headJudge_outside (hk : (∃ w, m.kind = .mma w) ∨ ∃ d, m.kind = .acchk d) (ho : c.imageOk m.addr 128 = false) :
    s.headJudge core c m = .abort 4 := by
  rcases hk with ⟨w, hk⟩ | ⟨d, hk⟩ <;> simp only [State.headJudge, hk, ho, Bool.not_false, if_true]

theorem State.headJudge_mma {w : Word} (hk : m.kind = .mma w) (ho : c.imageOk m.addr 128 = true) (hq : s.runsBusy core c [(m.addr, 128)] = false)
    (hr : s.runsBusy core c (m.env core c (s.scrRead core (c.phys m.addr) 128)).headRuns = false) :
    s.headJudge core c m =
      .ofChecks (s.scrRead core (c.phys m.addr) 128) (s.mmaFails (m.env core c (s.scrRead core (c.phys m.addr) 128))) := by
  simp only [State.headJudge, hk, ho, hq, hr, Bool.not_true, Bool.false_eq_true, if_false]
  rfl

theorem State.headJudge_acchk {d : List (Nat × Nat)} (hk : m.kind = .acchk d) (ho : c.imageOk m.addr 128 = true)
    (hq : s.runsBusy core c [(m.addr, 128)] = false) :
    s.headJudge core c m =
      .ofChecks (s.scrRead core (c.phys m.addr) 128) (acchkFails c (m.env core c (s.scrRead core (c.phys m.addr) 128)).b) := by
  simp only [State.headJudge, hk, ho, hq, Bool.not_true, Bool.false_eq_true, if_false]
  rfl

theorem State.headJudge_accld {t : Nat} (hk : m.kind = .accld t) :
    s.headJudge core c m = if c.imageOk m.addr 1024 then .ready [] else .abort 4 := by
  simp only [State.headJudge, hk]

theorem State.headJudge_accst {bf : Bool} {t : Nat} (hk : m.kind = .accst bf t) :
    s.headJudge core c m = if c.imageOk m.addr (if bf then 512 else 1024) then .ready [] else .abort 4 := by
  simp only [State.headJudge, hk]

theorem State.headJudge_accz {t n : Nat} (hk : m.kind = .accz t n) :
    s.headJudge core c m = if t + n ≤ 256 then .ready [] else .abort 3 := by
  simp only [State.headJudge, hk]

theorem State.headJudge_inject {t e b : Nat} {g : Tag × Tag} (hk : m.kind = .inject t e b g) :
    s.headJudge core c m = if 255 < e ∨ 32 ≤ b then .abort 9 else .ready [] := by
  simp only [State.headJudge, hk, Bool.or_eq_true, decide_eq_true_eq]

end

/-! ## MATRIX_OP_HEAD -/

section
variable {s : State} {core n : Nat} {m : MatOp} {rest : List MatOp} {c : Crew} {b : List Byte}

/-- A head operation that is ready keeps its block and what was read beside it. -/
theorem exec_matrixOpHead_ready (hh : s.headIs core m rest c) (hb : m.block = none) (hj : s.headJudge core c m = .ready b) :
    exec (.matrixOpHead core) s = .next { s with
      matQ := SMap.put s.matQ core ({ m with block := some b, head := (s.headCopy core c m b).1, headTag := (s.headCopy core c m b).2 } :: rest) } := by
  obtain ⟨hq, hc⟩ := hh
  change execMatrixOpHead core s = _
  simp only [execMatrixOpHead, State.matHead, hq, hb, hc, hj]

/-- While every crew has a thread, an operation leaves its queue and clears its flag, and no crew completes. -/
theorem State.matPop_of_crewed (h : s.crewed = true) : s.matPop core m rest = (s.popped core rest).opDone m.op := by
  refine State.settleCrew_of_crewed ?_ _
  rw [State.opDone_eq]
  exact h

/-- A head operation that fails a check leaves its queue with its record, when every crew has a thread and the record is written at once. -/
theorem exec_matrixOpHead_abort (hh : s.headIs core m rest c) (hb : m.block = none) (hj : s.headJudge core c m = .abort n) :
    let r := (s.faultRecord m.iss { num := 15, cause := n, addr := m.addr } (2 ^ m.iss.lane) false true).1
    s.recorded r m.iss.ctx = true → s.crewed = true → s.engineWaits m.iss.uid = false →
    ∃ s', exec (.matrixOpHead core) s = .next s' ∧ SMap.getD s'.matQ [] core = rest ∧ s'.mem = r.mem ∧ s'.regs = r.regs ∧ s'.acc = r.acc := by
  intro r hrec hcr hw
  obtain ⟨hq, hc⟩ := hh
  obtain ⟨hlive, hpages⟩ := (Bool.and_eq_true _ _).mp hrec
  have hexec : exec (.matrixOpHead core) s = .next (s.engineStep (s.matAbort core m rest n)) := by
    change execMatrixOpHead core s = _
    simp only [execMatrixOpHead, State.matHead, hq, hb, hc, hj, hw, Bool.false_eq_true, if_false]
  rw [State.matAbort, State.matPop_of_crewed, State.opDone_eq] at hexec
  · exact ⟨_, hexec.trans (congrArg Host.Outcome.next (if_pos hpages)), SMap.getD_setD_same .., rfl, rfl, rfl⟩
  · refine (State.crewed_of_roll (Eq.trans ?_ (faultRecord_roll hlive))).trans hcr
    exact State.roll_modThread _ _ _ fun _ => rfl

end

/-- Settles O40: the head is judged once (`State.headJudge_mma` and its like), and goes on as the judgement says (`exec_matrixOpHead_ready`,
`exec_matrixOpHead_abort`). -/
theorem matrixHead : Obligations.MatrixHead := by
  intro s core m rest c hh hb block x ready aborts image quiet
  have hready {b : List Byte} (h : s.headJudge core c m = .ready b) : ready b := exec_matrixOpHead_ready hh hb h
  have habort {n : Nat} (h : s.headJudge core c m = .abort n) : aborts n := exec_matrixOpHead_abort hh hb h
  have hin {n : Nat} (h : image n) : c.imageOk m.addr n = true := (c.imageOk_iff m.addr n).mpr h
  have hout {n : Nat} (h : ¬ image n) : c.imageOk m.addr n = false := Bool.eq_false_iff.mpr fun hi => h ((c.imageOk_iff m.addr n).mp hi)
  refine ⟨fun w hk => ⟨fun hi hq hr hf => hready ?_, fun hi hq hr n hf => habort ?_, fun ho => habort ?_⟩,
    fun d hk => ⟨fun hi hq hf => hready ?_, fun hi hq n hf => habort ?_, fun ho => habort ?_⟩,
    fun t hk => ⟨fun hi => hready ?_, fun ho => habort ?_⟩, fun bf t hk => ⟨fun hi => hready ?_, fun ho => habort ?_⟩,
    fun t n hk => ⟨fun hi => hready ?_, fun ho => habort ?_⟩, fun t e b g hk => ⟨fun he hv => hready ?_, fun ho => habort ?_⟩⟩
  -- MMA
  · rw [State.headJudge_mma hk (hin hi) hq hr, hf]; rfl
  · rw [State.headJudge_mma hk (hin hi) hq hr, hf]; rfl
  · exact State.headJudge_outside (.inl ⟨w, hk⟩) (hout ho)
  -- ACCHK
  · rw [State.headJudge_acchk hk (hin hi) hq, hf]; rfl
  · rw [State.headJudge_acchk hk (hin hi) hq, hf]; rfl
  · exact State.headJudge_outside (.inr ⟨d, hk⟩) (hout ho)
  -- ACCLD and ACCST
  · rw [State.headJudge_accld hk, hin hi, if_pos rfl]
  · rw [State.headJudge_accld hk, hout ho, if_neg Bool.false_ne_true]
  · rw [State.headJudge_accst hk, hin hi, if_pos rfl]
  · rw [State.headJudge_accst hk, hout ho, if_neg Bool.false_ne_true]
  -- ACCZ
  · rw [State.headJudge_accz hk, if_pos hi]
  · rw [State.headJudge_accz hk, if_neg (by omega)]
  -- INJECT.acc
  · rw [State.headJudge_inject hk, if_neg (by omega)]
  · rw [State.headJudge_inject hk, if_pos ho]

end Sys2Proof.Machine
end

section
/-! SUPPORT. What an operation issued once for the group leaves alone (R329), and the obligation about the trigger counters (R150, R433). -/

namespace Sys2Proof.Machine

/-! ## The lanes, the warps, the records and the watchpoints -/

/-- `s1` has the warps and the records of `s`, its threads but for their levels, and its watchpoints. -/
structure State.sameLanes (s s1 : State) : Prop where
  warps : s1.warps = s.warps
  records : s1.records = s.records
  threads : ∀ u, (s1.thread? u).map Thread.unleveled = (s.thread? u).map Thread.unleveled
  crews : ∀ k, (SMap.get? s1.crews k).map Crew.watch = (SMap.get? s.crews k).map Crew.watch
  ctxs : ∀ k, (SMap.get? s1.ctxs k).map Context.watch = (SMap.get? s.ctxs k).map Context.watch

section
variable {s s1 s2 : State}

theorem State.sameLanes_refl (s : State) : s.sameLanes s := ⟨rfl, rfl, fun _ => rfl, fun _ => rfl, fun _ => rfl⟩

theorem State.sameLanes.trans (h : s.sameLanes s1) (h2 : s1.sameLanes s2) : s.sameLanes s2 where
  warps := h2.warps.trans h.warps
  records := h2.records.trans h.records
  threads u := (h2.threads u).trans (h.threads u)
  crews k := (h2.crews k).trans (h.crews k)
  ctxs k := (h2.ctxs k).trans (h.ctxs k)

theorem State.sameLanes_ite {p : Prop} [Decidable p] (h1 : s.sameLanes s1) (h2 : s.sameLanes s2) : s.sameLanes (if p then s1 else s2) := by
  split
  · exact h1
  · exact h2

theorem State.sameLanes_of_unacquired (h : s1.unacquired = s.unacquired) : s.sameLanes s1 where
  warps := (congrArg State.warps h :)
  records := (congrArg State.records h :)
  threads := State.unacquired_thread h
  crews k := congrArg (fun m => (SMap.get? m k).map Crew.watch) (congrArg State.crews h :)
  ctxs k := congrArg (fun m => (SMap.get? m k).map Context.watch) (congrArg State.ctxs h :)

theorem State.sameLanes_of_uncached (h : s1.uncached = s.uncached) : s.sameLanes s1 where
  warps := (congrArg State.warps h :)
  records := (congrArg State.records h :)
  threads u := congrArg (fun m => (SMap.get? m u).map Thread.unleveled) (congrArg State.threads h :)
  crews k := congrArg (fun m => (SMap.get? m k).map Crew.watch) (congrArg State.crews h :)
  ctxs k := congrArg (fun m => (SMap.get? m k).map Context.watch) (congrArg State.ctxs h :)

theorem State.sameLanes_of_starts (h : s.starts s1) : s.sameLanes s1 := by
  rw [h.frame]
  exact ⟨rfl, rfl, fun _ => rfl, fun _ => rfl, fun _ => rfl⟩

/-- A change of a crew that keeps its watchpoints. -/
theorem State.sameLanes_modCrew (s : State) (k : Nat) (f : Crew → Crew) (h : ∀ c, (f c).watch = c.watch) :
    s.sameLanes { s with crews := SMap.mod s.crews k f } where
  warps := rfl
  records := rfl
  threads _ := rfl
  crews j := by
    rw [SMap.get?_mod]
    split
    · rw [Option.map_map]
      exact congrArg (fun g => (SMap.get? s.crews j).map g) (funext h)
    · rfl
  ctxs _ := rfl

theorem State.sameLanes_log (s : State) (cid type status cause id where_ : Nat) : s.sameLanes (s.log cid type status cause id where_) where
  warps := rfl
  records := rfl
  threads _ := rfl
  crews _ := rfl
  ctxs j := by
    rw [State.log, State.logItem, SMap.get?_mod]
    split
    · rw [Option.map_map]
      rfl
    · rfl

/-- Setting a trigger counter starts copies that fire, and nothing else (R151). -/
theorem State.sameLanes_setTrigger (s : State) (core c ctx val : Nat) : s.sameLanes (s.setTrigger core c ctx val).1 := by
  refine State.sameLanes.trans ?_ (State.sameLanes_of_starts (State.starts_startDue _ core))
  exact ⟨rfl, rfl, fun _ => rfl, fun _ => rfl, fun _ => rfl⟩

theorem State.sameLanes.status (h : s.sameLanes s1) {u : Nat} {t : Thread} (ht : s.thread? u = some t) :
    ∃ t1, s1.thread? u = some t1 ∧ t1.status = t.status := by
  have hu := h.threads u
  rw [ht] at hu
  obtain ⟨t1, ht1, hb⟩ := Option.map_eq_some_iff.mp hu
  exact ⟨t1, ht1, (congrArg Thread.status hb :)⟩

theorem State.sameLanes.watchHit (h : s.sameLanes s1) (u crew ctx : Nat) (copies : Bool) (seen : Nat) (as : List Access) :
    s1.watchHit u crew ctx copies seen as = s.watchHit u crew ctx copies seen as := by
  have hthread := congrArg (Option.map Thread.watch) (h.threads u)
  rw [Option.map_map, Option.map_map] at hthread
  have hwatches : s1.watchesOf u crew ctx copies = s.watchesOf u crew ctx copies := by
    simp only [State.watchesOf, h.crews, h.ctxs, show (s1.thread? u).map (·.watch) = (s.thread? u).map (·.watch) from hthread]
  rw [State.watchHit, hwatches, ← State.watchHit]

end

/-- An instruction that issues once has the effect `f`, when `f` is what its lowest lane comes to and leaves the lanes alone. -/
theorem onceEffects_of_sameLanes {i : Instr} {n : Nat} {k : Chk} {G : Env → State → Nat → Thread → List Nat → LaneRes}
    {lane : State → Env → Thread → Bool} {first : State → Env → Nat → Thread → Bool} {f : State → Env → Nat → Thread → List Nat → State}
    (hi : ∀ s, exec i s = s.once n (fun _ => k) G)
    (hlane : ∀ s e t t1, t1.base = t.base → lane s e t = true → lane (s.begin e) e t1 = true)
    (hchk : ∀ e s t, e.names t k.uses = true → lane s e t = true → (k.stall && t.spec) = false ∧ s.check e k t = none)
    (hrun : ∀ e s u t us, s.thread? u = some t → first s e u t = true → G e s u t us = .done (f s e u t us) ∧ s.sameLanes (f s e u t us)) :
    onceEffects i n k.uses lane first f :=
  onceEffects_of_once (hi := hi) hlane hchk fun e s u t us ht _ hfirst => by
    obtain ⟨hG, hsame⟩ := hrun e s u t us ht hfirst
    exact ⟨hG, State.pagesFor_same hsame.records, hsame.warps, fun _ _ hv => hsame.status hv⟩

/-! ## TRIG and TRIGRST (R150, R433) -/

/-- A lane of TRIG or TRIGRST that may name its counter, its release over, sets it. -/
theorem trigSlot_once {i : Instr} {reset : Bool} {c v : VReg} (hi : ∀ s, exec i s = trigSlot reset c v s) :
    onceEffects i 1 [⟨c.toNat, 1, 1⟩, ⟨v.toNat, 1, 1⟩] (fun _ _ t => !t.spec)
      (fun s e u t => decide ((s.w32 t c).toNat < 64) && s.trigOwn e.core (s.w32 t c).toNat e.crew.ctx && s.released u t 1)
      (fun s e u t _ =>
        let n := (s.w32 t c).toNat
        let old := s.trigVal e.core n
        let new := if reset then (s.w32 t v).toNat else (old + (s.w32 t v).toNat) % 2 ^ 32
        let r := s.setTrigger e.core n e.crew.ctx new
        if reset && ((SMap.getD r.1.armed [] e.core).any fun a => a.ctr == n && !a.due) then
          r.1.log e.crew.ctx 12 1 new (old * 2 ^ 32 + n * 256 + min r.2 255) (r.1.whereOf (e.issuer u t))
        else r.1) := by
  refine onceEffects_of_sameLanes (k := { uses := [⟨c.toNat, 1, 1⟩, ⟨v.toNat, 1, 1⟩], src := some c.toNat, stall := true }) (hi := hi)
    (fun s e t t1 hb h => ?_) (fun e s t hn hok => ?_) fun e s u t us ht hfirst => ⟨?_, ?_⟩
  · rw [spec_of_base hb]
    exact h
  · rw [Bool.not_eq_true'] at hok
    exact ⟨by rw [hok, Bool.and_false], check_none rfl hn (Or.inr (by simp))⟩
  · simp only [Bool.and_eq_true, decide_eq_true_eq] at hfirst
    obtain ⟨⟨hlimit, hown⟩, hreleased⟩ := hfirst
    unfold State.w32 at hlimit hown ⊢
    dsimp only
    rw [if_neg (Nat.not_le.mpr hlimit), hown, if_neg (by decide), State.releaseTry_released ht hreleased]
    exact (apply_ite LaneRes.done _ _ _).symm
  · have hset := State.sameLanes_setTrigger s e.core (s.w32 t c).toNat e.crew.ctx
    exact State.sameLanes_ite ((hset _).trans (State.sameLanes_log ..)) (hset _)

/-- Settles O36: both instructions are `trigSlot`, whose lowest lane sets the counter once its release is over (`trigSlot_once`). -/
theorem triggerCounters : Obligations.TriggerCounters := by
  unfold Obligations.TriggerCounters
  intro i c v reset hi
  simp only [List.mem_cons, List.not_mem_nil, or_false, Prod.mk.injEq] at hi
  obtain ⟨rfl, rfl⟩ | ⟨rfl, rfl⟩ := hi
  · exact trigSlot_once fun _ => rfl
  · exact trigSlot_once fun _ => rfl

end Sys2Proof.Machine
end

section
/-! SUPPORT. The issue of the copy engines' instructions (R144 to R148, R150 to R152, R353 to R357, R420, R421), and the obligation about it. -/

namespace Sys2Proof.Machine

/-! ## What the steps of an issue leave alone -/

section
variable (s : State)

theorem State.sameLanes_newOp (lanes : List Nat) (flag : Option Nat) (left : Nat) : s.sameLanes (s.newOp lanes flag left).1 :=
  ⟨rfl, rfl, fun _ => rfl, fun _ => rfl, fun _ => rfl⟩

theorem State.sameLanes_nameTrigger (ctx core c : Nat) : s.sameLanes (s.nameTrigger ctx core c) :=
  ⟨rfl, rfl, fun _ => rfl, fun _ => rfl, fun _ => rfl⟩

theorem State.sameLanes_noteRemote (crew sp a : Nat) : s.sameLanes (s.noteRemote crew sp a) :=
  State.sameLanes_ite (State.sameLanes_modCrew s crew _ fun _ => rfl) s.sameLanes_refl

theorem State.sameLanes_copyRemote (crew : Nat) (c : Copy) : s.sameLanes (s.copyRemote crew c) :=
  State.sameLanes_ite (s.sameLanes_noteRemote ..) ((s.sameLanes_noteRemote ..).trans (State.sameLanes_noteRemote ..))

end

/-- The granules a callee writes join its forks' levels only (R201). -/
theorem State.noteWrite_unacquired (gs : List Loc) : ∀ (n : Nat) (s : State) (u : Nat), (s.noteWrite gs n u).unacquired = s.unacquired
  | 0, _, _ => rfl
  | n + 1, s, u => by
    unfold State.noteWrite
    split
    · rfl
    · exact (State.noteWrite_unacquired gs n _ _).trans (State.modThread_unacquired s _ _ fun _ => rfl)

theorem State.sameLanes_noteWrite (s : State) (gs : List Loc) (n u : Nat) : s.sameLanes (s.noteWrite gs n u) :=
  State.sameLanes_of_unacquired (State.noteWrite_unacquired gs n s u)

theorem State.sameLanes_named (s : State) (e : Env) (c : Copy) : s.sameLanes (s.named e c) := by
  unfold State.named
  cases c.ten with
  | none => exact s.sameLanes_refl
  | some n => exact s.sameLanes_nameTrigger _ _ n

theorem State.sameLanes_copyOut (s : State) (e : Env) (u : Nat) (group : List Nat) (flag : Option Nat) (c : Copy) :
    s.sameLanes (s.copyOut e u group flag c) :=
  (((s.sameLanes_newOp group flag 1).trans (State.sameLanes_copyRemote _ _ _)).trans (State.sameLanes_noteWrite _ _ 8 u)).trans
    (State.sameLanes_of_starts (State.starts_startCopy _ c))

theorem State.sameLanes_armOut (s : State) (e : Env) (u ctr thr : Nat) (c : Copy) : s.sameLanes (s.armOut e u ctr thr c) := by
  have hnoted := ((s.sameLanes_named e c).trans (State.sameLanes_copyRemote _ e.crewId c)).trans (State.sameLanes_noteWrite _ (s.copyGrans c) 8 u)
  refine (hnoted.trans ?_).trans (State.sameLanes_setTrigger _ e.core ctr e.crew.ctx _)
  exact ⟨rfl, rfl, fun _ => rfl, fun _ => rfl, fun _ => rfl⟩

/-- Once a copy has been armed or issued, no watchpoint is hit that was not hit before, and the lane is done (R94). -/
theorem State.watched_of_unwatched {s s1 : State} {e : Env} {u : Nat} {t : Thread} {as : List Access} (h : s.sameLanes s1)
    (hw : s.unwatched e u t as = true) (s0 : State) : s0.watched s1 e u t as = .done s1 := by
  simp only [State.unwatched, Bool.and_eq_true, Option.isNone_iff_eq_none] at hw
  obtain ⟨hhit, hheld⟩ := hw
  rw [State.watched, h.watchHit, hhit, hheld]
  rfl

/-- An engine instruction has the effect `f`, once for the group, when `f` is what its lowest lane comes to and leaves the lanes alone (R354). -/
theorem engineIssues_of_once {i : Instr} {n : Nat} {k : Chk} {G : Env → State → Nat → Thread → List Nat → LaneRes}
    {first : State → Env → Nat → Thread → Bool} {f : State → Env → Nat → Thread → List Nat → State}
    (hi : ∀ s, exec i s = s.once n (fun _ => k) G) (hk : k.cls = 1)
    (hrun : ∀ e s u t us, first s e u t = true → G e s u t us = .done (f s e u t us) ∧ s.sameLanes (f s e u t us)) :
    onceEffects i n k.uses (engineLane 1 k.anom) first f :=
  onceEffects_of_sameLanes (hi := hi) (fun _ _ _ _ hb h => engineLane_begin hb h) (fun _ _ _ hn h => check_of_engineLane hn (hk ▸ h))
    fun e s u t us _ hfirst => hrun e s u t us hfirst

/-- Checks 2 to 5 of CPYT, CPYA and RING, whose address is that of a pair (R354). -/
def pairChk (pv off : Nat) (uses : List Use) (anom : List Nat) : Chk :=
  { uses := uses, cls := 1, anom := anom, acause := 4, src := some pv, addr := some (pv, off), stall := true }

/-! ## CPY and CPYCV (R146, R353 to R355) -/

/-- An engine that takes a copy takes it with an operation of its own (R144, R354). -/
theorem State.issueCopy_takes {s : State} {u : Nat} {t : Thread} {c : Copy} (h : s.engineTakes u t c = true) (e : Env) (group : List Nat)
    (flag : Option Nat) : s.issueCopy e u t group flag c = .done (s.copyOut e u group flag { c with op := s.nextOp }) := by
  simp only [State.engineTakes, Bool.and_eq_true, Option.isNone_iff_eq_none] at h
  obtain ⟨hwait, hfits⟩ := h
  rw [State.issueCopy, hwait]
  dsimp only
  rw [hfits, if_neg (by decide)]
  rfl

/-- A check that no operand there fails gives no trap. -/
theorem bind_none_of_all {α β : Type} {o : Option α} {f : α → Option β} (h : (o.all fun b => (f b).isNone) = true) : o.bind f = none :=
  Option.bind_eq_none_iff.mpr fun b hb => Option.isNone_iff_eq_none.mp ((Option.all_eq_true _ _).mp h b hb)

/-- Legal operands pass the checks of CPY and CPYCV: a count of 0 does nothing, another is issued (R146, R354). -/
theorem copyLane_legal {m : CpyArgs} {s : State} {e : Env} {t : Thread} (h : m.legal s e t = true) (u : Nat) (group : List Nat) :
    copyLane m e s u t group = if (s.reg t m.n).val.toNat = 0 then .done s else
      s.issueCopy e u t group (e.flag m.fb) { m.job s e u t with op := 0 } := by
  obtain ⟨hmain, hbar⟩ := (Bool.and_eq_true _ _).mp h
  have hnobar : (m.bar.map fun b => s.cpyAt t 1 b.1 b.2).bind (s.copyAddr e 1 16 16) = none :=
    bind_none_of_all (by rw [← hbar]; cases m.bar <;> rfl)
  unfold copyLane CpyArgs.job
  cases hcv : m.cv with
  | none =>
    rw [hcv] at hmain
    simp only [Bool.and_eq_true, beq_iff_eq, decide_eq_true_eq, Option.isNone_iff_eq_none] at hmain
    obtain ⟨⟨⟨⟨⟨hcount, hmax⟩, hdst⟩, hsrc⟩, hd⟩, hs⟩ := hmain
    simp only [hcount, hdst, hsrc, hd, hs, hnobar, decide_eq_false (Nat.not_lt.mpr hmax), bne_self_eq_false, Bool.or_self, Bool.false_eq_true, if_false]
  | some x =>
    rw [hcv] at hmain
    simp only [Bool.and_eq_true, beq_iff_eq, decide_eq_true_eq, Option.isNone_iff_eq_none] at hmain
    obtain ⟨⟨⟨⟨⟨hcount, hmax⟩, hdst⟩, hsrc⟩, hd⟩, hs⟩ := hmain
    have hpos : ((s.reg t m.n).val.toNat == 0) = false := beq_false_of_ne (Nat.ne_of_gt hcount)
    simp only [hpos, hdst, hsrc, hd, hs, hnobar, decide_eq_false (Nat.not_lt.mpr hmax), bne_self_eq_false, Bool.or_self, Bool.false_eq_true, if_false]

theorem copyIssues_of_once {i : Instr} {n : Nat} {m : CpyArgs} (hi : ∀ s, exec i s = s.once n (fun _ => m.chk) (copyLane m)) : copyIssues i n m := by
  refine ⟨engineIssues_of_once hi rfl fun e s u t us hfirst => ⟨?_, State.sameLanes_copyOut ..⟩,
    engineIssues_of_once hi rfl fun e s u t us hfirst => ⟨?_, s.sameLanes_refl⟩⟩
  · simp only [Bool.and_eq_true, bne_iff_ne] at hfirst
    obtain ⟨⟨hlegal, hcount⟩, htakes⟩ := hfirst
    have hpos : (s.reg t m.n).val.toNat ≠ 0 := fun h => hcount (BitVec.eq_of_toNat_eq h)
    rw [copyLane_legal hlegal, if_neg hpos]
    exact State.issueCopy_takes (c := { m.job s e u t with op := 0 }) htakes e us _
  · simp only [Bool.and_eq_true, beq_iff_eq] at hfirst
    obtain ⟨⟨hlegal, _⟩, hcount⟩ := hfirst
    rw [copyLane_legal hlegal, if_pos (by rw [hcount]; rfl)]

/-! ## CPYT and CPYA (R147, R148, R150, R151, R356, R357) -/

section
variable {s s1 : State} {e : Env} {u : Nat} {t : Thread} {pv off : Nat} {d : State × List Byte × List Tag}

/-- A descriptor that is read is aligned, and its read and the lane's acquire leave the lanes and the registers alone (R168, R354). -/
theorem State.descAt_some (h : s.descAt e u t pv off = some d) : ∃ s1, ((s.pair t pv).1.toNat + off) % 2 ^ 64 % 64 = 0 ∧
    s.readBlock e u t pv 4 (((s.pair t pv).1.toNat + off) % 2 ^ 64) = (s1, .ok d.2.1 d.2.2) ∧ d.1 = s1.wokenAcquire u t ∧
    s.sameLanes d.1 ∧ d.1.pair t pv = s.pair t pv := by
  unfold State.descAt at h
  dsimp only at h
  split at h
  · cases h
  · next hal =>
    split at h
    · next s1 bs tags hread =>
      cases h
      have hcache := State.readBlock_uncached e u t pv 4 s (((s.pair t pv).1.toNat + off) % 2 ^ 64)
      rw [hread] at hcache
      have hacq := State.wokenAcquire_unacquired s1 u t
      have hregs : (s1.wokenAcquire u t).regs = s.regs := (congrArg State.regs hacq :).trans (congrArg State.regs hcache :)
      refine ⟨s1, by simpa using hal, hread, rfl, (State.sameLanes_of_uncached hcache).trans (State.sameLanes_of_unacquired hacq), ?_⟩
      simp only [State.pair, State.reg, State.rd, hregs]
    · cases h

/-- The checks that a legal descriptor passes (R91, R148, R150, R354). -/
structure TensorChecks (s : State) (e : Env) (u : Nat) (t : Thread) (names : List Nat) (bs : List Byte) (tags : List Tag) : Prop where
  policy : (if t.policy == 2 then tags.find? isA else none) = none
  named : ∀ n ∈ names, n < 64
  own : ((names ++ (parseTensor bs).copy.ten.toList).any fun n => !s.trigOwn e.core n e.crew.ctx) = false
  ok : (parseTensor bs).ok = true
  addr : s.tensorAddr e { (parseTensor bs).copy with iss := e.issuer u t } = none

theorem State.tensorLegal_checks {names : List Nat} {bs : List Byte} {tags : List Tag} (h : s.tensorLegal e u t pv off names bs tags = true) :
    TensorChecks s e u t names bs tags ∧ s.unwatched e u t (blockAccess (((s.pair t pv).1.toNat + off) % 2 ^ 64) tags) = true := by
  simp only [State.tensorLegal, Bool.and_eq_true, List.all_eq_true, decide_eq_true_eq, Option.isNone_iff_eq_none] at h
  obtain ⟨⟨⟨⟨⟨hpolicy, hnamed⟩, hown⟩, hok⟩, haddr⟩, hunwatched⟩ := h
  refine ⟨⟨?_, hnamed, ?_, hok, haddr⟩, hunwatched⟩
  · split
    · next hp =>
      rw [bne, hp, Bool.not_true, Bool.false_or, List.all_eq_true] at hpolicy
      exact List.find?_eq_none.mpr fun g hg hA => by simpa [hA] using hpolicy g hg
    · rfl
  · exact List.any_eq_false.mpr fun n hn => by simpa using hown n hn

/-- Where a granule of a copy lies does not depend on the trigger counters. -/
theorem State.copyPlace_triggers (s : State) (tr : SMap Trigger) (i : Issuer) (sp need a : Nat) :
    (State.copyPlace { s with triggers := tr } i sp need a).2 = (s.copyPlace i sp need a).2 := by
  have htrans (c : Context) : (State.translate { s with triggers := tr } i.core i.ctx c (a % 2 ^ 48)).2 = (s.translate i.core i.ctx c (a % 2 ^ 48)).2 := by
    rw [State.translate_snd, State.translate_snd]
    rfl
  have hmember (cr : Crew) (l : Launch) : State.xTarget { s with triggers := tr } cr l a = s.xTarget cr l a := rfl
  simp only [State.copyPlace, htrans, hmember]
  repeat' split
  all_goals rfl

/-- Naming a counter leaves an engine as free as it was (R144, R150). -/
theorem State.engineTakes_named (s : State) (e : Env) (c0 : Copy) (u : Nat) (t : Thread) (c : Copy) :
    (s.named e c0).engineTakes u t c = s.engineTakes u t c := by
  have htriggers (tr : SMap Trigger) : State.engineTakes { s with triggers := tr } u t c = s.engineTakes u t c := by
    have hlines : State.copyLines { s with triggers := tr } c = s.copyLines c := by
      unfold State.copyLines State.unitLine
      simp only [State.copyPlace_triggers]
    rw [State.engineTakes, State.copyFits, hlines]
    rfl
  unfold State.named
  cases c0.ten with
  | none => rfl
  | some n => exact htriggers _

/-- CPYT issues the copy of a legal descriptor (R357). -/
theorem tensorLane_issues (hd : s.descAt e u t pv off = some d) (hl : d.1.tensorLegal e u t pv off [] d.2.1 d.2.2 = true)
    (ht : d.1.engineTakes u t (e.tensorJob u t d.1.nextOp d.2.1) = true) (fb : Bool) (group : List Nat) :
    let c := e.tensorJob u t d.1.nextOp d.2.1
    tensorLane pv off none fb e s u t group = .done ((d.1.named e c).copyOut e u group (e.flag fb) c) ∧
      s.sameLanes ((d.1.named e c).copyOut e u group (e.flag fb) c) := by
  intro c
  obtain ⟨s1, hal, hread, hd1, hsame, hpair⟩ := State.descAt_some hd
  obtain ⟨hc, hunwatched⟩ := State.tensorLegal_checks hl
  rw [hpair] at hunwatched
  have hout := (d.1.sameLanes_named e c).trans (State.sameLanes_copyOut _ e u group (e.flag fb) c)
  have hissue : (d.1.named e c).issueCopy e u t group (e.flag fb) { (parseTensor d.2.1).copy with iss := e.issuer u t } =
      .done ((d.1.named e c).copyOut e u group (e.flag fb) c) := by
    have hnext : (d.1.named e c).nextOp = d.1.nextOp := by
      unfold State.named
      cases c.ten <;> rfl
    rw [State.issueCopy_takes (by rw [State.engineTakes_named]; exact ht), hnext]
    rfl
  refine ⟨?_, hsame.trans hout⟩
  unfold tensorLane
  have hlimit : ¬ 64 ≤ 0 := by decide
  have hnamed : (parseTensor d.2.1).copy.ten.toList.foldl (fun (s : State) n => s.nameTrigger e.crew.ctx e.core n) d.1 = d.1.named e c := rfl
  simp only [hal, hread, ← hd1, hc.policy, hc.own, hc.ok, hc.addr, hnamed, hissue, hlimit, bne_self_eq_false, Bool.not_true,
    Bool.false_eq_true, if_false]
  exact State.watched_of_unwatched hout hunwatched d.1

/-- CPYA arms the copy of a legal descriptor (R151, R356). -/
theorem tensorLane_arms {ctr thr : Nat} (hd : s.descAt e u t pv off = some d)
    (hl : d.1.tensorLegal e u t pv off [(s.reg t ctr).val.toNat] d.2.1 d.2.2 = true)
    (hw : d.1.issueWait u t (e.tensorJob u t 0 d.2.1).ssp = none) (hroom : (SMap.getD d.1.armed [] e.core).length < 256) (fb : Bool) (group : List Nat) :
    let s2 := d.1.armOut e u (s.reg t ctr).val.toNat (s.reg t thr).val.toNat (e.tensorJob u t 0 d.2.1)
    tensorLane pv off (some (ctr, thr)) fb e s u t group = .done s2 ∧ s.sameLanes s2 := by
  intro s2
  obtain ⟨s1, hal, hread, hd1, hsame, hpair⟩ := State.descAt_some hd
  obtain ⟨hc, hunwatched⟩ := State.tensorLegal_checks hl
  rw [hpair] at hunwatched
  have hout : d.1.sameLanes s2 := State.sameLanes_armOut ..
  refine ⟨?_, hsame.trans hout⟩
  have hlimit : ¬ 64 ≤ (s.reg t ctr).val.toNat := Nat.not_le.mpr (hc.named _ (List.mem_singleton_self _))
  have hwait : d.1.issueWait u t (parseTensor d.2.1).copy.ssp = none := hw
  have hnamed : (parseTensor d.2.1).copy.ten.toList.foldl (fun (s : State) n => s.nameTrigger e.crew.ctx e.core n) d.1 =
      d.1.named e (e.tensorJob u t 0 d.2.1) := rfl
  unfold tensorLane
  simp only [hal, hread, ← hd1, hc.policy, hc.own, hc.ok, hc.addr, hnamed, hlimit, hwait, Nat.not_le.mpr hroom, bne_self_eq_false,
    Bool.not_true, Bool.false_eq_true, if_false]
  exact State.watched_of_unwatched hout hunwatched d.1

end

theorem cpyt_issues (f : FCpyT) : let pv := 2 * f.p.toNat
    let off := 64 * f.off.toNat
    onceEffects (.cpyt f) 1 [⟨pv, 2, 1⟩] (engineLane 1 [pv, pv + 1])
      (fun s e u t => (s.descAt e u t pv off).any fun d =>
        d.1.tensorLegal e u t pv off [] d.2.1 d.2.2 && d.1.engineTakes u t (e.tensorJob u t d.1.nextOp d.2.1))
      (fun s e u t group => match s.descAt e u t pv off with
        | none => s
        | some d =>
          let c := e.tensorJob u t d.1.nextOp d.2.1
          (d.1.named e c).copyOut e u group (e.flag f.f) c) := by
  intro pv off
  refine engineIssues_of_once (k := pairChk pv off [⟨pv, 2, 1⟩] [pv, pv + 1]) (fun _ => rfl) rfl fun e s u t us hfirst => ?_
  obtain ⟨d, hd, hfirst⟩ := (Option.any_eq_true _ _).mp hfirst
  obtain ⟨hlegal, htakes⟩ := (Bool.and_eq_true _ _).mp hfirst
  rw [hd]
  exact tensorLane_issues hd hlegal htakes f.f us

theorem copyArm_issues {i : Instr} {n pv off c h : Nat} {fb : Bool} (hi : ∀ s, exec i s = copyArm n pv off c h fb s) :
    armIssues i n pv (64 * off) c h := by
  refine engineIssues_of_once (k := pairChk pv (64 * off) [⟨pv, 2, 1⟩, ⟨c, 1, 1⟩, ⟨h, 1, 1⟩] [pv, pv + 1]) hi rfl
    fun e s u t us hfirst => ?_
  obtain ⟨d, hd, hfirst⟩ := (Option.any_eq_true _ _).mp hfirst
  simp only [Bool.and_eq_true, Option.isNone_iff_eq_none, decide_eq_true_eq] at hfirst
  obtain ⟨⟨hlegal, hwait⟩, hroom⟩ := hfirst
  rw [hd]
  exact tensorLane_arms hd hlegal hwait hroom fb us

/-! ## RING (R152, R420, R421) -/

theorem State.sameLanes_sendTile (s : State) (e : Env) (u : Nat) (t : Thread) (group : List Nat) (flag : Option Nat) (k : CrewGang) (x : Gang)
    (off n : Nat) (bar : Option Nat) : s.sameLanes (s.sendTile e u t group flag k x off n bar) := by
  refine ⟨rfl, rfl, fun _ => rfl, (State.sameLanes_modCrew s e.crewId _ ?_).crews, fun _ => rfl⟩
  exact fun _ => rfl

theorem ringSlot_issues {i : Instr} {n pv off vn vg : Nat} {fb : Bool} (hi : ∀ s, exec i s = ringSlot n pv off vn vg fb s) :
    ringIssues i n pv off vn vg fb := by
  dsimp only [ringIssues]
  refine engineIssues_of_once (k := pairChk pv off [⟨pv, 2, 1⟩, ⟨vn, 1, 1⟩, ⟨vg, 1, 1⟩] [pv, pv + 1, vn]) hi rfl
    fun e s u t us hfirst => ?_
  simp only [Bool.and_eq_true, beq_iff_eq, decide_eq_true_eq, Option.isNone_iff_eq_none] at hfirst
  set a := ((s.pair t pv).1.toNat + off) % 2 ^ 64 with ha
  set len := (s.reg t vn).val.toNat with hlen
  set ctl := (s.reg t vg).val.toNat with hc
  obtain ⟨⟨⟨⟨⟨⟨⟨⟨⟨⟨hmult, hpos⟩, hmax⟩, hctl⟩, htile⟩, hbar⟩, hgang⟩, hentry⟩, hfifo⟩, hlines⟩, hwatch⟩ := hfirst
  obtain ⟨k, hk⟩ := Option.isSome_iff_exists.mp (List.find?_isSome.mpr (List.any_eq_true.mp hgang))
  obtain ⟨x, hx⟩ := Option.isSome_iff_exists.mp hentry
  have hsend := State.sameLanes_sendTile s e u t us (e.flag fb) k x a len (ringBar ctl)
  rw [hk, hx]
  refine ⟨?_, hsend⟩
  have hlow : ((scrLines e.core (e.crew.phys a) len).any fun l => SMap.getD s.pend 0 (l.1 * 4096 + l.2) != 0) = false := by
    simpa [List.any_eq_false] using hlines
  have hsome : (len == 0) = false := beq_false_of_ne (Nat.ne_of_gt hpos)
  have hwait : s.issueWait u t 1 = none := by simp [State.issueWait, hfifo]
  have hnobar := bind_none_of_all hbar
  have hnamed : (if ctl.testBit 8 then some (16 * nfld ctl 9 15) else none) = ringBar ctl := rfl
  simp only [ringLane, ← ha, ← hlen, ← hc, hnamed, hmult, hsome, decide_eq_false (Nat.not_lt.mpr hmax), hctl, htile, hnobar, hk, hx, hwait, hlow,
    bne_self_eq_false, Bool.or_self, Bool.false_eq_true, if_false]
  rw [State.copyWatch_none (i := e.issuer u t) ((hsend.watchHit u e.crewId e.crew.ctx true 0 _).trans hwatch)]

/-- Settles O37: each instruction of the copy engines issues once for the group (`engineIssues_of_once`), and what its lowest lane comes to is the
copy an engine takes (`copyLane_legal`, `tensorLane_issues`), the copy it arms (`tensorLane_arms`) or the tile it sends (`ringSlot_issues`). -/
theorem copiesIssue : Obligations.CopiesIssue :=
  ⟨fun _ => copyIssues_of_once fun _ => rfl, fun _ => copyIssues_of_once fun _ => rfl, fun _ => copyIssues_of_once fun _ => rfl, cpyt_issues,
    fun _ => copyArm_issues (off := 0) fun _ => rfl, fun _ => copyArm_issues fun _ => rfl, fun _ => ringSlot_issues fun _ => rfl,
    fun _ => ringSlot_issues fun _ => rfl⟩

end Sys2Proof.Machine
end

section
/-! SUPPORT. The read step of a load (R163, R386, R387). -/

namespace Sys2Proof.Machine

/-- A word's eartag is its low 24 bits (R82). -/
theorem twTag_extractLsb' (w : Word) : twTag w = w.extractLsb' 0 24 := rfl

/-- Off a window page a load writes the bytes of the granule its search finds, each register with the granule's eartag. -/
theorem State.loadRegs_view (s : State) (t : Thread) (x : Load) (h : ∀ c o, x.loc ≠ .win c o) :
    s.loadRegs t x =
      let v := s.view x.uid t x.loc x.tagAddr x.ptag x.gather x.wide
      ((List.range x.regs).map fun j =>
        ⟨BitVec.ofNat 32 (ofBytes ((((v.1.bytes.drop x.loc.inGran).take x.width).drop (4 * j)).take 4)), twTag v.1.tw⟩, v.2) := by
  unfold State.loadRegs
  split
  · exact absurd ‹_› (h _ _)
  · rfl

theorem State.dropCopy_l1 (s : State) (core quad : Nat) (l : Loc) : s.dropCopy core quad l = { s with l1 := (s.dropCopy core quad l).l1 } := by
  cases l <;> rfl

/-- A read step changes the L1, then writes the registers of its list; after that only the load and its operation are removed. -/
theorem State.readStep_l1 (s : State) (t : Thread) (i : Nat) (x : Load) :
    ∃ l1, let s2 := ({ s with l1 := l1 } : State).landRegs x.uid i x.dst (s.loadRegs t x).1
      s.readStep t i x = ({ s2 with loads := SMap.del s2.loads i } : State).opDone x.op := by
  unfold State.readStep
  dsimp only
  split
  · split
    · exact ⟨s.l1, rfl⟩
    · exact ⟨_, rfl⟩
  · split
    · rw [State.dropCopy_l1]
      exact ⟨_, rfl⟩
    · exact ⟨s.l1, rfl⟩

/-- Registers that land in a thread's file are written there: the state afterwards but for the checkpoints that took them too. -/
theorem State.landRegs_wrs {s : State} {u : Nat} {t : Thread} (ht : s.thread? u = some t) (n d : Nat) (rs : List Reg) :
    s.landRegs u n d rs = { s with regs := (s.wrs t d rs).regs, threads := (s.landRegs u n d rs).threads } := by
  simp only [State.landRegs, ht]
  rw [State.wrs_frame]
  rfl

/-- What writes to a thread's registers leave there depends on the register files alone. -/
theorem State.wrs_regs {s s' : State} (h : s'.regs = s.regs) (t : Thread) (rs : List Reg) (d : Nat) : (s'.wrs t d rs).regs = (s.wrs t d rs).regs := by
  induction rs generalizing s s' d with
  | nil => exact h
  | cons r rs ih => exact ih (congrArg (SMap.setD · Reg.zero (t.key d) r) h) (d + 1)

/-- After registers were written from absolute register `d` on, each written one reads its value. -/
theorem State.rd_wrs {s : State} {t : Thread} {d : Nat} {rs : List Reg} {j : Nat} (hj : j < rs.length) :
    SMap.getD (s.wrs t d rs).regs Reg.zero (t.key (d + j)) = rs[j] := by
  rw [getD_wrs, if_pos ⟨j, hj, rfl⟩, show t.key (d + j) - t.key d = j by simp only [Thread.key, regKey]; omega, List.getElem?_eq_getElem hj,
    Option.getD_some]

/-- Settles O23: a load with none of its thread's before it and no pending line takes its read step, which writes the registers of the granule
found (`State.loadRegs_view`) and otherwise only the L1, checkpoints, the load and its operation (`State.readStep_l1`). -/
theorem loadsReturn : Obligations.LoadsReturn := by
  intro s i x t hx ht holder hbusy hwin
  dsimp only
  have hex : exec (.loadReturn i) s = .next (s.readStep t i x) := by
    change execLoadReturn i s = _
    simp [execLoadReturn, hx, ht, holder, hbusy]
  obtain ⟨l1, hstep⟩ := s.readStep_l1 t i x
  have ht1 : ({ s with l1 := l1 } : State).thread? x.uid = some t := ht
  have hregs : (s.readStep t i x).regs = (s.wrs t x.dst (s.loadRegs t x).1).regs := by
    rw [hstep, State.opDone_eq, State.landRegs_wrs ht1]
    exact State.wrs_regs (s := s) (s' := { s with l1 := l1 }) rfl t _ _
  have hlen : (s.loadRegs t x).1.length = x.regs := by simp [s.loadRegs_view t x hwin]
  refine ⟨_, hex, ?_, ?_, ?_, ?_, fun j hj => ?_, fun k hk => ?_⟩
  · rw [hstep, State.opDone_eq]
    exact (SMap.get?_del _ i i).trans (if_pos rfl)
  · rw [hstep, State.opDone_eq, State.landRegs_wrs ht1]
  · rw [hstep, State.opDone_eq, State.landRegs_wrs ht1]
  · rw [hstep, State.opDone_eq, State.landRegs_wrs ht1]
  · rw [State.rd, hregs, State.rd_wrs (hlen.symm ▸ hj)]
    simp [s.loadRegs_view t x hwin, twTag_extractLsb']
  · rw [hregs, getD_wrs, if_neg]
    rintro ⟨j, hj, rfl⟩
    exact hk j (hlen ▸ hj) rfl

end Sys2Proof.Machine
end

section
/-! SUPPORT. What a write that reaches its point neither reads nor changes: the L1, the stores and operations on their way, the warps and the
records that wait (R81, R82, R160, R178, R182, R274). -/

namespace Sys2Proof.Machine

/-! ## A machine with those parts taken from another -/

/-- The machine `s` with L1, stores, operations, warps and waiting records of `r`. -/
def State.aside (s r : State) : State := { s with l1 := r.l1, stores := r.stores, ops := r.ops, warps := r.warps, records := r.records }

theorem State.aside_self (s : State) : s.aside s = s := rfl

theorem foldl_aside {α : Type} {f : State → α → State} (h : ∀ s r a, f (s.aside r) a = (f s a).aside r) (r : State) :
    ∀ (l : List α) (s : State), l.foldl f (s.aside r) = (l.foldl f s).aside r
  | [], _ => rfl
  | a :: l, s => by rw [List.foldl_cons, h, foldl_aside h r l, List.foldl_cons]

/-! ## Reads -/

section
variable (s r : State)

theorem State.scrRead_aside (core b n : Nat) : (s.aside r).scrRead core b n = s.scrRead core b n := by
  induction n generalizing b with
  | zero => rfl
  | succ n ih => rw [State.scrRead, State.scrRead, ih]; rfl

theorem State.winRead_aside (core o n : Nat) : (s.aside r).winRead core o n = s.winRead core o n := by
  induction n generalizing o with
  | zero => rfl
  | succ n ih => rw [State.winRead, State.winRead, ih]; rfl

theorem State.readLoc_aside (l : Loc) (n : Nat) : (s.aside r).readLoc l n = s.readLoc l n := by
  cases l with
  | win c o => exact s.winRead_aside r c o n
  | scr c b => exact s.scrRead_aside r c b n
  | _ => rfl

theorem State.walkFrom_aside (p : Partition) (priv : Bool) (va fuel level table : Nat) :
    (s.aside r).walkFrom p priv va fuel level table = s.walkFrom p priv va fuel level table := by
  induction fuel generalizing level table with
  | zero => rfl
  | succ fuel ih => simp only [State.walkFrom, State.tableEntry, State.readLoc_aside, ih]

theorem State.walk_aside (c : Context) (p : Partition) (va : Nat) : (s.aside r).walk c p va = s.walk c p va := s.walkFrom_aside r p _ _ _ _ _

theorem State.transDev_aside (c : Context) (va : Nat) : (s.aside r).transDev c va = s.transDev c va := by
  have hpart : (s.aside r).partOf c = s.partOf c := rfl
  simp only [State.transDev, State.walk_aside, hpart]

theorem State.mapsFrom_aside (p : Partition) (priv : Bool) (pa fuel level table base : Nat) :
    (s.aside r).mapsFrom p priv pa fuel level table base = s.mapsFrom p priv pa fuel level table base := by
  induction fuel generalizing level table base with
  | zero => rfl
  | succ fuel ih => simp only [State.mapsFrom, State.tableEntry, State.readLoc_aside, ih]

theorem State.mapsOf_aside (c : Context) (pa : Nat) : (s.aside r).mapsOf c pa = s.mapsOf c pa := by
  have hpart : (s.aside r).partOf c = s.partOf c := rfl
  simp only [State.mapsOf, State.mapsFrom_aside, hpart]

theorem State.keepHigh_aside (x : Store) : (s.aside r).keepHigh x = s.keepHigh x := by
  simp only [State.keepHigh, State.readLoc_aside]

theorem State.barAt_aside (core b : Nat) : (s.aside r).barAt core b = s.barAt core b := by
  simp only [State.barAt, State.scrRead_aside]

/-! ## Writes -/

theorem State.snapUnit_aside (cid u : Nat) (l : Loc) : (s.aside r).snapUnit cid u l = (s.snapUnit cid u l).aside r := by
  have hctxs : (s.aside r).ctxs = s.ctxs := rfl
  have hmem : (s.aside r).mem = s.mem := rfl
  simp only [State.snapUnit, State.transDev_aside, hctxs, hmem]
  split
  · split
    · rfl
    · split <;> rfl
  · rfl

theorem State.markUnit_aside (cid u : Nat) (l : Loc) : (s.aside r).markUnit cid u l = (s.markUnit cid u l).aside r := by
  have hctxs : (s.aside r).ctxs = s.ctxs := rfl
  simp only [State.markUnit, State.transDev_aside, State.snapUnit_aside, hctxs]
  split
  · rfl
  · split
    · rfl
    · split
      · split <;> rfl
      · rfl

theorem State.markDirty_aside (cid va : Nat) (l : Loc) : (s.aside r).markDirty cid va l = (s.markDirty cid va l).aside r := by
  have hctxs (s : State) : (s.aside r).ctxs = s.ctxs := rfl
  unfold State.markDirty
  dsimp only
  rw [State.markUnit_aside]
  split
  · rw [hctxs]
    refine foldl_aside (fun s r e => ?_) r _ _
    rw [State.mapsOf_aside]
    exact foldl_aside (fun s r v => s.markUnit_aside r _ _ _) r _ s
  · rfl

theorem State.scrWrite_aside (bs : List Byte) (core b : Nat) : (s.aside r).scrWrite core b bs = (s.scrWrite core b bs).aside r := by
  induction bs generalizing s b with
  | nil => rfl
  | cons x xs ih => exact ih { s with scr := SMap.setD s.scr 0 (scrKey core b) x } (b + 1)

theorem State.winWrite1_aside (core o : Nat) (d : List Byte) (g : Tag) : (s.aside r).winWrite1 core o d g = (s.winWrite1 core o d g).aside r := by
  have hword : (s.aside r).winWord core o = s.winWord core o := rfl
  unfold State.winWrite1
  dsimp only
  rw [hword]
  split
  · rfl
  · rfl
  · rw [State.scrWrite_aside]
    rfl
  · rfl

theorem State.winWrite_aside (core o : Nat) (d : List Byte) (g : Tag) : (s.aside r).winWrite core o d g = (s.winWrite core o d g).aside r := by
  unfold State.winWrite
  dsimp only
  rw [foldl_aside (fun s r (e : Nat × List Byte) => s.winWrite1_aside r core e.1 e.2 g)]
  split
  · split <;> rfl
  · rfl

theorem State.writeLoc_aside (l : Loc) (d : List Byte) (g : Tag) (ta : Option Nat) (w : Bool) :
    (s.aside r).writeLoc l d g ta w = (s.writeLoc l d g ta w).aside r := by
  cases l with
  | hbm a => cases ta <;> rfl
  | host a => rfl
  | peer d p a => rfl
  | win c o => exact s.winWrite_aside r c o d g
  | scr c b =>
    unfold State.writeLoc
    dsimp only
    rw [State.scrWrite_aside]
    rfl

theorem State.performWrite_aside (cid va : Nat) (l : Loc) (d : List Byte) (g : Tag) (ta : Option Nat) :
    (s.aside r).performWrite cid va l d g ta = (s.performWrite cid va l d g ta).aside r := by
  unfold State.performWrite
  dsimp only
  split
  · rw [State.writeLoc_aside]
    rfl
  · rw [State.markDirty_aside, State.writeLoc_aside]
    rfl

theorem State.performMasked_aside (cid va : Nat) (l : Loc) (d : List (Option Byte)) (g : Tag) (ta : Option Nat) :
    (s.aside r).performMasked cid va l d g ta = (s.performMasked cid va l d g ta).aside r := by
  have hruns (s : State) := foldl_aside (f := fun s (e : Nat × List Byte) => s.writeLoc (l.add e.1) e.2 g ta (wholeGran d))
    (fun s r e => s.writeLoc_aside r _ _ _ _ _) r (maskRuns 0 d) s
  unfold State.performMasked
  dsimp only
  split
  · rw [hruns]
    rfl
  · rw [State.markDirty_aside, hruns]
    rfl

theorem State.performColor_aside (x : Store) (c : Nat × Bool) : (s.aside r).performColor x c = (s.performColor x c).aside r := by
  unfold State.performColor
  split
  · rfl
  · dsimp only
    rw [State.markDirty_aside]
    rfl

theorem State.putBar_aside (core b : Nat) (x : Bar) : (s.aside r).putBar core b x = (s.putBar core b x).aside r := by
  unfold State.putBar
  rw [State.scrWrite_aside]
  rfl

theorem State.barRetest_aside (l : Loc) : (s.aside r).barRetest l = (s.barRetest l).aside r := by
  have hcrew (core b : Nat) : (s.aside r).crewAt core b = s.crewAt core b := rfl
  unfold State.barRetest
  split
  · rw [hcrew]
    split
    · split
      · rw [State.stepBar, State.barAt_aside, State.putBar_aside]
        rfl
      · rfl
    · rfl
  · rfl

/-- A store that is performed neither reads nor changes those parts. -/
theorem State.performStore_aside (x : Store) : (s.aside r).performStore x = (s.performStore x).aside r := by
  unfold State.performStore
  split
  · exact s.performColor_aside r x _
  · rw [State.keepHigh_aside, State.performMasked_aside, State.barRetest_aside]

end

end Sys2Proof.Machine
end

section
/-! SUPPORT. What a write that reaches its point leaves of threads, crews and contexts (R178, R182, R184, R274): all of a thread but its
monitor and its wait, and every watchpoint. -/

namespace Sys2Proof.Machine

/-- A thread without its monitor and its wait. -/
def Thread.unwoken (t : Thread) : Thread := { t with monitor := none, wait := none }

/-- The threads without their monitors and waits, and the watchpoints of crews and contexts. -/
def State.unwoken (s : State) : List (Nat × Thread) × List (Nat × List Watch) × (Nat → Option (List Watch)) :=
  (s.threads.map fun e => (e.1, e.2.unwoken), s.crews.map fun e => (e.1, e.2.watch), fun k => (SMap.get? s.ctxs k).map (·.watch))

/-- Threads one by one changed in monitor and wait, and crews one by one changed but for their watchpoints. -/
theorem State.unwoken_of_map {s s1 : State} {f : Nat × Crew → Nat × Crew} {g : Nat × Thread → Nat × Thread} (ht : s1.threads = s.threads.map g)
    (hc : s1.crews = s.crews.map f) (hx : s1.ctxs = s.ctxs) (hg : ∀ e, (g e).1 = e.1 ∧ (g e).2.unwoken = e.2.unwoken)
    (hf : ∀ e, (f e).1 = e.1 ∧ (f e).2.watch = e.2.watch) : s1.unwoken = s.unwoken := by
  simp only [State.unwoken, ht, hc, hx, List.map_map, Function.comp_def, hg, hf]

/-! ## What follows from it -/

/-- A watch hit depends on the machine only by the watchpoints of the thread, the crew and the context (R95). -/
theorem State.watchHit_of_watches {s s1 : State} {u crew ctx : Nat} (hthread : (s1.thread? u).map (·.watch) = (s.thread? u).map (·.watch))
    (hcrew : (SMap.get? s1.crews crew).map (·.watch) = (SMap.get? s.crews crew).map (·.watch))
    (hctx : (SMap.get? s1.ctxs ctx).map (·.watch) = (SMap.get? s.ctxs ctx).map (·.watch)) (copies : Bool) (seen : Nat) (as : List Access) :
    s1.watchHit u crew ctx copies seen as = s.watchHit u crew ctx copies seen as := by
  simp only [State.watchHit, State.watchesOf, hthread, hcrew, hctx]

section
variable {s s1 : State} (h : s1.unwoken = s.unwoken)
include h

theorem State.thread_of_unwoken (u : Nat) : (s1.thread? u).map Thread.unwoken = (s.thread? u).map Thread.unwoken := by
  have hthreads : (s1.threads.map fun e => (e.1, e.2.unwoken)) = s.threads.map fun e => (e.1, e.2.unwoken) := congrArg Prod.fst h
  simpa [SMap.get?_map _ (fun _ t => Thread.unwoken t), State.thread?] using congrArg (SMap.get? · u) hthreads

/-- A thread is still there, and is the same but for its monitor and its wait. -/
theorem State.thread_unwoken {u : Nat} {t : Thread} (ht : s.thread? u = some t) : ∃ t1, s1.thread? u = some t1 ∧ t1.unwoken = t.unwoken := by
  have hu := State.thread_of_unwoken h u
  rw [ht, Option.map_some] at hu
  exact Option.map_eq_some_iff.1 hu

theorem State.roll_of_unwoken : s1.roll = s.roll := by
  have hthreads : (s1.threads.map fun e => (e.1, e.2.unwoken)) = s.threads.map fun e => (e.1, e.2.unwoken) := congrArg Prod.fst h
  have hcrews : (s1.crews.map fun e => (e.1, e.2.watch)) = s.crews.map fun e => (e.1, e.2.watch) := congrArg (·.2.1) h
  have ht := congrArg (List.map (·.2.crew)) hthreads
  have hc := congrArg (List.map (·.1)) hcrews
  simp only [List.map_map, Function.comp_def] at ht hc
  exact Prod.ext hc ht

theorem State.watchHit_of_unwoken (u crew ctx : Nat) (copies : Bool) (seen : Nat) (as : List Access) :
    s1.watchHit u crew ctx copies seen as = s.watchHit u crew ctx copies seen as := by
  have hthread := congrArg (Option.map Thread.watch) (State.thread_of_unwoken h u)
  rw [Option.map_map, Option.map_map] at hthread
  have hcrews : (s1.crews.map fun e => (e.1, e.2.watch)) = s.crews.map fun e => (e.1, e.2.watch) := congrArg (·.2.1) h
  refine State.watchHit_of_watches hthread ?_ (congrFun (congrArg (·.2.2) h) ctx) copies seen as
  simpa [SMap.get?_map _ (fun _ c => Crew.watch c)] using congrArg (SMap.get? · crew) hcrews

end

/-! ## Writes -/

section
variable (s : State)

theorem State.snapUnit_unwoken (cid u : Nat) (l : Loc) : (s.snapUnit cid u l).unwoken = s.unwoken := by
  unfold State.snapUnit
  split
  · next c a hc =>
    split
    · rfl
    · split
      · refine Prod.ext rfl (Prod.ext rfl (funext fun k => ?_))
        dsimp only [State.unwoken]
        rw [SMap.get?_put]
        split
        · next hk => rw [hk, hc]; rfl
        · rfl
      · rfl
  · rfl

theorem State.markUnit_unwoken (cid u : Nat) (l : Loc) : (s.markUnit cid u l).unwoken = s.unwoken := by
  unfold State.markUnit
  split
  · rfl
  · split
    · rfl
    · split
      · dsimp only
        split <;> exact s.snapUnit_unwoken cid u l
      · exact s.snapUnit_unwoken cid u l

theorem State.markDirty_unwoken (cid va : Nat) (l : Loc) : (s.markDirty cid va l).unwoken = s.unwoken := by
  unfold State.markDirty
  dsimp only
  split
  · rw [foldl_keep State.unwoken _ fun s _ => foldl_keep State.unwoken _ (fun s _ => s.markUnit_unwoken _ _ _) _ s]
    exact s.markUnit_unwoken _ _ _
  · exact s.markUnit_unwoken _ _ _

theorem State.scrWrite_unwoken (c b : Nat) (bs : List Byte) : (s.scrWrite c b bs).unwoken = s.unwoken := by
  rw [State.scrWrite_frame]
  rfl

theorem State.winWrite1_unwoken (c o : Nat) (d : List Byte) (g : Tag) : (s.winWrite1 c o d g).unwoken = s.unwoken := by
  unfold State.winWrite1
  dsimp only
  split
  · rfl
  · rfl
  · exact s.scrWrite_unwoken c _ d
  · rfl

theorem State.writeLoc_unwoken (l : Loc) (d : List Byte) (g : Tag) (ta : Option Nat) (w : Bool) : (s.writeLoc l d g ta w).unwoken = s.unwoken := by
  cases l with
  | hbm a => cases ta <;> rfl
  | host a => rfl
  | peer p q a => rfl
  | win c o =>
    have hchunks := foldl_keep State.unwoken (fun s (e : Nat × List Byte) => s.winWrite1 c e.1 e.2 g) (fun s _ => s.winWrite1_unwoken _ _ _ _)
      (chunks4 5 o d) s
    unfold State.writeLoc State.winWrite
    dsimp only
    split
    · split <;> exact hchunks
    · exact hchunks
  | scr c b => exact s.scrWrite_unwoken c b d

theorem State.wakeMonitors_unwoken (l : Loc) : (s.wakeMonitors l).unwoken = s.unwoken := by
  refine State.unwoken_of_map (f := id) rfl (List.map_id _).symm rfl (fun e => ?_) fun _ => ⟨rfl, rfl⟩
  dsimp only
  split
  · split <;> exact ⟨rfl, rfl⟩
  · exact ⟨rfl, rfl⟩

theorem State.performWrite_unwoken (cid va : Nat) (l : Loc) (d : List Byte) (g : Tag) (ta : Option Nat) :
    (s.performWrite cid va l d g ta).unwoken = s.unwoken := by
  unfold State.performWrite
  dsimp only
  rw [State.wakeMonitors_unwoken, State.writeLoc_unwoken]
  split
  · rfl
  · exact s.markDirty_unwoken cid va l

theorem State.performMasked_unwoken (cid va : Nat) (l : Loc) (d : List (Option Byte)) (g : Tag) (ta : Option Nat) :
    (s.performMasked cid va l d g ta).unwoken = s.unwoken := by
  unfold State.performMasked
  dsimp only
  rw [State.wakeMonitors_unwoken, foldl_keep State.unwoken _ fun s _ => s.writeLoc_unwoken _ _ _ _ _]
  split
  · rfl
  · exact s.markDirty_unwoken cid va l

theorem State.performColor_unwoken (x : Store) (c : Nat × Bool) : (s.performColor x c).unwoken = s.unwoken := by
  unfold State.performColor
  split
  · rfl
  · exact s.markDirty_unwoken x.ctx x.va x.loc

theorem State.putBar_unwoken (core b : Nat) (x : Bar) : (s.putBar core b x).unwoken = s.unwoken := by
  have hwritten : ((s.scrWrite core b x.toBytes).wakeMonitors (.scr core b)).unwoken = s.unwoken :=
    (State.wakeMonitors_unwoken _ _).trans (s.scrWrite_unwoken core b x.toBytes)
  refine Eq.trans (State.unwoken_of_map rfl rfl rfl (fun e => ?_) fun e => ?_) hwritten
  · dsimp only
    split
    · split <;> exact ⟨rfl, rfl⟩
    · split <;> exact ⟨rfl, rfl⟩
    · exact ⟨rfl, rfl⟩
  · split
    · exact ⟨rfl, Crew.gangPassed_watch e.2⟩
    · exact ⟨rfl, rfl⟩

theorem State.barRetest_unwoken (l : Loc) : (s.barRetest l).unwoken = s.unwoken := by
  unfold State.barRetest
  split
  · split
    · split
      · exact s.putBar_unwoken _ _ _
      · rfl
    · rfl
  · rfl

theorem State.performStore_unwoken (x : Store) : (s.performStore x).unwoken = s.unwoken := by
  unfold State.performStore
  split
  · exact s.performColor_unwoken x _
  · exact (State.barRetest_unwoken _ _).trans (s.performMasked_unwoken _ _ _ _ _ _)

end

end Sys2Proof.Machine
end

section
/-! SUPPORT. FENCE, FENCEX, CCTL and PREF (R167, R174, R348, R372, R373, R410). -/

namespace Sys2Proof.Machine

theorem State.sameLanes.keepsThreads {s s1 : State} (h : s.sameLanes s1) : keepsThreads s s1 := fun u t ht => by
  have hu := h.threads u
  rw [ht, Option.map_some] at hu
  obtain ⟨t1, ht1, _⟩ := Option.map_eq_some_iff.1 hu
  exact ⟨t1, ht1⟩

/-- A per-lane instruction with no anomaly check, whose lanes come to effects that leave the lanes, warps and records. -/
theorem effects_of_sameLanes {i : Instr} {n : Nat} {k : Env → Chk} {F : Env → State → Nat → Thread → LaneRes} {uses : List Use}
    {ok : State → Env → Nat → Thread → Bool} {g : State → Env → Nat → Thread → State} (hi : ∀ s, exec i s = s.perLane n k F)
    (huses : ∀ e, (k e).uses = uses) (hcls : ∀ e, (k e).cls = 0) (hanom : ∀ e, (k e).anom = [])
    (h : ∀ e s u t, s.thread? u = some t → ok s e u t = true →
      ((k e).stall && t.spec) = false ∧ F e s u t = .done (g s e u t) ∧ s.sameLanes (g s e u t)) : effects i n uses ok g :=
  effects_of_lane (hi := hi) fun e s u t ht hn hok => by
    obtain ⟨hstall, hdone, hsame⟩ := h e s u t ht hok
    refine ⟨hstall, check_none ?_ (huses e ▸ hn) (Or.inr ?_), hdone, State.pagesFor_same hsame.records, hsame.warps, hsame.keepsThreads⟩
    · rw [hcls, classOk_zero]
    · simp [hanom]

/-! ## FENCE (R167, R372) -/

theorem State.acquire_unacquired (s : State) (u : Nat) : (s.acquire u).unacquired = s.unacquired := by
  unfold State.acquire
  split
  · rfl
  · exact State.conflictUp_unacquired 8 (s.dropL1 _ _) u

theorem fence_effects (scope : BitVec 3) :
    effects (.fence scope) 1 [] (fun s _ u t => !t.spec && s.released u t scope.toNat) (fun s _ u _ => s.acquire u) :=
  effects_of_sameLanes (hi := fun _ => rfl) (fun _ => rfl) (fun _ => rfl) (fun _ => rfl) fun e s u t ht hok => by
    simp only [Bool.and_eq_true, Bool.not_eq_true'] at hok
    obtain ⟨hspec, hreleased⟩ := hok
    refine ⟨by rw [hspec, Bool.and_false], ?_, State.sameLanes_of_unacquired (s.acquire_unacquired u)⟩
    unfold fenceLane
    rw [State.releaseTry_released ht hreleased]

/-! ## FENCEX (R174, R373) -/

theorem State.sameLanes_dropL1 (s : State) (core quad : Nat) : s.sameLanes (s.dropL1 core quad) := State.sameLanes_of_unacquired rfl

/-- The lane goes on at once when the work of its path, up to the mark of this try, is over. -/
theorem fencexLane_done {x y : Nat} {s : State} {t : Thread} (hfifo : (x = 0 && !t.fifo.isEmpty) = false)
    (hbusy : s.pathBusy t x (s.pathMark x) = false) (hwait : ∀ m, t.wait ≠ some (.fence m)) :
    fencexLane x y s t = .done (if y = 0 then s.dropL1 t.core t.quad else s) := by
  unfold fencexLane
  rw [if_neg (by simp [hfifo])]
  dsimp only
  split
  · exact absurd ‹_› (hwait _)
  · rw [hbusy, if_neg (by simp)]

theorem fencex_effects (x y : BitVec 3) : effects (.fencex x y) 1 []
    (fun s _ _ t => !t.spec && !(x == 0 && !t.fifo.isEmpty) && !(s.pathBusy t x.toNat (s.pathMark x.toNat)) &&
      match t.wait with
      | some (.fence _) => false
      | _ => true)
    (fun s _ _ t => if y = 0 then s.dropL1 t.core t.quad else s) :=
  effects_of_sameLanes (hi := fun _ => rfl) (fun _ => rfl) (fun _ => rfl) (fun _ => rfl) fun e s u t _ hok => by
    simp only [Bool.and_eq_true, Bool.not_eq_true'] at hok
    obtain ⟨⟨⟨hspec, hfifo⟩, hbusy⟩, hwait⟩ := hok
    have hzero (z : BitVec 3) : z.toNat = 0 ↔ z = 0 := ⟨fun h => BitVec.eq_of_toNat_eq h, fun h => by rw [h]; rfl⟩
    refine ⟨by rw [hspec, Bool.and_false], ?_, State.sameLanes_ite (s.sameLanes_dropL1 _ _) s.sameLanes_refl⟩
    rw [fencexLane_done (by simpa [hzero] using hfifo) hbusy fun m hm => by simp [hm] at hwait]
    simp only [hzero]

/-! ## CCTL (R348) -/

/-- CCTL invalidates its quadrant's L1 once for the group. -/
theorem cctl_once : onceEffects .cctl 1 [] (fun _ _ _ => true) (fun _ _ _ _ => true) (fun s e _ _ _ => s.dropL1 e.core e.quad) :=
  onceEffects_of_group (F := fun e s l => .done (if l.isEmpty then s else s.dropL1 e.core e.quad) []) (hi := fun _ => rfl) (fun _ _ _ _ _ _ => rfl)
    (fun _ _ _ hn _ => ⟨rfl, check_none rfl hn (Or.inr (by simp))⟩)
    fun e s u t l _ _ hready _ => by
      have hsame := s.sameLanes_dropL1 e.core e.quad
      refine ⟨rfl, State.pagesFor_same hsame.records, hsame.warps, hsame.keepsThreads, fun x hx => ?_⟩
      have hx' := hready x hx
      have hthread : (s.dropL1 e.core e.quad).thread? x.1 = some x.2 := hx'.thread
      simp only [State.isInWarp, hthread, hx'.inWarp, beq_self_eq_true]

theorem cctl_done {s : State} {e : Env} (hp : s.port e = true) (ha : s.active e ≠ []) :
    ∃ s', exec .cctl s = .next s' ∧ s'.still = ((s.begin e).dropL1 e.core e.quad).still ∧ s'.passed e 1 := by
  obtain ⟨u, us, hus⟩ := List.exists_cons_of_ne_nil ha
  obtain ⟨t, ht⟩ := begin_members hp u (State.active_member (hus ▸ List.mem_cons_self ..))
  refine cctl_once s e u us t hp hus ht (lanesAll_iff.2 fun v hv => ?_) rfl
  obtain ⟨tv, htv, _⟩ := State.port_member hp (State.active_member hv)
  exact ⟨tv, htv, rfl⟩

/-! ## PREF (R410) -/

theorem State.prefLane_uncached (s : State) (e : Env) (t : Thread) (a : Nat) : (s.prefLane e t a).uncached = s.uncached := by
  have htrans := State.uncached_of_quiet (s.translate_quiet e.core e.crew.ctx e.c (a % 2 ^ 48))
  unfold State.prefLane
  split
  · rfl
  · dsimp only
    split
    · split
      · split
        · exact htrans
        · exact htrans
      · exact htrans
    · rfl

theorem pref_effects (a : VReg) : effects (.pref a) 1 [⟨a.toNat, 2, 2⟩] (fun _ _ _ _ => true) (fun s e _ t => s.prefLane e t (s.w64 t a).toNat) :=
  effects_of_sameLanes (hi := fun _ => rfl) (fun _ => rfl) (fun _ => rfl) (fun _ => rfl) fun e s _ t _ _ =>
    ⟨rfl, rfl, State.sameLanes_of_uncached (s.prefLane_uncached e t _)⟩

end Sys2Proof.Machine
end

section
/-! SUPPORT. Two machines that differ in L1, stores, operations, warps and waiting records alone: a translation, the commit of a region and a
store that enters its FIFO leave them so (R157, R160, R176). -/

namespace Sys2Proof.Machine

/-! ## Translations and write-backs -/

section
variable (s r : State)

theorem State.transCore_aside (core cid : Nat) (c : Context) (va : Nat) : (s.aside r).transCore core cid c va = s.transCore core cid c va := by
  have hpart : (s.aside r).partOf c = s.partOf c := rfl
  have htlb1 : (s.aside r).tlb1 = s.tlb1 := rfl
  have hlltlb : (s.aside r).lltlb = s.lltlb := rfl
  simp only [State.transCore, hpart, htlb1, hlltlb, State.walk_aside]

theorem State.count_aside (k n : Nat) : (s.aside r).count k n = (s.count k n).aside r := rfl

theorem State.translate_aside (core cid : Nat) (c : Context) (va : Nat) :
    (s.aside r).translate core cid c va = ((s.translate core cid c va).1.aside r, (s.translate core cid c va).2) := by
  refine Prod.ext ?_ (by rw [State.translate_snd, State.transCore_aside, State.translate_snd])
  have hpart : (s.aside r).partOf c = s.partOf c := rfl
  have htlb1 (s : State) : (s.aside r).tlb1 = s.tlb1 := rfl
  have hlltlb (s : State) : (s.aside r).lltlb = s.lltlb := rfl
  simp only [State.translate, hpart, htlb1, hlltlb, State.count_aside, State.walk_aside]
  split
  · rfl
  · split
    · rfl
    · generalize s.count (cntCore core 8) 1 = s1
      split
      · rfl
      · generalize (s1.count (cntDie (dieOf core) 2) 1).count (cntDie (dieOf core) 3) 1 = s2
        split <;> rfl

theorem State.bbcWrite_aside (cid addr delta : Nat) : (s.aside r).bbcWrite cid addr delta = (s.bbcWrite cid addr delta).map (·.aside r) := by
  have hctxs : (s.aside r).ctxs = s.ctxs := rfl
  simp only [State.bbcWrite, hctxs, State.transDev_aside, State.readLoc_aside, State.performWrite_aside]
  split
  · rfl
  · split <;> rfl

theorem State.bbcEvict_aside (l : List BlockCount) : (s.aside r).bbcEvict l = (s.bbcEvict l).map fun x => (x.1, x.2.aside r) := by
  simp only [State.bbcEvict, List.map_findSome?, State.bbcWrite_aside, Option.map_map, Function.comp_def]

theorem State.bbcAdd_aside (core cid addr n : Nat) : (s.aside r).bbcAdd core cid addr n = (s.bbcAdd core cid addr n).aside r := by
  have hblocks : (s.aside r).blocks = s.blocks := rfl
  unfold State.bbcAdd
  dsimp only
  rw [hblocks]
  split
  · next b _ =>
    rw [State.bbcWrite_aside]
    by_cases hfull : 2 ^ 32 ≤ b.delta + n
    · rw [if_pos hfull, if_pos hfull]
      cases s.bbcWrite cid addr b.delta <;> rfl
    · rw [if_neg hfull, if_neg hfull]
      rfl
  · rw [State.bbcEvict_aside]
    by_cases hroom : (SMap.getD s.blocks [] core).length < 1024
    · rw [if_pos hroom, if_pos hroom]
      rfl
    · rw [if_neg hroom, if_neg hroom]
      cases s.bbcEvict (SMap.getD s.blocks [] core) <;> rfl

theorem State.lanes_aside (qk cid pc cls n : Nat) : (s.aside r).lanes qk cid pc cls n = (s.lanes qk cid pc cls n).aside r := by
  unfold State.lanes
  split <;> rfl

theorem State.commitPend_aside (core quad cid : Nat) (p : Pending) : (s.aside r).commitPend core quad cid p = (s.commitPend core quad cid p).aside r := by
  unfold State.commitPend
  dsimp only
  rw [foldl_aside (fun s r x => s.lanes_aside r _ _ _ _ _), foldl_aside (fun s r x => s.bbcAdd_aside r _ _ _ _)]

theorem State.modThread_aside (u : Nat) (f : Thread → Thread) : (s.aside r).modThread u f = (s.modThread u f).aside r := rfl

theorem State.noteWrite_aside (gs : List Loc) (n u : Nat) : (s.aside r).noteWrite gs n u = (s.noteWrite gs n u).aside r := by
  induction n generalizing s u with
  | zero => rfl
  | succ n ih =>
    have hthread : (s.aside r).thread? u = s.thread? u := rfl
    unfold State.noteWrite
    rw [hthread]
    split
    · rfl
    · rw [State.modThread_aside, ih]

end

/-! ## Machines that differ in those parts alone -/

/-- `s1` is `s` but for L1, stores, operations, warps and waiting records. -/
def State.alike (s s1 : State) : Prop := s.aside s1 = s1

section
variable {s s1 s2 : State}

theorem State.alike.map {f : State → State} (hf : ∀ s r, f (s.aside r) = (f s).aside r) (h : s.alike s1) : (f s).alike (f s1) := by
  unfold State.alike at h ⊢
  rw [← h, hf]
  rfl

theorem foldl_alike {α : Type} {f : State → α → State} (hf : ∀ (s s1 : State) (a : α), s.alike s1 → (f s a).alike (f s1 a)) :
    ∀ (l : List α) (s s1 : State), s.alike s1 → (l.foldl f s).alike (l.foldl f s1)
  | [], _, _, h => h
  | a :: l, s, s1, h => foldl_alike hf l _ _ (hf s s1 a h)

theorem State.alike.pushStore (h : s.alike s1) (u : Nat) (x y : Store) : (s.pushStore u x).alike (s1.pushStore u y) := by
  rw [← show s.aside s1 = s1 from h]
  rfl

theorem State.alike.joinOp (h : s.alike s1) (op op1 u u1 n n1 : Nat) : (s.joinOp op u n).alike (s1.joinOp op1 u1 n1) := by
  rw [← show s.aside s1 = s1 from h]
  rfl

theorem State.alike.thread? (h : s.alike s1) (u : Nat) : s1.thread? u = s.thread? u := by
  rw [← show s.aside s1 = s1 from h]
  rfl

theorem State.alike.releasePail (h : s.alike s1) (u level : Nat) : (s.releasePail u level).alike (s1.releasePail u level) := by
  unfold State.releasePail
  rw [h.thread?]
  split
  · exact h
  · next t _ =>
    have hpail : s1.pailAll t = s.pailAll t := by
      rw [← show s.aside s1 = s1 from h]
      rfl
    dsimp only
    rw [hpail]
    exact foldl_alike (fun _ _ p h => h.pushStore u _ _) _ _ _ (h.map (f := fun s => s.setPail t _) fun _ _ => rfl)

theorem State.alike.commitRegion (h : s.alike s1) (u : Nat) : (s.commitRegion u).alike (s1.commitRegion u) := by
  unfold State.commitRegion
  rw [h.thread?]
  split
  · exact h
  · next t _ =>
    split
    · exact h
    · next r _ =>
      have hreleased := h.releasePail u 0
      have hcrews : (s1.releasePail u 0).crews = (s.releasePail u 0).crews := by
        rw [← show (s.releasePail u 0).aside _ = _ from hreleased]
        rfl
      dsimp only
      rw [hcrews]
      exact (hreleased.map (f := fun s => s.commitPend t.core t.quad _ r.pend) fun s r => s.commitPend_aside r _ _ _ _).map
        (f := fun s => s.modThread u _) fun s r => s.modThread_aside r u _

end

end Sys2Proof.Machine
end

section
/-! SUPPORT. COLOR (R351, R92), and the obligation about fences and lines. -/

namespace Sys2Proof.Machine

/-! ## Lanes that share one operation (R15) -/

theorem State.opDone_still (s : State) (op : Nat) : (s.opDone op).still = s.still.opDone op := by
  have hops : s.still.ops = s.ops := rfl
  unfold State.opDone
  rw [hops]
  cases SMap.get? s.ops op with
  | none => rfl
  | some o => dsimp only; split <;> rfl

theorem State.opDone_passed {s : State} {e : Env} {n : Nat} (op : Nat) (h : s.passed e n) : (s.opDone op).passed e n := by
  rw [State.opDone_eq]
  exact h

/-- A per-lane instruction whose lanes share one operation, all of whose lanes are done with their effects. -/
theorem effectsOp_of_lane {i : Instr} {fb : Bool} {k : Env → Chk} {F : Env → Nat → State → Nat → Thread → LaneRes} {uses : List Use}
    {ok : State → Env → Nat → Thread → Bool} {g : Nat → State → Env → Nat → Thread → State} (hi : ∀ s, exec i s = s.perLaneOp 1 k fb F)
    (h : ∀ e op s u t, s.thread? u = some t → e.names t uses = true → ok s e u t = true →
      ((k e).stall && t.spec) = false ∧ s.check e (k e) t = none ∧ F e op s u t = .done (g op s e u t) ∧
        s.pagesFor (g op s e u t) = [] ∧ (g op s e u t).warps = s.warps ∧ keepsThreads s (g op s e u t)) : effectsOp i fb uses ok g := by
  intro s e b hp hb
  obtain ⟨hstill, hpassed, _⟩ := laneRun_slot (n := 1) (k := k e) (F := F e s.nextOp)
    (s := { s with ops := SMap.put s.ops s.nextOp ⟨[], e.flag fb, 1⟩, nextOp := s.nextOp + 1 }) hp (h e s.nextOp) hb
  refine ⟨_, (hi s).trans (by rw [State.perLaneOp, State.port_env hp]), ?_, State.opDone_passed _ hpassed⟩
  rw [State.opDone_still, hstill, ← State.opDone_still]

/-! ## What the changes of a lane leave (R351) -/

theorem bbcWrite_records {s s1 : State} {cid addr delta : Nat} (h : s.bbcWrite cid addr delta = some s1) : s1.records = s.records := by
  unfold State.bbcWrite at h
  split at h
  · cases h; rfl
  · split at h
    · cases h; exact performWrite_records ..
    · cases h

theorem bbcAdd_records (s : State) (core cid addr n : Nat) : (s.bbcAdd core cid addr n).records = s.records := by
  unfold State.bbcAdd
  dsimp only
  split
  · split
    · next s1 h =>
      split at h
      · exact (bbcWrite_records h :)
      · cases h
    · rfl
  · split
    · next v s1 h =>
      split at h
      · cases h
      · obtain ⟨x, -, hx⟩ := List.exists_of_findSome?_eq_some h
        obtain ⟨s2, h2, h3⟩ := Option.map_eq_some_iff.1 hx
        cases h3
        exact (bbcWrite_records h2 :)
    · rfl

theorem commitPend_records (s : State) (core quad cid : Nat) (p : Pending) : (s.commitPend core quad cid p).records = s.records := by
  have hlanes (s : State) (qk cid pc cls n : Nat) : (s.lanes qk cid pc cls n).records = s.records := by
    unfold State.lanes
    split <;> rfl
  unfold State.commitPend
  dsimp only
  rw [foldl_keep State.records _ fun s _ => bbcAdd_records s _ _ _ _, foldl_keep State.records _ fun s _ => hlanes s _ _ _ _ _]

theorem releasePail_records (s : State) (u level : Nat) : (s.releasePail u level).records = s.records := by
  unfold State.releasePail
  split
  · rfl
  · next t _ => exact foldl_keep State.records (fun (s : State) (p : PailEntry) => s.pushStore u (p.toStore t.core)) (fun _ _ => rfl) _ _

theorem State.modThread_records (s : State) (u : Nat) (f : Thread → Thread) : (s.modThread u f).records = s.records := rfl

theorem commitRegion_records (s : State) (u : Nat) : (s.commitRegion u).records = s.records := by
  unfold State.commitRegion
  split
  · rfl
  · split
    · rfl
    · rw [State.modThread_records, commitPend_records, releasePail_records]

theorem noteWrite_kept (gs : List Loc) : ∀ (n : Nat) (s : State) (u : Nat), Kept s (s.noteWrite gs n u)
  | 0, s, _ => Kept.refl s
  | n + 1, s, u => by
    unfold State.noteWrite
    split
    · exact Kept.refl s
    · exact (modThread_kept s _ _).trans (noteWrite_kept gs n _ _)

theorem State.joinOp_kept (s : State) (op u n : Nat) : Kept s (s.joinOp op u n) := Kept.of_eq rfl rfl rfl

/-- One change of a COLOR: the region that holds a store to the granule commits, and the change enters the lane's store FIFO. -/
def State.colourStep (s : State) (e : Env) (op u : Nat) (t : Thread) (colour : Nat) (mark : Bool) (h : Hit) (a : Nat) : State :=
  let s1 := if (s.pailOf t u).any fun p => p.loc == h.loc.gran then s.commitRegion u else s
  ((s1.noteWrite [h.loc] 8 u).joinOp op u 1).pushStore u
    ⟨u, e.crewId, e.crew.ctx, e.core, h.loc, a % 2 ^ 48, [], 0, h.tagAddr, h.size, 0, some (colour, mark), op, 0, e.issuer u t, false, false⟩

/-- A run of changes is done when its first granule can be coloured and the rest is done after it. -/
theorem colourRange_succ {s s2 : State} {e : Env} {op u : Nat} {t : Thread} {colour : Nat} {mark : Bool} {tag : Tag} {n a : Nat} :
    s.colourRange e op u t colour mark tag (n + 1) a = .done s2 ↔ ptrOk a = true ∧ ∃ h : Hit,
      (s.translate e.core e.crew.ctx e.c (a % 2 ^ 48)).2 = .hit h ∧ h.w = true ∧ h.peerW = true ∧ h.ex = false ∧
        ((s.translate e.core e.crew.ctx e.c (a % 2 ^ 48)).1.colourStep e op u t colour mark h a).colourRange e op u t colour mark tag n (a + 16) =
          .done s2 := by
  rw [State.colourRange]
  generalize s.translate e.core e.crew.ctx e.c (a % 2 ^ 48) = r
  obtain ⟨s1, tr⟩ := r
  cases hptr : ptrOk a with
  | false => simp
  | true =>
    cases tr with
    | hit h =>
      dsimp only
      rw [if_neg (by simp)]
      by_cases hperm : (!h.w || !h.peerW) = true
      · rw [if_pos hperm]
        simp only [Bool.or_eq_true, Bool.not_eq_true'] at hperm
        refine ⟨nofun, ?_⟩
        rintro ⟨-, h', heq, hw, hpeer, -⟩
        cases heq
        simp [hw, hpeer] at hperm
      · rw [if_neg hperm]
        simp only [Bool.or_eq_true, Bool.not_eq_true', not_or, Bool.not_eq_false] at hperm
        by_cases hex : h.ex = true
        · rw [if_pos hex]
          refine ⟨nofun, ?_⟩
          rintro ⟨-, h', heq, -, -, hex', -⟩
          cases heq
          rw [hex] at hex'
          cases hex'
        · rw [if_neg hex]
          refine ⟨fun hd => ⟨rfl, h, rfl, hperm.1, hperm.2, by simpa using hex, hd⟩, ?_⟩
          rintro ⟨-, h', heq, -, -, -, hd⟩
          cases heq
          exact hd
    | absent => simp
    | format => simp
    | badPhys => simp

theorem State.colourStep_kept (s : State) (e : Env) (op u : Nat) (t : Thread) (colour : Nat) (mark : Bool) (h : Hit) (a : Nat) :
    Kept s (s.colourStep e op u t colour mark h a) ∧ (s.colourStep e op u t colour mark h a).records = s.records := by
  have hcommit : Kept s (if (s.pailOf t u).any fun p => p.loc == h.loc.gran then s.commitRegion u else s) ∧
      (if (s.pailOf t u).any fun p => p.loc == h.loc.gran then s.commitRegion u else s).records = s.records := by
    split
    · exact ⟨commitRegion_kept s u, commitRegion_records s u⟩
    · exact ⟨Kept.refl s, rfl⟩
  unfold State.colourStep
  dsimp only
  refine ⟨((hcommit.1.trans (noteWrite_kept _ 8 _ u)).trans (State.joinOp_kept _ op u 1)).trans (pushStore_kept _ u _), ?_⟩
  have hpush (s : State) (x : Store) : ((s.joinOp op u 1).pushStore u x).records = s.records := rfl
  rw [hpush, (State.sameLanes_noteWrite _ [h.loc] 8 u).records, hcommit.2]

theorem colourRange_kept {e : Env} {op u : Nat} {t : Thread} {colour : Nat} {mark : Bool} {tag : Tag} {s2 : State} : ∀ {n a : Nat} {s : State},
    s.colourRange e op u t colour mark tag n a = .done s2 → Kept s s2 ∧ s2.records = s.records
  | 0, _, s, h => by
    cases h
    exact ⟨Kept.refl _, rfl⟩
  | n + 1, a, s, h => by
    obtain ⟨-, hit, -, -, -, -, hrest⟩ := colourRange_succ.1 h
    have hquiet := s.translate_quiet e.core e.crew.ctx e.c (a % 2 ^ 48)
    have htrans : Kept s (s.translate e.core e.crew.ctx e.c (a % 2 ^ 48)).1 :=
      Kept.of_eq (congrArg State.warps hquiet :) (congrArg State.threads hquiet :) (congrArg State.ctxs hquiet :)
    obtain ⟨hstep, hstepRecords⟩ := (s.translate e.core e.crew.ctx e.c (a % 2 ^ 48)).1.colourStep_kept e op u t colour mark hit a
    obtain ⟨hkept, hrecords⟩ := colourRange_kept hrest
    exact ⟨(htrans.trans hstep).trans hkept, (hrecords.trans hstepRecords).trans (congrArg State.records hquiet :)⟩

/-! ## The number of the operation decides nothing (R15, R351) -/

theorem State.alike.colourStep {s s1 : State} (hs : s.alike s1) (e : Env) (op op1 u : Nat) (t : Thread) (colour : Nat) (mark : Bool) (h : Hit) (a : Nat) :
    (s.colourStep e op u t colour mark h a).alike (s1.colourStep e op1 u t colour mark h a) := by
  have hpail : s1.pailOf t u = s.pailOf t u := by
    rw [← show s.aside s1 = s1 from hs]
    rfl
  unfold State.colourStep
  rw [hpail]
  dsimp only
  refine State.alike.pushStore (State.alike.joinOp (State.alike.map (f := fun s => s.noteWrite [h.loc] 8 u) (fun s r => s.noteWrite_aside r _ _ _) ?_) ..) ..
  split
  · exact hs.commitRegion u
  · exact hs

theorem State.alike.colourRange {e : Env} {op op1 u : Nat} {t : Thread} {colour : Nat} {mark : Bool} {tag : Tag} {s2 : State} : ∀ {n a : Nat} {s s1 : State},
    s.alike s1 → s.colourRange e op u t colour mark tag n a = .done s2 → ∃ s3, s1.colourRange e op1 u t colour mark tag n a = .done s3
  | 0, _, _, s1, _, _ => ⟨s1, rfl⟩
  | n + 1, a, s, s1, hs, h => by
    obtain ⟨hptr, hit, hhit, hw, hpeer, hex, hrest⟩ := colourRange_succ.1 h
    have htrans : s1.translate e.core e.crew.ctx e.c (a % 2 ^ 48) =
        ((s.translate e.core e.crew.ctx e.c (a % 2 ^ 48)).1.aside s1, (s.translate e.core e.crew.ctx e.c (a % 2 ^ 48)).2) := by
      rw [← s.translate_aside s1, show s.aside s1 = s1 from hs]
    have hstep : (s.translate e.core e.crew.ctx e.c (a % 2 ^ 48)).1.alike (s1.translate e.core e.crew.ctx e.c (a % 2 ^ 48)).1 := by
      rw [htrans]
      rfl
    obtain ⟨s3, h3⟩ := State.alike.colourRange (hstep.colourStep e op op1 u t colour mark hit a) hrest
    exact ⟨s3, colourRange_succ.2 ⟨hptr, hit, by rw [htrans]; exact hhit, hw, hpeer, hex, h3⟩⟩

/-! ## COLOR -/

theorem colourLane_done {f : FColor} {e : Env} {op u : Nat} {s s1 : State} {t : Thread} (hc : (s.w32 t f.d).toNat < 16)
    (hn : (s.w32 t f.b).toNat ≤ 65536) (halign : (s.w64 t f.a).toNat % 16 = 0) (hptr : ptrOk (s.w64 t f.a).toNat = true)
    (hout : colourOut f op s e u t = some s1) : colourLane f e op s u t = .done s1 := by
  have hrange : s.colourRange e op u t (s.w32 t f.d).toNat f.mark (s.opd32 t f.d).tag (s.w32 t f.b).toNat (s.w64 t f.a).toNat = .done s1 := by
    unfold colourOut at hout
    split at hout
    · next h => rw [h, Option.some.inj hout]
    · cases hout
  unfold State.w32 at *
  unfold State.w64 at *
  unfold colourLane
  dsimp only
  rw [if_neg (by simp; omega), if_neg (by simp [halign]), if_neg (by simp [hptr])]
  exact hrange

theorem color_effects (f : FColor) : effectsOp (.color f) f.f [⟨f.d.toNat, 1, 1⟩, ⟨f.a.toNat, 2, 2⟩, ⟨f.b.toNat, 1, 1⟩]
    (fun s e u t => !t.spec && decide ((s.w32 t f.d).toNat < 16) && decide ((s.w32 t f.b).toNat ≤ 65536) && (s.w64 t f.a).toNat % 16 == 0 &&
      ptrOk (s.w64 t f.a).toNat && (colourOut f 0 s e u t).isSome)
    (fun op s e u t => (colourOut f op s e u t).getD s) := by
  refine effectsOp_of_lane (hi := fun _ => rfl) fun e op s u t _ hn hok => ?_
  simp only [Bool.and_eq_true, Bool.not_eq_true', decide_eq_true_eq, beq_iff_eq] at hok
  obtain ⟨⟨⟨⟨⟨hspec, hc⟩, hcount⟩, halign⟩, hptr⟩, hout⟩ := hok
  obtain ⟨s0, hs0⟩ := Option.isSome_iff_exists.1 hout
  obtain ⟨s1, hs1⟩ : ∃ s1, s.colourRange e op u t (s.w32 t f.d).toNat f.mark (s.opd32 t f.d).tag (s.w32 t f.b).toNat (s.w64 t f.a).toNat = .done s1 := by
    unfold colourOut at hs0
    split at hs0
    · next h => exact State.alike.colourRange (show s.alike s from rfl) h
    · cases hs0
  have hout1 : colourOut f op s e u t = some s1 := by rw [colourOut, hs1]
  obtain ⟨hkept, hrecords⟩ := colourRange_kept hs1
  rw [hout1, Option.getD_some]
  exact ⟨by rw [hspec, Bool.and_false], check_none rfl hn (Or.inr (by simp)), colourLane_done hc hcount halign hptr hout1,
    State.pagesFor_same hrecords, hkept.warps, hkept.threads⟩

/-- Settles O29: FENCE, FENCEX and PREF by what each lane comes to (`effects_of_sameLanes`), CCTL once for the group, COLOR by its run of changes,
of which the number of the operation decides nothing (`State.alike.colourRange`). -/
theorem fencesAndLines : Obligations.FencesAndLines :=
  ⟨fence_effects, fencex_effects, fun _ _ => cctl_done, pref_effects, color_effects⟩

end Sys2Proof.Machine
end

section
/-! SUPPORT. Steps of the ordering machine (R159 to R161, R170 to R172): what a store that is performed and forgotten leaves, and the obligations
about the core point and about the die, device and fabric points. -/

namespace Sys2Proof.Machine

/-! ## A store is performed and leaves the machine -/

theorem State.settleCore_of_crewed {s : State} (h : s.crewed = true) (core : Nat) : s.settleCore core = s := by
  unfold State.settleCore
  generalize (s.crews.filter fun e => e.2.core == core).map (·.1) = ks
  induction ks with
  | nil => rfl
  | cons k ks ih => rw [List.foldl_cons, State.settleCrew_of_crewed h, ih]

/-- While every crew has a thread, forgetting a store removes it and ends its piece of its operation, and changes no more. -/
theorem State.dropStore_of_crewed {s : State} (h : s.crewed = true) (n : Nat) (x : Store) :
    s.dropStore n x = { s with stores := SMap.del s.stores n, ops := (s.opDone x.op).ops } := by
  have hdone : ({ s with stores := SMap.del s.stores n } : State).opDone x.op = { s with stores := SMap.del s.stores n, ops := (s.opDone x.op).ops } := by
    unfold State.opDone
    dsimp only
    cases SMap.get? s.ops x.op with
    | none => rfl
    | some o => dsimp only; split <;> rfl
  have hcrewed : ({ s with stores := SMap.del s.stores n, ops := (s.opDone x.op).ops } : State).crewed = true := h
  rw [State.dropStore, hdone, State.settleCrew_of_crewed hcrewed, State.settleCore_of_crewed hcrewed]

theorem State.performStore_crewed {s : State} (h : s.crewed = true) (x : Store) : (s.performStore x).crewed = true :=
  (State.crewed_of_roll (State.roll_of_unwoken (s.performStore_unwoken x))).trans h

/-- A step that performs a store and forgets it, while every crew has a thread. -/
theorem performs_of_dropStore {i : Instr} {s s0 : State} {n : Nat} {x : Store} (h : s0.crewed = true)
    (hi : exec i s = .next ((s0.performStore x).dropStore n x)) : performs i s s0 n x := by
  refine ⟨_, hi, ?_⟩
  rw [State.dropStore_of_crewed (State.performStore_crewed h x)]
  exact ⟨(SMap.get?_del _ n n).trans (if_pos rfl), rfl, rfl, rfl, rfl, rfl, rfl, rfl⟩

/-! ## STORE_FIFO_DRAIN (R160, R96, R428) -/

/-- With no watch hit due an entry from the pail drains with no more effect. -/
theorem State.pailWatch_of_quiet {s s1 : State} {x : Store} (h : s.pailQuiet x = true)
    (hw : s1.watchHit x.uid x.iss.crew x.iss.ctx false 0 x.accesses = s.watchHit x.uid x.iss.crew x.iss.ctx false 0 x.accesses) : s1.pailWatch x = s1 := by
  have hnone : (if x.pailed then s1.watchHit x.uid x.iss.crew x.iss.ctx false 0 x.accesses else none) = none := by
    split
    · next hp => simpa [State.pailQuiet, hp, hw] using h
    · rfl
  unfold State.pailWatch
  rw [hnone]

/-- A thread that has not ended keeps its slot. -/
theorem State.freeDrained_of_status {s : State} {u : Nat} {t : Thread} (ht : s.thread? u = some t) (h : t.status ≠ .draining) : s.freeDrained u = s := by
  unfold State.freeDrained
  rw [ht]
  dsimp only
  rw [if_neg]
  simp [h]

/-- The state in which a thread's oldest store has left its FIFO. -/
def State.fifoTo (s : State) (u : Nat) (rest : List Nat) : State := s.modThread u fun t => { t with fifo := rest }

theorem State.fifoTo_thread {s : State} {u : Nat} {t : Thread} (ht : s.thread? u = some t) (rest : List Nat) :
    (s.fifoTo u rest).thread? u = some { t with fifo := rest } := by
  rw [State.fifoTo, State.modThread_thread_same, ht]
  rfl

theorem State.fifoTo_watchHit (s : State) (u : Nat) (rest : List Nat) (v crew ctx : Nat) (copies : Bool) (seen : Nat) (as : List Access) :
    (s.fifoTo u rest).watchHit v crew ctx copies seen as = s.watchHit v crew ctx copies seen as := by
  have hthread : ((s.fifoTo u rest).thread? v).map (·.watch) = (s.thread? v).map (·.watch) := by
    rw [State.fifoTo, State.modThread_thread]
    split
    · next hv =>
      rw [Option.map_map, hv]
      rfl
    · rfl
  exact State.watchHit_of_watches hthread rfl rfl copies seen as

theorem State.fifoTo_crewed {s : State} (h : s.crewed = true) (u : Nat) (rest : List Nat) : (s.fifoTo u rest).crewed = true :=
  (State.crewed_of_roll (s.roll_modThread u (fun t => { t with fifo := rest }) fun _ => rfl)).trans h

/-- Whether a store is one to the scratchpad of its own core. -/
def Store.ownScr (x : Store) (core : Nat) : Bool :=
  match x.loc with
  | .scr c _ => c == core
  | _ => false

theorem Store.ownScr_iff (x : Store) {core : Nat} : x.ownScr core = true ↔ ∃ b, x.loc = .scr core b := by
  unfold Store.ownScr
  cases x.loc <;> simp

/-- The store `n` of a thread has entered its core point, and the core's L1 copies of its line are gone. -/
def State.enterCore (s : State) (t : Thread) (n : Nat) (x : Store) : State :=
  let s1 := s.dropLine t.core x.loc
  { s1 with
    stores := SMap.put s1.stores n { x with seq := s1.nextStore, core := t.core, pailed := false }, nextStore := s1.nextStore + 1
    corePoint := SMap.put s1.corePoint t.core (SMap.getD s1.corePoint [] t.core ++ [n]) }

theorem State.dropLine_l1 (s : State) (core : Nat) (l : Loc) : s.dropLine core l = { s with l1 := (s.dropLine core l).l1 } := by
  cases l <;> rfl

theorem State.enterCore_frame (s : State) (t : Thread) (n : Nat) (x : Store) : s.enterCore t n x =
    { s with
      l1 := (s.dropLine t.core x.loc).l1, stores := SMap.put s.stores n { x with seq := s.nextStore, core := t.core, pailed := false }
      nextStore := s.nextStore + 1, corePoint := SMap.put s.corePoint t.core (SMap.getD s.corePoint [] t.core ++ [n]) } := by
  rw [State.enterCore, State.dropLine_l1]

/-- No quadrant of a core holds a copy of a line that is invalidated (R160). -/
theorem State.dropLine_copies (s : State) {core quad a : Nat} (hq : quad < 4) (ha : a < 2 ^ 40) :
    SMap.get? (s.dropLine core (.hbm a)).l1 (l1Key core quad a) = none := by
  have hkey : l1Key core quad a / 2 ^ 33 / 4 = core ∧ l1Key core quad a % 2 ^ 33 = a / 128 := by
    simp only [l1Key, quadKey]
    omega
  have hdrop := SMap.get?_filter_key s.l1 (fun k => !(k / 2 ^ 33 / 4 == core && k % 2 ^ 33 == a / 128)) (l1Key core quad a)
  rw [hkey.1, hkey.2, beq_self_eq_true, beq_self_eq_true] at hdrop
  exact hdrop

section
variable {s : State} {u n : Nat} {rest : List Nat} {t : Thread} {x : Store}
variable (ht : s.thread? u = some t) (hfifo : t.fifo = n :: rest) (hx : SMap.get? s.stores n = some x)
include ht hfifo hx

theorem fifoDrain_refused (hlow : s.lowerLane n x = true) : exec (.storeFifoDrain u) s = .refused (.cannotOccur "STORE_FIFO_DRAIN") := by
  change execStoreFifoDrain u s = _
  simp only [execStoreFifoDrain, ht, hfifo, hx, hlow, if_true]

/-- With no lower lane's store on its way the oldest store is performed in the own scratchpad, or enters the core point. -/
theorem fifoDrain_next (hlow : s.lowerLane n x = false) : exec (.storeFifoDrain u) s =
    if x.ownScr t.core then .next (((((s.fifoTo u rest).performStore x).dropStore n x).pailWatch x).freeDrained u)
    else .next ((((s.fifoTo u rest).enterCore t n x).pailWatch x).freeDrained u) := by
  change execStoreFifoDrain u s = _
  simp only [execStoreFifoDrain, ht, hfifo, hx, hlow, Bool.false_eq_true, if_false]
  rfl

theorem fifoDrain_enters (hstatus : t.status ≠ .draining) (hlow : s.lowerLane n x = false) (hquiet : s.pailQuiet x = true)
    (hown : ∀ b, x.loc ≠ .scr t.core b) : exec (.storeFifoDrain u) s = .next ((s.fifoTo u rest).enterCore t n x) := by
  have hwatch : ((s.fifoTo u rest).enterCore t n x).pailWatch x = (s.fifoTo u rest).enterCore t n x := by
    refine State.pailWatch_of_quiet hquiet (Eq.trans ?_ (s.fifoTo_watchHit u rest _ _ _ _ _ _))
    rw [State.enterCore_frame]
    exact State.watchHit_of_watches rfl rfl rfl _ _ _
  have hthread : ((s.fifoTo u rest).enterCore t n x).thread? u = some { t with fifo := rest } := by
    rw [State.enterCore_frame]
    exact State.fifoTo_thread ht rest
  rw [fifoDrain_next ht hfifo hx hlow, if_neg (by rw [x.ownScr_iff]; exact fun ⟨b, h⟩ => hown b h), hwatch,
    State.freeDrained_of_status hthread hstatus]

theorem fifoDrain_performs (hstatus : t.status ≠ .draining) (hlow : s.lowerLane n x = false) (hquiet : s.pailQuiet x = true) {b : Nat}
    (hown : x.loc = .scr t.core b) (hcrewed : s.crewed = true) : performs (.storeFifoDrain u) s (s.fifoTo u rest) n x := by
  have hcrewed0 := State.fifoTo_crewed hcrewed u rest
  have hunwoken : (((s.fifoTo u rest).performStore x).dropStore n x).unwoken = (s.fifoTo u rest).unwoken := by
    rw [State.dropStore_of_crewed (State.performStore_crewed hcrewed0 x)]
    exact State.performStore_unwoken _ x
  have hwatch := State.pailWatch_of_quiet hquiet ((State.watchHit_of_unwoken hunwoken _ _ _ _ _ _).trans (s.fifoTo_watchHit u rest _ _ _ _ _ _))
  obtain ⟨t1, ht1, hbase⟩ := State.thread_unwoken hunwoken (State.fifoTo_thread ht rest)
  have hstatus1 : t1.status ≠ .draining := fun h => hstatus ((congrArg Thread.status hbase :).symm.trans h)
  refine performs_of_dropStore hcrewed0 ?_
  rw [fifoDrain_next ht hfifo hx hlow, if_pos (x.ownScr_iff.2 ⟨b, hown⟩), hwatch, State.freeDrained_of_status ht1 hstatus1]

end

/-! ## CORE_POINT_DRAIN and REMOTE_STORE_PERFORM (R161, R170) -/

theorem State.dieFlag_frame (s : State) (n : Nat) (x : Store) : s.dieFlag n x = { s with stores := (s.dieFlag n x).stores, ops := (s.dieFlag n x).ops } := by
  unfold State.dieFlag
  split
  · rw [State.opDone_eq]
  · rfl

section
variable {s : State} {core i n : Nat} {x : Store} {older : List Store} (hq : s.queued (SMap.getD s.corePoint [] core) i = some (n, x, older))
include hq

theorem coreDrain_refused
    (hheld : (older.any (fun y => y.blocks x) || markerBlocks (SMap.getD s.markers [] core) (s.storesOf (SMap.getD s.corePoint [] core)) x) = true) :
    exec (.corePointDrain core i) s = .refused (.cannotOccur "CORE_POINT_DRAIN") := by
  change execCorePointDrain core i s = _
  simp only [execCorePointDrain, hq, Bool.or_assoc, hheld, Bool.or_true, if_true]

theorem coreDrain_leaves
    (hheld : (older.any (fun y => y.blocks x) || markerBlocks (SMap.getD s.markers [] core) (s.storesOf (SMap.getD s.corePoint [] core)) x) = false)
    (hscr : x.loc.isScr = false) : ∃ s', exec (.corePointDrain core i) s = .next s' ∧ s.sameStorage s' ∧
      SMap.getD s'.corePoint [] core = (SMap.getD s.corePoint [] core).eraseIdx i ∧
      SMap.getD s'.diePoint [] (dieOf core) = SMap.getD s.diePoint [] (dieOf core) ++ [n] := by
  refine ⟨({ s with
    corePoint := SMap.setD s.corePoint [] core ((SMap.getD s.corePoint [] core).eraseIdx i)
    diePoint := SMap.put s.diePoint (dieOf core) (SMap.getD s.diePoint [] (dieOf core) ++ [n]) } : State).dieFlag n x, ?_, ?_⟩
  · change execCorePointDrain core i s = _
    simp only [execCorePointDrain, hq, Bool.or_assoc, hheld, hscr, Bool.or_false, Bool.false_eq_true, if_false]
  · rw [State.dieFlag_frame]
    exact ⟨⟨rfl, rfl, rfl, rfl, rfl, rfl, rfl⟩, SMap.getD_setD_same .., (SMap.getD_put ..).trans (if_pos rfl)⟩

theorem remotePerform_performs
    (hheld : (older.any (fun y => y.blocks x) || markerBlocks (SMap.getD s.markers [] core) (s.storesOf (SMap.getD s.corePoint [] core)) x) = false)
    (hscr : x.loc.isScr = true) (hfirst : (older.any fun y => y.loc.isScr && y.uid == x.uid && y.loc.place?.1 == x.loc.place?.1) = false)
    (hcrewed : s.crewed = true) : performs (.remoteStorePerform core i) s
      { s with corePoint := SMap.setD s.corePoint [] core ((SMap.getD s.corePoint [] core).eraseIdx i) } n x := by
  obtain ⟨hblocks, hmarker⟩ := Bool.or_eq_false_iff.1 hheld
  have holder : (older.any fun y => y.blocks x || (y.loc.isScr && y.uid == x.uid && y.loc.place?.1 == x.loc.place?.1)) = false := by
    rw [List.any_eq_false] at hblocks hfirst ⊢
    exact fun y hy h => (Bool.or_eq_true_iff.1 h).elim (hblocks y hy) (hfirst y hy)
  refine performs_of_dropStore hcrewed ?_
  change execRemoteStorePerform core i s = _
  simp only [execRemoteStorePerform, hq, holder, hmarker, hscr, Bool.not_true, Bool.or_false, Bool.false_eq_true, if_false]

end

/-- Settles O25: a drain of a store FIFO refuses, enters the core point or performs (`fifoDrain_refused`, `fifoDrain_enters`, `fifoDrain_performs`);
an entry of the core point is held, leaves for the die point or is performed (`coreDrain_refused`, `coreDrain_leaves`, `remotePerform_performs`). -/
theorem corePointOrder : Obligations.CorePointOrder := by
  refine ⟨fun s u n rest t x ht hfifo hstatus hx => ⟨fifoDrain_refused ht hfifo hx, fun hown hlow hquiet => ?_,
    fun b hown hlow hquiet hcrewed => fifoDrain_performs ht hfifo hx hstatus hlow hquiet hown hcrewed⟩,
    fun s core i n x older hq => ⟨coreDrain_refused hq, coreDrain_leaves hq, remotePerform_performs hq⟩⟩
  refine ⟨_, { t with fifo := rest }, fifoDrain_enters ht hfifo hx hstatus hlow hquiet hown, ?_⟩
  rw [State.enterCore_frame]
  refine ⟨⟨rfl, rfl, rfl, rfl, rfl, rfl, rfl⟩, State.fifoTo_thread ht rest, rfl, SMap.get?_put_same ..,
    (SMap.getD_put ..).trans (if_pos rfl), fun a q ha hq hlt => ?_⟩
  rw [ha]
  exact (s.fifoTo u rest).dropLine_copies hq hlt

/-! ## The die, device and fabric points (R161, R164, R171, R172, R430) -/

/-- A store off the fabric that reaches the device point is performed there and leaves. -/
theorem State.reachDevice_performs {s : State} {x : Store} (h : x.loc.fabric = false) (n : Nat) : s.reachDevice n x = (s.performStore x).dropStore n x := by
  rw [State.reachDevice, if_neg (by simp [h])]

theorem State.reachDevice_passes {s : State} {x : Store} (h : x.loc.fabric = true) (n : Nat) : s.reachDevice n x = { s with fabric := s.fabric ++ [n] } := by
  rw [State.reachDevice, if_pos h]

/-- An L1 copy that goes changes nothing of what a store performs. -/
theorem performs_of_aside {i : Instr} {s s0 r : State} {n : Nat} {x : Store} (h : performs i s (s0.aside r) n x) : performs i s s0 n x := by
  unfold performs at h
  rw [State.performStore_aside] at h
  exact h

section
variable {s : State} {die i n : Nat} {x : Store} {older : List Store} (hq : s.queued (SMap.getD s.diePoint [] die) i = some (n, x, older))
include hq

theorem dieDrain_refused (hheld : (older.any (fun y => y.blocks x) ||
      markerBlocks (SMap.getD s.markers [] x.core) ((s.storesOf (SMap.getD s.diePoint [] die)).filter fun y => y.core == x.core) x) = true) :
    exec (.diePointDrain die i) s = .refused (.cannotOccur "DIE_POINT_DRAIN") := by
  change execDiePointDrain die i s = _
  simp only [execDiePointDrain, hq, hheld, if_true]

variable (hheld : (older.any (fun y => y.blocks x) ||
  markerBlocks (SMap.getD s.markers [] x.core) ((s.storesOf (SMap.getD s.diePoint [] die)).filter fun y => y.core == x.core) x) = false)
include hheld

/-- A store that nothing holds at its die point reaches the device point; the L1 copy a strong one drops is no part of what that does. -/
theorem dieDrain_next : ∃ l1, exec (.diePointDrain die i) s = .next
    (({ s with diePoint := SMap.setD s.diePoint [] die ((SMap.getD s.diePoint [] die).eraseIdx i), l1 := l1 } : State).reachDevice n x) := by
  change ∃ l1, execDiePointDrain die i s = _
  simp only [execDiePointDrain, hq, hheld, Bool.false_eq_true, if_false]
  split
  · rw [State.dropCopy_l1]
    exact ⟨_, rfl⟩
  · exact ⟨s.l1, rfl⟩

theorem dieDrain_passes (hfab : x.loc.fabric = true) : ∃ s', exec (.diePointDrain die i) s = .next s' ∧ s.sameStorage s' ∧ s'.fabric = s.fabric ++ [n] ∧
    SMap.getD s'.diePoint [] die = (SMap.getD s.diePoint [] die).eraseIdx i := by
  obtain ⟨l1, hnext⟩ := dieDrain_next hq hheld
  rw [State.reachDevice_passes hfab] at hnext
  exact ⟨_, hnext, ⟨rfl, rfl, rfl, rfl, rfl, rfl, rfl⟩, rfl, SMap.getD_setD_same ..⟩

theorem dieDrain_performs (hfab : x.loc.fabric = false) (hcrewed : s.crewed = true) : performs (.diePointDrain die i) s
    { s with diePoint := SMap.setD s.diePoint [] die ((SMap.getD s.diePoint [] die).eraseIdx i) } n x := by
  obtain ⟨l1, hnext⟩ := dieDrain_next hq hheld
  rw [State.reachDevice_performs hfab] at hnext
  exact performs_of_aside (r := { s with l1 := l1 }) (performs_of_dropStore (s0 := { s with
    diePoint := SMap.setD s.diePoint [] die ((SMap.getD s.diePoint [] die).eraseIdx i), l1 := l1 }) hcrewed hnext)

end

theorem fabricPerform_performs {s : State} {i n : Nat} {x : Store} {older : List Store} (hq : s.queued s.fabric i = some (n, x, older))
    (hheld : (older.any fun y => y.samePage x) = false) (hcrewed : s.crewed = true) :
    performs (.fabricPointPerform i) s { s with fabric := s.fabric.eraseIdx i } n x := by
  refine performs_of_dropStore hcrewed ?_
  change execFabricPointPerform i s = _
  simp only [execFabricPointPerform, hq, hheld, Bool.false_eq_true, if_false]

theorem gatherPerform_performs {s : State} {core i n : Nat} {x : Store} {older : List Store}
    (hq : s.queued (SMap.getD s.gatherQ [] core) i = some (n, x, older)) (hheld : (older.any fun y => y.op == x.op && y.loc.gran == x.loc.gran) = false)
    (hcrewed : s.crewed = true) (hfab : x.loc.fabric = false) :
    performs (.gatherWritePerform core i) s { s with gatherQ := SMap.setD s.gatherQ [] core ((SMap.getD s.gatherQ [] core).eraseIdx i) } n x := by
  refine performs_of_dropStore hcrewed ?_
  rw [← State.reachDevice_performs hfab]
  change execGatherWritePerform core i s = _
  simp only [execGatherWritePerform, hq, hheld, Bool.false_eq_true, if_false]

theorem landingPerform_performs {s : State} {core i n : Nat} {x : Store} {older : List Store}
    (hq : s.queued (SMap.getD s.landing [] core) i = some (n, x, older)) (hheld : (older.any fun y => y.seq == x.seq && y.meets x) = false)
    (hcrewed : s.crewed = true) (hfab : x.loc.fabric = false) :
    performs (.copyGlobalPerform core i) s { s with landing := SMap.setD s.landing [] core ((SMap.getD s.landing [] core).eraseIdx i) } n x := by
  refine performs_of_dropStore hcrewed ?_
  rw [← State.reachDevice_performs hfab]
  change execCopyGlobalPerform core i s = _
  simp only [execCopyGlobalPerform, hq, hheld, Bool.false_eq_true, if_false]

/-- Settles O26: an entry of the die point is held, passes to the fabric point or is performed at the device point (`dieDrain_refused`,
`dieDrain_passes`, `dieDrain_performs`); the other three queues perform theirs. -/
theorem devicePointOrder : Obligations.DevicePointOrder :=
  ⟨fun _ _ _ _ _ _ hq => ⟨dieDrain_refused hq, dieDrain_passes hq, dieDrain_performs hq⟩, fun _ _ _ _ _ => fabricPerform_performs,
    fun _ _ _ _ _ _ => gatherPerform_performs, fun _ _ _ _ _ _ => landingPerform_performs⟩

end Sys2Proof.Machine
end

section
/-! SUPPORT. ATOM and RED of one active lane (R166, R186, R333 to R335, R414), and the obligation about atomics. -/

namespace Sys2Proof.Machine

/-! ## What an atomic operation makes of two values (R333, R334) -/

section
variable {w ty : Nat} (hw : (if ty = 2 ∨ ty = 3 then 64 else 32) = w) (hty : ty < 4) (x y c : BitVec w)
include hw hty

theorem atomStep_add : (atomStep 0 ty x.toNat y.toNat c.toNat).1 = (x + y).toNat := by
  have h4 : ty ≠ 4 := by omega
  simp only [atomStep, h4, if_false, hw, BitVec.toNat_add]

theorem atomStep_min :
    (atomStep 1 ty x.toNat y.toNat c.toNat).1 = (if (if (ty == 0 || ty == 2) = true then y.slt x else y.ult x) then y else x).toNat := by
  have h4 : ty ≠ 4 := by omega
  simp only [atomStep, h4, if_false, hw]
  exact intOp_min _ x y

theorem atomStep_max :
    (atomStep 2 ty x.toNat y.toNat c.toNat).1 = (if (if (ty == 0 || ty == 2) = true then x.slt y else x.ult y) then y else x).toNat := by
  have h4 : ty ≠ 4 := by omega
  simp only [atomStep, h4, if_false, hw]
  exact intOp_max _ x y

end

theorem atomStep_cas {w : Nat} (ty : Nat) (x y c : BitVec w) : (atomStep 7 ty x.toNat y.toNat c.toNat).1 = (if x = c then y else x).toNat := by
  simp only [atomStep, BitVec.toNat_inj]
  split <;> rfl

theorem atomStep_words (x y c : Word) (ty : Nat) (h : ty = 0 ∨ ty = 1) :
    (atomStep 0 ty x.toNat y.toNat c.toNat).1 = (x + y).toNat ∧
    (atomStep 1 ty x.toNat y.toNat c.toNat).1 = (if (if ty = 0 then y.slt x else y.ult x) then y else x).toNat ∧
    (atomStep 2 ty x.toNat y.toNat c.toNat).1 = (if (if ty = 0 then x.slt y else x.ult y) then y else x).toNat ∧
    (atomStep 3 ty x.toNat y.toNat c.toNat).1 = (x &&& y).toNat ∧ (atomStep 4 ty x.toNat y.toNat c.toNat).1 = (x ||| y).toNat ∧
    (atomStep 5 ty x.toNat y.toNat c.toNat).1 = (x ^^^ y).toNat ∧ (atomStep 6 ty x.toNat y.toNat c.toNat).1 = y.toNat ∧
    (atomStep 7 ty x.toNat y.toNat c.toNat).1 = (if x = c then y else x).toNat := by
  have hlogic : (atomStep 3 ty x.toNat y.toNat c.toNat).1 = (x &&& y).toNat ∧ (atomStep 4 ty x.toNat y.toNat c.toNat).1 = (x ||| y).toNat ∧
      (atomStep 5 ty x.toNat y.toNat c.toNat).1 = (x ^^^ y).toNat ∧ (atomStep 6 ty x.toNat y.toNat c.toNat).1 = y.toNat ∧
      (atomStep 7 ty x.toNat y.toNat c.toNat).1 = (if x = c then y else x).toNat :=
    ⟨(BitVec.toNat_and x y).symm, (BitVec.toNat_or x y).symm, (BitVec.toNat_xor x y).symm, rfl, atomStep_cas ty x y c⟩
  have hw : (if ty = 2 ∨ ty = 3 then 64 else 32) = 32 := if_neg (by omega)
  have hmin := atomStep_min hw (by omega) x y c
  have hmax := atomStep_max hw (by omega) x y c
  refine ⟨atomStep_add hw (by omega) x y c, ?_, ?_, hlogic⟩ <;> rcases h with rfl | rfl
  · exact hmin
  · exact hmin
  · exact hmax
  · exact hmax

theorem atomStep_dwords (x y c : DWord) (ty : Nat) (h : ty = 2 ∨ ty = 3) :
    (atomStep 0 ty x.toNat y.toNat c.toNat).1 = (x + y).toNat ∧
    (atomStep 1 ty x.toNat y.toNat c.toNat).1 = (if (if ty = 2 then y.slt x else y.ult x) then y else x).toNat ∧
    (atomStep 2 ty x.toNat y.toNat c.toNat).1 = (if (if ty = 2 then x.slt y else x.ult y) then y else x).toNat ∧
    (atomStep 6 ty x.toNat y.toNat c.toNat).1 = y.toNat ∧ (atomStep 7 ty x.toNat y.toNat c.toNat).1 = (if x = c then y else x).toNat := by
  have hw : (if ty = 2 ∨ ty = 3 then 64 else 32) = 64 := if_pos h
  have hmin := atomStep_min hw (by omega) x y c
  have hmax := atomStep_max hw (by omega) x y c
  refine ⟨atomStep_add hw (by omega) x y c, ?_, ?_, rfl, atomStep_cas ty x y c⟩ <;> rcases h with rfl | rfl
  · exact hmin
  · exact hmin
  · exact hmax
  · exact hmax

/-! ## A group of one lane that takes effect for it -/

/-- An instruction of the group with one active lane, for which it takes effect: the lane arrives and the slot closes. -/
theorem part_alone {i : Instr} {n : Nat} {k : Env → Chk} {F : Env → State → List (Nat × Thread) → GroupRes} {s s2 : State} {e : Env}
    {u : Nat} {t : Thread}
    (hi : exec i s = s.perGroup n k F) (hp : s.port e = true) (ha : s.active e = [u]) (ht : (s.begin e).thread? u = some t)
    (hstall : ((k e).stall && t.spec) = false) (hcheck : (s.begin e).check e (k e) t = none)
    (hF : F e (s.begin e) [(u, t)] = .part s2 [u] []) (hrec : s2.records = (s.begin e).records) (hw : s2.warps = (s.begin e).warps)
    (hthreads : ∀ v tv, (s.begin e).thread? v = some tv → ∃ t2, s2.thread? v = some t2 ∧ t2.status = tv.status) :
    ∃ s', exec i s = .next s' ∧ s'.still = s2.still ∧ s'.passed e n := by
  have hck : checkLanes e (k e) (s.begin e) [u] = (s.begin e, [(u, t)], []) := by
    simp [checkLanes, ht, hstall, hcheck]
  have hin : s2.isInWarp u = true := by
    obtain ⟨t0, ht0, hst0, _⟩ := State.port_member hp (State.active_member (ha ▸ List.mem_singleton_self u))
    obtain ⟨t1, ht1, hbase⟩ := thread_of_same_base (s := s) (s1 := s.begin e) (by rw [State.begin_base]) ht0
    obtain ⟨t2, ht2, hst2⟩ := hthreads u t1 ht1
    simp only [State.isInWarp, ht2, hst2, status_of_base hbase, hst0, beq_self_eq_true]
  have harrive : s2.arriveAll e.wk [u] (leaving []) = s2.arrive e.wk u := by
    simp [State.arriveAll, leaving, hin]
  have hno : trapsOf e.w.members [] = [] := by
    rw [trapsOf, List.filterMap_eq_nil_iff]
    exact fun _ _ => rfl
  have hrun : exec i s = .next ((s2.arrive e.wk u).closeSlot e.wk n) := by
    rw [hi]
    simp only [State.perGroup, State.port_env hp, ha, hck, hF, GroupRes.await, State.pagesFor_same hrec, List.isEmpty_nil, if_true, harrive,
      List.append_nil, hno]
    simp [State.finish, State.takeTraps]
  have hW : WarpAt e (s2.arrive e.wk u) fun _ => True := by
    have h0 : WarpAt e s2 (fun v => v ∉ s.active e) := by
      obtain ⟨w1, h1, h2, h3⟩ := State.begin_warp hp
      exact ⟨w1, by rw [hw]; exact h1, h2, h3⟩
    refine State.arrive_warp (d := fun v => v ∉ s.active e) h0 fun v _ => ?_
    by_cases hv : v = u
    · exact .inr hv
    · exact .inl (by rw [ha]; simpa using hv)
  refine ⟨_, hrun, ?_, closeSlot_passed hW fun v hv => ?_⟩
  · rw [State.closeSlot_still]
    exact State.still_of_base (State.arrive_base ..)
  · obtain ⟨t0, h0⟩ := begin_members hp v hv
    obtain ⟨t2, h2, _⟩ := hthreads v t0 h0
    exact keepsThreads_arrive s2 e.wk u v t2 h2

/-! ## The request of one lane (R166, R186) -/

/-- What the request of a lane leaves: the warps, the records that wait, the status of each thread, and the watchpoints. -/
structure State.underway (s s1 : State) : Prop where
  warps : s1.warps = s.warps
  records : s1.records = s.records
  status : ∀ v t, s.thread? v = some t → ∃ t1, s1.thread? v = some t1 ∧ t1.status = t.status
  watchHit : ∀ u crew ctx copies seen as, s1.watchHit u crew ctx copies seen as = s.watchHit u crew ctx copies seen as

section
variable {s s1 s2 : State}

theorem State.underway.trans (h : s.underway s1) (h2 : s1.underway s2) : s.underway s2 where
  warps := h2.warps.trans h.warps
  records := h2.records.trans h.records
  status v t ht := by
    obtain ⟨t1, ht1, hst1⟩ := h.status v t ht
    obtain ⟨t2, ht2, hst2⟩ := h2.status v t1 ht1
    exact ⟨t2, ht2, hst2.trans hst1⟩
  watchHit u crew ctx copies seen as := (h2.watchHit u crew ctx copies seen as).trans (h.watchHit u crew ctx copies seen as)

theorem State.underway_of_unwoken (h : s1.unwoken = s.unwoken) (ha : s1.aside s = s1) : s.underway s1 where
  warps := (congrArg State.warps ha :).symm
  records := (congrArg State.records ha :).symm
  status v t ht := by
    obtain ⟨t1, ht1, hbase⟩ := State.thread_unwoken h ht
    exact ⟨t1, ht1, (congrArg Thread.status hbase :)⟩
  watchHit := State.watchHit_of_unwoken h

theorem State.underway_of_unacquired (h : s1.unacquired = s.unacquired) : s.underway s1 where
  warps := (congrArg State.warps h :)
  records := (congrArg State.records h :)
  status v t ht := by
    have hv := State.unacquired_thread h v
    rw [ht, Option.map_some] at hv
    obtain ⟨t1, ht1, hbase⟩ := Option.map_eq_some_iff.1 hv
    exact ⟨t1, ht1, (congrArg Thread.status hbase :)⟩
  watchHit := State.watchHit_of_unacquired h

theorem State.underway_of_quiet (h : s1.quiet = s.quiet) : s.underway s1 := by
  have hthreads : s1.threads = s.threads := (congrArg State.threads h :)
  have hcrews : s1.crews = s.crews := (congrArg State.crews h :)
  have hctxs : s1.ctxs = s.ctxs := (congrArg State.ctxs h :)
  have hthread (v : Nat) : s1.thread? v = s.thread? v := by rw [State.thread?, hthreads, State.thread?]
  exact ⟨(congrArg State.warps h :), (congrArg State.records h :), fun v t ht => ⟨t, (hthread v).trans ht, rfl⟩, fun u crew ctx copies seen as =>
    State.watchHit_of_watches (by rw [hthread]) (by rw [hcrews]) (by rw [hctxs]) copies seen as⟩

theorem State.underway_of_frame (h : s1 = { s with l1 := s1.l1, regs := s1.regs, counters := s1.counters, tlb1 := s1.tlb1, lltlb := s1.lltlb }) :
    s.underway s1 := by
  rw [h]
  exact ⟨rfl, rfl, fun _ t ht => ⟨t, ht, rfl⟩, fun _ _ _ _ _ _ => rfl⟩

end

theorem State.setRegs_frame (s : State) (t : Thread) (v : Nat) (rs : List Reg) : s.setRegs t v rs = { s with regs := (s.setRegs t v rs).regs } :=
  wrs_frame t rs s (t.wbase + v)

theorem atomDoes_underway (m : AtomArgs) (s : State) (e : Env) (u : Nat) (t : Thread) (s1 : State) (p : Place) : s1.underway (atomDoes m s e u t s1 p) := by
  have hwrite (d : List Byte) (g : Tag) : s1.underway ((s1.performWrite e.crew.ctx p.va p.loc d g p.tagAddr).barRetest p.loc) := by
    refine State.underway_of_unwoken ((State.barRetest_unwoken ..).trans (State.performWrite_unwoken ..)) ?_
    rw [← State.barRetest_aside, ← State.performWrite_aside, State.aside_self]
  have hdrop (s : State) : s.underway (s.dropLine e.core p.loc) := State.underway_of_frame (by rw [State.dropLine_l1])
  have hnote (s : State) : s.underway (s.noteWrite [p.loc.gran] 8 u) := State.underway_of_unacquired (State.noteWrite_unacquired ..)
  have hregs (s : State) (d : Nat) (rs : List Reg) : s.underway (s.setRegs t d rs) := State.underway_of_frame (by rw [State.setRegs_frame])
  unfold atomDoes
  dsimp only
  refine State.underway.trans ?_ (hnote _)
  split
  · exact (hwrite _ _).trans (hdrop _)
  · exact ((hwrite _ _).trans (hdrop _)).trans (hregs _ _ _)

/-! ## The lane's request is applied (R166, R186) -/

/-- The colour a place's page or granule `tw` has for a pointer (R90). -/
def Place.lock (p : Place) (tw : Word) : Nat :=
  match p.hit, p.loc with
  | none, _ => 0
  | _, .win _ _ => 0
  | some h, _ => h.lock tw

/-- The lane's step on the value in memory (R186). -/
def State.atomOut (s : State) (m : AtomArgs) (t : Thread) (s1 : State) (p : Place) : Nat × Bool × Nat :=
  atomStep m.aop m.ty (ofBytes (s1.readLoc p.loc (m.bits / 8))) (s.src t m.wide m.b).bits ((m.d.map fun d => (s.src t m.wide d).bits).getD 0)

/-- A lane whose request is applied at once, at the place `p` of the state `s1`. -/
structure AtomReady (m : AtomArgs) (s : State) (e : Env) (u : Nat) (t : Thread) (s1 : State) (p : Place) : Prop where
  place : s.place e m.sp (m.bits / 8) 3 (s.pair t m.pv).1.toNat = (s1, .ok p)
  colour : (m.sp == 0 && colourBad (keyOf (s.pair t m.pv).1.toNat) (p.lock (s1.twAt p.loc p.tagAddr p.ptag))) = false
  poison : twPoison (s1.twAt p.loc p.tagAddr p.ptag) = false
  line : s1.busyLine p.loc = none
  spec : t.spec = false
  region : t.region = none
  presence : ∀ c l, t.wait ≠ some (.presence c l)
  request : ∀ l, t.wait ≠ some (.request l)
  uses : s.noUse t m.chk.anom = true
  stores : s1.storesPending t p.loc = false
  page : s1.pageHeld u e.core p true = false
  fabric : ((s1.storesOf s1.fabric).any fun y => y.core == t.core && y.loc.gran == p.loc.gran) = false
  birth : (s.atomOut m t s1 p).2.2 = 0
  watch : s1.watchHit u e.crewId e.crew.ctx false 0 [⟨2, m.sp == 1, (s.pair t m.pv).1.toNat, m.bits / 8, twTag (s1.twAt p.loc p.tagAddr p.ptag)⟩] = none

theorem atomReady_of_applies {m : AtomArgs} {s : State} {e : Env} {u : Nat} {t : Thread} {s1 : State} {p : Place}
    (h : atomApplies m s e u t = some (s1, p)) : AtomReady m s e u t s1 p := by
  unfold atomApplies at h
  dsimp only at h
  split at h
  · cases h
  · next s1' p' hfound =>
    obtain ⟨hok, heq⟩ := Option.ite_none_right_eq_some.1 h
    cases heq
    simp only [Bool.and_eq_true, Bool.not_eq_true', Option.isNone_iff_eq_none, beq_iff_eq] at hok
    obtain ⟨⟨⟨⟨⟨⟨⟨⟨⟨⟨⟨hcolour, hpoison⟩, hline⟩, hspec⟩, hregion⟩, hwait⟩, huses⟩, hstores⟩, hpage⟩, hfabric⟩, hbirth⟩, hwatch⟩ := hok
    refine ⟨?_, hcolour, hpoison, hline, hspec, hregion, fun c l hw => ?_, fun l hw => ?_, huses, hstores, hpage, hfabric, hbirth, hwatch⟩
    · unfold State.found at hfound
      split at hfound
      · next hplace =>
        cases hfound
        exact hplace
      · cases hfound
    · simp [hw] at hwait
    · simp [hw] at hwait

/-- The eartag of the new value (R186, R334): the winner's for min and max, else by the birth rule. -/
theorem requestTag (g x own : Tag) : (noteTag (noteTag none g) x).getD own = if isA g then g else if isA x then x else own := by
  unfold noteTag
  cases hg : isA g
  · cases hx : isA x <;> simp
  · simp

section
variable {m : AtomArgs} {s s1 : State} {e : Env} {u : Nat} {t : Thread} {p : Place} (hr : AtomReady m s e u t s1 p)
include hr

/-- Translating the address leaves all but counters and translation caches. -/
theorem AtomReady.quiet : s1.quiet = s.quiet := by
  have h := s.place_quiet e m.sp (m.bits / 8) 3 (s.pair t m.pv).1.toNat
  rwa [hr.place] at h

theorem AtomReady.reg (v : Nat) : s1.reg t v = s.reg t v := by
  have hregs : s1.regs = s.regs := (congrArg State.regs hr.quiet :)
  unfold State.reg State.rd
  rw [hregs]

theorem AtomReady.filter : atomFilter m e s t = (s1, .ok p) := by
  have hcolour : (decide (m.sp = 0) && colourBad (keyOf (s.pair t m.pv).1.toNat) (p.lock (s1.twAt p.loc p.tagAddr p.ptag))) = false := by
    have h := hr.colour
    rwa [beq_eq_decide] at h
  unfold atomFilter
  dsimp only
  rw [hr.place]
  dsimp only
  rw [if_neg, hr.line]
  exact fun h => Bool.false_ne_true (hcolour.symm.trans h)

theorem AtomReady.waits (hcore : t.core = e.core) : s1.atomWaits [⟨u, t, p⟩] = false := by
  simp [State.atomWaits, hr.stores, hcore ▸ hr.page, hr.fabric]

/-- The lane's step on its request: no birth, the value in memory kept for the lane (R334). -/
theorem AtomReady.lane : [(⟨u, t, p⟩ : Applied)].foldl (Request.lane m e s1)
      ⟨s1, ofBytes (s1.readLoc p.loc (m.bits / 8)), twTag (s1.twAt p.loc p.tagAddr p.ptag),
        noteTag none (twTag (s1.twAt p.loc p.tagAddr p.ptag)), none, []⟩ =
    ⟨s1, (s.atomOut m t s1 p).1, if (s.atomOut m t s1 p).2.1 then (s.src t m.wide m.b).tag else twTag (s1.twAt p.loc p.tagAddr p.ptag),
      noteTag (noteTag none (twTag (s1.twAt p.loc p.tagAddr p.ptag))) (s.src t m.wide m.b).tag, none,
      [(⟨u, t, p⟩, ofBytes (s1.readLoc p.loc (m.bits / 8)))]⟩ := by
  have hbirth := hr.birth
  unfold State.atomOut at hbirth ⊢
  rw [List.foldl_cons, List.foldl_nil]
  unfold Request.lane
  dsimp only
  rw [src_congr hr.reg]
  cases hd : m.d with
  | none =>
    rw [hd] at hbirth
    exact if_neg (by simpa using hbirth)
  | some d =>
    rw [hd] at hbirth
    refine (if_neg (by simpa [src_congr hr.reg] using hbirth)).trans ?_
    simp only [src_congr hr.reg]
    rfl

/-- A request of that lane alone does what the lane does, and no watchpoint is hit. -/
theorem AtomReady.requested : atomRequest m e s1 (s1, []) [⟨u, t, p⟩] = (atomDoes m s e u t s1 p, []) := by
  have hwatch : (atomDoes m s e u t s1 p).atomWatch e m ⟨u, t, p⟩ (s.pair t m.pv).1.toNat (twTag (s1.twAt p.loc p.tagAddr p.ptag)) = [] := by
    rw [State.atomWatch, (atomDoes_underway m s e u t s1 p).watchHit, hr.watch]
    rfl
  have hpair : ∀ s2, s2 = atomDoes m s e u t s1 p → (s2, [] ++ [(⟨u, t, p⟩ : Applied)].flatMap fun x =>
      s2.atomWatch e m x (s1.pair x.t m.pv).1.toNat (twTag (s1.twAt p.loc p.tagAddr p.ptag))) = (atomDoes m s e u t s1 p, []) := by
    rintro s2 rfl
    rw [List.flatMap_singleton, pair_congr hr.reg, hwatch, List.nil_append]
  unfold atomRequest
  dsimp only
  rw [hr.poison, if_neg (by simp), hr.lane]
  refine hpair _ ?_
  rw [requestTag, List.foldl_cons, List.foldl_nil]
  unfold atomDoes State.atomOut
  cases m.d with
  | none => rfl
  | some d => rfl

/-- The request of the one lane that has passed the filter takes its step, and no lane is held. -/
theorem AtomReady.first : atomFirst m e s1 [] [] [⟨u, t, p⟩] = .part (atomDoes m s e u t s1 p) [u] [] := by
  have hmine : [(⟨u, t, p⟩ : Applied)].filter (fun y => y.p.loc == p.loc) = [⟨u, t, p⟩] := by simp
  have hothers : ([] : List Applied).filter (fun y => y.p.loc != p.loc) = [] := rfl
  unfold atomFirst
  dsimp only
  rw [hmine, hr.requested, hothers]
  rfl

/-- No region commits for that lane. -/
theorem AtomReady.commit (ht : s.thread? u = some t) : s.commitRegion u = s := by
  simp only [State.commitRegion, ht, hr.region]

/-- The lane has parked on no presence: it does not acquire. -/
theorem AtomReady.woken : s1.wokenAcquire u t = s1 := by
  unfold State.wokenAcquire
  split
  · exact absurd ‹_› (hr.presence _ _)
  · rfl

theorem AtomReady.check (hn : e.names t m.chk.uses = true) : s.check e m.chk t = none := by
  refine check_none rfl hn ?_
  have h := hr.uses
  simp only [State.noUse, Bool.or_eq_true, bne_iff_ne, List.all_eq_true, Bool.not_eq_true'] at h
  exact h

end

/-- ATOM or RED of one active lane whose request is applied at once (R186). -/
theorem atomic_alone {i : Instr} {m : AtomArgs} {s s1 : State} {e : Env} {u : Nat} {t : Thread} {p : Place} (hi : exec i s = atomic m s)
    (hp : s.port e = true) (ha : s.active e = [u]) (ht : (s.begin e).thread? u = some t) (hn : e.names t m.chk.uses = true)
    (hr : AtomReady m (s.begin e) e u t s1 p) :
    ∃ s', exec i s = .next s' ∧ s'.still = (atomDoes m (s.begin e) e u t s1 p).still ∧ s'.passed e 1 := by
  have hcore : t.core = e.core := by
    obtain ⟨t0, ht0, _, hc, _⟩ := State.port_member hp (State.active_member (ha ▸ List.mem_singleton_self u))
    obtain ⟨t1, ht1, hbase⟩ := thread_of_same_base (s := s) (s1 := s.begin e) (by rw [State.begin_base]) ht0
    cases ht.symm.trans ht1
    exact (congrArg Thread.core hbase : t.base.core = t0.base.core).trans hc
  have hrun := (State.underway_of_quiet hr.quiet).trans (atomDoes_underway m (s.begin e) e u t s1 p)
  refine part_alone hi hp ha ht (by rw [hr.spec, Bool.and_false]) (hr.check hn) ?_ hrun.records hrun.warps hrun.status
  dsimp only
  rw [List.filter_cons_of_neg, List.filter_nil]
  · simp only [List.isEmpty_nil, Bool.not_true, Bool.false_eq_true, if_false, List.foldl_cons, List.foldl_nil, hr.commit ht, List.filterMap_cons, ht,
      Option.map_some, List.filterMap_nil, atomFilterAll, hr.filter, hr.waits hcore, hr.woken, hr.first]
  · dsimp only
    split
    · exact absurd ‹_› (hr.request _)
    · exact Bool.false_ne_true

/-- Settles O28: the lane passes the filter, waits for nothing and its request does what `atomDoes` says (`AtomReady.filter`, `AtomReady.waits`,
`AtomReady.requested`); the operations on words and double words by the arithmetic of bit vectors. -/
theorem atomics : Obligations.Atomics := by
  refine ⟨?_, atomStep_words, atomStep_dwords⟩
  rintro i m (⟨f, -, rfl, rfl⟩ | ⟨f, -, rfl, rfl⟩) s e u t s1 p hp ha ht hn happlies
  · exact atomic_alone rfl hp ha ht hn (atomReady_of_applies happlies)
  · exact atomic_alone rfl hp ha ht hn (atomReady_of_applies happlies)

end Sys2Proof.Machine
end

section
/-! SUPPORT. CREWBAR in a machine whose map of threads holds a number twice (R183, R358). The obligation asks of the machine only that a warp
stands at the issue port, so such a state is among those it speaks of; a map in canonical form holds no key twice. -/

namespace Sys2Proof.Machine

/-- One lane at the issue port, the callee of thread 2; a second entry of its number is a launched thread that drains. -/
def threadTwice : State :=
  { State.reset.placeWords [] with
    cur := some 0, threads := [(1, { threadOne 0 with callee := some 2 }), (1, { threadOne 0 with status := .draining })] }

/-- The warp at that port. -/
def threadTwiceEnv : Env :=
  ⟨0, ⟨[1], 0, 0, clauseOf [], 1, [], false, 0, 0, 0⟩, 1, crewOne, launchOne false 0 false, contextOne, 0, false⟩

/-- The lane as the slot finds it, once it is counted. -/
def threadTwiceLane : Thread := { threadOne 0 with callee := some 2, wdog := 1 }

/-- The phase of each crew's barrier, and the threads that have arrived in it. -/
def crewBars (m : SMap Crew) : List (Nat × List Nat) := m.map fun e => (e.2.barPhase, e.2.barArrived)

/-- CREWBAR as the model runs it does not pass the phase: `State.park` changes every entry of the key, so the second entry no longer drains,
and the barrier expects it. -/
theorem exec_crewbar_threadTwice : ∃ s', exec .crewbar threadTwice = .next s' ∧ crewBars s'.crews = [(0, [2])] :=
  ⟨match exec .crewbar threadTwice with | .next s' => s' | _ => threadTwice, rfl, by decide⟩

/-- Refutes O34: in `threadTwice` CREWBAR leaves its phase open (`exec_crewbar_threadTwice`), where the stated effect, which judges the barrier
before the lane has parked, passes it. -/
theorem not_crewAndGangBarriers : ¬ Obligations.CrewAndGangBarriers := by
  rintro ⟨hcrewbar, -⟩
  obtain ⟨s', hexec, hstill, -⟩ := hcrewbar threadTwice threadTwiceEnv 1 threadTwiceLane (by decide) (by decide) (by decide) (by decide) (by decide)
  obtain ⟨s'', hexec', hrun⟩ := exec_crewbar_threadTwice
  obtain rfl : s'' = s' := Host.Outcome.next.inj (hexec'.symm.trans hexec)
  have hstated := congrArg (fun s => crewBars s.crews) hstill
  exact absurd (hrun.symm.trans hstated) (by decide)

end Sys2Proof.Machine
end

section
/-! SUPPORT. MONITOR and MWAIT (R182, R399, R404): what arms, what goes on, what waits and what runs out. -/

namespace Sys2Proof.Machine

/-- An acquire leaves the warps, the records that wait and every thread (R169, R201). -/
theorem State.acquire_underway (s : State) (u : Nat) : s.underway (s.acquire u) := State.underway_of_unacquired (s.acquire_unacquired u)

theorem State.underway.keepsThreads {s s1 : State} (h : s.underway s1) : keepsThreads s s1 := fun v t hv => by
  obtain ⟨t1, ht1, _⟩ := h.status v t hv
  exact ⟨t1, ht1⟩

/-- The place of an access is found where the checks 7 and 8 of R329 give it. -/
theorem State.place_of_found {s s1 : State} {e : Env} {sp width need a : Nat} {p : Place} (h : s.found e sp width need a = some (s1, p)) :
    s.place e sp width need a = (s1, .ok p) := by
  unfold State.found at h
  split at h
  · next hplace =>
    cases h
    exact hplace
  · cases h

/-- MONITOR finds the place of its granule and arms on it, dropping an earlier arming. -/
theorem monitor_effects (f : FMonitor) : let m : ObjArgs := ⟨2 * f.p.toNat, f.off.toNat, if f.s then 1 else 0⟩
    effects (.monitor f) 1 [⟨2 * f.p.toNat, 2, 1⟩] (fun s e _ t => !t.spec && (s.found e m.sp 1 1 (m.addr s t)).isSome)
      (fun s e u t => match s.found e m.sp 1 1 (m.addr s t) with
        | none => s
        | some (s1, p) => s1.modThread u fun x => { x with monitor := some (p.loc.canon.gran, false) }) := by
  intro m
  refine effects_of_lane (hi := fun _ => rfl) fun e s u t _ hn hok => ?_
  simp only [Bool.and_eq_true, Bool.not_eq_true', Option.isSome_iff_exists] at hok
  obtain ⟨hspec, ⟨s1, p⟩, hfound⟩ := hok
  have hplace := State.place_of_found hfound
  have hquiet := s.place_quiet e m.sp 1 1 (m.addr s t)
  rw [hplace] at hquiet
  have hunder := State.underway_of_quiet hquiet
  rw [hfound]
  refine ⟨by rw [hspec, Bool.and_false], check_none rfl hn (Or.inr (by simp [ObjArgs.chk])), ?_, State.pagesFor_same hunder.records, hunder.warps,
    fun v tv hv => ?_⟩
  · unfold monitorLane
    dsimp only
    rw [hplace]
  · obtain ⟨t1, ht1⟩ := hunder.keepsThreads v tv hv
    exact keepsThreads_modThread s1 u _ v t1 ht1

/-- MWAIT goes on at once where nothing is armed or a write has come; the write's arming is over, and the lane acquires. -/
theorem mwait_effects (v : VReg) : effects (.mwait v) 1 [⟨v.toNat, 1, 1⟩] (fun _ _ _ t => !t.spec && (t.monitor.map (·.2)) != some false)
    (fun s _ u t => if t.monitor.isNone then s else (s.modThread u fun x => { x with monitor := none }).acquire u) := by
  refine effects_of_lane (hi := fun _ => rfl) fun e s u t _ hn hok => ?_
  simp only [Bool.and_eq_true, Bool.not_eq_true', bne_iff_ne, ne_eq] at hok
  obtain ⟨hspec, hmonitor⟩ := hok
  refine ⟨by rw [hspec, Bool.and_false], check_none rfl hn (Or.inr (by simp)), ?_⟩
  unfold mwaitLane
  rcases hm : t.monitor with _ | ⟨l, written⟩
  · exact ⟨rfl, State.pagesFor_same rfl, rfl, keepsThreads_refl s⟩
  · obtain rfl : written = true := by simpa [hm] using hmonitor
    have hunder := State.acquire_underway (s.modThread u fun x => { x with monitor := none }) u
    refine ⟨rfl, State.pagesFor_same hunder.records, hunder.warps, fun w tw hw => ?_⟩
    obtain ⟨t1, ht1⟩ := keepsThreads_modThread s u (fun x => { x with monitor := none }) w tw hw
    exact hunder.keepsThreads w t1 ht1

/-- A lane parks with a timer, which shows only in its place. -/
theorem State.parkTimed_facts {s : State} {e : Env} {u : Nat} {t : Thread} (ht : s.thread? u = some t) (w : Wait) (cycles : Nat) :
    (s.parkTimed e u t w cycles).still = s.still ∧ (s.parkTimed e u t w cycles).warps = (s.leaveWarp e.wk u).warps ∧
    keepsThreads s (s.parkTimed e u t w cycles) ∧ (s.parkTimed e u t w cycles).standsAt u ⟨e.w.pc, e.w.slot, .boundary, some w⟩ := by
  obtain ⟨hstill, hwarps, hkeeps, hthread⟩ := left_facts (wk := e.wk)
    (m := fun t => { t.standAt e.w.pc e.w.slot false false with wait := some w }) (fun _ => rfl) ht
  have hparked : (s.parkTimed e u t w cycles).thread? u = some { t.standAt e.w.pc e.w.slot false false with
      wait := some w, timer := some (t.timer.getD cycles) } := by
    unfold State.parkTimed State.park
    rw [State.modThread_thread_same, hthread, Option.map_some]
  refine ⟨?_, hwarps, fun v tv hv => ?_, _, hparked, rfl, rfl, rfl, rfl⟩
  · exact Eq.trans (State.modThread_still _ u (fun x => { x with timer := some (t.timer.getD cycles) }) fun _ => rfl) hstill
  · obtain ⟨t1, ht1⟩ := hkeeps v tv hv
    exact keepsThreads_modThread _ u _ v t1 ht1

/-- MWAIT waits where its monitor is armed and no write has come, and its time runs. -/
theorem mwait_departs (v : VReg) : departs (.mwait v) 1 [⟨v.toNat, 1, 1⟩]
    (fun s _ _ t => !t.spec && (t.monitor.map (·.2)) == some false && !t.timedOut && s.w32 t v != 0)
    (fun s _ _ _ => s) (fun _ e _ _ => ⟨e.w.pc, e.w.slot, .boundary, some .monitor⟩) := by
  refine departs_of_gone (hi := fun _ => rfl) fun e s u t ht hn hok => ?_
  simp only [Bool.and_eq_true, Bool.not_eq_true', bne_iff_ne, ne_eq, beq_iff_eq] at hok
  obtain ⟨⟨⟨hspec, hmonitor⟩, htimer⟩, hcycles⟩ := hok
  obtain ⟨⟨l, written⟩, hm, rfl⟩ := Option.map_eq_some_iff.1 hmonitor
  have hcycles' : ((s.reg t v.toNat).val.toNat == 0) = false :=
    beq_eq_false_iff_ne.mpr fun h => hcycles (BitVec.eq_of_toNat_eq h)
  obtain ⟨hstill, hwarps, hkeeps, hstands⟩ := State.parkTimed_facts (e := e) ht .monitor (s.reg t v.toNat).val.toNat
  refine ⟨by rw [hspec, Bool.and_false], check_none rfl hn (Or.inr (by simp)), _, ?_, hstill, hwarps, hkeeps, hstands⟩
  unfold mwaitLane
  rw [hm]
  dsimp only
  rw [htimer, hcycles']
  rfl

/-- The time of a parked MWAIT runs out once. -/
theorem exec_mwaitTimeout {s : State} {u : Nat} {t : Thread} {l : Loc} (ht : s.thread? u = some t) (hwait : t.wait = some .monitor)
    (htimer : t.timer = some 0) (hout : t.timedOut = false) (hmonitor : t.monitor = some (l, false)) :
    exec (.mwaitTimeout u) s = .next (s.modThread u fun t => { t with timedOut := true }) := by
  show execMwaitTimeout u s = _
  unfold execMwaitTimeout
  rw [ht]
  dsimp only
  rw [hwait, htimer, hout, hmonitor]
  rfl

/-- Settles O30: MONITOR and MWAIT lane by lane, and the expiry of MWAIT's time. -/
theorem monitors : Obligations.Monitors :=
  ⟨monitor_effects, mwait_effects, mwait_departs, fun _ _ _ _ ht hwait htimer hout hmonitor => exec_mwaitTimeout ht hwait htimer hout hmonitor⟩

end Sys2Proof.Machine
end

section
/-! SUPPORT. Barrier objects (R177 to R181): what an arrival and the completion test make of one, which phases it has passed, and where its
address leads. -/

namespace Sys2Proof.Machine

/-! ## Arrivals and the completion test (R178, R179) -/

/-- Setting bit 1 of a number: it rises by 2 where the bit was clear. -/
theorem or_two (r : Nat) : r ||| 2 = if r.testBit 1 then r else r + 2 := by
  have hhigh : (r ||| 2) / 2 ^ 2 = r / 2 ^ 2 := by rw [Nat.or_div_two_pow, show 2 / 2 ^ 2 = 0 from rfl, Nat.or_zero]
  have hlow : (r ||| 2) % 2 ^ 2 = if r % 4 < 2 then r % 4 + 2 else r % 4 := by
    rw [Nat.or_mod_two_pow, show (2 : Nat) ^ 2 = 4 from rfl]
    generalize hq : r % 4 = q
    have hq4 : q < 4 := by omega
    interval_cases q <;> rfl
  rw [Nat.testBit_eq_decide_div_mod_eq]
  simp only [decide_eq_true_eq]
  split at hlow <;> split <;> omega

/-- Setting OVR. -/
theorem Bar.setBit_ovr (x : Bar) : x.setBit 1 true = { x with rest := x.rest ||| 2 } := by
  have hor : (if x.rest.testBit 1 then x.rest - 2 ^ 1 else x.rest) + 2 ^ 1 = x.rest ||| 2 := by
    rw [or_two]
    split
    · next hset => exact Nat.sub_add_cancel (Nat.ge_two_pow_of_testBit hset)
    · rfl
  unfold Bar.setBit
  dsimp only
  rw [if_pos rfl, hor]

theorem Bar.arrive_eq (x : Bar) : x.arrive = if x.arr = 0 then { x with rest := x.rest ||| 2 } else { x with arr := x.arr - 1 } := by
  rw [Bar.arrive, Bar.setBit_ovr]

/-- The completion test where it finds the phase complete. -/
theorem Bar.test_completes {x : Bar} (hposted : x.posted = true) (hovr : x.ovr = false) (herr : x.err = false) (harr : x.arr = 0)
    (hbytes : x.bytes = 0) : x.test = ({ x with phase := (x.phase + 1) % 2 ^ 32, arr := x.exp } : Bar).setBit 0 x.arvonly := by
  unfold Bar.test
  simp [hposted, hovr, herr, harr, hbytes]

theorem Bar.posted_setBit (x : Bar) (b : Bool) : (x.setBit 0 b).posted = b := by
  have heven : (if x.rest.testBit 0 then x.rest - 2 ^ 0 else x.rest) % 2 = 0 := by
    rw [Nat.testBit_zero]
    simp only [decide_eq_true_eq]
    split <;> omega
  unfold Bar.posted Bar.setBit
  dsimp only
  generalize (if x.rest.testBit 0 then x.rest - 2 ^ 0 else x.rest) = r at heven ⊢
  rw [Nat.testBit_zero]
  cases b
  · simp [heven]
  · simp [Nat.add_mod, heven]

theorem Bar.test_overruns {x : Bar} (hposted : x.posted = true) (hbytes : x.bytes < 0) : x.test = { x with rest := x.rest ||| 2 } := by
  unfold Bar.test
  rw [hposted, decide_eq_true hbytes, Bool.and_true, if_pos rfl, Bar.setBit_ovr]

theorem Bar.test_open {x : Bar}
    (h : x.posted = false ∨ (0 ≤ x.bytes ∧ (x.ovr = true ∨ x.err = true ∨ x.arr ≠ 0 ∨ x.bytes ≠ 0))) : x.test = x := by
  unfold Bar.test
  rcases h with hposted | ⟨hbytes, hopen⟩
  · simp [hposted]
  · rw [decide_eq_false (Int.not_lt.mpr hbytes), Bool.and_false, if_neg Bool.false_ne_true, if_neg]
    simp only [Bool.and_eq_true, Bool.not_eq_true', beq_iff_eq]
    rintro ⟨⟨⟨⟨hovr, herr⟩, -⟩, harr⟩, hzero⟩
    rcases hopen with h | h | h | h <;> simp_all

/-! ## Phases (R181) -/

theorem phasePassed_toNat (p n : Word) : phasePassed p.toNat n.toNat = (0#32).slt (p - n) := by
  have hdiff : (p.toNat + 2 ^ 32 - n.toNat % 2 ^ 32) % 2 ^ 32 = (p - n).toNat := by
    rw [BitVec.toNat_sub]
    omega
  have hmod (k : Nat) : sext 32 k = sext 32 (k % 2 ^ 32) := by simp only [sext, Nat.mod_mod]
  rw [phasePassed, hmod, hdiff, sext_toNat, BitVec.slt]
  rfl

/-! ## The object an address names (R133) -/

theorem ObjArgs.place_scr {m : ObjArgs} (hsp : m.sp = 1) (s : State) (e : Env) (t : Thread) : m.found s e t =
    if m.addr s t % 16 = 0 ∧ m.addr s t + 16 ≤ 128 * e.crew.lines then some (e.crew.core, 128 * e.crew.base + m.addr s t) else none := by
  unfold ObjArgs.found ObjArgs.place State.addrCheck
  rw [hsp]
  by_cases halign : m.addr s t % 16 = 0
  · by_cases hin : m.addr s t + 16 ≤ 128 * e.crew.lines
    · simp [halign, hin, Crew.phys]
    · simp [halign, hin]
  · simp [halign]

/-- Settles O31: what is written to an object is read of it (`State.barAt_putBar`); arrivals and the completion test are judged case by case
(`Bar.arrive_eq`, `Bar.test_completes`, `Bar.test_overruns`, `Bar.test_open`), phases as signed words (`phasePassed_toNat`). -/
theorem barrierObjectRules : Obligations.BarrierObjectRules := by
  refine ⟨fun s c b x hphase hexp harr hrest hlow hhigh => State.barAt_putBar ⟨hphase, harr, hexp, hlow, hhigh, hrest⟩, Bar.arrive_eq,
    fun x hposted hovr herr harr hbytes _ => ?_, fun x => Bar.test_overruns, fun x => Bar.test_open, phasePassed_toNat,
    fun m s e t hsp => ObjArgs.place_scr hsp s e t⟩
  rw [Bar.test_completes hposted hovr herr harr hbytes]
  exact ⟨rfl, rfl, rfl, hbytes, Bar.posted_setBit _ _⟩

end Sys2Proof.Machine
end

section
/-! SUPPORT. WAITP and TRYWAIT (R181, R434, R435). -/

namespace Sys2Proof.Machine

theorem ObjArgs.place_of_found {m : ObjArgs} {s : State} {e : Env} {t : Thread} {x : Nat × Nat} (h : m.found s e t = some x) :
    m.place s e t = .ok x := by
  unfold ObjArgs.found at h
  split at h
  · next hplace => rw [hplace, Option.some.inj h]
  · cases h

theorem ObjArgs.check {m : ObjArgs} {s : State} {e : Env} {t : Thread} {more : List Use} (h : e.names t (⟨m.pv, 2, 1⟩ :: more) = true) :
    s.check e (m.chk more) t = none := check_none rfl h (Or.inr (by simp [ObjArgs.chk]))

/-! ## What a lane finds at its object (R181) -/

section
variable {m : ObjArgs} {s : State} {t : Thread} {c b n : Nat}

/-- A lane that is neither woken nor failed judges the object as it reads. -/
theorem ObjArgs.judge_fresh (hwoken : t.wait ≠ some .woken) (hfailed : t.failedWait = false) : m.judge s t c b n =
    match (s.barAt c b).wakes n with
    | none => .wait
    | some (.failed k a) => .trap (m.trap s t k a)
    | some _ => .passed := by
  unfold ObjArgs.judge
  dsimp only
  split
  · next h =>
    split at h
    · cases h
    · cases h
    · rw [h]
  · next k a h =>
    split at h
    · cases h
    · next hw => simp [Thread.failedWait, hw] at hfailed
    · rw [h]
  · next w hne h =>
    split at h
    · next hw => exact absurd hw hwoken
    · next k a hw => simp [Thread.failedWait, hw] at hfailed
    · rw [h]
      split <;> simp_all

theorem ObjArgs.judge_passed (h : t.wait = some .woken ∨ t.failedWait = false ∧ phasePassed (s.barAt c b).phase n = true) :
    m.judge s t c b n = .passed := by
  by_cases hwoken : t.wait = some .woken
  · simp only [ObjArgs.judge, hwoken]
  · obtain ⟨hfailed, hphase⟩ := h.resolve_left hwoken
    rw [ObjArgs.judge_fresh hwoken hfailed, Bar.wakes, if_pos hphase]

/-- A wait whose phase has not passed: the lane is neither woken nor failed. -/
structure ObjArgs.pending (s : State) (t : Thread) (c b n : Nat) : Prop where
  woken : t.wait ≠ some .woken
  failed : t.failedWait = false
  phase : phasePassed (s.barAt c b).phase n = false

theorem ObjArgs.judge_wait (h : ObjArgs.pending s t c b n) (hovr : (s.barAt c b).ovr = false) (herr : (s.barAt c b).err = false) :
    m.judge s t c b n = .wait := by
  rw [ObjArgs.judge_fresh h.woken h.failed, Bar.wakes, h.phase, hovr, herr]
  rfl

theorem ObjArgs.judge_trap (h : ObjArgs.pending s t c b n) (hbad : ((s.barAt c b).ovr || (s.barAt c b).err) = true) :
    m.judge s t c b n = .trap (m.waitTrap s t c b) := by
  rw [ObjArgs.judge_fresh h.woken h.failed, Bar.wakes, h.phase, if_neg Bool.false_ne_true, ObjArgs.waitTrap]
  cases hovr : (s.barAt c b).ovr
  · rw [hovr, Bool.false_or] at hbad
    rw [hbad]
    rfl
  · rfl

theorem ObjArgs.waitTrap_resumes : trapResumesNext (m.waitTrap s t c b).num = true := by
  unfold ObjArgs.waitTrap
  dsimp only
  split <;> decide

end

/-- A wait that fails takes its trap, when its lanes judge their object as `judge` does (R181, R231). -/
theorem waitTraps_of_lane {i : Instr} {n : Nat} {m : ObjArgs} {more : List Use} {ph : State → Thread → Nat}
    {F : Env → State → Nat → Thread → LaneRes} (hi : ∀ s, exec i s = s.perLane n (fun _ => m.chk more) F)
    (hF : ∀ e s u t x tr, m.place s e t = .ok x → m.judge s t x.1 x.2 (ph s t) = .trap tr → F e s u t = .trap s tr) :
    waitTraps i n m (⟨m.pv, 2, 1⟩ :: more) ph := by
  intro c b
  have hdeparts := departs_of_trap (i := i) (n := n) (k := fun _ => m.chk more) (F := F) (uses := ⟨m.pv, 2, 1⟩ :: more)
    (ok := fun s e u t => !t.spec && m.found s e t == some (c, b) && t.wait != some .woken && !t.failedWait &&
      !(phasePassed (s.barAt c b).phase (ph s t)) && ((s.barAt c b).ovr || (s.barAt c b).err) && s.mayTrap e u t (m.waitTrap s t c b))
    (tr := fun s _ _ t => m.waitTrap s t c b) (hi := hi) fun e s u t _ hn hok => by
      simp only [Bool.and_eq_true, Bool.not_eq_true', beq_iff_eq, bne_iff_ne, ne_eq] at hok
      obtain ⟨⟨⟨⟨⟨⟨hspec, hfound⟩, hwoken⟩, hfailed⟩, hphase⟩, hbad⟩, hmay⟩ := hok
      have hlive := hmay
      simp only [State.mayTrap, Bool.and_eq_true] at hlive
      have hkept := faultRecord_kept s (e.issuer u t) (m.waitTrap s t c b) (2 ^ t.lane) t.held.isSome false hlive.2
      exact ⟨by rw [hspec, Bool.and_false], rfl, rfl, hmay,
        Or.inr ⟨ObjArgs.check hn, hF e s u t (c, b) _ (ObjArgs.place_of_found hfound) (ObjArgs.judge_trap ⟨hwoken, hfailed, hphase⟩ hbad)⟩,
        hkept.warps, hkept.threads⟩
  simpa only [ObjArgs.waitTrap_resumes, if_true, Env.nextAt] using hdeparts

/-! ## WAITP (R434, R435) -/

theorem waitLane_judge {m : ObjArgs} {n : Nat} {e : Env} {s : State} {t : Thread} {x : Nat × Nat} (h : m.place s e t = .ok x) (u : Nat) :
    waitLane m n e s u t = match m.judge s t x.1 x.2 n with
      | .passed => .done (s.acquire u)
      | .trap tr => .trap s tr
      | .wait => .park s (.phase (.scr x.1 x.2) n) := by
  rw [waitLane, h] <;> rfl

theorem waitsPhase_of_lane {i : Instr} {n : Nat} {m : ObjArgs} {more : List Use} {ph : State → Thread → Nat}
    (hi : ∀ s, exec i s = s.perLane n (fun _ => m.chk more) fun e s u t => waitLane m (ph s t) e s u t) : waitsPhase i n m more ph := by
  refine ⟨effects_of_lane (hi := hi) fun e s u t _ hn hok => ?_, fun c b => departs_of_park (hi := hi) fun e s u t _ hn hok => ?_,
    waitTraps_of_lane hi fun e s u t x tr hplace hjudge => by rw [waitLane_judge hplace, hjudge]⟩
  · simp only [Bool.and_eq_true, Bool.not_eq_true', Option.any_eq_true, Bool.or_eq_true, beq_iff_eq] at hok
    obtain ⟨hspec, x, hfound, hpassed⟩ := hok
    have hunder := s.acquire_underway u
    refine ⟨by rw [hspec, Bool.and_false], ObjArgs.check hn, ?_, State.pagesFor_same hunder.records, hunder.warps, hunder.keepsThreads⟩
    rw [waitLane_judge (ObjArgs.place_of_found hfound), ObjArgs.judge_passed hpassed]
  · simp only [Bool.and_eq_true, Bool.not_eq_true', beq_iff_eq, bne_iff_ne, ne_eq] at hok
    obtain ⟨⟨⟨⟨⟨⟨hspec, hfound⟩, hwoken⟩, hfailed⟩, hphase⟩, hovr⟩, herr⟩ := hok
    refine ⟨by rw [hspec, Bool.and_false], ObjArgs.check hn, s, _, ?_, rfl, rfl, keepsThreads_refl s, rfl⟩
    rw [waitLane_judge (ObjArgs.place_of_found hfound), ObjArgs.judge_wait ⟨hwoken, hfailed, hphase⟩ hovr herr]

/-! ## TRYWAIT (R434, R435) -/

/-- The operand of TRYWAIT. -/
def tryObj (f : FTry) : ObjArgs := ⟨2 * f.p.toNat, f.off.toNat, 1⟩

/-- The cycles a TRYWAIT waits at most. -/
def tryHint (f : FTry) (s : State) (t : Thread) : Nat := (s.reg t f.h.toNat).val.toNat % 65536

theorem tryHint_eq_zero (f : FTry) (s : State) (t : Thread) : tryHint f s t = 0 ↔ (s.w32 t f.h).extractLsb' 0 16 = 0#16 := by
  rw [← BitVec.toNat_inj, BitVec.extractLsb'_toNat, Nat.shiftRight_zero]
  rfl

/-- The registers TRYWAIT names besides its object. -/
def tryMore (f : FTry) : List Use := ⟨f.h.toNat, 1, 1⟩ :: match f.n with
  | .imm _ => []
  | .reg r => [⟨r.toNat, 1, 1⟩]

theorem exec_trywait (f : FTry) (s : State) : exec (.trywait f) s =
    s.perLane 2 (fun _ => (tryObj f).chk (tryMore f)) fun e s u t => tryLane (tryObj f) f.pd (tryPhase f s t) (tryHint f s t) e s u t := rfl

theorem tryLane_judge {m : ObjArgs} {n : Nat} {e : Env} {s : State} {t : Thread} {x : Nat × Nat} (h : m.place s e t = .ok x) (pd : PReg) (hint u : Nat) :
    tryLane m pd n hint e s u t = match m.judge s t x.1 x.2 n with
      | .passed => .done ((s.acquire u).modThread u fun t => t.setPred pd true)
      | .trap tr => .trap s tr
      | .wait => if t.timedOut || hint == 0 then .done (s.modThread u fun t => t.setPred pd false)
        else .gone (s.parkTimed e u t (.phase (.scr x.1 x.2) n) hint) := by
  rw [tryLane, h] <;> rfl

/-- TRYWAIT goes on: with its phase passed it acquires and writes true; with no hint, or its hint run out, it writes false. -/
theorem trywait_effects (f : FTry) :
    effects (.trywait f) 2 (tryUses f)
      (fun s e _ t => !t.spec && ((tryObj f).found s e t).any fun x =>
        t.wait == some .woken || !t.failedWait && (phasePassed (s.barAt x.1 x.2).phase (tryPhase f s t) ||
          !(s.barAt x.1 x.2).ovr && !(s.barAt x.1 x.2).err && (t.timedOut || (s.w32 t f.h).extractLsb' 0 16 == 0#16)))
      (fun s e u t =>
        let passed := ((tryObj f).found s e t).any fun x => t.wait == some .woken || phasePassed (s.barAt x.1 x.2).phase (tryPhase f s t)
        (if passed then s.acquire u else s).modThread u fun x => x.setPred f.pd passed) := by
  refine effects_of_lane (hi := exec_trywait f) fun e s u t _ hn hok => ?_
  simp only [Bool.and_eq_true, Bool.not_eq_true', Option.any_eq_true, Bool.or_eq_true, beq_iff_eq] at hok
  obtain ⟨hspec, x, hfound, hgoes⟩ := hok
  have hchk : s.check e ((tryObj f).chk (tryMore f)) t = none := ObjArgs.check hn
  dsimp only
  rw [tryLane_judge (ObjArgs.place_of_found hfound), hfound, Option.any_some]
  by_cases hpassed : t.wait = some .woken ∨ t.failedWait = false ∧ phasePassed (s.barAt x.1 x.2).phase (tryPhase f s t) = true
  · have htrue : (t.wait == some .woken || phasePassed (s.barAt x.1 x.2).phase (tryPhase f s t)) = true := by
      rw [Bool.or_eq_true, beq_iff_eq]
      exact hpassed.imp_right And.right
    have hunder := s.acquire_underway u
    rw [ObjArgs.judge_passed hpassed, htrue]
    refine ⟨by rw [hspec, Bool.and_false], hchk, rfl, State.pagesFor_same hunder.records, hunder.warps, fun v tv hv => ?_⟩
    obtain ⟨t1, ht1⟩ := hunder.keepsThreads v tv hv
    exact keepsThreads_modThread _ u _ v t1 ht1
  · obtain ⟨hwoken, hnot⟩ := not_or.1 hpassed
    obtain ⟨hfailed, hopen⟩ := hgoes.resolve_left hwoken
    have hphase : phasePassed (s.barAt x.1 x.2).phase (tryPhase f s t) = false := Bool.eq_false_iff.mpr fun h => hnot ⟨hfailed, h⟩
    obtain ⟨⟨hovr, herr⟩, hend⟩ := hopen.resolve_left (Bool.eq_false_iff.mp hphase)
    have hfalse : (t.wait == some .woken || phasePassed (s.barAt x.1 x.2).phase (tryPhase f s t)) = false := by
      rw [hphase, Bool.or_false, beq_eq_false_iff_ne]
      exact hwoken
    rw [ObjArgs.judge_wait ⟨hwoken, hfailed, hphase⟩ hovr herr, hfalse]
    refine ⟨by rw [hspec, Bool.and_false], hchk, ?_, State.pagesFor_same rfl, rfl, keepsThreads_modThread s u _⟩
    dsimp only
    rw [if_pos]
    · rfl
    · rwa [Bool.or_eq_true, beq_iff_eq, tryHint_eq_zero]

/-- TRYWAIT parks on its object while its hint runs. -/
theorem trywait_departs (f : FTry) (c b : Nat) :
    departs (.trywait f) 2 (tryUses f)
      (fun s e _ t => !t.spec && (tryObj f).found s e t == some (c, b) && t.wait != some .woken && !t.failedWait && !(phasePassed (s.barAt c b).phase (tryPhase f s t)) &&
        !(s.barAt c b).ovr && !(s.barAt c b).err && !t.timedOut && (s.w32 t f.h).extractLsb' 0 16 != 0#16)
      (fun s _ _ _ => s) (fun s e _ t => ⟨e.w.pc, e.w.slot, .boundary, some (.phase (.scr c b) (tryPhase f s t))⟩) := by
  refine departs_of_gone (hi := exec_trywait f) fun e s u t ht hn hok => ?_
  simp only [Bool.and_eq_true, Bool.not_eq_true', beq_iff_eq, bne_iff_ne, ne_eq] at hok
  obtain ⟨⟨⟨⟨⟨⟨⟨⟨hspec, hfound⟩, hwoken⟩, hfailed⟩, hphase⟩, hovr⟩, herr⟩, htimer⟩, hhint⟩ := hok
  obtain ⟨hstill, hwarps, hkeeps, hstands⟩ := State.parkTimed_facts (e := e) ht (.phase (.scr c b) (tryPhase f s t)) (tryHint f s t)
  have hchk : s.check e ((tryObj f).chk (tryMore f)) t = none := ObjArgs.check hn
  refine ⟨by rw [hspec, Bool.and_false], hchk, _, ?_, hstill, hwarps, hkeeps, hstands⟩
  rw [tryLane_judge (ObjArgs.place_of_found hfound), ObjArgs.judge_wait ⟨hwoken, hfailed, hphase⟩ hovr herr]
  dsimp only
  rw [if_neg]
  rw [htimer, Bool.false_or, beq_iff_eq, tryHint_eq_zero]
  exact hhint

/-- The hint of a suspended TRYWAIT runs out once. -/
theorem exec_trywaitTimeout {s : State} {u : Nat} {t : Thread} {l : Loc} {n : Nat} (ht : s.thread? u = some t) (hwait : t.wait = some (.phase l n))
    (htimer : t.timer = some 0) (hout : t.timedOut = false) :
    exec (.trywaitTimeout u) s = .next (s.modThread u fun t => { t with timedOut := true }) := by
  show execTrywaitTimeout u s = _
  unfold execTrywaitTimeout
  rw [ht]
  dsimp only
  rw [hwait, htimer, hout]
  rfl

/-- Settles O33: WAITP's three forms judge one object alike (`waitsPhase_of_lane`), and TRYWAIT as they do (`tryLane_judge`). -/
theorem phaseWaits : Obligations.PhaseWaits :=
  ⟨fun _ => waitsPhase_of_lane fun _ => rfl, fun _ => waitsPhase_of_lane fun _ => rfl, fun _ => waitsPhase_of_lane fun _ => rfl,
    fun f => ⟨trywait_effects f, trywait_departs f, waitTraps_of_lane (m := tryObj f) (exec_trywait f) fun e s u t x tr hplace hjudge => by
      rw [tryLane_judge hplace, hjudge]⟩,
    fun _ _ _ _ _ ht hwait htimer hout => exec_trywaitTimeout ht hwait htimer hout⟩

end Sys2Proof.Machine
end

section
/-! SUPPORT. BARINIT, BAREXP and BARARV (R179, R336, R337). -/

namespace Sys2Proof.Machine

/-! ## What a step of a barrier object leaves alone (R178) -/

/-- The wait for a fence, where a lane's wait is one. -/
def Wait.ofFence : Wait → Option Wait
  | .fence n => some (.fence n)
  | _ => none

/-- A thread without what a step of a barrier object changes of it: its monitor, and a wait that is no fence's (R178, R182, R184). -/
def Thread.unstirred (t : Thread) : Thread := { t with monitor := none, wait := t.wait.bind Wait.ofFence }

theorem Thread.unstirred_wait {t : Thread} {w w1 : Wait} (hw : t.wait = some w) (hf : w.ofFence = none) (hf1 : w1.ofFence = none) :
    Thread.unstirred { t with wait := some w1 } = t.unstirred := by
  have hnone : (some w1).bind Wait.ofFence = t.wait.bind Wait.ofFence := by rw [hw, Option.bind_some, Option.bind_some, hf, hf1]
  exact congrArg (fun w => { t with monitor := none, wait := w }) hnone

/-- From `s` to `s1` steps of barrier objects have written scratchpad, stirred threads and changed crews, and nothing else. -/
structure State.barSteps (s s1 : State) : Prop where
  frame : s1 = { s with scr := s1.scr, scrTag := s1.scrTag, crews := s1.crews, threads := s1.threads }
  threads : s1.threads.map (fun e => (e.1, e.2.unstirred)) = s.threads.map fun e => (e.1, e.2.unstirred)

namespace State.barSteps
variable {s s1 s2 : State}

theorem refl (s : State) : s.barSteps s := ⟨rfl, rfl⟩

theorem trans (h : s.barSteps s1) (h2 : s1.barSteps s2) : s.barSteps s2 where
  frame := h2.frame.trans (by rw [h.frame])
  threads := h2.threads.trans h.threads

theorem warps (h : s.barSteps s1) : s1.warps = s.warps := (congrArg State.warps h.frame :)

theorem records (h : s.barSteps s1) : s1.records = s.records := (congrArg State.records h.frame :)

theorem thread (h : s.barSteps s1) (u : Nat) : (s1.thread? u).map Thread.unstirred = (s.thread? u).map Thread.unstirred := by
  have hget := congrArg (SMap.get? · u) h.threads
  simpa only [State.thread?, SMap.get?_map _ (fun _ t => Thread.unstirred t)] using hget

theorem thread_of (h : s.barSteps s1) {u : Nat} {t1 : Thread} (ht : s1.thread? u = some t1) : ∃ t, s.thread? u = some t ∧ t1.unstirred = t.unstirred := by
  have hu := h.thread u
  rw [ht, Option.map_some] at hu
  obtain ⟨t, hs, hb⟩ := Option.map_eq_some_iff.1 hu.symm
  exact ⟨t, hs, hb.symm⟩

theorem thread_to (h : s.barSteps s1) {u : Nat} {t : Thread} (ht : s.thread? u = some t) : ∃ t1, s1.thread? u = some t1 ∧ t1.unstirred = t.unstirred := by
  have hu := h.thread u
  rw [ht, Option.map_some] at hu
  exact Option.map_eq_some_iff.1 hu

theorem keepsThreads (h : s.barSteps s1) : keepsThreads s s1 := fun _ _ ht => by
  obtain ⟨t1, ht1, _⟩ := h.thread_to ht
  exact ⟨t1, ht1⟩

theorem status (h : s.barSteps s1) {u : Nat} {t : Thread} (ht : s.thread? u = some t) : ∃ t1, s1.thread? u = some t1 ∧ t1.status = t.status := by
  obtain ⟨t1, ht1, hb⟩ := h.thread_to ht
  exact ⟨t1, ht1, (congrArg Thread.status hb :)⟩

/-- A change of crews alone. -/
theorem of_crews (s : State) (m : SMap Crew) : s.barSteps { s with crews := m } := ⟨rfl, rfl⟩

theorem ite {p : Prop} [Decidable p] (h1 : s.barSteps s1) (h2 : s.barSteps s2) : s.barSteps (if p then s1 else s2) := by
  split
  · exact h1
  · exact h2

end State.barSteps

theorem State.wakeMonitors_barSteps (s : State) (l : Loc) : s.barSteps (s.wakeMonitors l) where
  frame := rfl
  threads := by
    unfold State.wakeMonitors
    rw [List.map_map]
    refine List.map_congr_left fun e _ => ?_
    dsimp only [Function.comp]
    split
    · split <;> rfl
    · rfl

theorem State.scrWrite_barSteps (s : State) (c b : Nat) (bs : List Byte) : s.barSteps (s.scrWrite c b bs) where
  frame := by rw [State.scrWrite_frame]
  threads := by rw [State.scrWrite_frame]

/-- What a wait on an object comes to is no wait for a fence. -/
theorem Bar.ofFence_wakes (x : Bar) (l : Loc) (n : Nat) : Wait.ofFence ((x.wakes n).getD (.phase l n)) = none := by
  unfold Bar.wakes
  split
  · rfl
  · split
    · rfl
    · split <;> rfl

/-- Threads an object rouses change in their wait, which is and was no fence's. -/
theorem State.putBar_threads (s : State) (c b : Nat) (x : Bar) : ∃ g : Nat × Thread → Nat × Thread,
    (s.putBar c b x).threads = ((s.scrWrite c b x.toBytes).wakeMonitors (.scr c b)).threads.map g ∧
      ∀ e, ((g e).1, (g e).2.unstirred) = (e.1, e.2.unstirred) ∧ ((g e).1, (g e).2.base) = (e.1, e.2.base) := by
  refine ⟨_, rfl, fun e => ?_⟩
  dsimp only
  split
  · next l n hw =>
    split
    · exact ⟨congrArg (Prod.mk e.1) (Thread.unstirred_wait hw rfl (Bar.ofFence_wakes x l n)), rfl⟩
    · exact ⟨rfl, rfl⟩
  · next hw =>
    split
    · exact ⟨congrArg (Prod.mk e.1) (Thread.unstirred_wait hw rfl rfl), rfl⟩
    · exact ⟨rfl, rfl⟩
  · exact ⟨rfl, rfl⟩

theorem State.putBar_barSteps (s : State) (c b : Nat) (x : Bar) : s.barSteps (s.putBar c b x) := by
  obtain ⟨g, hthreads, hg⟩ := s.putBar_threads c b x
  refine ((s.scrWrite_barSteps c b x.toBytes).trans (State.wakeMonitors_barSteps _ (.scr c b))).trans ⟨rfl, ?_⟩
  rw [hthreads, List.map_map]
  exact List.map_congr_left fun e _ => (hg e).1

theorem State.stepBar_barSteps (s : State) (c b : Nat) (f : Bar → Bar) : s.barSteps (s.stepBar c b f) := s.putBar_barSteps c b _

theorem State.initBar_barSteps (s : State) (e : Env) (c b : Nat) (arv : Bool) (n : Nat) : s.barSteps (s.initBar e c b arv n) :=
  (s.stepBar_barSteps c b fun _ => freshBar arv n).trans ⟨rfl, rfl⟩

theorem State.noteRemote_barSteps (s : State) (crew sp a : Nat) : s.barSteps (s.noteRemote crew sp a) :=
  State.barSteps.ite (State.barSteps.of_crews s _) (State.barSteps.refl s)

theorem State.remoteArrival_barSteps (s : State) (launch g c b : Nat) : s.barSteps (s.remoteArrival launch g c b) := by
  unfold State.remoteArrival
  split
  · exact State.barSteps.refl s
  · exact State.barSteps.of_crews s _

theorem State.noteCame_barSteps (s : State) (crew c b u : Nat) : s.barSteps (s.noteCame crew c b u) := by
  unfold State.noteCame
  split
  · exact State.barSteps.refl s
  · split
    · exact State.barSteps.refl s
    · exact State.barSteps.of_crews s _

/-! ## BARINIT and BAREXP (R336, R337) -/

/-- With no scratchpad store of the lane on its way nothing is drained. -/
theorem State.scrDrained_quiet {s : State} {u : Nat} {t : Thread} (ht : s.thread? u = some t) (h : s.scrQuiet u t = true) : s.scrDrained u t = (s, true) := by
  simp only [State.scrQuiet, Bool.and_eq_true, Bool.not_eq_true'] at h
  obtain ⟨hpail, hfifo⟩ := h
  simp only [State.scrDrained, hpail, Bool.false_eq_true, if_false, ht, Option.map_some, Option.getD_some, hfifo, Bool.not_false]

/-- An instruction that issues once for the group and changes a barrier object by `g`. -/
theorem onceEffects_of_barSteps {i : Instr} {n : Nat} {m : ObjArgs} {more : List Use} {G : Env → State → Nat → Thread → List Nat → LaneRes}
    {first : State → Env → Nat → Thread → Bool} {g : State → Env → Nat → Thread → List Nat → State}
    (hi : ∀ s, exec i s = s.once n (fun _ => m.chk more) G)
    (hrun : ∀ e s u t us, s.thread? u = some t → first s e u t = true → G e s u t us = .done (g s e u t us) ∧ s.barSteps (g s e u t us)) :
    onceEffects i n (⟨m.pv, 2, 1⟩ :: more) (fun _ _ t => !t.spec) first g := by
  refine onceEffects_of_once (hi := hi) (fun s e t t1 hb h => by rwa [spec_of_base hb]) (fun e s t hn hspec => ?_) fun e s u t us ht _ hfirst => ?_
  · rw [Bool.not_eq_true'] at hspec
    exact ⟨by rw [hspec, Bool.and_false], ObjArgs.check hn⟩
  · obtain ⟨hdone, hsteps⟩ := hrun e s u t us ht hfirst
    exact ⟨hdone, State.pagesFor_same hsteps.records, hsteps.warps, fun _ _ hv => hsteps.status hv⟩

theorem barinit_once {i : Instr} {n : Nat} {m : ObjArgs} {arv : Bool} {k : Nat} (hi : ∀ s, exec i s = barInit m n arv k s) : initStarts i n m arv k := by
  refine onceEffects_of_barSteps (hi := hi) fun e s u t us ht hfirst => ?_
  simp only [Bool.and_eq_true, Bool.not_eq_true', Option.isSome_iff_exists] at hfirst
  obtain ⟨⟨hcount, ⟨c, b⟩, hfound⟩, hquiet⟩ := hfirst
  rw [hfound]
  refine ⟨?_, s.initBar_barSteps e c b arv k⟩
  rw [hcount, if_neg Bool.false_ne_true, ObjArgs.place_of_found hfound]
  dsimp only
  rw [State.scrDrained_quiet ht hquiet]
  rfl

/-- BAREXP of the lowest lane (R179, R337). -/
def barexpLane (m : ObjArgs) (r : VReg) (e : Env) (s : State) (u : Nat) (t : Thread) : LaneRes :=
  if 2 ^ 24 < (s.w32 t r).toNat then .trap s (m.trap s t 2 0)
  else match m.place s e t with
    | .error tr => .trap s tr
    | .ok (c, b) =>
      let d := s.scrDrained u t
      if !d.2 then .stall d.1 .drain
      else if 2 ^ 31 ≤ (d.1.barAt c b).bytes + (s.w32 t r).toNat then .trap d.1 (m.trap s t 2 0)
      else .done (d.1.stepBar c b fun x => ({ x with bytes := x.bytes + ((s.w32 t r).toNat : Int) } : Bar).setBit 0 true)

theorem exec_barexp (f : FObjReg) (s : State) : exec (.barexp f) s =
    s.once 1 (fun _ => (⟨2 * f.p.toNat, f.off.toNat, 1⟩ : ObjArgs).chk [⟨f.r.toNat, 1, 1⟩])
      fun e s u t _ => barexpLane ⟨2 * f.p.toNat, f.off.toNat, 1⟩ f.r e s u t := rfl

theorem barexp_once (f : FObjReg) : let m : ObjArgs := ⟨2 * f.p.toNat, f.off.toNat, 1⟩
    onceEffects (.barexp f) 1 [⟨2 * f.p.toNat, 2, 1⟩, ⟨f.r.toNat, 1, 1⟩] (fun _ _ t => !t.spec)
      (fun s e u t => decide ((s.w32 t f.r).toNat ≤ 2 ^ 24) && s.scrQuiet u t &&
        (m.found s e t).any fun x => decide ((s.barAt x.1 x.2).bytes + (s.w32 t f.r).toNat < 2 ^ 31))
      (fun s e _ t _ => objStep m (fun x => ({ x with bytes := x.bytes + ((s.w32 t f.r).toNat : Int) } : Bar).setBit 0 true) s e t) := by
  intro m
  refine onceEffects_of_barSteps (hi := exec_barexp f) fun e s u t us ht hfirst => ?_
  simp only [Bool.and_eq_true, decide_eq_true_eq, Option.any_eq_true] at hfirst
  obtain ⟨⟨hlimit, hquiet⟩, ⟨c, b⟩, hfound, hbytes⟩ := hfirst
  rw [objStep, hfound]
  refine ⟨?_, s.stepBar_barSteps c b _⟩
  unfold barexpLane
  rw [if_neg (Nat.not_lt.mpr hlimit), ObjArgs.place_of_found hfound]
  dsimp only
  rw [State.scrDrained_quiet ht hquiet]
  dsimp only
  rw [Bool.not_true, if_neg Bool.false_ne_true, if_neg (Int.not_le.mpr hbytes)]

/-! ## Lanes that arrive at objects (R179, R337) -/

/-- What names the lane's registers, its operand, its release and its place stays with a thread that is stirred. -/
theorem ObjArgs.found_unstirred {m : ObjArgs} {s : State} {e : Env} {t t1 : Thread} (h : t1.unstirred = t.unstirred) : m.found s e t1 = m.found s e t := by
  have hview (t : Thread) : m.found s e t.unstirred = m.found s e t := rfl
  rw [← hview, h, hview]

theorem ObjArgs.addr_unstirred {m : ObjArgs} {s : State} {t t1 : Thread} (h : t1.unstirred = t.unstirred) : m.addr s t1 = m.addr s t := by
  have hview (t : Thread) : m.addr s t.unstirred = m.addr s t := rfl
  rw [← hview, h, hview]

theorem names_unstirred {e : Env} {t t1 : Thread} (h : t1.unstirred = t.unstirred) (l : List Use) : e.names t1 l = e.names t l := by
  have hview (t : Thread) : e.names t.unstirred l = e.names t l := rfl
  rw [← hview, h, hview]

theorem State.released_unstirred {s : State} {u scope : Nat} {t t1 : Thread} (h : t1.unstirred = t.unstirred) :
    s.released u t1 scope = s.released u t scope := by
  have hview (t : Thread) : s.released u t.unstirred scope = s.released u t scope := by
    have hwait : (match t.wait.bind Wait.ofFence with
        | some (.fence _) => false
        | _ => s.markerDone t.core u scope s.nextStore) = match t.wait with
        | some (.fence _) => false
        | _ => s.markerDone t.core u scope s.nextStore := by
      rcases t.wait with _ | w
      · rfl
      · cases w <;> rfl
    exact congrArg (fun x => t.region.isNone && t.fifo.isEmpty && (decide (scope ≤ 1) || x)) hwait
  rw [← hview, h, hview]

/-- A release does not depend on scratchpad, threads or crews. -/
theorem State.barSteps.released {s s1 : State} (h : s.barSteps s1) (u scope : Nat) (t : Thread) : s1.released u t scope = s.released u t scope := by
  rw [h.frame]
  rfl

/-- A barrier object is what scratchpad holds. -/
theorem State.barAt_of_scr {s s1 : State} (h : s1.scr = s.scr) (c b : Nat) : s1.barAt c b = s.barAt c b := by
  rw [State.barAt_eq, State.scrRead_congr (s := s) fun i _ => by rw [h], State.barAt_eq]

/-- The state in which an arrival at another member's object is noted (R56). -/
def ObjArgs.reach (m : ObjArgs) (s : State) (e : Env) (t : Thread) (c b : Nat) : State :=
  if m.sp = 2 then (s.noteRemote e.crewId 2 (m.addr s t)).remoteArrival e.crew.launch (nfld (m.addr s t) 48 8) c b else s

theorem ObjArgs.reach_barSteps (m : ObjArgs) (s : State) (e : Env) (t : Thread) (c b : Nat) : s.barSteps (m.reach s e t c b) :=
  State.barSteps.ite ((s.noteRemote_barSteps ..).trans (State.remoteArrival_barSteps ..)) (State.barSteps.refl s)

theorem ObjArgs.reach_barAt (m : ObjArgs) (s : State) (e : Env) (t : Thread) (c b : Nat) : (m.reach s e t c b).barAt c b = s.barAt c b := by
  have hscr : (m.reach s e t c b).scr = s.scr := by
    unfold ObjArgs.reach State.remoteArrival State.noteRemote
    split
    · split <;> split <;> rfl
    · rfl
  rw [State.barAt_of_scr hscr]

/-- A counted arrival of a lane. -/
def ObjArgs.counts (m : ObjArgs) (s : State) (e : Env) (u : Nat) (t : Thread) : State :=
  match m.found s e t with
  | none => s
  | some (c, b) => ((m.reach s e t c b).noteCame e.crewId c b u).stepBar c b Bar.arrive

theorem ObjArgs.counts_barSteps (m : ObjArgs) (s : State) (e : Env) (u : Nat) (t : Thread) : s.barSteps (m.counts s e u t) := by
  unfold ObjArgs.counts
  split
  · exact State.barSteps.refl s
  · exact ((m.reach_barSteps ..).trans (State.noteCame_barSteps ..)).trans (State.stepBar_barSteps ..)

theorem State.scrWrite_base : ∀ (bs : List Byte) (s : State) (c b : Nat), (s.scrWrite c b bs).base = s.base.scrWrite c b bs
  | [], _, _, _ => rfl
  | _ :: bs, _, c, b => State.scrWrite_base bs _ c (b + 1)

theorem State.wakeMonitors_base (s : State) (l : Loc) : (s.wakeMonitors l).base = s.base.wakeMonitors l := by
  have hthreads : (s.wakeMonitors l).threads.map (fun e => (e.1, e.2.base)) = (s.base.wakeMonitors l).threads := by
    unfold State.wakeMonitors State.base
    dsimp only
    rw [List.map_map, List.map_map]
    refine List.map_congr_left fun e _ => ?_
    have hmonitor : e.2.base.monitor = e.2.monitor := rfl
    have hresident : e.2.base.resident = e.2.resident := rfl
    dsimp only [Function.comp]
    rw [hmonitor, hresident]
    split
    · split <;> rfl
    · rfl
  exact congrArg (fun m => { s.base with threads := m }) hthreads

/-- Writing an object back: the same but for what counting and passing a slot change. -/
theorem State.putBar_base (s : State) (c b : Nat) (x : Bar) : (s.putBar c b x).base =
    { (s.base.scrWrite c b x.toBytes).wakeMonitors (.scr c b) with crews := (s.base.putBar c b x).crews } := by
  obtain ⟨g, hthreads, hg⟩ := s.putBar_threads c b x
  have hwritten : ((s.scrWrite c b x.toBytes).wakeMonitors (.scr c b)).base = (s.base.scrWrite c b x.toBytes).wakeMonitors (.scr c b) := by
    rw [State.wakeMonitors_base, State.scrWrite_base]
  have hbase : (s.putBar c b x).threads.map (fun e => (e.1, e.2.base)) = ((s.scrWrite c b x.toBytes).wakeMonitors (.scr c b)).base.threads := by
    rw [hthreads, List.map_map]
    exact List.map_congr_left fun e _ => (hg e).2
  have hcrews : (s.putBar c b x).crews = (s.base.putBar c b x).crews := by
    unfold State.putBar
    rw [← hwritten]
    rfl
  rw [← hcrews, ← hwritten]
  exact congrArg (fun m => { ((s.scrWrite c b x.toBytes).wakeMonitors (.scr c b)).base with crews := (s.putBar c b x).crews, threads := m }) hbase

theorem State.noteRemote_base (s : State) (crew sp a : Nat) : (s.noteRemote crew sp a).base = s.base.noteRemote crew sp a := by
  unfold State.noteRemote
  split <;> rfl

theorem State.remoteArrival_base (s : State) (launch g c b : Nat) : (s.remoteArrival launch g c b).base = s.base.remoteArrival launch g c b := by
  have hcrewAt : s.base.crewAt c b = s.crewAt c b := rfl
  unfold State.remoteArrival
  rw [hcrewAt]
  split <;> rfl

theorem State.noteCame_base (s : State) (crew c b u : Nat) : (s.noteCame crew c b u).base = s.base.noteCame crew c b u := by
  have hcrewAt : s.base.crewAt c b = s.crewAt c b := rfl
  unfold State.noteCame
  rw [hcrewAt]
  split
  · rfl
  · split <;> rfl

theorem ObjArgs.reach_base (m : ObjArgs) (s : State) (e : Env) (t : Thread) (c b : Nat) : (m.reach s e t c b).base = m.reach s.base e t c b := by
  have haddr : m.addr s.base t = m.addr s t := rfl
  unfold ObjArgs.reach
  rw [haddr]
  split
  · rw [State.remoteArrival_base, State.noteRemote_base]
  · rfl

theorem State.putBar_of_base {s s1 : State} (h : s1.base = s.base) (c b : Nat) (x : Bar) : (s1.putBar c b x).base = (s.putBar c b x).base := by
  rw [State.putBar_base, h, ← State.putBar_base]

/-- A counted arrival does the same in machines that differ in what counting and passing a slot change. -/
theorem ObjArgs.counts_of_base {m : ObjArgs} {s s1 : State} {t t1 : Thread} (hs : s1.base = s.base) (ht : t1.unstirred = t.unstirred) (e : Env)
    (u : Nat) : (m.counts s1 e u t1).base = (m.counts s e u t).base := by
  have hfound : m.found s1 e t1 = m.found s e t := by
    have hview (s : State) : m.found s.base e t = m.found s e t := rfl
    rw [ObjArgs.found_unstirred ht, ← hview s1, hs, hview]
  have hreach (c b : Nat) : (m.reach s1 e t1 c b).base = (m.reach s e t c b).base := by
    have haddr : m.addr s.base t1 = m.addr s.base t := ObjArgs.addr_unstirred ht
    rw [ObjArgs.reach_base, ObjArgs.reach_base, hs, ObjArgs.reach, ObjArgs.reach, haddr]
  unfold ObjArgs.counts
  rw [hfound]
  split
  · exact hs
  · next c b _ =>
    have hcame : ((m.reach s1 e t1 c b).noteCame e.crewId c b u).base = ((m.reach s e t c b).noteCame e.crewId c b u).base := by
      rw [State.noteCame_base, State.noteCame_base, hreach]
    have hbar : ((m.reach s1 e t1 c b).noteCame e.crewId c b u).barAt c b = ((m.reach s e t c b).noteCame e.crewId c b u).barAt c b :=
      State.barAt_of_scr (congrArg State.scr hcame :) c b
    rw [State.stepBar, State.stepBar, hbar]
    exact State.putBar_of_base hcame c b _

/-- The scope of BARARV's release (R337). -/
def ObjArgs.scope (m : ObjArgs) : Nat := if m.sp = 2 then 2 else 0

/-- Whether a lane arrives at once, at an object with an arrival due. -/
def ObjArgs.arrives (m : ObjArgs) (s : State) (e : Env) (u : Nat) (t : Thread) : Bool :=
  !t.spec && s.released u t m.scope && (m.found s e t).any fun x => (s.barAt x.1 x.2).arr != 0

theorem releaseAll_released {s : State} {scope : Nat} : ∀ (us : List Nat), (∀ u ∈ us, ∃ t, s.thread? u = some t ∧ s.released u t scope = true) →
    releaseAll scope s us = (s, false)
  | [], _ => rfl
  | u :: us, h => by
    obtain ⟨t, ht, hreleased⟩ := h u (List.mem_cons_self ..)
    rw [releaseAll, State.releaseTry_released ht hreleased]
    exact releaseAll_released us fun v hv => h v (List.mem_cons_of_mem _ hv)

theorem arriveLane_counts {m : ObjArgs} {e : Env} {s : State} {t : Thread} {c b : Nat} (hfound : m.found s e t = some (c, b))
    (harr : (s.barAt c b).arr ≠ 0) (u : Nat) : arriveLane m e s u t c b = (m.counts s e u t, []) := by
  have hreach : ((m.reach s e t c b).barAt c b).arr ≠ 0 := by rwa [m.reach_barAt]
  rw [ObjArgs.counts, hfound]
  unfold arriveLane
  exact if_neg (by rw [beq_iff_eq]; exact hreach)

section
variable {m : ObjArgs} {e : Env} {uses : List Use}

/-- What a lane of BARARV is, as it is about to arrive. -/
structure ArriveReady (m : ObjArgs) (e : Env) (uses : List Use) (s : State) (u : Nat) (t : Thread) : Prop where
  thread : s.thread? u = some t
  inWarp : t.status = .inWarp
  names : e.names t uses = true
  spec : t.spec = false
  released : s.released u t m.scope = true

theorem laneRun_cons {ok : State → Env → Nat → Thread → Bool} {f : State → Env → Nat → Thread → State} {s b : State} {u : Nat} {us : List Nat}
    (h : laneRun e uses ok f s (u :: us) = some b) : ∃ t, s.thread? u = some t ∧ t.status = .inWarp ∧ e.names t uses = true ∧ ok s e u t = true ∧
      laneRun e uses ok f ((f s e u t).arrive e.wk u) us = some b := by
  unfold laneRun at h
  split at h
  · cases h
  · next t ht =>
    split at h
    · next hc =>
      simp only [Bool.and_eq_true, beq_iff_eq] at hc
      obtain ⟨⟨hstatus, hnames⟩, hok⟩ := hc
      exact ⟨t, ht, hstatus, hnames, hok, h⟩
    · cases h

theorem arrive_thread_ne (s : State) (wk : Nat) {u v : Nat} (h : v ≠ u) : (s.arrive wk u).thread? v = s.thread? v :=
  SMap.get?_mod_ne s.threads (fun t => { t with wait := none, timer := none, timedOut := false, held := none }) h

/-- Another lane's counted arrival leaves a lane as it is, but for what it stirs. -/
theorem thread_after_counts {s : State} {u v : Nat} {t tv : Thread} (h : v ≠ u) (hv : ((m.counts s e u t).arrive e.wk u).thread? v = some tv) :
    ∃ t0, s.thread? v = some t0 ∧ tv.unstirred = t0.unstirred := by
  rw [arrive_thread_ne _ _ h] at hv
  exact (m.counts_barSteps s e u t).thread_of hv

/-- Every lane of a run of arrivals is ready before the first of them. -/
theorem arrives_ready : ∀ {us : List Nat} {s b : State}, us.Nodup → laneRun e uses m.arrives m.counts s us = some b →
    ∀ u ∈ us, ∃ t, ArriveReady m e uses s u t
  | [], _, _, _, _ => fun _ h => absurd h List.not_mem_nil
  | u :: us, s, b, hnodup, hrun => by
    obtain ⟨t, ht, hst, hn, hok, hrest⟩ := laneRun_cons hrun
    simp only [ObjArgs.arrives, Bool.and_eq_true, Bool.not_eq_true'] at hok
    obtain ⟨⟨hspec, hreleased⟩, -⟩ := hok
    obtain ⟨hnot, hnodup⟩ := List.nodup_cons.1 hnodup
    intro v hv
    rcases List.mem_cons.1 hv with rfl | hv
    · exact ⟨t, ht, hst, hn, hspec, hreleased⟩
    · obtain ⟨tv, hready⟩ := arrives_ready hnodup hrest v hv
      obtain ⟨t0, ht0, hview⟩ := thread_after_counts (ne_of_mem_of_not_mem hv hnot) hready.thread
      refine ⟨t0, ht0, (congrArg Thread.status hview :).symm.trans hready.inWarp, (names_unstirred hview uses).symm.trans hready.names, ?_, ?_⟩
      · exact (congrArg Thread.spec hview : tv.unstirred.spec = t0.unstirred.spec).symm.trans hready.spec
      · have hr := hready.released
        rw [State.released_unstirred hview] at hr
        exact ((m.counts_barSteps s e u t).released v m.scope t0).symm.trans hr

/-- The model's arrivals of the lanes come to what the run of them comes to, but for what counting and passing a slot change. -/
theorem arriveLanes_counts : ∀ {l : List (Nat × Thread)} {s s1 b : State}, (l.map Prod.fst).Nodup → s1.base = s.base →
    (∀ x ∈ l, ∃ t, s.thread? x.1 = some t ∧ t.unstirred = x.2.unstirred) → laneRun e uses m.arrives m.counts s (l.map Prod.fst) = some b →
    ∃ s2, arriveLanes m e s1 l = (s2, []) ∧ s2.base = b.base ∧ s1.barSteps s2
  | [], s, s1, b, _, hbase, _, hrun => by
    cases hrun
    exact ⟨s1, rfl, hbase, State.barSteps.refl s1⟩
  | (u, t) :: l, s, s1, b, hnodup, hbase, hthreads, hrun => by
    obtain ⟨t0, ht0, -, -, hok, hrest⟩ := laneRun_cons hrun
    simp only [ObjArgs.arrives, Bool.and_eq_true, Option.any_eq_true, bne_iff_ne, ne_eq] at hok
    obtain ⟨-, ⟨c, b0⟩, hfound, harr⟩ := hok
    obtain ⟨hnot, hnodup⟩ := List.nodup_cons.1 hnodup
    obtain ⟨t0', ht0', hview⟩ := hthreads (u, t) (List.mem_cons_self ..)
    cases ht0.symm.trans ht0'
    have hfound1 : m.found s1 e t = some (c, b0) := by
      have hbaseView (s : State) : m.found s.base e t = m.found s e t := rfl
      rw [← hbaseView, hbase, hbaseView, ← ObjArgs.found_unstirred hview, hfound]
    have hscr : s1.scr = s.scr := (congrArg State.scr hbase :)
    have harr1 : (s1.barAt c b0).arr ≠ 0 := by rwa [State.barAt_of_scr hscr]
    have hnext : ((m.counts s e u t0).arrive e.wk u).base = (m.counts s1 e u t).base :=
      (State.arrive_base ..).trans (ObjArgs.counts_of_base hbase.symm hview e u)
    have hthreads' : ∀ x ∈ l, ∃ t, ((m.counts s e u t0).arrive e.wk u).thread? x.1 = some t ∧ t.unstirred = x.2.unstirred := fun x hx => by
      obtain ⟨tx, htx, hxview⟩ := hthreads x (List.mem_cons_of_mem _ hx)
      obtain ⟨ty, hty, hyview⟩ := (m.counts_barSteps s e u t0).thread_to htx
      have hne : x.1 ≠ u := ne_of_mem_of_not_mem (List.mem_map_of_mem hx) hnot
      exact ⟨ty, (arrive_thread_ne _ _ hne).trans hty, hyview.trans hxview⟩
    obtain ⟨s2, hlanes, hb, hsteps⟩ := arriveLanes_counts hnodup hnext.symm hthreads' hrest
    refine ⟨s2, ?_, hb, (m.counts_barSteps s1 e u t).trans hsteps⟩
    rw [← hlanes]
    unfold arriveLanes
    rw [List.foldl_cons, ObjArgs.place_of_found hfound1]
    dsimp only
    rw [arriveLane_counts hfound1 harr1]
    rfl

end

/-! ## Instructions of the group with the effects of their lanes (R329) -/

/-- An instruction of the group has the effects of its lanes, when it comes to what the run of them comes to and leaves the lanes in their warp. -/
theorem effects_of_group {i : Instr} {n : Nat} {k : Env → Chk} {F : Env → State → List (Nat × Thread) → GroupRes} {uses : List Use}
    {ok : State → Env → Nat → Thread → Bool} {g : State → Env → Nat → Thread → State} (hi : ∀ s, exec i s = s.perGroup n k F)
    (h : ∀ e s b, (s.active e).Nodup → laneRun e uses ok g s (s.active e) = some b →
      (∀ u ∈ s.active e, ∃ t, s.thread? u = some t ∧ t.status = .inWarp ∧ ((k e).stall && t.spec) = false ∧ s.check e (k e) t = none) ∧
      ∃ s2, F e s (s.activeWith e) = .done s2 [] ∧ s2.base = b.base ∧ s.barSteps s2) : effects i n uses ok g := by
  intro s e b hp hb
  have hact : (s.begin e).active e = s.active e := active_of_base (State.begin_base s e) e
  obtain ⟨hlanes, s2, hF, hbase, hsteps⟩ := h e (s.begin e) b (hact ▸ State.port_nodup hp) (hact ▸ hb)
  have hfst : ((s.begin e).activeWith e).map Prod.fst = s.active e := by
    refine (map_fst_filterMap_thread _ fun u hu => ?_).trans hact
    obtain ⟨t, ht, _⟩ := hlanes u hu
    exact ⟨t, ht⟩
  have hck : checkLanes e (k e) (s.begin e) (s.active e) = (s.begin e, (s.begin e).activeWith e, []) := by
    rw [← hact, checkLanes_all _ fun u hu => ?_]
    · rfl
    · obtain ⟨t, ht, -, hok⟩ := hlanes u hu
      exact ⟨t, ht, hok⟩
  have harrive : s2.arriveAll e.wk (((s.begin e).activeWith e).map (·.1)) (leaving []) =
      ((s.begin e).activeWith e).foldl (fun (s : State) x => s.arrive e.wk x.1) s2 := by
    rw [State.arriveAll, List.filter_eq_self.2, List.foldl_map]
    intro u hu
    rw [hfst, ← hact] at hu
    obtain ⟨t, ht, hst, -⟩ := hlanes u hu
    obtain ⟨t2, ht2, hst2⟩ := hsteps.status ht
    simp [leaving, State.isInWarp, ht2, hst2, hst]
  have hno : trapsOf e.w.members [] = [] := List.filterMap_eq_nil_iff.2 fun _ _ => rfl
  set s3 := ((s.begin e).activeWith e).foldl (fun (s : State) x => s.arrive e.wk x.1) s2 with hs3
  have hb3 : s3.base = s2.base := foldl_arrive_base _ _ _
  have hrun : exec i s = .next (s3.closeSlot e.wk n) := by
    rw [hi]
    simp only [State.perGroup, State.port_env hp, hck, hF, GroupRes.await, State.pagesFor_same hsteps.records, List.isEmpty_nil, if_true, harrive,
      List.append_nil, hno]
    rfl
  have hW : WarpAt e s3 fun _ => True := by
    have h0 : WarpAt e s2 (fun v => v ∉ s.active e) := by
      obtain ⟨w1, hw1, hw2, hw3⟩ := State.begin_warp hp
      exact ⟨w1, by rw [hsteps.warps]; exact hw1, hw2, hw3⟩
    obtain ⟨w1, hw1, hw2, hw3⟩ := foldl_arrive_warp ((s.begin e).activeWith e) h0
    exact ⟨w1, hw1, hw2, fun v hv _ => hw3 v hv (by rw [hfst]; tauto)⟩
  refine ⟨_, hrun, ?_, closeSlot_passed hW fun v hv => ?_⟩
  · rw [State.closeSlot_still]
    exact State.still_of_base (hb3.trans hbase)
  · obtain ⟨t0, h0⟩ := begin_members hp v hv
    obtain ⟨t2, h2⟩ := hsteps.keepsThreads v t0 h0
    obtain ⟨t3, h3, _⟩ := thread_of_same_base (s := s2) (s1 := s3) (by rw [hb3]) h2
    exact ⟨t3, h3⟩

/-- The traps of the lanes of a warp, where one lane traps. -/
theorem trapsOf_one {ms : List Nat} {u : Nat} (hnodup : ms.Nodup) (hu : u ∈ ms) (tr : Trap) : trapsOf ms [(u, tr)] = [(u, tr)] := by
  have hnone : ∀ l : List Nat, u ∉ l → trapsOf l [(u, tr)] = [] := fun l hl => List.filterMap_eq_nil_iff.2 fun v hv => by
    have hne : u ≠ v := fun h => hl (h ▸ hv)
    simp [hne]
  obtain ⟨pre, post, rfl⟩ := List.append_of_mem hu
  obtain ⟨-, hcons, happ⟩ := List.nodup_append.1 hnodup
  have hpre := hnone pre fun h => happ u h u (List.mem_cons_self ..) rfl
  have hpost := hnone post (List.nodup_cons.1 hcons).1
  unfold trapsOf at hpre hpost ⊢
  rw [List.filterMap_append, List.filterMap_cons, hpre, hpost]
  simp

/-- An instruction of the group whose one active lane has the effect `g` on barrier objects, and then takes the trap `tr`. -/
theorem departs_of_groupTrap {i : Instr} {n : Nat} {k : Env → Chk} {F : Env → State → List (Nat × Thread) → GroupRes} {uses : List Use}
    {ok : State → Env → Nat → Thread → Bool} {g : State → Env → Nat → Thread → State} {tr : State → Env → Nat → Thread → Trap}
    (hi : ∀ s, exec i s = s.perGroup n k F)
    (h : ∀ e s u t, s.thread? u = some t → e.names t uses = true → ok s e u t = true →
      ((k e).stall && t.spec) = false ∧ s.check e (k e) t = none ∧ (tr s e u t).os = false ∧ (tr s e u t).only = false ∧
        trapResumesNext (tr s e u t).num = true ∧ (g s e u t).mayTrap e u t (tr s e u t) = true ∧
        F e s [(u, t)] = .done (g s e u t) [(u, tr s e u t)] ∧ s.barSteps (g s e u t)) :
    departs i n uses ok (fun s e u t => ((g s e u t).faultRecord (e.issuer u t) (tr s e u t) (2 ^ t.lane) t.held.isSome false).1)
      (fun s e u t => trapStand (g s e u t) e u t (tr s e u t) (e.nextAt n)) := by
  intro s e u t hp ha ht hn hok
  obtain ⟨hstall, hchk, hos, honly, hnext, hmay, hF, hsteps⟩ := h e (s.begin e) u t ht hn hok
  simp only [State.mayTrap, Bool.and_eq_true, Option.isNone_iff_eq_none, Bool.not_eq_true'] at hmay
  obtain ⟨⟨hh, -⟩, hlive⟩ := hmay
  have hu : u ∈ e.w.members := State.active_member (by rw [ha]; exact List.mem_singleton_self u)
  dsimp only
  generalize htr : tr (s.begin e) e u t = x at *
  generalize hb : g (s.begin e) e u t = b at *
  obtain ⟨t1, ht1, hview⟩ := hsteps.thread_to ht
  have hh1 : t1.handler = none := (congrArg Thread.handler hview : t1.unstirred.handler = t.unstirred.handler).trans hh
  have hlane1 : t1.lane = t.lane := (congrArg Thread.lane hview :)
  have hheld1 : t1.held = t.held := (congrArg Thread.held hview :)
  have hissuer1 : e.issuer u t1 = e.issuer u t := (congrArg (e.issuer u) hview :)
  have hck : checkLanes e (k e) (s.begin e) [u] = (s.begin e, [(u, t)], []) := by
    simp [checkLanes, ht, hstall, hchk]
  have harrive : b.arriveAll e.wk [u] (leaving [(u, x)]) = b := by
    simp [State.arriveAll, leaving, honly]
  set r := b.faultRecord (e.issuer u t) x (2 ^ t.lane) t.held.isSome false with hr
  set q := e.nextAt n with hq
  set f : Thread → Thread := fun t => { t.standAt q.1 q.2 (q.2 == 0 && true) false with
    status := .parked r.2 { x with group := b.trapGroup e.crew.ctx }, wait := none, timer := none, timedOut := false, held := none } with hf
  have hrun : exec i s = .next (((r.1.modThread u f).leaveWarp e.wk u).closeSlot e.wk n) := by
    rw [hi]
    simp only [State.perGroup, State.port_env hp, ha, hck, hF, GroupRes.await, State.pagesFor_same hsteps.records, List.isEmpty_nil, if_true,
      List.map_cons, List.map_nil, harrive, List.nil_append, trapsOf_one (List.Nodup.of_map _ (State.port_lanes hp)) hu, State.finish,
      takeTraps_one ht1 hh1 hos honly, hnext, hissuer1, hlane1, hheld1]
    rfl
  have hrec := faultRecord_kept b (e.issuer u t) x (2 ^ t.lane) t.held.isSome false hlive
  have hk : keepsThreads (s.begin e) ((r.1.modThread u f).leaveWarp e.wk u) := fun v tv hv => by
    obtain ⟨tv1, hv1⟩ := hsteps.keepsThreads v tv hv
    obtain ⟨tv2, hv2⟩ := hrec.threads v tv1 hv1
    simpa [State.thread?] using keepsThreads_modThread r.1 u f v tv2 hv2
  obtain ⟨w1, hw1, hw2, hw3⟩ := State.begin_warp hp
  obtain ⟨c1, c2, c3⟩ := departed (n := n) hp ha (s2 := (r.1.modThread u f).leaveWarp e.wk u)
    (by
      have hsw : SMap.get? (r.1.modThread u f).warps e.wk = some w1 :=
        (congrArg (fun w => SMap.get? w e.wk) (hrec.warps.trans hsteps.warps)).trans hw1
      rw [leaveWarp_warps _ _ _ hsw, hw1]) hk
  obtain ⟨t2, ht2⟩ := hrec.threads u t1 ht1
  refine ⟨_, hrun, ?_, ⟨f t2, ?_, rfl, rfl, rfl, rfl⟩, c2⟩
  · rw [c1, leaveWarp_still]
    exact State.modThread_still _ _ _ fun _ => rfl
  · have hsame := State.modThread_thread_same r.1 u f
    rw [ht2] at hsame
    rw [c3]
    simpa [State.thread?] using hsame

/-! ## BARARV (R337) -/

/-- BARARV of the lanes that have passed their checks. -/
def bararvGroup (m : ObjArgs) (e : Env) (s : State) (l : List (Nat × Thread)) : GroupRes :=
  let r := releaseAll m.scope s ((l.filter fun x => (m.place s e x.2).toOption.isSome).map (·.1))
  if r.2 then .stall r.1
  else .done (arriveLanes m e r.1 l).1 (arriveLanes m e r.1 l).2

/-- The operand of BARARV. -/
def arvObj (f : FBarArv) : ObjArgs := ⟨2 * f.p.toNat, f.off.toNat, if f.x then 2 else 1⟩

theorem exec_bararv (f : FBarArv) (s : State) : exec (.bararv f) s = s.perGroup 1 (fun _ => (arvObj f).chk []) (bararvGroup (arvObj f)) := rfl

/-- With every lane's release over the lanes arrive. -/
theorem bararvGroup_released {m : ObjArgs} {e : Env} {s : State} {l : List (Nat × Thread)}
    (h : ∀ u ∈ l.map Prod.fst, ∃ t, s.thread? u = some t ∧ s.released u t m.scope = true) :
    bararvGroup m e s l = .done (arriveLanes m e s l).1 (arriveLanes m e s l).2 := by
  have hrelease := releaseAll_released (s := s) (scope := m.scope) ((l.filter fun x => (m.place s e x.2).toOption.isSome).map (·.1)) fun u hu => by
    obtain ⟨x, hx, rfl⟩ := List.mem_map.1 hu
    exact h x.1 (List.mem_map_of_mem (List.mem_of_mem_filter hx))
  unfold bararvGroup
  rw [hrelease]
  rfl

/-- The lanes of BARARV arrive, each at an object with an arrival due. -/
theorem bararv_effects (f : FBarArv) : effects (.bararv f) 1 [⟨(arvObj f).pv, 2, 1⟩] (arvObj f).arrives (arvObj f).counts := by
  refine effects_of_group (hi := exec_bararv f) fun e s b hnodup hrun => ?_
  have hready := arrives_ready hnodup hrun
  have hfst : (s.activeWith e).map Prod.fst = s.active e := map_fst_filterMap_thread _ fun u hu => by
    obtain ⟨t, ht⟩ := hready u hu
    exact ⟨t, ht.thread⟩
  refine ⟨fun u hu => ?_, ?_⟩
  · obtain ⟨t, ht⟩ := hready u hu
    exact ⟨t, ht.thread, ht.inWarp, by rw [ht.spec, Bool.and_false], ObjArgs.check ht.names⟩
  · have hthreads : ∀ x ∈ s.activeWith e, ∃ t, s.thread? x.1 = some t ∧ t.unstirred = x.2.unstirred := fun x hx => by
      obtain ⟨u, -, hux⟩ := List.mem_filterMap.1 hx
      obtain ⟨t, ht, rfl⟩ := Option.map_eq_some_iff.1 hux
      exact ⟨t, ht, rfl⟩
    rw [← hfst] at hnodup hrun hready
    obtain ⟨s2, hlanes, hbase, hsteps⟩ := arriveLanes_counts hnodup rfl hthreads hrun
    refine ⟨s2, ?_, hbase, hsteps⟩
    rw [bararvGroup_released fun u hu => (hready u hu).imp fun _ ht => ⟨ht.thread, ht.released⟩, hlanes]

theorem arriveLane_overruns {m : ObjArgs} {e : Env} {s : State} {t : Thread} {c b : Nat} (harr : (s.barAt c b).arr = 0) (u : Nat) :
    arriveLane m e s u t c b = ((m.reach s e t c b).stepBar c b Bar.arrive, [(u, m.trap s t 19 1)]) := by
  have hreach : ((m.reach s e t c b).barAt c b).arr = 0 := by rwa [m.reach_barAt]
  unfold arriveLane
  exact if_pos (by rw [beq_iff_eq]; exact hreach)

/-- The object after an arrival that overruns it. -/
def ObjArgs.overruns (m : ObjArgs) (s : State) (e : Env) (t : Thread) : State :=
  match m.found s e t with
  | none => s
  | some (c, b) => (m.reach s e t c b).stepBar c b Bar.arrive

/-- A lane that arrives at an object with no arrival due sets OVR and takes barrier-overrun. -/
theorem bararv_overruns (f : FBarArv) : let m := arvObj f
    departs (.bararv f) 1 [⟨m.pv, 2, 1⟩]
      (fun s e u t => !t.spec && s.released u t m.scope && ((m.found s e t).any fun x => (s.barAt x.1 x.2).arr == 0) &&
        (m.overruns s e t).mayTrap e u t (m.trap s t 19 1))
      (fun s e u t => ((m.overruns s e t).faultRecord (e.issuer u t) (m.trap s t 19 1) (2 ^ t.lane) t.held.isSome false).1)
      (fun s e u t => trapStand (m.overruns s e t) e u t (m.trap s t 19 1) (e.nextAt 1)) := by
  intro m
  refine departs_of_groupTrap (g := fun s e _ t => m.overruns s e t) (hi := exec_bararv f) fun e s u t ht hn hok => ?_
  simp only [Bool.and_eq_true, Bool.not_eq_true', Option.any_eq_true, beq_iff_eq] at hok
  obtain ⟨⟨⟨hspec, hreleased⟩, ⟨c, b⟩, hfound, harr⟩, hmay⟩ := hok
  refine ⟨by rw [hspec, Bool.and_false], ObjArgs.check hn, rfl, rfl, rfl, hmay, ?_, ?_⟩
  · rw [bararvGroup_released fun v hv => ⟨t, by rwa [List.mem_singleton.1 hv], by rwa [List.mem_singleton.1 hv]⟩]
    unfold arriveLanes
    rw [List.foldl_cons, List.foldl_nil, ObjArgs.place_of_found hfound]
    dsimp only
    rw [arriveLane_overruns harr, ObjArgs.overruns, hfound]
    rfl
  · unfold ObjArgs.overruns
    rw [hfound]
    exact (m.reach_barSteps s e t c b).trans (State.stepBar_barSteps ..)

theorem arvObj_sp (f : FBarArv) : (arvObj f).sp = 2 ↔ f.x = true := by
  unfold arvObj
  cases f.x <;> simp

theorem arvObj_scope (f : FBarArv) : (arvObj f).scope = if f.x then 2 else 0 := if_congr (arvObj_sp f) rfl rfl

theorem arvObj_reach (f : FBarArv) (s : State) (e : Env) (t : Thread) (c b : Nat) : (arvObj f).reach s e t c b =
    if f.x then (s.noteRemote e.crewId 2 ((arvObj f).addr s t)).remoteArrival e.crew.launch (nfld ((arvObj f).addr s t) 48 8) c b else s :=
  if_congr (arvObj_sp f) rfl rfl

/-- Settles O32: BARINIT and BAREXP act once for the group on the object the first lane finds (`barinit_once`, `barexp_once`);
BARARV's lanes arrive in turn (`bararv_effects`), and one that finds no arrival due traps (`bararv_overruns`). -/
theorem barrierOperations : Obligations.BarrierOperations := by
  refine ⟨fun f => barinit_once fun _ => rfl, fun f => barinit_once fun _ => rfl, barexp_once, fun f => ?_, fun f => ?_⟩
  · have h := bararv_effects f
    unfold ObjArgs.arrives ObjArgs.counts at h
    simp only [arvObj_scope, arvObj_reach] at h
    exact h
  · have h : departs .. := bararv_overruns f
    simp only [ObjArgs.overruns, ObjArgs.trap, arvObj_scope, arvObj_reach] at h
    exact h

end Sys2Proof.Machine
end

section
/-! SUPPORT. A continuation that stops before an instruction (R200). -/

namespace Sys2Proof.Machine

/-! ## A lane that has left its warp (R329) -/

section
variable {s : State} {e : Env} {u : Nat} (hp : s.port e = true) (ha : s.active e = [u])
include hp ha

/-- The one active lane of a slot is a member of its warp. -/
theorem begin_inWarp {t : Thread} (ht : (s.begin e).thread? u = some t) : t.status = .inWarp := by
  obtain ⟨t0, ht0, hstatus, -⟩ := State.port_member hp (State.active_member (ha ▸ List.mem_singleton_self u))
  have hbase := State.thread_of_base (s := s) (s1 := s.begin e) (by rw [State.begin_base]) u
  rw [ht, ht0, Option.map_some, Option.map_some, Option.some.injEq] at hbase
  exact (status_of_base hbase).trans hstatus

/-- The slot closes over a lane that has left its warp for a place. -/
theorem closeSlot_departed {s2 : State} {n : Nat} {p : Stand} (hwarps : s2.warps = ((s.begin e).leaveWarp e.wk u).warps)
    (hkeeps : keepsThreads (s.begin e) s2) (hstand : s2.standsAt u p) : (s2.closeSlot e.wk n).still = s2.still ∧
      (s2.closeSlot e.wk n).standsAt u p ∧ (s2.closeSlot e.wk n).passedBy e n (e.w.members.filter (· != u)) := by
  obtain ⟨w1, hw1, -⟩ := State.begin_warp hp
  obtain ⟨hstill, hpassed, hthread⟩ := departed (n := n) hp ha (s2 := s2) (by rw [hwarps, leaveWarp_warps _ _ _ hw1, hw1]) hkeeps
  obtain ⟨t', ht', hplace⟩ := hstand
  exact ⟨hstill, ⟨t', hthread.trans ht', hplace⟩, hpassed⟩

end

/-! ## A lane that waits for its fork -/

/-- In `s2` the lane waits, outside the warp it has left, at its slot until its fork resolves; all else is as in `s`. -/
structure State.Stopped (s2 s : State) (e : Env) (u : Nat) : Prop where
  still : s2.still = s.still
  warps : s2.warps = (s.leaveWarp e.wk u).warps
  keeps : keepsThreads s s2
  stands : s2.standsAt u ⟨e.w.pc, e.w.slot, .boundary, some .resolution⟩

/-- A thread that holds a trap (R200, R205). -/
def Thread.holding (h : Held) (t : Thread) : Thread := { t with held := some h }

section
variable {s : State} {e : Env} {u : Nat} {t : Thread} (ht : s.thread? u = some t)
include ht

theorem State.park_stopped : (s.park e u .resolution).Stopped s e u := by
  obtain ⟨hstill, hwarps, hkeeps, hthread⟩ := left_facts (wk := e.wk)
    (m := fun t => { t.standAt e.w.pc e.w.slot false false with wait := some .resolution }) (fun _ => rfl) ht
  exact ⟨hstill, hwarps, hkeeps, _, hthread, rfl, rfl, rfl, rfl⟩

/-- A trap that a continuation holds does not show but in its thread's place (R205). -/
theorem State.holdTrap_stopped (tr : Trap) : (s.holdTrap e u t tr).Stopped s e u := by
  have hkeeps := keepsThreads_modThread s u (Thread.holding ⟨tr, e.issuer u t⟩)
  have hwarps : (s.modThread u (Thread.holding ⟨tr, e.issuer u t⟩)).warps = s.warps := rfl
  obtain ⟨t1, ht1⟩ := hkeeps u t ht
  have hparked := State.park_stopped (e := e) ht1
  exact ⟨hparked.still.trans (State.modThread_still _ _ _ fun _ => rfl), hparked.warps.trans (leaveWarp_congr hwarps _ _),
    fun v tv hv => (hkeeps v tv hv).elim fun tv1 hv1 => hparked.keeps v tv1 hv1, hparked.stands⟩

end

/-! ## Instructions a continuation stops before (R200) -/

/-- A continuation, alone in its slot, stops before the instruction until its fork resolves, with no other effect. -/
def stopsBefore (i : Instr) : Prop :=
  departs i 1 [] (fun _ _ _ t => t.spec) (fun s _ _ _ => s) (fun _ e _ _ => ⟨e.w.pc, e.w.slot, .boundary, some .resolution⟩)

section
variable {i : Instr} {k : Env → Chk}

/-- It is enough that the slot closes over the lane stopped. -/
theorem stopsBefore_of_run (h : ∀ s e u t, s.port e = true → s.active e = [u] → (s.begin e).thread? u = some t → t.spec = true →
    ∃ s2 : State, s2.Stopped (s.begin e) e u ∧ exec i s = .next (s2.closeSlot e.wk 1)) : stopsBefore i := by
  intro s e u t hp ha ht _ hspec
  obtain ⟨s2, hstopped, hrun⟩ := h s e u t hp ha ht hspec
  obtain ⟨hclosed, hstands, hpassed⟩ := closeSlot_departed (n := 1) hp ha hstopped.warps hstopped.keeps hstopped.stands
  exact ⟨_, hrun, hclosed.trans hstopped.still, hstands, hpassed⟩

/-- Lanes that act one by one: the stall comes before every other check. -/
theorem stopsBefore_of_lane {F : Env → State → Nat → Thread → LaneRes} (hi : ∀ s, exec i s = s.perLane 1 k F)
    (hk : ∀ e, (k e).stall = true) : stopsBefore i :=
  stopsBefore_of_run fun s e u t hp ha ht hspec => ⟨_, State.park_stopped ht, by
    have hlane : runLane e (k e) (F e) (s.begin e, []) u = ((s.begin e).park e u .resolution, []) := by
      simp only [runLane, ht, begin_inWarp hp ha ht, if_true, hk, hspec, Bool.and_self]
      rfl
    rw [hi, perLane_next (State.port_env hp), State.runSlot, ha, List.foldl_cons, List.foldl_nil, hlane]
    rfl⟩

/-- An instruction that traps in every lane: a continuation holds the trap. -/
theorem stopsBefore_of_trap {tr : Trap} (hi : ∀ s, exec i s = s.perLane 1 (fun _ => {}) fun _ s _ _ => .trap s tr) : stopsBefore i :=
  stopsBefore_of_run fun s e u t hp ha ht hspec => ⟨_, State.holdTrap_stopped ht tr, by
    have hcheck : (s.begin e).check e {} t = none := check_none rfl rfl (.inr fun _ hv => nomatch hv)
    have hlane : runLane e {} (fun s _ _ => .trap s tr) (s.begin e, []) u = ((s.begin e).holdTrap e u t tr, []) := by
      simp only [runLane, ht, begin_inWarp hp ha ht, if_true, Bool.false_and, Bool.false_eq_true, if_false, hcheck, heldBefore_alone hp ha,
        LaneRes.await, State.pagesFor_same, List.isEmpty_nil, State.applyRes, hspec]
    rw [hi, perLane_next (State.port_env hp), State.runSlot, ha, List.foldl_cons, List.foldl_nil, hlane]
    rfl⟩

/-- What an instruction of the group does comes to nothing when no lane has passed its checks. -/
def idleAlone (F : Env → State → List (Nat × Thread) → GroupRes) : Prop :=
  ∀ e s, F e s [] = .done s [] ∨ F e s [] = .part s [] []

/-- Lanes that act as a group: the stalled lane is not among those that have passed their checks. -/
theorem stopsBefore_of_group {F : Env → State → List (Nat × Thread) → GroupRes} (hi : ∀ s, exec i s = s.perGroup 1 k F)
    (hk : ∀ e, (k e).stall = true) (hF : idleAlone F) : stopsBefore i :=
  stopsBefore_of_run fun s e u t hp ha ht hspec => ⟨_, State.park_stopped ht, by
    have hchecks : checkLanes e (k e) (s.begin e) [u] = ((s.begin e).park e u .resolution, [], []) := by
      simp only [checkLanes, ht, hk, hspec, Bool.and_self, if_true]
    have hnone : trapsOf e.w.members [] = [] := List.filterMap_eq_nil_iff.mpr fun _ _ => rfl
    rw [hi]
    simp only [State.perGroup, State.port_env hp, ha, hchecks]
    rcases hF e ((s.begin e).park e u .resolution) with h | h <;>
      simp only [h, GroupRes.await, State.pagesFor_same, List.isEmpty_nil, if_true, List.append_nil, hnone] <;> rfl⟩

/-- An instruction issued once for the group. -/
theorem stopsBefore_of_once {f : Env → State → Nat → Thread → List Nat → LaneRes} (hi : ∀ s, exec i s = s.once 1 k f)
    (hk : ∀ e, (k e).stall = true) : stopsBefore i :=
  stopsBefore_of_group hi hk fun _ _ => .inl rfl

end

/-- REDUX runs no lane of either half of an empty group. -/
theorem redux_stops (f : FRedux) : stopsBefore (.redux f) := by
  refine stopsBefore_of_group (fun _ => by dsimp only [exec, execRedux]) (fun _ => by rfl) fun e s => .inl ?_
  cases e.launch.c16 <;> rfl

/-- Every instruction listed stalls a continuation in its first check, but BRK, whose trap it holds. -/
theorem stopsBefore_of_stopsContinuation {i : Instr} (h : stopsContinuation i = true) : stopsBefore i := by
  cases i with
  | fence | fencex | waitp | waitpReg | crewbar | gbar | meetarm | meet | monitor | mwait | brx | callx | callxF | ret | exit | yield | trap
  | regb | mts | inject | spawn | emit => exact stopsBefore_of_lane (hi := fun _ => rfl) fun _ => by rfl
  | brk => exact stopsBefore_of_trap fun _ => rfl
  | barinit | barexp | trig | trigrst =>
    exact stopsBefore_of_once (fun _ => by dsimp only [exec, execBarinit, barInit, execBarexp, execTrig, execTrigrst, trigSlot]) fun _ => by rfl
  | cpy | cpyt | cpya | ring =>
    exact stopsBefore_of_once (fun _ => by dsimp only [exec, execCpy, execCpyt, execCpya, copyArm, execRing, ringSlot]) fun _ => by rfl
  | acchk | accld | accst | accz =>
    exact stopsBefore_of_once (fun _ => by dsimp only [exec, execAcchk, execAccld, execAccst, execAccz]) fun _ => by rfl
  | colpost | colfire | watch => exact stopsBefore_of_once (fun _ => by dsimp only [exec, execColpost, execColfire, execWatch]) fun _ => by rfl
  | shfl | rot | vote | popcP | matchLane | matchLane64 =>
    exact stopsBefore_of_group
      (fun _ => by dsimp only [exec, execShfl, execRot, shuffle, execVote, execPopcP, execMatchLane, execMatchLane64, matchSlot])
      (fun _ => by rfl) fun _ _ => .inl (by rfl)
  | redux f => exact redux_stops f
  | bararv f => exact stopsBefore_of_group (exec_bararv f) (fun _ => by rfl) fun _ _ => .inl (by rfl)
  | mma | injectAcc =>
    exact stopsBefore_of_group (fun _ => by dsimp only [exec, execMma, execInjectAcc]) (fun _ => by rfl) fun _ _ => .inl (by rfl)
  | atom | red =>
    exact stopsBefore_of_group (fun _ => by dsimp only [exec, execAtom, execRed, atomic]) (fun _ => by rfl) fun _ _ => .inr (by rfl)
  | _ => exact (Bool.false_ne_true h).elim

end Sys2Proof.Machine
end

section
/-! SUPPORT. Forkable calls (R192, R207, R208, R346, R347), and the obligation about them. -/

namespace Sys2Proof.Machine

/-! ## What the test for a stub reads of the threads (R138, R291): their places, where a table stands in the placement table -/

/-- A thread as the placement table shows it. -/
def Thread.placement (t : Thread) : Nat × Nat × Bool × Nat × Nat × Nat := (t.core, t.pos, t.resident, t.crew, t.allot, t.rbase)

/-- The machine with other threads. -/
def State.withThreads (s : State) (m : SMap Thread) : State := { s with threads := m }

/-- A change of a thread that keeps its placement leaves the placement table as it is. -/
theorem State.placeWord_modThread {f : Thread → Thread} (hf : ∀ t, (f t).placement = t.placement) (s : State) (u core i : Nat) :
    (s.modThread u f).placeWord core i = s.placeWord core i := by
  simp only [Thread.placement, Prod.mk.injEq] at hf
  have hfound : (SMap.mod s.threads u f).find? (fun e => e.2.core == core && e.2.pos == i && e.2.resident) =
      (s.threads.find? fun e => e.2.core == core && e.2.pos == i && e.2.resident).map fun e => if e.1 = u then (e.1, f e.2) else e := by
    rw [SMap.mod, List.find?_map]
    congr 2
    funext e
    obtain ⟨hcore, hpos, hresident, -⟩ := hf e.2
    by_cases he : e.1 = u <;> simp only [Function.comp_apply, he, if_true, if_false, hcore, hpos, hresident]
  have hcrews : (s.modThread u f).crews = s.crews := rfl
  unfold State.placeWord
  rw [hcrews, show (s.modThread u f).threads = SMap.mod s.threads u f from rfl, hfound]
  cases s.threads.find? fun e => e.2.core == core && e.2.pos == i && e.2.resident with
  | none => rfl
  | some e =>
    obtain ⟨-, -, -, hcrew, hallot, hrbase⟩ := hf e.2
    by_cases he : e.1 = u <;> simp only [Option.map_some, he, if_true, if_false, hcrew, hallot, hrbase]

section
variable {s : State} {m : SMap Thread} (hplace : ∀ core i, (s.withThreads m).placeWord core i = s.placeWord core i)
include hplace

theorem State.winWord_withThreads (core o : Nat) : (s.withThreads m).winWord core o = s.winWord core o := by
  unfold State.winWord
  cases winItem o with
  | place i => exact congrArg (fun n => (⟨BitVec.ofNat 32 n, 0⟩ : Reg)) (hplace core i)
  | _ => rfl

theorem State.readLoc_withThreads (l : Loc) (n : Nat) : (s.withThreads m).readLoc l n = s.readLoc l n := by
  cases l with
  | win c o =>
    change (s.withThreads m).winRead c o n = s.winRead c o n
    induction n generalizing o with
    | zero => rfl
    | succ n ih => rw [State.winRead, State.winRead, ih, State.winWord_withThreads hplace]
  | scr c b =>
    change (s.withThreads m).scrRead c b n = s.scrRead c b n
    induction n generalizing b with
    | zero => rfl
    | succ n ih =>
      rw [State.scrRead, State.scrRead, ih]
      rfl
  | _ => rfl

theorem State.transDev_withThreads (c : Context) (va : Nat) : (s.withThreads m).transDev c va = s.transDev c va := by
  have hwalk (p : Partition) (priv : Bool) (va fuel level table : Nat) :
      (s.withThreads m).walkFrom p priv va fuel level table = s.walkFrom p priv va fuel level table := by
    induction fuel generalizing level table with
    | zero => rfl
    | succ fuel ih => simp only [State.walkFrom, State.tableEntry, State.readLoc_withThreads hplace, ih]
  have hpart : (s.withThreads m).partOf c = s.partOf c := rfl
  simp only [State.transDev, State.walk, hpart, hwalk]

theorem State.isStub_withThreads (core cid : Nat) (c : Context) (pc : Nat) :
    (s.withThreads m).isStub core cid c pc = s.isStub core cid c pc := by
  have hcache : (s.withThreads m).icache = s.icache := rfl
  simp only [State.isStub, State.codeWords, hcache, State.transDev_withThreads hplace, State.readLoc_withThreads hplace]

end

section
variable (s : State) (core cid : Nat) (c : Context) (pc : Nat)

theorem State.isStub_modThread {f : Thread → Thread} (hf : ∀ t, (f t).placement = t.placement) (u : Nat) :
    (s.modThread u f).isStub core cid c pc = s.isStub core cid c pc :=
  State.isStub_withThreads (s.placeWord_modThread hf u) core cid c pc

theorem State.isStub_seen : s.seen.isStub core cid c pc = s.isStub core cid c pc := by
  have hcache : s.seen.icache = s.icache := rfl
  simp only [State.isStub, State.codeWords, hcache, State.transDev_seen, State.readLoc_seen]

theorem State.isStub_count (k n : Nat) : (s.count k n).isStub core cid c pc = s.isStub core cid c pc := by
  have hseen : (s.count k n).seen = s.seen := rfl
  rw [← State.isStub_seen, hseen, State.isStub_seen]

end

/-! ## The conditions of a fork (R192) -/

section
variable {s : State} {e : Env} {u : Nat} {t : Thread} {x : Nat}

/-- The model's conditions are those of the refusal code, in its order. -/
theorem State.forkTry_refused (plain : Bool) (h : s.forkCode e u t x ≠ 0) : s.forkTry e u t x plain = .error (s.forkCode e u t x) := by
  unfold State.forkTry State.holdsPail
  unfold State.forkCode at h ⊢
  split_ifs at h ⊢ with hdepth hnest hregion hfind hplace
  iterate 3 rfl
  · rw [Option.isNone_iff_eq_none.mp hfind]
  · obtain ⟨p, hp⟩ := Option.ne_none_iff_exists'.mp fun hn => hfind (Option.isNone_iff_eq_none.mpr hn)
    rw [hp, Option.isNone_iff_eq_none.mp hplace]
  · exact absurd rfl h

theorem State.forkTry_accepted {p : Pred} {lane slot rbase : Nat} (plain : Bool) (h : s.forkCode e u t x = 0)
    (hfind : s.predFind e.core e.crew.ctx (e.ipc / 4) x = some p) (hplace : s.forkPlace e (e.ipc / 4) t.allot = some (lane, slot, rbase)) :
    s.forkTry e u t x plain = .ok (e.predict t p plain, lane, slot, rbase) := by
  unfold State.forkTry State.holdsPail
  unfold State.forkCode at h
  rw [hfind, hplace] at h ⊢
  split_ifs at h ⊢
  rfl

/-! ## Forkable calls of a lane -/

/-- A refused call writes its link, keeps the code and remembers its return site (R192, R197, R346). -/
def State.callsRefused (s : State) (e : Env) (u : Nat) (t : Thread) (x code : Nat) : State :=
  (s.modThread u fun y => { y with refuse := code, lastf := false, retSite := some (e.retClause, e.ipc / 4), retTarget := x }).setRegs t 124 e.link

theorem State.callsRefused_count (k n code : Nat) : ((s.count k n).callsRefused e u t x code).still = (s.callsRefused e u t x code).still := rfl

theorem State.callsRefused_kept (code : Nat) : (s.callsRefused e u t x code).warps = s.warps ∧ keepsThreads s (s.callsRefused e u t x code) := by
  unfold State.callsRefused
  generalize hs : s.modThread u _ = s1
  obtain ⟨-, hwarps, hthreads⟩ := setRegs_same s1 t 124 e.link
  subst hs
  refine ⟨hwarps, fun v tv hv => ?_⟩
  rw [State.thread?, hthreads]
  exact keepsThreads_modThread s u _ v tv hv

/-- A refused forkable call is an ordinary call. -/
theorem State.forkTo_refused (plain : Bool) (g : Tag) (hstub : s.isStub e.core e.crew.ctx e.c x = false) (hcode : s.forkCode e u t x ≠ 0) :
    s.forkTo e u t x plain g =
      .gone (((s.count (cntCore e.core 4) 1).callsRefused e u t x (s.forkCode e u t x)).transfer e u x) := by
  unfold State.forkTo
  rw [hstub, State.forkTry_refused plain hcode]
  unfold State.callTo
  dsimp only
  rw [State.isStub_modThread, State.isStub_count, hstub]
  · rfl
  · exact fun _ => rfl

/-- The callee of a fork in its place, not yet started (R194, R208). -/
def Env.reserved (e : Env) (u : Nat) (t : Thread) (x lane slot rbase : Nat) : Thread :=
  { freshThread t.crew t.role (2048 + 512 * e.quad + 32 * slot + lane) e.core e.quad lane slot rbase t.allot t.anom x with
    callee := some u, forkSite := (e.ipc / 4, x), status := .reserved }

/-- A home thread that waits at its call for the fork to start (R194, R208). -/
def Thread.forks (e : Env) (callee x : Nat) (pred : List Reg) (t : Thread) : Thread :=
  { t.standAt e.w.pc e.w.slot false e.w.hint with
    status := .forking callee x (e.ipc / 4) pred e.ownTag, wait := none, timer := none, timedOut := false }

/-- An accepted forkable call takes the callee's place and waits. -/
theorem State.forkTo_accepted {p : Pred} {lane slot rbase : Nat} (plain : Bool) (g : Tag) (hstub : s.isStub e.core e.crew.ctx e.c x = false)
    (hcode : s.forkCode e u t x = 0) (hfind : s.predFind e.core e.crew.ctx (e.ipc / 4) x = some p)
    (hplace : s.forkPlace e (e.ipc / 4) t.allot = some (lane, slot, rbase)) :
    s.forkTo e u t x plain g = .gone (((s.addThread (e.reserved u t x lane slot rbase)).1.modThread u
      (Thread.forks e s.nextUid x (e.predict t p plain))).leaveWarp e.wk u) := by
  unfold State.forkTo
  rw [hstub, State.forkTry_accepted plain hcode hfind hplace]
  rfl

end

theorem keepsThreads_addThread (s : State) (c : Thread) : keepsThreads s (s.addThread c).1 := fun v t ht => by
  change ∃ t1, SMap.get? (SMap.put s.threads s.nextUid c) v = some t1
  rw [SMap.get?_put]
  split
  · exact ⟨c, rfl⟩
  · exact ⟨t, ht⟩

/-! ## Forkable calls -/

section
variable {i : Instr} {uses : List Use} {k : Env → Chk} {F : Env → State → Nat → Thread → LaneRes} {tgt : State → Env → Thread → Nat}
  {ok : State → Thread → Bool} {plain : Bool} {g : State → Thread → Tag}

/-- A lane of a forkable call that passes its checks comes to `forkTo`. -/
def forksLane (uses : List Use) (k : Env → Chk) (F : Env → State → Nat → Thread → LaneRes) (tgt : State → Env → Thread → Nat)
    (ok : State → Thread → Bool) (plain : Bool) (g : State → Thread → Tag) : Prop :=
  ∀ e s u t, e.names t uses = true → ok s t = true →
    ((k e).stall && t.spec) = false ∧ s.check e (k e) t = none ∧ F e s u t = s.forkTo e u t (tgt s e t) plain (g s t)

theorem forkable_refused (hi : ∀ s, exec i s = s.perLane 1 k F) (hF : forksLane uses k F tgt ok plain g) :
    departs i 1 uses (fun s e u t => ok s t && s.noStub e (tgt s e t) && s.forkCode e u t (tgt s e t) != 0)
      (fun s e u t => s.callsRefused e u t (tgt s e t) (s.forkCode e u t (tgt s e t)))
      (fun s e _ t => ⟨tgt s e t, 0, .boundary, none⟩) :=
  departs_of_gone hi fun e s u t ht hn hok => by
    simp only [Bool.and_eq_true, bne_iff_ne] at hok
    obtain ⟨⟨hok, hstub⟩, hcode⟩ := hok
    obtain ⟨hstall, hcheck, hlane⟩ := hF e s u t hn hok
    obtain ⟨hwarps, hkeeps⟩ := (s.count (cntCore e.core 4) 1).callsRefused_kept (e := e) (u := u) (t := t) (x := tgt s e t)
      (s.forkCode e u t (tgt s e t))
    obtain ⟨t1, ht1⟩ := hkeeps u t ht
    obtain ⟨hstill, hleft, hkept, hstands⟩ := transfer_facts (e := e) (x := tgt s e t) ht1
    exact ⟨hstall, hcheck, _, hlane.trans (State.forkTo_refused plain _ (noStub_isStub hstub) hcode),
      hstill.trans (State.callsRefused_count ..), hleft.trans (leaveWarp_congr (s := s) hwarps _ _),
      fun v tv hv => (hkeeps v tv hv).elim fun tv1 hv1 => hkept v tv1 hv1, hstands⟩

theorem forkable_accepted (hi : ∀ s, exec i s = s.perLane 1 k F) (hF : forksLane uses k F tgt ok plain g) (p : Pred) (lane slot rbase : Nat) :
    departs i 1 uses (fun s e u t => ok s t && s.noStub e (tgt s e t) && s.forkCode e u t (tgt s e t) == 0 &&
        s.predFind e.core e.crew.ctx (e.ipc / 4) (tgt s e t) == some p && s.forkPlace e (e.ipc / 4) t.allot == some (lane, slot, rbase))
      (fun s e u t => (s.addThread (e.reserved u t (tgt s e t) lane slot rbase)).1)
      (fun s e _ t => ⟨e.w.pc, e.w.slot, .forking s.nextUid (tgt s e t) (e.ipc / 4) (e.predict t p plain) e.ownTag, none⟩) :=
  departs_of_gone hi fun e s u t ht hn hok => by
    simp only [Bool.and_eq_true, beq_iff_eq] at hok
    obtain ⟨⟨⟨⟨hok, hstub⟩, hcode⟩, hfind⟩, hplace⟩ := hok
    obtain ⟨hstall, hcheck, hlane⟩ := hF e s u t hn hok
    have hkeeps := keepsThreads_addThread s (e.reserved u t (tgt s e t) lane slot rbase)
    have hwarps : (s.addThread (e.reserved u t (tgt s e t) lane slot rbase)).1.warps = s.warps := rfl
    obtain ⟨t1, ht1⟩ := hkeeps u t ht
    obtain ⟨hstill, hleft, hkept, hthread⟩ := left_facts (wk := e.wk)
      (m := Thread.forks e s.nextUid (tgt s e t) (e.predict t p plain)) (fun _ => rfl) ht1
    exact ⟨hstall, hcheck, _, hlane.trans (State.forkTo_accepted plain _ (noStub_isStub hstub) hcode hfind hplace), hstill,
      hleft.trans (leaveWarp_congr hwarps _ _), fun v tv hv => (hkeeps v tv hv).elim fun tv1 hv1 => hkept v tv1 hv1, _, hthread, rfl, rfl, rfl, rfl⟩

end

theorem Env.rel_eq_target {n : Nat} (e : Env) (off : BitVec n) : e.rel off = e.target off.toInt := by
  simp [Env.rel, Env.target, wrapInt]

theorem callf_forks (off : BitVec 26) : forksLane [⟨124, 2, 1⟩] (fun _ => { uses := [⟨124, 2, 1⟩] })
    (fun e s u t => s.forkTo e u t (e.rel off) true 0) (fun _ e _ => e.target off.toInt) (fun _ _ => true) true fun _ _ => 0 :=
  fun e s u t hn _ => ⟨rfl, check_none rfl hn (.inr fun _ hv => nomatch hv), congrArg (s.forkTo e u t · true 0) (e.rel_eq_target off)⟩

/-- An indirect call to a plain target (R344). -/
theorem State.indirect_plain {s : State} {t : Thread} {a : VReg} {go : Nat → Tag → LaneRes} (h : plainTarget (s.w64 t a).toNat = true) :
    s.indirect t a go = go (s.w64 t a).toNat (s.opd64 t a).tag := by
  simp only [plainTarget, State.w64, Bool.and_eq_true, beq_iff_eq, bne_iff_ne] at h
  obtain ⟨hclause, htoken⟩ := h
  unfold State.indirect
  exact (if_neg (by simp [hclause])).trans (if_neg htoken)

theorem callxF_forks (a : VReg) : forksLane [⟨a.toNat, 2, 2⟩, ⟨124, 2, 1⟩] (fun _ => chkTarget a true)
    (fun e s u t => s.indirect t a fun x g => s.forkTo e u t x false g) (fun s _ t => (s.w64 t a).toNat)
    (fun s t => !t.spec && s.noUse t [a.toNat, a.toNat + 1] && plainTarget (s.w64 t a).toNat) false fun s t => (s.opd64 t a).tag :=
  fun e s u t hn hok => by
    simp only [Bool.and_eq_true, Bool.not_eq_true', State.noUse, Bool.or_eq_true, bne_iff_ne, List.all_eq_true] at hok
    obtain ⟨⟨hspec, huse⟩, hplain⟩ := hok
    exact ⟨by rw [hspec, Bool.and_false], check_none rfl hn huse, State.indirect_plain hplain⟩

/-- Settles O16: a continuation is stalled in its first check (`stopsBefore_of_stopsContinuation`); CALLF and CALLX.F are both
`forkTo`, which the refusal code decides (`State.forkTo_refused`, `State.forkTo_accepted`). -/
theorem forkableCalls : Obligations.ForkableCalls := by
  refine ⟨fun _ => stopsBefore_of_stopsContinuation, fun i uses tgt ok plain hi => ?_⟩
  obtain ⟨off, rfl, rfl, rfl, rfl, rfl⟩ | ⟨a, rfl, rfl, rfl, rfl, rfl⟩ := hi
  · exact ⟨forkable_refused (fun _ => rfl) (callf_forks off), forkable_accepted (fun _ => rfl) (callf_forks off)⟩
  · exact ⟨forkable_refused (fun _ => rfl) (callxF_forks a), forkable_accepted (fun _ => rfl) (callxF_forks a)⟩

end Sys2Proof.Machine
end

section
/-! SUPPORT. The start of a fork (R194, R208), and the obligation about it. -/

namespace Sys2Proof.Machine

/-! ## Registers written from a register of the window on -/

section
variable {s : State} {t : Thread} {d : Nat} {rs : List Reg}

/-- A register written is read back. -/
theorem State.setRegs_reg {i : Nat} (hi : i < rs.length) (hfits : t.wbase + d + rs.length ≤ t.allot) :
    (s.setRegs t d rs).reg t (d + i) = rs.getD i Reg.zero := by
  have hread := (setRegs_wrote (s1 := s) (d := d) (rs := rs) (rfl : t.base = t.base)).2.1 (d + i) rs[i] (by simp [fromReg, hi])
  rw [State.reg, if_pos (by omega)]
  exact hread.trans (by simp [hi])

/-- A thread with no register of the written one reads what it read. -/
theorem State.setRegs_rd_apart {c : Thread} (hapart : c.Apart t) (hfits : t.wbase + d + rs.length ≤ t.allot) {i : Nat} (hi : i < c.allot) :
    (s.setRegs t d rs).rd c i = s.rd c i := by
  rw [State.rd, State.setRegs, getD_wrs, if_neg]
  · rfl
  · rintro ⟨j, hj, hkey⟩
    exact hapart i hi (t.wbase + d + j) (by omega) hkey

end

theorem State.startRegs_frame (s : State) (c : Thread) (rs : List Reg) : s.startRegs c rs = { s with regs := (s.startRegs c rs).regs } :=
  wrs_frame c _ s 0

/-- Threads of one quadrant in different lanes, or in disjoint registers of one lane, have no register in common. -/
theorem Thread.apart_of_quadrant {c t : Thread} (hcore : c.core = t.core) (hquad : c.quad = t.quad) (hclane : c.lane < 32) (htlane : t.lane < 32)
    (hcregs : c.rbase + c.allot ≤ 2048) (htregs : t.rbase + t.allot ≤ 2048)
    (h : c.lane ≠ t.lane ∨ c.rbase + c.allot ≤ t.rbase ∨ t.rbase + t.allot ≤ c.rbase) : c.Apart t := by
  by_cases hlane : c.lane = t.lane
  · exact Thread.apart_of_regs hcore hquad hlane (h.resolve_left (not_not_intro hlane)).symm
  · exact fun i hi j hj => key_ne hcore hquad hclane htlane hlane (by omega) (by omega)

/-! ## FORK_START -/

/-- The callee as it starts under its home thread (R194). -/
def Thread.startUnder (home : Thread) (target : Nat) (c : Thread) : Thread :=
  { c with
    status := .boundary, pc := target, anom := home.anomNext.getD home.anom, watch := home.watchNext.getD home.watch
    inherited := home.depth, nest := home.nest + 1 }

section
variable (s : State) (t c : Thread) (callee target : Nat) (pred : List Reg) (link : Tag)

/-- The machine with the callee started. -/
def State.calleeStarted : State :=
  let s := s.count (cntCore t.core 3) 1
  (s.startRegs c (s.calleeRegs t link)).modThread callee (Thread.startUnder t target)

/-- The level a fork opens: a checkpoint, the return clause and the prediction (R194). -/
def State.forkLevel : Level := ⟨callee, s.checkpoint t, (t.pc + 64) % 2 ^ 64, pred, [], [], false, ⟨[], []⟩, []⟩

/-- The home thread as it goes on (R194). -/
def Thread.continues (lv : Level) (t : Thread) : Thread :=
  { t.standAt ((t.pc + 64) % 2 ^ 64) 0 true false with levels := lv :: t.levels, lastf := true, refuse := 0 }

/-- The machine with the fork started. -/
def State.forkStarted (u : Nat) : State :=
  let s1 := s.calleeStarted t c callee target link
  ((s1.setRegs t 0 pred).modThread u (Thread.continues (s1.forkLevel t callee pred))).dropL1 t.core t.quad

end

section
variable {s : State} {u callee target site : Nat} {pred : List Reg} {link : Tag} {t c : Thread}

theorem exec_forkStart (ht : s.thread? u = some t) (hstatus : t.status = .forking callee target site pred link) (hfifo : t.fifo = [])
    (hdue : (s.writesDue u fun a => ([0, 1, 2, 3, 4, 5, 6, 7, 120, 121, 124, 125].map (t.wbase + ·)).contains a) = false)
    (hc : s.thread? callee = some c) : exec (.forkStart u) s = .next (s.forkStarted t c callee target pred link u) := by
  change execForkStart u s = _
  unfold execForkStart
  simp only [ht, hstatus, hfifo, hc]
  rw [hdue]
  rfl

/-- The callee starts and the home thread goes on; no other thread changes. -/
theorem State.forkStarted_thread (v : Nat) : (s.forkStarted t c callee target pred link u).thread? v =
    ((s.modThread callee (Thread.startUnder t target)).modThread u
      (Thread.continues ((s.calleeStarted t c callee target link).forkLevel t callee pred))).thread? v := by
  unfold State.forkStarted
  dsimp only
  rw [State.setRegs_frame]
  generalize (s.calleeStarted t c callee target link).forkLevel t callee pred = lv
  unfold State.calleeStarted
  dsimp only
  rw [State.startRegs_frame]
  rfl

/-- What the callee finds in its registers (R194). -/
theorem State.calleeRegs_eq (s : State) (t : Thread) (link : Tag) : s.calleeRegs t link =
    [s.reg t 0, s.reg t 1, s.reg t 2, s.reg t 3, s.reg t 4, s.reg t 5, s.reg t 6, s.reg t 7] ++ List.replicate 112 Reg.zero ++
      [s.reg t 120, s.reg t 121, Reg.zero, Reg.zero, ⟨0xFFFFFFC0, link⟩, ⟨0xFFFFFFFF, link⟩] := by
  have htoken : pairRegs (BitVec.ofNat 64 forkToken) link = [⟨0xFFFFFFC0, link⟩, ⟨0xFFFFFFFF, link⟩] := rfl
  rw [State.calleeRegs, htoken, List.append_assoc _ _ [_, _]]
  rfl

/-- The home thread's predicted values are not among the callee's registers. -/
theorem State.forkStarted_callee_rd (hapart : c.Apart t) (hfits : t.wbase + 0 + pred.length ≤ t.allot) {i : Nat} (hi : i < c.allot) :
    (s.forkStarted t c callee target pred link u).rd c i = (s.calleeRegs t link).getD i Reg.zero :=
  (State.setRegs_rd_apart (s := s.calleeStarted t c callee target link) hapart hfits hi).trans
    ((s.count (cntCore t.core 3) 1).startRegs_getD_own c (s.calleeRegs t link) hi)

theorem State.forkStarted_home_reg (hfits : t.wbase + 0 + pred.length ≤ t.allot) {i : Nat} (hi : i < pred.length) :
    (s.forkStarted t c callee target pred link u).reg t i = pred.getD i Reg.zero := by
  have hread := State.setRegs_reg (s := s.calleeStarted t c callee target link) (d := 0) hi hfits
  rwa [Nat.zero_add] at hread

end

/-- Settles O20: the step makes `State.forkStarted` (`exec_forkStart`), in which the callee holds its start registers, apart from the
predicted values of the home thread. -/
theorem forkStarts : Obligations.ForkStarts := by
  intro s u callee target site pred link t c ht hstatus hfifo hpred hne hdue hc hcore hquad hclane htlane hcregs htregs hwin hapart
  have hapart : c.Apart t := Thread.apart_of_quadrant hcore hquad hclane htlane hcregs htregs hapart
  have hfits : t.wbase + 0 + pred.length ≤ t.allot := by omega
  have hthread := State.forkStarted_thread (s := s) (u := u) (callee := callee) (target := target) (pred := pred) (link := link) (t := t) (c := c)
  have hhome := hthread u
  have hcallee := hthread callee
  rw [State.modThread_thread_same, State.modThread_thread, if_neg hne.symm, ht, Option.map_some] at hhome
  rw [State.modThread_thread, if_neg hne, State.modThread_thread_same, hc, Option.map_some] at hcallee
  exact ⟨_, _, _, exec_forkStart ht hstatus hfifo hdue hc, hhome, hcallee, rfl, rfl, rfl, rfl,
    fun i hi => (State.forkStarted_callee_rd hapart hfits hi).trans (by rw [State.calleeRegs_eq]), rfl, rfl, rfl, rfl, rfl, rfl, rfl,
    fun i hi => State.forkStarted_home_reg hfits (by omega)⟩

end Sys2Proof.Machine
end

section
/-! SUPPORT. What a write that reaches its point neither reads nor changes: what the parlour keeps of collectives, its messages and queues, the
chip, launches, operations, counters and the time base (R71, R172, R218, R237). -/

namespace Sys2Proof.Machine

/-! ## A machine with those parts taken from another -/

/-- The machine `s` with the collectives, messages and queues of the parlour, the chip, launches, operations, counters
and time base of `r`. -/
def State.beside (s r : State) : State :=
  { s with
    posted := r.posted, coords := r.coords, outbox := r.outbox, commands := r.commands, colQ := r.colQ, nextStore := r.nextStore
    chip := r.chip, launches := r.launches, ops := r.ops, counters := r.counters, timebase := r.timebase }

/-- From `s` to `s1` only those parts changed. -/
def State.parleys (s s1 : State) : Prop := s1 = s.beside s1

theorem State.parleys_refl (s : State) : s.parleys s := rfl

theorem State.parleys.trans {s s1 s2 : State} (h : s.parleys s1) (h2 : s1.parleys s2) : s.parleys s2 := by
  rw [State.parleys] at h h2 ⊢
  rw [h] at h2
  exact h2

theorem State.parleys_foldl {α : Type} {f : State → α → State} (h : ∀ (s : State) a, s.parleys (f s a)) :
    ∀ (l : List α) (s : State), s.parleys (l.foldl f s)
  | [], s => s.parleys_refl
  | a :: l, s => (h s a).trans (State.parleys_foldl h l (f s a))

theorem foldl_beside {α : Type} {f : State → α → State} {r : State} (h : ∀ s a, f (s.beside r) a = (f s a).beside r) :
    ∀ (l : List α) (s : State), l.foldl f (s.beside r) = (l.foldl f s).beside r
  | [], _ => rfl
  | a :: l, s => by rw [List.foldl_cons, h, foldl_beside h l, List.foldl_cons]

section
variable (s r : State)

theorem State.transDev_beside (c : Context) (va : Nat) : (s.beside r).transDev c va = s.transDev c va := rfl

theorem State.mapsOf_beside (c : Context) (pa : Nat) : (s.beside r).mapsOf c pa = s.mapsOf c pa := rfl

theorem State.snapUnit_beside (cid u : Nat) (l : Loc) : (s.beside r).snapUnit cid u l = (s.snapUnit cid u l).beside r := by
  have hctxs : (s.beside r).ctxs = s.ctxs := rfl
  have hmem : (s.beside r).mem = s.mem := rfl
  have htrans : (s.beside r).transDev = s.transDev := funext fun c => funext fun va => s.transDev_beside r c va
  unfold State.snapUnit
  rw [hctxs, hmem, htrans]
  split
  · split
    · rfl
    · split <;> rfl
  · rfl

theorem State.markUnit_beside (cid u : Nat) (l : Loc) : (s.beside r).markUnit cid u l = (s.markUnit cid u l).beside r := by
  have hctxs : (s.beside r).ctxs = s.ctxs := rfl
  simp only [State.markUnit, State.transDev_beside, State.snapUnit_beside, hctxs]
  split
  · rfl
  · split
    · rfl
    · split
      · split <;> rfl
      · rfl

theorem State.markDirty_beside (cid va : Nat) (l : Loc) : (s.beside r).markDirty cid va l = (s.markDirty cid va l).beside r := by
  have hctxs (s : State) : (s.beside r).ctxs = s.ctxs := rfl
  unfold State.markDirty
  dsimp only
  rw [State.markUnit_beside]
  split
  · rw [hctxs]
    refine foldl_beside (fun s e => ?_) _ _
    rw [State.mapsOf_beside]
    exact foldl_beside (fun s v => s.markUnit_beside r _ _ _) _ s
  · rfl

theorem State.scrWrite_beside (bs : List Byte) (core b : Nat) : (s.beside r).scrWrite core b bs = (s.scrWrite core b bs).beside r := by
  induction bs generalizing s b with
  | nil => rfl
  | cons x xs ih => exact ih { s with scr := SMap.setD s.scr 0 (scrKey core b) x } (b + 1)

theorem State.winWrite1_beside (core o : Nat) (d : List Byte) (g : Tag) : (s.beside r).winWrite1 core o d g = (s.winWrite1 core o d g).beside r := by
  have hword : (s.beside r).winWord core o = s.winWord core o := rfl
  unfold State.winWrite1
  simp only [hword, State.scrWrite_beside]
  split <;> rfl

theorem State.writeLoc_beside (l : Loc) (d : List Byte) (g : Tag) (ta : Option Nat) (w : Bool) :
    (s.beside r).writeLoc l d g ta w = (s.writeLoc l d g ta w).beside r := by
  cases l with
  | hbm a => cases ta <;> rfl
  | win c o =>
    unfold State.writeLoc State.winWrite
    dsimp only
    rw [foldl_beside fun s (e : Nat × List Byte) => s.winWrite1_beside r c e.1 e.2 g]
    split
    · split <;> rfl
    · rfl
  | scr c b =>
    unfold State.writeLoc
    dsimp only
    rw [State.scrWrite_beside]
    rfl
  | _ => rfl

theorem State.performWrite_beside (cid va : Nat) (l : Loc) (d : List Byte) (g : Tag) (ta : Option Nat) :
    (s.beside r).performWrite cid va l d g ta = (s.performWrite cid va l d g ta).beside r := by
  unfold State.performWrite
  dsimp only
  split
  · rw [State.writeLoc_beside]
    rfl
  · rw [State.markDirty_beside, State.writeLoc_beside]
    rfl

theorem State.performMasked_beside (cid va : Nat) (l : Loc) (d : List (Option Byte)) (g : Tag) (ta : Option Nat) :
    (s.beside r).performMasked cid va l d g ta = (s.performMasked cid va l d g ta).beside r := by
  have hruns (s : State) := foldl_beside (f := fun s (e : Nat × List Byte) => s.writeLoc (l.add e.1) e.2 g ta (wholeGran d))
    (fun s e => s.writeLoc_beside r _ _ _ _ _) (maskRuns 0 d) s
  unfold State.performMasked
  dsimp only
  split
  · rw [hruns]
    rfl
  · rw [State.markDirty_beside, hruns]
    rfl

theorem State.performResult_beside (cid va : Nat) (h : Hit) (d : List (Option Byte)) (g : Tag) :
    (s.beside r).performResult cid va h d g = (s.performResult cid va h d g).beside r := by
  unfold State.performResult
  split
  · rw [State.performMasked_beside]
    rfl
  · exact s.performMasked_beside r _ _ _ _ _ _

end

/-- A record written beside other collectives. -/
def RecOut.beside (r : State) : RecOut → RecOut
  | .ok s => .ok (s.beside r)
  | .wait => .wait
  | .dead => .dead

theorem State.recWrite_beside (r : State) : ∀ (gs : List (List Byte)) (s : State) (cid va : Nat),
    (s.beside r).recWrite cid va gs = (s.recWrite cid va gs).beside r
  | [], _, _, _ => rfl
  | g :: gs, s, cid, va => by
    have hctxs : (s.beside r).ctxs = s.ctxs := rfl
    have htw (l : Loc) (ta : Option Nat) (g : Tag) : (s.beside r).twAt l ta g = s.twAt l ta g := by cases l <;> rfl
    unfold State.recWrite
    simp only [hctxs, State.transDev_beside, htw, State.performWrite_beside]
    split
    · rfl
    · split
      · rfl
      · rfl
      · rfl
      · split
        · rfl
        · exact State.recWrite_beside r gs _ _ _

end Sys2Proof.Machine
end

section
/-! SUPPORT. The work of collectives at this device: reading SRC, combining, queueing landings, firing and failing chunks (R210, R217, R222 to
R227). It leaves the warps, the threads' places, the contexts, the coordinators' states, the links, and the state and weights of every entry. -/

namespace Sys2Proof.Machine

/-! ## What is left alone -/

/-- The state of an entry and the weights of its routes (R220, R222). -/
def Posted.course (p : Posted) : ColState × List Nat := (p.state, p.weights)

/-- From `s` to `s1` collectives were worked on: messages were sent, and entries have gone on in the states they stood in. -/
structure State.works (s s1 : State) : Prop where
  underway : s.underway s1
  live : ∀ k, s1.live k = s.live k
  coords : s1.coords = s.coords
  linkFailed : s1.chip.linkFailed = s.chip.linkFailed
  outbox : s.outbox <+: s1.outbox
  posted : ∀ j, (SMap.get? s1.posted j).map Posted.course = (SMap.get? s.posted j).map Posted.course

section
variable {s s1 s2 : State}

theorem State.underway_refl (s : State) : s.underway s := ⟨rfl, rfl, fun _ t ht => ⟨t, ht, rfl⟩, fun _ _ _ _ _ _ => rfl⟩

/-- What the parlour keeps is no part of what others see. -/
theorem State.underway_of_parleys (h : s.parleys s1) : s.underway s1 := by
  rw [h]
  exact ⟨rfl, rfl, fun _ t ht => ⟨t, ht, rfl⟩, fun _ _ _ _ _ _ => rfl⟩

theorem State.works_refl (s : State) : s.works s := ⟨s.underway_refl, fun _ => rfl, rfl, rfl, List.prefix_rfl, fun _ => rfl⟩

theorem State.works.trans (h : s.works s1) (h2 : s1.works s2) : s.works s2 where
  underway := h.underway.trans h2.underway
  live k := (h2.live k).trans (h.live k)
  coords := h2.coords.trans h.coords
  linkFailed := h2.linkFailed.trans h.linkFailed
  outbox := h.outbox.trans h2.outbox
  posted j := (h2.posted j).trans (h.posted j)

theorem State.works_foldl {α : Type} {f : State → α → State} (h : ∀ (s : State) a, s.works (f s a)) : ∀ (l : List α) (s : State), s.works (l.foldl f s)
  | [], s => s.works_refl
  | a :: l, s => (h s a).trans (State.works_foldl h l (f s a))

theorem State.works_of_parleys (h : s.parleys s1) (hcoords : s1.coords = s.coords) (hlinks : s1.chip.linkFailed = s.chip.linkFailed)
    (hout : s.outbox <+: s1.outbox) (hposted : ∀ j, (SMap.get? s1.posted j).map Posted.course = (SMap.get? s.posted j).map Posted.course) :
    s.works s1 :=
  ⟨State.underway_of_parleys h, fun k => by rw [h]; rfl, hcoords, hlinks, hout, hposted⟩

/-- An entry that goes on in its state. -/
theorem State.works_putPosted {i : Nat} {p p1 : Posted} (hp : SMap.get? s.posted i = some p) (h : p1.course = p.course) :
    s.works { s with posted := SMap.put s.posted i p1 } :=
  State.works_of_parleys rfl rfl rfl List.prefix_rfl fun j => by
    rw [SMap.get?_put]
    split
    · next hj => rw [hj, hp, Option.map_some, Option.map_some, h]
    · rfl

/-- A step that takes an entry with it: none without one. -/
theorem State.works.posted_none (h : s.works s1) {j : Nat} (hj : SMap.get? s.posted j = none) : SMap.get? s1.posted j = none := by
  have hmap := h.posted j
  rwa [hj, Option.map_none, Option.map_eq_none_iff] at hmap

theorem State.works.posted_some (h : s.works s1) {j : Nat} {p : Posted} (hj : SMap.get? s.posted j = some p) :
    ∃ p1, SMap.get? s1.posted j = some p1 ∧ p1.state = p.state ∧ p1.weights = p.weights := by
  have hmap := h.posted j
  rw [hj, Option.map_some] at hmap
  obtain ⟨p1, hp1, hcourse⟩ := Option.map_eq_some_iff.1 hmap
  exact ⟨p1, hp1, congrArg Prod.fst hcourse, congrArg Prod.snd hcourse⟩

end

/-! ## Entries -/

section
variable (p : Posted)

theorem Posted.mark_course (e rank : Nat) (g : Tag) : (p.mark e rank g).course = p.course := by
  unfold Posted.mark
  split
  · rfl
  · dsimp only
    split
    · split <;> rfl
    · rfl

theorem Posted.addTerm_course (e mask x : Nat) : (p.addTerm e mask x).course = p.course := rfl

end

/-! ## Messages, operations and landings (R15, R172, R218) -/

section
variable (s : State)

theorem State.works_send (dest kind cid : Nat) (fields : List Nat) : s.works (s.send dest kind cid fields) :=
  State.works_of_parleys rfl rfl rfl (List.prefix_append _ _) fun _ => rfl

theorem State.works_sendFail (p : Posted) (c code : Nat) : s.works (s.sendFail p c code) :=
  State.works_foldl (fun s d => s.works_send d 6 p.cid [code, c]) _ s

theorem State.works_opDone (op : Nat) : s.works (s.opDone op) := by
  rw [State.opDone_eq]
  exact State.works_of_parleys rfl rfl rfl List.prefix_rfl fun _ => rfl

theorem State.works_queueLanding (i : Nat) (p : Posted) (g : Nat) : s.works (s.queueLanding i p g) := by
  unfold State.queueLanding
  dsimp only
  split <;> exact State.works_of_parleys rfl rfl rfl List.prefix_rfl fun _ => rfl

/-! ## Failing chunks (R217, R227) -/

theorem State.works_clearFires (i c : Nat) : s.works (s.clearFires i c) := by
  unfold State.clearFires
  cases hp : SMap.get? s.posted i with
  | none => exact s.works_refl
  | some p => exact (State.works_putPosted hp (by rfl)).trans (State.works_foldl (fun s (f : Nat × Nat) => s.works_opDone f.2) _ _)

theorem State.works_failChunk (i c code : Nat) : s.works (s.failChunk i c code) := by
  unfold State.failChunk
  cases hp : SMap.get? s.posted i with
  | none => exact s.works_refl
  | some p =>
    dsimp only
    split
    · exact s.works_refl
    · exact (State.works_putPosted hp (by rfl)).trans (State.works_clearFires _ i c)

theorem State.works_failHere (i c code : Nat) : s.works (s.failHere i c code) := by
  unfold State.failHere
  cases SMap.get? s.posted i with
  | none => exact s.works_refl
  | some p =>
    dsimp only
    split
    · exact s.works_refl
    · exact (s.works_failChunk i c code).trans (State.works_sendFail _ p c code)

/-! ## Results (R224, R225) -/

theorem State.performMasked_census (cid va : Nat) (l : Loc) (d : List (Option Byte)) (g : Tag) (ta : Option Nat) :
    (s.performMasked cid va l d g ta).census = s.census := by
  unfold State.performMasked
  dsimp only
  refine Eq.trans (foldl_census _ (fun _ _ => State.writeLoc_census) _ _) ?_
  split
  · rfl
  · exact State.markDirty_census

theorem State.performResult_census (cid va : Nat) (h : Hit) (d : List (Option Byte)) (g : Tag) :
    (s.performResult cid va h d g).census = s.census := by
  unfold State.performResult
  split <;> exact s.performMasked_census _ _ _ _ _ _

theorem State.performResult_underway (cid va : Nat) (h : Hit) (d : List (Option Byte)) (g : Tag) : s.underway (s.performResult cid va h d g) := by
  refine State.underway_of_unwoken ?_ ?_
  · unfold State.performResult
    split <;> exact s.performMasked_unwoken _ _ _ _ _ _
  · have haside := s.performMasked_aside s cid va h.loc d g
    rw [State.aside_self] at haside
    unfold State.performResult
    split
    · exact congrArg (fun s1 : State => s1.setTagWord _ _) (haside none).symm
    · exact (haside _).symm

theorem State.live_of_census {s s1 : State} (h : s1.census = s.census) (k : Nat) : s1.live k = s.live k := by
  have hlive (s : State) : s.live k = (s.census.2 k).any fun b => !b := by
    rw [State.live, State.census_snd, Option.any_map]
  rw [hlive, hlive, h]

/-- A result in memory leaves everything the parlour keeps (R83). -/
theorem State.performResult_of_beside (cid va : Nat) (h : Hit) (d : List (Option Byte)) (g : Tag) :
    s.performResult cid va h d g = (s.performResult cid va h d g).beside s := s.performResult_beside s cid va h d g

theorem State.works_performResult (cid va : Nat) (h : Hit) (d : List (Option Byte)) (g : Tag) : s.works (s.performResult cid va h d g) := by
  have hbeside := s.performResult_of_beside cid va h d g
  refine ⟨s.performResult_underway cid va h d g, State.live_of_census (s.performResult_census cid va h d g), ?_, ?_, ?_, fun j => ?_⟩
  · rw [hbeside]; rfl
  · rw [hbeside]; rfl
  · rw [hbeside]; exact List.prefix_rfl
  · rw [hbeside]; rfl

end

theorem State.works_reduceGran {s s1 : State} {i mask g : Nat} {terms : List (Nat × Nat)} (h : s.reduceGran i mask terms g = some s1) :
    s.works s1 := by
  unfold State.reduceGran at h
  split at h
  · cases h
    exact s.works_refl
  · next p hp =>
    extract_lets va here at h
    split at h
    · split at h
      · cases h
      · extract_lets old m p' data at h
        have hp' : p'.course = p.course :=
          foldl_keep Posted.course (fun p (x : Nat × Nat) => ({ p with acc := SMap.put p.acc x.1 (m x.1) } : Posted).addTerm x.1 mask x.2)
            (fun _ _ => rfl) here p
        cases h
        exact (State.works_putPosted hp hp').trans (State.works_performResult _ _ _ _ _ _)
    · cases h

theorem State.works_reduceRun {i mask : Nat} {terms : List (Nat × Nat)} : ∀ {gs : List Nat} {s s1 : State},
    s.reduceRun i mask terms gs = some s1 → s.works s1
  | [], s, s1, h => by cases h; exact s.works_refl
  | g :: gs, s, s1, h => by
    obtain ⟨s2, hg, hgs⟩ := Option.bind_eq_some_iff.1 h
    exact (State.works_reduceGran hg).trans (State.works_reduceRun hgs)

/-! ## Sending and firing chunks (R217, R220, R222) -/

section
variable (s : State)

theorem State.works_sendChunk (i c : Nat) : s.works (s.sendChunk i c) := by
  unfold State.sendChunk
  split
  · exact s.works_refl
  · next p hp =>
    split
    · exact s.works_refl
    · split
      · extract_lets a len
        split
        · exact s.works_refl
        · exact s.works_failHere i c 4
        · extract_lets bits tag p1 terms p' s1
          have hp1 : p1.course = p.course := foldl_keep Posted.course _ (fun p (x : Nat × Nat) => p.mark_course x.1 _ _) _ _
          split
          · split
            · next hrun => exact ((State.works_putPosted hp hp1).trans (State.works_reduceRun hrun)).trans (State.works_clearFires _ i c)
            · exact s.works_refl
          · have hp' : p'.course = p.course := (foldl_keep Posted.course _ (fun p (x : Nat × Nat) => p.addTerm_course x.1 _ x.2) _ p1).trans hp1
            exact ((State.works_putPosted hp hp').trans (State.works_foldl (fun s g => s.works_queueLanding i p' g) _ _)).trans
              (State.works_clearFires _ i c)
      · exact s.works_refl

theorem State.works_sendFired (i : Nat) : s.works (s.sendFired i) := by
  unfold State.sendFired
  split
  · exact s.works_refl
  · exact State.works_foldl (fun s c => s.works_sendChunk i c) _ s

theorem State.works_fireChunk (i c : Nat) (op : Option Nat) : s.works (s.fireChunk i c op) := by
  unfold State.fireChunk
  split
  · exact s.works_refl
  · next p hp =>
    extract_lets waits p' s1 s2
    have h1 : s.works s1 := State.works_putPosted hp (by rfl)
    have h2 : s1.works s2 := by
      unfold s2
      split
      · exact s1.works_refl
      · split
        · exact s1.works_opDone _
        · exact s1.works_refl
    exact (h1.trans h2).trans (s2.works_sendChunk i c)

end

end Sys2Proof.Machine
end

section
/-! SUPPORT. The parlour's messages (R218, R220, R222, R229): what the coordinator notes, which entry starts, what GO does, and the obligation about
them. -/

namespace Sys2Proof.Machine

/-! ## The coordinator's state for a group (R218) -/

/-- The first entry that meets a condition is replaced in place, or a first one put in. -/
theorem SMap.find?_put {α : Type} {q : Nat × α → Bool} {k : Nat} {b : α} (hb : q (k, b) = true) :
    ∀ {m : SMap α}, (∀ e, m.find? q = some e → e.1 = k) → (SMap.put m k b).find? q = some (k, b)
  | [], _ => by rw [SMap.put, List.find?_cons_of_pos hb]
  | (k', v) :: m, h => by
    rw [SMap.put]
    split
    · next hk => rw [← hk, List.find?_cons_of_pos hb]
    · next hk =>
      split
      · exact List.find?_cons_of_pos hb
      · have hq : ¬ q (k', v) = true := fun hq => hk (h _ (List.find?_cons_of_pos hq)).symm
        rw [List.find?_cons_of_neg hq]
        exact SMap.find?_put hb fun e he => h e ((List.find?_cons_of_neg hq).trans he)

section
variable {s : State} {ctx cid k : Nat} {c : Coord}

theorem State.modCoord_of_coordOf (h : s.coordOf ctx cid = some (k, c)) (f : Coord → Coord) :
    s.modCoord ctx cid f = { s with coords := SMap.put s.coords k (f c) } := by
  simp only [State.modCoord, h]

theorem State.endCoord_of_coordOf (h : s.coordOf ctx cid = some (k, c)) : s.endCoord ctx cid = { s with coords := SMap.del s.coords k } := by
  simp only [State.endCoord, h]

/-- A group's state with a change is the state of the group. -/
theorem State.coordOf_modCoord (h : s.coordOf ctx cid = some (k, c)) {f : Coord → Coord} (hctx : (f c).ctx = c.ctx) (hcid : (f c).cid = c.cid) :
    (s.modCoord ctx cid f).coordOf ctx cid = some (k, f c) := by
  have hc : (c.ctx == ctx && c.cid == cid) = true := List.find?_some (p := fun e : Nat × Coord => e.2.ctx == ctx && e.2.cid == cid) h
  rw [State.modCoord_of_coordOf h]
  exact SMap.find?_put (by rw [hctx, hcid]; exact hc) fun e he => congrArg Prod.fst (Option.some.inj (he.symm.trans h))

/-- The state a coordinator begins with for a group. -/
theorem State.coordOf_begin (h : s.coordOf ctx cid = none) (n : Nat) (hctx : c.ctx = ctx) (hcid : c.cid = cid) :
    ({ s with coords := SMap.put s.coords n c } : State).coordOf ctx cid = some (n, c) :=
  SMap.find?_put (by simp [hctx, hcid]) fun e he => by cases he.symm.trans h

/-! ## Posts (R218) -/

/-- What a coordinator knows of a group once a post has come. -/
def Coord.posted (c : Coord) (rank : Nat) (fields : List Nat) : Coord := { c with posts := c.posts ++ [(rank, fields)] }

/-- A post of a group that is known, and not the last one, is noted. -/
theorem State.recvPost_notes {rank : Nat} (members fields : List Nat) (h : s.coordOf ctx cid = some (k, c))
    (hn : c.posts.length + 1 < c.members.length) :
    s.recvPost ctx cid rank members fields = s.modCoord ctx cid (·.posted rank fields) ∧
      (s.recvPost ctx cid rank members fields).coordOf ctx cid = some (k, c.posted rank fields) := by
  have h1 : (s.modCoord ctx cid fun c => { c with posts := c.posts ++ [(rank, fields)] }).coordOf ctx cid = some (k, c.posted rank fields) :=
    State.coordOf_modCoord (f := (·.posted rank fields)) h rfl rfl
  have hpost : s.recvPost ctx cid rank members fields = s.modCoord ctx cid (·.posted rank fields) := by
    unfold State.recvPost
    rw [h]
    dsimp only
    rw [h1]
    exact if_pos (by simpa [Coord.posted] using hn)
  exact ⟨hpost, hpost ▸ h1⟩

/-- The first post of a group makes the group known. -/
theorem State.recvPost_begin (h : s.coordOf ctx cid = none) (rank : Nat) (members fields : List Nat) :
    s.recvPost ctx cid rank members fields =
      ({ s with coords := SMap.put s.coords (SMap.fresh s.coords) ⟨ctx, cid, members, [], none, []⟩ } : State).recvPost ctx cid rank members fields := by
  have h1 := State.coordOf_begin (c := ⟨ctx, cid, members, [], none, []⟩) h (SMap.fresh s.coords) rfl rfl
  unfold State.recvPost
  rw [h, h1]

end

theorem parlourPost_notes {s : State} {clock ctx cid rank : Nat} {fields : List Nat} {cx : Context} {cm : Comm} (hcx : SMap.get? s.ctxs ctx = some cx)
    (hcm : SMap.get? cx.comms (fields.getD 0 0) = some cm) (hco : coordinator cm.members = s.chip.dev) (hr : rank < cm.members.length)
    (hme : cm.members.getD rank s.chip.dev ≠ s.chip.dev) (hf : fields.length = 7)
    (hmem : ∀ k c, s.coordOf ctx cid = some (k, c) → c.members = cm.members) :
    let old := ((s.coordOf ctx cid).map (·.2.posts)).getD []
    (old.any fun p => p.1 == rank) = false → old.length + 1 < cm.members.length →
    ∃ s' k c, exec (.parlourPost clock ctx cid rank fields) s = .next s' ∧ s'.chip.clock = s.heard clock ∧ s'.coordOf ctx cid = some (k, c) ∧
      c.posts = old ++ [(rank, fields)] ∧ s'.outbox = s.outbox := by
  intro old hnew hn
  have hexec : exec (.parlourPost clock ctx cid rank fields) s = .next ((s.hear clock).recvPost ctx cid rank cm.members fields) := by
    change execParlourPost clock ctx cid rank fields s = _
    have hother : cm.members[rank] ≠ s.chip.dev := List.getD_eq_getElem _ s.chip.dev hr ▸ hme
    unfold execParlourPost
    rw [hcx, Option.bind_some, hcm]
    cases hc : s.coordOf ctx cid with
    | none => simp [hco, hf, hr, hother]
    | some x =>
      have hposts : (x.2.posts.any fun p => p.1 == rank) = false := by simpa [old, hc] using hnew
      simp [hco, hf, hr, hother, hposts]
  cases hc : s.coordOf ctx cid with
  | some x =>
    obtain ⟨k, c⟩ := x
    have hold : old = c.posts := by simp only [old, hc, Option.map_some, Option.getD_some]
    have hheard : (s.hear clock).coordOf ctx cid = some (k, c) := hc
    obtain ⟨hpost, hcoord⟩ := State.recvPost_notes (rank := rank) cm.members fields hheard (by rw [hmem k c hc, ← hold]; exact hn)
    refine ⟨_, _, _, hexec, ?_, hcoord, by rw [hold]; rfl, ?_⟩
    all_goals rw [hpost, State.modCoord_of_coordOf hheard]; rfl
  | none =>
    have hold : old = [] := by simp only [old, hc, Option.map_none, Option.getD_none]
    have hheard : (s.hear clock).coordOf ctx cid = none := hc
    have hbegin := State.coordOf_begin (c := ⟨ctx, cid, cm.members, [], none, []⟩) hheard (SMap.fresh (s.hear clock).coords) rfl rfl
    obtain ⟨hpost, hcoord⟩ := State.recvPost_notes (rank := rank) cm.members fields hbegin (by rw [hold] at hn; exact hn)
    rw [State.recvPost_begin hheard] at hexec
    refine ⟨_, _, _, hexec, ?_, hcoord, by rw [hold]; rfl, ?_⟩
    all_goals rw [hpost, State.modCoord_of_coordOf hbegin]; rfl

/-! ## The lowest held ticket (R218, R220) -/

/-- The entry with the lower ticket, the first of equals. -/
def lowerTicket (b : Option (Nat × Posted)) (e : Nat × Posted) : Option (Nat × Posted) :=
  match b with
  | none => some e
  | some x => if e.2.ticket.getD 0 < x.2.ticket.getD 0 then some e else some x

theorem State.lowestHeld_eq (s : State) : s.lowestHeld = (s.posted.filter fun e => e.2.state == .held).foldl lowerTicket none := rfl

theorem foldl_lowerTicket_mem : ∀ (l : List (Nat × Posted)) (b : Option (Nat × Posted)) (x : Nat × Posted),
    l.foldl lowerTicket b = some x → x ∈ l ∨ b = some x
  | [], _, _, h => .inr h
  | e :: l, b, x, h => by
    rcases foldl_lowerTicket_mem l _ x h with hx | hx
    · exact .inl (List.mem_cons_of_mem _ hx)
    · unfold lowerTicket at hx
      split at hx
      · cases hx; exact .inl (List.mem_cons_self ..)
      · split at hx
        · cases hx; exact .inl (List.mem_cons_self ..)
        · exact .inr hx

/-- Among entries of which every other has a higher ticket, it is the lowest. -/
theorem foldl_lowerTicket_min {e : Nat × Posted} : ∀ (l : List (Nat × Posted)) (b : Option (Nat × Posted)),
    (∀ x, x ∈ l ∨ b = some x → x = e ∨ e.2.ticket.getD 0 < x.2.ticket.getD 0) → e ∈ l ∨ b = some e → l.foldl lowerTicket b = some e
  | [], b, _, h => by simpa using h
  | y :: l, b, hmin, h => by
    have hy := hmin y (.inl (List.mem_cons_self ..))
    rw [List.foldl_cons]
    refine foldl_lowerTicket_min l _ (fun x hx => hmin x ?_) ?_
    · rcases hx with hx | hx
      · exact .inl (List.mem_cons_of_mem _ hx)
      · have := foldl_lowerTicket_mem [y] b x hx
        simp only [List.mem_singleton] at this
        rcases this with rfl | hx
        · exact .inl (List.mem_cons_self ..)
        · exact .inr hx
    · rw [List.mem_cons, or_assoc] at h
      unfold lowerTicket
      cases b with
      | none =>
        rcases h with rfl | h | h
        · exact .inr rfl
        · exact .inl h
        · cases h
      | some z =>
        have hz := hmin z (.inr rfl)
        dsimp only
        rcases h with rfl | h | h
        · rcases hz with rfl | hz
          · exact .inr (if_neg (Nat.lt_irrefl _))
          · exact .inr (if_pos hz)
        · exact .inl h
        · cases h
          rcases hy with rfl | hy
          · exact .inr (if_neg (Nat.lt_irrefl _))
          · exact .inr (if_neg (Nat.lt_asymm hy))

section
variable {s : State}

theorem State.lowestHeld_mem {x : Nat × Posted} (h : s.lowestHeld = some x) : x ∈ s.posted ∧ x.2.state = .held := by
  rw [State.lowestHeld_eq] at h
  rcases foldl_lowerTicket_mem _ _ _ h with hx | hx
  · simpa using hx
  · cases hx

theorem State.lowestHeld_of_lowest {e : Nat × Posted} (he : e ∈ s.posted) (hheld : e.2.state = .held)
    (hlow : ∀ x ∈ s.posted, x.2.state = .held → x = e ∨ e.2.ticket.getD 0 < x.2.ticket.getD 0) : s.lowestHeld = some e := by
  rw [State.lowestHeld_eq]
  refine foldl_lowerTicket_min _ _ (fun x hx => ?_) (.inl (by simp [he, hheld]))
  rcases hx with hx | hx
  · obtain ⟨hmem, hst⟩ : x ∈ s.posted ∧ x.2.state = .held := by simpa using hx
    exact hlow x hmem hst
  · cases hx

/-! ## Started entries of higher rank (R220) -/

/-- With no Started entry above the lowest held ticket nothing withdraws. -/
theorem State.yieldHigher_of_none (h : ∀ x e, s.lowestHeld = some x → e ∈ s.posted → e.2.state = .started → ¬ x.2.ticket.getD 0 < e.2.ticket.getD 0) :
    s.yieldHigher = s := by
  unfold State.yieldHigher
  cases hx : s.lowestHeld with
  | none => rfl
  | some x =>
    have hnone : (s.posted.filter fun e => e.2.state == .started && decide (x.2.ticket.getD 0 < e.2.ticket.getD 0)) = [] := by
      refine List.filter_eq_nil_iff.2 fun e he => ?_
      simp only [Bool.and_eq_true, beq_iff_eq, decide_eq_true_eq, not_and]
      exact h x e hx he
    dsimp only
    rw [hnone]
    rfl

theorem State.noneStarted_iff : s.noneStarted = true ↔ ∀ e ∈ s.posted, e.2.state ≠ .started := by
  simp [State.noneStarted]

theorem State.yieldHigher_of_noneStarted (h : s.noneStarted = true) : s.yieldHigher = s :=
  State.yieldHigher_of_none fun _ e _ he hst => absurd hst (State.noneStarted_iff.1 h e he)

/-- A change that starts no entry. -/
theorem State.noneStarted_mod (h : s.noneStarted = true) (i : Nat) {f : Posted → Posted} (hf : ∀ p, (f p).state = .started → p.state = .started) :
    ({ s with posted := SMap.mod s.posted i f } : State).noneStarted = true := by
  rw [State.noneStarted_iff] at h ⊢
  intro e he
  obtain ⟨x, hx, rfl⟩ := List.mem_map.1 he
  split
  · exact fun hst => h x hx (hf x.2 hst)
  · exact h x hx

end

/-! ## Tickets and starts (R220) -/

theorem ticket_held {s : State} {i value : Nat} (clock : Nat) {p : Posted} (hp : SMap.get? s.posted i = some p) (hst : p.state = .posted)
    (hco : coordinator p.members ≠ s.chip.dev) (hv : value % 65536 = coordinator p.members) (hnone : s.noneStarted = true) :
    ∃ s', exec (.ticket i value clock) s = .next s' ∧ SMap.get? s'.posted i = some { p with state := .held, ticket := some value } ∧
      s'.chip.clock = s.heard clock ∧ s'.outbox = s.outbox := by
  have hyield : (s.hear clock).recvTicket i value = _ :=
    State.yieldHigher_of_noneStarted (s := { s.hear clock with posted := _ }) (State.noneStarted_mod (s := s.hear clock) hnone i fun p hp => ?_)
  · refine ⟨(s.hear clock).recvTicket i value, ?_, ?_, ?_, ?_⟩
    · change execTicket i value clock s = _
      simp only [execTicket, hp, hst, hv, beq_self_eq_true, Bool.and_true, bne_iff_ne.mpr hco, if_true]
    all_goals rw [hyield]
    · rw [SMap.get?_mod_same]
      change (SMap.get? s.posted i).map _ = _
      rw [hp, Option.map_some, hst]
      rfl
    · rfl
    · rfl
  · split at hp
    · cases hp
    · exact hp

theorem collectiveStart_starts {s : State} {i : Nat} {p : Posted} (hp : (i, p) ∈ s.posted) (hst : p.state = .held)
    (hlow : ∀ e ∈ s.posted, e.2.state = .held → e = (i, p) ∨ p.ticket.getD 0 < e.2.ticket.getD 0) (hfree : s.demandFree p (s.dstStacks p) = true)
    (hco : coordinator p.members ≠ s.chip.dev) (hnone : s.noneStarted = true) :
    ∃ s', exec (.collectiveStart i) s = .next s' ∧ SMap.get? s'.posted i = some { p with state := .started, onStacks := s.dstStacks p } ∧
      s'.chip.clock = (s.chip.clock + 1) % 2 ^ 48 ∧ s'.outbox = s.outbox ++ [⟨(s.chip.clock + 1) % 2 ^ 48, coordinator p.members, 2, p.cid, [p.rank]⟩] := by
  have hlowest := State.lowestHeld_of_lowest hp hst hlow
  have hstart : s.startEntry i p = ({ s with posted := SMap.put s.posted i { p with state := .started, onStacks := s.dstStacks p } } : State).send
      (coordinator p.members) 2 p.cid [p.rank] := if_neg hco
  have hyield : (s.startEntry i p).yieldHigher = s.startEntry i p := by
    rw [hstart]
    refine State.yieldHigher_of_none fun x e hx he hstarted => ?_
    obtain ⟨hmem, hheld⟩ := State.lowestHeld_mem hx
    have hxlow : x = (i, p) ∨ p.ticket.getD 0 < x.2.ticket.getD 0 := by
      rcases SMap.mem_put hmem with rfl | hmem
      · cases hheld
      · exact hlow x hmem hheld
    rcases SMap.mem_put he with rfl | he
    · rcases hxlow with rfl | hlt
      · exact Nat.lt_irrefl _
      · exact Nat.lt_asymm hlt
    · exact absurd hstarted (State.noneStarted_iff.1 hnone e he)
  refine ⟨s.startEntry i p, ?_, ?_, ?_, ?_⟩
  · change execCollectiveStart i s = _
    simp only [execCollectiveStart, hlowest, hfree, decide_true, Bool.and_self, if_true, hyield]
  all_goals rw [hstart]
  · exact SMap.get?_put_same ..
  · rfl
  · rfl

/-! ## READY and GO (R220, R222) -/

/-- Messages of one kind, sent one after another. -/
theorem foldl_send (kind cid : Nat) (fields : List Nat) : ∀ (ds : List Nat) (s : State), ∃ clock l,
    ds.foldl (fun (s : State) d => s.send d kind cid fields) s = { s with chip := { s.chip with clock := clock }, outbox := s.outbox ++ l } ∧
      l.map (fun m => (m.dest, m.kind, m.cid)) = ds.map fun d => (d, kind, cid)
  | [], s => ⟨s.chip.clock, [], by rw [List.append_nil]; rfl, rfl⟩
  | d :: ds, s => by
    obtain ⟨clock, l, hs, hl⟩ := foldl_send kind cid fields ds (s.send d kind cid fields)
    refine ⟨clock, ⟨(s.chip.clock + 1) % 2 ^ 48, d, kind, cid, fields⟩ :: l, ?_, congrArg ((d, kind, cid) :: ·) hl⟩
    rw [List.foldl_cons, hs]
    simp only [State.send, State.tick, List.append_assoc, List.singleton_append]

theorem State.sendOthers_eq (s : State) (members : List Nat) (kind cid : Nat) (fields : List Nat) : ∃ clock l,
    s.sendOthers members kind cid fields = { s with chip := { s.chip with clock := clock }, outbox := s.outbox ++ l } ∧
      l.map (fun m => (m.dest, m.kind, m.cid)) = (members.filter (· != s.chip.dev)).map fun d => (d, kind, cid) :=
  foldl_send kind cid fields _ s

/-- GO makes an entry Running with the weights of its routes, and what it does then leaves its state (R220, R222). -/
theorem State.recvGo_runs {s : State} {i : Nat} {p : Posted} (hp : SMap.get? s.posted i = some p) (hst : p.state = .started ∨ p.state = .withdrawing) :
    ({ s with posted := SMap.put s.posted i { p with state := .running, weights := s.weightsOf p } } : State).works (s.recvGo i) := by
  have hrun : (p.state == .started || p.state == .withdrawing) = true := by simpa using hst
  unfold State.recvGo
  rw [hp]
  dsimp only
  rw [if_pos hrun]
  split
  · exact State.works_foldl (fun s c => s.works_failHere i c 3) _ _
  · exact State.works_sendFired _ i

theorem go_runs {s : State} {i : Nat} (clock : Nat) {p : Posted} (hp : SMap.get? s.posted i = some p) (hst : p.state = .started ∨ p.state = .withdrawing)
    (hco : coordinator p.members ≠ s.chip.dev) :
    ∃ s' p', exec (.go i clock) s = .next s' ∧ SMap.get? s'.posted i = some p' ∧ p'.state = .running ∧ p'.weights = s.weightsOf p ∧
      (p.fired = [] → (s.weightsOf p).any (· != 0) = true → s'.chip.clock = s.heard clock) := by
  have hrun : (p.state == .started || p.state == .withdrawing) = true := by simpa using hst
  have hwork := State.recvGo_runs (s := s.hear clock) hp hst
  obtain ⟨p', hp', hstate, hweights⟩ := hwork.posted_some (SMap.get?_put_same ..)
  refine ⟨(s.hear clock).recvGo i, p', ?_, hp', hstate, hweights, fun hfired hany => ?_⟩
  · change execGo i clock s = _
    simp only [execGo, hp, hrun, bne_iff_ne.mpr hco, Bool.and_self, if_true]
  · have hup : ((s.hear clock).weightsOf p).all (· == 0) = false := by
      obtain ⟨w, hw, hne⟩ := List.any_eq_true.1 hany
      exact List.all_eq_false.2 ⟨w, hw, by simpa using hne⟩
    have hheard : SMap.get? (s.hear clock).posted i = some p := hp
    unfold State.recvGo
    rw [hheard]
    dsimp only
    rw [if_pos hrun, hup, Bool.and_false, if_neg Bool.false_ne_true]
    unfold State.sendFired
    rw [SMap.get?_put_same]
    dsimp only
    rw [hfired]
    rfl

/-- What a coordinator knows of a group once a member is ready. -/
def Coord.ready (c : Coord) (rank : Nat) : Coord := { c with readys := if c.readys.contains rank then c.readys else c.readys ++ [rank] }

section
variable {s : State} {ctx cid rank clock k : Nat} {c : Coord}

theorem exec_ready (hc : s.coordOf ctx cid = some (k, c)) (ht : c.ticket.isSome = true) (hr : rank < c.members.length)
    (hme : c.members.getD rank s.chip.dev ≠ s.chip.dev) (hnew : c.readys.contains rank = false) :
    exec (.ready ctx cid rank clock) s = .next ((s.hear clock).recvReady ctx cid rank) := by
  change execReady ctx cid rank clock s = _
  simp only [execReady, hc, ht, hr, hnew, bne_iff_ne.mpr hme, decide_true, Bool.not_false, Bool.and_self, if_true]

theorem State.coordOf_ready (hc : s.coordOf ctx cid = some (k, c)) :
    (s.modCoord ctx cid fun c => { c with readys := if c.readys.contains rank then c.readys else c.readys ++ [rank] }).coordOf ctx cid =
      some (k, c.ready rank) := State.coordOf_modCoord (f := (·.ready rank)) hc rfl rfl

/-- A READY that is not the last is noted (R220). -/
theorem State.recvReady_notes (hc : s.coordOf ctx cid = some (k, c)) (hn : (c.ready rank).readys.length < c.members.length) :
    s.recvReady ctx cid rank = s.modCoord ctx cid (·.ready rank) := by
  unfold State.recvReady
  dsimp only
  rw [State.coordOf_ready hc]
  exact if_pos hn

/-- The live entry of a group is a matter of the entries alone. -/
theorem State.colEntry_of_posted {s1 : State} (h : s1.posted = s.posted) : s1.colEntry ctx cid = s.colEntry ctx cid := by
  rw [State.colEntry, h]
  rfl

/-- The last READY ends the coordinator's part, with GO to every other member (R220). -/
theorem State.recvReady_goes {i : Nat} {p : Posted} (hc : s.coordOf ctx cid = some (k, c)) (hn : c.members.length ≤ (c.ready rank).readys.length)
    (he : s.colEntry ctx cid = some (i, p)) : ∃ clock l, s.recvReady ctx cid rank =
      ({ s with
        coords := SMap.del (SMap.put s.coords k (c.ready rank)) k, chip := { s.chip with clock := clock }, outbox := s.outbox ++ l } : State).recvGo i ∧
      l.map (fun m => (m.dest, m.kind, m.cid)) = (c.members.filter (· != s.chip.dev)).map fun d => (d, 3, cid) := by
  have hend : (s.modCoord ctx cid fun c => { c with readys := if c.readys.contains rank then c.readys else c.readys ++ [rank] }).endCoord ctx cid =
      { s with coords := SMap.del (SMap.put s.coords k (c.ready rank)) k } := by
    rw [State.endCoord_of_coordOf (State.coordOf_ready hc), State.modCoord_of_coordOf hc]
    rfl
  obtain ⟨clock, l, hsent, hl⟩ := State.sendOthers_eq { s with coords := SMap.del (SMap.put s.coords k (c.ready rank)) k } (c.ready rank).members 3 cid []
  refine ⟨clock, l, ?_, hl⟩
  unfold State.recvReady
  dsimp only
  rw [State.coordOf_ready hc]
  dsimp only
  refine (if_neg (Nat.not_lt.mpr hn)).trans ?_
  rw [hend, hsent, State.colEntry_of_posted (s := s), he]
  rfl

end

/-- A READY is noted, and GO answers the last one (R220). -/
theorem ready_goes {s : State} {ctx cid rank k : Nat} (clock : Nat) {c : Coord} (hc : s.coordOf ctx cid = some (k, c)) (ht : c.ticket.isSome = true)
    (hr : rank < c.members.length) (hme : c.members.getD rank s.chip.dev ≠ s.chip.dev) (hnew : c.readys.contains rank = false) :
    (c.readys.length + 1 < c.members.length → ∃ s' k' c', exec (.ready ctx cid rank clock) s = .next s' ∧ s'.chip.clock = s.heard clock ∧
      s'.coordOf ctx cid = some (k', c') ∧ c'.readys = c.readys ++ [rank] ∧ s'.outbox = s.outbox) ∧
    (∀ i p, c.readys.length + 1 = c.members.length → s.colEntry ctx cid = some (i, p) → SMap.get? s.posted i = some p →
      p.state = .started ∨ p.state = .withdrawing →
      ∃ s' p', exec (.ready ctx cid rank clock) s = .next s' ∧ SMap.get? s'.posted i = some p' ∧ p'.state = .running ∧ SMap.get? s'.coords k = none ∧
        let others := c.members.filter (· != s.chip.dev)
        ((s'.outbox.drop s.outbox.length).take others.length).map (fun m => (m.dest, m.kind, m.cid)) = others.map fun d => (d, 3, cid)) := by
  have hexec := exec_ready (clock := clock) hc ht hr hme hnew
  have hreadys : (c.ready rank).readys = c.readys ++ [rank] := by rw [Coord.ready, hnew]; rfl
  have hlen : (c.ready rank).readys.length = c.readys.length + 1 := by rw [hreadys, List.length_append, List.length_singleton]
  have hheard : (s.hear clock).coordOf ctx cid = some (k, c) := hc
  constructor
  · intro hn
    have hnotes := State.recvReady_notes (rank := rank) hheard (by omega)
    refine ⟨_, k, c.ready rank, hexec, ?_, ?_, hreadys, ?_⟩
    · rw [hnotes, State.modCoord_of_coordOf hheard]; rfl
    · rw [hnotes]; exact State.coordOf_modCoord hheard rfl rfl
    · rw [hnotes, State.modCoord_of_coordOf hheard]; rfl
  · intro i p hn he hp hst
    obtain ⟨clock', l, hgoes, hl⟩ := State.recvReady_goes (rank := rank) hheard (by omega) he
    have hwork := State.recvGo_runs (s := { s.hear clock with
      coords := SMap.del (SMap.put s.coords k (c.ready rank)) k, chip := { s.chip with clock := clock' }, outbox := s.outbox ++ l }) hp hst
    obtain ⟨p', hp', hrun, -⟩ := hwork.posted_some (SMap.get?_put_same ..)
    obtain ⟨more, hout⟩ := hwork.outbox
    refine ⟨_, p', hexec, ?_, hrun, ?_, ?_⟩
    all_goals rw [hgoes]
    · exact hp'
    · exact (congrArg (SMap.get? · k) hwork.coords).trans ((SMap.get?_del ..).trans (if_pos rfl))
    · have hll : l.length = (c.members.filter (· != s.chip.dev)).length := by
        have hcount := congrArg List.length hl
        rwa [List.length_map, List.length_map] at hcount
      dsimp only
      rw [← hll]
      refine Eq.trans (congrArg (fun o : List Message => ((o.drop s.outbox.length).take l.length).map fun m => (m.dest, m.kind, m.cid)) hout.symm) ?_
      simp only [List.append_assoc, List.drop_left, List.take_left]
      exact hl

/-! ## Withdrawals (R220, R229) -/

theorem withdraw_acks {s : State} {ctx cid rank k : Nat} (clock : Nat) {c : Coord} (hc : s.coordOf ctx cid = some (k, c))
    (hr : c.readys.contains rank = true) (hme : c.members.getD rank s.chip.dev ≠ s.chip.dev) (hother : c.members.getD rank 0 ≠ s.chip.dev) :
    ∃ s' k' c', exec (.withdraw ctx cid rank clock) s = .next s' ∧ s'.coordOf ctx cid = some (k', c') ∧ c'.readys = c.readys.filter (· != rank) ∧
      s'.outbox = s.outbox ++ [⟨(s.heard clock + 1) % 2 ^ 48, c.members.getD rank 0, 5, cid, []⟩] := by
  have hheard : (s.hear clock).coordOf ctx cid = some (k, c) := hc
  have hcoord := State.coordOf_modCoord (f := fun c : Coord => { c with readys := c.readys.filter (· != rank) }) hheard rfl rfl
  have hack : (s.hear clock).recvWithdraw ctx cid rank = ((s.hear clock).modCoord ctx cid fun c => { c with readys := c.readys.filter (· != rank) }).send
      (c.members.getD rank 0) 5 cid [] := by
    unfold State.recvWithdraw
    rw [hheard]
    dsimp only
    refine if_neg ?_
    rw [State.modCoord_of_coordOf hheard]
    exact hother
  refine ⟨(s.hear clock).recvWithdraw ctx cid rank, k, _, ?_, by rw [hack]; exact hcoord, rfl, ?_⟩
  · change execWithdraw ctx cid rank clock s = _
    simp only [execWithdraw, hc, hr, bne_iff_ne.mpr hme, Bool.and_self, if_true]
  · rw [hack, State.modCoord_of_coordOf hheard]
    rfl

theorem withdraw_void {s : State} {ctx cid : Nat} (rank clock : Nat) (hc : s.coordOf ctx cid = none) :
    exec (.withdraw ctx cid rank clock) s = .next { s with chip := { s.chip with clock := s.heard clock } } := by
  change execWithdraw ctx cid rank clock s = _
  simp only [execWithdraw, hc]
  rfl

theorem withdrawAck_held {s : State} {i : Nat} (clock : Nat) {p : Posted} (hp : SMap.get? s.posted i = some p) (hst : p.state = .withdrawing)
    (hco : coordinator p.members ≠ s.chip.dev) (hnone : s.noneStarted = true) :
    ∃ s', exec (.withdrawAck i clock) s = .next s' ∧ s'.chip.clock = s.heard clock ∧
      SMap.get? s'.posted i = some { p with state := .held, onStacks := [] } := by
  have hyield : ((s.hear clock).recvAck i).yieldHigher = (s.hear clock).recvAck i :=
    State.yieldHigher_of_noneStarted (State.noneStarted_mod (s := s.hear clock) hnone i fun p hp => by split at hp <;> [cases hp; exact hp])
  refine ⟨(s.hear clock).recvAck i, ?_, rfl, ?_⟩
  · change execWithdrawAck i clock s = _
    simp only [execWithdrawAck, hp, hst, bne_iff_ne.mpr hco, beq_self_eq_true, Bool.and_self, if_true, hyield]
  · rw [State.recvAck]
    dsimp only
    rw [SMap.get?_mod_same]
    change (SMap.get? s.posted i).map _ = _
    rw [hp, Option.map_some, hst]
    rfl

/-! ## Communicators (R211, R259, R266) -/

theorem commCreate_creates {s : State} {ctx i k : Nat} {members : List Nat} {c : Context} {p : Partition} (routes : List Route) (accepted : Bool)
    (hserves : s.serves = true) (hc : SMap.get? s.ctxs ctx = some c) (hpart : s.partOf c = some (k, p)) (hend : c.ended = false) (hi : i < 64)
    (hfree : SMap.get? c.comms i = none) (hself : members.contains s.chip.dev = true) :
    exec (.commCreate ctx i members routes accepted) s = .next (if commBad p.ports.length members routes || !accepted then { s with answer := [1] }
      else
        let comm : Comm := ⟨members, routes.map fun r => { r with ports := r.ports.map fun n => p.ports.getD n 0 }, List.replicate routes.length 4⟩
        { s with ctxs := SMap.put s.ctxs ctx { c with comms := SMap.put c.comms i comm }, answer := [0] }) := by
  have hmay : (c.ended || decide (64 ≤ i) || (SMap.get? c.comms i).isSome || !members.contains s.chip.dev) = false := by
    rw [hend, hfree, hself, decide_eq_false (Nat.not_le.mpr hi)]
    rfl
  change execCommCreate ctx i members routes accepted s = _
  unfold execCommCreate
  rw [hserves, hc]
  dsimp only
  rw [hpart]
  dsimp only
  rw [hmay, if_neg Bool.false_ne_true]
  split <;> rfl

/-- Settles O43: each receipt is the one message of its kind, and what follows it (the entries that yield, the chunks that
GO sends) leaves the coordinators' states and the states of the entries. -/
theorem parlourSteps : Obligations.ParlourSteps := by
  unfold Obligations.ParlourSteps
  exact ⟨fun _ _ _ _ _ _ _ _ hcx hcm hco hr hme hf hmem hnew hn => parlourPost_notes hcx hcm hco hr hme hf hmem hnew hn,
    fun _ _ _ clock _ hp hst hco hv hnone => ticket_held clock hp hst hco hv hnone,
    fun _ _ _ hp hst hlow hfree hco hnone => collectiveStart_starts hp hst hlow hfree hco hnone,
    fun _ _ _ _ clock _ _ hc ht hr hme hnew => ready_goes clock hc ht hr hme hnew,
    fun _ _ clock _ hp hst hco => go_runs clock hp hst hco,
    fun _ _ _ _ clock _ _ hc hr hme hother => withdraw_acks clock hc hr hme hother,
    fun _ _ _ rank clock hc => withdraw_void rank clock hc,
    fun _ _ clock _ hp hst hco hnone => withdrawAck_held clock hp hst hco hnone,
    fun _ _ _ _ _ routes accepted _ _ hserves hc hpart hend hi hfree hself => commCreate_creates routes accepted hserves hc hpart hend hi hfree hself⟩

end Sys2Proof.Machine
end

section
/-! SUPPORT. COLPOST and COLFIRE (R214, R215, R217, R350, R352): posting and firing leave the lanes and their watchpoints alone, and the
obligation about them. -/

namespace Sys2Proof.Machine

/-! ## What posting changes: the parlour's part of the machine (R215, R218, R220) -/

/-- A change of the parlour's part before another. -/
theorem State.parleys.after {s s1 s2 : State} (h2 : s1.parleys s2) (h : s.parleys s1) : s.parleys s2 := h.trans h2

section
variable (s : State)

theorem State.parleys_send (dest kind cid : Nat) (fields : List Nat) : s.parleys (s.send dest kind cid fields) := rfl

theorem State.parleys_sendOthers (members : List Nat) (kind cid : Nat) (fields : List Nat) : s.parleys (s.sendOthers members kind cid fields) :=
  State.parleys_foldl (fun s d => s.parleys_send d kind cid fields) _ s

theorem State.parleys_opDone (op : Nat) : s.parleys (s.opDone op) := by
  rw [State.opDone_eq]
  rfl

theorem State.parleys_modCoord (ctx cid : Nat) (f : Coord → Coord) : s.parleys (s.modCoord ctx cid f) := by
  unfold State.modCoord
  split <;> rfl

theorem State.parleys_endCoord (ctx cid : Nat) : s.parleys (s.endCoord ctx cid) := by
  unfold State.endCoord
  split <;> rfl

theorem State.parleys_clearFires (i c : Nat) : s.parleys (s.clearFires i c) := by
  unfold State.clearFires
  split
  · rfl
  · exact State.parleys.after (State.parleys_foldl (fun s (f : Nat × Nat) => s.parleys_opDone f.2) _ _) rfl

theorem State.parleys_failChunk (i c code : Nat) : s.parleys (s.failChunk i c code) := by
  unfold State.failChunk
  split
  · rfl
  · split
    · rfl
    · exact State.parleys.after (State.parleys_clearFires _ i c) rfl

theorem State.parleys_failEntry (i code : Nat) : s.parleys (s.failEntry i code) := by
  have hall : s.parleys (s.failAllChunks i code) := by
    unfold State.failAllChunks
    split
    · rfl
    · exact State.parleys_foldl (fun s c => s.parleys_failChunk i c code) _ s
  unfold State.failEntry
  dsimp only
  split
  · exact hall.trans rfl
  · exact hall.trans rfl

theorem State.parleys_recvWithdraw (ctx cid rank : Nat) : s.parleys (s.recvWithdraw ctx cid rank) := by
  unfold State.recvWithdraw
  split
  · rfl
  · extract_lets s1 d
    have h1 : s.parleys s1 := s.parleys_modCoord ctx cid _
    refine h1.trans ?_
    split
    · split <;> rfl
    · rfl

theorem State.parleys_withdrawEntry (i : Nat) (p : Posted) : s.parleys (s.withdrawEntry i p) := by
  unfold State.withdrawEntry
  dsimp only
  split
  · exact State.parleys.after (State.parleys_recvWithdraw _ _ _ _) rfl
  · rfl

theorem State.parleys_yieldHigher : s.parleys s.yieldHigher := by
  unfold State.yieldHigher
  split
  · rfl
  · refine State.parleys_foldl (fun s (e : Nat × Posted) => ?_) _ s
    split
    · exact s.parleys_withdrawEntry e.1 e.2
    · rfl

theorem State.parleys_recvTicket (i v : Nat) : s.parleys (s.recvTicket i v) := State.parleys.after (State.parleys_yieldHigher _) rfl

theorem State.parleys_allPosted (ctx cid : Nat) (c : Coord) : s.parleys (s.allPosted ctx cid c) := by
  unfold State.allPosted
  extract_lets agree s1 s2 v s3 s4
  have h1 : s.parleys s1 := (s.parleys_endCoord ctx cid).trans (State.parleys_sendOthers _ _ _ _ _)
  have h3 : s.parleys s3 := rfl
  have h4 : s3.parleys s4 := (State.parleys_modCoord s3 ctx cid _).trans (State.parleys_sendOthers _ _ _ _ _)
  split
  · refine h1.trans ?_
    split
    · exact State.parleys_failEntry _ _ 5
    · rfl
  · refine (h3.trans h4).trans ?_
    split
    · exact State.parleys_recvTicket _ _ _
    · rfl

theorem State.parleys_recvPost (ctx cid rank : Nat) (members fields : List Nat) : s.parleys (s.recvPost ctx cid rank members fields) := by
  unfold State.recvPost
  extract_lets s1 s2
  have h1 : s.parleys s1 := by
    unfold s1
    split <;> rfl
  have h2 : s1.parleys s2 := State.parleys_modCoord s1 ctx cid _
  refine (h1.trans h2).trans ?_
  split
  · rfl
  · split
    · rfl
    · exact State.parleys_allPosted _ ctx cid _

end

/-! ## What posting and firing leave alone -/

section
variable (s : State)

theorem State.underway_of_sameLanes {s s1 : State} (h : s.sameLanes s1) : s.underway s1 :=
  ⟨h.warps, h.records, fun _ _ ht => h.status ht, fun u crew ctx copies seen as => h.watchHit u crew ctx copies seen as⟩

theorem State.postEntry_underway (p : Posted) (fireall : Bool) : s.underway (s.postEntry p fireall) := by
  unfold State.postEntry
  extract_lets i s1 s2 fields
  have h1 : s.underway s1 := State.underway_of_parleys rfl
  have h2 : s1.underway s2 := by
    unfold s2
    split
    · exact (State.works_foldl (fun s c => s.works_fireChunk i c none) _ s1).underway
    · exact s1.underway_refl
  refine (h1.trans h2).trans ?_
  split
  · exact State.underway_of_parleys (State.parleys_recvPost _ _ _ _ _ _)
  · exact State.underway_of_parleys rfl

theorem State.acceptPost_underway (p : Posted) (fireall : Bool) (d : Nat) (flag : Option Nat) (group : List Nat) :
    s.underway (s.acceptPost p fireall d flag group) := by
  refine State.underway.trans (s1 := { (s.newOp group flag 1).1 with nextLoad := s.nextLoad + 1 }) ?_ (State.postEntry_underway _ _ _)
  exact State.underway_of_sameLanes ⟨rfl, rfl, fun _ => rfl, fun _ => rfl, fun _ => rfl⟩

/-- A register that is written is no part of what others see. -/
theorem State.setReg_underway (t : Thread) (v : Nat) (r : Reg) : s.underway (s.setReg t v r) :=
  ⟨rfl, rfl, fun _ t ht => ⟨t, ht, rfl⟩, fun _ _ _ _ _ _ => rfl⟩

theorem State.refusePost_underway (e : Env) (d reason : Nat) (group : List Nat) : s.underway (s.refusePost e d reason group) := by
  unfold State.refusePost
  refine List.foldlRecOn (motive := s.underway) _ _ s.underway_refl fun s1 h1 u _ => h1.trans ?_
  split
  · exact s1.underway_refl
  · exact s1.setReg_underway _ _ _

/-- Once a lane has done its work, no watchpoint is hit that was not hit before, and the lane is done (R94). -/
theorem State.watched_of_underway {s s1 : State} {e : Env} {u : Nat} {t : Thread} {as : List Access} (h : s.underway s1)
    (hw : s.unwatched e u t as = true) : s.watched s1 e u t as = .done s1 := by
  simp only [State.unwatched, Bool.and_eq_true, Option.isNone_iff_eq_none] at hw
  obtain ⟨hhit, hheld⟩ := hw
  rw [State.watched, h.watchHit, hhit, hheld]
  rfl

end

/-- An instruction that issues once has the effect `f`, when `f` is what its lowest lane comes to and leaves the lanes alone. -/
theorem onceEffects_of_underway {i : Instr} {n : Nat} {k : Chk} {G : Env → State → Nat → Thread → List Nat → LaneRes}
    {first : State → Env → Nat → Thread → Bool} {f : State → Env → Nat → Thread → List Nat → State}
    (hi : ∀ s, exec i s = s.once n (fun _ => k) G) (hcls : k.cls = 0) (hanom : k.anom = [])
    (hrun : ∀ e s u t us, s.thread? u = some t → first s e u t = true → G e s u t us = .done (f s e u t us) ∧ s.underway (f s e u t us)) :
    onceEffects i n k.uses (fun _ _ t => !t.spec) first f := by
  refine onceEffects_of_once (hi := hi) (fun s e t t1 hb h => ?_) (fun e s t hn hok => ?_) fun e s u t us ht _ hfirst => ?_
  · rw [spec_of_base hb]
    exact h
  · rw [Bool.not_eq_true'] at hok
    exact ⟨by rw [hok, Bool.and_false], check_none (by rw [hcls]; rfl) hn (.inr (by simp [hanom]))⟩
  · obtain ⟨hG, hunder⟩ := hrun e s u t us ht hfirst
    exact ⟨hG, State.pagesFor_same hunder.records, hunder.warps, hunder.status⟩

/-! ## COLPOST (R214, R215, R352) -/

/-- Checks 2 to 5 of COLPOST, whose address is that of its pair (R352). -/
def colpostChk (f : FCol) : Chk :=
  { uses := [⟨f.r.toNat, 1, 1⟩, ⟨f.q.toNat, 2, 2⟩], src := some f.q.toNat, addr := some (f.q.toNat, 0), stall := true }

/-- What a lane whose descriptor is read does with it (R215). -/
def State.postOut (s : State) (f : FCol) (e : Env) (u : Nat) (t : Thread) (group : List Nat) (d : ColDesc) : State :=
  match s.postCheck e.crew.ctx d (e.issuer u t) false with
  | .error reason => s.refusePost e f.r.toNat reason group
  | .ok p => s.acceptPost p d.fireall f.r.toNat (e.flag f.f) group

theorem State.postOut_underway (s : State) (f : FCol) (e : Env) (u : Nat) (t : Thread) (group : List Nat) (d : ColDesc) :
    s.underway (s.postOut f e u t group d) := by
  unfold State.postOut
  split
  · exact s.refusePost_underway ..
  · exact s.acceptPost_underway ..

/-- The lane whose release is over reads its descriptor and posts (R352). -/
theorem colpostLane_posts {f : FCol} {s : State} {e : Env} {u : Nat} {t : Thread} {bad : ColDesc → State → Bool} (ht : s.thread? u = some t)
    (h : s.postReads e u t f.q bad = true) (group : List Nat) :
    ∃ d, s.descAt e u t f.q.toNat 0 = some d ∧ bad (parseCol d.2.1) d.1 = true ∧
      colpostLane f e s u t group = .done (d.1.postOut f e u t group (parseCol d.2.1)) ∧ s.underway (d.1.postOut f e u t group (parseCol d.2.1)) := by
  obtain ⟨hreleased, hread⟩ := (Bool.and_eq_true _ _).mp h
  obtain ⟨d, hd, hbad⟩ := (Option.any_eq_true _ _).mp hread
  obtain ⟨hbad, hunwatched⟩ := (Bool.and_eq_true _ _).mp hbad
  obtain ⟨s1, halign, hblock, hd1, hsame, -⟩ := State.descAt_some hd
  have haddr : ((s.pair t f.q.toNat).1.toNat + 0) % 2 ^ 64 = (s.pair t f.q.toNat).1.toNat := Nat.mod_eq_of_lt (s.pair t f.q.toNat).1.isLt
  rw [haddr] at halign hblock
  have hout := d.1.postOut_underway f e u t group (parseCol d.2.1)
  refine ⟨d, hd, hbad, ?_, (State.underway_of_sameLanes hsame).trans hout⟩
  unfold colpostLane
  dsimp only
  rw [State.releaseTry_released ht hreleased]
  dsimp only
  rw [halign, if_neg (by decide), hblock]
  dsimp only
  rw [← hd1]
  exact State.watched_of_underway hout hunwatched

/-- The refusal's status word: OUTCOME 2 and the reason (R215). -/
theorem colStatus_refused (reason : Nat) : colStatus 2 reason 0 = BitVec.ofNat 32 (2 * 2 ^ 30 + reason * 2 ^ 16) := by
  rw [colStatus, Nat.zero_min, Nat.add_zero]

section
variable (f : FCol)

theorem colpost_refuses (reason : Nat) : onceEffects (.colpost f) 1 [⟨f.r.toNat, 1, 1⟩, ⟨f.q.toNat, 2, 2⟩] (fun _ _ t => !t.spec)
    (fun s e u t => s.postReads e u t f.q fun d s1 => match s1.postCheck e.crew.ctx d (e.issuer u t) false with
      | .error r => r == reason
      | .ok _ => false)
    (fun s e u t group => match s.descAt e u t f.q.toNat 0 with
      | none => s
      | some d => group.foldl (fun (s : State) u => match s.thread? u with
        | none => s
        | some t => s.setReg t f.r.toNat ⟨BitVec.ofNat 32 (2 * 2 ^ 30 + reason * 2 ^ 16), e.ownTag⟩) d.1) := by
  refine onceEffects_of_underway (k := colpostChk f) (fun _ => rfl) rfl rfl fun e s u t us ht hfirst => ?_
  obtain ⟨d, hd, hbad, hlane, hunder⟩ := colpostLane_posts ht hfirst us
  rw [hd]
  have hout : d.1.postOut f e u t us (parseCol d.2.1) = d.1.refusePost e f.r.toNat reason us := by
    unfold State.postOut
    split at hbad
    · rw [beq_iff_eq.mp hbad]
    · cases hbad
  rw [hout] at hlane hunder
  simp only [State.refusePost, colStatus_refused] at hlane hunder
  exact ⟨hlane, hunder⟩

theorem colpost_accepts : onceEffects (.colpost f) 1 [⟨f.r.toNat, 1, 1⟩, ⟨f.q.toNat, 2, 2⟩] (fun _ _ t => !t.spec)
    (fun s e u t => s.postReads e u t f.q fun d s1 => match s1.postCheck e.crew.ctx d (e.issuer u t) false with
      | .error _ => false
      | .ok _ => true)
    (fun s e u t group => match s.descAt e u t f.q.toNat 0 with
      | none => s
      | some d => match d.1.postCheck e.crew.ctx (parseCol d.2.1) (e.issuer u t) false with
        | .error _ => s
        | .ok p => d.1.acceptPost p (parseCol d.2.1).fireall f.r.toNat (e.flag f.f) group) := by
  refine onceEffects_of_underway (k := colpostChk f) (fun _ => rfl) rfl rfl fun e s u t us ht hfirst => ?_
  obtain ⟨d, hd, hok, hlane, hunder⟩ := colpostLane_posts ht hfirst us
  rw [hd]
  dsimp only
  unfold State.postOut at hlane hunder
  split at hok
  · cases hok
  · next p hp =>
    rw [hp] at hlane hunder
    exact ⟨hlane, hunder⟩

theorem colpost_misaligned : onceEffects (.colpost f) 1 [⟨f.r.toNat, 1, 1⟩, ⟨f.q.toNat, 2, 2⟩] (fun _ _ t => !t.spec)
    (fun s _ u t => s.released u t 4 && (s.w64 t f.q).toNat % 64 != 0)
    (fun s e _ _ group => group.foldl (fun (s : State) u => match s.thread? u with
      | none => s
      | some t => s.setReg t f.r.toNat ⟨BitVec.ofNat 32 (2 * 2 ^ 30 + 2 * 2 ^ 16), e.ownTag⟩) s) := by
  refine onceEffects_of_underway (k := colpostChk f) (fun _ => rfl) rfl rfl fun e s u t us ht hfirst => ?_
  obtain ⟨hreleased, halign⟩ := (Bool.and_eq_true _ _).mp hfirst
  have hlane : colpostLane f e s u t us = .done (s.refusePost e f.r.toNat 2 us) := by
    unfold colpostLane
    dsimp only
    rw [State.releaseTry_released ht hreleased]
    exact if_pos halign
  have hunder := s.refusePost_underway e f.r.toNat 2 us
  simp only [State.refusePost, colStatus_refused] at hlane hunder
  exact ⟨hlane, hunder⟩

/-! ## COLFIRE (R217, R350) -/

theorem colfire_fires : onceEffects (.colfire f) 1 [⟨f.r.toNat, 1, 1⟩, ⟨f.q.toNat, 1, 1⟩] (fun _ _ t => !t.spec)
    (fun s e u t => s.released u t 4 && (s.colEntry e.crew.ctx (s.w32 t f.r).toNat).any fun x => decide ((s.w32 t f.q).toNat < x.2.chunks))
    (fun s e u t group => match s.colEntry e.crew.ctx (s.w32 t f.r).toNat with
      | none => s
      | some (i, p) =>
        if p.fired.contains (s.w32 t f.q).toNat then
          s.log e.crew.ctx 8 1 0 ((s.w32 t f.r).toNat * 2 ^ 32 + (s.w32 t f.q).toNat) (s.whereOf (e.issuer u t))
        else (s.newOp group (e.flag f.f) 1).1.fireChunk i (s.w32 t f.q).toNat (some s.nextOp)) := by
  refine onceEffects_of_underway (k := { uses := [⟨f.r.toNat, 1, 1⟩, ⟨f.q.toNat, 1, 1⟩], src := some f.r.toNat, stall := true }) (fun _ => rfl) rfl rfl
    fun e s u t us ht hfirst => ?_
  obtain ⟨hreleased, hlive⟩ := (Bool.and_eq_true _ _).mp hfirst
  obtain ⟨⟨i, p⟩, hentry, hchunk⟩ := (Option.any_eq_true _ _).mp hlive
  have hlimit : ¬ p.chunks ≤ (s.w32 t f.q).toNat := Nat.not_le.mpr (by simpa using hchunk)
  unfold State.w32 at hentry hlimit ⊢
  unfold colfireLane
  dsimp only
  rw [hentry]
  dsimp only
  rw [if_neg hlimit, State.releaseTry_released ht hreleased]
  dsimp only
  split
  · exact ⟨rfl, State.underway_of_sameLanes (s.sameLanes_log ..)⟩
  · exact ⟨rfl, (State.underway_of_sameLanes (s.sameLanes_newOp us (e.flag f.f) 1)).trans (State.works_fireChunk _ i _ _).underway⟩

end

/-- Settles O42: a lane whose release is over reads its descriptor and posts it or is refused (`colpostLane_posts`), and
posting and firing leave the lanes, their records and their watchpoints alone. -/
theorem collectivesIssue : Obligations.CollectivesIssue := by
  unfold Obligations.CollectivesIssue
  exact ⟨colpost_refuses, colpost_accepts, colpost_misaligned, colfire_fires⟩

end Sys2Proof.Machine
end

section
/-! SUPPORT. Runs of collectives and what base dies and landings leave in DST (R83, R172, R213, R223 to R226). -/

namespace Sys2Proof.Machine

/-! ## Landings (R172, R226) -/

/-- Whether a landing of a granule waits in the collective queue. -/
def State.landingWaits (s : State) (i ctx va : Nat) : Bool := s.colQ.any fun q => q.2.posted == i && q.2.ctx == ctx && q.2.va == va

theorem State.queueLanding_frame (s : State) (i : Nat) (p : Posted) (g : Nat) :
    s.queueLanding i p g = { s with colQ := (s.queueLanding i p g).colQ, nextStore := (s.queueLanding i p g).nextStore } := by
  unfold State.queueLanding
  dsimp only
  split <;> rfl

theorem State.queueLanding_waits (s : State) (i : Nat) (p : Posted) (g : Nat) :
    (s.queueLanding i p g).landingWaits i p.ctx ((p.dst + 16 * g) % 2 ^ 64) = true := by
  unfold State.queueLanding
  dsimp only
  split <;> exact List.any_eq_true.mpr ⟨_, SMap.put_mem _ _ _, by simp⟩

theorem foldl_queueLanding_frame (i : Nat) (p : Posted) : ∀ (gs : List Nat) (s : State),
    ∃ q n, gs.foldl (fun (s : State) g => s.queueLanding i p g) s = { s with colQ := q, nextStore := n }
  | [], s => ⟨s.colQ, s.nextStore, rfl⟩
  | g :: gs, s => by
    obtain ⟨q, n, h⟩ := foldl_queueLanding_frame i p gs (s.queueLanding i p g)
    refine ⟨q, n, ?_⟩
    rw [List.foldl_cons, h, s.queueLanding_frame i p g]

/-- The landings of one granule, queued one after another, leave it waiting. -/
theorem foldl_queueLanding_waits {i g0 : Nat} {p : Posted} : ∀ {gs : List Nat} {s : State}, (∀ g ∈ gs, g = g0) → gs ≠ [] →
    (gs.foldl (fun (s : State) g => s.queueLanding i p g) s).landingWaits i p.ctx ((p.dst + 16 * g0) % 2 ^ 64) = true
  | [], _, _, hne => absurd rfl hne
  | [g], s, hall, _ => by
    rw [← hall g (List.mem_singleton_self g)]
    exact s.queueLanding_waits i p g
  | _ :: g :: gs, _, hall, _ => foldl_queueLanding_waits (gs := g :: gs) (fun x hx => hall x (List.mem_cons_of_mem _ hx)) (List.cons_ne_nil _ _)

/-- The granules of elements are the granules of each (R225). -/
theorem Posted.mem_gransOf {p : Posted} {es : List Nat} {g : Nat} : g ∈ p.gransOf es ↔ ∃ e ∈ es, e * p.esz / 16 = g := by
  rw [Posted.gransOf, List.mem_eraseDups, List.mem_map]

/-- Elements between two of one granule are of that granule. -/
theorem granule_between {e lo hi n : Nat} (hlo : lo ≤ e) (hhi : e ≤ hi) (h : hi * n / 16 = lo * n / 16) : e * n / 16 = lo * n / 16 :=
  Nat.le_antisymm ((Nat.div_le_div_right (Nat.mul_le_mul_right n hhi)).trans_eq h) (Nat.div_le_div_right (Nat.mul_le_mul_right n hlo))

/-! ## Runs (R213, R223) -/

section
variable {p : Posted} {chunk elt ranks n : Nat}

theorem Posted.runOk_pos (h : p.runOk chunk elt ranks n = true) : n ≠ 0 := by
  simp only [Posted.runOk, Bool.and_eq_true, bne_iff_ne] at h
  exact h.1.1.1.1

/-- Where an entry's results go, and their type. -/
def Posted.place (p : Posted) : Nat × Nat × Nat := (p.dst, p.ctx, p.ty)

theorem Posted.mark_place (p : Posted) (e rank : Nat) (g : Tag) : (p.mark e rank g).place = p.place := by
  unfold Posted.mark
  split
  · rfl
  · dsimp only
    split
    · split <;> rfl
    · rfl

/-- A run changes the contributions of an entry alone. -/
theorem Posted.applyRun_place (data : List Nat) (marks : List (Nat × Nat × Tag)) :
    (p.applyRun elt ranks data marks).place = p.place :=
  (foldl_keep Posted.place _ (fun p (m : Nat × Nat × Tag) => p.mark_place m.1 m.2.1 m.2.2) marks _).trans
    (foldl_keep Posted.place (fun (p : Posted) (d : Nat × Nat) => ({ p with terms := SMap.del p.terms (elt + d.2) } : Posted).addTerm (elt + d.2) ranks d.1)
      (fun _ _ => rfl) data.zipIdx p)

theorem State.command_of_hit {s : State} {i a : Nat} {data : List Nat} {marks : List (Nat × Nat × Tag)} {c : Context} {h : Hit}
    (hc : SMap.get? s.ctxs p.ctx = some c) (hh : s.transDev c (p.dst + elt * p.esz) = .hit h) (hloc : h.loc = .hbm a) :
    s.command i p chunk elt ranks data marks = ⟨i, p.ctx, a, Config.stagingAt s.nextStore, (data.length * p.esz + 31) / 32, p.rop, p.ty, chunk,
      p.ticket.getD 0, elt, ranks, data, marks⟩ := by
  simp only [State.command, hc, Option.map_some, hh, hloc]

end

/-- An incoming run is queued at its base die while the queue has room, and lands as it is when it is the whole result (R223). -/
theorem receiveReduceArrive_stages {s : State} {i chunk elt ranks : Nat} {data : List Nat} (marks : List (Nat × Nat × Tag)) {p : Posted} {c : Context}
    (hp : SMap.get? s.posted i = some p) (hc : SMap.get? s.ctxs p.ctx = some c) (hst : p.state = .running) (hm : 2 ≤ p.members.length)
    (hnone : SMap.get? p.status chunk = none) (hrun : p.runOk chunk elt ranks data.length = true) :
    let stack := (s.unitStacks c (p.dst + elt * p.esz) (p.dst + (elt + data.length) * p.esz)).getD 0 0
    let q := SMap.getD s.commands [] stack
    (p.runWhole chunk elt ranks = false → p.runFits chunk elt data.length = true →
      ((q.filter fun x => x.posted == i).length < 8 → q.length < 64 → ∀ h a, s.transDev c (p.dst + elt * p.esz) = .hit h → h.loc = .hbm a →
        exec (.receiveReduceArrive i chunk elt ranks data marks) s =
          .next { s with
            commands := SMap.put s.commands stack (q ++ [⟨i, p.ctx, a, Config.stagingAt s.nextStore, (data.length * p.esz + 31) / 32, p.rop, p.ty,
              chunk, p.ticket.getD 0, elt, ranks, data.map (· % 2 ^ (8 * p.esz)), marks⟩])
            nextStore := s.nextStore + 1 }) ∧
      (8 ≤ (q.filter fun x => x.posted == i).length ∨ 64 ≤ q.length →
        exec (.receiveReduceArrive i chunk elt ranks data marks) s = .refused (.cannotOccur "RECEIVE_REDUCE_ARRIVE"))) ∧
    (p.runWhole chunk elt ranks = true → (elt + data.length - 1) * p.esz / 16 = elt * p.esz / 16 →
      ∃ s', exec (.receiveReduceArrive i chunk elt ranks data marks) s = .next s' ∧ s'.mem = s.mem ∧ s'.commands = s.commands ∧
        (s'.colQ.any fun q => q.2.posted == i && q.2.ctx == p.ctx && q.2.va == (p.dst + 16 * (elt * p.esz / 16)) % 2 ^ 64) = true) := by
  intro stack q
  have hlive : (p.state != .running || decide (p.members.length < 2) || (SMap.get? p.status chunk).isSome) = false := by
    rw [hst, hnone, decide_eq_false (Nat.not_lt.mpr hm)]
    rfl
  have hpos := Posted.runOk_pos hrun
  have hdata : data.isEmpty = false := by
    cases data with
    | nil => exact absurd rfl hpos
    | cons _ _ => rfl
  have hexec : exec (.receiveReduceArrive i chunk elt ranks data marks) s = execReceiveReduceArrive i chunk elt ranks data marks s := rfl
  refine ⟨fun hpart hfits => ⟨fun hown hroom h a hh hloc => ?_, fun hfull => ?_⟩, fun hwhole hone => ?_⟩
  · have hmay : (decide (8 ≤ (q.filter fun x => x.posted == i).length) || decide (64 ≤ q.length) || !p.runFits chunk elt data.length) = false := by
      rw [decide_eq_false (Nat.not_le.mpr hown), decide_eq_false (Nat.not_le.mpr hroom), hfits]
      rfl
    rw [hexec]
    unfold execReceiveReduceArrive
    simp only [hp, hlive, hdata, hrun, hpart, hc, Bool.not_true, Bool.false_eq_true, if_false]
    rw [State.command_of_hit hc hh hloc, List.length_map]
    exact if_neg (ne_true_of_eq_false hmay)
  · have hmay : (decide (8 ≤ (q.filter fun x => x.posted == i).length) || decide (64 ≤ q.length) || !p.runFits chunk elt data.length) = true := by
      rw [hfits]
      simpa using hfull
    rw [hexec]
    unfold execReceiveReduceArrive
    simp only [hp, hlive, hdata, hrun, hpart, hc, Bool.not_true, Bool.false_eq_true, if_false]
    exact if_pos hmay
  · have hplace := p.applyRun_place (elt := elt) (ranks := ranks) (data.map (· % 2 ^ (8 * p.esz))) marks
    simp only [Posted.place, Prod.mk.injEq] at hplace
    obtain ⟨hdst, hctx, hty⟩ := hplace
    generalize hp' : p.applyRun elt ranks (data.map (· % 2 ^ (8 * p.esz))) marks = p' at hdst hctx hty
    have hesz : p'.esz = p.esz := by rw [Posted.esz, hty, Posted.esz]
    let gs := p'.gransOf ((List.range data.length).map (elt + ·))
    have hgs : ∀ g ∈ gs, g = elt * p.esz / 16 := by
      intro g hg
      obtain ⟨e, he, rfl⟩ := Posted.mem_gransOf.mp hg
      obtain ⟨k, hk, rfl⟩ := List.mem_map.mp he
      rw [hesz]
      exact granule_between (Nat.le_add_right elt k) (by have := List.mem_range.mp hk; omega) hone
    have hne : gs ≠ [] := List.ne_nil_of_mem
      (Posted.mem_gransOf.mpr ⟨elt, List.mem_map.mpr ⟨0, List.mem_range.mpr (Nat.pos_of_ne_zero hpos), rfl⟩, rfl⟩)
    have hwaits := foldl_queueLanding_waits (i := i) (p := p') (s := { s with posted := SMap.put s.posted i p' }) hgs hne
    rw [hdst, hctx] at hwaits
    obtain ⟨cq, n, hframe⟩ := foldl_queueLanding_frame i p' gs { s with posted := SMap.put s.posted i p' }
    refine ⟨gs.foldl (fun (s : State) g => s.queueLanding i p' g) { s with posted := SMap.put s.posted i p' }, ?_, ?_, ?_, hwaits⟩
    · rw [hexec]
      unfold execReceiveReduceArrive
      simp only [hp, hlive, hdata, hrun, hwhole, hp', List.length_map, Bool.not_true, Bool.false_eq_true, if_false, if_true]
      rfl
    · rw [hframe]
    · rw [hframe]

/-! ## Base dies (R224, R225) -/

/-- An entry once a term is combined with what a DST element holds. -/
def Posted.reduced (p : Posted) (e mask old v : Nat) : Posted := ({ p with acc := SMap.put p.acc e old } : Posted).addTerm e mask v

/-- The result in a DST element: the first term as it is, a later one combined with what DST holds (R225). -/
theorem Posted.reduced_acc (p : Posted) (e mask old v : Nat) :
    SMap.getD (p.reduced e mask old v).acc 0 e = if SMap.getD p.terms 0 e = 0 then v else (p.combine old v).1 := by
  unfold Posted.reduced Posted.addTerm
  dsimp only
  rw [SMap.getD_put, if_pos rfl, SMap.getD_put, if_pos rfl]
  exact apply_ite Prod.fst _ _ _

theorem Posted.reduced_terms (p : Posted) (e mask old v : Nat) :
    SMap.get? (p.reduced e mask old v).terms e = some (SMap.getD p.terms 0 e ||| mask) := SMap.get?_put_same ..

/-- The bytes of a DST granule of which one element takes the result `x`. -/
def Posted.resultData (p : Posted) (e g x : Nat) : List (Option Byte) :=
  (p.granElems g).flatMap fun e' => if e' = e then (toBytes p.esz x).map some else List.replicate p.esz none

theorem Posted.resultData_eq (p : Posted) (e g : Nat) (f : Nat → Nat) : p.resultData e g (f e) =
    (p.granElems g).flatMap fun e' => if e' = e then (toBytes p.esz (f e')).map some else List.replicate p.esz none :=
  List.flatMap_congr fun e' _ => by
    split
    · next he => rw [he]
    · rfl

/-- One term is combined into its granule where it stands (R224, R225). -/
theorem State.reduceGran_single {s : State} {i g e mask v : Nat} {p : Posted} {c : Context} {h : Hit} (hp : SMap.get? s.posted i = some p)
    (hc : SMap.get? s.ctxs p.ctx = some c) (hg : e * p.esz / 16 = g) (hh : s.transDev c ((p.dst + 16 * g) % 2 ^ 64) = .hit h) (hw : h.w = true)
    (hpeer : h.peerW = true) (htable : h.loc.isTable = false) {old : Nat}
    (hold : ofBytes (((s.readLoc h.loc 16).drop (e * p.esz % 16)).take p.esz) = old) :
    s.reduceGran i mask [(e, v)] g = some (({ s with posted := SMap.put s.posted i (p.reduced e mask old v) } : State).performResult p.ctx
      ((p.dst + 16 * g) % 2 ^ 64) h (p.resultData e g (if SMap.getD p.terms 0 e = 0 then v else (p.combine old v).1)) (p.granTag g)) := by
  have hmay : (!h.w || !h.peerW || h.loc.isTable) = false := by rw [hw, hpeer, htable]; rfl
  have hhere : [(e, v)].filter (fun y => y.1 * p.esz / 16 == g) = [(e, v)] := List.filter_eq_self.mpr fun y hy => by
    rw [List.mem_singleton.mp hy]
    exact beq_iff_eq.mpr hg
  have hany (e' : Nat) : ([(e, v)].any fun y => y.1 == e') = decide (e' = e) := by
    rw [List.any_cons, List.any_nil, Bool.or_false, Bool.beq_comm]
    rfl
  unfold State.reduceGran
  rw [hp]
  dsimp only
  rw [hc, Option.map_some, hh]
  dsimp only
  rw [hmay, if_neg Bool.false_ne_true, hhere]
  simp only [hany, decide_eq_true_eq]
  subst hold
  rw [← Posted.reduced_acc p e mask, Posted.resultData_eq p e g fun e' => SMap.getD (p.reduced e mask _ v).acc 0 e']
  rfl

theorem State.reduceRun_single (s : State) (i mask : Nat) (terms : List (Nat × Nat)) (g : Nat) :
    s.reduceRun i mask terms [g] = s.reduceGran i mask terms g := Option.bind_fun_some _

/-- The machine once a base die has taken the oldest command of its queue, with the command's entry as it stands (R224). -/
def State.takeCommand (s : State) (stack : Nat) (rest : List Command) (i : Nat) (p : Posted) : State :=
  { ({ s with commands := SMap.setD s.commands [] stack rest } : State).count (cntStack stack 2) 1 with posted := SMap.put s.posted i p }

/-- Taking a command changes the parlour's part of the machine alone. -/
theorem State.takeCommand_parleys (s : State) (stack : Nat) (rest : List Command) (i : Nat) (p : Posted) :
    s.parleys (s.takeCommand stack rest i p) := rfl

theorem State.readLoc_beside (s r : State) (l : Loc) (n : Nat) : (s.beside r).readLoc l n = s.readLoc l n := by
  have hwindow (c o n : Nat) : (s.beside r).winRead c o n = s.winRead c o n := by
    induction n generalizing o with
    | zero => rfl
    | succ n ih => rw [State.winRead, State.winRead, ih]; rfl
  have hscratch (c b n : Nat) : (s.beside r).scrRead c b n = s.scrRead c b n := by
    induction n generalizing b with
    | zero => rfl
    | succ n ih => rw [State.scrRead, State.scrRead, ih]; rfl
  cases l with
  | win c o => exact hwindow c o n
  | scr c b => exact hscratch c b n
  | _ => rfl

/-- The oldest command of a base die, of one term, is combined into DST (R224). -/
theorem exec_baseDieReduce {s : State} {stack v : Nat} {x : Command} {rest : List Command} {p : Posted}
    (hq : SMap.getD s.commands [] stack = x :: rest) (hp : SMap.get? s.posted x.posted = some p) (hctx : p.ctx = x.ctx)
    (hnone : SMap.get? p.status x.chunk = none) (hdata : x.data = [v]) (hmarks : x.marks = []) {s' : State}
    (hgran : (s.takeCommand stack rest x.posted p).reduceGran x.posted x.ranks [(x.elt, v)] (x.elt * p.esz / 16) = some s') :
    exec (.baseDieReduce stack) s = .next s' := by
  have hlive : (p.ctx != x.ctx || (SMap.get? p.status x.chunk).isSome) = false := by rw [hctx, hnone, bne_self_eq_false]; rfl
  have hgrans : p.gransOf [x.elt] = [x.elt * p.esz / 16] := rfl
  change execBaseDieReduce stack s = _
  unfold execBaseDieReduce
  rw [hq]
  dsimp only [State.count]
  rw [hp]
  dsimp only
  rw [hlive, if_neg Bool.false_ne_true, hdata, hmarks]
  dsimp only [List.zipIdx, List.map, List.foldl, Nat.add_zero]
  rw [hgrans]
  dsimp only [State.takeCommand, State.count] at hgran
  rw [State.reduceRun_single, hgran]

theorem baseDieReduce_combines {s : State} {stack v : Nat} {x : Command} {rest : List Command} {p : Posted} {c : Context} {h : Hit}
    (hq : SMap.getD s.commands [] stack = x :: rest) (hp : SMap.get? s.posted x.posted = some p) (hctx : p.ctx = x.ctx)
    (hnone : SMap.get? p.status x.chunk = none) (hdata : x.data = [v]) (hmarks : x.marks = []) (hc : SMap.get? s.ctxs p.ctx = some c) :
    let g := x.elt * p.esz / 16
    let va := (p.dst + 16 * g) % 2 ^ 64
    s.transDev c va = .hit h → h.w = true → h.peerW = true → h.loc.isTable = false →
    let t := SMap.getD p.terms 0 x.elt
    let old := ofBytes (((s.readLoc h.loc 16).drop (x.elt * p.esz % 16)).take p.esz)
    let new := if t = 0 then v else (p.combine old v).1
    let data := (p.granElems g).flatMap fun e => if e = x.elt then (toBytes p.esz new).map some else List.replicate p.esz none
    ∃ s' p', exec (.baseDieReduce stack) s = .next s' ∧ SMap.getD s'.commands [] stack = rest ∧ SMap.get? s'.posted x.posted = some p' ∧
      SMap.get? p'.terms x.elt = some (t ||| x.ranks) ∧
      s'.mem = (({ s with commands := SMap.setD s.commands [] stack rest, posted := SMap.put s.posted x.posted p' } : State).performResult
        p.ctx va h data (p.granTag g)).mem := by
  intro g va hh hw hpeer htable t old new data
  have hrest : SMap.getD (s.takeCommand stack rest x.posted p).commands [] stack = rest := SMap.getD_setD_same ..
  have hposted : SMap.get? (s.takeCommand stack rest x.posted p).posted x.posted = some p := SMap.get?_put_same ..
  have hparley : s.parleys (s.takeCommand stack rest x.posted p) := s.takeCommand_parleys stack rest x.posted p
  have hexec := @exec_baseDieReduce s stack v x rest p hq hp hctx hnone hdata hmarks
  generalize s.takeCommand stack rest x.posted p = s1 at hrest hposted hparley hexec
  have hread : s1.readLoc h.loc 16 = s.readLoc h.loc 16 := by rw [hparley, State.readLoc_beside]
  have htrans : s1.transDev c va = .hit h := by rw [hparley, State.transDev_beside]; exact hh
  have hctxs : SMap.get? s1.ctxs p.ctx = some c := by rw [hparley]; exact hc
  have hgran := State.reduceGran_single (mask := x.ranks) (v := v) hposted hctxs (g := g) rfl htrans hw hpeer htable (old := old) (by rw [hread])
  let s2 : State := { s1 with posted := SMap.put s1.posted x.posted (p.reduced x.elt x.ranks old v) }
  have hbeside := s2.performResult_of_beside p.ctx va h data (p.granTag g)
  refine ⟨s2.performResult p.ctx va h data (p.granTag g), p.reduced x.elt x.ranks old v, hexec hgran, ?_, ?_, p.reduced_terms x.elt x.ranks old v, ?_⟩
  · rw [hbeside]
    exact hrest
  · rw [hbeside]
    exact SMap.get?_put_same ..
  · let s3 : State := { s with commands := SMap.setD s.commands [] stack rest, posted := SMap.put s.posted x.posted (p.reduced x.elt x.ranks old v) }
    have hout : s3.parleys s2 := (State.parleys.trans (s1 := s) rfl hparley).trans rfl
    rw [hout, State.performResult_beside]
    rfl

theorem twTag_landedTw (whole : Bool) (g : Tag) (old : Word) : twTag (landedTw whole g old) = g := by
  refine BitVec.eq_of_getLsbD_eq fun i hi => ?_
  rw [twTag, fld, BitVec.getLsbD_extractLsb', Nat.zero_add, landedTw, BitVec.getLsbD_append, if_pos hi, decide_eq_true hi, Bool.true_and]

/-- A landing is written with its eartag (R83, R172, R226). -/
theorem State.performResult_tag (s : State) (cid va : Nat) {a ta : Nat} {h : Hit} (data : List (Option Byte)) (g : Tag) (hloc : h.loc = .hbm a)
    (hta : h.tagAddr = some ta) : twTag ((s.performResult cid va h data g).tagWord ta) = g := by
  unfold State.performResult
  rw [hloc, hta]
  dsimp only
  rw [State.tagWord_setTagWord]
  exact twTag_landedTw _ g _

/-- The integer operations of a collective (R225). -/
theorem Posted.combine_int {p : Posted} (m x : Word) (hty : p.ty = 2) : (p.combine m.toNat x.toNat).1 =
    if p.rop = 0 then (m + x).toNat else if p.rop = 1 then (if x.slt m then x else m).toNat else if p.rop = 2 then (if m.slt x then x else m).toNat
    else (p.combine m.toNat x.toNat).1 := by
  have hslt (a b : Word) : (a.slt b = true) ↔ a.toInt < b.toInt := BitVec.slt_iff_toInt_lt
  split
  · next h0 => simp only [Posted.combine, hty, h0, if_true, BitVec.toNat_add]
  · split
    · next h1 =>
      simp only [Posted.combine, hty, h1, if_true, intOp, sext_toNat, hslt]
      split <;> exact Nat.mod_eq_of_lt (BitVec.isLt _)
    · split
      · next h2 =>
        simp only [Posted.combine, hty, h2, if_true, intOp, sext_toNat, hslt]
        split <;> exact Nat.mod_eq_of_lt (BitVec.isLt _)
      · rfl

theorem collectiveLanding_lands {s : State} {i : Nat} {x : ColLand} {c : Context} {h : Hit} (hx : SMap.get? s.colQ i = some x)
    (hc : SMap.get? s.ctxs x.ctx = some c) (hh : s.transDev c x.va = .hit h) (hw : h.w = true) (hpeer : h.peerW = true) (htable : h.loc.isTable = false) :
    exec (.collectiveLanding i) s = .next (({ s with colQ := SMap.del s.colQ i } : State).performResult x.ctx x.va h x.data x.tag) := by
  change execCollectiveLanding i s = _
  simp only [execCollectiveLanding, hx, hc, hh, hw, hpeer, htable, Bool.not_true, Bool.or_self, Bool.false_eq_true, if_false]

end Sys2Proof.Machine
end

section
/-! SUPPORT. The end of a chunk and of a collective (R217, R220, R226, R227): the status byte, the completion record and vD. -/

namespace Sys2Proof.Machine

/-! ## Records beside other collectives (R71, R237) -/

section
variable {s : State} {uid core : Nat} {engine held : Bool} {cid va seq : Nat} {data : List (List Byte)}

/-- A record that leaves its context alive has a place. -/
theorem State.recWrite_of_live (h : (s.putRecord uid core engine held cid va seq data).live cid = true) : s.recWrite cid va data ≠ .dead := by
  intro hdead
  unfold State.putRecord at h
  simp only [hdead, log_live, endContext_dead] at h
  cases h

theorem State.putRecord_beside (h : s.recWrite cid va data ≠ .dead) (r : State) :
    (s.beside r).putRecord uid core engine held cid va seq data = (s.putRecord uid core engine held cid va seq data).beside r := by
  unfold State.putRecord
  rw [State.recWrite_beside]
  cases hr : s.recWrite cid va data with
  | ok s1 => rfl
  | wait => rfl
  | dead => exact absurd hr h

theorem State.wrs_beside (r : State) (t : Thread) : ∀ (rs : List Reg) (s : State) (a : Nat), (s.beside r).wrs t a rs = (s.wrs t a rs).beside r
  | [], _, _ => rfl
  | x :: rs, s, a => State.wrs_beside r t rs (s.wr t a x) (a + 1)

theorem State.landRegs_beside (s r : State) (u number dst : Nat) (rs : List Reg) :
    (s.beside r).landRegs u number dst rs = (s.landRegs u number dst rs).beside r := by
  have hthread : (s.beside r).thread? u = s.thread? u := rfl
  unfold State.landRegs
  rw [hthread]
  cases s.thread? u with
  | none => rfl
  | some t =>
    dsimp only
    rw [State.wrs_beside]
    rfl

end

/-! ## Entries that are gone (R220, R252) -/

theorem SMap.get?_none_iff {α : Type} {m : SMap α} {i : Nat} : SMap.get? m i = none ↔ ∀ e ∈ m, i ≠ e.1 := by
  induction m with
  | nil => simp [SMap.get?]
  | cons e m ih =>
    obtain ⟨k, v⟩ := e
    rw [SMap.get?, List.forall_mem_cons, ← ih]
    by_cases h : i = k <;> simp [h]

section
variable (s : State)

theorem State.opDone_posted (op : Nat) : (s.opDone op).posted = s.posted := by
  rw [State.opDone_eq]

theorem foldl_posted {α : Type} {f : State → α → State} {l : List α} {s : State} (h : ∀ s a, (f s a).posted = s.posted) :
    (l.foldl f s).posted = s.posted := foldl_keep State.posted f h l s

theorem State.accountCrew_posted (cid crew cause : Nat) : (s.accountCrew cid crew cause).posted = s.posted := by
  unfold State.accountCrew
  extract_lets copies s1 tiles s2 arm s3 s4 rounds s5
  have h1 : s1.posted = s.posted := by apply foldl_posted; exact fun _ _ => rfl
  have h2 : s2.posted = s1.posted := by apply foldl_posted; exact fun _ _ => rfl
  have h3 : s3.posted = s2.posted := by apply foldl_posted; exact fun _ _ => rfl
  have h4 : s4.posted = s3.posted := by apply foldl_posted; exact fun _ _ => rfl
  have hlines (s : State) (ls : List (Nat × Nat)) : (s.lowerLines ls).posted = s.posted := rfl
  dsimp only
  exact (hlines s4 _).trans (((h4.trans h3).trans h2).trans h1)

theorem State.dropCrew_posted (crew : Nat) : (s.dropCrew crew).posted = s.posted := by
  have hlanes (s : State) (qk cid pc n : Nat) : (s.lanes qk cid pc 5 n).posted = s.posted := by
    unfold State.lanes
    split <;> rfl
  have hdiscard (s : State) (u : Nat) : (s.discardThread u).posted = s.posted := by
    change (s.squashAll u).posted = s.posted
    unfold State.squashAll
    split
    · rfl
    · apply foldl_posted
      intro s p
      unfold State.squashPend
      apply foldl_posted
      exact fun s x => hlanes s _ _ _ _
  change ((s.crewThreads crew).foldl (fun (s : State) e => s.discardThread e.1) s).posted = s.posted
  exact foldl_posted fun s e => hdiscard s e.1

/-- A record that finds its place leaves the entries alone. -/
theorem State.recWrite_posted {s s1 : State} {cid va : Nat} {data : List (List Byte)} (h : s.recWrite cid va data = .ok s1) : s1.posted = s.posted := by
  have hbeside := State.recWrite_beside s data s cid va
  rw [show s.beside s = s from rfl, h] at hbeside
  rw [RecOut.ok.inj hbeside]
  rfl

theorem State.recTry_posted (cid va : Nat) (data : List (List Byte)) : (s.recTry cid va data).posted = s.posted := by
  unfold State.recTry
  split
  · next s1 h => exact State.recWrite_posted h
  · rfl

theorem State.endPosted_posted (cause : Nat) (p0 : Posted) : (s.endPosted cause p0).posted = s.posted := by
  have hfail (s : State) (p : Posted) (c code : Nat) : (s.sendFail p c code).posted = s.posted := by
    unfold State.sendFail State.sendOthers
    exact foldl_posted fun _ _ => rfl
  unfold State.endPosted
  extract_lets p code s1 s2 s3
  have h1 : s1.posted = s.posted := by apply foldl_posted; exact fun _ _ => rfl
  have h2 : s2.posted = s1.posted := by apply foldl_posted; exact fun s k => hfail s p k (code k)
  have h3 : s3.posted = s2.posted := by apply foldl_posted; exact fun s k => s.recTry_posted _ _ _
  exact (s3.recTry_posted _ _ _).trans ((h3.trans h2).trans h1)

/-- The end of a context takes its entries with it (R252). -/
theorem State.endContext_posted (cid cause : Nat) : (s.endContext cid cause).posted = s.posted.filter fun e => e.2.ctx != cid := by
  have hreport (s : State) (l : Launch) (id : Nat) : (s.reportFailed l id).posted = s.posted := by
    unfold State.reportFailed
    split <;> rfl
  unfold State.endContext
  extract_lets crews s1 s2 s3 gone s4
  have h1 : s1.posted = s.posted := by
    apply foldl_posted
    exact fun s e => (State.dropCrew_posted _ e.1).trans (s.accountCrew_posted cid e.1 cause)
  have h2 : s2.posted = s1.posted := by
    unfold s2
    split
    · rfl
    · apply foldl_posted
      intro s n
      extract_lets x sn
      have hrecs : sn.posted = s.posted := by apply foldl_posted; exact fun _ _ => rfl
      clear_value sn x
      cases x with
      | none => exact hrecs
      | some y =>
        dsimp only
        split <;> exact hrecs
  have h3 : s3.posted = s2.posted := by apply foldl_posted; exact fun s e => s.endPosted_posted cause e.2
  have h4 : s4.posted = s3.posted := by apply foldl_posted; exact fun s e => hreport _ _ _
  exact congrArg (List.filter fun e : Nat × Posted => e.2.ctx != cid) (((h4.trans h3).trans h2).trans h1)

theorem State.putRecord_absent {uid core : Nat} {engine held : Bool} {cid va seq : Nat} {data : List (List Byte)} {i : Nat}
    (h : SMap.get? s.posted i = none) : SMap.get? (s.putRecord uid core engine held cid va seq data).posted i = none := by
  unfold State.putRecord
  cases hr : s.recWrite cid va data with
  | ok s1 => exact (congrArg (SMap.get? · i) (State.recWrite_posted hr)).trans h
  | wait => exact h
  | dead =>
    refine (congrArg (SMap.get? · i) (s.endContext_posted cid 0)).trans (SMap.get?_none_iff.mpr fun e he => ?_)
    exact SMap.get?_none_iff.mp h e (List.mem_filter.mp he).1

end

/-- From `s` to `s1` no collective was posted, and no context came or went. -/
structure State.settles (s s1 : State) : Prop where
  absent : ∀ i, SMap.get? s.posted i = none → SMap.get? s1.posted i = none
  live : ∀ k, s1.live k = s.live k

section
variable {s s1 s2 : State}

theorem State.settles_refl (s : State) : s.settles s := ⟨fun _ h => h, fun _ => rfl⟩

theorem State.settles.trans (h : s.settles s1) (h2 : s1.settles s2) : s.settles s2 :=
  ⟨fun i hi => h2.absent i (h.absent i hi), fun k => (h2.live k).trans (h.live k)⟩

theorem State.settles_of_works (h : s.works s1) : s.settles s1 := ⟨fun _ hi => h.posted_none hi, h.live⟩

theorem State.settles_log (s : State) (cid type status cause id where_ : Nat) : s.settles (s.log cid type status cause id where_) :=
  ⟨fun _ h => h, fun k => log_live s cid type status cause id where_ k⟩

theorem State.settles_foldl {α : Type} {f : State → α → State} (h : ∀ (s : State) a, s.settles (f s a)) :
    ∀ (l : List α) (s : State), s.settles (l.foldl f s)
  | [], s => s.settles_refl
  | a :: l, s => (h s a).trans (State.settles_foldl h l (f s a))

end

section
variable (s : State)

theorem State.settles_endCoord (ctx cid : Nat) : s.settles (s.endCoord ctx cid) := by
  unfold State.endCoord
  split <;> exact ⟨fun _ h => h, fun _ => rfl⟩

theorem State.settles_crewFire (c : Crew) (l : Launch) : s.settles (s.crewFire c l) := by
  have hmisfire (st cid chunk : Nat) : s.settles (s.logMisfire c st cid chunk) := s.settles_log _ _ _ _ _ _
  unfold State.crewFire
  dsimp only
  split
  · split
    · exact s.settles_refl
    · split
      · exact hmisfire _ _ _
      · exact State.settles_of_works (s.works_fireChunk _ _ _)
  · split
    · exact hmisfire _ _ _
    · exact ⟨fun _ h => h, fun _ => rfl⟩
  · exact s.settles_refl

theorem State.settles_finishCrew (crew : Nat) (c : Crew) : s.settles (s.finishCrew crew c) := by
  unfold State.finishCrew
  split
  · exact s.settles_refl
  · exact ((s.settles_crewFire c _).trans (State.settles_foldl (fun s (a : Armed) => s.settles_log _ _ _ _ _ _) _ _)).trans
      ⟨fun _ h => h, fun _ => rfl⟩

theorem State.settles_settleCrew (crew : Nat) : s.settles (s.settleCrew crew) := by
  unfold State.settleCrew
  split
  · exact s.settles_refl
  · split
    · split
      · split
        · exact State.settles.trans (s1 := s.dropMarker _ _) ⟨fun _ h => h, fun _ => rfl⟩ (State.settles_finishCrew _ _ _)
        · exact s.settles_refl
      · dsimp only
        split
        · exact s.settles_finishCrew _ _
        · exact ⟨fun _ h => h, fun _ => rfl⟩
    · exact s.settles_refl

theorem State.recvWithdraw_absent {s : State} {j : Nat} (h : SMap.get? s.posted j = none) (ctx cid rank : Nat) :
    SMap.get? (s.recvWithdraw ctx cid rank).posted j = none := by
  have hmod (f : Coord → Coord) : (s.modCoord ctx cid f).posted = s.posted := by
    unfold State.modCoord
    split <;> rfl
  unfold State.recvWithdraw
  split
  · exact h
  · dsimp only
    split
    · split
      · rw [State.recvAck]
        dsimp only
        rw [hmod, SMap.get?_mod, h]
        split <;> rfl
      · rw [hmod, h]
    · refine Eq.trans ?_ h
      exact congrArg (SMap.get? · j) (hmod _)

theorem State.settles_yieldHigher : s.settles s.yieldHigher := by
  refine ⟨fun j hj => ?_, fun k => by rw [s.parleys_yieldHigher]; rfl⟩
  unfold State.yieldHigher
  split
  · exact hj
  · refine List.foldlRecOn (motive := fun s : State => SMap.get? s.posted j = none) _ _ hj fun s1 h1 e he => ?_
    have hne : j ≠ e.1 := SMap.get?_none_iff.mp hj e (List.mem_filter.mp he).1
    split
    · have hput : SMap.get? (SMap.put s1.posted e.1 { e.2 with state := .withdrawing }) j = none := by rw [SMap.get?_put_ne _ _ hne, h1]
      unfold State.withdrawEntry
      dsimp only
      split
      · exact State.recvWithdraw_absent hput _ _ _
      · exact hput
    · exact h1

/-! ## The end of a collective (R215, R220, R227) -/

/-- The machine of a finished collective when its completion record is about to be written. -/
def State.endedEntry (s : State) (i : Nat) (p : Posted) : State :=
  let s := p.dsts.foldl (fun (s : State) x => s.writePost p x) s
  let s := if p.state == .failed then s else s.unbind p
  let s : State := { s with
    posted := SMap.del s.posted i
    commands := s.commands.map fun e => (e.1, e.2.filter fun x => x.posted != i) }
  (p.fires.foldl (fun (s : State) f => s.opDone f.2) s).opDone p.op

theorem State.finishCollective_eq (i : Nat) (p : Posted) : s.finishCollective i p =
    ((((s.endedEntry i p).putRecord 0 0 true false p.ctx p.res 0 (grans 2 (p.record (s.endedEntry i p).timebase))).endCoord p.ctx p.cid).settleCrew
      p.iss.crew).yieldHigher := rfl

theorem State.settles_finishCollective (i : Nat) (p : Posted) :
    ((s.endedEntry i p).putRecord 0 0 true false p.ctx p.res 0 (grans 2 (p.record (s.endedEntry i p).timebase))).settles (s.finishCollective i p) := by
  rw [State.finishCollective_eq]
  exact ((State.settles_endCoord _ _ _).trans (State.settles_settleCrew _ _)).trans (State.settles_yieldHigher _)

theorem State.endedEntry_absent (i : Nat) (p : Posted) : SMap.get? (s.endedEntry i p).posted i = none := by
  unfold State.endedEntry
  extract_lets s1 s2 s3
  rw [State.opDone_posted, foldl_keep State.posted (fun (s : State) (f : Nat × Nat) => s.opDone f.2) (fun s f => s.opDone_posted f.2) p.fires s3]
  exact (SMap.get?_del ..).trans (if_pos rfl)

/-- A finished collective is gone (R220). -/
theorem State.finishCollective_absent (i : Nat) (p : Posted) : SMap.get? (s.finishCollective i p).posted i = none :=
  (s.settles_finishCollective i p).absent i (State.putRecord_absent _ (s.endedEntry_absent i p))

end

end Sys2Proof.Machine
end

section
/-! SUPPORT. The completion of a chunk (R217, R220, R226, R227). -/

namespace Sys2Proof.Machine

/-! ## A record that leaves its context alive (R71, R237) -/

section
variable {s : State} {uid core : Nat} {engine held : Bool} {cid va seq : Nat} {data : List (List Byte)}

theorem State.putRecord_roll (h : (s.putRecord uid core engine held cid va seq data).live cid = true) :
    (s.putRecord uid core engine held cid va seq data).roll = s.roll :=
  State.roll_of_settled (putRecord_crews h) (putRecord_settled s uid core engine held cid va seq data h)

theorem State.putRecord_status (h : (s.putRecord uid core engine held cid va seq data).live cid = true) {u : Nat} {t : Thread} (ht : s.thread? u = some t) :
    ∃ t1, (s.putRecord uid core engine held cid va seq data).thread? u = some t1 ∧ t1.status = t.status := by
  have hu := State.settled_thread (putRecord_settled s uid core engine held cid va seq data h) u
  rw [ht, Option.map_some] at hu
  obtain ⟨t1, ht1, hbase⟩ := Option.map_eq_some_iff.mp hu
  exact ⟨t1, ht1, (congrArg Thread.status hbase :)⟩

end

/-! ## Chunks (R217, R226, R227) -/

/-- An entry whose fired chunks have read SRC sends nothing more (R217). -/
theorem State.sendFired_of_settled {s : State} {i : Nat} {p : Posted} (hp : SMap.get? s.posted i = some p) (h : p.settled = true) : s.sendFired i = s := by
  unfold State.sendFired
  rw [hp]
  refine List.foldlRecOn (motive := fun s1 : State => s1 = s) _ _ rfl fun s1 h1 c hc => ?_
  have hsettled : (p.srcRead.contains c || !(p.readsSrc c) || (SMap.get? p.status c).isSome) = true := List.all_eq_true.mp h c hc
  subst h1
  unfold State.sendChunk
  rw [hp]
  refine if_pos ?_
  rw [Bool.or_assoc, Bool.or_comm (!p.readsSrc c)] at hsettled
  rw [Bool.or_assoc, Bool.or_assoc, hsettled, Bool.or_true]

/-- An entry once a chunk's landings have completed and its status byte is written (R227). -/
def Posted.completed (p : Posted) (chunk : Nat) : Posted := { p with status := SMap.put p.status chunk 1, written := p.written ++ [chunk] }

/-- The machine with a chunk's completion in its entry. -/
def State.completed (s : State) (i chunk : Nat) : State := { s with posted := SMap.mod s.posted i fun p => p.completed chunk }

section
variable {s : State} {i chunk : Nat} {p : Posted}

theorem State.completed_posted (hp : SMap.get? s.posted i = some p) : SMap.get? (s.completed i chunk).posted i = some (p.completed chunk) := by
  rw [State.completed, SMap.get?_mod_same, hp, Option.map_some]

/-- A chunk that holds every term completes: its status byte is written, and the last chunk ends the collective (R227). -/
theorem exec_chunkComplete (hp : SMap.get? s.posted i = some p) (hsettled : p.settled = true) (hst : p.state = .running) (hchunk : chunk < p.chunks)
    (hnew : p.written.contains chunk = false) (hnone : SMap.get? p.status chunk = none) (hdone : p.chunkDone chunk = true)
    (hqueue : (s.commands.any fun e => e.2.any fun x => x.posted == i && x.chunk == chunk) = false)
    (hlive : (s.putRecord 0 0 true false p.ctx (p.res + 0x20 + chunk) 0 [[1]]).live p.ctx = true) :
    let wrote := (s.putRecord 0 0 true false p.ctx (p.res + 0x20 + chunk) 0 [[1]]).beside (s.completed i chunk)
    exec (.chunkComplete i chunk 1) s =
      .next (if p.written.length + 1 < p.chunks then wrote else wrote.finishCollective i (p.completed chunk)) := by
  intro wrote
  have hfired := State.sendFired_of_settled hp hsettled
  have hok : (decide (chunk < p.chunks) && !p.written.contains chunk && (p.state == .running && p.chunkDone chunk &&
      !(s.commands.any fun e => e.2.any fun x => x.posted == i && x.chunk == chunk))) = true := by
    rw [decide_eq_true hchunk, hnew, hst, hdone, hqueue]
    rfl
  have hwrote : (s.completed i chunk).putRecord 0 0 true false p.ctx (p.res + 0x20 + chunk) 0 [[BitVec.ofNat 8 1]] = wrote :=
    State.putRecord_beside (State.recWrite_of_live hlive) (s.completed i chunk)
  have hposted : SMap.get? wrote.posted i = some (p.completed chunk) := State.completed_posted hp
  have hlen : (p.completed chunk).written.length = p.written.length + 1 := List.length_append
  change execChunkComplete i chunk 1 s = _
  unfold execChunkComplete
  rw [hfired, hp]
  dsimp only
  rw [hnone]
  dsimp only
  rw [if_pos rfl, hok, Bool.not_true, if_neg Bool.false_ne_true, if_pos rfl]
  unfold State.completed Posted.completed at hwrote
  rw [hwrote, hposted]
  dsimp only
  rw [hlen]
  rfl

end

/-! ## vD and the completion record (R215, R227) -/

section
variable {s : State} {i u r : Nat} {p : Posted} {t : Thread}

/-- The registers of the lane that posted, once its collective is Done (R215). -/
def State.landPost (s : State) (p : Posted) (u r : Nat) : State := s.landRegs u p.number r [⟨0, siteTag p.iss.site (p.iss.ord % 256)⟩]

theorem State.writePost_lands (ht : s.thread? u = some t) (hst : t.status ≠ .removed) (hfail : p.nfail = 0) :
    s.writePost p (u, r) = s.landPost p u r := by
  unfold State.writePost
  dsimp only
  rw [ht, hfail]
  exact if_neg (by simpa using hst)

theorem State.endedEntry_lands (hd : p.dsts = [(u, r)]) (ht : s.thread? u = some t) (hst : t.status ≠ .removed) (hfail : p.nfail = 0) :
    (s.landPost p u r).parleys (s.endedEntry i p) ∧ (s.endedEntry i p).timebase = s.timebase := by
  have hland := s.landsTo_landRegs u p.number r [⟨0, siteTag p.iss.site (p.iss.ord % 256)⟩]
  unfold State.endedEntry
  extract_lets s1 s2 s3
  have h1 : s1 = s.landPost p u r := by
    unfold s1
    rw [hd]
    exact State.writePost_lands ht hst hfail
  have h2 : s1.parleys s2 ∧ s2.timebase = s1.timebase := by
    unfold s2
    split
    · exact ⟨rfl, rfl⟩
    · exact ⟨rfl, rfl⟩
  have hdone (s : State) (op : Nat) : (s.opDone op).timebase = s.timebase := by rw [State.opDone_eq]
  constructor
  · rw [← h1]
    have h3 : s2.parleys s3 := rfl
    exact ((h2.1.trans h3).trans (State.parleys_foldl (fun s (f : Nat × Nat) => s.parleys_opDone f.2) p.fires s3)).trans (State.parleys_opDone _ _)
  · rw [hdone, foldl_keep State.timebase (fun (s : State) (f : Nat × Nat) => s.opDone f.2) (fun s f => hdone s f.2) p.fires s3]
    change s2.timebase = s.timebase
    rw [h2.2, h1, State.landPost, hland.1]

/-- A collective that leaves its context alive has a place for its completion record (R227, R237). -/
theorem State.finishCollective_place (hd : p.dsts = [(u, r)]) (ht : s.thread? u = some t) (hst : t.status ≠ .removed) (hfail : p.nfail = 0)
    (hlive : (s.finishCollective i p).live p.ctx = true) :
    (s.landPost p u r).recWrite p.ctx p.res (grans 2 (p.record s.timebase)) ≠ .dead := fun hdead => by
  obtain ⟨hparley, htime⟩ := State.endedEntry_lands (i := i) hd ht hst hfail
  have hplace := State.recWrite_of_live (((s.settles_finishCollective i p).live p.ctx).symm.trans hlive)
  rw [htime, hparley, State.recWrite_beside, hdead] at hplace
  exact hplace rfl

/-- When the last chunk of an entry without failures completes, vD holds its status word and the completion record is written (R215, R227). -/
theorem State.finishCollective_regs (hd : p.dsts = [(u, r)]) (ht : s.thread? u = some t) (hst : t.status ≠ .removed) (hfail : p.nfail = 0)
    (hcrewed : s.crewed = true) (hlive : (s.finishCollective i p).live p.ctx = true) :
    (s.finishCollective i p).regs = ((s.landPost p u r).putRecord 0 0 true false p.ctx p.res 0 (grans 2 (p.record s.timebase))).regs := by
  obtain ⟨hparley, htime⟩ := State.endedEntry_lands (i := i) hd ht hst hfail
  have hplace := State.finishCollective_place hd ht hst hfail hlive
  have halive := ((s.settles_finishCollective i p).live p.ctx).symm.trans hlive
  rw [htime] at halive
  rw [State.finishCollective_eq, htime]
  generalize grans 2 (p.record s.timebase) = data at halive hplace ⊢
  generalize s.endedEntry i p = s4 at hparley halive ⊢
  have hroll : (s4.putRecord 0 0 true false p.ctx p.res 0 data).roll = s.roll := by
    rw [State.putRecord_roll halive, hparley]
    exact (s.landsTo_landRegs u p.number r [⟨0, siteTag p.iss.site (p.iss.ord % 256)⟩]).2
  have hout : s4.putRecord 0 0 true false p.ctx p.res 0 data = ((s.landPost p u r).putRecord 0 0 true false p.ctx p.res 0 data).beside s4 := by
    rw [← State.putRecord_beside hplace, ← hparley]
  generalize s4.putRecord 0 0 true false p.ctx p.res 0 data = s5 at hroll hout ⊢
  have hend := s5.parleys_endCoord p.ctx p.cid
  rw [State.settleCrew_of_crewed, State.parleys_yieldHigher, hend, hout]
  · rfl
  · rw [State.crewed_of_roll (s := s), hcrewed]
    rw [hend]
    exact hroll

end

/-! ## CHUNK_COMPLETE (R226, R227) -/

theorem Posted.chunkDone_of {p : Posted} {chunk : Nat} (hfired : p.fired.contains chunk = true)
    (hheard : (p.elems chunk).isEmpty = true → ∀ r, r < p.members.length → r ≠ p.rank → (SMap.getD p.heard 0 chunk).testBit r = true)
    (hread : p.readsSrc chunk = true → p.srcRead.contains chunk = true)
    (hterms : ∀ e n, (e, n) ∈ p.needs chunk → SMap.getD p.terms 0 e &&& n = n) : p.chunkDone chunk = true := by
  have hmembers : (p.elems chunk).isEmpty = true →
      ((List.range p.members.length).all fun r => r == p.rank || (SMap.getD p.heard 0 chunk).testBit r) = true := fun hempty =>
    List.all_eq_true.mpr fun r hr => by
      by_cases hme : r = p.rank
      · rw [beq_iff_eq.mpr hme, Bool.true_or]
      · rw [hheard hempty r (List.mem_range.mp hr) hme, Bool.or_true]
  have hsrc : (!p.readsSrc chunk || p.srcRead.contains chunk) = true := by
    cases hr : p.readsSrc chunk with
    | false => rfl
    | true => exact hread hr
  have hall : ((p.needs chunk).all fun x => (SMap.getD p.terms 0 x.1 &&& x.2) == x.2) = true :=
    List.all_eq_true.mpr fun x hx => beq_iff_eq.mpr (hterms x.1 x.2 hx)
  rw [Posted.chunkDone, hfired, decide_eq_true hmembers, hsrc, hall]
  rfl

theorem Posted.nfail_completed {p : Posted} (h : (p.status.all fun e => e.2 == 1) = true) (chunk : Nat) : (p.completed chunk).nfail = 0 := by
  have hnone : ((SMap.put p.status chunk 1).filter fun x => x.2 != 1) = [] := List.filter_eq_nil_iff.mpr fun x hx => by
    rcases SMap.mem_put hx with rfl | hx
    · exact Bool.false_ne_true
    · rw [bne, List.all_eq_true.mp h x hx]
      decide
  exact congrArg List.length hnone

theorem chunkComplete_completes {s : State} {i chunk : Nat} {p : Posted} (hp : SMap.get? s.posted i = some p) (hsettled : p.settled = true)
    (hst : p.state = .running) (hchunk : chunk < p.chunks) (hnew : p.written.contains chunk = false) (hnone : SMap.get? p.status chunk = none)
    (hdone : p.chunkDone chunk = true) (hqueue : (s.commands.any fun e => e.2.any fun x => x.posted == i && x.chunk == chunk) = false) :
    let wrote := s.putRecord 0 0 true false p.ctx (p.res + 0x20 + chunk) 0 [[1]]
    wrote.live p.ctx = true →
    (p.written.length + 1 < p.chunks → ∃ s', exec (.chunkComplete i chunk 1) s = .next s' ∧ s'.mem = wrote.mem ∧
      SMap.get? s'.posted i = some { p with status := SMap.put p.status chunk 1, written := p.written ++ [chunk] }) ∧
    (p.chunks ≤ p.written.length + 1 → s.crewed = true → ∃ s', exec (.chunkComplete i chunk 1) s = .next s' ∧
      SMap.get? s'.posted i = none ∧ ∀ u r t, p.dsts = [(u, r)] → (p.status.all fun e => e.2 == 1) = true → s.thread? u = some t →
        t.status ≠ .removed → s'.live p.ctx = true →
        s'.regs = ((wrote.landRegs u p.number r [⟨0, siteTag p.iss.site (p.iss.ord % 256)⟩]).putRecord 0 0 true false p.ctx p.res 0
          (grans 2 (({ p with status := SMap.put p.status chunk 1 } : Posted).record s.timebase))).regs) := by
  intro wrote hlive
  have hexec := exec_chunkComplete hp hsettled hst hchunk hnew hnone hdone hqueue hlive
  refine ⟨fun hmore => ⟨_, hexec.trans (congrArg _ (if_pos hmore)), rfl, State.completed_posted hp⟩, fun hlast hcrewed =>
    ⟨_, hexec.trans (congrArg _ (if_neg (Nat.not_lt.mpr hlast))), State.finishCollective_absent _ i _, fun u r t hd hall ht hstatus hend => ?_⟩⟩
  obtain ⟨t1, ht1, hsame⟩ := State.putRecord_status hlive ht
  have hstatus1 : t1.status ≠ .removed := hsame ▸ hstatus
  have hcrewed1 : (wrote.beside (s.completed i chunk)).crewed = true := (State.crewed_of_roll (State.putRecord_roll hlive)).trans hcrewed
  have hfail := Posted.nfail_completed hall chunk
  have hland : (wrote.beside (s.completed i chunk)).landPost (p.completed chunk) u r = (wrote.landPost p u r).beside (s.completed i chunk) :=
    wrote.landRegs_beside (s.completed i chunk) u p.number r _
  have hplace := State.finishCollective_place (s := wrote.beside (s.completed i chunk)) (p := p.completed chunk) hd ht1 hstatus1 hfail hend
  rw [hland, State.recWrite_beside] at hplace
  rw [State.finishCollective_regs (s := wrote.beside (s.completed i chunk)) (p := p.completed chunk) hd ht1 hstatus1 hfail hcrewed1 hend, hland,
    State.putRecord_beside fun hdead => hplace (congrArg (RecOut.beside (s.completed i chunk)) hdead)]
  rfl

end Sys2Proof.Machine
end

section
/-! SUPPORT. Flits and links (R30, R210, R222), and the obligation about the data of collectives. -/

namespace Sys2Proof.Machine

/-! ## CRC failures and failed links (R210) -/

theorem Chip.retriesOf_setRetries (c : Chip) (port n : Nat) : (c.setRetries port n).retriesOf port = n := by
  unfold Chip.retriesOf Chip.setRetries
  dsimp only
  split
  · next h0 =>
    rw [h0, List.find?_eq_none.mpr fun r hr => by simpa using (List.mem_filter.mp hr).2]
    rfl
  · rw [List.find?_cons_of_pos (p := fun r : Nat × Nat => r.1 == port) (a := (port, n)) (beq_self_eq_true port)]
    rfl

/-- A link that fails is a failed link, whatever its chunks come to (R210, R222). -/
theorem State.failLink_failed (s : State) (port : Nat) : (s.failLink port).chip.linkFailed.contains port = true := by
  unfold State.failLink
  extract_lets chip s1
  have hfailed : s1.chip.linkFailed.contains port = true := by
    change (if s.chip.linkFailed.contains port then s.chip.linkFailed else s.chip.linkFailed ++ [port]).contains port = true
    split
    · assumption
    · simp
  rw [(State.works_foldl (fun s (e : Nat × Posted) => State.works_foldl (fun s c => s.works_failHere e.1 c 3) _ s) _ s1).linkFailed]
  exact hfailed

theorem flitReceive_counts {s : State} {port : Nat} (hw : s.chip.width.getD port 0 ≠ 0) (hf : s.chip.linkFailed.contains port = false) :
    (∃ s', exec (.flitReceive port true) s = .next s' ∧ s'.chip.retriesOf port = 0 ∧ s'.chip.linkFailed = s.chip.linkFailed) ∧
    (s.chip.retriesOf port ≠ 8 → ∃ s', exec (.flitReceive port false) s = .next s' ∧ s'.chip.retriesOf port = s.chip.retriesOf port + 1 ∧
      s'.chip.linkFailed = s.chip.linkFailed) ∧
    (s.chip.retriesOf port = 8 → ∃ s', exec (.flitReceive port false) s = .next s' ∧ s'.chip.linkFailed.contains port = true) := by
  have hup : ¬ (s.chip.width.getD port 0 = 0 || s.chip.linkFailed.contains port) = true := by
    rw [hf, decide_eq_false hw]
    decide
  have hexec (good : Bool) : exec (.flitReceive port good) s = execFlitReceive port good s := rfl
  have hgood : exec (.flitReceive port true) s = .next { s.count (cntPort port 1) 1 with chip := s.chip.setRetries port 0 } := by
    rw [hexec, execFlitReceive, if_neg hup]
    rfl
  have hretry (h8 : s.chip.retriesOf port ≠ 8) : exec (.flitReceive port false) s =
      .next { s.count (cntPort port 2) 1 with chip := s.chip.setRetries port (s.chip.retriesOf port + 1) } := by
    rw [hexec, execFlitReceive, if_neg hup]
    exact if_neg h8
  have hfail (h8 : s.chip.retriesOf port = 8) : exec (.flitReceive port false) s =
      .next (({ s with chip := s.chip.setRetries port 0 } : State).failLink port) := by
    rw [hexec, execFlitReceive, if_neg hup]
    exact if_pos h8
  exact ⟨⟨_, hgood, s.chip.retriesOf_setRetries port 0, rfl⟩, fun h8 => ⟨_, hretry h8, s.chip.retriesOf_setRetries port _, rfl⟩,
    fun h8 => ⟨_, hfail h8, State.failLink_failed _ port⟩⟩

theorem linkTrain_trains {s : State} {port width : Nat} (hport : port < 48) (hwidth : width = 0 ∨ width = 2 ∨ width = 4)
    (hpower : s.chip.powered = true) :
    ∃ s', exec (.linkTrain port width) s = .next s' ∧ s'.chip.linkFailed = s.chip.linkFailed.filter (· != port) ∧ s'.chip.retriesOf port = 0 ∧
      s'.chip.width = s.chip.width.set port width ∧ s'.mem = s.mem := by
  have hmay : ¬ (decide (48 ≤ port) || !([0, 2, 4].contains width) || !s.chip.powered) = true := by
    have hlanes : [0, 2, 4].contains width = true := by simpa using hwidth
    rw [decide_eq_false (Nat.not_le.mpr hport), hlanes, hpower]
    decide
  have hexec : exec (.linkTrain port width) s = .next (State.blockUpdate { s with
      chip := ({ s.chip with width := s.chip.width.set port width, linkFailed := s.chip.linkFailed.filter (· != port) } : Chip).setRetries port 0 }
      fun p => p.portmap.testBit port) := if_neg hmay
  exact ⟨_, hexec, rfl, Chip.retriesOf_setRetries _ port 0, rfl, rfl⟩

/-- Settles O44: runs, commands and landings each come to the write of their granules; a chunk that holds every term leaves
its status byte, and the collective's record and vD with the last one; the ports count CRC failures. -/
theorem collectiveData : Obligations.CollectiveData := by
  unfold Obligations.CollectiveData
  refine ⟨fun _ _ _ _ _ _ marks _ _ hp hc hst hm hnone hrun => receiveReduceArrive_stages marks hp hc hst hm hnone hrun,
    fun _ _ _ _ _ _ _ _ hq hp hctx hnone hdata hmarks hc hh hw hpeer htable => baseDieReduce_combines hq hp hctx hnone hdata hmarks hc hh hw hpeer htable,
    fun s cid va _ _ _ data g hloc hta => s.performResult_tag cid va data g hloc hta, fun _ m x hty => Posted.combine_int m x hty,
    fun _ _ _ _ _ hx hc hh hw hpeer htable => collectiveLanding_lands hx hc hh hw hpeer htable,
    fun s i chunk p hp hsettled hst hchunk hnew hnone hfired hheard hread hterms hqueue hlive _ => ?_,
    fun _ _ hw hf => flitReceive_counts hw hf, fun _ _ _ hport hwidth hpower => linkTrain_trains hport hwidth hpower⟩
  have hdone := Posted.chunkDone_of hfired hheard hread hterms
  obtain ⟨hmore, hlast⟩ := chunkComplete_completes hp hsettled hst hchunk hnew hnone hdone hqueue hlive
  exact ⟨hmore, fun hl _ hcrewed => hlast hl hcrewed⟩

end Sys2Proof.Machine
end
